-- ==== Sys2Proof/Word.lean ====
section
/-! DEFINITION. The words the manual treats as bits: 32-bit registers (R40) and bytes of memory (R6). -/

namespace Sys2Proof

/-- A register access is 32 bits wide (R40). -/
abbrev Word := BitVec 32

/-- One byte of a memory, a packet or a record. -/
abbrev Byte := BitVec 8

end Sys2Proof
end

