-- ==== Sys2Proof/Syntax.lean ====
section
/-! DEFINITION. The commands of the block: one constructor per row of spec/opcode_table.json, in the table's order, with the data that each event brings from outside. -/

namespace Sys2Proof

/-- The three requesters of the register window (R40). -/
inductive Requester where
  | host | mgmt | fw
  deriving DecidableEq, Repr

/-- Requester ID of R40. -/
def Requester.id : Requester → Nat
  | .host => 0
  | .mgmt => 1
  | .fw => 2

/-- Who sent a request to a slice: a core, a hub engine, or the maintenance class (R187). -/
inductive Source where
  | core (g : Nat) | hub | maint
  deriving DecidableEq, Repr

/-- A line access accepted by a slice (R181): bytes `[addr, addr + len)` inside one 128-byte line, with its hint (R180). -/
structure LineReq where
  src : Source
  write : Bool
  addr : Nat
  len : Nat
  data : List Byte
  hint : Nat
  tag : Nat
  deriving DecidableEq, Repr

/-- One scalar atomic or line operation as a slice receives it (R182): AOP codes of R201; `lineOp` marks LINE_ADD, LINE_MIN, LINE_MAX. -/
structure AtomicReq where
  src : Source
  addr : Nat
  op : Nat
  etype : Nat
  lineOp : Bool
  operand : Nat
  comparand : Nat
  data : List Byte
  tag : Nat
  deriving DecidableEq, Repr

/-- A fabric packet: the header fields of R285 and the payload. -/
structure Packet where
  dest : Nat
  src : Nat
  cls : Nat
  kind : Nat
  slice : Nat
  plen : Nat
  hops : Nat
  addr : Nat
  hint : Nat
  tag : Nat
  core : Nat
  pkt : Nat
  srcIdx : Nat
  aux : Nat
  payload : List Byte
  deriving DecidableEq, Repr

/-- A link block as it arrives (R264, R265): eight 128-byte flit slots and the 32 trailer bytes. -/
structure LinkBlock where
  slots : List (List Byte)
  trailer : List Byte
  deriving DecidableEq, Repr

/-- The payload of an IDENT flit (R278). -/
structure Ident where
  serial : Nat
  port : Nat
  phys : Nat
  assigned : Bool
  recheck : Bool
  coord : Nat
  planId : Nat
  cred : List (Nat × Nat)
  deriving DecidableEq, Repr

/-- What training and the core check of one partition measure (R171, R378): lanes that fail, channels that fail as a whole,
local cores that fail the core check, and whether write-back and self-refresh entry met their limits. -/
structure Measured where
  laneFails : List (Nat × Nat)
  chanFails : List Nat
  coreFails : List Nat
  kept : Bool
  deriving DecidableEq, Repr

/-- What Identify and the label read tell of the staging module at bring-up (R354, R356, R357). -/
structure ModuleFacts where
  present : Bool
  width : Nat
  rate : Nat
  lba4k : Bool
  nsze : Nat
  labelBytes : List Byte
  deriving DecidableEq, Repr

/-- The commands: one constructor per row of the table of operations and events. -/
inductive Instr where
  | regWrite (req : Requester) (off size : Nat) (value : Word)
  | readLo (req : Requester) (off : Nat)
  | writeLo (req : Requester) (off : Nat) (value : Word)
  | writeHi (req : Requester) (off : Nat) (value : Word)
  | setAliasWrite (req : Requester) (off : Nat) (value : Word)
  | clearAliasWrite (req : Requester) (off : Nat) (value : Word)
  | toggleAliasWrite (req : Requester) (off : Nat) (value : Word)
  | ugrpWrite (req : Requester) (off : Nat) (value : Word)
  | hubUpdStrobe (req : Requester) (value : Word)
  | updateTransfer
  | hubUpdDiscard (req : Requester) (value : Word)
  | seqWriteBack (req : Requester) (off : Nat) (value : Word)
  | tmrScrub
  | waybillRegenerate
  | meshFlitReceive (bridge : Nat) (crcOk : Bool)
  | wload (core queue : Nat)
  | stream (core queue : Nat)
  | longFreeze (core cycles : Nat)
  | mxBrambleInjArm (req : Requester) (core : Nat) (value : Word)
  | mxCntClr (req : Requester) (core : Nat)
  | qntCntClr (req : Requester) (core : Nat)
  | vchain (core queue : Nat)
  | optim (core queue : Nat)
  | vxBrambleInjArm (req : Requester) (core : Nat) (value : Word)
  | vxCntClr (req : Requester) (core : Nat)
  | sliceAccess (r : LineReq)
  | lineFill (partition : Nat) (wire : List (Nat × Byte))
  | patrolScrub (partition sectors : Nat)
  | pinChangeComplete (partition : Nat)
  | flush (req : Requester) (partition : Nat)
  | invalidate (req : Requester) (partition : Nat)
  | keepRelease (req : Requester) (partition : Nat)
  | scCntClr (req : Requester) (partition : Nat)
  | sliceAtomic (r : AtomicReq)
  | scaleStage (core addr amax : Nat) (under : Bool)
  | sliceScaleRoll (src : Source) (addr step : Nat)
  | sliceArm (src : Source) (addr : Nat)
  | sliceContrib (src : Source) (addr srcIdx line : Nat) (data : List Byte)
  | reductionDone (addr : Nat)
  | retireLane (req : Requester) (partition : Nat) (value : Word)
  | reqOut (req : Requester) (partition : Nat) (value : Word)
  | memChClr (req : Requester) (partition : Nat)
  | memCntClr (req : Requester) (partition : Nat)
  | nop (core queue : Nat)
  | flagDecl (core queue : Nat)
  | counterSet (core queue : Nat)
  | loopBegin (core queue : Nat)
  | loopEnd (core queue : Nat)
  | branch (core queue : Nat)
  | segment (core queue : Nat)
  | copy (core queue : Nat)
  | atomic (core queue : Nat)
  | lineOp (core queue : Nat)
  | redArm (core queue : Nat)
  | redContrib (core queue : Nat)
  | scaleRoll (core queue : Nat)
  | put (core queue : Nat)
  | rcontrib (core queue : Nat)
  | notify (core queue : Nat)
  | descriptorComplete (core queue : Nat)
  | signalArrive
  | deferredPromotion (core queue : Nat)
  | branchSelect (core queue : Nat)
  | qbrselWrite (req : Requester) (core queue : Nat) (value : Word)
  | queueDiscard (req : Requester) (core queue : Nat)
  | queueResume (req : Requester) (core queue : Nat)
  | loopCountWrite (req : Requester) (core reg : Nat) (value : Word)
  | deadlock (core : Nat)
  | hostLinkDown
  | hqLinkRetrain (req : Requester)
  | dmemRd (tag addr units : Nat)
  | dmemWr (addr : Nat) (data : List Byte)
  | hostPacketReserved (ptype tag : Nat) (nonPosted : Bool)
  | hmemRdCompletion (tag status : Nat) (data : List Byte)
  | hmemRdTimeout (tag : Nat)
  | hqWake (req : Requester) (value : Word)
  | ringPoll (ring : Nat)
  | ringFetch (ring : Nat)
  | ringRun (req : Requester) (value : Word)
  | ringPause (req : Requester) (value : Word)
  | hqRingCidxWrite (req : Requester) (value : Word)
  | hqCqHeadWrite (req : Requester) (value : Word)
  | cqEnable (req : Requester) (value : Word)
  | interruptHoldoff (cq : Nat)
  | phyTrainEnd (port : Nat) (ok : Bool)
  | identSend (port : Nat)
  | identTimeout (port : Nat)
  | identReceive (port : Nat) (ident : Ident)
  | recheckTimeout (port : Nat)
  | linkBlockReceive (port : Nat) (fecOk : Bool) (corrected : Nat) (block : LinkBlock)
  | replayTimeout (port : Nat)
  | fabLinkDown (port : Nat)
  | fabRetrain (req : Requester)
  | fabCntClr (req : Requester)
  | packetRoute (input : Nat)
  | ackReceive (p : Packet)
  | routePlan (plan : List Byte)
  | jobStart (req : Requester)
  | jobEnd (req : Requester)
  | interlude (req : Requester) (on : Bool)
  | stepOpen (req : Requester)
  | pannierCopyDone
  | seal (req : Requester)
  | close (req : Requester)
  | replay (req : Requester)
  | resolveCommit (req : Requester)
  | resolveFail (req : Requester)
  | digCompare (req : Requester)
  | voteLine (level : Nat) (line : List Byte)
  | voteResult (line : List Byte)
  | voteTimeout
  | digDone
  | fence (req : Requester) (partition : Nat)
  | remount (req : Requester) (partition : Nat)
  | save (req : Requester)
  | restore (req : Requester)
  | adopt (req : Requester)
  | query (req : Requester)
  | ckpExport (req : Requester)
  | ckpImport (req : Requester)
  | importCommit (req : Requester)
  | format (req : Requester)
  | ckpAbort (req : Requester)
  | moduleReset (req : Requester)
  | captureEnd
  | nvmeCompletion (id status : Nat) (data : List Byte)
  | nvmeTimeout (id : Nat)
  | stagingLinkDown
  | stagingInbound (write : Bool) (addr : Nat) (len : Nat) (data : List Byte)
  | autoSaveStart
  | hang (kind index : Nat)
  | partitionReset (req : Requester) (value : Word) (m : Measured)
  | eventAgeOut (kind index sig : Nat)
  | exportAck (req : Requester)
  | clearVerdict (req : Requester)
  | apply (req : Requester)
  | retest (req : Requester)
  | cperSend
  | fhDigestRecompute
  | operatingSecond
  | istWindowOpen (core : Nat)
  | istPreempt (core delay : Nat)
  | istPatternDone (core pattern cycles : Nat) (expected got : Nat)
  | sweep (req : Requester)
  | abortSweep (req : Requester)
  | sweepDone
  | testPackage (pkg : List Byte)
  | ledgerTick
  | timeExchange
  | timeRequest (p : Packet)
  | timeResponse (p : Packet)
  | noResp
  | timeSet (req : Requester) (value : Word)
  | snapArm (req : Requester)
  | snapshotTaken
  | snapBcastReceive (p : Packet)
  | ledgerAck (req : Requester)
  | rootUnlock (refStopped : Bool)
  | rootLock (ms : List (Nat × Measured))
  | powerSum (watts : Nat)
  | pwrAlert (asserted : Bool)
  | thermalThrottle (compute stack hub host : Nat)
  | thermtrip (compute stack hub host : Nat)
  | coldPowerOn
  | resetNAssert (ms : List (Nat × Measured))
  | packageReset (req : Requester) (value : Word) (ms : List (Nat × Measured))
  | hubReset (req : Requester) (value : Word) (ms : List (Nat × Measured))
  | railFail
  | avsAckTimeout (regulator : Nat)
  | vmiLoss
  | p1Enter (partition : Nat)
  | p1Exit (partition : Nat)
  | p2Enter (req : Requester) (value : Word) (kept : Bool)
  | p2Exit (req : Requester) (value : Word) (m : Measured)
  | p3Enter (req : Requester)
  | p3Wake
  | i3cWake
  | settingsStore (req : Requester)
  | settingsRead (req : Requester)
  | settingsErase (req : Requester)
  | settingsDone
  | routingRecordStore
  | imageLoad (image : List Byte)
  | operatorKeyEnvelope (envelope : List Byte)
  | grant (g : List Byte)
  | grantExpiry
  | attestRequest (nonce : List Byte)
  | secAttestGo (req : Requester)
  | attestDone
  | regRead (req : Requester) (off size : Nat)
  | ucieTrainEnd (modules32 modules16 : Nat)
  | stagingLinkTrainEnd (facts : ModuleFacts)
  | pgMainAssert (ms : List (Nat × Measured))
  | resetNRelease
  | i3cDynamicAddress (addr : Nat)
  deriving DecidableEq, Repr

end Sys2Proof
end

