-- ==== Sys2Proof/Decode.lean ====
section
/-! DEFINITION. The decoding of table words: no row of the table of operations and events gives its command bits. -/

namespace Sys2Proof

/-- The command that a word spells by the table's bits: none, for the table gives no row any bits. -/
def decodeTableWord (_nbits _w : Nat) : Option Instr := none

end Sys2Proof
end

