-- ==== Sys2Proof/Config.lean ====
section
/-! DEFINITION. What the manual leaves open: uninterpreted constants (free values) and the constants that an implementation fixes. -/

namespace Sys2Proof.Config

/-- Fresh free bits, applied to the counter `State.free` (log 7). -/
opaque freeNat : Nat → Nat

/-- Choice of the result of a class T operation of R154 (operation code, FP32 operand bits): among the values within the bound, or, where the
manual's formula has no value, its FP32 bits (log 13). -/
opaque elementary : Nat → Nat → Nat

/-- IEEE flags of a class T operation where the manual's formula has no value (log 13). -/
opaque elementaryFlags : Nat → Nat → Nat

/-- The way that pseudo-LRU names in a set, from the recency order of the set's lines (log 14). -/
opaque lruVictim : List Nat → Nat

/-- ML-DSA-65: does a signature verify under a public key over a message (log 15)? -/
opaque mldsaVerify : List Byte → List Byte → List Byte → Bool

/-- The device's ML-DSA-65 signature over a message (log 15). -/
opaque mldsaSign : List Byte → List Byte

/-- How a sector damaged beyond the decoder's limit reads: miscorrected data, or `none` where it is seen as uncorrectable (R168, log 16). -/
opaque beyondLimit : List Byte → Option (List Byte)

/-- The device's own ML-DSA-65 certificate, written at manufacture (log 6). -/
opaque certificate : List Byte

/-- Digest of the boot ROM (R449, log 6). -/
opaque romDigest : List Byte

/-- Digest of the firmware image of a type (1 hub, 2 core) that the device leaves manufacture with (log 6). -/
opaque factoryImage : Nat → List Byte

/-- Fused SHA3-256 of the Arzeut root key of a slot (R439, log 4). -/
opaque rootKeyHash : Nat → List Byte

/-- The Arzeut key under which test packages verify: the manual does not name its slot (R392, R439). -/
opaque packageKey : List Byte

/-- Patterns of the baseline set of the boot ROM (R393): the manual does not count them. -/
opaque baselinePatterns : Nat

/-- Images of the grade, spare-map and column fuses, as attestation digests them (R449, log 4). -/
opaque gradeFuses : List Byte

/-- Serial number fused at manufacture (log 4). -/
def serial : Nat := 1

end Sys2Proof.Config
end

