-- ==== Sys2Proof/Machine/Bits.lean ====
section
/-! DEFINITION. Bit fields, byte order (R6) and the sorted lists that hold every sparse store of the machine. -/

namespace Sys2Proof.Machine

/-- Bits [hi:lo] of a number (R6). -/
def bits (hi lo n : Nat) : Nat := (n >>> lo) % 2 ^ (hi + 1 - lo)

/-- One bit of a number as a Boolean. -/
def bit (i n : Nat) : Bool := bits i i n == 1

/-- A number with bits [hi:lo] replaced by `v`. -/
def putBits (hi lo v n : Nat) : Nat :=
  n % 2 ^ lo + (v % 2 ^ (hi + 1 - lo)) * 2 ^ lo + (n >>> (hi + 1)) * 2 ^ (hi + 1)

/-- Bits [hi:lo] of a register word. -/
def wbits (hi lo : Nat) (w : Word) : Nat := bits hi lo w.toNat

/-- A register word with bits [hi:lo] replaced by `v`. -/
def wput (hi lo v : Nat) (w : Word) : Word := BitVec.ofNat 32 (putBits hi lo v w.toNat)

/-- A Boolean as the bit a register holds. -/
def b2n (b : Bool) : Nat := if b then 1 else 0

/-- The mask of bits [hi:lo]. -/
def fmask (hi lo : Nat) : Word := BitVec.ofNat 32 ((2 ^ (hi + 1 - lo) - 1) * 2 ^ lo)

/-- The low `w` bits of `n` read as two's complement. -/
def sext (w n : Nat) : Int :=
  let m := n % 2 ^ w
  if m < 2 ^ (w - 1) then (m : Int) else (m : Int) - (2 ^ w : Nat)

/-- An integer as `w` bits of two's complement. -/
def unsext (w : Nat) (i : Int) : Nat := (i % ((2 ^ w : Nat) : Int)).toNat

/-- `k` little-endian bytes of `n` (R6). -/
def toLE : Nat → Nat → List Byte
  | 0, _ => []
  | k + 1, n => BitVec.ofNat 8 n :: toLE k (n / 256)

/-- The number a list of bytes spells little-endian (R6). -/
def ofLE : List Byte → Nat
  | [] => 0
  | b :: t => b.toNat + 256 * ofLE t

/-- Bytes `[off, off + len)` of a list of bytes; bytes beyond its end read as zero. -/
def slice (off len : Nat) (l : List Byte) : List Byte :=
  let r := (l.drop off).take len
  r ++ List.replicate (len - r.length) 0

/-- Little-endian field of `len` bytes at `off`. -/
def fieldLE (off len : Nat) (l : List Byte) : Nat := ofLE (slice off len l)

/-- Overwrite bytes from `off` on. -/
def patch (off : Nat) (new l : List Byte) : List Byte :=
  slice 0 off l ++ new ++ l.drop (off + new.length)

/-- A list padded with zero bytes, or cut, to `n` bytes. -/
def padTo (n : Nat) (l : List Byte) : List Byte := slice 0 n l

/-- The list `[a, a + n)`. -/
def span (a n : Nat) : List Nat := (List.range n).map (a + ·)

/-- Saturating increment of a 32-bit count. -/
def satAdd (a b : Nat) : Nat := min (a + b) 0xFFFFFFFF

/-- Rounded-up quotient. -/
def ceilDiv (a b : Nat) : Nat := (a + b - 1) / b

/-! ### Sparse stores: lists of (key, value), keys rising, no value equal to the default of its key -/

/-- What a sparse store holds at a key; `d` gives what an unlisted key reads as. -/
def sget {α : Type} (d : Nat → α) : List (Nat × α) → Nat → α
  | [], x => d x
  | (k, v) :: t, x => if x = k then v else sget d t x

/-- Insert an entry before the first larger key. -/
def sins {α : Type} : List (Nat × α) → Nat → α → List (Nat × α)
  | [], x, v => [(x, v)]
  | (k, w) :: t, x, v => if x < k then (x, v) :: (k, w) :: t else (k, w) :: sins t x v

/-- Drop a key. -/
def adel {α : Type} (l : List (Nat × α)) (x : Nat) : List (Nat × α) := l.filter (fun e => e.1 != x)

/-- Write one key, keeping the canonical form. -/
def sput {α : Type} [DecidableEq α] (d : Nat → α) (l : List (Nat × α)) (x : Nat) (v : α) : List (Nat × α) :=
  if v = d x then adel l x else sins (adel l x) x v

/-- The canonical form of a sparse store: every key above `lo`, rising, and no entry equal to its default. -/
def swfFrom {α : Type} [DecidableEq α] (d : Nat → α) : Nat → List (Nat × α) → Bool
  | _, [] => true
  | lo, (k, v) :: t => decide (lo ≤ k) && decide (v ≠ d k) && swfFrom d (k + 1) t

/-- The canonical form of a sparse store. -/
def swf {α : Type} [DecidableEq α] (d : Nat → α) (l : List (Nat × α)) : Bool := swfFrom d 0 l

/-- Look a key up in a list of optional entries. -/
def aget {α : Type} : List (Nat × α) → Nat → Option α
  | [], _ => none
  | (k, v) :: t, x => if x = k then some v else aget t x

/-- Enter a key, keeping the keys rising. -/
def aput {α : Type} (l : List (Nat × α)) (x : Nat) (v : α) : List (Nat × α) := sins (adel l x) x v

/-- Replace the element at an index. -/
def setAt {α : Type} (l : List α) (i : Nat) (v : α) : List α := l.set i v

/-- The first position of the list whose element satisfies a test. -/
def findIdx? {α : Type} (p : α → Bool) : List α → Option Nat
  | [] => none
  | a :: t => if p a then some 0 else (findIdx? p t).map (· + 1)

/-- Insert by key, after every element whose key is not larger. -/
def insertBy {α : Type} (key : α → Nat) (a : α) : List α → List α
  | [] => [a]
  | b :: t => if key a < key b then a :: b :: t else b :: insertBy key a t

/-- Stable order by key. -/
def sortBy {α : Type} (key : α → Nat) (l : List α) : List α := l.foldl (fun acc a => insertBy key a acc) []

/-! ### Byte memories -/

/-- What a byte that nothing has written reads as (log 3). -/
def blank : Nat → Byte := fun _ => 0

/-- The canonical form of a memory: rising addresses, no listed byte equal to what an unlisted address reads as. -/
def Memory.wf (m : List (Nat × Byte)) : Bool := swf blank m

/-- One byte of a memory. -/
def mrd (m : List (Nat × Byte)) (a : Nat) : Byte := sget blank m a

/-- Write one byte of a memory. -/
def mwr (m : List (Nat × Byte)) (a : Nat) (v : Byte) : List (Nat × Byte) := sput blank m a v

/-- `n` bytes from an address on. -/
def mrdN (m : List (Nat × Byte)) (a n : Nat) : List Byte := (span a n).map (mrd m)

/-- Write bytes from an address on. -/
def mwrN : List (Nat × Byte) → Nat → List Byte → List (Nat × Byte)
  | m, _, [] => m
  | m, a, b :: t => mwrN (mwr m a b) (a + 1) t

/-- Little-endian number of `n` bytes at an address. -/
def mrdLE (m : List (Nat × Byte)) (a n : Nat) : Nat := ofLE (mrdN m a n)

/-- Forget every byte from `a` on, `n` bytes. -/
def mclear (m : List (Nat × Byte)) (a n : Nat) : List (Nat × Byte) :=
  m.filter (fun e => e.1 < a || a + n ≤ e.1)

end Sys2Proof.Machine
end

