-- ==== Sys2Proof/Machine/Ecc.lean ====
section
/-! DEFINITION. The sector code of the stacks: Reed-Solomon RS(36,32) over GF(2^8) (R167, R168). -/

namespace Sys2Proof.Machine

/-- Multiply by α in GF(2^8) with x^8 + x^4 + x^3 + x^2 + 1 (R167). -/
def gfTimesA (a : Nat) : Nat := if a < 128 then 2 * a else Nat.xor (2 * a) 0x11D

/-- Product in GF(2^8), by the bits of the second factor from bit `k - 1` down. -/
def gfMulAux : Nat → Nat → Nat → Nat
  | 0, _, _ => 0
  | k + 1, a, b => Nat.xor (gfTimesA (gfMulAux k a (b / 2))) (if b % 2 = 1 then a else 0)

/-- Product in GF(2^8). -/
def gfMul (a b : Nat) : Nat := gfMulAux 8 a b

/-- α to a power. -/
def gfPow : Nat → Nat
  | 0 => 1
  | k + 1 => gfTimesA (gfPow k)

/-- Inverse of a non-zero element: its 254th power. -/
def gfInv (a : Nat) : Nat := (List.range 253).foldl (fun acc _ => gfMul acc a) a

/-- Coefficients of g(x) below x^4, from x^3 down to x^0 (R167). -/
def rsGen : List Nat :=
  let step := fun (p : List Nat) (r : Nat) =>
    (List.range (p.length + 1)).map fun i => Nat.xor (p.getD i 0) (if i = 0 then 0 else gfMul r (p.getD (i - 1) 0))
  ((List.range 4).foldl (fun p i => step p (gfPow i)) [1]).drop 1

/-- Shift one data symbol through the divider. -/
def rsShift (g : List Nat) (r : List Nat) (d : Nat) : List Nat :=
  let f := Nat.xor d (r.getD 0 0)
  (List.range 4).map fun i => Nat.xor (r.getD (i + 1) 0) (gfMul f (g.getD i 0))

/-- The four check symbols of 32 data bytes (R167). -/
def rsCheck (data : List Byte) : List Nat := data.foldl (fun r b => rsShift rsGen r b.toNat) [0, 0, 0, 0]

/-- Check symbols packed as the store keeps them, symbol 32 lowest. -/
def rsPack (c : List Nat) : Nat := c.foldr (fun x n => x + 256 * n) 0

/-- A codeword's 36 symbols from data bytes and packed check symbols. -/
def rsWord (data : List Byte) (check : Nat) : List Nat := data.map (·.toNat) ++ (toLE 4 check).map (·.toNat)

/-- Syndrome `j` of a received word. -/
def rsSyndrome (w : List Nat) (j : Nat) : Nat := w.foldl (fun acc c => Nat.xor (gfMul acc (gfPow j)) c) 0

/-- The position and value of one wrong symbol whose syndromes from `j = 0` on are these; none where there is none. -/
def rsOne (syn : List Nat) : Option (Nat × Nat) :=
  let s0 := syn.getD 0 0
  if s0 = 0 then none
  else ((List.range 36).find? fun i =>
    let x := gfPow (35 - i)
    (List.range (syn.length - 1)).all fun j => gfMul (syn.getD j 0) x == syn.getD (j + 1) 0).map (·, s0)

/-- Two wrong symbols with these syndromes. -/
def rsTwo (syn : List Nat) : Option (List (Nat × Nat)) :=
  (List.range 36).findSome? fun i =>
    let x := gfPow (35 - i)
    let t := (List.range 3).map fun j => Nat.xor (syn.getD (j + 1) 0) (gfMul (syn.getD j 0) x)
    match rsOne t with
    | none => none
    | some (k, t0) =>
      if k = i then none
      else
        let e2 := gfMul t0 (gfInv (Nat.xor (gfPow (35 - k)) x))
        let e1 := Nat.xor (syn.getD 0 0) e2
        if e1 = 0 then none else some [(i, e1), (k, e2)]

/-- How a sector decodes. -/
inductive Decoded where
  /-- clean or corrected: data, positions of the corrected symbols -/
  | good (data : List Byte) (fixed : List Nat)
  /-- uncorrectable: the data bits as read -/
  | bad (data : List Byte)
  deriving DecidableEq, Repr

/-- Bytes of a word's first 32 symbols. -/
def rsData (w : List Nat) : List Byte := (w.take 32).map (BitVec.ofNat 8)

/-- A word with symbols changed. -/
def rsFix (w : List Nat) (es : List (Nat × Nat)) : List Nat := es.foldl (fun w e => w.set e.1 (Nat.xor (w.getD e.1 0) e.2)) w

/-- Decode a received word in a mode of R168. Beyond two symbols the two-symbol mode may miscorrect (log 16). -/
def rsDecode (ecc2 : Bool) (w : List Nat) : Decoded :=
  let syn := (List.range 4).map (rsSyndrome w)
  if syn.all (· == 0) then .good (rsData w) []
  else
    match rsOne syn with
    | some e => .good (rsData (rsFix w [e])) [e.1]
    | none =>
      if ecc2 then
        match rsTwo syn with
        | some es => .good (rsData (rsFix w es)) (es.map (·.1))
        | none =>
          match Config.beyondLimit (w.map (BitVec.ofNat 8)) with
          | some d => .good (padTo 32 d) []
          | none => .bad (rsData w)
      else .bad (rsData w)

/-- The lane that carries a symbol (R167). -/
def symbolLane (i : Nat) : Nat := if i < 32 then i / 2 else 16 + (i - 32) / 2

end Sys2Proof.Machine
end

