-- ==== Sys2Proof/Machine/RegMap.lean ====
section
/-! DEFINITION. The register map: every register of the register pages with its offset, its fields, their access codes (R9) and reset values, and a named handle for each field. A table of the manual's own tables; each line names the rule whose page it comes from. -/

namespace Sys2Proof.Machine

/-- Access codes of R9; `tmrb` is a triplicated field that also waits for its update group (R59, R301). -/
inductive Acc where
  | rw | ro | rwb | seq | tmr | tmrb | w1p | rbr
  deriving DecidableEq, Repr

/-- One field: bits [hi:lo], access code, reset value. -/
structure FDef where
  hi : Nat
  lo : Nat
  acc : Acc
  rst : Nat
  deriving DecidableEq, Repr

/-- One register, or `count` like registers `stride` bytes apart. -/
structure RegDef where
  off : Nat
  count : Nat
  stride : Nat
  fields : List FDef
  deriving DecidableEq, Repr

/-- The register pages (R62 to R64): one constructor for each page of like instances. -/
inductive Blk where
  | hub
  | hubSr
  | hq
  | hqRing
  | hqCq
  | fab
  | fabP
  | rt
  | rtMap
  | rtEntry
  | ckp
  | fh
  | ist
  | time
  | ledger
  | clk
  | rst
  | pwr
  | set
  | sec
  | i3c
  | ptn
  | ptnCore
  | mem
  | memCh
  | sc
  | core
  | seqQ
  | seqF
  | mx
  | vx
  | qnt
  deriving DecidableEq, Repr

/-- The number of a page in register keys. -/
def Blk.code : Blk → Nat
  | .hub => 0
  | .hubSr => 1
  | .hq => 2
  | .hqRing => 3
  | .hqCq => 4
  | .fab => 5
  | .fabP => 6
  | .rt => 7
  | .rtMap => 8
  | .rtEntry => 9
  | .ckp => 10
  | .fh => 11
  | .ist => 12
  | .time => 13
  | .ledger => 14
  | .clk => 15
  | .rst => 16
  | .pwr => 17
  | .set => 18
  | .sec => 19
  | .i3c => 20
  | .ptn => 21
  | .ptnCore => 22
  | .mem => 23
  | .memCh => 24
  | .sc => 25
  | .core => 26
  | .seqQ => 27
  | .seqF => 28
  | .mx => 29
  | .vx => 30
  | .qnt => 31

/-- The page of a number. -/
def Blk.ofCode : Nat → Option Blk
  | 0 => some .hub
  | 1 => some .hubSr
  | 2 => some .hq
  | 3 => some .hqRing
  | 4 => some .hqCq
  | 5 => some .fab
  | 6 => some .fabP
  | 7 => some .rt
  | 8 => some .rtMap
  | 9 => some .rtEntry
  | 10 => some .ckp
  | 11 => some .fh
  | 12 => some .ist
  | 13 => some .time
  | 14 => some .ledger
  | 15 => some .clk
  | 16 => some .rst
  | 17 => some .pwr
  | 18 => some .set
  | 19 => some .sec
  | 20 => some .i3c
  | 21 => some .ptn
  | 22 => some .ptnCore
  | 23 => some .mem
  | 24 => some .memCh
  | 25 => some .sc
  | 26 => some .core
  | 27 => some .seqQ
  | 28 => some .seqF
  | 29 => some .mx
  | 30 => some .vx
  | 31 => some .qnt
  | _ => none

/-- Registers of the page `hub` (R38, R55, R60, R324). -/
def regsHub : List RegDef :=
[
  ⟨0x0, 1, 4, [⟨31, 0, .ro, 1⟩]⟩,
  ⟨0x10, 1, 4, [⟨31, 16, .rbr, 0⟩, ⟨15, 0, .w1p, 0⟩]⟩,
  ⟨0x14, 1, 4, [⟨31, 16, .rbr, 0⟩, ⟨15, 0, .w1p, 0⟩]⟩,
  ⟨0x18, 1, 4, [⟨31, 16, .rbr, 0⟩, ⟨15, 0, .ro, 0⟩]⟩,
  ⟨0x1c, 1, 4, [⟨31, 16, .seq, 0⟩, ⟨15, 0, .seq, 0⟩]⟩,
  ⟨0x20, 1, 4, [⟨31, 20, .rbr, 0⟩, ⟨19, 0, .ro, 0⟩]⟩,
  ⟨0x24, 1, 4, [⟨31, 1, .rbr, 0⟩, ⟨0, 0, .rw, 0⟩]⟩,
  ⟨0x28, 1, 4, [⟨31, 16, .seq, 0⟩, ⟨15, 8, .seq, 0⟩, ⟨7, 2, .rbr, 0⟩, ⟨1, 0, .seq, 0⟩]⟩,
  ⟨0x2c, 1, 4, [⟨31, 26, .rbr, 0⟩, ⟨25, 0, .ro, 0⟩]⟩,
  ⟨0x3fc, 1, 4, [⟨31, 4, .rbr, 0⟩, ⟨3, 0, .rw, 0⟩]⟩,
  ⟨0x30, 1, 4, [⟨31, 0, .ro, 0⟩]⟩,
  ⟨0x34, 1, 4, [⟨31, 0, .ro, 0⟩]⟩,
  ⟨0x38, 1, 4, [⟨31, 16, .seq, 0⟩, ⟨15, 1, .rbr, 0⟩, ⟨0, 0, .seq, 0⟩]⟩,
  ⟨0x3c, 1, 4, [⟨31, 26, .rbr, 0⟩, ⟨25, 0, .ro, 0⟩]⟩,
  ⟨0x40, 1, 4, [⟨31, 6, .rbr, 0⟩, ⟨5, 4, .rwb, 0⟩, ⟨3, 3, .rbr, 0⟩, ⟨2, 2, .rw, 0⟩, ⟨1, 1, .w1p, 0⟩, ⟨0, 0, .w1p, 0⟩]⟩,
  ⟨0x44, 1, 4, [⟨31, 2, .rbr, 0⟩, ⟨1, 1, .ro, 0⟩, ⟨0, 0, .ro, 0⟩]⟩
  ]
  ++ [
  ⟨0x48, 1, 4, [⟨31, 16, .seq, 0⟩, ⟨15, 2, .rbr, 0⟩, ⟨1, 1, .seq, 0⟩, ⟨0, 0, .seq, 0⟩]⟩,
  ⟨0x50, 1, 4, [⟨31, 0, .rw, 0⟩]⟩,
  ⟨0x54, 1, 4, [⟨31, 16, .rbr, 0⟩, ⟨15, 0, .rw, 0⟩]⟩
  ]

/-- Registers of the page `hubSr` (R351). -/
def regsHubSr : List RegDef :=
[
  ⟨0x0, 1, 4, [⟨31, 28, .rwb, 3⟩, ⟨27, 20, .rwb, 255⟩, ⟨19, 12, .rwb, 8⟩, ⟨11, 7, .rwb, 0⟩, ⟨6, 5, .rwb, 2⟩, ⟨4, 4, .rbr, 0⟩, ⟨3, 3, .rwb, 1⟩, ⟨2, 2, .rwb, 1⟩, ⟨1, 1, .rwb, 1⟩, ⟨0, 0, .rwb, 1⟩]⟩,
  ⟨0x4, 1, 4, [⟨31, 8, .rbr, 0⟩, ⟨7, 7, .w1p, 0⟩, ⟨6, 6, .w1p, 0⟩, ⟨5, 5, .w1p, 0⟩, ⟨4, 4, .w1p, 0⟩, ⟨3, 3, .w1p, 0⟩, ⟨2, 2, .w1p, 0⟩, ⟨1, 1, .w1p, 0⟩, ⟨0, 0, .rbr, 0⟩]⟩,
  ⟨0x8, 1, 4, [⟨31, 28, .ro, 0⟩, ⟨27, 24, .rbr, 0⟩, ⟨23, 21, .ro, 0⟩, ⟨20, 18, .ro, 0⟩, ⟨17, 17, .ro, 0⟩, ⟨16, 16, .ro, 0⟩, ⟨15, 0, .rbr, 0⟩]⟩,
  ⟨0xc, 1, 4, [⟨31, 16, .seq, 0⟩, ⟨15, 11, .rbr, 0⟩, ⟨10, 10, .seq, 0⟩, ⟨9, 9, .seq, 0⟩, ⟨8, 8, .seq, 0⟩, ⟨7, 7, .seq, 0⟩, ⟨6, 6, .seq, 0⟩, ⟨5, 5, .seq, 0⟩, ⟨4, 4, .seq, 0⟩, ⟨3, 3, .seq, 0⟩, ⟨2, 2, .seq, 0⟩, ⟨1, 1, .seq, 0⟩, ⟨0, 0, .seq, 0⟩]⟩,
  ⟨0x10, 1, 4, [⟨31, 28, .ro, 0⟩, ⟨27, 16, .ro, 4095⟩, ⟨15, 0, .ro, 0⟩]⟩,
  ⟨0x14, 1, 4, [⟨31, 0, .ro, 0⟩]⟩,
  ⟨0x18, 1, 4, [⟨31, 16, .rbr, 0⟩, ⟨15, 0, .ro, 0⟩]⟩,
  ⟨0x1c, 1, 4, [⟨31, 16, .rbr, 0⟩, ⟨15, 0, .ro, 0⟩]⟩,
  ⟨0x20, 1, 4, [⟨31, 0, .ro, 0⟩]⟩,
  ⟨0x24, 1, 4, [⟨31, 0, .rw, 0⟩]⟩,
  ⟨0x28, 1, 4, [⟨31, 16, .rbr, 0⟩, ⟨15, 0, .rw, 0⟩]⟩,
  ⟨0x2c, 1, 4, [⟨31, 0, .rw, 0⟩]⟩,
  ⟨0x30, 1, 4, [⟨31, 16, .rbr, 0⟩, ⟨15, 0, .rw, 304⟩]⟩,
  ⟨0x34, 1, 4, [⟨31, 24, .rw, 16⟩, ⟨23, 16, .rbr, 0⟩, ⟨15, 0, .rw, 4096⟩]⟩,
  ⟨0x38, 1, 4, [⟨31, 20, .ro, 4095⟩, ⟨19, 10, .ro, 0⟩, ⟨9, 0, .ro, 0⟩]⟩,
  ⟨0x3c, 1, 4, [⟨31, 0, .ro, 0⟩]⟩
  ]
  ++ [
  ⟨0x40, 1, 4, [⟨31, 0, .ro, 0⟩]⟩,
  ⟨0x44, 1, 4, [⟨31, 0, .ro, 0⟩]⟩,
  ⟨0x140, 1, 4, [⟨31, 0, .ro, 0⟩]⟩,
  ⟨0x144, 1, 4, [⟨31, 0, .ro, 0⟩]⟩,
  ⟨0x48, 1, 4, [⟨31, 0, .ro, 0⟩]⟩,
  ⟨0x4c, 1, 4, [⟨31, 0, .ro, 0⟩]⟩,
  ⟨0x148, 1, 4, [⟨31, 0, .ro, 0⟩]⟩,
  ⟨0x14c, 1, 4, [⟨31, 0, .ro, 0⟩]⟩,
  ⟨0x3fc, 1, 4, [⟨31, 4, .rbr, 0⟩, ⟨3, 0, .rw, 0⟩]⟩
  ]

/-- Registers of the page `hq` (R260). -/
def regsHq : List RegDef :=
[
  ⟨0x0, 1, 4, [⟨31, 24, .rwb, 8⟩, ⟨23, 2, .rbr, 0⟩, ⟨1, 1, .rwb, 1⟩, ⟨0, 0, .rwb, 1⟩]⟩,
  ⟨0x4, 1, 4, [⟨31, 8, .rbr, 0⟩, ⟨7, 4, .ro, 0⟩, ⟨3, 2, .ro, 0⟩, ⟨1, 1, .rbr, 0⟩, ⟨0, 0, .ro, 0⟩]⟩,
  ⟨0x8, 1, 4, [⟨31, 16, .seq, 0⟩, ⟨15, 6, .rbr, 0⟩, ⟨5, 5, .seq, 0⟩, ⟨4, 4, .seq, 0⟩, ⟨3, 3, .seq, 0⟩, ⟨2, 2, .seq, 0⟩, ⟨1, 1, .seq, 0⟩, ⟨0, 0, .seq, 0⟩]⟩,
  ⟨0xc, 1, 4, [⟨31, 24, .rbr, 0⟩, ⟨23, 16, .ro, 0⟩, ⟨15, 12, .rbr, 0⟩, ⟨11, 0, .ro, 0⟩]⟩,
  ⟨0x10, 1, 4, [⟨31, 31, .rw, 0⟩, ⟨30, 12, .rbr, 0⟩, ⟨11, 0, .rw, 0⟩]⟩,
  ⟨0x18, 1, 4, [⟨31, 31, .rw, 0⟩, ⟨30, 12, .rbr, 0⟩, ⟨11, 0, .rw, 0⟩]⟩,
  ⟨0x14, 1, 4, [⟨31, 13, .rbr, 0⟩, ⟨12, 12, .rw, 0⟩, ⟨11, 0, .rw, 0⟩]⟩,
  ⟨0x1c, 1, 4, [⟨31, 0, .ro, 0⟩]⟩,
  ⟨0x20, 1, 4, [⟨31, 1, .rbr, 0⟩, ⟨0, 0, .w1p, 0⟩]⟩,
  ⟨0x40, 1, 4, [⟨31, 0, .ro, 0⟩]⟩,
  ⟨0x44, 1, 4, [⟨31, 0, .ro, 0⟩]⟩,
  ⟨0x140, 1, 4, [⟨31, 0, .ro, 0⟩]⟩,
  ⟨0x144, 1, 4, [⟨31, 0, .ro, 0⟩]⟩,
  ⟨0x48, 1, 4, [⟨31, 0, .ro, 0⟩]⟩,
  ⟨0x4c, 1, 4, [⟨31, 0, .ro, 0⟩]⟩,
  ⟨0x148, 1, 4, [⟨31, 0, .ro, 0⟩]⟩
  ]
  ++ [
  ⟨0x14c, 1, 4, [⟨31, 0, .ro, 0⟩]⟩,
  ⟨0x50, 1, 4, [⟨31, 0, .ro, 0⟩]⟩,
  ⟨0x54, 1, 4, [⟨31, 0, .ro, 0⟩]⟩,
  ⟨0x150, 1, 4, [⟨31, 0, .ro, 0⟩]⟩,
  ⟨0x154, 1, 4, [⟨31, 0, .ro, 0⟩]⟩,
  ⟨0x3fc, 1, 4, [⟨31, 4, .rbr, 0⟩, ⟨3, 0, .rw, 0⟩]⟩
  ]

/-- Registers of the page `hqRing` (R260). -/
def regsHqRing : List RegDef :=
[
  ⟨0x0, 1, 4, [⟨31, 29, .rbr, 0⟩, ⟨28, 24, .rw, 6⟩, ⟨23, 22, .rbr, 0⟩, ⟨21, 16, .rw, 0⟩, ⟨15, 8, .rw, 0⟩, ⟨7, 3, .rbr, 0⟩, ⟨2, 2, .w1p, 0⟩, ⟨1, 1, .w1p, 0⟩, ⟨0, 0, .rbr, 0⟩]⟩,
  ⟨0x4, 1, 4, [⟨31, 24, .rbr, 0⟩, ⟨23, 16, .ro, 0⟩, ⟨15, 2, .rbr, 0⟩, ⟨1, 0, .ro, 0⟩]⟩,
  ⟨0x8, 1, 4, [⟨31, 0, .rw, 0⟩]⟩,
  ⟨0xc, 1, 4, [⟨31, 16, .rbr, 0⟩, ⟨15, 0, .rw, 0⟩]⟩,
  ⟨0x10, 1, 4, [⟨31, 0, .rw, 0⟩]⟩,
  ⟨0x14, 1, 4, [⟨31, 16, .rbr, 0⟩, ⟨15, 0, .rw, 0⟩]⟩,
  ⟨0x18, 1, 4, [⟨31, 0, .rw, 0⟩]⟩,
  ⟨0x1c, 1, 4, [⟨31, 0, .ro, 0⟩]⟩
  ]

/-- Registers of the page `hqCq` (R260). -/
def regsHqCq : List RegDef :=
[
  ⟨0x0, 1, 4, [⟨31, 29, .rbr, 0⟩, ⟨28, 24, .rw, 6⟩, ⟨23, 16, .rw, 0⟩, ⟨15, 8, .rw, 0⟩, ⟨7, 2, .rbr, 0⟩, ⟨1, 1, .rw, 0⟩, ⟨0, 0, .rw, 0⟩]⟩,
  ⟨0x4, 1, 4, [⟨31, 0, .rw, 0⟩]⟩,
  ⟨0x8, 1, 4, [⟨31, 16, .rbr, 0⟩, ⟨15, 0, .rw, 0⟩]⟩,
  ⟨0xc, 1, 4, [⟨31, 0, .rw, 0⟩]⟩,
  ⟨0x10, 1, 4, [⟨31, 0, .ro, 0⟩]⟩
  ]

/-- Registers of the page `fab` (R283). -/
def regsFab : List RegDef :=
[
  ⟨0x0, 1, 4, [⟨31, 24, .rbr, 0⟩, ⟨23, 20, .rwb, 8⟩, ⟨19, 16, .rbr, 0⟩, ⟨15, 8, .rwb, 8⟩, ⟨7, 2, .rbr, 0⟩, ⟨1, 1, .rwb, 1⟩, ⟨0, 0, .rwb, 1⟩]⟩,
  ⟨0x4, 1, 4, [⟨31, 31, .ro, 0⟩, ⟨30, 29, .ro, 0⟩, ⟨28, 24, .rbr, 0⟩, ⟨23, 0, .ro, 0⟩]⟩,
  ⟨0x8, 1, 4, [⟨31, 13, .rbr, 0⟩, ⟨12, 12, .tmr, 0⟩, ⟨11, 0, .tmr, 0⟩]⟩,
  ⟨0xc, 1, 4, [⟨31, 16, .seq, 0⟩, ⟨15, 6, .rbr, 0⟩, ⟨5, 5, .seq, 0⟩, ⟨4, 0, .seq, 0⟩]⟩,
  ⟨0x10, 1, 4, [⟨31, 31, .rw, 0⟩, ⟨30, 5, .rbr, 0⟩, ⟨4, 0, .rw, 0⟩]⟩,
  ⟨0x14, 1, 4, [⟨31, 0, .ro, 0⟩]⟩,
  ⟨0x18, 1, 4, [⟨31, 0, .ro, 1⟩]⟩,
  ⟨0x1c, 1, 4, [⟨31, 0, .ro, 0⟩]⟩,
  ⟨0x3fc, 1, 4, [⟨31, 4, .rbr, 0⟩, ⟨3, 0, .rw, 5⟩]⟩
  ]

/-- Registers of the page `fabP` (R284). -/
def regsFabP : List RegDef :=
[
  ⟨0x0, 1, 4, [⟨31, 1, .rbr, 0⟩, ⟨0, 0, .rwb, 1⟩]⟩,
  ⟨0x4, 1, 4, [⟨31, 2, .rbr, 0⟩, ⟨1, 1, .w1p, 0⟩, ⟨0, 0, .w1p, 0⟩]⟩,
  ⟨0x8, 1, 4, [⟨31, 24, .rbr, 0⟩, ⟨23, 22, .ro, 0⟩, ⟨21, 17, .ro, 0⟩, ⟨16, 16, .ro, 0⟩, ⟨15, 12, .rbr, 0⟩, ⟨11, 8, .ro, 0⟩, ⟨7, 3, .rbr, 0⟩, ⟨2, 0, .ro, 0⟩]⟩,
  ⟨0xc, 1, 4, [⟨31, 16, .seq, 0⟩, ⟨15, 8, .rbr, 0⟩, ⟨7, 7, .seq, 0⟩, ⟨6, 6, .seq, 0⟩, ⟨5, 5, .seq, 0⟩, ⟨4, 4, .seq, 0⟩, ⟨3, 3, .seq, 0⟩, ⟨2, 2, .seq, 0⟩, ⟨1, 1, .seq, 0⟩, ⟨0, 0, .seq, 0⟩]⟩,
  ⟨0x10, 1, 4, [⟨31, 0, .ro, 0⟩]⟩,
  ⟨0x14, 1, 4, [⟨31, 0, .ro, 0⟩]⟩,
  ⟨0x18, 1, 4, [⟨31, 29, .rbr, 0⟩, ⟨28, 24, .ro, 0⟩, ⟨23, 13, .rbr, 0⟩, ⟨12, 12, .ro, 0⟩, ⟨11, 0, .ro, 0⟩]⟩,
  ⟨0x20, 6, 4, [⟨31, 29, .rbr, 0⟩, ⟨28, 16, .rwb, 0⟩, ⟨15, 13, .rbr, 0⟩, ⟨12, 0, .rwb, 0⟩]⟩,
  ⟨0x40, 6, 4, [⟨31, 0, .ro, 0⟩]⟩,
  ⟨0x80, 1, 4, [⟨31, 0, .ro, 0⟩]⟩,
  ⟨0x84, 1, 4, [⟨31, 0, .ro, 0⟩]⟩,
  ⟨0x180, 1, 4, [⟨31, 0, .ro, 0⟩]⟩,
  ⟨0x184, 1, 4, [⟨31, 0, .ro, 0⟩]⟩,
  ⟨0x88, 1, 4, [⟨31, 0, .ro, 0⟩]⟩,
  ⟨0x8c, 1, 4, [⟨31, 0, .ro, 0⟩]⟩,
  ⟨0x188, 1, 4, [⟨31, 0, .ro, 0⟩]⟩
  ]
  ++ [
  ⟨0x18c, 1, 4, [⟨31, 0, .ro, 0⟩]⟩,
  ⟨0x90, 1, 4, [⟨31, 0, .ro, 0⟩]⟩,
  ⟨0x94, 1, 4, [⟨31, 0, .ro, 0⟩]⟩,
  ⟨0x190, 1, 4, [⟨31, 0, .ro, 0⟩]⟩,
  ⟨0x194, 1, 4, [⟨31, 0, .ro, 0⟩]⟩,
  ⟨0x98, 1, 4, [⟨31, 0, .ro, 0⟩]⟩,
  ⟨0x9c, 1, 4, [⟨31, 0, .ro, 0⟩]⟩,
  ⟨0x198, 1, 4, [⟨31, 0, .ro, 0⟩]⟩,
  ⟨0x19c, 1, 4, [⟨31, 0, .ro, 0⟩]⟩,
  ⟨0xa0, 1, 4, [⟨31, 0, .ro, 0⟩]⟩,
  ⟨0xa4, 1, 4, [⟨31, 0, .ro, 0⟩]⟩,
  ⟨0x1a0, 1, 4, [⟨31, 0, .ro, 0⟩]⟩,
  ⟨0x1a4, 1, 4, [⟨31, 0, .ro, 0⟩]⟩,
  ⟨0x3fc, 1, 4, [⟨31, 4, .rbr, 0⟩, ⟨3, 0, .rw, 5⟩]⟩
  ]

/-- Registers of the page `rt` (R301). -/
def regsRt : List RegDef :=
[
  ⟨0x0, 1, 4, [⟨31, 24, .rbr, 0⟩, ⟨23, 16, .rwb, 48⟩, ⟨15, 1, .rbr, 0⟩, ⟨0, 0, .rwb, 1⟩]⟩,
  ⟨0x4, 1, 4, [⟨31, 12, .rbr, 0⟩, ⟨11, 0, .tmrb, 4095⟩]⟩,
  ⟨0x8, 1, 4, [⟨31, 12, .rbr, 0⟩, ⟨11, 0, .rwb, 0⟩]⟩,
  ⟨0xc, 1, 4, [⟨31, 27, .rbr, 0⟩, ⟨26, 24, .rwb, 0⟩, ⟨23, 21, .rbr, 0⟩, ⟨20, 16, .rwb, 1⟩, ⟨15, 13, .rbr, 0⟩, ⟨12, 8, .rwb, 1⟩, ⟨7, 5, .rbr, 0⟩, ⟨4, 0, .rwb, 1⟩]⟩,
  ⟨0x10, 1, 4, [⟨31, 21, .rbr, 0⟩, ⟨20, 16, .ro, 0⟩, ⟨15, 13, .rbr, 0⟩, ⟨12, 8, .ro, 0⟩, ⟨7, 5, .rbr, 0⟩, ⟨4, 0, .ro, 0⟩]⟩,
  ⟨0x14, 1, 4, [⟨31, 12, .rbr, 0⟩, ⟨11, 0, .ro, 0⟩]⟩,
  ⟨0x18, 1, 4, [⟨31, 16, .seq, 0⟩, ⟨15, 3, .rbr, 0⟩, ⟨2, 2, .seq, 0⟩, ⟨1, 1, .seq, 0⟩, ⟨0, 0, .seq, 0⟩]⟩,
  ⟨0x1c, 1, 4, [⟨31, 21, .rbr, 0⟩, ⟨20, 16, .ro, 0⟩, ⟨15, 12, .rbr, 0⟩, ⟨11, 0, .ro, 0⟩]⟩,
  ⟨0x20, 4, 4, [⟨31, 13, .rbr, 0⟩, ⟨12, 12, .rwb, 0⟩, ⟨11, 0, .rwb, 0⟩]⟩,
  ⟨0x30, 1, 4, [⟨31, 24, .rbr, 0⟩, ⟨23, 20, .rwb, 1⟩, ⟨19, 16, .rwb, 4⟩, ⟨15, 12, .rwb, 2⟩, ⟨11, 8, .rwb, 2⟩, ⟨7, 4, .rbr, 0⟩, ⟨3, 0, .rwb, 4⟩]⟩,
  ⟨0x40, 1, 4, [⟨31, 0, .ro, 0⟩]⟩,
  ⟨0x44, 1, 4, [⟨31, 0, .ro, 0⟩]⟩,
  ⟨0x140, 1, 4, [⟨31, 0, .ro, 0⟩]⟩,
  ⟨0x144, 1, 4, [⟨31, 0, .ro, 0⟩]⟩,
  ⟨0x48, 1, 4, [⟨31, 0, .ro, 0⟩]⟩,
  ⟨0x4c, 1, 4, [⟨31, 0, .ro, 0⟩]⟩
  ]
  ++ [
  ⟨0x148, 1, 4, [⟨31, 0, .ro, 0⟩]⟩,
  ⟨0x14c, 1, 4, [⟨31, 0, .ro, 0⟩]⟩,
  ⟨0x50, 1, 4, [⟨31, 0, .ro, 0⟩]⟩,
  ⟨0x54, 1, 4, [⟨31, 0, .ro, 0⟩]⟩,
  ⟨0x150, 1, 4, [⟨31, 0, .ro, 0⟩]⟩,
  ⟨0x154, 1, 4, [⟨31, 0, .ro, 0⟩]⟩,
  ⟨0x58, 1, 4, [⟨31, 0, .ro, 0⟩]⟩,
  ⟨0x5c, 1, 4, [⟨31, 0, .ro, 0⟩]⟩,
  ⟨0x158, 1, 4, [⟨31, 0, .ro, 0⟩]⟩,
  ⟨0x15c, 1, 4, [⟨31, 0, .ro, 0⟩]⟩,
  ⟨0x3fc, 1, 4, [⟨31, 4, .rbr, 0⟩, ⟨3, 0, .rw, 6⟩]⟩
  ]

/-- Registers of the page `rtMap` (R301). -/
def regsRtMap : List RegDef :=
[
  ⟨0x0, 128, 4, [⟨31, 0, .rw, 0⟩]⟩
  ]

/-- Registers of the page `rtEntry` (R301). -/
def regsRtEntry : List RegDef :=
[
  ⟨0x0, 256, 4, [⟨31, 0, .tmrb, 0⟩]⟩
  ]

/-- Registers of the page `ckp` (R373). -/
def regsCkp : List RegDef :=
[
  ⟨0x0, 1, 4, [⟨31, 16, .rbr, 0⟩, ⟨15, 8, .rwb, 30⟩, ⟨7, 3, .rbr, 0⟩, ⟨2, 2, .rwb, 1⟩, ⟨1, 1, .rwb, 1⟩, ⟨0, 0, .rwb, 1⟩]⟩,
  ⟨0x4, 1, 4, [⟨31, 3, .rbr, 0⟩, ⟨2, 2, .w1p, 0⟩, ⟨1, 1, .w1p, 0⟩, ⟨0, 0, .w1p, 0⟩]⟩,
  ⟨0x8, 1, 4, [⟨31, 29, .ro, 0⟩, ⟨28, 27, .ro, 0⟩, ⟨26, 25, .ro, 0⟩, ⟨24, 23, .ro, 0⟩, ⟨22, 21, .ro, 0⟩, ⟨20, 20, .ro, 0⟩, ⟨19, 19, .ro, 0⟩, ⟨18, 15, .rbr, 0⟩, ⟨14, 12, .ro, 0⟩, ⟨11, 8, .ro, 0⟩, ⟨7, 1, .rbr, 0⟩, ⟨0, 0, .ro, 0⟩]⟩,
  ⟨0xc, 1, 4, [⟨31, 16, .seq, 0⟩, ⟨15, 7, .rbr, 0⟩, ⟨6, 6, .seq, 0⟩, ⟨5, 5, .seq, 0⟩, ⟨4, 4, .seq, 0⟩, ⟨3, 3, .seq, 0⟩, ⟨2, 2, .seq, 0⟩, ⟨1, 1, .seq, 0⟩, ⟨0, 0, .seq, 0⟩]⟩,
  ⟨0x10, 1, 4, [⟨31, 28, .ro, 0⟩, ⟨27, 20, .ro, 0⟩, ⟨19, 16, .ro, 0⟩, ⟨15, 0, .ro, 0⟩]⟩,
  ⟨0x14, 1, 4, [⟨31, 24, .rwb, 10⟩, ⟨23, 20, .rwb, 2⟩, ⟨19, 16, .rbr, 0⟩, ⟨15, 0, .rwb, 1000⟩]⟩,
  ⟨0x18, 1, 4, [⟨31, 5, .rbr, 0⟩, ⟨4, 0, .rw, 0⟩]⟩,
  ⟨0x20, 1, 4, [⟨31, 0, .rw, 0⟩]⟩,
  ⟨0x24, 1, 4, [⟨31, 16, .rbr, 0⟩, ⟨15, 0, .rw, 0⟩]⟩,
  ⟨0x28, 1, 4, [⟨31, 0, .rw, 0⟩]⟩,
  ⟨0x2c, 1, 4, [⟨31, 16, .rbr, 0⟩, ⟨15, 0, .rw, 0⟩]⟩,
  ⟨0x30, 1, 4, [⟨31, 0, .rw, 0⟩]⟩,
  ⟨0x34, 1, 4, [⟨31, 16, .rbr, 0⟩, ⟨15, 0, .rw, 0⟩]⟩,
  ⟨0x38, 1, 4, [⟨31, 0, .rw, 0⟩]⟩,
  ⟨0x40, 1, 4, [⟨31, 0, .ro, 0⟩]⟩,
  ⟨0x44, 1, 4, [⟨31, 0, .ro, 0⟩]⟩
  ]
  ++ [
  ⟨0x140, 1, 4, [⟨31, 0, .ro, 0⟩]⟩,
  ⟨0x144, 1, 4, [⟨31, 0, .ro, 0⟩]⟩,
  ⟨0x48, 1, 4, [⟨31, 0, .ro, 0⟩]⟩,
  ⟨0x4c, 1, 4, [⟨31, 0, .ro, 0⟩]⟩,
  ⟨0x148, 1, 4, [⟨31, 0, .ro, 0⟩]⟩,
  ⟨0x14c, 1, 4, [⟨31, 0, .ro, 0⟩]⟩,
  ⟨0x50, 1, 4, [⟨31, 0, .ro, 0⟩]⟩,
  ⟨0x54, 1, 4, [⟨31, 0, .ro, 0⟩]⟩,
  ⟨0x150, 1, 4, [⟨31, 0, .ro, 0⟩]⟩,
  ⟨0x154, 1, 4, [⟨31, 0, .ro, 0⟩]⟩,
  ⟨0x3fc, 1, 4, [⟨31, 4, .rbr, 0⟩, ⟨3, 0, .rw, 4⟩]⟩
  ]

/-- Registers of the page `fh` (R399). -/
def regsFh : List RegDef :=
[
  ⟨0x0, 1, 4, [⟨31, 24, .rwb, 64⟩, ⟨23, 16, .rwb, 1⟩, ⟨15, 4, .rbr, 0⟩, ⟨3, 3, .rwb, 1⟩, ⟨2, 2, .rwb, 1⟩, ⟨1, 1, .rwb, 1⟩, ⟨0, 0, .rbr, 0⟩]⟩,
  ⟨0x4, 1, 4, [⟨31, 24, .rwb, 10⟩, ⟨23, 16, .rwb, 2⟩, ⟨15, 0, .rwb, 50⟩]⟩,
  ⟨0x8, 1, 4, [⟨31, 16, .ro, 0⟩, ⟨15, 0, .ro, 0⟩]⟩,
  ⟨0xc, 1, 4, [⟨31, 16, .seq, 0⟩, ⟨15, 5, .rbr, 0⟩, ⟨4, 4, .seq, 0⟩, ⟨3, 3, .seq, 0⟩, ⟨2, 2, .seq, 0⟩, ⟨1, 1, .seq, 0⟩, ⟨0, 0, .seq, 0⟩]⟩,
  ⟨0x10, 1, 4, [⟨31, 30, .ro, 0⟩, ⟨29, 24, .rbr, 0⟩, ⟨23, 20, .ro, 0⟩, ⟨19, 16, .rbr, 0⟩, ⟨15, 0, .ro, 0⟩]⟩,
  ⟨0x14, 1, 4, [⟨31, 0, .ro, 0⟩]⟩,
  ⟨0x18, 1, 4, [⟨31, 24, .ro, 0⟩, ⟨23, 20, .ro, 0⟩, ⟨19, 16, .ro, 0⟩, ⟨15, 0, .ro, 0⟩]⟩,
  ⟨0x1c, 1, 4, [⟨31, 4, .rbr, 0⟩, ⟨3, 3, .w1p, 0⟩, ⟨2, 2, .w1p, 0⟩, ⟨1, 1, .w1p, 0⟩, ⟨0, 0, .w1p, 0⟩]⟩,
  ⟨0x20, 1, 4, [⟨31, 20, .rbr, 0⟩, ⟨19, 16, .rw, 0⟩, ⟨15, 0, .rw, 0⟩]⟩,
  ⟨0x24, 1, 4, [⟨31, 0, .ro, 0⟩]⟩,
  ⟨0x28, 1, 4, [⟨31, 0, .ro, 0⟩]⟩,
  ⟨0x2c, 1, 4, [⟨31, 0, .ro, 0⟩]⟩,
  ⟨0x40, 8, 4, [⟨31, 0, .ro, 0⟩]⟩,
  ⟨0x80, 1, 4, [⟨31, 0, .ro, 0⟩]⟩,
  ⟨0x84, 1, 4, [⟨31, 0, .ro, 0⟩]⟩,
  ⟨0x180, 1, 4, [⟨31, 0, .ro, 0⟩]⟩
  ]
  ++ [
  ⟨0x184, 1, 4, [⟨31, 0, .ro, 0⟩]⟩,
  ⟨0x3fc, 1, 4, [⟨31, 4, .rbr, 0⟩, ⟨3, 0, .rw, 7⟩]⟩
  ]

/-- Registers of the page `ist` (R400). -/
def regsIst : List RegDef :=
[
  ⟨0x0, 1, 4, [⟨31, 24, .rwb, 5⟩, ⟨23, 16, .rwb, 20⟩, ⟨15, 8, .rwb, 5⟩, ⟨7, 2, .rbr, 0⟩, ⟨1, 1, .rwb, 1⟩, ⟨0, 0, .rwb, 1⟩]⟩,
  ⟨0x4, 1, 4, [⟨31, 2, .rbr, 0⟩, ⟨1, 1, .w1p, 0⟩, ⟨0, 0, .w1p, 0⟩]⟩,
  ⟨0x8, 1, 4, [⟨31, 2, .rbr, 0⟩, ⟨1, 1, .ro, 0⟩, ⟨0, 0, .ro, 0⟩]⟩,
  ⟨0xc, 1, 4, [⟨31, 16, .seq, 0⟩, ⟨15, 5, .rbr, 0⟩, ⟨4, 4, .seq, 0⟩, ⟨3, 3, .seq, 0⟩, ⟨2, 2, .seq, 0⟩, ⟨1, 1, .seq, 0⟩, ⟨0, 0, .seq, 0⟩]⟩,
  ⟨0x10, 1, 4, [⟨31, 16, .ro, 0⟩, ⟨15, 9, .rbr, 0⟩, ⟨8, 0, .ro, 0⟩]⟩,
  ⟨0x14, 1, 4, [⟨31, 0, .ro, 0⟩]⟩,
  ⟨0x18, 1, 4, [⟨31, 0, .ro, 0⟩]⟩,
  ⟨0x40, 1, 4, [⟨31, 0, .ro, 0⟩]⟩,
  ⟨0x44, 1, 4, [⟨31, 0, .ro, 0⟩]⟩,
  ⟨0x140, 1, 4, [⟨31, 0, .ro, 0⟩]⟩,
  ⟨0x144, 1, 4, [⟨31, 0, .ro, 0⟩]⟩,
  ⟨0x48, 1, 4, [⟨31, 0, .ro, 0⟩]⟩,
  ⟨0x4c, 1, 4, [⟨31, 0, .ro, 0⟩]⟩,
  ⟨0x148, 1, 4, [⟨31, 0, .ro, 0⟩]⟩,
  ⟨0x14c, 1, 4, [⟨31, 0, .ro, 0⟩]⟩,
  ⟨0x50, 1, 4, [⟨31, 0, .ro, 0⟩]⟩
  ]
  ++ [
  ⟨0x54, 1, 4, [⟨31, 0, .ro, 0⟩]⟩,
  ⟨0x150, 1, 4, [⟨31, 0, .ro, 0⟩]⟩,
  ⟨0x154, 1, 4, [⟨31, 0, .ro, 0⟩]⟩,
  ⟨0x58, 1, 4, [⟨31, 0, .ro, 0⟩]⟩,
  ⟨0x5c, 1, 4, [⟨31, 0, .ro, 0⟩]⟩,
  ⟨0x158, 1, 4, [⟨31, 0, .ro, 0⟩]⟩,
  ⟨0x15c, 1, 4, [⟨31, 0, .ro, 0⟩]⟩,
  ⟨0x3fc, 1, 4, [⟨31, 4, .rbr, 0⟩, ⟨3, 0, .rw, 7⟩]⟩
  ]

/-- Registers of the page `time` (R413). -/
def regsTime : List RegDef :=
[
  ⟨0x0, 1, 4, [⟨31, 24, .rwb, 200⟩, ⟨23, 16, .rwb, 1⟩, ⟨15, 13, .rbr, 0⟩, ⟨12, 8, .rwb, 0⟩, ⟨7, 2, .rbr, 0⟩, ⟨1, 0, .rwb, 0⟩]⟩,
  ⟨0x4, 1, 4, [⟨31, 1, .rbr, 0⟩, ⟨0, 0, .ro, 0⟩]⟩,
  ⟨0x8, 1, 4, [⟨31, 16, .seq, 0⟩, ⟨15, 3, .rbr, 0⟩, ⟨2, 2, .seq, 0⟩, ⟨1, 1, .seq, 0⟩, ⟨0, 0, .seq, 0⟩]⟩,
  ⟨0xc, 1, 4, [⟨31, 0, .ro, 0⟩]⟩,
  ⟨0x10, 1, 4, [⟨31, 0, .ro, 0⟩]⟩,
  ⟨0x14, 1, 4, [⟨31, 0, .ro, 0⟩]⟩,
  ⟨0x40, 1, 4, [⟨31, 0, .ro, 0⟩]⟩,
  ⟨0x44, 1, 4, [⟨31, 0, .ro, 0⟩]⟩,
  ⟨0x140, 1, 4, [⟨31, 0, .ro, 0⟩]⟩,
  ⟨0x144, 1, 4, [⟨31, 0, .ro, 0⟩]⟩,
  ⟨0x48, 1, 4, [⟨31, 0, .rw, 0⟩]⟩,
  ⟨0x4c, 1, 4, [⟨31, 0, .rw, 0⟩]⟩,
  ⟨0x3fc, 1, 4, [⟨31, 4, .rbr, 0⟩, ⟨3, 0, .rw, 3⟩]⟩
  ]

/-- Registers of the page `ledger` (R413). -/
def regsLedger : List RegDef :=
[
  ⟨0x0, 1, 4, [⟨31, 24, .rwb, 0⟩, ⟨23, 3, .rbr, 0⟩, ⟨2, 2, .rwb, 0⟩, ⟨1, 1, .rwb, 0⟩, ⟨0, 0, .rwb, 1⟩]⟩,
  ⟨0x4, 1, 4, [⟨31, 3, .rbr, 0⟩, ⟨2, 2, .rw, 0⟩, ⟨1, 1, .w1p, 0⟩, ⟨0, 0, .w1p, 0⟩]⟩,
  ⟨0x8, 1, 4, [⟨31, 16, .seq, 0⟩, ⟨15, 4, .rbr, 0⟩, ⟨3, 3, .seq, 0⟩, ⟨2, 2, .seq, 0⟩, ⟨1, 1, .seq, 0⟩, ⟨0, 0, .seq, 0⟩]⟩,
  ⟨0xc, 1, 4, [⟨31, 20, .rbr, 0⟩, ⟨19, 0, .ro, 0⟩]⟩,
  ⟨0x10, 1, 4, [⟨31, 0, .rw, 0⟩]⟩,
  ⟨0x14, 1, 4, [⟨31, 0, .rw, 0⟩]⟩,
  ⟨0x18, 1, 4, [⟨31, 0, .ro, 0⟩]⟩,
  ⟨0x1c, 1, 4, [⟨31, 0, .ro, 0⟩]⟩,
  ⟨0x20, 1, 4, [⟨31, 0, .ro, 0⟩]⟩,
  ⟨0x24, 1, 4, [⟨31, 0, .ro, 0⟩]⟩,
  ⟨0x28, 1, 4, [⟨31, 0, .rw, 0⟩]⟩,
  ⟨0x2c, 1, 4, [⟨31, 16, .rbr, 0⟩, ⟨15, 0, .rw, 0⟩]⟩,
  ⟨0x30, 1, 4, [⟨31, 16, .rbr, 0⟩, ⟨15, 0, .rw, 0⟩]⟩,
  ⟨0x34, 1, 4, [⟨31, 20, .rbr, 0⟩, ⟨19, 0, .rw, 0⟩]⟩,
  ⟨0x38, 1, 4, [⟨31, 0, .ro, 0⟩]⟩,
  ⟨0x3c, 1, 4, [⟨31, 0, .ro, 0⟩]⟩
  ]
  ++ [
  ⟨0x40, 1, 4, [⟨31, 0, .ro, 0⟩]⟩,
  ⟨0x44, 1, 4, [⟨31, 0, .ro, 0⟩]⟩,
  ⟨0x140, 1, 4, [⟨31, 0, .ro, 0⟩]⟩,
  ⟨0x144, 1, 4, [⟨31, 0, .ro, 0⟩]⟩,
  ⟨0x3fc, 1, 4, [⟨31, 4, .rbr, 0⟩, ⟨3, 0, .rw, 3⟩]⟩
  ]

/-- Registers of the page `clk` (R435). -/
def regsClk : List RegDef :=
[
  ⟨0x0, 1, 4, [⟨31, 9, .rbr, 0⟩, ⟨8, 8, .ro, 0⟩, ⟨7, 5, .rbr, 0⟩, ⟨4, 4, .ro, 0⟩, ⟨3, 3, .ro, 0⟩, ⟨2, 2, .ro, 0⟩, ⟨1, 1, .ro, 0⟩, ⟨0, 0, .ro, 0⟩]⟩
  ]

/-- Registers of the page `rst` (R436). -/
def regsRst : List RegDef :=
[
  ⟨0x0, 1, 4, [⟨31, 3, .rbr, 0⟩, ⟨2, 2, .tmr, 1⟩, ⟨1, 1, .tmr, 1⟩, ⟨0, 0, .tmr, 1⟩]⟩,
  ⟨0x4, 1, 4, [⟨31, 9, .rbr, 0⟩, ⟨8, 8, .w1p, 0⟩, ⟨7, 5, .rbr, 0⟩, ⟨4, 0, .rw, 0⟩]⟩,
  ⟨0x8, 1, 4, [⟨31, 16, .rw, 0⟩, ⟨15, 2, .rbr, 0⟩, ⟨1, 1, .w1p, 0⟩, ⟨0, 0, .w1p, 0⟩]⟩,
  ⟨0xc, 1, 4, [⟨31, 28, .ro, 0⟩, ⟨27, 21, .rbr, 0⟩, ⟨20, 20, .ro, 0⟩, ⟨19, 0, .ro, 0⟩]⟩,
  ⟨0x10, 1, 4, [⟨31, 20, .rbr, 0⟩, ⟨19, 0, .ro, 0⟩]⟩,
  ⟨0x14, 1, 4, [⟨31, 16, .seq, 0⟩, ⟨15, 3, .rbr, 0⟩, ⟨2, 2, .seq, 0⟩, ⟨1, 1, .seq, 0⟩, ⟨0, 0, .seq, 0⟩]⟩,
  ⟨0x18, 1, 4, [⟨31, 12, .rbr, 0⟩, ⟨11, 8, .ro, 0⟩, ⟨7, 5, .rbr, 0⟩, ⟨4, 0, .ro, 0⟩]⟩,
  ⟨0x3fc, 1, 4, [⟨31, 4, .rbr, 0⟩, ⟨3, 0, .rw, 2⟩]⟩
  ]

/-- Registers of the page `pwr` (R437). -/
def regsPwr : List RegDef :=
[
  ⟨0x0, 1, 4, [⟨31, 24, .rwb, 50⟩, ⟨23, 17, .rbr, 0⟩, ⟨16, 16, .rwb, 1⟩, ⟨15, 12, .rbr, 0⟩, ⟨11, 0, .rwb, 2400⟩]⟩,
  ⟨0x4, 1, 4, [⟨31, 16, .rbr, 0⟩, ⟨15, 0, .rwb, 1000⟩]⟩,
  ⟨0x8, 1, 4, [⟨31, 28, .rbr, 0⟩, ⟨27, 16, .ro, 0⟩, ⟨15, 6, .rbr, 0⟩, ⟨5, 5, .ro, 0⟩, ⟨4, 4, .ro, 0⟩, ⟨3, 0, .ro, 0⟩]⟩,
  ⟨0xc, 1, 4, [⟨31, 10, .rbr, 0⟩, ⟨9, 9, .w1p, 0⟩, ⟨8, 8, .w1p, 0⟩, ⟨7, 5, .rbr, 0⟩, ⟨4, 0, .rw, 0⟩]⟩,
  ⟨0x10, 1, 4, [⟨31, 0, .ro, 0⟩]⟩,
  ⟨0x14, 1, 4, [⟨31, 8, .rbr, 0⟩, ⟨7, 0, .ro, 0⟩]⟩,
  ⟨0x18, 1, 4, [⟨31, 1, .rbr, 0⟩, ⟨0, 0, .w1p, 0⟩]⟩,
  ⟨0x1c, 1, 4, [⟨31, 16, .seq, 0⟩, ⟨15, 4, .rbr, 0⟩, ⟨3, 3, .seq, 0⟩, ⟨2, 2, .seq, 0⟩, ⟨1, 1, .seq, 0⟩, ⟨0, 0, .seq, 0⟩]⟩,
  ⟨0x20, 1, 4, [⟨31, 12, .rbr, 0⟩, ⟨11, 8, .ro, 0⟩, ⟨7, 5, .rbr, 0⟩, ⟨4, 0, .ro, 0⟩]⟩,
  ⟨0x40, 1, 4, [⟨31, 0, .ro, 0⟩]⟩,
  ⟨0x44, 1, 4, [⟨31, 0, .ro, 0⟩]⟩,
  ⟨0x140, 1, 4, [⟨31, 0, .ro, 0⟩]⟩,
  ⟨0x144, 1, 4, [⟨31, 0, .ro, 0⟩]⟩,
  ⟨0x3fc, 1, 4, [⟨31, 4, .rbr, 0⟩, ⟨3, 0, .rw, 1⟩]⟩
  ]

/-- Registers of the page `set` (R438). -/
def regsSet : List RegDef :=
[
  ⟨0x0, 1, 4, [⟨31, 3, .rbr, 0⟩, ⟨2, 2, .w1p, 0⟩, ⟨1, 1, .w1p, 0⟩, ⟨0, 0, .w1p, 0⟩]⟩,
  ⟨0x4, 1, 4, [⟨31, 31, .rbr, 0⟩, ⟨30, 16, .rw, 0⟩, ⟨15, 0, .rw, 0⟩]⟩,
  ⟨0x8, 1, 4, [⟨31, 25, .rbr, 0⟩, ⟨24, 16, .ro, 0⟩, ⟨15, 8, .rbr, 0⟩, ⟨7, 4, .ro, 0⟩, ⟨3, 1, .rbr, 0⟩, ⟨0, 0, .ro, 0⟩]⟩,
  ⟨0xc, 1, 4, [⟨31, 16, .seq, 0⟩, ⟨15, 2, .rbr, 0⟩, ⟨1, 1, .seq, 0⟩, ⟨0, 0, .seq, 0⟩]⟩,
  ⟨0x10, 1, 4, [⟨31, 0, .ro, 0⟩]⟩,
  ⟨0x14, 1, 4, [⟨31, 16, .ro, 0⟩, ⟨15, 0, .ro, 0⟩]⟩
  ]

/-- Registers of the page `sec` (R452). -/
def regsSec : List RegDef :=
[
  ⟨0x0, 1, 4, [⟨31, 12, .rbr, 0⟩, ⟨11, 10, .ro, 0⟩, ⟨9, 9, .ro, 0⟩, ⟨8, 8, .ro, 0⟩, ⟨7, 4, .ro, 0⟩, ⟨3, 3, .ro, 0⟩, ⟨2, 2, .ro, 0⟩, ⟨1, 0, .ro, 0⟩]⟩,
  ⟨0x4, 1, 4, [⟨31, 16, .seq, 0⟩, ⟨15, 7, .rbr, 0⟩, ⟨6, 6, .seq, 0⟩, ⟨5, 5, .seq, 0⟩, ⟨4, 4, .seq, 0⟩, ⟨3, 3, .seq, 0⟩, ⟨2, 2, .seq, 0⟩, ⟨1, 1, .seq, 0⟩, ⟨0, 0, .seq, 0⟩]⟩,
  ⟨0x8, 1, 4, [⟨31, 8, .rbr, 0⟩, ⟨7, 0, .ro, 0⟩]⟩,
  ⟨0xc, 1, 4, [⟨31, 0, .ro, 0⟩]⟩,
  ⟨0x10, 1, 4, [⟨31, 1, .rbr, 0⟩, ⟨0, 0, .w1p, 0⟩]⟩,
  ⟨0x14, 1, 4, [⟨31, 0, .rw, 0⟩]⟩,
  ⟨0x18, 1, 4, [⟨31, 16, .rbr, 0⟩, ⟨15, 0, .rw, 0⟩]⟩,
  ⟨0x20, 8, 4, [⟨31, 0, .rw, 0⟩]⟩,
  ⟨0x40, 1, 4, [⟨31, 0, .ro, 0⟩]⟩
  ]

/-- Registers of the page `i3c` (R462). -/
def regsI3c : List RegDef :=
[
  ⟨0x14, 1, 4, [⟨31, 24, .ro, 0⟩, ⟨23, 16, .ro, 0⟩, ⟨15, 8, .ro, 0⟩, ⟨7, 0, .ro, 0⟩]⟩,
  ⟨0x18, 1, 4, [⟨31, 4, .rbr, 0⟩, ⟨3, 3, .ro, 0⟩, ⟨2, 2, .ro, 0⟩, ⟨1, 1, .ro, 0⟩, ⟨0, 0, .ro, 0⟩]⟩,
  ⟨0x1c, 1, 4, [⟨31, 1, .rbr, 0⟩, ⟨0, 0, .w1p, 0⟩]⟩
  ]

/-- Registers of the page `ptn` (R190, R352). -/
def regsPtn : List RegDef :=
[
  ⟨0x10, 1, 4, [⟨31, 31, .rw, 0⟩, ⟨30, 7, .rbr, 0⟩, ⟨6, 0, .rw, 0⟩]⟩,
  ⟨0x14, 1, 4, [⟨31, 31, .rw, 0⟩, ⟨30, 4, .rbr, 0⟩, ⟨3, 0, .rw, 0⟩]⟩,
  ⟨0x28, 1, 4, [⟨31, 16, .seq, 0⟩, ⟨15, 4, .rbr, 0⟩, ⟨3, 3, .seq, 0⟩, ⟨2, 2, .seq, 0⟩, ⟨1, 1, .seq, 0⟩, ⟨0, 0, .seq, 0⟩]⟩
  ]

/-- Registers of the page `ptnCore` (R352). -/
def regsPtnCore : List RegDef :=
[
  ⟨0x20, 1, 4, [⟨31, 2, .rbr, 0⟩, ⟨1, 1, .w1p, 0⟩, ⟨0, 0, .tmr, 0⟩]⟩,
  ⟨0x24, 1, 4, [⟨31, 25, .rbr, 0⟩, ⟨24, 16, .ro, 511⟩, ⟨15, 3, .rbr, 0⟩, ⟨2, 2, .ro, 0⟩, ⟨1, 0, .tmr, 0⟩]⟩
  ]

/-- Registers of the page `mem` (R191). -/
def regsMem : List RegDef :=
[
  ⟨0x0, 1, 4, [⟨31, 16, .rbr, 0⟩, ⟨15, 8, .rwb, 12⟩, ⟨7, 2, .rbr, 0⟩, ⟨1, 1, .rwb, 1⟩, ⟨0, 0, .rwb, 0⟩]⟩,
  ⟨0x4, 1, 4, [⟨31, 24, .ro, 0⟩, ⟨23, 16, .ro, 0⟩, ⟨15, 8, .ro, 0⟩, ⟨7, 2, .rbr, 0⟩, ⟨1, 1, .ro, 0⟩, ⟨0, 0, .ro, 0⟩]⟩,
  ⟨0x8, 1, 4, [⟨31, 16, .seq, 0⟩, ⟨15, 4, .rbr, 0⟩, ⟨3, 3, .seq, 0⟩, ⟨2, 2, .seq, 0⟩, ⟨1, 1, .seq, 0⟩, ⟨0, 0, .seq, 0⟩]⟩,
  ⟨0xc, 1, 4, [⟨31, 31, .ro, 0⟩, ⟨30, 30, .ro, 0⟩, ⟨29, 28, .ro, 0⟩, ⟨27, 25, .rbr, 0⟩, ⟨24, 16, .ro, 0⟩, ⟨15, 7, .rbr, 0⟩, ⟨6, 0, .ro, 0⟩]⟩,
  ⟨0x10, 1, 4, [⟨31, 0, .ro, 0⟩]⟩,
  ⟨0x14, 1, 4, [⟨31, 16, .rbr, 0⟩, ⟨15, 0, .ro, 0⟩]⟩,
  ⟨0x18, 1, 4, [⟨31, 0, .ro, 0⟩]⟩,
  ⟨0x1c, 1, 4, [⟨31, 1, .rbr, 0⟩, ⟨0, 0, .w1p, 0⟩]⟩,
  ⟨0x40, 1, 4, [⟨31, 0, .ro, 0⟩]⟩,
  ⟨0x44, 1, 4, [⟨31, 0, .ro, 0⟩]⟩,
  ⟨0x140, 1, 4, [⟨31, 0, .ro, 0⟩]⟩,
  ⟨0x144, 1, 4, [⟨31, 0, .ro, 0⟩]⟩,
  ⟨0x48, 1, 4, [⟨31, 0, .ro, 0⟩]⟩,
  ⟨0x4c, 1, 4, [⟨31, 0, .ro, 0⟩]⟩,
  ⟨0x148, 1, 4, [⟨31, 0, .ro, 0⟩]⟩,
  ⟨0x14c, 1, 4, [⟨31, 0, .ro, 0⟩]⟩
  ]
  ++ [
  ⟨0x50, 1, 4, [⟨31, 0, .ro, 0⟩]⟩,
  ⟨0x54, 1, 4, [⟨31, 0, .ro, 0⟩]⟩,
  ⟨0x150, 1, 4, [⟨31, 0, .ro, 0⟩]⟩,
  ⟨0x154, 1, 4, [⟨31, 0, .ro, 0⟩]⟩,
  ⟨0x58, 1, 4, [⟨31, 0, .ro, 0⟩]⟩,
  ⟨0x5c, 1, 4, [⟨31, 0, .ro, 0⟩]⟩,
  ⟨0x158, 1, 4, [⟨31, 0, .ro, 0⟩]⟩,
  ⟨0x15c, 1, 4, [⟨31, 0, .ro, 0⟩]⟩,
  ⟨0x3fc, 1, 4, [⟨31, 4, .rbr, 0⟩, ⟨3, 0, .rw, 0⟩]⟩
  ]

/-- Registers of the page `memCh` (R191). -/
def regsMemCh : List RegDef :=
[
  ⟨0x0, 1, 4, [⟨31, 13, .rbr, 0⟩, ⟨12, 8, .ro, 31⟩, ⟨7, 2, .rbr, 0⟩, ⟨1, 0, .ro, 0⟩]⟩,
  ⟨0x4, 1, 4, [⟨31, 13, .rbr, 0⟩, ⟨12, 8, .rw, 0⟩, ⟨7, 2, .rbr, 0⟩, ⟨1, 1, .w1p, 0⟩, ⟨0, 0, .w1p, 0⟩]⟩,
  ⟨0x8, 1, 4, [⟨31, 0, .ro, 0⟩]⟩,
  ⟨0xc, 1, 4, [⟨31, 0, .ro, 0⟩]⟩,
  ⟨0x10, 1, 4, [⟨31, 18, .rbr, 0⟩, ⟨17, 0, .ro, 0⟩]⟩,
  ⟨0x14, 1, 4, [⟨31, 1, .rbr, 0⟩, ⟨0, 0, .w1p, 0⟩]⟩
  ]

/-- Registers of the page `sc` (R192). -/
def regsSc : List RegDef :=
[
  ⟨0x0, 1, 4, [⟨31, 21, .rbr, 0⟩, ⟨20, 16, .rwb, 8⟩, ⟨15, 13, .rbr, 0⟩, ⟨12, 8, .rwb, 4⟩, ⟨7, 1, .rbr, 0⟩, ⟨0, 0, .rwb, 1⟩]⟩,
  ⟨0x4, 1, 4, [⟨31, 24, .rwb, 1⟩, ⟨23, 16, .rwb, 4⟩, ⟨15, 8, .rwb, 2⟩, ⟨7, 0, .rwb, 8⟩]⟩,
  ⟨0x8, 1, 4, [⟨31, 13, .rbr, 0⟩, ⟨12, 8, .ro, 4⟩, ⟨7, 3, .rbr, 0⟩, ⟨2, 2, .ro, 0⟩, ⟨1, 1, .ro, 0⟩, ⟨0, 0, .ro, 0⟩]⟩,
  ⟨0xc, 1, 4, [⟨31, 16, .seq, 0⟩, ⟨15, 4, .rbr, 0⟩, ⟨3, 3, .seq, 0⟩, ⟨2, 2, .seq, 0⟩, ⟨1, 1, .seq, 0⟩, ⟨0, 0, .seq, 0⟩]⟩,
  ⟨0x10, 1, 4, [⟨31, 24, .rbr, 0⟩, ⟨23, 16, .ro, 0⟩, ⟨15, 0, .ro, 0⟩]⟩,
  ⟨0x14, 1, 4, [⟨31, 0, .ro, 0⟩]⟩,
  ⟨0x18, 1, 4, [⟨31, 16, .rbr, 0⟩, ⟨15, 0, .ro, 0⟩]⟩,
  ⟨0x1c, 1, 4, [⟨31, 4, .rbr, 0⟩, ⟨3, 3, .w1p, 0⟩, ⟨2, 2, .w1p, 0⟩, ⟨1, 1, .w1p, 0⟩, ⟨0, 0, .w1p, 0⟩]⟩,
  ⟨0x20, 1, 4, [⟨31, 0, .ro, 0⟩]⟩,
  ⟨0x40, 1, 4, [⟨31, 0, .ro, 0⟩]⟩,
  ⟨0x44, 1, 4, [⟨31, 0, .ro, 0⟩]⟩,
  ⟨0x140, 1, 4, [⟨31, 0, .ro, 0⟩]⟩,
  ⟨0x144, 1, 4, [⟨31, 0, .ro, 0⟩]⟩,
  ⟨0x48, 1, 4, [⟨31, 0, .ro, 0⟩]⟩,
  ⟨0x4c, 1, 4, [⟨31, 0, .ro, 0⟩]⟩,
  ⟨0x148, 1, 4, [⟨31, 0, .ro, 0⟩]⟩
  ]
  ++ [
  ⟨0x14c, 1, 4, [⟨31, 0, .ro, 0⟩]⟩,
  ⟨0x50, 1, 4, [⟨31, 0, .ro, 0⟩]⟩,
  ⟨0x54, 1, 4, [⟨31, 0, .ro, 0⟩]⟩,
  ⟨0x150, 1, 4, [⟨31, 0, .ro, 0⟩]⟩,
  ⟨0x154, 1, 4, [⟨31, 0, .ro, 0⟩]⟩,
  ⟨0x58, 1, 4, [⟨31, 0, .ro, 0⟩]⟩,
  ⟨0x5c, 1, 4, [⟨31, 0, .ro, 0⟩]⟩,
  ⟨0x158, 1, 4, [⟨31, 0, .ro, 0⟩]⟩,
  ⟨0x15c, 1, 4, [⟨31, 0, .ro, 0⟩]⟩,
  ⟨0x60, 1, 4, [⟨31, 0, .ro, 0⟩]⟩,
  ⟨0x64, 1, 4, [⟨31, 0, .ro, 0⟩]⟩,
  ⟨0x160, 1, 4, [⟨31, 0, .ro, 0⟩]⟩,
  ⟨0x164, 1, 4, [⟨31, 0, .ro, 0⟩]⟩,
  ⟨0x3fc, 1, 4, [⟨31, 4, .rbr, 0⟩, ⟨3, 0, .rw, 0⟩]⟩
  ]

/-- Registers of the page `core` (R325, R398). -/
def regsCore : List RegDef :=
[
  ⟨0x200, 1, 4, [⟨31, 16, .seq, 0⟩, ⟨15, 1, .rbr, 0⟩, ⟨0, 0, .seq, 0⟩]⟩,
  ⟨0x204, 1, 4, [⟨31, 16, .ro, 0⟩, ⟨15, 0, .ro, 0⟩]⟩,
  ⟨0x208, 1, 4, [⟨31, 16, .rbr, 0⟩, ⟨15, 0, .ro, 0⟩]⟩,
  ⟨0x20c, 1, 4, [⟨31, 0, .ro, 0⟩]⟩,
  ⟨0x210, 1, 4, [⟨31, 0, .ro, 0⟩]⟩,
  ⟨0x310, 1, 4, [⟨31, 0, .ro, 0⟩]⟩,
  ⟨0x40, 1, 4, [⟨31, 16, .rbr, 0⟩, ⟨15, 0, .rwb, 0⟩]⟩,
  ⟨0x44, 1, 4, [⟨31, 3, .rbr, 0⟩, ⟨2, 2, .ro, 0⟩, ⟨1, 1, .ro, 0⟩, ⟨0, 0, .ro, 0⟩]⟩,
  ⟨0x48, 1, 4, [⟨31, 0, .ro, 0⟩]⟩,
  ⟨0x148, 1, 4, [⟨31, 0, .ro, 0⟩]⟩,
  ⟨0x3fc, 1, 4, [⟨31, 4, .rbr, 0⟩, ⟨3, 0, .rw, 0⟩]⟩
  ]

/-- Registers of the page `seqQ` (R239). -/
def regsSeqQ : List RegDef :=
[
  ⟨0x0, 1, 4, [⟨31, 21, .rbr, 0⟩, ⟨20, 16, .rwb, 16⟩, ⟨15, 9, .rbr, 0⟩, ⟨8, 8, .rwb, 1⟩, ⟨7, 1, .rbr, 0⟩, ⟨0, 0, .rwb, 1⟩]⟩,
  ⟨0x4, 1, 4, [⟨31, 16, .seq, 0⟩, ⟨15, 4, .rbr, 0⟩, ⟨3, 3, .seq, 0⟩, ⟨2, 2, .seq, 0⟩, ⟨1, 1, .seq, 0⟩, ⟨0, 0, .seq, 0⟩]⟩,
  ⟨0x8, 1, 4, [⟨31, 8, .rbr, 0⟩, ⟨7, 0, .ro, 0⟩]⟩,
  ⟨0xc, 1, 4, [⟨31, 11, .rbr, 0⟩, ⟨10, 8, .ro, 0⟩, ⟨7, 4, .rbr, 0⟩, ⟨3, 0, .ro, 0⟩]⟩,
  ⟨0x20, 8, 4, [⟨31, 0, .ro, 0⟩]⟩,
  ⟨0x88, 8, 32, [⟨31, 0, .ro, 0⟩]⟩,
  ⟨0x94, 8, 32, [⟨31, 0, .ro, 0⟩]⟩,
  ⟨0x194, 8, 32, [⟨31, 0, .ro, 0⟩]⟩,
  ⟨0x40, 16, 4, [⟨31, 0, .rw, 0⟩]⟩,
  ⟨0x80, 8, 32, [⟨31, 10, .rbr, 0⟩, ⟨9, 9, .w1p, 0⟩, ⟨8, 8, .w1p, 0⟩, ⟨7, 3, .rbr, 0⟩, ⟨2, 2, .rwb, 0⟩, ⟨1, 0, .rwb, 1⟩]⟩,
  ⟨0x84, 8, 32, [⟨31, 20, .rbr, 0⟩, ⟨19, 16, .ro, 0⟩, ⟨15, 12, .rbr, 0⟩, ⟨11, 8, .ro, 0⟩, ⟨7, 7, .rbr, 0⟩, ⟨6, 4, .ro, 0⟩, ⟨3, 3, .rbr, 0⟩, ⟨2, 0, .ro, 0⟩]⟩,
  ⟨0x8c, 8, 32, [⟨31, 0, .ro, 0⟩]⟩,
  ⟨0x90, 8, 32, [⟨31, 0, .ro, 0⟩]⟩,
  ⟨0x98, 8, 32, [⟨31, 16, .rw, 0⟩, ⟨15, 5, .rbr, 0⟩, ⟨4, 4, .ro, 0⟩, ⟨3, 0, .rw, 0⟩]⟩,
  ⟨0x3fc, 1, 4, [⟨31, 4, .rbr, 0⟩, ⟨3, 0, .rw, 0⟩]⟩
  ]

/-- Registers of the page `seqF` (R216). -/
def regsSeqF : List RegDef :=
[
  ⟨0x0, 8, 4, [⟨31, 0, .rw, 0⟩]⟩,
  ⟨0x20, 1, 4, [⟨31, 16, .seq, 0⟩, ⟨15, 4, .rbr, 0⟩, ⟨3, 3, .seq, 0⟩, ⟨2, 2, .seq, 0⟩, ⟨1, 1, .seq, 0⟩, ⟨0, 0, .seq, 0⟩]⟩,
  ⟨0x24, 1, 4, [⟨31, 27, .rbr, 0⟩, ⟨26, 24, .ro, 0⟩, ⟨23, 16, .ro, 0⟩, ⟨15, 8, .ro, 0⟩, ⟨7, 0, .ro, 0⟩]⟩,
  ⟨0x28, 1, 4, [⟨31, 0, .ro, 0⟩]⟩,
  ⟨0x2c, 1, 4, [⟨31, 30, .ro, 0⟩, ⟨29, 28, .ro, 0⟩, ⟨27, 24, .ro, 0⟩, ⟨23, 8, .rbr, 0⟩, ⟨7, 0, .ro, 0⟩]⟩,
  ⟨0x30, 1, 4, [⟨31, 0, .ro, 0⟩]⟩,
  ⟨0x130, 1, 4, [⟨31, 0, .ro, 0⟩]⟩,
  ⟨0x34, 1, 4, [⟨31, 0, .ro, 0⟩]⟩,
  ⟨0x134, 1, 4, [⟨31, 0, .ro, 0⟩]⟩,
  ⟨0x40, 32, 4, [⟨31, 0, .rw, 4294967295⟩]⟩,
  ⟨0xc0, 16, 4, [⟨31, 0, .ro, 0⟩]⟩,
  ⟨0x200, 64, 4, [⟨31, 0, .rw, 0⟩]⟩,
  ⟨0x300, 64, 4, [⟨31, 0, .ro, 0⟩]⟩
  ]

/-- Registers of the page `mx` (R90). -/
def regsMx : List RegDef :=
[
  ⟨0x0, 1, 4, [⟨31, 21, .rbr, 0⟩, ⟨20, 16, .rwb, 20⟩, ⟨15, 6, .rbr, 0⟩, ⟨5, 4, .rwb, 1⟩, ⟨3, 1, .rbr, 0⟩, ⟨0, 0, .rwb, 1⟩]⟩,
  ⟨0x4, 1, 4, [⟨31, 16, .rbr, 0⟩, ⟨15, 8, .ro, 0⟩, ⟨7, 6, .ro, 0⟩, ⟨5, 5, .ro, 0⟩, ⟨4, 4, .ro, 0⟩, ⟨3, 3, .ro, 0⟩, ⟨2, 2, .ro, 0⟩, ⟨1, 1, .ro, 0⟩, ⟨0, 0, .rbr, 0⟩]⟩,
  ⟨0x8, 1, 4, [⟨31, 16, .seq, 0⟩, ⟨15, 3, .rbr, 0⟩, ⟨2, 2, .seq, 0⟩, ⟨1, 1, .seq, 0⟩, ⟨0, 0, .seq, 0⟩]⟩,
  ⟨0xc, 1, 4, [⟨31, 31, .ro, 0⟩, ⟨30, 26, .rbr, 0⟩, ⟨25, 16, .ro, 0⟩, ⟨15, 7, .rbr, 0⟩, ⟨6, 0, .ro, 0⟩]⟩,
  ⟨0x10, 1, 4, [⟨31, 0, .ro, 0⟩]⟩,
  ⟨0x14, 1, 4, [⟨31, 0, .ro, 0⟩]⟩,
  ⟨0x18, 1, 4, [⟨31, 0, .ro, 0⟩]⟩,
  ⟨0x1c, 1, 4, [⟨31, 18, .rbr, 0⟩, ⟨17, 17, .ro, 0⟩, ⟨16, 16, .ro, 0⟩, ⟨15, 8, .ro, 0⟩, ⟨7, 0, .ro, 0⟩]⟩,
  ⟨0x20, 1, 4, [⟨31, 17, .rbr, 0⟩, ⟨16, 16, .ro, 0⟩, ⟨15, 9, .rbr, 0⟩, ⟨8, 8, .w1p, 0⟩, ⟨7, 7, .rbr, 0⟩, ⟨6, 0, .rw, 0⟩]⟩,
  ⟨0x24, 1, 4, [⟨31, 1, .rbr, 0⟩, ⟨0, 0, .w1p, 0⟩]⟩,
  ⟨0x40, 1, 4, [⟨31, 0, .ro, 0⟩]⟩,
  ⟨0x44, 1, 4, [⟨31, 0, .ro, 0⟩]⟩,
  ⟨0x140, 1, 4, [⟨31, 0, .ro, 0⟩]⟩,
  ⟨0x144, 1, 4, [⟨31, 0, .ro, 0⟩]⟩,
  ⟨0x48, 1, 4, [⟨31, 0, .ro, 0⟩]⟩,
  ⟨0x4c, 1, 4, [⟨31, 0, .ro, 0⟩]⟩
  ]
  ++ [
  ⟨0x148, 1, 4, [⟨31, 0, .ro, 0⟩]⟩,
  ⟨0x14c, 1, 4, [⟨31, 0, .ro, 0⟩]⟩,
  ⟨0x50, 1, 4, [⟨31, 0, .ro, 0⟩]⟩,
  ⟨0x54, 1, 4, [⟨31, 0, .ro, 0⟩]⟩,
  ⟨0x150, 1, 4, [⟨31, 0, .ro, 0⟩]⟩,
  ⟨0x154, 1, 4, [⟨31, 0, .ro, 0⟩]⟩,
  ⟨0x58, 1, 4, [⟨31, 0, .ro, 0⟩]⟩,
  ⟨0x5c, 1, 4, [⟨31, 0, .ro, 0⟩]⟩,
  ⟨0x158, 1, 4, [⟨31, 0, .ro, 0⟩]⟩,
  ⟨0x15c, 1, 4, [⟨31, 0, .ro, 0⟩]⟩,
  ⟨0x60, 1, 4, [⟨31, 0, .ro, 0⟩]⟩,
  ⟨0x64, 1, 4, [⟨31, 0, .ro, 0⟩]⟩,
  ⟨0x160, 1, 4, [⟨31, 0, .ro, 0⟩]⟩,
  ⟨0x164, 1, 4, [⟨31, 0, .ro, 0⟩]⟩,
  ⟨0x68, 1, 4, [⟨31, 0, .ro, 0⟩]⟩,
  ⟨0x6c, 1, 4, [⟨31, 0, .ro, 0⟩]⟩
  ]
  ++ [
  ⟨0x168, 1, 4, [⟨31, 0, .ro, 0⟩]⟩,
  ⟨0x16c, 1, 4, [⟨31, 0, .ro, 0⟩]⟩,
  ⟨0x70, 1, 4, [⟨31, 0, .ro, 0⟩]⟩,
  ⟨0x74, 1, 4, [⟨31, 0, .ro, 0⟩]⟩,
  ⟨0x170, 1, 4, [⟨31, 0, .ro, 0⟩]⟩,
  ⟨0x174, 1, 4, [⟨31, 0, .ro, 0⟩]⟩,
  ⟨0x3fc, 1, 4, [⟨31, 4, .rbr, 0⟩, ⟨3, 0, .rw, 0⟩]⟩
  ]

/-- Registers of the page `vx` (R163). -/
def regsVx : List RegDef :=
[
  ⟨0x0, 1, 4, [⟨31, 6, .rbr, 0⟩, ⟨5, 4, .rwb, 0⟩, ⟨3, 1, .rbr, 0⟩, ⟨0, 0, .rwb, 1⟩]⟩,
  ⟨0x4, 1, 4, [⟨31, 8, .rbr, 0⟩, ⟨7, 4, .ro, 0⟩, ⟨3, 3, .ro, 0⟩, ⟨2, 2, .ro, 0⟩, ⟨1, 1, .ro, 0⟩, ⟨0, 0, .ro, 0⟩]⟩,
  ⟨0x8, 1, 4, [⟨31, 16, .seq, 0⟩, ⟨15, 2, .rbr, 0⟩, ⟨1, 1, .seq, 0⟩, ⟨0, 0, .seq, 0⟩]⟩,
  ⟨0xc, 1, 4, [⟨31, 31, .ro, 0⟩, ⟨30, 27, .ro, 0⟩, ⟨26, 24, .rbr, 0⟩, ⟨23, 8, .ro, 0⟩, ⟨7, 7, .rbr, 0⟩, ⟨6, 0, .ro, 0⟩]⟩,
  ⟨0x10, 1, 4, [⟨31, 0, .ro, 0⟩]⟩,
  ⟨0x14, 1, 4, [⟨31, 0, .ro, 0⟩]⟩,
  ⟨0x18, 1, 4, [⟨31, 0, .ro, 0⟩]⟩,
  ⟨0x1c, 1, 4, [⟨31, 5, .rbr, 0⟩, ⟨4, 4, .rw, 0⟩, ⟨3, 3, .rw, 0⟩, ⟨2, 2, .rw, 0⟩, ⟨1, 1, .rw, 0⟩, ⟨0, 0, .rw, 0⟩]⟩,
  ⟨0x20, 1, 4, [⟨31, 17, .rbr, 0⟩, ⟨16, 16, .ro, 0⟩, ⟨15, 12, .rw, 0⟩, ⟨11, 9, .rbr, 0⟩, ⟨8, 8, .w1p, 0⟩, ⟨7, 7, .rbr, 0⟩, ⟨6, 0, .rw, 0⟩]⟩,
  ⟨0x24, 1, 4, [⟨31, 1, .rbr, 0⟩, ⟨0, 0, .w1p, 0⟩]⟩,
  ⟨0x40, 1, 4, [⟨31, 0, .ro, 0⟩]⟩,
  ⟨0x44, 1, 4, [⟨31, 0, .ro, 0⟩]⟩,
  ⟨0x140, 1, 4, [⟨31, 0, .ro, 0⟩]⟩,
  ⟨0x144, 1, 4, [⟨31, 0, .ro, 0⟩]⟩,
  ⟨0x48, 1, 4, [⟨31, 0, .ro, 0⟩]⟩,
  ⟨0x4c, 1, 4, [⟨31, 0, .ro, 0⟩]⟩
  ]
  ++ [
  ⟨0x148, 1, 4, [⟨31, 0, .ro, 0⟩]⟩,
  ⟨0x14c, 1, 4, [⟨31, 0, .ro, 0⟩]⟩,
  ⟨0x50, 1, 4, [⟨31, 0, .ro, 0⟩]⟩,
  ⟨0x54, 1, 4, [⟨31, 0, .ro, 0⟩]⟩,
  ⟨0x150, 1, 4, [⟨31, 0, .ro, 0⟩]⟩,
  ⟨0x154, 1, 4, [⟨31, 0, .ro, 0⟩]⟩,
  ⟨0x58, 1, 4, [⟨31, 0, .ro, 0⟩]⟩,
  ⟨0x5c, 1, 4, [⟨31, 0, .ro, 0⟩]⟩,
  ⟨0x158, 1, 4, [⟨31, 0, .ro, 0⟩]⟩,
  ⟨0x15c, 1, 4, [⟨31, 0, .ro, 0⟩]⟩,
  ⟨0x60, 1, 4, [⟨31, 0, .ro, 0⟩]⟩,
  ⟨0x64, 1, 4, [⟨31, 0, .ro, 0⟩]⟩,
  ⟨0x160, 1, 4, [⟨31, 0, .ro, 0⟩]⟩,
  ⟨0x164, 1, 4, [⟨31, 0, .ro, 0⟩]⟩,
  ⟨0x3fc, 1, 4, [⟨31, 4, .rbr, 0⟩, ⟨3, 0, .rw, 0⟩]⟩
  ]

/-- Registers of the page `qnt` (R148). -/
def regsQnt : List RegDef :=
[
  ⟨0x0, 1, 4, [⟨31, 3, .rbr, 0⟩, ⟨2, 2, .rwb, 1⟩, ⟨1, 1, .rwb, 1⟩, ⟨0, 0, .rwb, 1⟩]⟩,
  ⟨0x4, 1, 4, [⟨31, 9, .rbr, 0⟩, ⟨8, 8, .ro, 0⟩, ⟨7, 0, .ro, 0⟩]⟩,
  ⟨0x8, 1, 4, [⟨31, 16, .seq, 0⟩, ⟨15, 5, .rbr, 0⟩, ⟨4, 4, .seq, 0⟩, ⟨3, 3, .seq, 0⟩, ⟨2, 2, .seq, 0⟩, ⟨1, 1, .seq, 0⟩, ⟨0, 0, .seq, 0⟩]⟩,
  ⟨0xc, 1, 4, [⟨31, 0, .ro, 0⟩]⟩,
  ⟨0x10, 1, 4, [⟨31, 0, .ro, 0⟩]⟩,
  ⟨0x110, 1, 4, [⟨31, 0, .ro, 0⟩]⟩,
  ⟨0x14, 1, 4, [⟨31, 0, .ro, 0⟩]⟩,
  ⟨0x114, 1, 4, [⟨31, 0, .ro, 0⟩]⟩,
  ⟨0x18, 1, 4, [⟨31, 0, .ro, 0⟩]⟩,
  ⟨0x118, 1, 4, [⟨31, 0, .ro, 0⟩]⟩,
  ⟨0x1c, 1, 4, [⟨31, 0, .ro, 0⟩]⟩,
  ⟨0x11c, 1, 4, [⟨31, 0, .ro, 0⟩]⟩,
  ⟨0x40, 1, 4, [⟨31, 0, .ro, 0⟩]⟩,
  ⟨0x140, 1, 4, [⟨31, 0, .ro, 0⟩]⟩,
  ⟨0x44, 1, 4, [⟨31, 0, .ro, 0⟩]⟩,
  ⟨0x144, 1, 4, [⟨31, 0, .ro, 0⟩]⟩
  ]
  ++ [
  ⟨0x20, 1, 4, [⟨31, 1, .rbr, 0⟩, ⟨0, 0, .w1p, 0⟩]⟩,
  ⟨0x3fc, 1, 4, [⟨31, 4, .rbr, 0⟩, ⟨3, 0, .rw, 0⟩]⟩
  ]

/-- The registers of a page. -/
def Blk.regs : Blk → List RegDef
  | .hub => regsHub
  | .hubSr => regsHubSr
  | .hq => regsHq
  | .hqRing => regsHqRing
  | .hqCq => regsHqCq
  | .fab => regsFab
  | .fabP => regsFabP
  | .rt => regsRt
  | .rtMap => regsRtMap
  | .rtEntry => regsRtEntry
  | .ckp => regsCkp
  | .fh => regsFh
  | .ist => regsIst
  | .time => regsTime
  | .ledger => regsLedger
  | .clk => regsClk
  | .rst => regsRst
  | .pwr => regsPwr
  | .set => regsSet
  | .sec => regsSec
  | .i3c => regsI3c
  | .ptn => regsPtn
  | .ptnCore => regsPtnCore
  | .mem => regsMem
  | .memCh => regsMemCh
  | .sc => regsSc
  | .core => regsCore
  | .seqQ => regsSeqQ
  | .seqF => regsSeqF
  | .mx => regsMx
  | .vx => regsVx
  | .qnt => regsQnt

/-- A handle on a field: its page, the offset of its register (of the first of like registers), their distance, and its bits. -/
structure Fld where
  blk : Blk
  off : Nat
  stride : Nat
  hi : Nat
  lo : Nat
  deriving DecidableEq, Repr

/-- The same field in the `k`-th of like registers. -/
def Fld.nth (f : Fld) (k : Nat) : Fld := { f with off := f.off + k * f.stride }

/-- HUB_WAYBILL_REV.REV, R38. -/
def F.HUB_WAYBILL_REV_REV : Fld := ⟨.hub, 0x0, 4, 31, 0⟩
/-- HUB_UPD_STROBE.MASK, R55. -/
def F.HUB_UPD_STROBE_MASK : Fld := ⟨.hub, 0x10, 4, 15, 0⟩
/-- HUB_UPD_DISCARD.MASK, R55. -/
def F.HUB_UPD_DISCARD_MASK : Fld := ⟨.hub, 0x14, 4, 15, 0⟩
/-- HUB_UPD_PENDING.PENDING, R55. -/
def F.HUB_UPD_PENDING_PENDING : Fld := ⟨.hub, 0x18, 4, 15, 0⟩
/-- HUB_UPD_STATUS.SKIPPED_GROUPS, R55. -/
def F.HUB_UPD_STATUS_SKIPPED_GROUPS : Fld := ⟨.hub, 0x1c, 4, 15, 0⟩
/-- HUB_UPD_SKIPPED.PARTITIONS, R55. -/
def F.HUB_UPD_SKIPPED_PARTITIONS : Fld := ⟨.hub, 0x20, 4, 19, 0⟩
/-- HUB_ACC_CTRL.READ_LIVE, R55. -/
def F.HUB_ACC_CTRL_READ_LIVE : Fld := ⟨.hub, 0x24, 4, 0, 0⟩
/-- HUB_ACC_FAULT.REASON, R55. -/
def F.HUB_ACC_FAULT_REASON : Fld := ⟨.hub, 0x28, 4, 15, 8⟩
/-- HUB_ACC_FAULT.REQUESTER, R55. -/
def F.HUB_ACC_FAULT_REQUESTER : Fld := ⟨.hub, 0x28, 4, 1, 0⟩
/-- HUB_ACC_ADDR.OFFSET, R55. -/
def F.HUB_ACC_ADDR_OFFSET : Fld := ⟨.hub, 0x2c, 4, 25, 0⟩
/-- HUB_UGRP.GROUP, R55. -/
def F.HUB_UGRP_GROUP : Fld := ⟨.hub, 0x3fc, 4, 3, 0⟩
/-- HUB_TMR_CORR_LO.CORR, R60. -/
def F.HUB_TMR_CORR_LO_CORR : Fld := ⟨.hub, 0x30, 4, 31, 0⟩
/-- HUB_TMR_CORR_HI.CORR, R60. -/
def F.HUB_TMR_CORR_HI_CORR : Fld := ⟨.hub, 0x34, 4, 31, 0⟩
/-- HUB_TMR_STATUS.SPLIT, R60. -/
def F.HUB_TMR_STATUS_SPLIT : Fld := ⟨.hub, 0x38, 4, 0, 0⟩
/-- HUB_TMR_SPLIT_ADDR.OFFSET, R60. -/
def F.HUB_TMR_SPLIT_ADDR_OFFSET : Fld := ⟨.hub, 0x3c, 4, 25, 0⟩
/-- MX_CTRL.LONG_FREEZE_LOG2, R90. -/
def F.MX_CTRL_LONG_FREEZE_LOG2 : Fld := ⟨.mx, 0x0, 4, 20, 16⟩
/-- MX_CTRL.LOAD_SHARE, R90. -/
def F.MX_CTRL_LOAD_SHARE : Fld := ⟨.mx, 0x0, 4, 5, 4⟩
/-- MX_CTRL.CNT_EN, R90. -/
def F.MX_CTRL_CNT_EN : Fld := ⟨.mx, 0x0, 4, 0, 0⟩
/-- MX_STATUS.FORMAT, R90. -/
def F.MX_STATUS_FORMAT : Fld := ⟨.mx, 0x4, 4, 15, 8⟩
/-- MX_STATUS.BANK_HELD, R90. -/
def F.MX_STATUS_BANK_HELD : Fld := ⟨.mx, 0x4, 4, 7, 6⟩
/-- MX_STATUS.BANK_NEXT, R90. -/
def F.MX_STATUS_BANK_NEXT : Fld := ⟨.mx, 0x4, 4, 5, 5⟩
/-- MX_STATUS.FROZEN, R90. -/
def F.MX_STATUS_FROZEN : Fld := ⟨.mx, 0x4, 4, 4, 4⟩
/-- MX_STATUS.LOAD_WAIT, R90. -/
def F.MX_STATUS_LOAD_WAIT : Fld := ⟨.mx, 0x4, 4, 3, 3⟩
/-- MX_STATUS.LOADING, R90. -/
def F.MX_STATUS_LOADING : Fld := ⟨.mx, 0x4, 4, 2, 2⟩
/-- MX_STATUS.STREAMING, R90. -/
def F.MX_STATUS_STREAMING : Fld := ⟨.mx, 0x4, 4, 1, 1⟩
/-- MX_EVENT.LONG_FREEZE, R90. -/
def F.MX_EVENT_LONG_FREEZE : Fld := ⟨.mx, 0x8, 4, 2, 2⟩
/-- MX_EVENT.SKIP, R90. -/
def F.MX_EVENT_SKIP : Fld := ⟨.mx, 0x8, 4, 1, 1⟩
/-- MX_EVENT.MISMATCH, R90. -/
def F.MX_EVENT_MISMATCH : Fld := ⟨.mx, 0x8, 4, 0, 0⟩
/-- MX_MISMATCH_INFO.INJECTED, R90. -/
def F.MX_MISMATCH_INFO_INJECTED : Fld := ⟨.mx, 0xc, 4, 31, 31⟩
/-- MX_MISMATCH_INFO.VECTOR, R90. -/
def F.MX_MISMATCH_INFO_VECTOR : Fld := ⟨.mx, 0xc, 4, 25, 16⟩
/-- MX_MISMATCH_INFO.COLUMN, R90. -/
def F.MX_MISMATCH_INFO_COLUMN : Fld := ⟨.mx, 0xc, 4, 6, 0⟩
/-- MX_MISMATCH_TAG.TAG, R90. -/
def F.MX_MISMATCH_TAG_TAG : Fld := ⟨.mx, 0x10, 4, 31, 0⟩
/-- MX_MISMATCH_COUNT.COUNT, R90. -/
def F.MX_MISMATCH_COUNT_COUNT : Fld := ⟨.mx, 0x14, 4, 31, 0⟩
/-- MX_SKIP_COUNT.COUNT, R90. -/
def F.MX_SKIP_COUNT_COUNT : Fld := ⟨.mx, 0x18, 4, 31, 0⟩
/-- MX_COLMAP.USE_B, R90. -/
def F.MX_COLMAP_USE_B : Fld := ⟨.mx, 0x1c, 4, 17, 17⟩
/-- MX_COLMAP.USE_A, R90. -/
def F.MX_COLMAP_USE_A : Fld := ⟨.mx, 0x1c, 4, 16, 16⟩
/-- MX_COLMAP.BAD_B, R90. -/
def F.MX_COLMAP_BAD_B : Fld := ⟨.mx, 0x1c, 4, 15, 8⟩
/-- MX_COLMAP.BAD_A, R90. -/
def F.MX_COLMAP_BAD_A : Fld := ⟨.mx, 0x1c, 4, 7, 0⟩
/-- MX_BRAMBLE_INJ.ARMED, R90. -/
def F.MX_BRAMBLE_INJ_ARMED : Fld := ⟨.mx, 0x20, 4, 16, 16⟩
/-- MX_BRAMBLE_INJ.ARM, R90. -/
def F.MX_BRAMBLE_INJ_ARM : Fld := ⟨.mx, 0x20, 4, 8, 8⟩
/-- MX_BRAMBLE_INJ.COLUMN, R90. -/
def F.MX_BRAMBLE_INJ_COLUMN : Fld := ⟨.mx, 0x20, 4, 6, 0⟩
/-- MX_CNT_CLR.CLEAR, R90. -/
def F.MX_CNT_CLR_CLEAR : Fld := ⟨.mx, 0x24, 4, 0, 0⟩
/-- MX_CYC_BUSY_LO.COUNT, R90. -/
def F.MX_CYC_BUSY_LO_COUNT : Fld := ⟨.mx, 0x40, 4, 31, 0⟩
/-- MX_CYC_BUSY_HI.COUNT, R90. -/
def F.MX_CYC_BUSY_HI_COUNT : Fld := ⟨.mx, 0x44, 4, 31, 0⟩
/-- MX_CYC_FREEZE_LO.COUNT, R90. -/
def F.MX_CYC_FREEZE_LO_COUNT : Fld := ⟨.mx, 0x48, 4, 31, 0⟩
/-- MX_CYC_FREEZE_HI.COUNT, R90. -/
def F.MX_CYC_FREEZE_HI_COUNT : Fld := ⟨.mx, 0x4c, 4, 31, 0⟩
/-- MX_CYC_FREEZE_FEED_LO.COUNT, R90. -/
def F.MX_CYC_FREEZE_FEED_LO_COUNT : Fld := ⟨.mx, 0x50, 4, 31, 0⟩
/-- MX_CYC_FREEZE_FEED_HI.COUNT, R90. -/
def F.MX_CYC_FREEZE_FEED_HI_COUNT : Fld := ⟨.mx, 0x54, 4, 31, 0⟩
/-- MX_CYC_FREEZE_DRAIN_LO.COUNT, R90. -/
def F.MX_CYC_FREEZE_DRAIN_LO_COUNT : Fld := ⟨.mx, 0x58, 4, 31, 0⟩
/-- MX_CYC_FREEZE_DRAIN_HI.COUNT, R90. -/
def F.MX_CYC_FREEZE_DRAIN_HI_COUNT : Fld := ⟨.mx, 0x5c, 4, 31, 0⟩
/-- MX_CYC_LOAD_WAIT_LO.COUNT, R90. -/
def F.MX_CYC_LOAD_WAIT_LO_COUNT : Fld := ⟨.mx, 0x60, 4, 31, 0⟩
/-- MX_CYC_LOAD_WAIT_HI.COUNT, R90. -/
def F.MX_CYC_LOAD_WAIT_HI_COUNT : Fld := ⟨.mx, 0x64, 4, 31, 0⟩
/-- MX_CYC_IDLE_LO.COUNT, R90. -/
def F.MX_CYC_IDLE_LO_COUNT : Fld := ⟨.mx, 0x68, 4, 31, 0⟩
/-- MX_CYC_IDLE_HI.COUNT, R90. -/
def F.MX_CYC_IDLE_HI_COUNT : Fld := ⟨.mx, 0x6c, 4, 31, 0⟩
/-- MX_PASSES_LO.COUNT, R90. -/
def F.MX_PASSES_LO_COUNT : Fld := ⟨.mx, 0x70, 4, 31, 0⟩
/-- MX_PASSES_HI.COUNT, R90. -/
def F.MX_PASSES_HI_COUNT : Fld := ⟨.mx, 0x74, 4, 31, 0⟩
/-- MX_UGRP.GROUP, R90. -/
def F.MX_UGRP_GROUP : Fld := ⟨.mx, 0x3fc, 4, 3, 0⟩
/-- QNT_CTRL.CNT_EN, R148. -/
def F.QNT_CTRL_CNT_EN : Fld := ⟨.qnt, 0x0, 4, 2, 2⟩
/-- QNT_CTRL.STAGE_EN, R148. -/
def F.QNT_CTRL_STAGE_EN : Fld := ⟨.qnt, 0x0, 4, 1, 1⟩
/-- QNT_CTRL.RECOMP_EN, R148. -/
def F.QNT_CTRL_RECOMP_EN : Fld := ⟨.qnt, 0x0, 4, 0, 0⟩
/-- QNT_STATUS.REDRAINING, R148. -/
def F.QNT_STATUS_REDRAINING : Fld := ⟨.qnt, 0x4, 4, 8, 8⟩
/-- QNT_STATUS.LAST_ADJ, R148. -/
def F.QNT_STATUS_LAST_ADJ : Fld := ⟨.qnt, 0x4, 4, 7, 0⟩
/-- QNT_EVENT.RECOMP_SAT, R148. -/
def F.QNT_EVENT_RECOMP_SAT : Fld := ⟨.qnt, 0x8, 4, 4, 4⟩
/-- QNT_EVENT.UNDER, R148. -/
def F.QNT_EVENT_UNDER : Fld := ⟨.qnt, 0x8, 4, 3, 3⟩
/-- QNT_EVENT.RECOMP, R148. -/
def F.QNT_EVENT_RECOMP : Fld := ⟨.qnt, 0x8, 4, 2, 2⟩
/-- QNT_EVENT.OVF_SAT, R148. -/
def F.QNT_EVENT_OVF_SAT : Fld := ⟨.qnt, 0x8, 4, 1, 1⟩
/-- QNT_EVENT.CONST, R148. -/
def F.QNT_EVENT_CONST : Fld := ⟨.qnt, 0x8, 4, 0, 0⟩
/-- QNT_EVENT_TAG.TAG, R148. -/
def F.QNT_EVENT_TAG_TAG : Fld := ⟨.qnt, 0xc, 4, 31, 0⟩
/-- QNT_CONST_COUNT.COUNT, R148. -/
def F.QNT_CONST_COUNT_COUNT : Fld := ⟨.qnt, 0x10, 4, 31, 0⟩
/-- QNT_SAT_TILES.COUNT, R148. -/
def F.QNT_SAT_TILES_COUNT : Fld := ⟨.qnt, 0x14, 4, 31, 0⟩
/-- QNT_RECOMP_TILES.COUNT, R148. -/
def F.QNT_RECOMP_TILES_COUNT : Fld := ⟨.qnt, 0x18, 4, 31, 0⟩
/-- QNT_UNDER_TILES.COUNT, R148. -/
def F.QNT_UNDER_TILES_COUNT : Fld := ⟨.qnt, 0x1c, 4, 31, 0⟩
/-- QNT_REDRAIN_CYC_LO.COUNT, R148. -/
def F.QNT_REDRAIN_CYC_LO_COUNT : Fld := ⟨.qnt, 0x40, 4, 31, 0⟩
/-- QNT_REDRAIN_CYC_HI.COUNT, R148. -/
def F.QNT_REDRAIN_CYC_HI_COUNT : Fld := ⟨.qnt, 0x44, 4, 31, 0⟩
/-- QNT_CNT_CLR.CLEAR, R148. -/
def F.QNT_CNT_CLR_CLEAR : Fld := ⟨.qnt, 0x20, 4, 0, 0⟩
/-- QNT_UGRP.GROUP, R148. -/
def F.QNT_UGRP_GROUP : Fld := ⟨.qnt, 0x3fc, 4, 3, 0⟩
/-- VX_CTRL.CS_PRIO, R163. -/
def F.VX_CTRL_CS_PRIO : Fld := ⟨.vx, 0x0, 4, 5, 4⟩
/-- VX_CTRL.CNT_EN, R163. -/
def F.VX_CTRL_CNT_EN : Fld := ⟨.vx, 0x0, 4, 0, 0⟩
/-- VX_STATUS.STAGES, R163. -/
def F.VX_STATUS_STAGES : Fld := ⟨.vx, 0x4, 4, 7, 4⟩
/-- VX_STATUS.FP64, R163. -/
def F.VX_STATUS_FP64 : Fld := ⟨.vx, 0x4, 4, 3, 3⟩
/-- VX_STATUS.FUSED, R163. -/
def F.VX_STATUS_FUSED : Fld := ⟨.vx, 0x4, 4, 2, 2⟩
/-- VX_STATUS.STALLED, R163. -/
def F.VX_STATUS_STALLED : Fld := ⟨.vx, 0x4, 4, 1, 1⟩
/-- VX_STATUS.BUSY, R163. -/
def F.VX_STATUS_BUSY : Fld := ⟨.vx, 0x4, 4, 0, 0⟩
/-- VX_EVENT.SKIP, R163. -/
def F.VX_EVENT_SKIP : Fld := ⟨.vx, 0x8, 4, 1, 1⟩
/-- VX_EVENT.MISMATCH, R163. -/
def F.VX_EVENT_MISMATCH : Fld := ⟨.vx, 0x8, 4, 0, 0⟩
/-- VX_MISMATCH_INFO.INJECTED, R163. -/
def F.VX_MISMATCH_INFO_INJECTED : Fld := ⟨.vx, 0xc, 4, 31, 31⟩
/-- VX_MISMATCH_INFO.STAGE, R163. -/
def F.VX_MISMATCH_INFO_STAGE : Fld := ⟨.vx, 0xc, 4, 30, 27⟩
/-- VX_MISMATCH_INFO.ROW, R163. -/
def F.VX_MISMATCH_INFO_ROW : Fld := ⟨.vx, 0xc, 4, 23, 8⟩
/-- VX_MISMATCH_INFO.LANE, R163. -/
def F.VX_MISMATCH_INFO_LANE : Fld := ⟨.vx, 0xc, 4, 6, 0⟩
/-- VX_MISMATCH_TAG.TAG, R163. -/
def F.VX_MISMATCH_TAG_TAG : Fld := ⟨.vx, 0x10, 4, 31, 0⟩
/-- VX_MISMATCH_COUNT.COUNT, R163. -/
def F.VX_MISMATCH_COUNT_COUNT : Fld := ⟨.vx, 0x14, 4, 31, 0⟩
/-- VX_SKIP_COUNT.COUNT, R163. -/
def F.VX_SKIP_COUNT_COUNT : Fld := ⟨.vx, 0x18, 4, 31, 0⟩
/-- VX_IEEE_FLAGS.INVALID, R163. -/
def F.VX_IEEE_FLAGS_INVALID : Fld := ⟨.vx, 0x1c, 4, 4, 4⟩
/-- VX_IEEE_FLAGS.DIVZERO, R163. -/
def F.VX_IEEE_FLAGS_DIVZERO : Fld := ⟨.vx, 0x1c, 4, 3, 3⟩
/-- VX_IEEE_FLAGS.OVERFLOW, R163. -/
def F.VX_IEEE_FLAGS_OVERFLOW : Fld := ⟨.vx, 0x1c, 4, 2, 2⟩
/-- VX_IEEE_FLAGS.UNDERFLOW, R163. -/
def F.VX_IEEE_FLAGS_UNDERFLOW : Fld := ⟨.vx, 0x1c, 4, 1, 1⟩
/-- VX_IEEE_FLAGS.INEXACT, R163. -/
def F.VX_IEEE_FLAGS_INEXACT : Fld := ⟨.vx, 0x1c, 4, 0, 0⟩
/-- VX_BRAMBLE_INJ.ARMED, R163. -/
def F.VX_BRAMBLE_INJ_ARMED : Fld := ⟨.vx, 0x20, 4, 16, 16⟩
/-- VX_BRAMBLE_INJ.STAGE, R163. -/
def F.VX_BRAMBLE_INJ_STAGE : Fld := ⟨.vx, 0x20, 4, 15, 12⟩
/-- VX_BRAMBLE_INJ.ARM, R163. -/
def F.VX_BRAMBLE_INJ_ARM : Fld := ⟨.vx, 0x20, 4, 8, 8⟩
/-- VX_BRAMBLE_INJ.LANE, R163. -/
def F.VX_BRAMBLE_INJ_LANE : Fld := ⟨.vx, 0x20, 4, 6, 0⟩
/-- VX_CNT_CLR.CLEAR, R163. -/
def F.VX_CNT_CLR_CLEAR : Fld := ⟨.vx, 0x24, 4, 0, 0⟩
/-- VX_CYC_BUSY_LO.COUNT, R163. -/
def F.VX_CYC_BUSY_LO_COUNT : Fld := ⟨.vx, 0x40, 4, 31, 0⟩
/-- VX_CYC_BUSY_HI.COUNT, R163. -/
def F.VX_CYC_BUSY_HI_COUNT : Fld := ⟨.vx, 0x44, 4, 31, 0⟩
/-- VX_CYC_STALL_IN_LO.COUNT, R163. -/
def F.VX_CYC_STALL_IN_LO_COUNT : Fld := ⟨.vx, 0x48, 4, 31, 0⟩
/-- VX_CYC_STALL_IN_HI.COUNT, R163. -/
def F.VX_CYC_STALL_IN_HI_COUNT : Fld := ⟨.vx, 0x4c, 4, 31, 0⟩
/-- VX_CYC_STALL_OUT_LO.COUNT, R163. -/
def F.VX_CYC_STALL_OUT_LO_COUNT : Fld := ⟨.vx, 0x50, 4, 31, 0⟩
/-- VX_CYC_STALL_OUT_HI.COUNT, R163. -/
def F.VX_CYC_STALL_OUT_HI_COUNT : Fld := ⟨.vx, 0x54, 4, 31, 0⟩
/-- VX_CYC_IDLE_LO.COUNT, R163. -/
def F.VX_CYC_IDLE_LO_COUNT : Fld := ⟨.vx, 0x58, 4, 31, 0⟩
/-- VX_CYC_IDLE_HI.COUNT, R163. -/
def F.VX_CYC_IDLE_HI_COUNT : Fld := ⟨.vx, 0x5c, 4, 31, 0⟩
/-- VX_ELEMENTS_LO.COUNT, R163. -/
def F.VX_ELEMENTS_LO_COUNT : Fld := ⟨.vx, 0x60, 4, 31, 0⟩
/-- VX_ELEMENTS_HI.COUNT, R163. -/
def F.VX_ELEMENTS_HI_COUNT : Fld := ⟨.vx, 0x64, 4, 31, 0⟩
/-- VX_UGRP.GROUP, R163. -/
def F.VX_UGRP_GROUP : Fld := ⟨.vx, 0x3fc, 4, 3, 0⟩
/-- PTN_CHSEL.BCAST, R190. -/
def F.PTN_CHSEL_BCAST : Fld := ⟨.ptn, 0x10, 4, 31, 31⟩
/-- PTN_CHSEL.CHANNEL, R190. -/
def F.PTN_CHSEL_CHANNEL : Fld := ⟨.ptn, 0x10, 4, 6, 0⟩
/-- MEM_CTRL.SCRUB_HOURS, R191. -/
def F.MEM_CTRL_SCRUB_HOURS : Fld := ⟨.mem, 0x0, 4, 15, 8⟩
/-- MEM_CTRL.CNT_EN, R191. -/
def F.MEM_CTRL_CNT_EN : Fld := ⟨.mem, 0x0, 4, 1, 1⟩
/-- MEM_CTRL.ECC2, R191. -/
def F.MEM_CTRL_ECC2 : Fld := ⟨.mem, 0x0, 4, 0, 0⟩
/-- MEM_STATUS.CH_OUT, R191. -/
def F.MEM_STATUS_CH_OUT : Fld := ⟨.mem, 0x4, 4, 31, 24⟩
/-- MEM_STATUS.LANE_SPARED, R191. -/
def F.MEM_STATUS_LANE_SPARED : Fld := ⟨.mem, 0x4, 4, 23, 16⟩
/-- MEM_STATUS.PENDING, R191. -/
def F.MEM_STATUS_PENDING : Fld := ⟨.mem, 0x4, 4, 15, 8⟩
/-- MEM_STATUS.SCRUBBING, R191. -/
def F.MEM_STATUS_SCRUBBING : Fld := ⟨.mem, 0x4, 4, 1, 1⟩
/-- MEM_STATUS.ECC2_LIVE, R191. -/
def F.MEM_STATUS_ECC2_LIVE : Fld := ⟨.mem, 0x4, 4, 0, 0⟩
/-- MEM_EVENT.PENDING, R191. -/
def F.MEM_EVENT_PENDING : Fld := ⟨.mem, 0x8, 4, 3, 3⟩
/-- MEM_EVENT.SCRUB_UE, R191. -/
def F.MEM_EVENT_SCRUB_UE : Fld := ⟨.mem, 0x8, 4, 2, 2⟩
/-- MEM_EVENT.UE, R191. -/
def F.MEM_EVENT_UE : Fld := ⟨.mem, 0x8, 4, 1, 1⟩
/-- MEM_EVENT.CE, R191. -/
def F.MEM_EVENT_CE : Fld := ⟨.mem, 0x8, 4, 0, 0⟩
/-- MEM_UE_INFO.SCRUB, R191. -/
def F.MEM_UE_INFO_SCRUB : Fld := ⟨.mem, 0xc, 4, 31, 31⟩
/-- MEM_UE_INFO.PARTIAL, R191. -/
def F.MEM_UE_INFO_PARTIAL : Fld := ⟨.mem, 0xc, 4, 30, 30⟩
/-- MEM_UE_INFO.SOURCE, R191. -/
def F.MEM_UE_INFO_SOURCE : Fld := ⟨.mem, 0xc, 4, 29, 28⟩
/-- MEM_UE_INFO.CORE, R191. -/
def F.MEM_UE_INFO_CORE : Fld := ⟨.mem, 0xc, 4, 24, 16⟩
/-- MEM_UE_INFO.CHANNEL, R191. -/
def F.MEM_UE_INFO_CHANNEL : Fld := ⟨.mem, 0xc, 4, 6, 0⟩
/-- MEM_UE_ADDR_LO.ADDR, R191. -/
def F.MEM_UE_ADDR_LO_ADDR : Fld := ⟨.mem, 0x10, 4, 31, 0⟩
/-- MEM_UE_ADDR_HI.ADDR, R191. -/
def F.MEM_UE_ADDR_HI_ADDR : Fld := ⟨.mem, 0x14, 4, 15, 0⟩
/-- MEM_UE_TAG.TAG, R191. -/
def F.MEM_UE_TAG_TAG : Fld := ⟨.mem, 0x18, 4, 31, 0⟩
/-- MEM_CNT_CLR.CLEAR, R191. -/
def F.MEM_CNT_CLR_CLEAR : Fld := ⟨.mem, 0x1c, 4, 0, 0⟩
/-- MEM_CE_COUNT_LO.COUNT, R191. -/
def F.MEM_CE_COUNT_LO_COUNT : Fld := ⟨.mem, 0x40, 4, 31, 0⟩
/-- MEM_CE_COUNT_HI.COUNT, R191. -/
def F.MEM_CE_COUNT_HI_COUNT : Fld := ⟨.mem, 0x44, 4, 31, 0⟩
/-- MEM_UE_COUNT_LO.COUNT, R191. -/
def F.MEM_UE_COUNT_LO_COUNT : Fld := ⟨.mem, 0x48, 4, 31, 0⟩
/-- MEM_UE_COUNT_HI.COUNT, R191. -/
def F.MEM_UE_COUNT_HI_COUNT : Fld := ⟨.mem, 0x4c, 4, 31, 0⟩
/-- MEM_RD_SECTORS_LO.COUNT, R191. -/
def F.MEM_RD_SECTORS_LO_COUNT : Fld := ⟨.mem, 0x50, 4, 31, 0⟩
/-- MEM_RD_SECTORS_HI.COUNT, R191. -/
def F.MEM_RD_SECTORS_HI_COUNT : Fld := ⟨.mem, 0x54, 4, 31, 0⟩
/-- MEM_WR_SECTORS_LO.COUNT, R191. -/
def F.MEM_WR_SECTORS_LO_COUNT : Fld := ⟨.mem, 0x58, 4, 31, 0⟩
/-- MEM_WR_SECTORS_HI.COUNT, R191. -/
def F.MEM_WR_SECTORS_HI_COUNT : Fld := ⟨.mem, 0x5c, 4, 31, 0⟩
/-- MEM_CH_STATE.SPARE_FOR, R191. -/
def F.MEM_CH_STATE_SPARE_FOR : Fld := ⟨.memCh, 0x0, 4, 12, 8⟩
/-- MEM_CH_STATE.STATE, R191. -/
def F.MEM_CH_STATE_STATE : Fld := ⟨.memCh, 0x0, 4, 1, 0⟩
/-- MEM_CH_CTRL.LANE, R191. -/
def F.MEM_CH_CTRL_LANE : Fld := ⟨.memCh, 0x4, 4, 12, 8⟩
/-- MEM_CH_CTRL.RETIRE_LANE, R191. -/
def F.MEM_CH_CTRL_RETIRE_LANE : Fld := ⟨.memCh, 0x4, 4, 1, 1⟩
/-- MEM_CH_CTRL.REQ_OUT, R191. -/
def F.MEM_CH_CTRL_REQ_OUT : Fld := ⟨.memCh, 0x4, 4, 0, 0⟩
/-- MEM_CH_CE.COUNT, R191. -/
def F.MEM_CH_CE_COUNT : Fld := ⟨.memCh, 0x8, 4, 31, 0⟩
/-- MEM_CH_UE.COUNT, R191. -/
def F.MEM_CH_UE_COUNT : Fld := ⟨.memCh, 0xc, 4, 31, 0⟩
/-- MEM_CH_LANE_ERR.LANES, R191. -/
def F.MEM_CH_LANE_ERR_LANES : Fld := ⟨.memCh, 0x10, 4, 17, 0⟩
/-- MEM_CH_CLR.CLEAR, R191. -/
def F.MEM_CH_CLR_CLEAR : Fld := ⟨.memCh, 0x14, 4, 0, 0⟩
/-- MEM_UGRP.GROUP, R191. -/
def F.MEM_UGRP_GROUP : Fld := ⟨.mem, 0x3fc, 4, 3, 0⟩
/-- SC_CTRL.KEEP_WAYS, R192. -/
def F.SC_CTRL_KEEP_WAYS : Fld := ⟨.sc, 0x0, 4, 20, 16⟩
/-- SC_CTRL.PIN_WAYS, R192. -/
def F.SC_CTRL_PIN_WAYS : Fld := ⟨.sc, 0x0, 4, 12, 8⟩
/-- SC_CTRL.CNT_EN, R192. -/
def F.SC_CTRL_CNT_EN : Fld := ⟨.sc, 0x0, 4, 0, 0⟩
/-- SC_ARB.W_MAINT, R192. -/
def F.SC_ARB_W_MAINT : Fld := ⟨.sc, 0x4, 4, 31, 24⟩
/-- SC_ARB.W_HUB, R192. -/
def F.SC_ARB_W_HUB : Fld := ⟨.sc, 0x4, 4, 23, 16⟩
/-- SC_ARB.W_REMOTE, R192. -/
def F.SC_ARB_W_REMOTE : Fld := ⟨.sc, 0x4, 4, 15, 8⟩
/-- SC_ARB.W_LOCAL, R192. -/
def F.SC_ARB_W_LOCAL : Fld := ⟨.sc, 0x4, 4, 7, 0⟩
/-- SC_STATUS.PIN_LIVE, R192. -/
def F.SC_STATUS_PIN_LIVE : Fld := ⟨.sc, 0x8, 4, 12, 8⟩
/-- SC_STATUS.KEEP_RELEASING, R192. -/
def F.SC_STATUS_KEEP_RELEASING : Fld := ⟨.sc, 0x8, 4, 2, 2⟩
/-- SC_STATUS.FLUSHING, R192. -/
def F.SC_STATUS_FLUSHING : Fld := ⟨.sc, 0x8, 4, 1, 1⟩
/-- SC_STATUS.PIN_CHANGING, R192. -/
def F.SC_STATUS_PIN_CHANGING : Fld := ⟨.sc, 0x8, 4, 0, 0⟩
/-- SC_EVENT.RAM_UE, R192. -/
def F.SC_EVENT_RAM_UE : Fld := ⟨.sc, 0xc, 4, 3, 3⟩
/-- SC_EVENT.RAM_CE, R192. -/
def F.SC_EVENT_RAM_CE : Fld := ⟨.sc, 0xc, 4, 2, 2⟩
/-- SC_EVENT.RED_FAULT, R192. -/
def F.SC_EVENT_RED_FAULT : Fld := ⟨.sc, 0xc, 4, 1, 1⟩
/-- SC_EVENT.RANGE, R192. -/
def F.SC_EVENT_RANGE : Fld := ⟨.sc, 0xc, 4, 0, 0⟩
/-- SC_FAULT_INFO.REASON, R192. -/
def F.SC_FAULT_INFO_REASON : Fld := ⟨.sc, 0x10, 4, 23, 16⟩
/-- SC_FAULT_INFO.SOURCE, R192. -/
def F.SC_FAULT_INFO_SOURCE : Fld := ⟨.sc, 0x10, 4, 15, 0⟩
/-- SC_FAULT_ADDR_LO.ADDR, R192. -/
def F.SC_FAULT_ADDR_LO_ADDR : Fld := ⟨.sc, 0x14, 4, 31, 0⟩
/-- SC_FAULT_ADDR_HI.ADDR, R192. -/
def F.SC_FAULT_ADDR_HI_ADDR : Fld := ⟨.sc, 0x18, 4, 15, 0⟩
/-- SC_CMD.CNT_CLR, R192. -/
def F.SC_CMD_CNT_CLR : Fld := ⟨.sc, 0x1c, 4, 3, 3⟩
/-- SC_CMD.KEEP_RELEASE, R192. -/
def F.SC_CMD_KEEP_RELEASE : Fld := ⟨.sc, 0x1c, 4, 2, 2⟩
/-- SC_CMD.INVALIDATE, R192. -/
def F.SC_CMD_INVALIDATE : Fld := ⟨.sc, 0x1c, 4, 1, 1⟩
/-- SC_CMD.FLUSH, R192. -/
def F.SC_CMD_FLUSH : Fld := ⟨.sc, 0x1c, 4, 0, 0⟩
/-- SC_RED_FAULTS.COUNT, R192. -/
def F.SC_RED_FAULTS_COUNT : Fld := ⟨.sc, 0x20, 4, 31, 0⟩
/-- SC_HIT_SECTORS_LO.COUNT, R192. -/
def F.SC_HIT_SECTORS_LO_COUNT : Fld := ⟨.sc, 0x40, 4, 31, 0⟩
/-- SC_HIT_SECTORS_HI.COUNT, R192. -/
def F.SC_HIT_SECTORS_HI_COUNT : Fld := ⟨.sc, 0x44, 4, 31, 0⟩
/-- SC_MISS_SECTORS_LO.COUNT, R192. -/
def F.SC_MISS_SECTORS_LO_COUNT : Fld := ⟨.sc, 0x48, 4, 31, 0⟩
/-- SC_MISS_SECTORS_HI.COUNT, R192. -/
def F.SC_MISS_SECTORS_HI_COUNT : Fld := ⟨.sc, 0x4c, 4, 31, 0⟩
/-- SC_WB_SECTORS_LO.COUNT, R192. -/
def F.SC_WB_SECTORS_LO_COUNT : Fld := ⟨.sc, 0x50, 4, 31, 0⟩
/-- SC_WB_SECTORS_HI.COUNT, R192. -/
def F.SC_WB_SECTORS_HI_COUNT : Fld := ⟨.sc, 0x54, 4, 31, 0⟩
/-- SC_ATOMIC_OPS_LO.COUNT, R192. -/
def F.SC_ATOMIC_OPS_LO_COUNT : Fld := ⟨.sc, 0x58, 4, 31, 0⟩
/-- SC_ATOMIC_OPS_HI.COUNT, R192. -/
def F.SC_ATOMIC_OPS_HI_COUNT : Fld := ⟨.sc, 0x5c, 4, 31, 0⟩
/-- SC_ARB_WAIT_LO.COUNT, R192. -/
def F.SC_ARB_WAIT_LO_COUNT : Fld := ⟨.sc, 0x60, 4, 31, 0⟩
/-- SC_ARB_WAIT_HI.COUNT, R192. -/
def F.SC_ARB_WAIT_HI_COUNT : Fld := ⟨.sc, 0x64, 4, 31, 0⟩
/-- SC_UGRP.GROUP, R192. -/
def F.SC_UGRP_GROUP : Fld := ⟨.sc, 0x3fc, 4, 3, 0⟩
/-- SEQ_FLAGS.FLAG, R216. -/
def F.SEQ_FLAGS_FLAG : Fld := ⟨.seqF, 0x0, 4, 31, 0⟩
/-- SEQ_EVENT.SIG_DROP, R216. -/
def F.SEQ_EVENT_SIG_DROP : Fld := ⟨.seqF, 0x20, 4, 3, 3⟩
/-- SEQ_EVENT.OVERSET, R216. -/
def F.SEQ_EVENT_OVERSET : Fld := ⟨.seqF, 0x20, 4, 2, 2⟩
/-- SEQ_EVENT.SETTER_MISMATCH, R216. -/
def F.SEQ_EVENT_SETTER_MISMATCH : Fld := ⟨.seqF, 0x20, 4, 1, 1⟩
/-- SEQ_EVENT.ILLEGAL, R216. -/
def F.SEQ_EVENT_ILLEGAL : Fld := ⟨.seqF, 0x20, 4, 0, 0⟩
/-- SEQ_ILL_INFO.QUEUE, R216. -/
def F.SEQ_ILL_INFO_QUEUE : Fld := ⟨.seqF, 0x24, 4, 26, 24⟩
/-- SEQ_ILL_INFO.REASON, R216. -/
def F.SEQ_ILL_INFO_REASON : Fld := ⟨.seqF, 0x24, 4, 23, 16⟩
/-- SEQ_ILL_INFO.DETAIL, R216. -/
def F.SEQ_ILL_INFO_DETAIL : Fld := ⟨.seqF, 0x24, 4, 15, 8⟩
/-- SEQ_ILL_INFO.OPCODE, R216. -/
def F.SEQ_ILL_INFO_OPCODE : Fld := ⟨.seqF, 0x24, 4, 7, 0⟩
/-- SEQ_ILL_TAG.TAG, R216. -/
def F.SEQ_ILL_TAG_TAG : Fld := ⟨.seqF, 0x28, 4, 31, 0⟩
/-- SEQ_SIG_INFO.EVENT, R216. -/
def F.SEQ_SIG_INFO_EVENT : Fld := ⟨.seqF, 0x2c, 4, 31, 30⟩
/-- SEQ_SIG_INFO.CAUSE, R216. -/
def F.SEQ_SIG_INFO_CAUSE : Fld := ⟨.seqF, 0x2c, 4, 29, 28⟩
/-- SEQ_SIG_INFO.SOURCE, R216. -/
def F.SEQ_SIG_INFO_SOURCE : Fld := ⟨.seqF, 0x2c, 4, 27, 24⟩
/-- SEQ_SIG_INFO.INDEX, R216. -/
def F.SEQ_SIG_INFO_INDEX : Fld := ⟨.seqF, 0x2c, 4, 7, 0⟩
/-- SEQ_ILL_COUNT.COUNT, R216. -/
def F.SEQ_ILL_COUNT_COUNT : Fld := ⟨.seqF, 0x30, 4, 31, 0⟩
/-- SEQ_SIG_DROP_COUNT.COUNT, R216. -/
def F.SEQ_SIG_DROP_COUNT_COUNT : Fld := ⟨.seqF, 0x34, 4, 31, 0⟩
/-- SEQ_FLAG_DECL.SETTER, R216. -/
def F.SEQ_FLAG_DECL_SETTER : Fld := ⟨.seqF, 0x40, 4, 31, 0⟩
/-- SEQ_SEED.SEED, R216. -/
def F.SEQ_SEED_SEED : Fld := ⟨.seqF, 0xc0, 4, 31, 0⟩
/-- SEQ_CNT.VALUE, R216. -/
def F.SEQ_CNT_VALUE : Fld := ⟨.seqF, 0x200, 4, 31, 0⟩
/-- SEQ_CTRL.AGE_LOG2, R239. -/
def F.SEQ_CTRL_AGE_LOG2 : Fld := ⟨.seqQ, 0x0, 4, 20, 16⟩
/-- SEQ_CTRL.DL_EN, R239. -/
def F.SEQ_CTRL_DL_EN : Fld := ⟨.seqQ, 0x0, 4, 8, 8⟩
/-- SEQ_CTRL.CNT_EN, R239. -/
def F.SEQ_CTRL_CNT_EN : Fld := ⟨.seqQ, 0x0, 4, 0, 0⟩
/-- SEQ_QEVENT.BRSEL_BAD, R239. -/
def F.SEQ_QEVENT_BRSEL_BAD : Fld := ⟨.seqQ, 0x4, 4, 3, 3⟩
/-- SEQ_QEVENT.HALTED, R239. -/
def F.SEQ_QEVENT_HALTED : Fld := ⟨.seqQ, 0x4, 4, 2, 2⟩
/-- SEQ_QEVENT.COUNT_WRITTEN_IN_FLIGHT, R239. -/
def F.SEQ_QEVENT_COUNT_WRITTEN_IN_FLIGHT : Fld := ⟨.seqQ, 0x4, 4, 1, 1⟩
/-- SEQ_QEVENT.DEADLOCK, R239. -/
def F.SEQ_QEVENT_DEADLOCK : Fld := ⟨.seqQ, 0x4, 4, 0, 0⟩
/-- SEQ_DL_INFO.QMASK, R239. -/
def F.SEQ_DL_INFO_QMASK : Fld := ⟨.seqQ, 0x8, 4, 7, 0⟩
/-- SEQ_CWIF_INFO.QUEUE, R239. -/
def F.SEQ_CWIF_INFO_QUEUE : Fld := ⟨.seqQ, 0xc, 4, 10, 8⟩
/-- SEQ_CWIF_INFO.LCREG, R239. -/
def F.SEQ_CWIF_INFO_LCREG : Fld := ⟨.seqQ, 0xc, 4, 3, 0⟩
/-- SEQ_DL_TAG.TAG, R239. -/
def F.SEQ_DL_TAG_TAG : Fld := ⟨.seqQ, 0x20, 4, 31, 0⟩
/-- SEQ_QHEAD_TAG.TAG, R239. -/
def F.SEQ_QHEAD_TAG_TAG : Fld := ⟨.seqQ, 0x88, 32, 31, 0⟩
/-- SEQ_QRETIRED.COUNT, R239. -/
def F.SEQ_QRETIRED_COUNT : Fld := ⟨.seqQ, 0x94, 32, 31, 0⟩
/-- SEQ_LC.COUNT, R239. -/
def F.SEQ_LC_COUNT : Fld := ⟨.seqQ, 0x40, 4, 31, 0⟩
/-- SEQ_QCTRL.DISCARD, R239. -/
def F.SEQ_QCTRL_DISCARD : Fld := ⟨.seqQ, 0x80, 32, 9, 9⟩
/-- SEQ_QCTRL.RESUME, R239. -/
def F.SEQ_QCTRL_RESUME : Fld := ⟨.seqQ, 0x80, 32, 8, 8⟩
/-- SEQ_QCTRL.HALT_ON_ILLEGAL, R239. -/
def F.SEQ_QCTRL_HALT_ON_ILLEGAL : Fld := ⟨.seqQ, 0x80, 32, 2, 2⟩
/-- SEQ_QCTRL.PRIO, R239. -/
def F.SEQ_QCTRL_PRIO : Fld := ⟨.seqQ, 0x80, 32, 1, 0⟩
/-- SEQ_QSTATE.WAITMASK, R239. -/
def F.SEQ_QSTATE_WAITMASK : Fld := ⟨.seqQ, 0x84, 32, 19, 16⟩
/-- SEQ_QSTATE.INFLIGHT, R239. -/
def F.SEQ_QSTATE_INFLIGHT : Fld := ⟨.seqQ, 0x84, 32, 11, 8⟩
/-- SEQ_QSTATE.DEPTH, R239. -/
def F.SEQ_QSTATE_DEPTH : Fld := ⟨.seqQ, 0x84, 32, 6, 4⟩
/-- SEQ_QSTATE.STATE, R239. -/
def F.SEQ_QSTATE_STATE : Fld := ⟨.seqQ, 0x84, 32, 2, 0⟩
/-- SEQ_QITER.ITER, R239. -/
def F.SEQ_QITER_ITER : Fld := ⟨.seqQ, 0x8c, 32, 31, 0⟩
/-- SEQ_QREMAIN.REMAIN, R239. -/
def F.SEQ_QREMAIN_REMAIN : Fld := ⟨.seqQ, 0x90, 32, 31, 0⟩
/-- SEQ_QBRSEL.TAGLO, R239. -/
def F.SEQ_QBRSEL_TAGLO : Fld := ⟨.seqQ, 0x98, 32, 31, 16⟩
/-- SEQ_QBRSEL.BY_HOST, R239. -/
def F.SEQ_QBRSEL_BY_HOST : Fld := ⟨.seqQ, 0x98, 32, 4, 4⟩
/-- SEQ_QBRSEL.SEG, R239. -/
def F.SEQ_QBRSEL_SEG : Fld := ⟨.seqQ, 0x98, 32, 3, 0⟩
/-- SEQ_UGRP.GROUP, R239. -/
def F.SEQ_UGRP_GROUP : Fld := ⟨.seqQ, 0x3fc, 4, 3, 0⟩
/-- HQ_CTRL.POLL_BUDGET, R260. -/
def F.HQ_CTRL_POLL_BUDGET : Fld := ⟨.hq, 0x0, 4, 31, 24⟩
/-- HQ_CTRL.CNT_EN, R260. -/
def F.HQ_CTRL_CNT_EN : Fld := ⟨.hq, 0x0, 4, 1, 1⟩
/-- HQ_CTRL.ENABLE, R260. -/
def F.HQ_CTRL_ENABLE : Fld := ⟨.hq, 0x0, 4, 0, 0⟩
/-- HQ_STATUS.MODULES, R260. -/
def F.HQ_STATUS_MODULES : Fld := ⟨.hq, 0x4, 4, 7, 4⟩
/-- HQ_STATUS.RATE, R260. -/
def F.HQ_STATUS_RATE : Fld := ⟨.hq, 0x4, 4, 3, 2⟩
/-- HQ_STATUS.LINK_UP, R260. -/
def F.HQ_STATUS_LINK_UP : Fld := ⟨.hq, 0x4, 4, 0, 0⟩
/-- HQ_EVENT.POLL_LATE, R260. -/
def F.HQ_EVENT_POLL_LATE : Fld := ⟨.hq, 0x8, 4, 5, 5⟩
/-- HQ_EVENT.HOST_WR_DROP, R260. -/
def F.HQ_EVENT_HOST_WR_DROP : Fld := ⟨.hq, 0x8, 4, 4, 4⟩
/-- HQ_EVENT.HOST_RD_ERR, R260. -/
def F.HQ_EVENT_HOST_RD_ERR : Fld := ⟨.hq, 0x8, 4, 3, 3⟩
/-- HQ_EVENT.RING_ERR, R260. -/
def F.HQ_EVENT_RING_ERR : Fld := ⟨.hq, 0x8, 4, 2, 2⟩
/-- HQ_EVENT.MODULE_DEGRADE, R260. -/
def F.HQ_EVENT_MODULE_DEGRADE : Fld := ⟨.hq, 0x8, 4, 1, 1⟩
/-- HQ_EVENT.LINK_DOWN, R260. -/
def F.HQ_EVENT_LINK_DOWN : Fld := ⟨.hq, 0x8, 4, 0, 0⟩
/-- HQ_ERR_INFO.REASON, R260. -/
def F.HQ_ERR_INFO_REASON : Fld := ⟨.hq, 0xc, 4, 23, 16⟩
/-- HQ_ERR_INFO.RING, R260. -/
def F.HQ_ERR_INFO_RING : Fld := ⟨.hq, 0xc, 4, 11, 0⟩
/-- HQ_RINGSEL.BCAST, R260. -/
def F.HQ_RINGSEL_BCAST : Fld := ⟨.hq, 0x10, 4, 31, 31⟩
/-- HQ_RINGSEL.INDEX, R260. -/
def F.HQ_RINGSEL_INDEX : Fld := ⟨.hq, 0x10, 4, 11, 0⟩
/-- HQ_CQSEL.BCAST, R260. -/
def F.HQ_CQSEL_BCAST : Fld := ⟨.hq, 0x18, 4, 31, 31⟩
/-- HQ_CQSEL.INDEX, R260. -/
def F.HQ_CQSEL_INDEX : Fld := ⟨.hq, 0x18, 4, 11, 0⟩
/-- HQ_WAKE.ALL8, R260. -/
def F.HQ_WAKE_ALL8 : Fld := ⟨.hq, 0x14, 4, 12, 12⟩
/-- HQ_WAKE.RING, R260. -/
def F.HQ_WAKE_RING : Fld := ⟨.hq, 0x14, 4, 11, 0⟩
/-- HQ_WR_DROPS.COUNT, R260. -/
def F.HQ_WR_DROPS_COUNT : Fld := ⟨.hq, 0x1c, 4, 31, 0⟩
/-- HQ_LINK_CMD.RETRAIN, R260. -/
def F.HQ_LINK_CMD_RETRAIN : Fld := ⟨.hq, 0x20, 4, 0, 0⟩
/-- HQ_DESC_FETCHED_LO.COUNT, R260. -/
def F.HQ_DESC_FETCHED_LO_COUNT : Fld := ⟨.hq, 0x40, 4, 31, 0⟩
/-- HQ_DESC_FETCHED_HI.COUNT, R260. -/
def F.HQ_DESC_FETCHED_HI_COUNT : Fld := ⟨.hq, 0x44, 4, 31, 0⟩
/-- HQ_HOST_RD_BYTES_LO.COUNT, R260. -/
def F.HQ_HOST_RD_BYTES_LO_COUNT : Fld := ⟨.hq, 0x48, 4, 31, 0⟩
/-- HQ_HOST_RD_BYTES_HI.COUNT, R260. -/
def F.HQ_HOST_RD_BYTES_HI_COUNT : Fld := ⟨.hq, 0x4c, 4, 31, 0⟩
/-- HQ_HOST_WR_BYTES_LO.COUNT, R260. -/
def F.HQ_HOST_WR_BYTES_LO_COUNT : Fld := ⟨.hq, 0x50, 4, 31, 0⟩
/-- HQ_HOST_WR_BYTES_HI.COUNT, R260. -/
def F.HQ_HOST_WR_BYTES_HI_COUNT : Fld := ⟨.hq, 0x54, 4, 31, 0⟩
/-- HQ_UGRP.GROUP, R260. -/
def F.HQ_UGRP_GROUP : Fld := ⟨.hq, 0x3fc, 4, 3, 0⟩
/-- HQ_RING_CTRL.LOG2_SIZE, R260. -/
def F.HQ_RING_CTRL_LOG2_SIZE : Fld := ⟨.hqRing, 0x0, 4, 28, 24⟩
/-- HQ_RING_CTRL.ERR_CQ, R260. -/
def F.HQ_RING_CTRL_ERR_CQ : Fld := ⟨.hqRing, 0x0, 4, 21, 16⟩
/-- HQ_RING_CTRL.POLL_US, R260. -/
def F.HQ_RING_CTRL_POLL_US : Fld := ⟨.hqRing, 0x0, 4, 15, 8⟩
/-- HQ_RING_CTRL.PAUSE, R260. -/
def F.HQ_RING_CTRL_PAUSE : Fld := ⟨.hqRing, 0x0, 4, 2, 2⟩
/-- HQ_RING_CTRL.RUN, R260. -/
def F.HQ_RING_CTRL_RUN : Fld := ⟨.hqRing, 0x0, 4, 1, 1⟩
/-- HQ_RING_STATE.REASON, R260. -/
def F.HQ_RING_STATE_REASON : Fld := ⟨.hqRing, 0x4, 4, 23, 16⟩
/-- HQ_RING_STATE.STATE, R260. -/
def F.HQ_RING_STATE_STATE : Fld := ⟨.hqRing, 0x4, 4, 1, 0⟩
/-- HQ_RING_BASE_LO.BASE, R260. -/
def F.HQ_RING_BASE_LO_BASE : Fld := ⟨.hqRing, 0x8, 4, 31, 0⟩
/-- HQ_RING_BASE_HI.BASE, R260. -/
def F.HQ_RING_BASE_HI_BASE : Fld := ⟨.hqRing, 0xc, 4, 15, 0⟩
/-- HQ_RING_PREC_LO.PREC, R260. -/
def F.HQ_RING_PREC_LO_PREC : Fld := ⟨.hqRing, 0x10, 4, 31, 0⟩
/-- HQ_RING_PREC_HI.PREC, R260. -/
def F.HQ_RING_PREC_HI_PREC : Fld := ⟨.hqRing, 0x14, 4, 15, 0⟩
/-- HQ_RING_CIDX.CIDX, R260. -/
def F.HQ_RING_CIDX_CIDX : Fld := ⟨.hqRing, 0x18, 4, 31, 0⟩
/-- HQ_RING_PIDX.PIDX, R260. -/
def F.HQ_RING_PIDX_PIDX : Fld := ⟨.hqRing, 0x1c, 4, 31, 0⟩
/-- HQ_CQ_CTRL.LOG2_SIZE, R260. -/
def F.HQ_CQ_CTRL_LOG2_SIZE : Fld := ⟨.hqCq, 0x0, 4, 28, 24⟩
/-- HQ_CQ_CTRL.VECTOR, R260. -/
def F.HQ_CQ_CTRL_VECTOR : Fld := ⟨.hqCq, 0x0, 4, 23, 16⟩
/-- HQ_CQ_CTRL.HOLDOFF_US, R260. -/
def F.HQ_CQ_CTRL_HOLDOFF_US : Fld := ⟨.hqCq, 0x0, 4, 15, 8⟩
/-- HQ_CQ_CTRL.IRQ_EN, R260. -/
def F.HQ_CQ_CTRL_IRQ_EN : Fld := ⟨.hqCq, 0x0, 4, 1, 1⟩
/-- HQ_CQ_CTRL.EN, R260. -/
def F.HQ_CQ_CTRL_EN : Fld := ⟨.hqCq, 0x0, 4, 0, 0⟩
/-- HQ_CQ_BASE_LO.BASE, R260. -/
def F.HQ_CQ_BASE_LO_BASE : Fld := ⟨.hqCq, 0x4, 4, 31, 0⟩
/-- HQ_CQ_BASE_HI.BASE, R260. -/
def F.HQ_CQ_BASE_HI_BASE : Fld := ⟨.hqCq, 0x8, 4, 15, 0⟩
/-- HQ_CQ_HEAD.HEAD, R260. -/
def F.HQ_CQ_HEAD_HEAD : Fld := ⟨.hqCq, 0xc, 4, 31, 0⟩
/-- HQ_CQ_TAIL.TAIL, R260. -/
def F.HQ_CQ_TAIL_TAIL : Fld := ⟨.hqCq, 0x10, 4, 31, 0⟩
/-- FAB_CTRL.REPLAY_LIMIT, R283. -/
def F.FAB_CTRL_REPLAY_LIMIT : Fld := ⟨.fab, 0x0, 4, 23, 20⟩
/-- FAB_CTRL.REPLAY_TIMEOUT_US, R283. -/
def F.FAB_CTRL_REPLAY_TIMEOUT_US : Fld := ⟨.fab, 0x0, 4, 15, 8⟩
/-- FAB_CTRL.CNT_EN, R283. -/
def F.FAB_CTRL_CNT_EN : Fld := ⟨.fab, 0x0, 4, 1, 1⟩
/-- FAB_CTRL.EN, R283. -/
def F.FAB_CTRL_EN : Fld := ⟨.fab, 0x0, 4, 0, 0⟩
/-- FAB_STATUS.ASSIGNED, R283. -/
def F.FAB_STATUS_ASSIGNED : Fld := ⟨.fab, 0x4, 4, 31, 31⟩
/-- FAB_STATUS.PLAN, R283. -/
def F.FAB_STATUS_PLAN : Fld := ⟨.fab, 0x4, 4, 30, 29⟩
/-- FAB_STATUS.UP, R283. -/
def F.FAB_STATUS_UP : Fld := ⟨.fab, 0x4, 4, 23, 0⟩
/-- FAB_ADDR.ASSIGNED, R283. -/
def F.FAB_ADDR_ASSIGNED : Fld := ⟨.fab, 0x8, 4, 12, 12⟩
/-- FAB_ADDR.COORD, R283. -/
def F.FAB_ADDR_COORD : Fld := ⟨.fab, 0x8, 4, 11, 0⟩
/-- FAB_EVENT.PLAN_REFUSED, R283. -/
def F.FAB_EVENT_PLAN_REFUSED : Fld := ⟨.fab, 0xc, 4, 5, 5⟩
/-- FAB_EVENT.PORT_ANY, R283. -/
def F.FAB_EVENT_PORT_ANY : Fld := ⟨.fab, 0xc, 4, 4, 0⟩
/-- FAB_PORTSEL.BCAST, R283. -/
def F.FAB_PORTSEL_BCAST : Fld := ⟨.fab, 0x10, 4, 31, 31⟩
/-- FAB_PORTSEL.PORT, R283. -/
def F.FAB_PORTSEL_PORT : Fld := ⟨.fab, 0x10, 4, 4, 0⟩
/-- FAB_PLAN_ID.ID, R283. -/
def F.FAB_PLAN_ID_ID : Fld := ⟨.fab, 0x14, 4, 31, 0⟩
/-- FAB_SERIAL_LO.SERIAL, R283. -/
def F.FAB_SERIAL_LO_SERIAL : Fld := ⟨.fab, 0x18, 4, 31, 0⟩
/-- FAB_SERIAL_HI.SERIAL, R283. -/
def F.FAB_SERIAL_HI_SERIAL : Fld := ⟨.fab, 0x1c, 4, 31, 0⟩
/-- FAB_UGRP.GROUP, R283. -/
def F.FAB_UGRP_GROUP : Fld := ⟨.fab, 0x3fc, 4, 3, 0⟩
/-- FAB_P_CTRL.EN, R284. -/
def F.FAB_P_CTRL_EN : Fld := ⟨.fabP, 0x0, 4, 0, 0⟩
/-- FAB_P_CMD.CNT_CLR, R284. -/
def F.FAB_P_CMD_CNT_CLR : Fld := ⟨.fabP, 0x4, 4, 1, 1⟩
/-- FAB_P_CMD.RETRAIN, R284. -/
def F.FAB_P_CMD_RETRAIN : Fld := ⟨.fabP, 0x4, 4, 0, 0⟩
/-- FAB_P_STATE.FAILS, R284. -/
def F.FAB_P_STATE_FAILS : Fld := ⟨.fabP, 0x8, 4, 23, 22⟩
/-- FAB_P_STATE.PHYS, R284. -/
def F.FAB_P_STATE_PHYS : Fld := ⟨.fabP, 0x8, 4, 21, 17⟩
/-- FAB_P_STATE.REMAPPED, R284. -/
def F.FAB_P_STATE_REMAPPED : Fld := ⟨.fabP, 0x8, 4, 16, 16⟩
/-- FAB_P_STATE.CABLE, R284. -/
def F.FAB_P_STATE_CABLE : Fld := ⟨.fabP, 0x8, 4, 11, 8⟩
/-- FAB_P_STATE.LSTATE, R284. -/
def F.FAB_P_STATE_LSTATE : Fld := ⟨.fabP, 0x8, 4, 2, 0⟩
/-- FAB_P_EVENT.CRED_BAD, R284. -/
def F.FAB_P_EVENT_CRED_BAD : Fld := ⟨.fabP, 0xc, 4, 7, 7⟩
/-- FAB_P_EVENT.DROP, R284. -/
def F.FAB_P_EVENT_DROP : Fld := ⟨.fabP, 0xc, 4, 6, 6⟩
/-- FAB_P_EVENT.REPLAY_EXHAUST, R284. -/
def F.FAB_P_EVENT_REPLAY_EXHAUST : Fld := ⟨.fabP, 0xc, 4, 5, 5⟩
/-- FAB_P_EVENT.BER_DEGRADED, R284. -/
def F.FAB_P_EVENT_BER_DEGRADED : Fld := ⟨.fabP, 0xc, 4, 4, 4⟩
/-- FAB_P_EVENT.CABLE, R284. -/
def F.FAB_P_EVENT_CABLE : Fld := ⟨.fabP, 0xc, 4, 3, 3⟩
/-- FAB_P_EVENT.RETRAIN_GIVEUP, R284. -/
def F.FAB_P_EVENT_RETRAIN_GIVEUP : Fld := ⟨.fabP, 0xc, 4, 2, 2⟩
/-- FAB_P_EVENT.UP, R284. -/
def F.FAB_P_EVENT_UP : Fld := ⟨.fabP, 0xc, 4, 1, 1⟩
/-- FAB_P_EVENT.DOWN, R284. -/
def F.FAB_P_EVENT_DOWN : Fld := ⟨.fabP, 0xc, 4, 0, 0⟩
/-- FAB_P_NBR_SERIAL_LO.SERIAL, R284. -/
def F.FAB_P_NBR_SERIAL_LO_SERIAL : Fld := ⟨.fabP, 0x10, 4, 31, 0⟩
/-- FAB_P_NBR_SERIAL_HI.SERIAL, R284. -/
def F.FAB_P_NBR_SERIAL_HI_SERIAL : Fld := ⟨.fabP, 0x14, 4, 31, 0⟩
/-- FAB_P_NBR_INFO.PORT, R284. -/
def F.FAB_P_NBR_INFO_PORT : Fld := ⟨.fabP, 0x18, 4, 28, 24⟩
/-- FAB_P_NBR_INFO.ASSIGNED, R284. -/
def F.FAB_P_NBR_INFO_ASSIGNED : Fld := ⟨.fabP, 0x18, 4, 12, 12⟩
/-- FAB_P_NBR_INFO.COORD, R284. -/
def F.FAB_P_NBR_INFO_COORD : Fld := ⟨.fabP, 0x18, 4, 11, 0⟩
/-- FAB_P_CRED.CAP, R284. -/
def F.FAB_P_CRED_CAP : Fld := ⟨.fabP, 0x20, 4, 28, 16⟩
/-- FAB_P_CRED.MIN, R284. -/
def F.FAB_P_CRED_MIN : Fld := ⟨.fabP, 0x20, 4, 12, 0⟩
/-- FAB_P_DROP.COUNT, R284. -/
def F.FAB_P_DROP_COUNT : Fld := ⟨.fabP, 0x40, 4, 31, 0⟩
/-- FAB_P_TX_FLITS_LO.COUNT, R284. -/
def F.FAB_P_TX_FLITS_LO_COUNT : Fld := ⟨.fabP, 0x80, 4, 31, 0⟩
/-- FAB_P_TX_FLITS_HI.COUNT, R284. -/
def F.FAB_P_TX_FLITS_HI_COUNT : Fld := ⟨.fabP, 0x84, 4, 31, 0⟩
/-- FAB_P_RX_FLITS_LO.COUNT, R284. -/
def F.FAB_P_RX_FLITS_LO_COUNT : Fld := ⟨.fabP, 0x88, 4, 31, 0⟩
/-- FAB_P_RX_FLITS_HI.COUNT, R284. -/
def F.FAB_P_RX_FLITS_HI_COUNT : Fld := ⟨.fabP, 0x8c, 4, 31, 0⟩
/-- FAB_P_FEC_CORR_LO.COUNT, R284. -/
def F.FAB_P_FEC_CORR_LO_COUNT : Fld := ⟨.fabP, 0x90, 4, 31, 0⟩
/-- FAB_P_FEC_CORR_HI.COUNT, R284. -/
def F.FAB_P_FEC_CORR_HI_COUNT : Fld := ⟨.fabP, 0x94, 4, 31, 0⟩
/-- FAB_P_BLOCK_ERR_LO.COUNT, R284. -/
def F.FAB_P_BLOCK_ERR_LO_COUNT : Fld := ⟨.fabP, 0x98, 4, 31, 0⟩
/-- FAB_P_BLOCK_ERR_HI.COUNT, R284. -/
def F.FAB_P_BLOCK_ERR_HI_COUNT : Fld := ⟨.fabP, 0x9c, 4, 31, 0⟩
/-- FAB_P_REPLAYS_LO.COUNT, R284. -/
def F.FAB_P_REPLAYS_LO_COUNT : Fld := ⟨.fabP, 0xa0, 4, 31, 0⟩
/-- FAB_P_REPLAYS_HI.COUNT, R284. -/
def F.FAB_P_REPLAYS_HI_COUNT : Fld := ⟨.fabP, 0xa4, 4, 31, 0⟩
/-- FAB_P_UGRP.GROUP, R284. -/
def F.FAB_P_UGRP_GROUP : Fld := ⟨.fabP, 0x3fc, 4, 3, 0⟩
/-- RT_CTRL.MAX_HOPS, R301. -/
def F.RT_CTRL_MAX_HOPS : Fld := ⟨.rt, 0x0, 4, 23, 16⟩
/-- RT_CTRL.CNT_EN, R301. -/
def F.RT_CTRL_CNT_EN : Fld := ⟨.rt, 0x0, 4, 0, 0⟩
/-- RT_SLICE.SLICE_ID, R301. -/
def F.RT_SLICE_SLICE_ID : Fld := ⟨.rt, 0x4, 4, 11, 0⟩
/-- RT_BOX_ORIGIN.ORIGIN, R301. -/
def F.RT_BOX_ORIGIN_ORIGIN : Fld := ⟨.rt, 0x8, 4, 11, 0⟩
/-- RT_BOX_EXTENT.WRAP, R301. -/
def F.RT_BOX_EXTENT_WRAP : Fld := ⟨.rt, 0xc, 4, 26, 24⟩
/-- RT_BOX_EXTENT.ZLEN, R301. -/
def F.RT_BOX_EXTENT_ZLEN : Fld := ⟨.rt, 0xc, 4, 20, 16⟩
/-- RT_BOX_EXTENT.YLEN, R301. -/
def F.RT_BOX_EXTENT_YLEN : Fld := ⟨.rt, 0xc, 4, 12, 8⟩
/-- RT_BOX_EXTENT.XLEN, R301. -/
def F.RT_BOX_EXTENT_XLEN : Fld := ⟨.rt, 0xc, 4, 4, 0⟩
/-- RT_DIMS.DZ, R301. -/
def F.RT_DIMS_DZ : Fld := ⟨.rt, 0x10, 4, 20, 16⟩
/-- RT_DIMS.DY, R301. -/
def F.RT_DIMS_DY : Fld := ⟨.rt, 0x10, 4, 12, 8⟩
/-- RT_DIMS.DX, R301. -/
def F.RT_DIMS_DX : Fld := ⟨.rt, 0x10, 4, 4, 0⟩
/-- RT_POS.POS, R301. -/
def F.RT_POS_POS : Fld := ⟨.rt, 0x14, 4, 11, 0⟩
/-- RT_EVENT.HOPS, R301. -/
def F.RT_EVENT_HOPS : Fld := ⟨.rt, 0x18, 4, 2, 2⟩
/-- RT_EVENT.SLICE_DROP, R301. -/
def F.RT_EVENT_SLICE_DROP : Fld := ⟨.rt, 0x18, 4, 1, 1⟩
/-- RT_EVENT.SLICE_BAD, R301. -/
def F.RT_EVENT_SLICE_BAD : Fld := ⟨.rt, 0x18, 4, 0, 0⟩
/-- RT_EVENT_INFO.PORT, R301. -/
def F.RT_EVENT_INFO_PORT : Fld := ⟨.rt, 0x1c, 4, 20, 16⟩
/-- RT_EVENT_INFO.SLICE, R301. -/
def F.RT_EVENT_INFO_SLICE : Fld := ⟨.rt, 0x1c, 4, 11, 0⟩
/-- RT_PEER.V, R301. -/
def F.RT_PEER_V : Fld := ⟨.rt, 0x20, 4, 12, 12⟩
/-- RT_PEER.SLICE, R301. -/
def F.RT_PEER_SLICE : Fld := ⟨.rt, 0x20, 4, 11, 0⟩
/-- RT_ARB.W3, R301. -/
def F.RT_ARB_W3 : Fld := ⟨.rt, 0x30, 4, 23, 20⟩
/-- RT_ARB.W2, R301. -/
def F.RT_ARB_W2 : Fld := ⟨.rt, 0x30, 4, 19, 16⟩
/-- RT_ARB.W1, R301. -/
def F.RT_ARB_W1 : Fld := ⟨.rt, 0x30, 4, 15, 12⟩
/-- RT_ARB.W0, R301. -/
def F.RT_ARB_W0 : Fld := ⟨.rt, 0x30, 4, 11, 8⟩
/-- RT_ARB.FLOOR, R301. -/
def F.RT_ARB_FLOOR : Fld := ⟨.rt, 0x30, 4, 3, 0⟩
/-- RT_FWD_PKTS_LO.COUNT, R301. -/
def F.RT_FWD_PKTS_LO_COUNT : Fld := ⟨.rt, 0x40, 4, 31, 0⟩
/-- RT_FWD_PKTS_HI.COUNT, R301. -/
def F.RT_FWD_PKTS_HI_COUNT : Fld := ⟨.rt, 0x44, 4, 31, 0⟩
/-- RT_DELIV_PKTS_LO.COUNT, R301. -/
def F.RT_DELIV_PKTS_LO_COUNT : Fld := ⟨.rt, 0x48, 4, 31, 0⟩
/-- RT_DELIV_PKTS_HI.COUNT, R301. -/
def F.RT_DELIV_PKTS_HI_COUNT : Fld := ⟨.rt, 0x4c, 4, 31, 0⟩
/-- RT_VC3_FLITS_LO.COUNT, R301. -/
def F.RT_VC3_FLITS_LO_COUNT : Fld := ⟨.rt, 0x50, 4, 31, 0⟩
/-- RT_VC3_FLITS_HI.COUNT, R301. -/
def F.RT_VC3_FLITS_HI_COUNT : Fld := ⟨.rt, 0x54, 4, 31, 0⟩
/-- RT_BUBBLE_WAIT_LO.COUNT, R301. -/
def F.RT_BUBBLE_WAIT_LO_COUNT : Fld := ⟨.rt, 0x58, 4, 31, 0⟩
/-- RT_BUBBLE_WAIT_HI.COUNT, R301. -/
def F.RT_BUBBLE_WAIT_HI_COUNT : Fld := ⟨.rt, 0x5c, 4, 31, 0⟩
/-- RT_TRANSIT_MAP.MAP, R301. -/
def F.RT_TRANSIT_MAP_MAP : Fld := ⟨.rtMap, 0x0, 4, 31, 0⟩
/-- RT_ENTRY.ENTRY, R301. -/
def F.RT_ENTRY_ENTRY : Fld := ⟨.rtEntry, 0x0, 4, 31, 0⟩
/-- RT_UGRP.GROUP, R301. -/
def F.RT_UGRP_GROUP : Fld := ⟨.rt, 0x3fc, 4, 3, 0⟩
/-- HUB_JOB_CTRL.EVAL_MODE, R324. -/
def F.HUB_JOB_CTRL_EVAL_MODE : Fld := ⟨.hub, 0x40, 4, 5, 4⟩
/-- HUB_JOB_CTRL.INTERLUDE, R324. -/
def F.HUB_JOB_CTRL_INTERLUDE : Fld := ⟨.hub, 0x40, 4, 2, 2⟩
/-- HUB_JOB_CTRL.END, R324. -/
def F.HUB_JOB_CTRL_END : Fld := ⟨.hub, 0x40, 4, 1, 1⟩
/-- HUB_JOB_CTRL.START, R324. -/
def F.HUB_JOB_CTRL_START : Fld := ⟨.hub, 0x40, 4, 0, 0⟩
/-- HUB_JOB_STATUS.INTERLUDE_LIVE, R324. -/
def F.HUB_JOB_STATUS_INTERLUDE_LIVE : Fld := ⟨.hub, 0x44, 4, 1, 1⟩
/-- HUB_JOB_STATUS.ACTIVE, R324. -/
def F.HUB_JOB_STATUS_ACTIVE : Fld := ⟨.hub, 0x44, 4, 0, 0⟩
/-- HUB_JOB_EVENT.INTERLUDE_REFUSED, R324. -/
def F.HUB_JOB_EVENT_INTERLUDE_REFUSED : Fld := ⟨.hub, 0x48, 4, 1, 1⟩
/-- HUB_JOB_EVENT.MAP_REFUSED, R324. -/
def F.HUB_JOB_EVENT_MAP_REFUSED : Fld := ⟨.hub, 0x48, 4, 0, 0⟩
/-- HUB_MAP_ADDR_LO.ADDR, R324. -/
def F.HUB_MAP_ADDR_LO_ADDR : Fld := ⟨.hub, 0x50, 4, 31, 0⟩
/-- HUB_MAP_ADDR_HI.ADDR, R324. -/
def F.HUB_MAP_ADDR_HI_ADDR : Fld := ⟨.hub, 0x54, 4, 15, 0⟩
/-- CORE_GEN_EVENT.STALE, R325. -/
def F.CORE_GEN_EVENT_STALE : Fld := ⟨.core, 0x200, 4, 0, 0⟩
/-- CORE_GEN_INFO.HEAD_GEN, R325. -/
def F.CORE_GEN_INFO_HEAD_GEN : Fld := ⟨.core, 0x204, 4, 31, 16⟩
/-- CORE_GEN_INFO.TAIL_GEN, R325. -/
def F.CORE_GEN_INFO_TAIL_GEN : Fld := ⟨.core, 0x204, 4, 15, 0⟩
/-- CORE_GEN_EXP.EXP_GEN, R325. -/
def F.CORE_GEN_EXP_EXP_GEN : Fld := ⟨.core, 0x208, 4, 15, 0⟩
/-- CORE_GEN_TAG.TAG, R325. -/
def F.CORE_GEN_TAG_TAG : Fld := ⟨.core, 0x20c, 4, 31, 0⟩
/-- CORE_GEN_COUNT.COUNT, R325. -/
def F.CORE_GEN_COUNT_COUNT : Fld := ⟨.core, 0x210, 4, 31, 0⟩
/-- HUB_SR_CTRL.REPLAY_LIMIT, R351. -/
def F.HUB_SR_CTRL_REPLAY_LIMIT : Fld := ⟨.hubSr, 0x0, 4, 31, 28⟩
/-- HUB_SR_CTRL.COMMIT_FLAG, R351. -/
def F.HUB_SR_CTRL_COMMIT_FLAG : Fld := ⟨.hubSr, 0x0, 4, 27, 20⟩
/-- HUB_SR_CTRL.DIGEST_INTERVAL, R351. -/
def F.HUB_SR_CTRL_DIGEST_INTERVAL : Fld := ⟨.hubSr, 0x0, 4, 19, 12⟩
/-- HUB_SR_CTRL.VOTE_PTN, R351. -/
def F.HUB_SR_CTRL_VOTE_PTN : Fld := ⟨.hubSr, 0x0, 4, 11, 7⟩
/-- HUB_SR_CTRL.VOTE_TIMEOUT_US, R351. -/
def F.HUB_SR_CTRL_VOTE_TIMEOUT_US : Fld := ⟨.hubSr, 0x0, 4, 6, 5⟩
/-- HUB_SR_CTRL.STREAM_STRICT, R351. -/
def F.HUB_SR_CTRL_STREAM_STRICT : Fld := ⟨.hubSr, 0x0, 4, 3, 3⟩
/-- HUB_SR_CTRL.AUTO_REMOUNT, R351. -/
def F.HUB_SR_CTRL_AUTO_REMOUNT : Fld := ⟨.hubSr, 0x0, 4, 2, 2⟩
/-- HUB_SR_CTRL.CNT_EN, R351. -/
def F.HUB_SR_CTRL_CNT_EN : Fld := ⟨.hubSr, 0x0, 4, 1, 1⟩
/-- HUB_SR_CTRL.EN, R351. -/
def F.HUB_SR_CTRL_EN : Fld := ⟨.hubSr, 0x0, 4, 0, 0⟩
/-- HUB_SR_CMD.DIG_COMPARE, R351. -/
def F.HUB_SR_CMD_DIG_COMPARE : Fld := ⟨.hubSr, 0x4, 4, 7, 7⟩
/-- HUB_SR_CMD.RESOLVE_FAIL, R351. -/
def F.HUB_SR_CMD_RESOLVE_FAIL : Fld := ⟨.hubSr, 0x4, 4, 6, 6⟩
/-- HUB_SR_CMD.RESOLVE_COMMIT, R351. -/
def F.HUB_SR_CMD_RESOLVE_COMMIT : Fld := ⟨.hubSr, 0x4, 4, 5, 5⟩
/-- HUB_SR_CMD.REPLAY, R351. -/
def F.HUB_SR_CMD_REPLAY : Fld := ⟨.hubSr, 0x4, 4, 4, 4⟩
/-- HUB_SR_CMD.CLOSE, R351. -/
def F.HUB_SR_CMD_CLOSE : Fld := ⟨.hubSr, 0x4, 4, 3, 3⟩
/-- HUB_SR_CMD.SEAL, R351. -/
def F.HUB_SR_CMD_SEAL : Fld := ⟨.hubSr, 0x4, 4, 2, 2⟩
/-- HUB_SR_CMD.OPEN, R351. -/
def F.HUB_SR_CMD_OPEN : Fld := ⟨.hubSr, 0x4, 4, 1, 1⟩
/-- HUB_SR_STATUS.ATTEMPT, R351. -/
def F.HUB_SR_STATUS_ATTEMPT : Fld := ⟨.hubSr, 0x8, 4, 31, 28⟩
/-- HUB_SR_STATUS.STATE_NEW, R351. -/
def F.HUB_SR_STATUS_STATE_NEW : Fld := ⟨.hubSr, 0x8, 4, 23, 21⟩
/-- HUB_SR_STATUS.STATE_OLD, R351. -/
def F.HUB_SR_STATUS_STATE_OLD : Fld := ⟨.hubSr, 0x8, 4, 20, 18⟩
/-- HUB_SR_STATUS.DIG_BUSY, R351. -/
def F.HUB_SR_STATUS_DIG_BUSY : Fld := ⟨.hubSr, 0x8, 4, 17, 17⟩
/-- HUB_SR_STATUS.VOTE_PENDING, R351. -/
def F.HUB_SR_STATUS_VOTE_PENDING : Fld := ⟨.hubSr, 0x8, 4, 16, 16⟩
/-- HUB_SR_EVENT.DEVICE_DEGRADED, R351. -/
def F.HUB_SR_EVENT_DEVICE_DEGRADED : Fld := ⟨.hubSr, 0xc, 4, 10, 10⟩
/-- HUB_SR_EVENT.UNSTEPPED, R351. -/
def F.HUB_SR_EVENT_UNSTEPPED : Fld := ⟨.hubSr, 0xc, 4, 9, 9⟩
/-- HUB_SR_EVENT.REPLAY_READY, R351. -/
def F.HUB_SR_EVENT_REPLAY_READY : Fld := ⟨.hubSr, 0xc, 4, 8, 8⟩
/-- HUB_SR_EVENT.DIG_MISMATCH, R351. -/
def F.HUB_SR_EVENT_DIG_MISMATCH : Fld := ⟨.hubSr, 0xc, 4, 7, 7⟩
/-- HUB_SR_EVENT.DIG_DONE, R351. -/
def F.HUB_SR_EVENT_DIG_DONE : Fld := ⟨.hubSr, 0xc, 4, 6, 6⟩
/-- HUB_SR_EVENT.POST_COMMIT_FAULT, R351. -/
def F.HUB_SR_EVENT_POST_COMMIT_FAULT : Fld := ⟨.hubSr, 0xc, 4, 5, 5⟩
/-- HUB_SR_EVENT.STREAM_CHANGED, R351. -/
def F.HUB_SR_EVENT_STREAM_CHANGED : Fld := ⟨.hubSr, 0xc, 4, 4, 4⟩
/-- HUB_SR_EVENT.REFUSED, R351. -/
def F.HUB_SR_EVENT_REFUSED : Fld := ⟨.hubSr, 0xc, 4, 3, 3⟩
/-- HUB_SR_EVENT.VOTE_TIMEOUT, R351. -/
def F.HUB_SR_EVENT_VOTE_TIMEOUT : Fld := ⟨.hubSr, 0xc, 4, 2, 2⟩
/-- HUB_SR_EVENT.COMMITTED, R351. -/
def F.HUB_SR_EVENT_COMMITTED : Fld := ⟨.hubSr, 0xc, 4, 1, 1⟩
/-- HUB_SR_EVENT.FAILED, R351. -/
def F.HUB_SR_EVENT_FAILED : Fld := ⟨.hubSr, 0xc, 4, 0, 0⟩
/-- HUB_SR_INFO.REFUSE, R351. -/
def F.HUB_SR_INFO_REFUSE : Fld := ⟨.hubSr, 0x10, 4, 31, 28⟩
/-- HUB_SR_INFO.FIRST, R351. -/
def F.HUB_SR_INFO_FIRST : Fld := ⟨.hubSr, 0x10, 4, 27, 16⟩
/-- HUB_SR_INFO.CAUSES, R351. -/
def F.HUB_SR_INFO_CAUSES : Fld := ⟨.hubSr, 0x10, 4, 15, 0⟩
/-- HUB_SR_STEP_LO.STEP, R351. -/
def F.HUB_SR_STEP_LO_STEP : Fld := ⟨.hubSr, 0x14, 4, 31, 0⟩
/-- HUB_SR_STEP_HI.STEP, R351. -/
def F.HUB_SR_STEP_HI_STEP : Fld := ⟨.hubSr, 0x18, 4, 15, 0⟩
/-- HUB_SR_GEN.GEN, R351. -/
def F.HUB_SR_GEN_GEN : Fld := ⟨.hubSr, 0x1c, 4, 15, 0⟩
/-- HUB_SR_EPOCH.EPOCH, R351. -/
def F.HUB_SR_EPOCH_EPOCH : Fld := ⟨.hubSr, 0x20, 4, 31, 0⟩
/-- HUB_SR_PLAN_LO.ADDR, R351. -/
def F.HUB_SR_PLAN_LO_ADDR : Fld := ⟨.hubSr, 0x24, 4, 31, 0⟩
/-- HUB_SR_PLAN_HI.ADDR, R351. -/
def F.HUB_SR_PLAN_HI_ADDR : Fld := ⟨.hubSr, 0x28, 4, 15, 0⟩
/-- HUB_PAN_BASE_LO.BASE, R351. -/
def F.HUB_PAN_BASE_LO_BASE : Fld := ⟨.hubSr, 0x2c, 4, 31, 0⟩
/-- HUB_PAN_BASE_HI.BASE, R351. -/
def F.HUB_PAN_BASE_HI_BASE : Fld := ⟨.hubSr, 0x30, 4, 15, 0⟩
/-- HUB_PAN_CFG.SLOTS, R351. -/
def F.HUB_PAN_CFG_SLOTS : Fld := ⟨.hubSr, 0x34, 4, 31, 24⟩
/-- HUB_PAN_CFG.SIZE_MIB, R351. -/
def F.HUB_PAN_CFG_SIZE_MIB : Fld := ⟨.hubSr, 0x34, 4, 15, 0⟩
/-- HUB_SR_DIG.FIRST, R351. -/
def F.HUB_SR_DIG_FIRST : Fld := ⟨.hubSr, 0x38, 4, 31, 20⟩
/-- HUB_SR_DIG.MATCHED, R351. -/
def F.HUB_SR_DIG_MATCHED : Fld := ⟨.hubSr, 0x38, 4, 19, 10⟩
/-- HUB_SR_DIG.MISMATCHED, R351. -/
def F.HUB_SR_DIG_MISMATCHED : Fld := ⟨.hubSr, 0x38, 4, 9, 0⟩
/-- HUB_SR_UNSTEPPED.COUNT, R351. -/
def F.HUB_SR_UNSTEPPED_COUNT : Fld := ⟨.hubSr, 0x3c, 4, 31, 0⟩
/-- HUB_SR_COMMITS_LO.COUNT, R351. -/
def F.HUB_SR_COMMITS_LO_COUNT : Fld := ⟨.hubSr, 0x40, 4, 31, 0⟩
/-- HUB_SR_COMMITS_HI.COUNT, R351. -/
def F.HUB_SR_COMMITS_HI_COUNT : Fld := ⟨.hubSr, 0x44, 4, 31, 0⟩
/-- HUB_SR_REPLAYS_LO.COUNT, R351. -/
def F.HUB_SR_REPLAYS_LO_COUNT : Fld := ⟨.hubSr, 0x48, 4, 31, 0⟩
/-- HUB_SR_REPLAYS_HI.COUNT, R351. -/
def F.HUB_SR_REPLAYS_HI_COUNT : Fld := ⟨.hubSr, 0x4c, 4, 31, 0⟩
/-- HUB_SR_UGRP.GROUP, R351. -/
def F.HUB_SR_UGRP_GROUP : Fld := ⟨.hubSr, 0x3fc, 4, 3, 0⟩
/-- CORE_SEL.BCAST, R352. -/
def F.CORE_SEL_BCAST : Fld := ⟨.ptn, 0x14, 4, 31, 31⟩
/-- CORE_SEL.CORE, R352. -/
def F.CORE_SEL_CORE : Fld := ⟨.ptn, 0x14, 4, 3, 0⟩
/-- PTN_CORE_CTRL.REMOUNT, R352. -/
def F.PTN_CORE_CTRL_REMOUNT : Fld := ⟨.ptnCore, 0x20, 4, 1, 1⟩
/-- PTN_CORE_CTRL.FENCE, R352. -/
def F.PTN_CORE_CTRL_FENCE : Fld := ⟨.ptnCore, 0x20, 4, 0, 0⟩
/-- PTN_CORE_STATE.STOOD_BY, R352. -/
def F.PTN_CORE_STATE_STOOD_BY : Fld := ⟨.ptnCore, 0x24, 4, 24, 16⟩
/-- PTN_CORE_STATE.REMOUNTING, R352. -/
def F.PTN_CORE_STATE_REMOUNTING : Fld := ⟨.ptnCore, 0x24, 4, 2, 2⟩
/-- PTN_CORE_STATE.ROLE, R352. -/
def F.PTN_CORE_STATE_ROLE : Fld := ⟨.ptnCore, 0x24, 4, 1, 0⟩
/-- PTN_EVENT.DEGRADED, R352. -/
def F.PTN_EVENT_DEGRADED : Fld := ⟨.ptn, 0x28, 4, 3, 3⟩
/-- PTN_EVENT.REMOUNT_FAIL, R352. -/
def F.PTN_EVENT_REMOUNT_FAIL : Fld := ⟨.ptn, 0x28, 4, 2, 2⟩
/-- PTN_EVENT.REMOUNT_DONE, R352. -/
def F.PTN_EVENT_REMOUNT_DONE : Fld := ⟨.ptn, 0x28, 4, 1, 1⟩
/-- PTN_EVENT.CORE_LOSS, R352. -/
def F.PTN_EVENT_CORE_LOSS : Fld := ⟨.ptn, 0x28, 4, 0, 0⟩
/-- CKP_CTRL.MIN_GAP, R373. -/
def F.CKP_CTRL_MIN_GAP : Fld := ⟨.ckp, 0x0, 4, 15, 8⟩
/-- CKP_CTRL.CNT_EN, R373. -/
def F.CKP_CTRL_CNT_EN : Fld := ⟨.ckp, 0x0, 4, 2, 2⟩
/-- CKP_CTRL.AUTO, R373. -/
def F.CKP_CTRL_AUTO : Fld := ⟨.ckp, 0x0, 4, 1, 1⟩
/-- CKP_CTRL.EN, R373. -/
def F.CKP_CTRL_EN : Fld := ⟨.ckp, 0x0, 4, 0, 0⟩
/-- CKP_CMD.MODULE_RESET, R373. -/
def F.CKP_CMD_MODULE_RESET : Fld := ⟨.ckp, 0x4, 4, 2, 2⟩
/-- CKP_CMD.ABORT, R373. -/
def F.CKP_CMD_ABORT : Fld := ⟨.ckp, 0x4, 4, 1, 1⟩
/-- CKP_CMD.GO, R373. -/
def F.CKP_CMD_GO : Fld := ⟨.ckp, 0x4, 4, 0, 0⟩
/-- CKP_STATUS.MODULE, R373. -/
def F.CKP_STATUS_MODULE : Fld := ⟨.ckp, 0x8, 4, 31, 29⟩
/-- CKP_STATUS.WIDTH, R373. -/
def F.CKP_STATUS_WIDTH : Fld := ⟨.ckp, 0x8, 4, 28, 27⟩
/-- CKP_STATUS.RATE, R373. -/
def F.CKP_STATUS_RATE : Fld := ⟨.ckp, 0x8, 4, 26, 25⟩
/-- CKP_STATUS.SLOT_A, R373. -/
def F.CKP_STATUS_SLOT_A : Fld := ⟨.ckp, 0x8, 4, 24, 23⟩
/-- CKP_STATUS.SLOT_B, R373. -/
def F.CKP_STATUS_SLOT_B : Fld := ⟨.ckp, 0x8, 4, 22, 21⟩
/-- CKP_STATUS.HOLDING, R373. -/
def F.CKP_STATUS_HOLDING : Fld := ⟨.ckp, 0x8, 4, 20, 20⟩
/-- CKP_STATUS.PENDING, R373. -/
def F.CKP_STATUS_PENDING : Fld := ⟨.ckp, 0x8, 4, 19, 19⟩
/-- CKP_STATUS.PHASE, R373. -/
def F.CKP_STATUS_PHASE : Fld := ⟨.ckp, 0x8, 4, 14, 12⟩
/-- CKP_STATUS.OP, R373. -/
def F.CKP_STATUS_OP : Fld := ⟨.ckp, 0x8, 4, 11, 8⟩
/-- CKP_STATUS.BUSY, R373. -/
def F.CKP_STATUS_BUSY : Fld := ⟨.ckp, 0x8, 4, 0, 0⟩
/-- CKP_EVENT.FOREIGN, R373. -/
def F.CKP_EVENT_FOREIGN : Fld := ⟨.ckp, 0xc, 4, 6, 6⟩
/-- CKP_EVENT.RESTORE_BAD, R373. -/
def F.CKP_EVENT_RESTORE_BAD : Fld := ⟨.ckp, 0xc, 4, 5, 5⟩
/-- CKP_EVENT.NVME_ERR, R373. -/
def F.CKP_EVENT_NVME_ERR : Fld := ⟨.ckp, 0xc, 4, 4, 4⟩
/-- CKP_EVENT.WARN, R373. -/
def F.CKP_EVENT_WARN : Fld := ⟨.ckp, 0xc, 4, 3, 3⟩
/-- CKP_EVENT.REFUSED, R373. -/
def F.CKP_EVENT_REFUSED : Fld := ⟨.ckp, 0xc, 4, 2, 2⟩
/-- CKP_EVENT.ABORTED, R373. -/
def F.CKP_EVENT_ABORTED : Fld := ⟨.ckp, 0xc, 4, 1, 1⟩
/-- CKP_EVENT.DONE, R373. -/
def F.CKP_EVENT_DONE : Fld := ⟨.ckp, 0xc, 4, 0, 0⟩
/-- CKP_INFO.REASON, R373. -/
def F.CKP_INFO_REASON : Fld := ⟨.ckp, 0x10, 4, 31, 28⟩
/-- CKP_INFO.EXTENT, R373. -/
def F.CKP_INFO_EXTENT : Fld := ⟨.ckp, 0x10, 4, 27, 20⟩
/-- CKP_INFO.SLOT_WHY, R373. -/
def F.CKP_INFO_SLOT_WHY : Fld := ⟨.ckp, 0x10, 4, 19, 16⟩
/-- CKP_INFO.STATUS, R373. -/
def F.CKP_INFO_STATUS : Fld := ⟨.ckp, 0x10, 4, 15, 0⟩
/-- CKP_WARN_CFG.WINDOW_MIN, R373. -/
def F.CKP_WARN_CFG_WINDOW_MIN : Fld := ⟨.ckp, 0x14, 4, 31, 24⟩
/-- CKP_WARN_CFG.HARD_LIMIT, R373. -/
def F.CKP_WARN_CFG_HARD_LIMIT : Fld := ⟨.ckp, 0x14, 4, 23, 20⟩
/-- CKP_WARN_CFG.CE_LIMIT, R373. -/
def F.CKP_WARN_CFG_CE_LIMIT : Fld := ⟨.ckp, 0x14, 4, 15, 0⟩
/-- CKP_WARN_STATUS.TRIGGER, R373. -/
def F.CKP_WARN_STATUS_TRIGGER : Fld := ⟨.ckp, 0x18, 4, 4, 0⟩
/-- CKP_CMDBLK_LO.ADDR, R373. -/
def F.CKP_CMDBLK_LO_ADDR : Fld := ⟨.ckp, 0x20, 4, 31, 0⟩
/-- CKP_CMDBLK_HI.ADDR, R373. -/
def F.CKP_CMDBLK_HI_ADDR : Fld := ⟨.ckp, 0x24, 4, 15, 0⟩
/-- CKP_PLAN_LO.ADDR, R373. -/
def F.CKP_PLAN_LO_ADDR : Fld := ⟨.ckp, 0x28, 4, 31, 0⟩
/-- CKP_PLAN_HI.ADDR, R373. -/
def F.CKP_PLAN_HI_ADDR : Fld := ⟨.ckp, 0x2c, 4, 15, 0⟩
/-- CKP_SNAP_BASE_LO.ADDR, R373. -/
def F.CKP_SNAP_BASE_LO_ADDR : Fld := ⟨.ckp, 0x30, 4, 31, 0⟩
/-- CKP_SNAP_BASE_HI.ADDR, R373. -/
def F.CKP_SNAP_BASE_HI_ADDR : Fld := ⟨.ckp, 0x34, 4, 15, 0⟩
/-- CKP_SNAP_SIZE.MIB, R373. -/
def F.CKP_SNAP_SIZE_MIB : Fld := ⟨.ckp, 0x38, 4, 31, 0⟩
/-- CKP_WR_BYTES_LO.COUNT, R373. -/
def F.CKP_WR_BYTES_LO_COUNT : Fld := ⟨.ckp, 0x40, 4, 31, 0⟩
/-- CKP_WR_BYTES_HI.COUNT, R373. -/
def F.CKP_WR_BYTES_HI_COUNT : Fld := ⟨.ckp, 0x44, 4, 31, 0⟩
/-- CKP_RD_BYTES_LO.COUNT, R373. -/
def F.CKP_RD_BYTES_LO_COUNT : Fld := ⟨.ckp, 0x48, 4, 31, 0⟩
/-- CKP_RD_BYTES_HI.COUNT, R373. -/
def F.CKP_RD_BYTES_HI_COUNT : Fld := ⟨.ckp, 0x4c, 4, 31, 0⟩
/-- CKP_SAVES_LO.COUNT, R373. -/
def F.CKP_SAVES_LO_COUNT : Fld := ⟨.ckp, 0x50, 4, 31, 0⟩
/-- CKP_SAVES_HI.COUNT, R373. -/
def F.CKP_SAVES_HI_COUNT : Fld := ⟨.ckp, 0x54, 4, 31, 0⟩
/-- CKP_UGRP.GROUP, R373. -/
def F.CKP_UGRP_GROUP : Fld := ⟨.ckp, 0x3fc, 4, 3, 0⟩
/-- CORE_PROG_CTRL.WIN_MS, R398. -/
def F.CORE_PROG_CTRL_WIN_MS : Fld := ⟨.core, 0x40, 4, 15, 0⟩
/-- CORE_PROG_STATUS.IST, R398. -/
def F.CORE_PROG_STATUS_IST : Fld := ⟨.core, 0x44, 4, 2, 2⟩
/-- CORE_PROG_STATUS.HUNG, R398. -/
def F.CORE_PROG_STATUS_HUNG : Fld := ⟨.core, 0x44, 4, 1, 1⟩
/-- CORE_PROG_STATUS.PENDING, R398. -/
def F.CORE_PROG_STATUS_PENDING : Fld := ⟨.core, 0x44, 4, 0, 0⟩
/-- CORE_PROG_RETIRED.COUNT, R398. -/
def F.CORE_PROG_RETIRED_COUNT : Fld := ⟨.core, 0x48, 4, 31, 0⟩
/-- CORE_UGRP.GROUP, R398. -/
def F.CORE_UGRP_GROUP : Fld := ⟨.core, 0x3fc, 4, 3, 0⟩
/-- FH_CTRL.CE_EVENT, R399. -/
def F.FH_CTRL_CE_EVENT : Fld := ⟨.fh, 0x0, 4, 31, 24⟩
/-- FH_CTRL.MERGE_S, R399. -/
def F.FH_CTRL_MERGE_S : Fld := ⟨.fh, 0x0, 4, 23, 16⟩
/-- FH_CTRL.EXPORT_HOST, R399. -/
def F.FH_CTRL_EXPORT_HOST : Fld := ⟨.fh, 0x0, 4, 3, 3⟩
/-- FH_CTRL.AUTO_VERDICT, R399. -/
def F.FH_CTRL_AUTO_VERDICT : Fld := ⟨.fh, 0x0, 4, 2, 2⟩
/-- FH_CTRL.CNT_EN, R399. -/
def F.FH_CTRL_CNT_EN : Fld := ⟨.fh, 0x0, 4, 1, 1⟩
/-- FH_WIN.PORT_MS, R399. -/
def F.FH_WIN_PORT_MS : Fld := ⟨.fh, 0x4, 4, 31, 24⟩
/-- FH_WIN.CHGRP_MS, R399. -/
def F.FH_WIN_CHGRP_MS : Fld := ⟨.fh, 0x4, 4, 23, 16⟩
/-- FH_WIN.CORE_MS, R399. -/
def F.FH_WIN_CORE_MS : Fld := ⟨.fh, 0x4, 4, 15, 0⟩
/-- FH_STATUS.VERDICTS, R399. -/
def F.FH_STATUS_VERDICTS : Fld := ⟨.fh, 0x8, 4, 31, 16⟩
/-- FH_STATUS.TRANSIENTS, R399. -/
def F.FH_STATUS_TRANSIENTS : Fld := ⟨.fh, 0x8, 4, 15, 0⟩
/-- FH_EVENT.EXPORT_OVF, R399. -/
def F.FH_EVENT_EXPORT_OVF : Fld := ⟨.fh, 0xc, 4, 4, 4⟩
/-- FH_EVENT.RETEST_FAIL, R399. -/
def F.FH_EVENT_RETEST_FAIL : Fld := ⟨.fh, 0xc, 4, 3, 3⟩
/-- FH_EVENT.TRANSIENT, R399. -/
def F.FH_EVENT_TRANSIENT : Fld := ⟨.fh, 0xc, 4, 2, 2⟩
/-- FH_EVENT.VERDICT, R399. -/
def F.FH_EVENT_VERDICT : Fld := ⟨.fh, 0xc, 4, 1, 1⟩
/-- FH_EVENT.HANG, R399. -/
def F.FH_EVENT_HANG : Fld := ⟨.fh, 0xc, 4, 0, 0⟩
/-- FH_HANG_INFO.HANG_KIND, R399. -/
def F.FH_HANG_INFO_HANG_KIND : Fld := ⟨.fh, 0x10, 4, 31, 30⟩
/-- FH_HANG_INFO.UNIT_KIND, R399. -/
def F.FH_HANG_INFO_UNIT_KIND : Fld := ⟨.fh, 0x10, 4, 23, 20⟩
/-- FH_HANG_INFO.INDEX, R399. -/
def F.FH_HANG_INFO_INDEX : Fld := ⟨.fh, 0x10, 4, 15, 0⟩
/-- FH_HANG_TAG.TAG, R399. -/
def F.FH_HANG_TAG_TAG : Fld := ⟨.fh, 0x14, 4, 31, 0⟩
/-- FH_VERDICT_INFO.SIGNATURE, R399. -/
def F.FH_VERDICT_INFO_SIGNATURE : Fld := ⟨.fh, 0x18, 4, 31, 24⟩
/-- FH_VERDICT_INFO.UNIT_KIND, R399. -/
def F.FH_VERDICT_INFO_UNIT_KIND : Fld := ⟨.fh, 0x18, 4, 23, 20⟩
/-- FH_VERDICT_INFO.VERDICT, R399. -/
def F.FH_VERDICT_INFO_VERDICT : Fld := ⟨.fh, 0x18, 4, 19, 16⟩
/-- FH_VERDICT_INFO.INDEX, R399. -/
def F.FH_VERDICT_INFO_INDEX : Fld := ⟨.fh, 0x18, 4, 15, 0⟩
/-- FH_CMD.EXPORT_ACK, R399. -/
def F.FH_CMD_EXPORT_ACK : Fld := ⟨.fh, 0x1c, 4, 3, 3⟩
/-- FH_CMD.CLEAR_VERDICT, R399. -/
def F.FH_CMD_CLEAR_VERDICT : Fld := ⟨.fh, 0x1c, 4, 2, 2⟩
/-- FH_CMD.APPLY, R399. -/
def F.FH_CMD_APPLY : Fld := ⟨.fh, 0x1c, 4, 1, 1⟩
/-- FH_CMD.RETEST, R399. -/
def F.FH_CMD_RETEST : Fld := ⟨.fh, 0x1c, 4, 0, 0⟩
/-- FH_UNIT.KIND, R399. -/
def F.FH_UNIT_KIND : Fld := ⟨.fh, 0x20, 4, 19, 16⟩
/-- FH_UNIT.INDEX, R399. -/
def F.FH_UNIT_INDEX : Fld := ⟨.fh, 0x20, 4, 15, 0⟩
/-- FH_OPER_S.SECONDS, R399. -/
def F.FH_OPER_S_SECONDS : Fld := ⟨.fh, 0x24, 4, 31, 0⟩
/-- FH_CPER_HEAD.HEAD, R399. -/
def F.FH_CPER_HEAD_HEAD : Fld := ⟨.fh, 0x28, 4, 31, 0⟩
/-- FH_CPER_TAIL.TAIL, R399. -/
def F.FH_CPER_TAIL_TAIL : Fld := ⟨.fh, 0x2c, 4, 31, 0⟩
/-- FH_DIGEST.DIGEST, R399. -/
def F.FH_DIGEST_DIGEST : Fld := ⟨.fh, 0x40, 4, 31, 0⟩
/-- FH_EVENTS_LO.COUNT, R399. -/
def F.FH_EVENTS_LO_COUNT : Fld := ⟨.fh, 0x80, 4, 31, 0⟩
/-- FH_EVENTS_HI.COUNT, R399. -/
def F.FH_EVENTS_HI_COUNT : Fld := ⟨.fh, 0x84, 4, 31, 0⟩
/-- FH_UGRP.GROUP, R399. -/
def F.FH_UGRP_GROUP : Fld := ⟨.fh, 0x3fc, 4, 3, 0⟩
/-- IST_CTRL.CAP, R400. -/
def F.IST_CTRL_CAP : Fld := ⟨.ist, 0x0, 4, 31, 24⟩
/-- IST_CTRL.IDLE_US, R400. -/
def F.IST_CTRL_IDLE_US : Fld := ⟨.ist, 0x0, 4, 23, 16⟩
/-- IST_CTRL.SPARE_DUTY, R400. -/
def F.IST_CTRL_SPARE_DUTY : Fld := ⟨.ist, 0x0, 4, 15, 8⟩
/-- IST_CTRL.CNT_EN, R400. -/
def F.IST_CTRL_CNT_EN : Fld := ⟨.ist, 0x0, 4, 1, 1⟩
/-- IST_CTRL.EN, R400. -/
def F.IST_CTRL_EN : Fld := ⟨.ist, 0x0, 4, 0, 0⟩
/-- IST_CMD.ABORT_SWEEP, R400. -/
def F.IST_CMD_ABORT_SWEEP : Fld := ⟨.ist, 0x4, 4, 1, 1⟩
/-- IST_CMD.SWEEP, R400. -/
def F.IST_CMD_SWEEP : Fld := ⟨.ist, 0x4, 4, 0, 0⟩
/-- IST_STATUS.PKG_VALID, R400. -/
def F.IST_STATUS_PKG_VALID : Fld := ⟨.ist, 0x8, 4, 1, 1⟩
/-- IST_STATUS.SWEEPING, R400. -/
def F.IST_STATUS_SWEEPING : Fld := ⟨.ist, 0x8, 4, 0, 0⟩
/-- IST_EVENT.SWEEP_REFUSED, R400. -/
def F.IST_EVENT_SWEEP_REFUSED : Fld := ⟨.ist, 0xc, 4, 4, 4⟩
/-- IST_EVENT.SWEEP_DONE, R400. -/
def F.IST_EVENT_SWEEP_DONE : Fld := ⟨.ist, 0xc, 4, 3, 3⟩
/-- IST_EVENT.PKG_REFUSED, R400. -/
def F.IST_EVENT_PKG_REFUSED : Fld := ⟨.ist, 0xc, 4, 2, 2⟩
/-- IST_EVENT.PKG_LOADED, R400. -/
def F.IST_EVENT_PKG_LOADED : Fld := ⟨.ist, 0xc, 4, 1, 1⟩
/-- IST_EVENT.FAIL, R400. -/
def F.IST_EVENT_FAIL : Fld := ⟨.ist, 0xc, 4, 0, 0⟩
/-- IST_FAIL_INFO.PATTERN, R400. -/
def F.IST_FAIL_INFO_PATTERN : Fld := ⟨.ist, 0x10, 4, 31, 16⟩
/-- IST_FAIL_INFO.CORE, R400. -/
def F.IST_FAIL_INFO_CORE : Fld := ⟨.ist, 0x10, 4, 8, 0⟩
/-- IST_PKG_ID.VALUE, R400. -/
def F.IST_PKG_ID_VALUE : Fld := ⟨.ist, 0x14, 4, 31, 0⟩
/-- IST_PKG_VER.VALUE, R400. -/
def F.IST_PKG_VER_VALUE : Fld := ⟨.ist, 0x18, 4, 31, 0⟩
/-- IST_CYC_LO.COUNT, R400. -/
def F.IST_CYC_LO_COUNT : Fld := ⟨.ist, 0x40, 4, 31, 0⟩
/-- IST_CYC_HI.COUNT, R400. -/
def F.IST_CYC_HI_COUNT : Fld := ⟨.ist, 0x44, 4, 31, 0⟩
/-- IST_PREEMPT_CYC_LO.COUNT, R400. -/
def F.IST_PREEMPT_CYC_LO_COUNT : Fld := ⟨.ist, 0x48, 4, 31, 0⟩
/-- IST_PREEMPT_CYC_HI.COUNT, R400. -/
def F.IST_PREEMPT_CYC_HI_COUNT : Fld := ⟨.ist, 0x4c, 4, 31, 0⟩
/-- IST_PASSES_LO.COUNT, R400. -/
def F.IST_PASSES_LO_COUNT : Fld := ⟨.ist, 0x50, 4, 31, 0⟩
/-- IST_PASSES_HI.COUNT, R400. -/
def F.IST_PASSES_HI_COUNT : Fld := ⟨.ist, 0x54, 4, 31, 0⟩
/-- IST_FAILS_LO.COUNT, R400. -/
def F.IST_FAILS_LO_COUNT : Fld := ⟨.ist, 0x58, 4, 31, 0⟩
/-- IST_FAILS_HI.COUNT, R400. -/
def F.IST_FAILS_HI_COUNT : Fld := ⟨.ist, 0x5c, 4, 31, 0⟩
/-- IST_UGRP.GROUP, R400. -/
def F.IST_UGRP_GROUP : Fld := ⟨.ist, 0x3fc, 4, 3, 0⟩
/-- TIME_CTRL.STEP_NS, R413. -/
def F.TIME_CTRL_STEP_NS : Fld := ⟨.time, 0x0, 4, 31, 24⟩
/-- TIME_CTRL.INTERVAL_MS, R413. -/
def F.TIME_CTRL_INTERVAL_MS : Fld := ⟨.time, 0x0, 4, 23, 16⟩
/-- TIME_CTRL.PARENT_PORT, R413. -/
def F.TIME_CTRL_PARENT_PORT : Fld := ⟨.time, 0x0, 4, 12, 8⟩
/-- TIME_CTRL.ROLE, R413. -/
def F.TIME_CTRL_ROLE : Fld := ⟨.time, 0x0, 4, 1, 0⟩
/-- TIME_STATUS.LOCKED, R413. -/
def F.TIME_STATUS_LOCKED : Fld := ⟨.time, 0x4, 4, 0, 0⟩
/-- TIME_EVENT.NO_RESP, R413. -/
def F.TIME_EVENT_NO_RESP : Fld := ⟨.time, 0x8, 4, 2, 2⟩
/-- TIME_EVENT.STEPPED, R413. -/
def F.TIME_EVENT_STEPPED : Fld := ⟨.time, 0x8, 4, 1, 1⟩
/-- TIME_EVENT.UNLOCK, R413. -/
def F.TIME_EVENT_UNLOCK : Fld := ⟨.time, 0x8, 4, 0, 0⟩
/-- TIME_OFFSET.O, R413. -/
def F.TIME_OFFSET_O : Fld := ⟨.time, 0xc, 4, 31, 0⟩
/-- TIME_ADJ.ADJ, R413. -/
def F.TIME_ADJ_ADJ : Fld := ⟨.time, 0x10, 4, 31, 0⟩
/-- TIME_DELAY.DELAY, R413. -/
def F.TIME_DELAY_DELAY : Fld := ⟨.time, 0x14, 4, 31, 0⟩
/-- TIME_NOW_LO.NOW, R413. -/
def F.TIME_NOW_LO_NOW : Fld := ⟨.time, 0x40, 4, 31, 0⟩
/-- TIME_NOW_HI.NOW, R413. -/
def F.TIME_NOW_HI_NOW : Fld := ⟨.time, 0x44, 4, 31, 0⟩
/-- TIME_SNAP_LO.NOW, R413. -/
def F.TIME_SNAP_LO_NOW : Fld := ⟨.time, 0x140, 4, 31, 0⟩
/-- TIME_SNAP_HI.NOW, R413. -/
def F.TIME_SNAP_HI_NOW : Fld := ⟨.time, 0x144, 4, 31, 0⟩
/-- TIME_SET_LO.VALUE, R413. -/
def F.TIME_SET_LO_VALUE : Fld := ⟨.time, 0x48, 4, 31, 0⟩
/-- TIME_SET_HI.VALUE, R413. -/
def F.TIME_SET_HI_VALUE : Fld := ⟨.time, 0x4c, 4, 31, 0⟩
/-- TIME_UGRP.GROUP, R413. -/
def F.TIME_UGRP_GROUP : Fld := ⟨.time, 0x3fc, 4, 3, 0⟩
/-- LEDGER_CTRL.TRACE_KINDS, R413. -/
def F.LEDGER_CTRL_TRACE_KINDS : Fld := ⟨.ledger, 0x0, 4, 31, 24⟩
/-- LEDGER_CTRL.TRACE_STOP, R413. -/
def F.LEDGER_CTRL_TRACE_STOP : Fld := ⟨.ledger, 0x0, 4, 2, 2⟩
/-- LEDGER_CTRL.TRACE_EN, R413. -/
def F.LEDGER_CTRL_TRACE_EN : Fld := ⟨.ledger, 0x0, 4, 1, 1⟩
/-- LEDGER_CTRL.CNT_EN, R413. -/
def F.LEDGER_CTRL_CNT_EN : Fld := ⟨.ledger, 0x0, 4, 0, 0⟩
/-- LEDGER_CMD.SNAP_BCAST, R413. -/
def F.LEDGER_CMD_SNAP_BCAST : Fld := ⟨.ledger, 0x4, 4, 2, 2⟩
/-- LEDGER_CMD.SNAP_ARM, R413. -/
def F.LEDGER_CMD_SNAP_ARM : Fld := ⟨.ledger, 0x4, 4, 1, 1⟩
/-- LEDGER_CMD.ACK, R413. -/
def F.LEDGER_CMD_ACK : Fld := ⟨.ledger, 0x4, 4, 0, 0⟩
/-- LEDGER_EVENT.OVF, R413. -/
def F.LEDGER_EVENT_OVF : Fld := ⟨.ledger, 0x8, 4, 3, 3⟩
/-- LEDGER_EVENT.SNAP_CANCELLED, R413. -/
def F.LEDGER_EVENT_SNAP_CANCELLED : Fld := ⟨.ledger, 0x8, 4, 2, 2⟩
/-- LEDGER_EVENT.SNAP_LATE, R413. -/
def F.LEDGER_EVENT_SNAP_LATE : Fld := ⟨.ledger, 0x8, 4, 1, 1⟩
/-- LEDGER_EVENT.SNAP_DONE, R413. -/
def F.LEDGER_EVENT_SNAP_DONE : Fld := ⟨.ledger, 0x8, 4, 0, 0⟩
/-- LEDGER_SNAP_SKIPPED.PARTITIONS, R413. -/
def F.LEDGER_SNAP_SKIPPED_PARTITIONS : Fld := ⟨.ledger, 0xc, 4, 19, 0⟩
/-- LEDGER_SNAP_AT_LO.TICK, R413. -/
def F.LEDGER_SNAP_AT_LO_TICK : Fld := ⟨.ledger, 0x10, 4, 31, 0⟩
/-- LEDGER_SNAP_AT_HI.TICK, R413. -/
def F.LEDGER_SNAP_AT_HI_TICK : Fld := ⟨.ledger, 0x14, 4, 31, 0⟩
/-- LEDGER_SNAP_TAKEN_LO.TICK, R413. -/
def F.LEDGER_SNAP_TAKEN_LO_TICK : Fld := ⟨.ledger, 0x18, 4, 31, 0⟩
/-- LEDGER_SNAP_TAKEN_HI.TICK, R413. -/
def F.LEDGER_SNAP_TAKEN_HI_TICK : Fld := ⟨.ledger, 0x1c, 4, 31, 0⟩
/-- LEDGER_HEAD.COUNT, R413. -/
def F.LEDGER_HEAD_COUNT : Fld := ⟨.ledger, 0x20, 4, 31, 0⟩
/-- LEDGER_TAIL.COUNT, R413. -/
def F.LEDGER_TAIL_COUNT : Fld := ⟨.ledger, 0x24, 4, 31, 0⟩
/-- LEDGER_TRACE_BASE_LO.ADDR, R413. -/
def F.LEDGER_TRACE_BASE_LO_ADDR : Fld := ⟨.ledger, 0x28, 4, 31, 0⟩
/-- LEDGER_TRACE_BASE_HI.ADDR, R413. -/
def F.LEDGER_TRACE_BASE_HI_ADDR : Fld := ⟨.ledger, 0x2c, 4, 15, 0⟩
/-- LEDGER_TRACE_SIZE.MIB, R413. -/
def F.LEDGER_TRACE_SIZE_MIB : Fld := ⟨.ledger, 0x30, 4, 15, 0⟩
/-- LEDGER_TRACE_PTN.MASK, R413. -/
def F.LEDGER_TRACE_PTN_MASK : Fld := ⟨.ledger, 0x34, 4, 19, 0⟩
/-- LEDGER_TRACE_WR.OFFSET, R413. -/
def F.LEDGER_TRACE_WR_OFFSET : Fld := ⟨.ledger, 0x38, 4, 31, 0⟩
/-- LEDGER_TRACE_DROP.COUNT, R413. -/
def F.LEDGER_TRACE_DROP_COUNT : Fld := ⟨.ledger, 0x3c, 4, 31, 0⟩
/-- LEDGER_EVENTS_LO.COUNT, R413. -/
def F.LEDGER_EVENTS_LO_COUNT : Fld := ⟨.ledger, 0x40, 4, 31, 0⟩
/-- LEDGER_EVENTS_HI.COUNT, R413. -/
def F.LEDGER_EVENTS_HI_COUNT : Fld := ⟨.ledger, 0x44, 4, 31, 0⟩
/-- LEDGER_UGRP.GROUP, R413. -/
def F.LEDGER_UGRP_GROUP : Fld := ⟨.ledger, 0x3fc, 4, 3, 0⟩
/-- CLK_STATUS.LAST_UNLOCK, R435. -/
def F.CLK_STATUS_LAST_UNLOCK : Fld := ⟨.clk, 0x0, 4, 8, 8⟩
/-- CLK_STATUS.STAGING_LOCK, R435. -/
def F.CLK_STATUS_STAGING_LOCK : Fld := ⟨.clk, 0x0, 4, 4, 4⟩
/-- CLK_STATUS.UCIE_LOCK, R435. -/
def F.CLK_STATUS_UCIE_LOCK : Fld := ⟨.clk, 0x0, 4, 3, 3⟩
/-- CLK_STATUS.SERDES_LOCK, R435. -/
def F.CLK_STATUS_SERDES_LOCK : Fld := ⟨.clk, 0x0, 4, 2, 2⟩
/-- CLK_STATUS.ROOT_LOCK, R435. -/
def F.CLK_STATUS_ROOT_LOCK : Fld := ⟨.clk, 0x0, 4, 1, 1⟩
/-- CLK_STATUS.REF_OK, R435. -/
def F.CLK_STATUS_REF_OK : Fld := ⟨.clk, 0x0, 4, 0, 0⟩
/-- RST_EN.PKG_EN, R436. -/
def F.RST_EN_PKG_EN : Fld := ⟨.rst, 0x0, 4, 2, 2⟩
/-- RST_EN.HUB_EN, R436. -/
def F.RST_EN_HUB_EN : Fld := ⟨.rst, 0x0, 4, 1, 1⟩
/-- RST_EN.PTN_EN, R436. -/
def F.RST_EN_PTN_EN : Fld := ⟨.rst, 0x0, 4, 0, 0⟩
/-- RST_PTN_CMD.RESET, R436. -/
def F.RST_PTN_CMD_RESET : Fld := ⟨.rst, 0x4, 4, 8, 8⟩
/-- RST_PTN_CMD.PARTITION, R436. -/
def F.RST_PTN_CMD_PARTITION : Fld := ⟨.rst, 0x4, 4, 4, 0⟩
/-- RST_PKG_CMD.CONFIRM, R436. -/
def F.RST_PKG_CMD_CONFIRM : Fld := ⟨.rst, 0x8, 4, 31, 16⟩
/-- RST_PKG_CMD.HUB, R436. -/
def F.RST_PKG_CMD_HUB : Fld := ⟨.rst, 0x8, 4, 1, 1⟩
/-- RST_PKG_CMD.PACKAGE, R436. -/
def F.RST_PKG_CMD_PACKAGE : Fld := ⟨.rst, 0x8, 4, 0, 0⟩
/-- RST_STATUS.CAUSE, R436. -/
def F.RST_STATUS_CAUSE : Fld := ⟨.rst, 0xc, 4, 31, 28⟩
/-- RST_STATUS.HUB_BUSY, R436. -/
def F.RST_STATUS_HUB_BUSY : Fld := ⟨.rst, 0xc, 4, 20, 20⟩
/-- RST_STATUS.IN_RESET, R436. -/
def F.RST_STATUS_IN_RESET : Fld := ⟨.rst, 0xc, 4, 19, 0⟩
/-- RST_CONTENT.CONTENT_KEPT, R436. -/
def F.RST_CONTENT_CONTENT_KEPT : Fld := ⟨.rst, 0x10, 4, 19, 0⟩
/-- RST_EVENT.REFUSED, R436. -/
def F.RST_EVENT_REFUSED : Fld := ⟨.rst, 0x14, 4, 2, 2⟩
/-- RST_EVENT.HUB_DONE, R436. -/
def F.RST_EVENT_HUB_DONE : Fld := ⟨.rst, 0x14, 4, 1, 1⟩
/-- RST_EVENT.PTN_DONE, R436. -/
def F.RST_EVENT_PTN_DONE : Fld := ⟨.rst, 0x14, 4, 0, 0⟩
/-- RST_INFO.REASON, R436. -/
def F.RST_INFO_REASON : Fld := ⟨.rst, 0x18, 4, 11, 8⟩
/-- RST_INFO.PARTITION, R436. -/
def F.RST_INFO_PARTITION : Fld := ⟨.rst, 0x18, 4, 4, 0⟩
/-- RST_UGRP.GROUP, R436. -/
def F.RST_UGRP_GROUP : Fld := ⟨.rst, 0x3fc, 4, 3, 0⟩
/-- PWR_CTRL.HYST_W, R437. -/
def F.PWR_CTRL_HYST_W : Fld := ⟨.pwr, 0x0, 4, 31, 24⟩
/-- PWR_CTRL.P1_AUTO, R437. -/
def F.PWR_CTRL_P1_AUTO : Fld := ⟨.pwr, 0x0, 4, 16, 16⟩
/-- PWR_CTRL.LIMIT_W, R437. -/
def F.PWR_CTRL_LIMIT_W : Fld := ⟨.pwr, 0x0, 4, 11, 0⟩
/-- PWR_P1_CFG.P1_IDLE_US, R437. -/
def F.PWR_P1_CFG_P1_IDLE_US : Fld := ⟨.pwr, 0x4, 4, 15, 0⟩
/-- PWR_STATUS.PKG_W, R437. -/
def F.PWR_STATUS_PKG_W : Fld := ⟨.pwr, 0x8, 4, 27, 16⟩
/-- PWR_STATUS.ALERT, R437. -/
def F.PWR_STATUS_ALERT : Fld := ⟨.pwr, 0x8, 4, 5, 5⟩
/-- PWR_STATUS.THERMAL, R437. -/
def F.PWR_STATUS_THERMAL : Fld := ⟨.pwr, 0x8, 4, 4, 4⟩
/-- PWR_STATUS.LEVEL, R437. -/
def F.PWR_STATUS_LEVEL : Fld := ⟨.pwr, 0x8, 4, 3, 0⟩
/-- PWR_PTN_CMD.P2_EXIT, R437. -/
def F.PWR_PTN_CMD_P2_EXIT : Fld := ⟨.pwr, 0xc, 4, 9, 9⟩
/-- PWR_PTN_CMD.P2_ENTER, R437. -/
def F.PWR_PTN_CMD_P2_ENTER : Fld := ⟨.pwr, 0xc, 4, 8, 8⟩
/-- PWR_PTN_CMD.PARTITION, R437. -/
def F.PWR_PTN_CMD_PARTITION : Fld := ⟨.pwr, 0xc, 4, 4, 0⟩
/-- PWR_PTN_STATE0.STATE, R437. -/
def F.PWR_PTN_STATE0_STATE : Fld := ⟨.pwr, 0x10, 4, 31, 0⟩
/-- PWR_PTN_STATE1.STATE, R437. -/
def F.PWR_PTN_STATE1_STATE : Fld := ⟨.pwr, 0x14, 4, 7, 0⟩
/-- PWR_P3_CMD.ENTER, R437. -/
def F.PWR_P3_CMD_ENTER : Fld := ⟨.pwr, 0x18, 4, 0, 0⟩
/-- PWR_EVENT.P2_REFUSED, R437. -/
def F.PWR_EVENT_P2_REFUSED : Fld := ⟨.pwr, 0x1c, 4, 3, 3⟩
/-- PWR_EVENT.LIMIT_MISS, R437. -/
def F.PWR_EVENT_LIMIT_MISS : Fld := ⟨.pwr, 0x1c, 4, 2, 2⟩
/-- PWR_EVENT.P2_DONE, R437. -/
def F.PWR_EVENT_P2_DONE : Fld := ⟨.pwr, 0x1c, 4, 1, 1⟩
/-- PWR_EVENT.THROTTLE, R437. -/
def F.PWR_EVENT_THROTTLE : Fld := ⟨.pwr, 0x1c, 4, 0, 0⟩
/-- PWR_INFO.REASON, R437. -/
def F.PWR_INFO_REASON : Fld := ⟨.pwr, 0x20, 4, 11, 8⟩
/-- PWR_INFO.PARTITION, R437. -/
def F.PWR_INFO_PARTITION : Fld := ⟨.pwr, 0x20, 4, 4, 0⟩
/-- PWR_THROTTLE_CYC_LO.COUNT, R437. -/
def F.PWR_THROTTLE_CYC_LO_COUNT : Fld := ⟨.pwr, 0x40, 4, 31, 0⟩
/-- PWR_THROTTLE_CYC_HI.COUNT, R437. -/
def F.PWR_THROTTLE_CYC_HI_COUNT : Fld := ⟨.pwr, 0x44, 4, 31, 0⟩
/-- PWR_UGRP.GROUP, R437. -/
def F.PWR_UGRP_GROUP : Fld := ⟨.pwr, 0x3fc, 4, 3, 0⟩
/-- SET_CMD.ERASE, R438. -/
def F.SET_CMD_ERASE : Fld := ⟨.set, 0x0, 4, 2, 2⟩
/-- SET_CMD.READ, R438. -/
def F.SET_CMD_READ : Fld := ⟨.set, 0x0, 4, 1, 1⟩
/-- SET_CMD.STORE, R438. -/
def F.SET_CMD_STORE : Fld := ⟨.set, 0x0, 4, 0, 0⟩
/-- SET_KEY.LEN, R438. -/
def F.SET_KEY_LEN : Fld := ⟨.set, 0x4, 4, 30, 16⟩
/-- SET_KEY.KEY, R438. -/
def F.SET_KEY_KEY : Fld := ⟨.set, 0x4, 4, 15, 0⟩
/-- SET_STATUS.FREE_KIB, R438. -/
def F.SET_STATUS_FREE_KIB : Fld := ⟨.set, 0x8, 4, 24, 16⟩
/-- SET_STATUS.RESULT, R438. -/
def F.SET_STATUS_RESULT : Fld := ⟨.set, 0x8, 4, 7, 4⟩
/-- SET_STATUS.BUSY, R438. -/
def F.SET_STATUS_BUSY : Fld := ⟨.set, 0x8, 4, 0, 0⟩
/-- SET_EVENT.FAIL, R438. -/
def F.SET_EVENT_FAIL : Fld := ⟨.set, 0xc, 4, 1, 1⟩
/-- SET_EVENT.DONE, R438. -/
def F.SET_EVENT_DONE : Fld := ⟨.set, 0xc, 4, 0, 0⟩
/-- SET_WEAR.COUNT, R438. -/
def F.SET_WEAR_COUNT : Fld := ⟨.set, 0x10, 4, 31, 0⟩
/-- SET_PRESET_INFO.SKIPPED, R438. -/
def F.SET_PRESET_INFO_SKIPPED : Fld := ⟨.set, 0x14, 4, 31, 16⟩
/-- SET_PRESET_INFO.APPLIED, R438. -/
def F.SET_PRESET_INFO_APPLIED : Fld := ⟨.set, 0x14, 4, 15, 0⟩
/-- SEC_STATUS.OPKEYS, R452. -/
def F.SEC_STATUS_OPKEYS : Fld := ⟨.sec, 0x0, 4, 11, 10⟩
/-- SEC_STATUS.GRANT_HELD, R452. -/
def F.SEC_STATUS_GRANT_HELD : Fld := ⟨.sec, 0x0, 4, 9, 9⟩
/-- SEC_STATUS.ATTEST_BUSY, R452. -/
def F.SEC_STATUS_ATTEST_BUSY : Fld := ⟨.sec, 0x0, 4, 8, 8⟩
/-- SEC_STATUS.REVOKED, R452. -/
def F.SEC_STATUS_REVOKED : Fld := ⟨.sec, 0x0, 4, 7, 4⟩
/-- SEC_STATUS.CORE_SLOT, R452. -/
def F.SEC_STATUS_CORE_SLOT : Fld := ⟨.sec, 0x0, 4, 3, 3⟩
/-- SEC_STATUS.HUB_SLOT, R452. -/
def F.SEC_STATUS_HUB_SLOT : Fld := ⟨.sec, 0x0, 4, 2, 2⟩
/-- SEC_STATUS.BOOT_STATE, R452. -/
def F.SEC_STATUS_BOOT_STATE : Fld := ⟨.sec, 0x0, 4, 1, 0⟩
/-- SEC_EVENT.BOOT_FALLBACK, R452. -/
def F.SEC_EVENT_BOOT_FALLBACK : Fld := ⟨.sec, 0x4, 4, 6, 6⟩
/-- SEC_EVENT.IMAGE_REFUSED, R452. -/
def F.SEC_EVENT_IMAGE_REFUSED : Fld := ⟨.sec, 0x4, 4, 5, 5⟩
/-- SEC_EVENT.IMAGE_LOADED, R452. -/
def F.SEC_EVENT_IMAGE_LOADED : Fld := ⟨.sec, 0x4, 4, 4, 4⟩
/-- SEC_EVENT.ATTEST_REFUSED, R452. -/
def F.SEC_EVENT_ATTEST_REFUSED : Fld := ⟨.sec, 0x4, 4, 3, 3⟩
/-- SEC_EVENT.ATTEST_DONE, R452. -/
def F.SEC_EVENT_ATTEST_DONE : Fld := ⟨.sec, 0x4, 4, 2, 2⟩
/-- SEC_EVENT.GRANT_USED, R452. -/
def F.SEC_EVENT_GRANT_USED : Fld := ⟨.sec, 0x4, 4, 1, 1⟩
/-- SEC_EVENT.GRANT_REFUSED, R452. -/
def F.SEC_EVENT_GRANT_REFUSED : Fld := ⟨.sec, 0x4, 4, 0, 0⟩
/-- SEC_INFO.REASON, R452. -/
def F.SEC_INFO_REASON : Fld := ⟨.sec, 0x8, 4, 7, 0⟩
/-- SEC_AUTH_CTR.COUNTER, R452. -/
def F.SEC_AUTH_CTR_COUNTER : Fld := ⟨.sec, 0xc, 4, 31, 0⟩
/-- SEC_ATTEST_CMD.GO, R452. -/
def F.SEC_ATTEST_CMD_GO : Fld := ⟨.sec, 0x10, 4, 0, 0⟩
/-- SEC_ATTEST_ADDR_LO.ADDR, R452. -/
def F.SEC_ATTEST_ADDR_LO_ADDR : Fld := ⟨.sec, 0x14, 4, 31, 0⟩
/-- SEC_ATTEST_ADDR_HI.ADDR, R452. -/
def F.SEC_ATTEST_ADDR_HI_ADDR : Fld := ⟨.sec, 0x18, 4, 15, 0⟩
/-- SEC_NONCE.NONCE, R452. -/
def F.SEC_NONCE_NONCE : Fld := ⟨.sec, 0x20, 4, 31, 0⟩
/-- SEC_CERT_LEN.BYTES, R452. -/
def F.SEC_CERT_LEN_BYTES : Fld := ⟨.sec, 0x40, 4, 31, 0⟩
/-- I3C_TEMP.CT, R462. -/
def F.I3C_TEMP_CT : Fld := ⟨.i3c, 0x14, 4, 31, 24⟩
/-- I3C_TEMP.STACK, R462. -/
def F.I3C_TEMP_STACK : Fld := ⟨.i3c, 0x14, 4, 23, 16⟩
/-- I3C_TEMP.HUB, R462. -/
def F.I3C_TEMP_HUB : Fld := ⟨.i3c, 0x14, 4, 15, 8⟩
/-- I3C_TEMP.HOST, R462. -/
def F.I3C_TEMP_HOST : Fld := ⟨.i3c, 0x14, 4, 7, 0⟩
/-- I3C_BSTAT.IN_P3, R462. -/
def F.I3C_BSTAT_IN_P3 : Fld := ⟨.i3c, 0x18, 4, 3, 3⟩
/-- I3C_BSTAT.THERMTRIP, R462. -/
def F.I3C_BSTAT_THERMTRIP : Fld := ⟨.i3c, 0x18, 4, 2, 2⟩
/-- I3C_BSTAT.RAIL_FAIL, R462. -/
def F.I3C_BSTAT_RAIL_FAIL : Fld := ⟨.i3c, 0x18, 4, 1, 1⟩
/-- I3C_BSTAT.MAIN_ON, R462. -/
def F.I3C_BSTAT_MAIN_ON : Fld := ⟨.i3c, 0x18, 4, 0, 0⟩
/-- I3C_CMD.WAKE, R462. -/
def F.I3C_CMD_WAKE : Fld := ⟨.i3c, 0x1c, 4, 0, 0⟩

end Sys2Proof.Machine
end

