-- ==== Sys2Proof/Machine/Regs.lean ====
section
/-! DEFINITION. Register keys, reset values, and the decoding of window offsets (R61 to R64). -/

namespace Sys2Proof.Machine

/-- The key of a register in the sparse register file: page, instance, offset in its page. -/
def regKey (b : Blk) (inst off : Nat) : Nat := (b.code * 4096 + inst) * 65536 + off

/-- The page of a key. -/
def keyBlk (k : Nat) : Option Blk := Blk.ofCode (k / 65536 / 4096)

/-- The instance of a key. -/
def keyInst (k : Nat) : Nat := k / 65536 % 4096

/-- The page offset of a key. -/
def keyOff (k : Nat) : Nat := k % 65536

/-- The register definition at an offset of a page. -/
def findReg (b : Blk) (off : Nat) : Option RegDef :=
  b.regs.find? fun r => decide (r.off ≤ off) && (off - r.off) % r.stride == 0 && decide ((off - r.off) / r.stride < r.count)

/-- The partition of an instance of a page that belongs to a partition; 20 for the hub's pages. -/
def Blk.partition (b : Blk) (inst : Nat) : Nat :=
  match b with
  | .ptn | .mem | .sc => inst % 64
  | .memCh => inst / 128
  | .ptnCore | .core | .seqQ | .seqF | .mx | .vx | .qnt => inst / 13
  | _ => 20

/-- Private minimum of virtual channel `v` at reset (R271). -/
def credMinReset (v : Nat) : Nat := [384, 384, 1024, 512, 64, 32].getD v 0

/-- Shared cap of virtual channel `v` at reset (R271). -/
def credCapReset (v : Nat) : Nat := [1024, 1024, 3744, 1872, 0, 0].getD v 0

/-- FH_DIGEST over an empty verdict table: SHA3-256 of no bytes (R386). -/
def emptyDigest : List Nat :=
  [0xF8C6FFA7, 0x66D71EBF, 0x5647C151, 0x62D661A0, 0x4DFF80F5, 0xFA493BE4, 0x4B0AD882, 0x4A43F880]

/-- Reset value of a field where it depends on the instance (R14, R51, R239, R271, R284), else the table's. -/
def fieldReset (b : Blk) (inst off : Nat) (f : FDef) : Nat :=
  match b with
  | .mem | .sc | .core | .seqQ | .mx | .vx | .qnt =>
    if off = 0x3FC ∧ f.lo = 0 then 8 + b.partition inst / 5
    else if b = .seqQ ∧ off = 0x160 ∧ f.lo = 0 then 0
    else f.rst
  | .fabP =>
    if off = 8 ∧ f.lo = 17 then inst
    else if 0x20 ≤ off ∧ off < 0x38 then
      (if f.lo = 0 then credMinReset ((off - 0x20) / 4) else if f.lo = 16 then credCapReset ((off - 0x20) / 4) else f.rst)
    else f.rst
  | .hub => if off = 0 ∧ f.lo = 0 then 1 else f.rst
  | .fh => if 0x40 ≤ off ∧ off < 0x60 then emptyDigest.getD ((off - 0x40) / 4) 0 else f.rst
  | .ptnCore => if off = 0x24 ∧ f.lo = 0 then (if inst % 13 = 12 then 1 else 0) else f.rst
  | _ => f.rst

/-- Reset value of a register. -/
def defReset (b : Blk) (inst off : Nat) (r : RegDef) : Word :=
  r.fields.foldl (fun w f => wput f.hi f.lo (fieldReset b inst off f) w) 0

/-- Reset value of the register at a key; zero where no register is. -/
def regReset (k : Nat) : Word :=
  match keyBlk k with
  | none => 0
  | some b =>
    match findReg b (keyOff k) with
    | none => 0
    | some r => defReset b (keyInst k) (keyOff k) r

/-- The bits of a register whose fields satisfy a test on the access code. -/
def RegDef.maskOf (r : RegDef) (p : Acc → Bool) : Word :=
  r.fields.foldl (fun m f => if p f.acc then m ||| fmask f.hi f.lo else m) 0

/-- The access codes that go through an update group (R9, R49). -/
def Acc.buffered : Acc → Bool
  | .rwb | .tmrb => true
  | _ => false

/-- The triplicated access codes (R59). -/
def Acc.tripled : Acc → Bool
  | .tmr | .tmrb => true
  | _ => false

/-- Does a register hold an SEQ field: is it an event status register (R56)? -/
def RegDef.isSeq (r : RegDef) : Bool := r.fields.any fun f => f.acc == .seq

/-- Registers banked per requester (R42): the select registers and HUB_ACC_CTRL. -/
def banked (b : Blk) (off : Nat) : Bool :=
  match b with
  | .hub => off == 0x24
  | .hq => off == 0x10 || off == 0x18
  | .fab => off == 0x10
  | .ptn => off == 0x10 || off == 0x14
  | _ => false

/-- The instance under which a requester's banked register is kept. -/
def bankInst (inst req : Nat) : Nat := inst + 64 * req

/-- Where the UGRP of a register's block instance lies (R49): its page and instance; `none` for pages without RWB fields. -/
def ugrpHome (b : Blk) (inst : Nat) : Option (Nat) :=
  match b with
  | .hub => some (regKey .hub 0 0x3FC)
  | .hubSr => some (regKey .hubSr 0 0x3FC)
  | .hq => some (regKey .hq 0 0x3FC)
  | .fab => some (regKey .fab 0 0x3FC)
  | .fabP => some (regKey .fabP inst 0x3FC)
  | .rt | .rtEntry | .rtMap => some (regKey .rt 0 0x3FC)
  | .ckp => some (regKey .ckp 0 0x3FC)
  | .fh => some (regKey .fh 0 0x3FC)
  | .ist => some (regKey .ist 0 0x3FC)
  | .time => some (regKey .time 0 0x3FC)
  | .ledger => some (regKey .ledger 0 0x3FC)
  | .rst => some (regKey .rst 0 0x3FC)
  | .pwr => some (regKey .pwr 0 0x3FC)
  | .mem => some (regKey .mem inst 0x3FC)
  | .sc => some (regKey .sc inst 0x3FC)
  | .core => some (regKey .core inst 0x3FC)
  | .seqQ => some (regKey .seqQ inst 0x3FC)
  | .mx => some (regKey .mx inst 0x3FC)
  | .vx => some (regKey .vx inst 0x3FC)
  | .qnt => some (regKey .qnt inst 0x3FC)
  | _ => none

/-- What an offset of the register window reaches. -/
inductive Place where
  /-- A frame of a page of registers: page, instance (before any select register), offset in the frame. -/
  | frame (b : Blk) (inst off : Nat)
  /-- Byte offset in the Waybill image. -/
  | waybill (off : Nat)
  | ledgerWin (off : Nat)
  | fhWin (off : Nat)
  | setBuf (off : Nat)
  | certWin (off : Nat)
  /-- Inside a block's region, where no register lies. -/
  | empty
  /-- A reserved region of the base map. -/
  | reserved
  /-- 64 MiB or more. -/
  | beyond
  deriving DecidableEq, Repr

/-- The frames of a core window (R64). -/
def corePlace (g off : Nat) : Place :=
  match off / 0x1000 with
  | 0 => .frame .core g (off % 0x1000)
  | 1 => .frame .seqQ g (off % 0x1000)
  | 2 => .frame .seqF g (off % 0x1000)
  | 3 => .frame .mx g (off % 0x1000)
  | 4 => .frame .vx g (off % 0x1000)
  | 5 => .frame .qnt g (off % 0x1000)
  | _ => .reserved

/-- The layout of a partition window (R63). -/
def ptnPlace (p off : Nat) : Place :=
  if off < 0x10000 then (if off < 0x1000 then .frame .ptn p off else .empty)
  else if off < 0x20000 then
    (if off < 0x11000 then .frame .mem p (off - 0x10000)
     else if off < 0x12000 then .frame .memCh p (off - 0x11000) else .empty)
  else if off < 0x30000 then (if off < 0x21000 then .frame .sc p (off - 0x20000) else .empty)
  else if off < 0x80000 then .reserved
  else if off < 0xE8000 then corePlace (13 * p + (off - 0x80000) / 0x8000) ((off - 0x80000) % 0x8000)
  else .reserved

/-- The base map (R62). -/
def place (o : Nat) : Place :=
  if 0x4000000 ≤ o then .beyond
  else if o < 0x10000 then .waybill o
  else if o < 0x20000 then
    (if o < 0x11000 then .frame .hub 0 (o - 0x10000) else if o < 0x12000 then .frame .hubSr 0 (o - 0x11000) else .empty)
  else if o < 0x30000 then
    (if o < 0x21000 then .frame .clk 0 (o - 0x20000)
     else if 0x24000 ≤ o ∧ o < 0x25000 then .frame .rst 0 (o - 0x24000)
     else if 0x28000 ≤ o ∧ o < 0x29000 then .frame .pwr 0 (o - 0x28000) else .empty)
  else if o < 0x40000 then
    (if o < 0x31000 then .frame .time 0 (o - 0x30000)
     else if 0x34000 ≤ o ∧ o < 0x35000 then .frame .ledger 0 (o - 0x34000)
     else if 0x35000 ≤ o ∧ o < 0x35020 then .ledgerWin (o - 0x35000) else .empty)
  else if o < 0x50000 then
    (if o < 0x41000 then .frame .set 0 (o - 0x40000) else if o < 0x45000 then .setBuf (o - 0x41000) else .empty)
  else if o < 0x60000 then
    (if o < 0x51000 then .frame .sec 0 (o - 0x50000) else if o < 0x53000 then .certWin (o - 0x51000) else .empty)
  else if o < 0x80000 then .reserved
  else if o < 0x100000 then
    (if o < 0x81000 then .frame .hq 0 (o - 0x80000)
     else if o < 0x82000 then .frame .hqRing 0 (o - 0x81000)
     else if o < 0x83000 then .frame .hqCq 0 (o - 0x82000) else .empty)
  else if o < 0x140000 then
    (if o < 0x101000 then .frame .fab 0 (o - 0x100000) else if o < 0x102000 then .frame .fabP 0 (o - 0x101000) else .empty)
  else if o < 0x180000 then
    (if o < 0x141000 then .frame .rt 0 (o - 0x140000)
     else if o < 0x142000 then .frame .rtMap 0 (o - 0x141000)
     else if 0x150000 ≤ o ∧ o < 0x160000 then .frame .rtEntry ((o - 0x150000) / 0x1000) ((o - 0x150000) % 0x1000) else .empty)
  else if o < 0x1C0000 then (if o < 0x181000 then .frame .ckp 0 (o - 0x180000) else .empty)
  else if o < 0x200000 then
    (if o < 0x1C1000 then .frame .fh 0 (o - 0x1C0000)
     else if o < 0x1C1128 then .fhWin (o - 0x1C1000)
     else if 0x1E0000 ≤ o ∧ o < 0x1E1000 then .frame .ist 0 (o - 0x1E0000) else .empty)
  else if o < 0x1000000 then .reserved
  else if o < 0x2400000 then ptnPlace ((o - 0x1000000) / 0x100000) ((o - 0x1000000) % 0x100000)
  else .reserved

end Sys2Proof.Machine
end

