-- ==== Sys2Proof/Machine/Numeric.lean ====
section
/-! DEFINITION. Number formats, rounding and the residue (chapter 05; R74 to R77, R81). Every finite value is exact: a sign, a magnitude and a power of two. -/

namespace Sys2Proof.Machine

/-- A value of a number format: NaN (signalling or quiet), infinity, or the exact (−1)^neg · m · 2^e. -/
inductive FV where
  | nan (sig : Bool)
  | inf (neg : Bool)
  | fin (neg : Bool) (m : Nat) (e : Int)
  deriving DecidableEq, Repr

/-- Number of bits of a magnitude. -/
def bitLen (m : Nat) : Nat := if m = 0 then 0 else Nat.log2 m + 1

/-- Halve a magnitude while it is even; `fuel` bounds the number of halvings. -/
def stripTwos : Nat → Nat → Int → Nat × Int
  | 0, m, e => (m, e)
  | fuel + 1, m, e => if m % 2 = 0 then stripTwos fuel (m / 2) (e + 1) else (m, e)

/-- Zero of a sign. -/
def fzero (neg : Bool) : FV := .fin neg 0 0

/-- The same value with an odd magnitude, or zero with exponent 0. -/
def FV.norm : FV → FV
  | .fin s 0 _ => .fin s 0 0
  | .fin s m e => let r := stripTwos (bitLen m) m e; .fin s r.1 r.2
  | v => v

def FV.isNan : FV → Bool
  | .nan _ => true
  | _ => false

def FV.isSnan : FV → Bool
  | .nan s => s
  | _ => false

def FV.isInf : FV → Bool
  | .inf _ => true
  | _ => false

def FV.isZero : FV → Bool
  | .fin _ 0 _ => true
  | _ => false

def FV.isFin : FV → Bool
  | .fin _ _ _ => true
  | _ => false

def FV.negative : FV → Bool
  | .nan _ => false
  | .inf s => s
  | .fin s _ _ => s

def FV.neg : FV → FV
  | .nan s => .nan s
  | .inf s => .inf (!s)
  | .fin s m e => .fin (!s) m e

def FV.abs : FV → FV
  | .nan s => .nan s
  | .inf _ => .inf false
  | .fin _ m e => .fin false m e

/-- An integer as a value. -/
def FV.ofInt (i : Int) : FV := .fin (decide (i < 0)) i.natAbs 0

/-- Multiply by a power of two, exactly. -/
def FV.scale (k : Int) : FV → FV
  | .fin s m e => .fin s m (e + k)
  | v => v

/-- Signed magnitude of a finite value at exponent `q`, for q at most its own. -/
def signedAt (s : Bool) (m : Nat) (e q : Int) : Int :=
  let n : Int := (m * 2 ^ (e - q).toNat : Nat)
  if s then -n else n

/-- Order of two values, NaNs excluded; −0 equals +0. -/
def FV.cmp : FV → FV → Ordering
  | .nan _, _ => .eq
  | _, .nan _ => .eq
  | .inf a, .inf b => if a = b then .eq else if a then .lt else .gt
  | .inf a, _ => if a then .lt else .gt
  | _, .inf b => if b then .gt else .lt
  | .fin s m e, .fin t n f =>
    let q := min e f
    compare (signedAt s m e q) (signedAt t n f q)

def FV.lt (a b : FV) : Bool := !a.isNan && !b.isNan && a.cmp b == .lt
def FV.le (a b : FV) : Bool := !a.isNan && !b.isNan && a.cmp b != .gt
def FV.eqv (a b : FV) : Bool := !a.isNan && !b.isNan && a.cmp b == .eq

/-- Exact product; zero times infinity is NaN. -/
def FV.mul : FV → FV → FV
  | .nan _, _ => .nan false
  | _, .nan _ => .nan false
  | .inf a, .inf b => .inf (a != b)
  | .inf a, .fin t n _ => if n = 0 then .nan false else .inf (a != t)
  | .fin s m _, .inf b => if m = 0 then .nan false else .inf (s != b)
  | .fin s m e, .fin t n f => .fin (s != t) (m * n) (e + f)

/-- Exact sum; a zero sum of unlike signs takes the sign `zneg` (− under round down only). -/
def FV.add (zneg : Bool) : FV → FV → FV
  | .nan _, _ => .nan false
  | _, .nan _ => .nan false
  | .inf a, .inf b => if a = b then .inf a else .nan false
  | .inf a, _ => .inf a
  | _, .inf b => .inf b
  | .fin s m e, .fin t n f =>
    if m = 0 ∧ n = 0 then (if s = t then .fin s 0 0 else .fin zneg 0 0)
    else
      let q := min e f
      let v := signedAt s m e q + signedAt t n f q
      if v = 0 then .fin zneg 0 0 else .fin (decide (v < 0)) v.natAbs q

/-- Rounding of a magnitude m · 2^e (a little more when `sticky`) to `p` significand bits with a quantum of at least
2^qmin. Modes 0 to 4 are those of R108, 5 is round to odd (R111); `r` is the random value of R110. Answers the
integer significand, its exponent and whether anything was discarded. -/
def roundMag (p : Nat) (qmin : Option Int) (mode : Nat) (neg : Bool) (r : Nat) (m : Nat) (e : Int) (sticky : Bool) :
    Nat × Int × Bool :=
  let q0 : Int := (bitLen m : Int) + e - p
  let q := match qmin with
    | some k => max q0 k
    | none => q0
  let sh := q - e
  if sh ≤ 0 then (m * 2 ^ (-sh).toNat, q, sticky)
  else
    let s := sh.toNat
    let t := m / 2 ^ s
    let rem := m % 2 ^ s
    let half := 2 ^ (s - 1)
    let inex := decide (rem ≠ 0) || sticky
    let up := match mode with
      | 0 => decide (half < rem) || (rem == half && (sticky || t % 2 == 1))
      | 1 => false
      | 2 => inex && !neg
      | 3 => inex && neg
      | 4 => decide (65536 ≤ rem * 65536 / 2 ^ s + r)
      | _ => inex && t % 2 == 0
    (if up then t + 1 else t, q, inex)

/-- A floating-point format (R92, R93). -/
structure FFmt where
  /-- exponent bits -/
  eb : Nat
  /-- fraction bits -/
  fb : Nat
  bias : Int
  hasInf : Bool
  /-- the only NaN is S.1111.111, and the rest of the top binade is finite (E4M3) -/
  topNan : Bool
  /-- bits of the container below the value (AZ19, R94) -/
  pad : Nat
  deriving DecidableEq, Repr

/-- The floating-point format of a code of R91; for an MX code, that of its elements. -/
def ffmt : Nat → Option FFmt
  | 0x01 => some ⟨11, 52, 1023, true, false, 0⟩
  | 0x02 => some ⟨8, 23, 127, true, false, 0⟩
  | 0x03 => some ⟨8, 10, 127, true, false, 13⟩
  | 0x04 => some ⟨8, 7, 127, true, false, 0⟩
  | 0x05 => some ⟨5, 10, 15, true, false, 0⟩
  | 0x06 | 0x08 => some ⟨4, 3, 7, false, true, 0⟩
  | 0x07 | 0x09 => some ⟨5, 2, 15, true, false, 0⟩
  | 0x0A => some ⟨3, 2, 3, false, false, 0⟩
  | 0x0B => some ⟨2, 3, 1, false, false, 0⟩
  | 0x0C => some ⟨2, 1, 1, false, false, 0⟩
  | _ => none

/-- FP32. -/
def fp32 : FFmt := ⟨8, 23, 127, true, false, 0⟩
/-- FP64. -/
def fp64 : FFmt := ⟨11, 52, 1023, true, false, 0⟩
/-- BF16. -/
def bf16 : FFmt := ⟨8, 7, 127, true, false, 0⟩

/-- Element width in bits of a format code (R91); 0 for a code that names no element. -/
def fmtBits : Nat → Nat
  | 0x01 => 64
  | 0x02 | 0x03 => 32
  | 0x04 | 0x05 => 16
  | 0x06 | 0x07 | 0x08 | 0x09 | 0x0D | 0x0E => 8
  | 0x0A | 0x0B => 6
  | 0x0C | 0x10 | 0x11 => 4
  | 0x12 => 8
  | _ => 0

/-- Is a format code one of the MX formats (R99)? -/
def isMx (c : Nat) : Bool := decide (8 ≤ c ∧ c ≤ 0xD)

/-- Does a format hold its scale in the quantisation record (R98)? -/
def recScaled (c : Nat) : Bool := c == 6 || c == 7 || c == 0x0E || c == 0x10 || c == 0x11

/-- Least normal exponent of a format. -/
def FFmt.emin (f : FFmt) : Int := 1 - f.bias

/-- Exponent of the largest finite value. -/
def FFmt.emax (f : FFmt) : Int :=
  if f.hasInf then (2 ^ f.eb - 2 : Nat) - f.bias else (2 ^ f.eb - 1 : Nat) - f.bias

/-- Significand of the largest finite value, as an integer of fb + 1 bits. -/
def FFmt.maxSig (f : FFmt) : Nat := if f.topNan then 2 ^ (f.fb + 1) - 2 else 2 ^ (f.fb + 1) - 1

/-- Formats of 16 bits and wider overflow as IEEE does under OVF 0; narrower ones saturate (R106). -/
def FFmt.isWide (f : FFmt) : Bool := decide (15 ≤ f.eb + f.fb)

/-- The largest finite value of a sign. -/
def FFmt.maxFin (f : FFmt) (neg : Bool) : FV := .fin neg f.maxSig (f.emax - f.fb)

/-- Encoding of a value of the format (R92): significand `t` at exponent `q` on the format's grid. -/
def FFmt.encFin (f : FFmt) (neg : Bool) (t : Nat) (q : Int) : Nat :=
  let sbit := b2n neg * 2 ^ (f.eb + f.fb)
  if t = 0 then sbit * 2 ^ f.pad
  else
    let ex := (bitLen t : Int) - 1 + q
    if ex < f.emin then (sbit + (t * 2 ^ (q - (f.emin - f.fb)).toNat)) * 2 ^ f.pad
    else
      let frac := (if q ≤ ex - f.fb then t / 2 ^ (ex - f.fb - q).toNat else t * 2 ^ (q - (ex - f.fb)).toNat) - 2 ^ f.fb
      (sbit + (ex + f.bias).toNat * 2 ^ f.fb + frac) * 2 ^ f.pad

/-- The canonical NaN (R93, R95); zero where the format has no NaN. -/
def FFmt.canonNan (f : FFmt) : Nat :=
  if f.topNan then 0x7F
  else if f.hasInf then (if f.eb = 5 ∧ f.fb = 2 then 0x7F else ((2 ^ f.eb - 1) * 2 ^ f.fb + 2 ^ (f.fb - 1)) * 2 ^ f.pad)
  else 0

/-- Encoding of a value that the format holds. -/
def FFmt.enc (f : FFmt) : FV → Nat
  | .nan _ => f.canonNan
  | .inf s => if f.hasInf then ((b2n s * 2 ^ f.eb + (2 ^ f.eb - 1)) * 2 ^ f.fb) * 2 ^ f.pad else f.encFin s f.maxSig (f.emax - f.fb)
  | .fin s m e => f.encFin s m e

/-- Value of an encoding (R92, R93). -/
def FFmt.dec (f : FFmt) (w : Nat) : FV :=
  let v := w / 2 ^ f.pad
  let s := bit (f.eb + f.fb) v
  let ex := bits (f.eb + f.fb - 1) f.fb v
  let fr := v % 2 ^ f.fb
  if f.hasInf && ex == 2 ^ f.eb - 1 then (if fr = 0 then .inf s else .nan (decide (fr < 2 ^ (f.fb - 1))))
  else if f.topNan && ex == 2 ^ f.eb - 1 && fr == 2 ^ f.fb - 1 then .nan false
  else if ex = 0 then .fin s fr (f.emin - f.fb)
  else .fin s (2 ^ f.fb + fr) (ex - f.bias - f.fb)

/-- IEEE exception flags, as the five bits of R162: invalid 16, divide-by-zero 8, overflow 4, underflow 2, inexact 1. -/
abbrev Flags := Nat

/-- What a narrowing delivers: the encoding and its value, and what R113 and R157 count. -/
structure Narrow where
  code : Nat
  val : FV
  /-- the value was beyond the largest finite value and became it, or was an infinity in a format without one -/
  sat : Bool
  flags : Flags
  deriving DecidableEq, Repr

/-- Round a value into a floating-point format under a mode of R108 (5: odd, R111) and an overflow setting of R106. -/
def FFmt.narrow (f : FFmt) (mode ovf r : Nat) (v : FV) : Narrow :=
  match v with
  | .nan s => ⟨f.canonNan, .nan false, false, if s then 16 else 0⟩
  | .inf s => if f.hasInf then ⟨f.enc (.inf s), .inf s, false, 0⟩ else ⟨f.enc (.inf s), f.maxFin s, true, 0⟩
  | .fin s m e =>
    if m = 0 then ⟨f.encFin s 0 0, .fin s 0 0, false, 0⟩
    else
      let (t, q, inex) := roundMag (f.fb + 1) (some (f.emin - f.fb)) mode s r m e false
      let res : FV := .fin s t q
      if (f.maxFin false).lt (.fin false t q) then
        let ieee := mode == 5 || ovf == 2 || (ovf == 0 && f.isWide)
        let away := match mode with
          | 1 => false
          | 2 => !s
          | 3 => s
          | _ => true
        if ieee && away && (f.hasInf || mode == 5) then ⟨f.enc (.inf s), .inf s, false, 5⟩
        else ⟨f.encFin s f.maxSig (f.emax - f.fb), f.maxFin s, !ieee, if ieee then 5 else 1⟩
      else
        let u := roundMag (f.fb + 1) none mode s r m e false
        let tiny := decide (((bitLen u.1 : Int) - 1 + u.2.1) < f.emin)
        ⟨f.encFin s t q, res, false, b2n inex + (if tiny && inex then 2 else 0)⟩

/-- Round to a number of significand bits with unbounded exponent: the chain format of R74 takes 24, nearest-even. -/
def roundP (p mode : Nat) : FV → FV
  | .fin s m e =>
    if m = 0 then .fin s 0 0
    else let (t, q, _) := roundMag p none mode s 0 m e false; (FV.fin s t q).norm
  | v => v

/-- Round to the chain format (R74). -/
def chainRound (v : FV) : FV := roundP 24 0 v

/-- The fused multiply-add of a binary format, nearest-even (R76). -/
def FFmt.fma (f : FFmt) (x w s : FV) : FV := (f.narrow 0 2 0 ((x.mul w).add false s)).val.norm

/-- Residue modulo 7 of a finite value (R81): (−1)^s · m · 2^(e mod 3) mod 7; zero for others. -/
def rho : FV → Nat
  | .fin s m e =>
    let n := (m * 2 ^ (e % 3).toNat) % 7
    if s then (7 - n) % 7 else n
  | _ => 0

/-- a − b modulo 7. -/
def sub7 (a b : Nat) : Nat := (a + 7 - b % 7) % 7

/-- Exact difference of two finite values. -/
def FV.sub (a b : FV) : FV := a.add false b.neg

/-- The random value of R110. -/
def srBits (seed tag idx : Nat) : Nat :=
  let m64 := 2 ^ 64
  let z := Nat.xor (seed % m64) (tag % 2 ^ 32 * 2 ^ 32 + idx % 2 ^ 32)
  let z := Nat.xor z (z / 2 ^ 31) * 0xD6E8FEB86659FD93 % m64
  let z := Nat.xor z (z / 2 ^ 29) * 0x9FB21C651E98DF25 % m64
  let z := Nat.xor z (z / 2 ^ 32)
  z / 2 ^ 48

/-- Integer square root by bits: the largest `r` with r² ≤ n, for n below 4^fuel. -/
def isqrtAux : Nat → Nat → Nat → Nat
  | 0, _, r => r
  | k + 1, n, r => let c := r + 2 ^ k; isqrtAux k n (if c * c ≤ n then c else r)

/-- Integer square root. -/
def isqrt (n : Nat) : Nat := isqrtAux (bitLen n / 2 + 1) n 0

/-- Quotient of two values to enough bits for one rounding, with what the remainder leaves as `sticky`. -/
def divMag (m n : Nat) (e f : Int) : Nat × Int × Bool :=
  let k : Nat := 70 + bitLen n
  (m * 2 ^ k / n, e - f - (k : Int), decide (m * 2 ^ k % n ≠ 0))

/-- Square root of a magnitude, likewise. -/
def sqrtMag (m : Nat) (e : Int) : Nat × Int × Bool :=
  let k : Nat := 2 * 70 + (if e % 2 = 0 then 0 else 1)
  let n := m * 2 ^ k
  let r := isqrt n
  (r, (e - (k : Int)) / 2, decide (r * r ≠ n))

/-- Round a magnitude with a sticky remainder into a binary format that has infinities, IEEE overflow. -/
def FFmt.roundSticky (f : FFmt) (mode : Nat) (neg : Bool) (m : Nat) (e : Int) (sticky : Bool) : FV × Flags :=
  if m = 0 ∧ ¬ sticky then (.fin neg 0 0, 0)
  else
    let (t, q, inex) := roundMag (f.fb + 1) (some (f.emin - f.fb)) mode neg 0 m e sticky
    if (f.maxFin false).lt (.fin false t q) then
      (if mode == 0 || (mode == 2 && !neg) || (mode == 3 && neg) then (.inf neg, 5) else (f.maxFin neg, 5))
    else
      let u := roundMag (f.fb + 1) none mode neg 0 m e sticky
      let tiny := decide (((bitLen u.1 : Int) - 1 + u.2.1) < f.emin)
      ((FV.fin neg t q).norm, b2n inex + (if tiny && inex then 2 else 0))

/-- ⌊log2 |v|⌋ of a finite non-zero value. -/
def ilog2 (m : Nat) (e : Int) : Int := (bitLen m : Int) - 1 + e

/-- Smallest integer e with A ≤ F · 2^e, for positive A and F (R144). -/
def ceilLog2Div (a f : FV) : Int :=
  match a, f with
  | .fin _ m e, .fin _ n g =>
    let k := ilog2 m e - ilog2 n g
    let ge := fun (j : Int) => (FV.fin false m e).le (.fin false n (g + j))
    if ge (k - 1) then k - 1 else if ge k then k else k + 1
  | _, _ => 0

/-- The levels of the fixed Sloe4 table as BF16 encodings (R103). -/
def sloeLevels : List Nat :=
  [0x0000, 0x3DD2, 0x3E55, 0x3EA3, 0x3EE1, 0x3F14, 0x3F40, 0x3F80,
   0x8000, 0xBDD2, 0xBE55, 0xBEA3, 0xBEE1, 0xBF14, 0xBF40, 0xBF80]

/-- Serial comparison of 16-bit generations: (a − b) mod 2^16 (R412). -/
def serialDist (a b : Nat) : Nat := (a + 65536 - b % 65536) % 65536

end Sys2Proof.Machine
end

