-- ==== Sys2Proof/Machine/State.lean ====
section
/-! DEFINITION. The state of the package, as plain data, and its state after reset. -/

namespace Sys2Proof.Machine

/-! ### Stops -/

/-- Reasons for which the machine stops. -/
inductive Fault where
  /-- A base-page write changed a reserved (RBR) bit, or a write reached a reserved offset of a block's page with a value
  other than zero: some of these are live test controls and the device is then outside every statement of the manual
  (R43, R58). Raised by the register writes. Safe: the model stops where the manual says nothing (log 9). -/
  | testControl (offset : Nat)
  deriving DecidableEq, Repr

/-- Reasons for which a command has no meaning. -/
inductive Refusal where
  /-- The arm of `exec` gives this command no meaning. Raised by `exec` alone. Safe. -/
  | notModelled (mnemonic : String)
  deriving DecidableEq, Repr

/-! ### Registers and their access (chapter 03) -/

/-- The answer to a register read (R40, R43): data, or an error completion. -/
structure Answer where
  req : Requester
  off : Nat
  err : Bool
  data : Word
  deriving DecidableEq, Repr

/-- A buffered write that waits behind a strobe (R53): key of the register, the pending copy's word after it, and how many of the
scheduled strobes must have transferred before it is applied. -/
structure Held where
  key : Nat
  value : Word
  after : Nat
  deriving DecidableEq, Repr

/-- The three copies of a triplicated field, where they are not equal (R59). -/
structure Copies where
  a : Nat
  b : Nat
  c : Nat
  deriving DecidableEq, Repr

/-! ### Time base and ledger (chapter 18) -/

/-- An exact fraction. -/
structure Frac where
  num : Int
  den : Nat
  deriving DecidableEq, Repr

/-- The time base and the synchronisation of R401 to R403. -/
structure TimeSt where
  /-- integer part, nanoseconds -/
  now : Nat
  /-- fractional accumulator, in parts of 14 · 10^9 of a nanosecond -/
  acc : Nat
  integ : Frac
  /-- T1 of the request that awaits its response -/
  asked : Option Nat
  /-- intervals since the last response -/
  silent : Nat
  good : Nat
  bad : Nat
  deriving DecidableEq, Repr

/-- A ledger record (R407) and the order key of R406. -/
structure LedgerRec where
  tick : Nat
  cls : Nat
  kind : Nat
  event : Nat
  index : Nat
  tag : Nat
  step : Nat
  attempt : Nat
  interlude : Bool
  transit : Bool
  unsync : Bool
  order : Nat
  aux : Nat
  part : Nat
  core : Nat
  port : Nat
  lane : Nat
  deriving DecidableEq, Repr

/-- The event ledger, its snapshot target and its trace (R405 to R411). -/
structure LedgerSt where
  /-- records by place modulo 4,096 -/
  ring : List (Nat × LedgerRec)
  /-- events of the tick in progress, in arrival order -/
  cur : List LedgerRec
  snap : Option Nat
  /-- trace records of this tick, oldest first -/
  trace : List (List Byte)
  /-- time bits [63:32] of the last wrap marker; none before the first since the enable -/
  marker : Option Nat
  deriving DecidableEq, Repr

/-! ### Fault history and in-service test (chapter 17) -/

/-- A fault-history event (R382). -/
structure FhEvent where
  kind : Nat
  index : Nat
  sig : Nat
  /-- operating seconds of the event and of the last report merged into it -/
  at_ : Nat
  last : Nat
  merged : Nat
  counted : Bool
  deriving DecidableEq, Repr

/-- A verdict (R383 to R387): code of R395, and whether it is in force or only proposed. -/
structure Verdict where
  kind : Nat
  index : Nat
  sig : Nat
  oper : Nat
  /-- ledger tick in which it was reached -/
  tick : Nat
  verdict : Nat
  applied : Bool
  deriving DecidableEq, Repr

/-- A CPER record of the export ring (R394, R397). -/
structure Cper where
  body : List Byte
  sent : Bool
  deriving DecidableEq, Repr

/-- Fault history (R380 to R397). -/
structure FaultSt where
  events : List FhEvent
  verdicts : List Verdict
  /-- queued retests: kind, index, signature -/
  retests : List (Nat × Nat × Nat)
  /-- correctable counts of the operating hour: kind, index, signature, count -/
  ce : List (Nat × Nat × Nat × Nat)
  ceHour : Nat
  /-- fences written by the run-time that await the retest at package reset (R385): global cores -/
  rtFences : List Nat
  /-- verdict clearings that await the next package reset (R385): kind, index -/
  clearing : List (Nat × Nat)
  /-- stack offset of the sector whose re-read is the retest of a channel (R387): channel index, offset -/
  reread : List (Nat × Nat)
  cper : List (Nat × Cper)
  /-- units for which a hang has been raised (R375): unit kind, index, progress mark at the hang -/
  hung : List (Nat × Nat × Nat)
  /-- has the verdict table changed since the digest was formed (R386)? -/
  digestStale : Bool
  deriving DecidableEq, Repr

/-- A test package (R392) as its header names it. -/
structure Package where
  id : Nat
  ver : Nat
  patterns : Nat
  minFw : Nat
  /-- BODY_DIGEST -/
  digest : List Byte
  deriving DecidableEq, Repr

/-- In-service test (R388 to R393). -/
structure TestSt where
  /-- cores still to sweep -/
  sweep : List Nat
  /-- test windows that are open: global cores -/
  windows : List Nat
  /-- test time: core, end in ns, ns spent -/
  spent : List (Nat × Nat × Nat)
  /-- patterns of the set that each core with a queued retest, or in the sweep, has passed so far -/
  passed : List (Nat × List Nat)
  slots : List (Option Package)
  active : Option Nat
  /-- the inactive slot holds a package that becomes active at the next test window -/
  staged : Bool
  deriving DecidableEq, Repr

/-! ### Cores (chapters 04 to 10) -/

/-- An open loop (R224): count, iterations done, loop-count register, buffer position of the first body descriptor, body length. -/
structure LoopSt where
  n : Nat
  i : Nat
  lc : Nat
  start : Nat
  len : Nat
  deriving DecidableEq, Repr

/-- A BRANCH that awaits its selection (R230, R232). -/
structure BranchSt where
  tag : Nat
  mode : Nat
  nseg : Nat
  dflt : Nat
  /-- rule record and summary-file entry as they stood at issue -/
  rule : List Byte
  summ : List Byte
  sig0 : Nat
  sig1 : Nat
  deriving DecidableEq, Repr

/-- What a queue passes over (R230, R231): whole segments with their markers, and descriptors of a body. -/
structure PassSt where
  segs : Nat
  body : Nat
  /-- the pass ends with the marker of the selected segment -/
  mark : Bool
  deriving DecidableEq, Repr

/-- Why a queue is halted (R222). -/
inductive Halt where
  | illegal | selection
  deriving DecidableEq, Repr

/-- A descriptor queue (R217, R218). -/
structure QueueSt where
  /-- descriptors held, 64 bytes each; inside an open loop the loop's descriptors stay (R224) -/
  buf : List (List Byte)
  /-- place of the head in `buf` -/
  pos : Nat
  loops : List LoopSt
  branch : Option BranchSt
  pass : PassSt
  /-- segments of the last BRANCH: how many, and the INDEX that the next marker must carry -/
  segs : Nat × Nat
  halt : Option Halt
  /-- a deferred head is treated as normal for its next grant (R221) -/
  promoted : Bool
  deriving DecidableEq, Repr

/-- A descriptor in flight (R194, R207). -/
structure Flight where
  id : Nat
  queue : Nat
  unit : Nat
  desc : List Byte
  /-- host reads that it awaits, by serial number -/
  reads : List Nat
  /-- acknowledgements that it awaits, by packet tag -/
  acks : List Nat
  /-- its effects have been made -/
  done : Bool
  /-- array bank that it loads or uses -/
  bank : Nat
  /-- tensor-table entries and records that it names, as its legality check read them: core-store address, bytes (R194, R202) -/
  snap : List (Nat × List Byte)
  deriving DecidableEq, Repr

/-- A loaded weight bank (R68 to R70): reference, format, rows of (weight, residue). -/
structure Bank where
  ref : Nat
  fmt : Nat
  /-- rows of the loaded tile (R202) -/
  height : Nat
  azn : Nat
  rows : List (List (FV × Nat))
  deriving DecidableEq, Repr

/-- An accumulator entry (R73 to R84). -/
structure Acc0 where
  val : FV
  res : Nat
  void : Bool
  sat : Bool
  /-- the entry was written by an INT8 pass -/
  int : Bool
  deriving DecidableEq, Repr

/-- A row sum beside an accumulator row (R132). -/
structure RowSum where
  sum : Int
  res : Nat
  /-- reduction length of the chain so far -/
  len : Nat
  deriving DecidableEq, Repr

/-- A core: queues, array, vector engine, core store. -/
structure CoreSt where
  queues : List QueueSt
  flights : List Flight
  nextId : Nat
  /-- queue last granted each unit (R219): array, vector engine, atomic path, copy and fabric engine -/
  granted : List Nat
  /-- deadlock detector (R236): is it armed? -/
  armed : Bool
  /-- banks 0 and 1; `none` where nothing is held -/
  banks : List (Option Bank)
  /-- bank that the next weight load fills -/
  nextBank : Nat
  /-- held banks, earliest loaded first -/
  loaded : List Nat
  acc : List (Nat × Acc0)
  rowSums : List (Nat × RowSum)
  /-- summary file: 8 entries of 64 bytes (R162) -/
  summ : List (Nat × Byte)
  /-- core store (R196) -/
  store : List (Nat × Byte)
  deriving DecidableEq, Repr

/-! ### Partition memory (chapter 08) -/

/-- A line of a slice that holds stack content (R177). -/
structure Line where
  /-- stack offset of the line's first byte -/
  off : Nat
  way : Nat
  keep : Bool
  /-- inserted as least recent by a STREAM fill and not used again since (R180) -/
  stream : Bool
  /-- bit s: sector s is valid, dirty -/
  valid : Nat
  dirty : Nat
  data : List Byte
  deriving DecidableEq, Repr

/-- What a slice returned to a request (R181, R182): requester, tag, bytes. -/
structure Reply where
  src : Source
  tag : Nat
  data : List Byte
  deriving DecidableEq, Repr

/-- A partition's slice and stack. -/
structure PartSt where
  /-- lines, most recently used first -/
  lines : List Line
  /-- pinned region by offset (R178) -/
  pinned : List (Nat × Byte)
  /-- misses that await the stack, oldest first (R179) -/
  misses : List LineReq
  /-- accesses to the pinned region that await PIN_CHANGING (R178) -/
  waiting : List LineReq
  /-- data bytes of the stack by offset -/
  stack : List (Nat × Byte)
  /-- check bytes of the stack's sectors, 32 bits each, by sector number -/
  check : List (Nat × Nat)
  /-- next sector of patrol scrub (R176) -/
  scrub : Nat
  deriving DecidableEq, Repr

/-! ### Signals, host link, rings (chapters 09, 11) -/

/-- A signal on its way (R208): word, source setter code, sender's core (260: a slice or hub engine), sender's slice ID where it
came from another device. -/
structure Signal where
  word : Nat
  source : Nat
  core : Nat
  remote : Option Nat
  deriving DecidableEq, Repr

/-- What a host read is for (R249). -/
inductive ReadFor where
  | record (ring : Nat)
  /-- `n` descriptors of a ring, from position `pos` -/
  | descs (ring pos n : Nat)
  /-- an operand of a descriptor in flight: core, flight; bytes are kept at the read's address -/
  | operand (core flight : Nat)
  /-- an input extent of the step's Pannier copy: stack address to fill -/
  | pannier (dst : Nat)
  deriving DecidableEq, Repr

/-- An outstanding HMEM_RD (R246, R247). -/
structure HostRead where
  id : Nat
  tag : Nat
  addr : Nat
  len : Nat
  use : ReadFor
  deriving DecidableEq, Repr

/-- A packet that the device sends on the host link (R246). -/
inductive HostOut where
  | hmemRd (tag addr units : Nat)
  | hmemWr (addr : Nat) (data : List Byte)
  | msg (vector : Nat)
  | cpl (tag status : Nat) (data : List Byte)
  deriving DecidableEq, Repr

/-- The host link and the queue engine beside their registers. -/
structure HostSt where
  out : List HostOut
  /-- outstanding reads, at most 1,024 (R247) -/
  reads : List HostRead
  /-- reads that await a free tag, oldest first -/
  waiting : List HostRead
  nextId : Nat
  /-- operand data that has come back: core, flight, host address, bytes -/
  got : List (Nat × Nat × Nat × List Byte)
  /-- descriptors of a fetch whose other read is outstanding (R253): ring, serial number of the read, position, bytes -/
  fetched : List (Nat × Nat × Nat × List Byte)
  /-- trainings of the link that may still end: one after reset or a RETRAIN, three after it left L0 (R243, R244) -/
  training : Nat
  /-- rings whose record read must be repeated (R252) -/
  again : List Nat
  /-- rings whose outstanding fetches are dropped on arrival: ring, serial number of the read (R255) -/
  dropped : List (Nat × Nat)
  /-- tick of each ring's last record read (R252) -/
  lastRead : List (Nat × Nat)
  /-- polls issued in this tick -/
  polls : Nat
  /-- next PHASE of each completion queue, absent for 1 (R257) -/
  phase0 : List Nat
  /-- completion queues in hold-off, and whether records wait for its end (R258) -/
  holdoff : List (Nat × Bool)
  deriving DecidableEq, Repr

/-! ### Fabric (chapters 12, 13) -/

/-- A non-idle block that a port holds for replay (R268): sequence number, slots, SLOT_INFO. -/
structure OutBlock where
  seq : Nat
  slots : List (List Byte)
  info : Nat
  deriving DecidableEq, Repr

/-- A packet in an input buffer (R271, R272): the virtual channel it came on, and its flits by pool, private and shared. -/
structure InPkt where
  vc : Nat
  priv : Nat
  shared : Nat
  pkt : Packet
  deriving DecidableEq, Repr

/-- A fabric port beside its registers (R265 to R280). Lists over virtual channels have six entries: private, shared. -/
structure PortSt where
  txSeq : Nat
  rxSeq : Nat
  /-- blocks are discarded until one with RETRY arrives -/
  discard : Bool
  retry : List OutBlock
  /-- replays of the oldest block without acknowledgement -/
  replays : Nat
  /-- credit settings in force here, and those that the neighbour advertised: MIN, CAP -/
  own : List (Nat × Nat)
  nbr : List (Nat × Nat)
  /-- flits in the neighbour's buffer -/
  used : List (Nat × Nat)
  /-- the neighbour's cumulative counts of freed flits as last seen, and those of this port -/
  seen : List (Nat × Nat)
  freed : List (Nat × Nat)
  /-- packets received whole, oldest first -/
  inq : List InPkt
  /-- flits of packets received in part, with their pool: by virtual channel -/
  part : List (Nat × List (List Byte × Bool))
  /-- blocks put on the link, oldest first -/
  wire : List LinkBlock
  /-- IDENT flits put on the link, oldest first -/
  idents : List Ident
  /-- ticks of block errors in the last 60 s (R275) -/
  errs : List Nat
  /-- the port awaits a RECHECK (R280) -/
  waiting : Bool
  deriving DecidableEq, Repr

/-- The router beside its registers. -/
structure FabSt where
  ports : List (Nat × PortSt)
  /-- local injection queues of the four tiles -/
  inject : List (Nat × List Packet)
  /-- entry of the Route Plan for this device (R281) -/
  plan : Option (List Byte)
  /-- candidate port last taken in an axis direction by CLASS 1 and 2 (R288) -/
  turn : List (Nat × Nat)
  deriving DecidableEq, Repr

/-! ### Jobs and steps (chapters 14, 15) -/

/-- A step that is not CLOSED (R326). -/
structure Step where
  step : Nat
  /-- 0 accepted and not yet fetched, else the codes of R326 -/
  state : Nat
  attempt : Nat
  gen : Nat
  causes : Nat
  /-- tick in which a marking event failed it while OPEN -/
  failTick : Option Nat
  /-- tick in which SEAL was accepted -/
  sealTick : Option Nat
  /-- the report has been taken -/
  reported : Bool
  /-- its result is awaited (VOTE_PENDING) -/
  awaits : Bool
  stream : Nat
  plan : List Byte
  /-- CIDX of every ring at the first fetch, where not zero: ring, CIDX -/
  cidx : List (Nat × Nat)
  /-- inputs still to copy -/
  copying : Bool
  deriving DecidableEq, Repr

/-- The step-replay engine and the job beside their registers. -/
structure StepSt where
  /-- oldest first, at most two -/
  steps : List Step
  /-- a step has been opened since START or a restore -/
  opened : Bool
  last : Nat
  /-- last CLOSED step since START, or step of the last restore or ADOPT -/
  lastClosed : Option Nat
  /-- the mapping descriptor of the job (R303, R304) -/
  mapping : List Byte
  /-- lines of the vote area that wait to be combined: level, line (R335) -/
  lines : List (Nat × List Byte)
  /-- the combined line so far, and the levels still to combine -/
  vote : Option (Nat × List Byte)
  /-- a digest is being formed: plan, step, generation -/
  digest : Option (List Byte × Nat × Nat)
  /-- step, epoch and attempt of the last vote that RESOLVE ended (R338) -/
  resolved : Option (Nat × Nat × Nat)
  /-- plan and record of the last digest -/
  digested : Option (List Byte × List Byte)
  /-- a commit flag waits for DIG_DONE or for the end of a checkpoint capture -/
  heldFlag : Bool
  deriving DecidableEq, Repr

/-! ### Checkpoint (chapter 16) -/

/-- The NVMe command that awaits its completion (R354, R355). -/
structure NvmeCmd where
  id : Nat
  /-- 0 read, 1 write, 2 flush -/
  kind : Nat
  fua : Bool
  lba : Nat
  /-- the data lie in hub SRAM, at an offset of its range; else at a device address -/
  sram : Bool
  addr : Nat
  len : Nat
  deriving DecidableEq, Repr

/-- What a running checkpoint command has still to do, one NVMe command or one internal action each. -/
inductive CkpAct where
  /-- read LBAs of a slot view into `seen` under a key -/
  | look (lba n key : Nat)
  /-- judge a slot by what was read of it -/
  | exam (slot : Nat)
  /-- choose the target of a save -/
  | pick
  /-- wait for the start of capture -/
  | awaitCapture
  /-- zero a slot's commit record -/
  | zero (slot : Nat)
  /-- its completion: the slot is invalid -/
  | zeroed (slot : Nat)
  /-- snapshot mode: wait for the copy -/
  | awaitCopied
  | saveExt (i off : Nat)
  | digest (i : Nat)
  | manifest
  | flush
  | commit
  | saved
  | report
  | select
  | loadExt (i off : Nat)
  | verify (i : Nat)
  | restored
  | exportTo (lba addr len : Nat)
  /-- IMPORT and FORMAT: refused where a valid slot would be lost without FORCE -/
  | guard
  | importFrom (lba addr len : Nat)
  /-- IMPORT_COMMIT: take the manifest that was read -/
  | adoptManifest
  | readBack (i off : Nat)
  | checkBack (i : Nat)
  | label
  | labelled
  | done
  deriving DecidableEq, Repr

/-- The checkpoint engine beside its registers. -/
structure CkpSt where
  /-- command block of the running command -/
  cmd : List Byte
  script : List CkpAct
  /-- extents of the running command: address, length -/
  exts : List (Nat × Nat)
  digests : List (List Byte)
  /-- first 4 KiB of the manifest being written or checked -/
  head : List Byte
  shard : Nat
  /-- snapshot mode -/
  snap : Bool
  /-- capture has begun, capture has ended -/
  capturing : Bool
  captured : Bool
  target : Nat
  nvme : Option NvmeCmd
  nextNvme : Nat
  facts : ModuleFacts
  /-- a bring-up awaits the end of the link's training -/
  bring : Bool
  /-- LBAs of the slots as last read: key 2 · slot commit record, 2 · slot + 1 manifest -/
  seen : List (Nat × List Byte)
  /-- bytes of the extent that is read back -/
  acc : List Byte
  /-- the engine's hub SRAM (R355) -/
  sram : List (Nat × Byte)
  /-- answers to inbound requests: performed, bytes -/
  inbound : List (Bool × List Byte)
  pendingAuto : Bool
  /-- commit flags are held for the capture -/
  holding : Bool
  /-- operating tick at which the last save ended -/
  lastSave : Option Nat
  /-- events in the warning window: minute, trigger -/
  warns : List (Nat × Nat)
  deriving DecidableEq, Repr

/-! ### Power, settings, security, board (chapters 19 to 21) -/

/-- The management island and the board's pins. -/
structure PowerSt where
  inP3 : Bool
  /-- VMI and VAUX in range -/
  supplied : Bool
  /-- board reference running -/
  refOk : Bool
  /-- root clock running -/
  root : Bool
  /-- package held in reset by the island -/
  held : Bool
  enMain : Bool
  pgMain : Bool
  resetN : Bool
  thermtripN : Bool
  hostResetN : Bool
  perstN : Bool
  railFail : Bool
  alert : Bool
  /-- sums at or below the lower limit, sums at level 8, and sums for which level 8 is still held after its causes cleared (R417) -/
  lowSums : Nat
  topSums : Nat
  coolSums : Nat
  /-- partitions that read failed (R347) -/
  failed : List Nat
  /-- in-band interrupts that the I3C target has raised (R462) -/
  ibis : Nat
  i3cAddr : Option Nat
  /-- pending cause of the reset that follows the main-rail sequence -/
  cause : Nat
  deriving DecidableEq, Repr

/-- The settings store (R429, R430). -/
structure SettingsSt where
  /-- records by key -/
  records : List (Nat × List Byte)
  /-- buffer window, 16,384 bytes -/
  buf : List (Nat × Byte)
  wear : List (Nat × Nat)
  /-- command in progress: 0 none, 1 store, 2 read, 3 erase; its key; the data that it stores -/
  busy : Nat
  key : Nat
  data : List Byte
  /-- ticks since the last strobe that changed a routing entry (R432); none: nothing to store -/
  routeDue : Bool
  deriving DecidableEq, Repr

/-- A firmware image in MRAM (R442). -/
structure Image where
  type : Nat
  version : Nat
  svn : Nat
  /-- root key slot that signed it, and those that it revokes at COMMIT_SVN -/
  key : Nat
  revoke : Nat
  /-- SHA3-256 over header and body -/
  digest : List Byte
  deriving DecidableEq, Repr

/-- The firmware image of a type that the device leaves manufacture with (log 6). -/
def Image.factory (type : Nat) : Image := ⟨type, 1, 0, 0, 0, Config.factoryImage type⟩

/-- A grant that is held (R447). -/
structure Grant where
  op : Nat
  arg : Nat
  digest : List Byte
  /-- time base at which it expires -/
  expires : Nat
  deriving DecidableEq, Repr

/-- An attestation that is in progress (R450). -/
structure Attest where
  /-- address of a host report; none for the management layer's -/
  addr : Option Nat
  nonce : List Byte
  /-- the 320 bytes of the body, once captured -/
  body : Option (List Byte)
  deriving DecidableEq, Repr

/-- What only rises: the SVN fuses of each firmware type, the revocation fuses of the root keys, and the grant counter (R444, R447). -/
structure Floors where
  svnHub : Nat
  svnCore : Nat
  revoked : Nat
  authCtr : Nat
  deriving DecidableEq, Repr

/-- Security (R439 to R452). -/
structure SecSt where
  /-- slot images: hub 0, hub 1, core 0, core 1 -/
  images : List (Option Image)
  /-- slot running: hub, core -/
  hubSlot : Nat
  coreSlot : Nat
  /-- the inactive slot of each type becomes active at the next package reset (R444) -/
  hubNew : Bool
  coreNew : Bool
  /-- operator keys of slots 0 and 1; empty where none is installed -/
  opKeys : List (List Byte)
  floors : Floors
  grant : Option Grant
  /-- attestation in progress (R450) -/
  attest : Option Attest
  /-- CPER records and attestation reports sent to the management layer, oldest first -/
  reports : List (List Byte)
  deriving DecidableEq, Repr

/-- The Waybill (R26, R36, R37): the bytes behind the window and whether a build is due. -/
structure WaybillSt where
  /-- REVISION, kept in MRAM -/
  rev : Nat
  /-- the registers, the failed partitions and the grade that the image in the window shows: the image is computed from them -/
  shown : List (Nat × Word)
  failed : List Nat
  grade : Nat
  due : Bool
  deriving DecidableEq, Repr

/-- The mesh bridges 0 to 9 (R17, R380): replays, and the failures of the flit in progress. -/
structure MeshSt where
  replays : List (Nat × Nat)
  fails : List (Nat × Nat)
  deriving DecidableEq, Repr

/-! ### The whole -/

/-- The state of the package. -/
structure State where
  /-- registers that differ from their reset values (`regReset`), by key -/
  regs : List (Nat × Word)
  /-- pending copies that await a strobe (R49), by key -/
  pend : List (Nat × Word)
  /-- triplicated fields whose copies are not equal (R59): key · 32 + lowest bit -/
  tmr : List (Nat × Copies)
  /-- read shadow of each requester: tag and bits [63:32] (R45) -/
  shadow : List (Nat × (Nat × Word))
  /-- write holding of each requester: tag and bits [31:0] (R46) -/
  holding : List (Nat × (Nat × Word))
  /-- scheduled strobes, oldest first (R52) -/
  strobes : List Nat
  /-- buffered writes held behind a strobe, oldest first (R53) -/
  heldWrites : List Held
  /-- SEQ registers that have advanced in this tick with no clear since (R56), by key -/
  seqTicked : List Nat
  answers : List Answer
  /-- data and old values that slices returned to stand-alone requests, oldest first (log 11) -/
  replies : List Reply
  time : TimeSt
  ledger : LedgerSt
  fh : FaultSt
  ist : TestSt
  cores : List (Nat × CoreSt)
  parts : List (Nat × PartSt)
  signals : List Signal
  host : HostSt
  fab : FabSt
  sr : StepSt
  ckp : CkpSt
  power : PowerSt
  settings : SettingsSt
  sec : SecSt
  waybill : WaybillSt
  mesh : MeshSt
  /-- the model's own: index of the next free value (log 7) -/
  free : Nat
  /-- commands that wait, first in, first out (log 2) -/
  pending : List Instr
  deriving DecidableEq, Repr

/-! ### Reset -/

/-- An empty queue. -/
def QueueSt.reset : QueueSt := ⟨[], 0, [], none, ⟨0, 0, false⟩, (0, 0), none, false⟩

/-- A core after reset; last grants: queue 7, so that queue 0 is next (log 12). -/
def CoreSt.reset : CoreSt :=
  { queues := List.replicate 8 QueueSt.reset, flights := [], nextId := 0, granted := [7, 7, 7, 7], armed := true
    banks := [none, none], nextBank := 0, loaded := [], acc := [], rowSums := [], summ := [], store := [] }

/-- A partition's slice and stack after reset (log 3). -/
def PartSt.reset : PartSt := ⟨[], [], [], [], [], [], 0⟩

/-- A port after reset. -/
def PortSt.reset : PortSt :=
  { txSeq := 0, rxSeq := 0, discard := false, retry := [], replays := 0, own := [], nbr := []
    used := List.replicate 6 (0, 0), seen := List.replicate 6 (0, 0), freed := List.replicate 6 (0, 0), inq := []
    part := [], wire := [], idents := [], errs := [], waiting := false }

/-- The step-replay engine after reset. -/
def StepSt.reset : StepSt := ⟨[], false, 0, none, [], [], none, none, none, none, false⟩

/-- The checkpoint engine after reset. -/
def CkpSt.reset : CkpSt :=
  { cmd := [], script := [], exts := [], digests := [], head := [], shard := 0, snap := false, capturing := false
    captured := false, target := 0, nvme := none, nextNvme := 0, facts := ⟨false, 0, 0, false, 0, []⟩, bring := true, seen := []
    acc := [], sram := [], inbound := [], pendingAuto := false, holding := false, lastSave := none, warns := [] }

/-- The queue engine after reset. -/
def HostSt.reset : HostSt := ⟨[], [], [], 0, [], [], 1, [], [], [], 0, [], []⟩

/-- The ledger as a reset starts it afresh. -/
def LedgerSt.reset : LedgerSt := ⟨[], [], none, [], none⟩

/-- WAYBILL_CHANGED of the build at power-on, among the first records of the ledger (R38); its AUX is the revision (log 6). -/
def LedgerRec.boot : LedgerRec :=
  { tick := 0, cls := 9, kind := 0, event := 0x20, index := 0, tag := 0, step := 0xFFFFFFFFFFFF, attempt := 0, interlude := false
    transit := false, unsync := true, order := 0, aux := 1, part := 20, core := 13, port := 63, lane := 0 }

/-- The package right after its first power-on reset; what the manual gives no value for is in the log (3 to 7, 12). -/
def State.reset : State :=
  { regs := [], pend := [], tmr := [], shadow := [], holding := [], strobes := [], heldWrites := [], seqTicked := []
    answers := [], replies := []
    time := ⟨0, 0, ⟨0, 1⟩, none, 0, 0, 0⟩
    ledger := { LedgerSt.reset with cur := [LedgerRec.boot] }
    fh := ⟨[], [], [], [], 0, [], [], [], [], [], false⟩
    ist := ⟨[], [], [], [], [none, none], none, false⟩
    cores := [], parts := [], signals := []
    host := HostSt.reset
    fab := ⟨[], [], none, []⟩
    sr := StepSt.reset
    ckp := CkpSt.reset
    power :=
      { inP3 := false, supplied := true, refOk := true, root := true, held := false, enMain := true, pgMain := true, resetN := true, thermtripN := true
        hostResetN := true, perstN := true, railFail := false, alert := false, lowSums := 0, topSums := 0
        coolSums := 0, failed := [], ibis := 0, i3cAddr := none, cause := 1 }
    settings := ⟨[], [], [], 0, 0, [], false⟩
    sec :=
      { images := [some (Image.factory 1), none, some (Image.factory 2), none], hubSlot := 0, coreSlot := 0
        hubNew := false, coreNew := false, opKeys := [[], []], floors := ⟨0, 0, 0, 0⟩
        grant := none, attest := none, reports := [] }
    waybill := ⟨1, [], [], 1, false⟩
    mesh := ⟨[], []⟩
    free := 0
    pending := [] }

end Sys2Proof.Machine
end

