-- ==== Sys2Proof/Machine/Ops.lean ====
section
/-! DEFINITION. The named operations over registers, cores, partitions, the event ledger and the step states. -/

namespace Sys2Proof.Machine

/-! ### Registers -/

/-- Voted value of three copies (R59); `safe` where no two agree (R60). -/
def Copies.vote (c : Copies) (safe : Nat) : Nat :=
  if c.a = c.b ∨ c.a = c.c then c.a else if c.b = c.c then c.b else safe

/-- Safe value of a triplicated field (R60): fence bit fenced, slice ID none, routing entry invalid, spare map entry
unavailable (the role fenced), reset enable disabled. -/
def safeOf (k : Nat) : Nat :=
  match keyBlk k with
  | some .ptnCore => if keyOff k = 0x20 then 1 else 2
  | some .rt => 0xFFF
  | some .memCh => 2
  | _ => 0

/-- A register word as the device uses it: the live copy, each triplicated field voted. -/
def regLive (s : State) (k : Nat) : Word :=
  s.tmr.foldl (fun w e => if e.1 / 32 = k then
      match (keyBlk k).bind (fun b => (findReg b (keyOff k)).bind (fun r => r.fields.find? (fun f => f.lo == e.1 % 32))) with
      | some f => wput f.hi f.lo (e.2.vote (safeOf k)) w
      | none => w
    else w) (sget regReset s.regs k)

/-- Write a register word; all three copies of its triplicated fields. -/
def regPut (s : State) (k : Nat) (w : Word) : State :=
  { s with regs := sput regReset s.regs k w, tmr := s.tmr.filter (fun e => e.1 / 32 != k) }

/-- Key of the register of a field in an instance. -/
def Fld.key (f : Fld) (i : Nat) : Nat := regKey f.blk i f.off

/-- Read a field of instance `i`. -/
def rf (s : State) (f : Fld) (i : Nat) : Nat := wbits f.hi f.lo (regLive s (f.key i))

/-- Write a field of instance `i`. -/
def wf (s : State) (f : Fld) (i v : Nat) : State :=
  regPut s (f.key i) (wput f.hi f.lo v (regLive s (f.key i)))

/-- Is a one-bit field set? -/
def rb (s : State) (f : Fld) (i : Nat) : Bool := rf s f i != 0

/-- Read a 64-bit quantity from its halves. -/
def rf2 (s : State) (lo hi : Fld) (i : Nat) : Nat := rf s lo i + rf s hi i * 2 ^ 32

/-- Write a 64-bit quantity to its halves. -/
def wf2 (s : State) (lo hi : Fld) (i v : Nat) : State :=
  wf (wf s lo i (v % 2 ^ 32)) hi i (v / 2 ^ 32)

/-- Advance a 64-bit counter held as LO at `lo` and HI in the next word. -/
def bump (s : State) (lo : Fld) (i n : Nat) : State :=
  let hi : Fld := { lo with off := lo.off + 4 }
  wf2 s lo hi i ((rf2 s lo hi i + n) % 2 ^ 64)

/-- Advance a 64-bit counter while its enable is set. -/
def bumpIf (s : State) (en lo : Fld) (i n : Nat) : State := if rb s en i then bump s lo i n else s

/-- Advance a 32-bit count that saturates. -/
def bumpSat (s : State) (f : Fld) (i n : Nat) : State := wf s f i (satAdd (rf s f i) n)

/-- Advance the SEQ field of an event register at its first event of the tick or since a clear (R56). -/
def seqAdvance (s : State) (k : Nat) : State :=
  if s.seqTicked.contains k then s
  else
    let w := regLive s k
    { regPut s k (wput 31 16 (wbits 31 16 w + 1) w) with seqTicked := k :: s.seqTicked }

/-- Record an event in an event field of instance `i` (R56). -/
def ev (s : State) (f : Fld) (i : Nat) : State := seqAdvance (wf s f i 1) (f.key i)

/-- Clear the event fields of an event register (R56, step 3). -/
def seqClear (s : State) (k : Nat) : State :=
  let w := regLive s k
  { regPut s k (w &&& fmask 31 16) with seqTicked := s.seqTicked.filter (· != k) }

/-- Record a register access fault (R43, R55). -/
def accFault (s : State) (reason req off : Nat) : State :=
  let s := wf (wf s F.HUB_ACC_FAULT_REASON 0 reason) F.HUB_ACC_FAULT_REQUESTER 0 req
  wf (seqAdvance s (F.HUB_ACC_FAULT_REASON.key 0)) F.HUB_ACC_ADDR_OFFSET 0 off

/-- The next free value (log 7). -/
def fresh (s : State) : Nat × State := (Config.freeNat s.free, { s with free := s.free + 1 })

/-! ### Cores and partitions -/

/-- Partition of a core. -/
def partOf (g : Nat) : Nat := g / 13

/-- The tile of a partition (R11). -/
def tileOf (p : Nat) : Nat := p / 5

def getCore (s : State) (g : Nat) : CoreSt := sget (fun _ => CoreSt.reset) s.cores g
def setCore (s : State) (g : Nat) (c : CoreSt) : State := { s with cores := sput (fun _ => CoreSt.reset) s.cores g c }
def getPart (s : State) (p : Nat) : PartSt := sget (fun _ => PartSt.reset) s.parts p
def setPart (s : State) (p : Nat) (c : PartSt) : State := { s with parts := sput (fun _ => PartSt.reset) s.parts p c }
def getPort (s : State) (n : Nat) : PortSt := sget (fun _ => PortSt.reset) s.fab.ports n
def setPort (s : State) (n : Nat) (p : PortSt) : State :=
  { s with fab := { s.fab with ports := sput (fun _ => PortSt.reset) s.fab.ports n p } }

/-- Core roles: 0 active, 1 spare, 2 fenced, 3 disabled (R352). -/
def role (s : State) (g : Nat) : Nat := rf s F.PTN_CORE_STATE_ROLE g

/-- The core that stands for a fenced core (R33, R352). -/
def standIn (s : State) (g : Nat) : Option Nat :=
  let v := rf s F.PTN_CORE_STATE_STOOD_BY g
  if v = 0x1FF then none else some v

/-- Logical index of a core: the fenced core that it stands for, else its own (R250). -/
def logical (s : State) (g : Nat) : Nat :=
  ((span (13 * partOf g) 13).find? (fun f => role s f == 2 && standIn s f == some g)).getD g

/-- The core that runs the work of a logical core; none where no core runs it (R209, R250). -/
def runner (s : State) (g : Nat) : Option Nat :=
  match role s g with
  | 0 => some g
  | 2 => standIn s g
  | _ => none

/-- Is a partition in reset? -/
def inReset (s : State) (p : Nat) : Bool := bit p (rf s F.RST_STATUS_IN_RESET 0)

/-- Power state of a partition: 0 P0, 1 P1, 2 P2 (R437). -/
def pstate (s : State) (p : Nat) : Nat :=
  if p < 16 then bits (2 * p + 1) (2 * p) (rf s F.PWR_PTN_STATE0_STATE 0)
  else bits (2 * (p - 16) + 1) (2 * (p - 16)) (rf s F.PWR_PTN_STATE1_STATE 0)

/-- Set the power state of a partition. -/
def setPstate (s : State) (p v : Nat) : State :=
  if p < 16 then wf s F.PWR_PTN_STATE0_STATE 0 (putBits (2 * p + 1) (2 * p) v (rf s F.PWR_PTN_STATE0_STATE 0))
  else wf s F.PWR_PTN_STATE1_STATE 0 (putBits (2 * (p - 16) + 1) (2 * (p - 16)) v (rf s F.PWR_PTN_STATE1_STATE 0))

/-- A partition that takes no work: in reset, changing state or in P2 (R43, R55, R185, R437). -/
def ptnDown (s : State) (p : Nat) : Bool := inReset s p || decide (2 ≤ pstate s p)

/-- Active cores: those whose role is active. -/
def activeCores (s : State) : List Nat := (List.range 260).filter (fun g => role s g == 0)

/-- The current ledger tick (R405). -/
def tick (s : State) : Nat := s.time.now / 1000

/-- The Waybill is to be built again (R36, R37). -/
def waybillDue (s : State) : State := { s with waybill := { s.waybill with due := true } }

/-! ### Steps -/

/-- The step that is OPEN. -/
def openStep (s : State) : Option Step := s.sr.steps.find? (fun t => t.state == 1)

/-- Does a step's window reach the current tick though it is not OPEN: it failed while OPEN in this tick or was sealed in it
(R328)? -/
def windowTail (s : State) (t : Step) : Bool :=
  !t.reported && ((t.state == 5 && t.failTick == some (tick s)) || t.sealTick == some (tick s))

/-- The step in whose window an event of this tick falls (R328, R406). -/
def windowStep (s : State) : Option Step := s.sr.steps.find? (fun t => t.state == 1 || windowTail s t)

/-- Replace a step by its number. -/
def putStep (s : State) (t : Step) : State :=
  { s with sr := { s.sr with steps := s.sr.steps.map (fun u => if u.step = t.step then t else u) } }

/-- Cause bit of a marking event (R335): by class of R406, with CORE_LOSS (0x04) on its own. -/
def causeBit (cls event : Nat) : Nat :=
  match cls with
  | 1 => 16
  | 2 => if event = 4 then 32 else 8
  | 3 => 1
  | 4 => 2
  | 5 => 4
  | _ => 0

/-- A marking event (R328): it fails the OPEN step; a step that failed while OPEN, or is sealed in this tick, and has not reported
gathers the cause; with none of these, a step that is COMMITTED and not CLOSED takes POST_COMMIT_FAULT. -/
def markStep (s : State) (cause : Nat) : State :=
  let late := fun (t : Step) => !t.reported && ((t.state == 5 && t.failTick.isSome) || t.sealTick == some (tick s))
  let hit := s.sr.steps.any fun t => t.state == 1
  let mark := fun (t : Step) =>
    if t.state = 1 then { t with state := 5, causes := t.causes ||| cause, failTick := some (tick s) }
    else if late t then { t with causes := t.causes ||| cause } else t
  let s := { s with sr := { s.sr with steps := s.sr.steps.map mark } }
  if hit then ev s F.HUB_SR_EVENT_FAILED 0
  else if s.sr.steps.any (fun t => t.state == 3) then ev s F.HUB_SR_EVENT_POST_COMMIT_FAULT 0 else s

/-! ### The event ledger -/

/-- Event codes of R408. -/
def E.TMR_SPLIT : Nat := 0x01
def E.MESH_FATAL : Nat := 0x02
def E.HANG : Nat := 0x03
def E.CORE_LOSS : Nat := 0x04
def E.UE_MEMORY : Nat := 0x05
def E.RANGE_FAULT : Nat := 0x06
def E.RED_REFUSED : Nat := 0x07
def E.HOST_RD_ERR : Nat := 0x08
def E.RESIDUE_ARRAY : Nat := 0x09
def E.RESIDUE_VECTOR : Nat := 0x0A
def E.IST_FAIL : Nat := 0x0B
def E.STALE_GATHER : Nat := 0x0C
def E.GEN_GAP : Nat := 0x0D
def E.FAB_LINK_DOWN : Nat := 0x0E
def E.UCIE_LINK_DOWN : Nat := 0x0F
def E.DEADLOCK : Nat := 0x10
def E.CE_MEMORY : Nat := 0x11
def E.ILLEGAL_DESC : Nat := 0x12
def E.BER_DEGRADED : Nat := 0x13
def E.STAGING_ERR : Nat := 0x14
def E.WAYBILL_CHANGED : Nat := 0x20
def E.PARTITION_READY : Nat := 0x21
def E.SNAPSHOT_TAKEN : Nat := 0x22

/-- Class of an event code (R408). -/
def eventClass (e : Nat) : Nat :=
  if e ≤ 2 then 1 else if e ≤ 4 then 2 else if e ≤ 8 then 3 else if e ≤ 0xB then 4 else if e ≤ 0xD then 5
  else if e ≤ 0xF then 6 else if e = 0x10 then 7 else if e < 0x20 then 8 else 9

/-- The unit that an event names, and its place in the order of R406. -/
structure EvUnit where
  kind : Nat
  index : Nat
  part : Nat
  core : Nat
  port : Nat
  lane : Nat
  deriving DecidableEq, Repr

/-- No unit (R406). -/
def U.none : EvUnit := ⟨0, 0, 20, 13, 63, 0⟩
/-- A core by global index. -/
def U.core (g : Nat) : EvUnit := ⟨1, g, partOf g, g % 13, 63, 0⟩
/-- A channel of a partition. -/
def U.chan (p k : Nat) : EvUnit := ⟨2, 128 * p + k, p, 13, 63, k⟩
/-- A port-class unit. -/
def U.port (n : Nat) : EvUnit := ⟨4, n, 20, 13, n, 0⟩
/-- A partition. -/
def U.part (p : Nat) : EvUnit := ⟨5, p, p, 13, 63, 0⟩

/-- LOCKED of R403. -/
def locked (s : State) : Bool := rb s F.TIME_STATUS_LOCKED 0

/-- Is an interlude live (R322)? -/
def interludeLive (s : State) : Bool := rb s F.HUB_JOB_STATUS_INTERLUDE_LIVE 0

/-- A trace record of R411; the hub takes at most 256 in a tick, and writes a marker before the first record after a wrap. -/
def trace (s : State) (kind queue core opcode tag event part : Nat) : State :=
  if rb s F.LEDGER_CTRL_TRACE_EN 0 && bit (kind - 1) (rf s F.LEDGER_CTRL_TRACE_KINDS 0) &&
      (bit part (rf s F.LEDGER_TRACE_PTN_MASK 0)) then
    let hi := s.time.now / 2 ^ 32 % 2 ^ 32
    let mark := if s.ledger.marker = some hi then [] else [toLE 4 0 ++ toLE 4 hi ++ toLE 4 15 ++ toLE 4 0]
    let r := toLE 4 s.time.now ++ toLE 4 tag ++ toLE 4 (kind + queue * 16 + core * 128 + opcode * 65536) ++ toLE 4 event
    let l := s.ledger.trace ++ mark ++ [r]
    if 256 < l.length then bumpSat s F.LEDGER_TRACE_DROP_COUNT 0 1
    else { s with ledger := { s.ledger with trace := l, marker := some hi } }
  else s

/-- Is any bit of the transit map set (R295)? -/
def transitMarked (s : State) : Bool := s.regs.any (fun e => keyBlk e.1 == some .rtMap && e.2 != 0)

/-- A checkpoint trigger is reached (R365): its bit and WARN are set, and with AUTO an automatic save is pending. -/
def warnTrigger (s : State) (b : Nat) : State :=
  let s := wf s F.CKP_WARN_STATUS_TRIGGER 0 (putBits b b 1 (rf s F.CKP_WARN_STATUS_TRIGGER 0))
  let s := ev s F.CKP_EVENT_WARN 0
  if rb s F.CKP_CTRL_AUTO 0 then
    wf { s with ckp := { s.ckp with pendingAuto := true } } F.CKP_STATUS_PENDING 0 1
  else s

/-- Count an event in the sliding window of R365 (1-minute buckets) and fire the trigger when its limit is reached. -/
def warnCount (s : State) (b limit : Nat) : State :=
  let now := s.time.now / 60000000000
  let old := s.ckp.warns.filter (fun e => decide (now < e.1 + max 1 (rf s F.CKP_WARN_CFG_WINDOW_MIN 0)))
  let ws := old ++ [(now, b)]
  let s := { s with ckp := { s.ckp with warns := ws } }
  if (ws.filter (fun e => e.2 == b)).length = max 1 limit then warnTrigger s b else s

/-- The windows of R365 that an event counts in. -/
def warnEvent (s : State) (e : Nat) : State :=
  if e = E.CE_MEMORY then warnCount s 0 (rf s F.CKP_WARN_CFG_CE_LIMIT 0)
  else if eventClass e = 3 ∨ e = E.RESIDUE_ARRAY ∨ e = E.RESIDUE_VECTOR then
    warnCount s 1 (rf s F.CKP_WARN_CFG_HARD_LIMIT 0)
  else s

/-- Record an event in the ledger (R405 to R408) and mark the step (R328; in an interlude only fatal events and hangs do, R322). Fatal, hang and link-down events carry the
transit flag (R295). -/
def raise (s : State) (e : Nat) (u : EvUnit) (tag aux : Nat) : State :=
  let cls := eventClass e
  let w := windowStep s
  let r : LedgerRec :=
    { tick := tick s, cls := cls, kind := u.kind, event := e, index := u.index, tag := tag
      step := (w.map (·.step)).getD 0xFFFFFFFFFFFF, attempt := (w.map (·.attempt)).getD 0
      interlude := interludeLive s, transit := (cls == 1 || cls == 2 || cls == 6) && transitMarked s, unsync := !locked s, order := 0, aux := aux
      part := u.part, core := u.core, port := u.port, lane := u.lane }
  let s := { s with ledger := { s.ledger with cur := s.ledger.cur ++ [r] } }
  let s := trace s 4 0 (if u.kind = 1 then u.index else 0x1FF) 0 tag e u.part
  let s := if cls ≤ 2 ∨ (cls ≤ 5 ∧ ¬ interludeLive s) then markStep s (causeBit cls e) else s
  warnEvent s e

/-- Has this tick already recorded this event for this unit? -/
def raisedThisTick (s : State) (e : Nat) (u : EvUnit) : Bool :=
  s.ledger.cur.any (fun r => r.event == e && r.kind == u.kind && r.index == u.index)

/-- Record an event at most once in a tick for a unit (R85, R173). -/
def raiseOnce (s : State) (e : Nat) (u : EvUnit) (tag aux : Nat) : State :=
  if raisedThisTick s e u then s else raise s e u tag aux

/-! ### Time -/

/-- Register cycles of one nanosecond are 7/20; the accumulator counts in 1 / (14 · 10^9) ns. The time base after `n`
register cycles at the rate correction of TIME_ADJ (R401). -/
def runClock (s : State) (n : Nat) : State :=
  let adj := sext 32 (rf s F.TIME_ADJ_ADJ 0)
  let unit : Nat := 14 * 10 ^ 9
  let step : Int := (n : Int) * 40 * (10 ^ 9 + adj)
  let tot := (s.time.acc : Int) + step
  { s with time := { s.time with now := (s.time.now + (tot / unit).toNat) % 2 ^ 64, acc := (tot % unit).toNat } }

/-- LOCKED clears (R403). -/
def timeUnlock (s : State) : State :=
  if locked s then
    ev (wf { s with time := { s.time with good := 0, bad := 0 } } F.TIME_STATUS_LOCKED 0 0) F.TIME_EVENT_UNLOCK 0
  else { s with time := { s.time with good := 0, bad := 0 } }

/-- A port that carries a follower's parent leaves UP (R403). -/
def timePortDown (s : State) (n : Nat) : State :=
  if rf s F.TIME_CTRL_ROLE 0 = 2 ∧ rf s F.TIME_CTRL_PARENT_PORT 0 = n then timeUnlock s else s

end Sys2Proof.Machine
end

