-- ==== Sys2Proof/Machine/Access.lean ====
section
/-! DEFINITION. A register write as its page performs it: refusal reasons, select registers, access codes, update groups (R40 to R61). -/

namespace Sys2Proof.Machine

/-! ### Where a register lies -/

/-- The partition of a page, by the page's place in the window; 20 outside the partitions. -/
def Blk.pagePart (b : Blk) (i : Nat) : Nat :=
  match b with
  | .ptn | .ptnCore | .mem | .memCh | .sc => i
  | .core | .seqQ | .seqF | .mx | .vx | .qnt => i / 13
  | _ => 20

/-- Window offset of the first register of a page (R62 to R64). -/
def Blk.base (b : Blk) (i : Nat) : Nat :=
  let ptn := 0x1000000 + 0x100000 * i
  let core := 0x1000000 + 0x100000 * (i / 13) + 0x80000 + 0x8000 * (i % 13)
  match b with
  | .hub => 0x10000
  | .hubSr => 0x11000
  | .clk => 0x20000
  | .rst => 0x24000
  | .pwr => 0x28000
  | .time => 0x30000
  | .ledger => 0x34000
  | .set => 0x40000
  | .sec => 0x50000
  | .hq => 0x80000
  | .hqRing => 0x81000
  | .hqCq => 0x82000
  | .fab => 0x100000
  | .fabP => 0x101000
  | .rt => 0x140000
  | .rtMap => 0x141000
  | .rtEntry => 0x150000 + 0x1000 * i
  | .ckp => 0x180000
  | .fh => 0x1C0000
  | .ist => 0x1E0000
  | .i3c => 0x4000000
  | .ptn | .ptnCore => ptn
  | .mem => ptn + 0x10000
  | .memCh => ptn + 0x11000
  | .sc => ptn + 0x20000
  | .core => core
  | .seqQ => core + 0x1000
  | .seqF => core + 0x2000
  | .mx => core + 0x3000
  | .vx => core + 0x4000
  | .qnt => core + 0x5000

/-- Window offset of a register (R43). -/
def winOff (b : Blk) (i off : Nat) : Nat := b.base i + off

/-- The page that serves an offset of a frame: the per-core fields of a partition lie in the partition's own frame (R61). -/
def pageOf (b : Blk) (off : Nat) : Blk :=
  match b with
  | .ptn => if (findReg .ptnCore off).isSome then .ptnCore else .ptn
  | _ => b

/-- Instances that an access through a page reaches: one, or with BCAST every one; none where the select value is out of
range (R61, R260). Banked registers have one instance for each requester (R42). -/
def reached (s : State) (req : Requester) (b : Blk) (i off : Nat) (write : Bool) : Option (List Nat) :=
  let pick := fun (bc sel n base : Nat) =>
    if bc ≠ 0 then some (if write then span base n else [base]) else if sel < n then some [base + sel] else none
  match b with
  | .hqRing => pick (rf s F.HQ_RINGSEL_BCAST (bankInst 0 req.id)) (rf s F.HQ_RINGSEL_INDEX (bankInst 0 req.id)) 2080 0
  | .hqCq => pick (rf s F.HQ_CQSEL_BCAST (bankInst 0 req.id)) (rf s F.HQ_CQSEL_INDEX (bankInst 0 req.id)) 64 0
  | .fabP => pick (rf s F.FAB_PORTSEL_BCAST (bankInst 0 req.id)) (rf s F.FAB_PORTSEL_PORT (bankInst 0 req.id)) 24 0
  | .memCh => pick (rf s F.PTN_CHSEL_BCAST (bankInst i req.id)) (rf s F.PTN_CHSEL_CHANNEL (bankInst i req.id)) 128 (128 * i)
  | .ptnCore => pick (rf s F.CORE_SEL_BCAST (bankInst i req.id)) (rf s F.CORE_SEL_CORE (bankInst i req.id)) 13 (13 * i)
  | _ => some [if banked b off then bankInst i req.id else i]

/-- Is a page's partition unreachable: in reset or P2, but for the frame served from hub retention (R43, R44)? -/
def pageDown (s : State) (b : Blk) (i : Nat) : Bool :=
  match b with
  | .ptn | .ptnCore => false
  | _ => decide (b.pagePart i < 20) && ptnDown s (b.pagePart i)

/-- Does a frame belong to a fenced or disabled core, and so read as zero and ignore writes (R44)? -/
def pageInert (s : State) (b : Blk) (i : Nat) : Bool :=
  match b with
  | .seqQ | .seqF | .mx | .vx | .qnt => decide (2 ≤ role s i)
  | _ => false

/-! ### Update groups (R49 to R55) -/

/-- The update group of a register's block instance. -/
def groupOf (s : State) (b : Blk) (i : Nat) : Option Nat := (ugrpHome b i).map fun h => wbits 3 0 (regLive s h)

/-- The pending copy of a register: a held write, else an unstrobed write, else the live value (R49, R53). -/
def pendWord (s : State) (k : Nat) : Word :=
  match s.heldWrites.reverse.find? (fun h => h.key == k) with
  | some h => h.value
  | none => (aget s.pend k).getD (regLive s k)

/-- Keys with an unstrobed write. -/
def unstrobed (s : State) : List Nat := s.pend.map (·.1) ++ s.heldWrites.map (·.key)

/-- Has a block instance a write that has not been strobed (R50)? -/
def blockPending (s : State) (home : Nat) : Bool :=
  (unstrobed s).any fun k => ((keyBlk k).bind fun b => ugrpHome b (keyInst k)) == some home

/-- How many of the scheduled strobes precede the transfer that a group awaits: the place of its last strobe. -/
def strobeDepth (s : State) (g : Nat) : Nat :=
  (s.strobes.zip (List.range s.strobes.length)).foldl (fun n e => if bit g e.1 then e.2 + 1 else n) 0

/-- Write the pending copy of a register; a write behind a strobe of its group is held (R53). -/
def pendPut (s : State) (b : Blk) (j k : Nat) (w : Word) : State :=
  match groupOf s b j with
  | none => { s with pend := aput s.pend k w }
  | some g =>
    let d := strobeDepth s g
    if d = 0 then { s with pend := aput s.pend k w } else { s with heldWrites := s.heldWrites ++ [⟨k, w, d⟩] }

/-! ### Configuration registers of a partition (R427) -/

/-- Bits of a register that are configuration: RWB fields, RW fields of control and UGRP registers, select registers. -/
def configBits (b : Blk) (off : Nat) : Word :=
  let buf := match findReg b off with
    | some r => r.maskOf Acc.buffered
    | none => 0
  match b with
  | .mem | .sc | .core | .seqQ | .mx | .vx | .qnt => if off = 0x3FC then 15 else buf
  | .memCh => if off = 4 then fmask 12 8 else buf
  | .ptn => if off = 0x10 then 0x8000007F else if off = 0x14 then 0x8000000F else buf
  | .seqF | .ptnCore => 0
  | _ => 0

/-- A core takes the configuration of another, from the hub's retention copy (R427, R434). -/
def copyConfig (s : State) (src dst : Nat) : State :=
  (s.regs.filter fun e => match keyBlk e.1 with
    | some b => [Blk.core, .seqQ, .mx, .vx, .qnt].contains b && keyInst e.1 == src
    | none => false).foldl (fun s e =>
      match keyBlk e.1 with
      | some b =>
        let k := regKey b dst (keyOff e.1)
        let m := configBits b (keyOff e.1)
        regPut s k ((regLive s k &&& ~~~m) ||| (e.2 &&& m))
      | none => s) s

/-! ### Writes -/

/-- Value that a write leaves in the bits that it reaches: base, set, clear and toggle views (R47). -/
def viewWord (view : Nat) (old v : Word) : Word :=
  match view with
  | 0 => v
  | 1 => old ||| v
  | 2 => old &&& ~~~v
  | _ => old ^^^ v

/-- Bits of a register that a write does not reach: because of the unit's state (R260, R305), or because only the device changes them
(R232, R282, R284, R352; FENCE is set by the fence that a write of 1 makes). -/
def frozen (s : State) (b : Blk) (j off : Nat) : Word :=
  match b with
  | .hqRing => if rf s F.HQ_RING_STATE_STATE j = 1 then BitVec.allOnes 32 else 0
  | .hub => if (off = 0x50 ∨ off = 0x54) ∧ rb s F.HUB_JOB_STATUS_ACTIVE 0 then BitVec.allOnes 32 else 0
  | .ptnCore => BitVec.allOnes 32
  | .fab => if off = 8 then BitVec.allOnes 32 else 0
  | .seqQ => if 0x98 ≤ off ∧ off < 0x198 ∧ (off - 0x98) % 32 = 0 then BitVec.allOnes 32 else 0
  | .fabP => if off = 0x34 then BitVec.allOnes 32 else 0
  | .hqCq => if rb s F.HQ_CQ_CTRL_EN j && off != 0x0C then (if off = 0 then ~~~ 1#32 else BitVec.allOnes 32) else 0
  | _ => 0

/-- A two-bit field whose value 3 is reserved reads as another value (R90, R163, R239, R324, R413): field's lowest bit, that value. -/
def reservedThree (b : Blk) (off : Nat) : Option (Nat × Nat) :=
  match b with
  | .hub => if off = 0x40 then some (4, 0) else none
  | .mx => if off = 0 then some (4, 1) else none
  | .vx => if off = 0 then some (4, 0) else none
  | .time => if off = 0 then some (0, 0) else none
  | .seqQ => if 0x80 ≤ off ∧ off < 0x180 ∧ off % 32 = 0 then some (0, 1) else none
  | _ => none

/-- The word that a register holds after a write of a reserved value. -/
def legalWord (b : Blk) (off : Nat) (w : Word) : Word :=
  match reservedThree b off with
  | some (lo, v) => if wbits (lo + 1) lo w = 3 then wput (lo + 1) lo v w else w
  | none => w

/-- Bits of a register that no field names, or a reserved field names. -/
def RegDef.reserved (r : RegDef) : Word := ~~~ r.maskOf (fun a => a != .rbr)

/-- Store a write in the fields of a register that take it (R48, R49, R59). -/
def storeFields (s : State) (b : Blk) (j off view : Nat) (v : Word) : State :=
  match findReg b off with
  | none => s
  | some r =>
    let k := regKey b j off
    let live := regLive s k
    let open_ := ~~~ frozen s b j off
    let m := r.maskOf (fun a => a == .rw || a == .tmr) &&& open_
    let s := if m = 0 then s else regPut s k ((live &&& ~~~m) ||| (viewWord view live v &&& m))
    let mb := r.maskOf Acc.buffered &&& open_
    if mb = 0 then s
    else
      let old := pendWord s k
      pendPut s b j k (legalWord b off ((old &&& ~~~mb) ||| (viewWord view old v &&& mb)))

/-- Does a base-page write change a reserved bit (R58)? -/
def breaksReserved (s : State) (b : Blk) (j off : Nat) (v : Word) : Bool :=
  match findReg b off with
  | none => v != 0
  | some r => ((v ^^^ regLive s (regKey b j off)) &&& r.reserved) != 0

/-- Does the management island hold nothing in reset: the root is on and the package is neither held nor in P3 (R414, R428)? -/
def islandUp (s : State) : Bool := s.power.root && !s.power.held && !s.power.inP3

/-- Does the hub run? In recovery only the management island does (R443). Without the hub no register access completes (log 29). -/
def hubUp (s : State) : Bool := islandUp s && rf s F.SEC_STATUS_BOOT_STATE 0 != 2

/-- A write through a view to a register that lies on a page: refusals of R43 and R44, the test controls of R58, the fields that
store it, and then the effect that the register's own page gives the write (by instance and the live word before it), for every
instance reached. -/
def regWriteTo (s : State) (req : Requester) (b : Blk) (i off view : Nat) (v : Word) (eff : Nat → Word → State → State) :
    Host.Outcome State Fault Refusal :=
  if !hubUp s then .next s
  else if pageDown s b i then .next (accFault s 3 req.id (winOff b i (1024 * view + off)))
  else if pageInert s b i then .next s
  else
    match reached s req b i off true with
    | none => .next (accFault s 6 req.id (winOff b i (1024 * view + off)))
    | some l =>
      if view = 0 ∧ l.any (fun j => breaksReserved s b j off v) then .fault (.testControl (winOff b i off))
      else .next (l.foldl (fun s j => eff j (regLive s (regKey b j off)) (storeFields s b j off view v)) s)

/-- A base-page write by command. -/
def regCmd (s : State) (req : Requester) (b : Blk) (i off : Nat) (v : Word) (eff : Nat → Word → State → State) :
    Host.Outcome State Fault Refusal := regWriteTo s req b i off 0 v eff

/-- A base-page write of the upper half of a 64-bit quantity: where the requester's write holding is tagged with the lower half at
`off - 4`, that half lands with it and the holding is clear (R46). -/
def withHolding (s : State) (req : Requester) (b : Blk) (i off : Nat) : State :=
  match aget s.holding req.id with
  | some (tag, lo) =>
    if tag = winOff b i (off - 4) then
      let s := { s with holding := adel s.holding req.id }
      if pageDown s b i || pageInert s b i then s
      else ((reached s req b i (off - 4) true).getD []).foldl (fun s j => storeFields s b j (off - 4) 0 lo) s
    else s
  | none => s

/-- No effect but what the fields store. -/
def noEffect : Nat → Word → State → State := fun _ _ s => s

end Sys2Proof.Machine
end

