-- ==== Sys2Proof/Machine/Faults.lean ====
section
/-! DEFINITION. Fault history, verdicts and their actions: fencing, Remount, pending channels, port retirement (chapter 17; R345 to R347). -/

namespace Sys2Proof.Machine

/-! ### Rings -/

/-- Ring states (R260). -/
def ringState (s : State) (r : Nat) : Nat := rf s F.HQ_RING_STATE_STATE r

/-- Put a ring into PAUSED with a reason (R254); descriptors whose fetch is outstanding will be dropped (R255). -/
def ringPauseWith (s : State) (r reason : Nat) : State :=
  if ringState s r = 1 then
    let s := wf (wf s F.HQ_RING_STATE_STATE r 2) F.HQ_RING_STATE_REASON r reason
    let tags := (s.host.reads.filter (fun h => match h.use with
      | .descs q _ _ => q == r
      | _ => false)).map (fun h => (r, h.id))
    { s with host := { s.host with dropped := s.host.dropped ++ tags } }
  else s

/-- Pause the eight rings of a logical core. -/
def pauseRingsOf (s : State) (g reason : Nat) : State :=
  (span (8 * g) 8).foldl (fun s r => ringPauseWith s r reason) s

/-! ### CPER records -/

/-- A GUID in the byte order of UEFI: first three parts little-endian. -/
def guid (a b c : Nat) (d : List Nat) : List Byte := toLE 4 a ++ toLE 2 b ++ toLE 2 c ++ d.map (BitVec.ofNat 8)

def guidCreator : List Byte := guid 0x6E1F3A92 0x0C4B 0x4D7E [0x8A, 0x25, 0xF9, 0x3B, 0x1C, 0x60, 0xD8, 0x47]
def guidSection : List Byte := guid 0x7A2E9C41 0x5B3D 0x4F08 [0x9C, 0x6E, 0x1D, 0x4A, 0x8B, 0x73, 0xE2, 0x05]
def guidCmc : List Byte := guid 0x2DCE8BB1 0xBDD7 0x450E [0xB9, 0xAD, 0x9C, 0xF4, 0xEB, 0xD4, 0xF8, 0x90]
def guidMce : List Byte := guid 0xE8F56FFE 0x919C 0x4CC5 [0xBA, 0x88, 0x65, 0xAB, 0xE1, 0x49, 0x13, 0xBB]

/-- Operating seconds (R381). -/
def operS (s : State) : Nat := rf s F.FH_OPER_S_SECONDS 0

/-- Counted events of a signature and unit in the last 24 h (R383). -/
def in24h (s : State) (kind index sig : Nat) : Nat :=
  (s.fh.events.filter (fun e => e.counted && e.kind == kind && e.index == index && e.sig == sig &&
    decide (operS s - e.at_ ≤ 86400))).length

/-- Ledger class of a signature (R374). -/
def sigClass (sig : Nat) : Nat :=
  match sig with
  | 0x01 | 0x02 | 0x08 => 4
  | 0x03 | 0x11 => 3
  | 0x05 | 0x06 | 0x07 | 0x13 => 2
  | 0x21 | 0x22 | 0x23 => 6
  | 0x25 | 0x30 => 1
  | _ => 8

/-- Action code of R395 for a unit kind and signature (R387). -/
def sigAction (kind sig : Nat) : Nat :=
  if sig = 0x23 ∨ sig = 0x24 ∨ sig = 0x25 then 5
  else match kind with
    | 1 => 1
    | 2 => 3
    | 3 => 2
    | 4 => 4
    | _ => 0

/-- What a CPER record tells beside the state (R395): detail words and hang facts. -/
structure CperInfo where
  tag : Nat
  merged : Nat
  dl : Bool
  hangKind : Nat
  detail : List Nat
  deriving DecidableEq, Repr

def CperInfo.plain : CperInfo := ⟨0, 1, false, 0, []⟩

/-- A CPER record (R394 to R396): header of 128 bytes, section descriptor of 72, vendor section of 96. -/
def cperBytes (s : State) (kind index sig verdict : Nat) (i : CperInfo) : List Byte :=
  let cls := sigClass sig
  let sev := if verdict = 1 ∨ verdict = 5 then 3 else if cls = 1 then 1 else if cls = 8 then 2 else 0
  let z (n : Nat) : List Byte := List.replicate n 0
  let notify := if sev = 2 then guidCmc else guidMce
  let w := windowStep s
  let transit := (cls == 1 || cls == 2 || cls == 6) && transitMarked s
  let assigned := rb s F.FAB_ADDR_ASSIGNED 0
  let action := if verdict = 2 ∨ verdict = 3 ∨ verdict = 6 then sigAction kind sig else 0
  let head := toLE 4 0x52455043 ++ toLE 2 0x0100 ++ toLE 4 0xFFFFFFFF ++ toLE 2 1 ++ toLE 4 sev ++ toLE 4 0 ++ toLE 4 296
    ++ z 8 ++ z 16 ++ z 16 ++ guidCreator ++ notify ++ toLE 8 (rf2 s F.FH_EVENTS_LO_COUNT F.FH_EVENTS_HI_COUNT 0) ++ z 4 ++ z 8 ++ z 12
  let desc := toLE 4 0xC8 ++ toLE 4 96 ++ toLE 2 0x0100 ++ toLE 1 2 ++ z 1 ++ z 4 ++ guidSection ++ z 16 ++ toLE 4 sev
    ++ padTo 20 ([0x53, 0x48, 0x50, 0x2D, 0x4A, 0x32, 0x30].map (BitVec.ofNat 8))
  let body := toLE 4 (1 + cls * 2 ^ 8 + sig * 2 ^ 16 + kind * 2 ^ 24)
    ++ toLE 4 (index + verdict * 2 ^ 16 + action * 2 ^ 20 + b2n transit * 2 ^ 24 + b2n (interludeLive s) * 2 ^ 25
        + b2n i.dl * 2 ^ 26 + i.hangKind * 2 ^ 28)
    ++ toLE 8 Config.serial
    ++ toLE 8 ((if assigned then rf s F.FAB_ADDR_COORD 0 else 0xFFF) + rf s F.RT_SLICE_SLICE_ID 0 * 2 ^ 16)
    ++ toLE 8 s.time.now
    ++ toLE 8 ((w.map (·.step)).getD 0xFFFFFFFFFFFF + (w.map (·.attempt)).getD 0 * 2 ^ 48)
    ++ toLE 4 (rf s F.HUB_SR_EPOCH_EPOCH 0) ++ toLE 4 i.tag
    ++ toLE 4 (min i.merged 0xFFFF + min (in24h s kind index sig) 255 * 2 ^ 16)
    ++ toLE 4 (operS s) ++ (padTo 32 (i.detail.flatMap (toLE 4))) ++ toLE 4 (rf s F.IST_PKG_ID_VALUE 0) ++ z 4
  head ++ desc ++ padTo 96 body

/-- Records of the export ring that neither were sent and acknowledged nor sent with EXPORT_HOST clear (R397). -/
def cperKept (s : State) : List (Nat × Cper) :=
  s.fh.cper.filter (fun e => !(e.2.sent && (!rb s F.FH_CTRL_EXPORT_HOST 0 || decide (e.1 < rf s F.FH_CPER_HEAD_HEAD 0))))

/-- Enter a record into the export ring of 256; a full ring drops its oldest (R397). -/
def cperPush (s : State) (kind index sig verdict : Nat) (i : CperInfo) : State :=
  let n := rf s F.FH_CPER_TAIL_TAIL 0
  let kept := cperKept s ++ [(n, ⟨cperBytes s kind index sig verdict i, false⟩)]
  let s := wf s F.FH_CPER_TAIL_TAIL 0 (n + 1)
  if 256 < kept.length then
    ev { s with fh := { s.fh with cper := kept.drop 1 } } F.FH_EVENT_EXPORT_OVF 0
  else { s with fh := { s.fh with cper := kept } }

/-! ### Fencing and Remount -/

/-- Remove what a core that stops holds: its queues and its descriptors in flight, which never complete (R345). -/
def dropWork (s : State) (g : Nat) : State :=
  let c := getCore s g
  setCore s g { c with queues := List.replicate 8 QueueSt.reset, flights := [] }

/-- Return the registers of a page of one core to reset, pending copies included. -/
def pageReset (s : State) (b : Blk) (i : Nat) : State :=
  let out := fun (k : Nat) => decide (keyBlk k = some b ∧ keyInst k = i)
  { s with
    regs := s.regs.filter (fun e => !out e.1)
    pend := s.pend.filter (fun e => !out e.1)
    tmr := s.tmr.filter (fun e => !out (e.1 / 32))
    seqTicked := s.seqTicked.filter (fun k => !out k) }

/-- Reset a core's sequencer, array, vector engine and store (R346). -/
def coreReset (s : State) (g : Nat) : State :=
  let s := [Blk.core, .seqQ, .seqF, .mx, .vx, .qnt].foldl (fun s b => pageReset s b g) s
  setCore s g CoreSt.reset

/-- The partition became degraded or failed (R34, R347). -/
def degraded (s : State) (p : Nat) : State :=
  waybillDue (warnTrigger (ev (ev s F.PTN_EVENT_DEGRADED p) F.HUB_SR_EVENT_DEVICE_DEGRADED 0) 4)

/-- Lowest spare of a partition. -/
def lowestSpare (s : State) (p : Nat) : Option Nat := (span (13 * p) 13).find? (fun g => role s g == 1)

/-- Substitute the lowest spare for a fenced core (R346); without a spare the Remount fails (R347). -/
def remountCore (s : State) (g : Nat) : State :=
  let p := partOf g
  match lowestSpare s p with
  | none => degraded (ev s F.PTN_EVENT_REMOUNT_FAIL p) p
  | some sp =>
    let s := copyConfig (coreReset s sp) g sp
    let s := wf s F.PTN_CORE_STATE_ROLE sp 0
    let s := wf s F.PTN_CORE_STATE_STOOD_BY g sp
    waybillDue (ev s F.PTN_EVENT_REMOUNT_DONE p)

/-- Fence a core (R345), and Remount the logical core that it ran when AUTO_REMOUNT is set (R346). -/
def fenceCore (s : State) (g : Nat) : State :=
  if role s g = 2 ∨ role s g = 3 then wf s F.PTN_CORE_CTRL_FENCE g 1
  else
    let l := logical s g
    let worked := role s g == 0
    let s := wf s F.PTN_CORE_CTRL_FENCE g 1
    let s := dropWork s g
    let s := if worked then pauseRingsOf s l 17 else s
    let s := raise s E.CORE_LOSS (U.core g) 0 0
    let s := ev s F.PTN_EVENT_CORE_LOSS (partOf g)
    let s := wf s F.PTN_CORE_STATE_ROLE g 2
    let s := if l ≠ g then wf s F.PTN_CORE_STATE_STOOD_BY l 0x1FF else s
    let s := waybillDue s
    if worked then
      (if rb s F.HUB_SR_CTRL_AUTO_REMOUNT 0 then remountCore s l else degraded s (partOf g))
    else s

/-! ### Channels and ports -/

/-- A channel takes a verdict that waits for the stack's next training (R171). -/
def chanPending (s : State) (p k : Nat) : State :=
  let c := 128 * p + k
  if rf s F.MEM_CH_STATE_STATE c = 0 then
    let s := wf s F.MEM_CH_STATE_STATE c 1
    ev (wf s F.MEM_STATUS_PENDING p (rf s F.MEM_STATUS_PENDING p + 1)) F.MEM_EVENT_PENDING p
  else ev s F.MEM_EVENT_PENDING p

/-- Set one bit of an event field (R56). -/
def evBit (s : State) (f : Fld) (i b : Nat) : State := seqAdvance (wf s f i (putBits b b 1 (rf s f i))) (f.key i)

/-- Set an event of a port, and its bit in FAB_EVENT (R283). -/
def portEv (s : State) (n : Nat) (f : Fld) (any : Nat) : State := evBit (ev s f n) F.FAB_EVENT_PORT_ANY 0 any

/-- A packet that a port drops is counted against its cause (R276). -/
def portDrop (s : State) (n cause k : Nat) : State :=
  if k = 0 then s else portEv (bumpSat s (F.FAB_P_DROP_COUNT.nth (cause - 1)) n k) n F.FAB_P_EVENT_DROP 4

/-- The packets that a port loses with its link: those with a flit in the retry buffer, and those received in part. -/
def lostPackets (p : PortSt) : Nat :=
  (p.retry.map fun b => ((List.range 8).filter fun i => bit (6 * i + 5) b.info && bits (6 * i + 2) (6 * i) b.info != 7).length).foldl (· + ·) 0
    + (p.part.filter fun e => !e.2.isEmpty).length

/-- Retire a port (R263): its link goes down with it. -/
def portRetire (s : State) (n : Nat) : State :=
  let was := rf s F.FAB_P_STATE_LSTATE n == 3
  let p := getPort s n
  let s := portDrop s n 1 (lostPackets p)
  let s := setPort s n { PortSt.reset with inq := p.inq, wire := p.wire, idents := p.idents }
  let s := if was then timePortDown (portEv s n F.FAB_P_EVENT_DOWN 0) n else s
  let s := wf s F.FAB_P_STATE_LSTATE n 5
  let s := wf s F.FAB_STATUS_UP 0 (putBits n n 0 (rf s F.FAB_STATUS_UP 0))
  waybillDue s

/-- Make the action of a verdict follow (R387). -/
def verdictAct (s : State) (kind index : Nat) : State :=
  match kind with
  | 1 => fenceCore s index
  | 2 => chanPending s (index / 128) (index % 128)
  | 3 => chanPending s (index / 19 / 128) (index / 19 % 128)
  | 4 => if index < 24 then portRetire s index else s
  | _ => s

/-! ### Verdicts and events -/

/-- Does a permanent verdict of any signature stand against a unit? -/
def standing (s : State) (kind index : Nat) : Bool :=
  s.fh.verdicts.any (fun v => v.kind == kind && v.index == index && v.applied)

/-- Permanent verdicts in force (R399). -/
def verdictCount (s : State) : Nat := (s.fh.verdicts.filter (fun v => v.applied)).length

/-- Enter a verdict in the table (R383, R384): code 2 by count, 3 by retest, 6 by request; with AUTO_VERDICT clear those by count
and by retest are proposed, code 4. Answers whether an action follows. -/
def enterVerdict (s : State) (kind index sig code : Nat) (i : CperInfo) : State × Bool :=
  if s.fh.verdicts.any (fun v => v.kind == kind && v.index == index && v.sig == sig) then (s, false)
  else
    let proposed := decide (code ≠ 6) && !rb s F.FH_CTRL_AUTO_VERDICT 0
    let v : Verdict := ⟨kind, index, sig, operS s, tick s, code, !proposed⟩
    let code := if proposed then 4 else code
    let s := { s with fh := { s.fh with
      verdicts := s.fh.verdicts ++ [v]
      retests := s.fh.retests.filter (· != (kind, index, sig))
      digestStale := true } }
    let s := wf s F.FH_STATUS_VERDICTS 0 (verdictCount s)
    let s := wf s F.FH_VERDICT_INFO_SIGNATURE 0 sig
    let s := wf s F.FH_VERDICT_INFO_UNIT_KIND 0 kind
    let s := wf s F.FH_VERDICT_INFO_VERDICT 0 code
    let s := wf s F.FH_VERDICT_INFO_INDEX 0 index
    let s := ev s F.FH_EVENT_VERDICT 0
    let s := cperPush s kind index sig code i
    if proposed then (s, false) else (warnTrigger s 2, true)

/-- Record a verdict, and make its action follow at once unless it is proposed. -/
def recordVerdict (s : State) (kind index sig code : Nat) (i : CperInfo) : State :=
  let (s, acts) := enterVerdict s kind index sig code i
  if acts then verdictAct s kind index else s

/-- Signatures whose events are counted (R387). -/
def sigCounted (sig : Nat) : Bool := [0x01, 0x02, 0x03, 0x04, 0x05, 0x10, 0x11, 0x12, 0x20, 0x21, 0x22, 0x23, 0x24].contains sig

/-- Signatures that have a retest (R387). -/
def sigRetest (sig : Nat) : Bool :=
  [0x01, 0x02, 0x03, 0x04, 0x05, 0x07, 0x10, 0x11, 0x12, 0x17, 0x20, 0x21, 0x22, 0x23, 0x24].contains sig

/-- Correctable signatures, which make an event at a threshold in the hour (R382). -/
def sigThreshold (sig : Nat) : Bool := [0x04, 0x10, 0x12, 0x20].contains sig

/-- Queue a retest once. -/
def queueRetest (s : State) (kind index sig : Nat) : State :=
  if s.fh.retests.contains (kind, index, sig) then s
  else { s with fh := { s.fh with retests := s.fh.retests ++ [(kind, index, sig)] } }

/-- Enter a new fault-history event (R382, R383): CPER record, retest after the first counted event, verdict after the
third counted one in 24 h. -/
def newEvent (s : State) (kind index sig : Nat) (counts : Bool) (i : CperInfo) : State :=
  let sameTick := s.fh.verdicts.any (fun v => v.kind == kind && v.index == index && v.applied && v.tick == tick s)
  let counted := counts && sigCounted sig && !sameTick
  let o := operS s
  let s := { s with fh := { s.fh with events := s.fh.events ++ [⟨kind, index, sig, o, o, i.merged, counted⟩] } }
  let s := bumpIf s F.FH_CTRL_CNT_EN F.FH_EVENTS_LO_COUNT 0 1
  let s := cperPush s kind index sig 0 i
  if counted then
    let n := in24h s kind index sig
    let s := if sigRetest sig then queueRetest s kind index sig else s
    if 3 ≤ n then recordVerdict s kind index sig 2 i else s
  else s

/-- Correctable reports of a unit's signature so far in the hour. -/
def ceCount (s : State) (kind index sig : Nat) : Nat :=
  match s.fh.ce.find? (fun e => e.1 == kind && e.2.1 == index && e.2.2.1 == sig) with
  | some e => e.2.2.2
  | none => 0

/-- A detector's report becomes a fault-history event (R382): a correctable signature at its threshold in the operating
hour, another merged with the last event of the unit's signature when less than MERGE_S seconds have passed. -/
def fhReport (s : State) (kind index sig : Nat) (counts : Bool) (i : CperInfo) : State :=
  let o := operS s
  if sigThreshold sig then
    let hour := o / 3600
    let s := if s.fh.ceHour = hour then s else { s with fh := { s.fh with ceHour := hour, ce := [] } }
    let n := ceCount s kind index sig + 1
    let rest := s.fh.ce.filter (fun e => !(e.1 == kind && e.2.1 == index && e.2.2.1 == sig))
    let s := { s with fh := { s.fh with ce := rest ++ [(kind, index, sig, n)] } }
    if n = max 1 (rf s F.FH_CTRL_CE_EVENT 0) then newEvent s kind index sig counts i else s
  else
    let fits := fun (e : FhEvent) => e.kind == kind && e.index == index && e.sig == sig &&
      decide (o - e.last < rf s F.FH_CTRL_MERGE_S 0)
    if s.fh.events.any fits then
      { s with fh := { s.fh with events := s.fh.events.map (fun e =>
          if fits e then { e with last := o, merged := e.merged + 1 } else e) } }
    else newEvent s kind index sig counts i

/-- A retest of a unit for a signature ended (R383, R385): a failure makes the signature permanent. -/
def retestEnd (s : State) (kind index sig : Nat) (pass : Bool) : State :=
  let s := { s with fh := { s.fh with retests := s.fh.retests.filter (· != (kind, index, sig)) } }
  if pass then s else recordVerdict (ev s F.FH_EVENT_RETEST_FAIL 0) kind index sig 3 CperInfo.plain

/-- The array's or the vector engine's residue mismatch of a core: ledger once a tick, fault history each time (R85, R161). -/
def residueMismatch (s : State) (vector : Bool) (g tag : Nat) (detail : List Nat) : State :=
  let e := if vector then E.RESIDUE_VECTOR else E.RESIDUE_ARRAY
  let s := raiseOnce s e (U.core g) tag 0
  fhReport s 1 g (if vector then 2 else 1) true { CperInfo.plain with tag := tag, detail := detail }

end Sys2Proof.Machine
end

