-- ==== Sys2Proof/Machine/Memory.lean ====
section
/-! DEFINITION. Device memory: the stacks with their sector code and interleave, and the shared-cache slices (chapter 08, R164 to R181). -/

namespace Sys2Proof.Machine

/-- Where a device address lies (R164). -/
inductive Target where
  | stack (p off : Nat)
  | pin (p off : Nat)
  | none
  deriving DecidableEq, Repr

/-- Decode a device address (R164). -/
def target (a : Nat) : Target :=
  if a < 0x14000000000 then .stack (a / 2 ^ 36) (a % 2 ^ 36)
  else if 0x20000000000 ≤ a ∧ a < 0x20000000000 + 20 * 2 ^ 24 then
    .pin ((a - 0x20000000000) / 2 ^ 24) ((a - 0x20000000000) % 2 ^ 24)
  else .none

/-- The partition whose slice owns an address (R164). -/
def ownerOf (a : Nat) : Option Nat :=
  match target a with
  | .stack p _ => some p
  | .pin p _ => some p
  | .none => Option.none

/-- Device address of a stack offset. -/
def stackAddr (p off : Nat) : Nat := p * 2 ^ 36 + off

/-! ### Interleave -/

/-- Mapped-out channels of a stack, ascending (R169). -/
def outList (s : State) (p : Nat) : List Nat :=
  if rf s F.MEM_STATUS_CH_OUT p = 0 then []
  else (List.range 128).filter fun k => rf s F.MEM_CH_STATE_STATE (128 * p + k) == 2

/-- USER_MIB of a stack (R35). -/
def userMib (s : State) (p : Nat) : Nat := 65536 - 512 * rf s F.MEM_STATUS_CH_OUT p

/-- Channel and channel sector of a stack offset under a list of mapped-out channels (R169). -/
def interleave (out : List Nat) (a : Nat) : Nat × Nat :=
  let g := a / 512
  let sec := a / 32 % 16
  let row := g / 128
  let pos := g % 128
  let ch := (pos + Nat.xor (Nat.xor row (row / 128)) (row / 16384)) % 128
  let n := out.length
  if out.contains ch then
    let i := row * n + out.idxOf ch
    let live := (List.range 128).filter fun k => !out.contains k
    (live.getD (i % (128 - n)) 0, (2 ^ 20 - 8192 * n + i / (128 - n)) * 16 + sec)
  else (ch, row * 16 + sec)

/-- Channel of a stack offset. -/
def channelOf (s : State) (p off : Nat) : Nat := (interleave (outList s p) off).1

/-! ### Sectors of a stack -/

/-- SOURCE of MEM_UE_INFO (R191): 0 core, 1 hub, 2 remote tile, 3 maintenance. -/
def sourceCode (p : Nat) : Source → Nat
  | .core g => if tileOf (partOf g) = tileOf p then 0 else 2
  | .hub => 1
  | .maint => 3

/-- What a read found uncorrectable (R174 to R176). -/
def noteUe (s : State) (p off : Nat) (src : Source) (tag : Nat) (part scrub : Bool) : State :=
  let k := channelOf s p off
  let c := 128 * p + k
  let code := sourceCode p src
  let tag := match src with
    | .core _ => tag
    | _ => 0
  let addr := stackAddr p (off - off % 32)
  let fresh := !rb s F.MEM_EVENT_UE p
  let s := bumpIf s F.MEM_CTRL_CNT_EN F.MEM_UE_COUNT_LO_COUNT p 1
  let s := bumpSat s F.MEM_CH_UE_COUNT c 1
  let s := if fresh then
      let s := wf s F.MEM_UE_INFO_SCRUB p (b2n scrub)
      let s := wf s F.MEM_UE_INFO_PARTIAL p (b2n part)
      let s := wf s F.MEM_UE_INFO_SOURCE p code
      let s := wf s F.MEM_UE_INFO_CORE p (match src with
        | .core g => if code = 0 then g else 0
        | _ => 0)
      let s := wf s F.MEM_UE_INFO_CHANNEL p k
      wf (wf2 s F.MEM_UE_ADDR_LO_ADDR F.MEM_UE_ADDR_HI_ADDR p addr) F.MEM_UE_TAG_TAG p tag
    else s
  let s := ev s F.MEM_EVENT_UE p
  let s := if scrub then ev s F.MEM_EVENT_SCRUB_UE p else s
  let s := raise s E.UE_MEMORY (U.chan p k) tag 0
  let s := { s with fh := { s.fh with reread := aput s.fh.reread c (off - off % 32) } }
  fhReport s 2 c 0x11 true
    { CperInfo.plain with tag := tag, detail := [(regLive s (F.MEM_UE_INFO_SCRUB.key p)).toNat, addr % 2 ^ 32, addr / 2 ^ 32] }

/-- What a read found corrected: symbols at these positions (R173). -/
def noteCe (s : State) (p off : Nat) (fixed : List Nat) : State :=
  let k := channelOf s p off
  let c := 128 * p + k
  let spared := rf s F.MEM_CH_STATE_SPARE_FOR c
  let lanes := ((fixed.map symbolLane).map fun l => if l = spared then 18 else l).eraseDups
  let s := bumpIf s F.MEM_CTRL_CNT_EN F.MEM_CE_COUNT_LO_COUNT p 1
  let s := bumpSat s F.MEM_CH_CE_COUNT c 1
  let s := lanes.foldl (fun s l => if l < 18 then
      wf s F.MEM_CH_LANE_ERR_LANES c (putBits l l 1 (rf s F.MEM_CH_LANE_ERR_LANES c)) else s) s
  let s := ev s F.MEM_EVENT_CE p
  if raisedThisTick s E.CE_MEMORY (U.chan p k) then s
  else
    let s := raise s E.CE_MEMORY (U.chan p k) 0 0
    let (kind, idx, sig) := match lanes with
      | [l] => (3, 19 * c + l, 0x10)
      | _ => (2, c, 0x12)
    let s := if kind = 2 then { s with fh := { s.fh with reread := aput s.fh.reread c (off - off % 32) } } else s
    fhReport s kind idx sig true
      { CperInfo.plain with detail := [rf s F.MEM_CH_LANE_ERR_LANES c, ceCount s kind idx sig + 1, (regLive s (F.MEM_CH_STATE_STATE.key c)).toNat] }

/-- The stored codeword of a sector. -/
def storedWord (s : State) (p off : Nat) : List Nat :=
  let d := getPart s p
  rsWord (mrdN d.stack (off - off % 32) 32) (sget (fun _ => 0) d.check (off / 32))

/-- Write a sector: data and check symbols afresh (R167, R175). -/
def stackWrite (s : State) (p off : Nat) (data : List Byte) : State :=
  let d := getPart s p
  let s := setPart s p { d with
    stack := mwrN d.stack (off - off % 32) (padTo 32 data)
    check := sput (fun _ => 0) d.check (off / 32) (rsPack (rsCheck (padTo 32 data))) }
  bumpIf s F.MEM_CTRL_CNT_EN F.MEM_WR_SECTORS_LO_COUNT p 1

/-- Read a sector: `wire` gives the symbols that the read damages on the way. Answers the data and whether the sector was
not uncorrectable (R168, R173, R174). -/
def stackRead (s : State) (p off : Nat) (src : Source) (tag : Nat) (part scrub : Bool) (wire : List (Nat × Byte)) :
    State × List Byte × Bool :=
  let s := bumpIf s F.MEM_CTRL_CNT_EN F.MEM_RD_SECTORS_LO_COUNT p 1
  match rsDecode (rb s F.MEM_STATUS_ECC2_LIVE p) (rsFix (storedWord s p off) (wire.map fun e => (e.1, e.2.toNat))) with
  | .good d [] => (s, d, true)
  | .good d fixed => (noteCe s p off fixed, d, true)
  | .bad d => (noteUe s p off src tag part scrub, d, false)

/-! ### Lines of a slice -/

/-- Set of a stack offset (R177). -/
def setOf (off : Nat) : Nat := Nat.xor (Nat.xor (off / 2 ^ 7) (off / 2 ^ 20)) (off / 2 ^ 33) % 8192

def getLine (s : State) (p lo : Nat) : Option Line := (getPart s p).lines.find? fun l => l.off == lo

/-- Replace a line in its place. -/
def putLine (s : State) (p : Nat) (l : Line) : State :=
  let d := getPart s p
  setPart s p { d with lines := d.lines.map fun m => if m.off = l.off then l else m }

/-- Take a line out. -/
def dropLine (s : State) (p lo : Nat) : State :=
  let d := getPart s p
  setPart s p { d with lines := d.lines.filter fun m => m.off != lo }

/-- Make a line the most recent. -/
def frontLine (s : State) (p : Nat) (l : Line) : State :=
  let d := getPart s p
  setPart s p { d with lines := l :: d.lines.filter fun m => m.off != l.off }

/-- Make a line the least recent. -/
def backLine (s : State) (p : Nat) (l : Line) : State :=
  let d := getPart s p
  setPart s p { d with lines := (d.lines.filter fun m => m.off != l.off) ++ [l] }

/-- Write the dirty sectors of a line to the stack (R179). -/
def writeBackLine (s : State) (p : Nat) (l : Line) : State :=
  (List.range 4).foldl (fun s k => if bit k l.dirty then
      bumpIf (stackWrite s p (l.off + 32 * k) (slice (32 * k) 32 l.data)) F.SC_CTRL_CNT_EN F.SC_WB_SECTORS_LO_COUNT p 1
    else s) s

/-- Pinned ways in effect (R178). -/
def pinLive (s : State) (p : Nat) : Nat := rf s F.SC_STATUS_PIN_LIVE p

/-- Keep-class lines that a set may hold (R180). -/
def keepLimit (s : State) (p : Nat) : Nat :=
  min (min (max 1 (rf s F.SC_CTRL_KEEP_WAYS p)) 16) (20 - pinLive s p)

/-- Ways that a change of PIN_WAYS is working on (R178). -/
def changingWays (s : State) (p : Nat) : List Nat :=
  if rb s F.SC_STATUS_PIN_CHANGING p then span (pinLive s p) (min 16 (rf s F.SC_CTRL_PIN_WAYS p) - pinLive s p) else []

/-- Demote the least recent keep-class line of a set that holds its limit (R180). -/
def demoteKeep (s : State) (p set : Nat) : State :=
  let ks := (getPart s p).lines.filter fun l => setOf l.off == set && l.keep
  if keepLimit s p ≤ ks.length then
    match ks.getLast? with
    | some l => putLine s p { l with keep := false }
    | none => s
  else s

/-- Make room for a line in its set: its way, or none where no way may be taken (R179, R180; log 14). -/
def allocate (s : State) (p lo hint : Nat) : State × Bool :=
  let set := setOf lo
  let s := if hint = 2 then demoteKeep s p set else s
  let ls := (getPart s p).lines.filter fun l => setOf l.off == set
  let bad := changingWays s p
  let enter := fun (s : State) (way : Nat) =>
    let l : Line := ⟨lo, way, hint == 2, hint == 1 || hint == 3, 0, 0, List.replicate 128 0⟩
    (if hint = 1 ∨ hint = 3 then backLine s p l else frontLine s p l, true)
  let evict := fun (l : Line) => enter (dropLine (writeBackLine s p l) p l.off) l.way
  match ls.getLast? with
  | some l =>
    if l.stream && !bad.contains l.way then evict l
    else
      let used := ls.map (·.way)
      match (span (pinLive s p) (20 - pinLive s p)).filter fun w => !used.contains w && !bad.contains w with
      | w :: _ => enter s w
      | [] =>
        let cands := ls.filter fun l => !l.keep && !bad.contains l.way
        if cands.isEmpty then (s, false)
        else
          match cands[Config.lruVictim (cands.map (·.way)) % cands.length]? with
          | some l => evict l
          | none => (s, false)
  | none =>
    match (span (pinLive s p) (20 - pinLive s p)).filter fun w => !bad.contains w with
    | w :: _ => enter s w
    | [] => (s, false)

/-- A use of a line that is held: its place in the recency order and its class (R180). -/
def touch (s : State) (p : Nat) (l : Line) (hint : Nat) : State :=
  match hint with
  | 0 => frontLine s p { l with stream := false }
  | 2 => if l.keep then frontLine s p l else frontLine (demoteKeep s p (setOf l.off)) p { l with keep := true, stream := false }
  | _ => s

/-- Bring a line in, or use the line that is held; false where the access goes past the slice. -/
def reach (s : State) (p lo hint : Nat) : State × Bool :=
  match getLine s p lo with
  | some l => (touch s p l hint, true)
  | none => allocate s p lo hint

/-- Wire damage of one sector out of that of a line. -/
def wireOf (k : Nat) (wire : List (Nat × Byte)) : List (Nat × Byte) :=
  (wire.filter fun e => e.1 / 36 == k).map fun e => (e.1 % 36, e.2)

/-- A sector's data: from the line where it is valid, else from the stack. -/
def sectorData (s : State) (p lo k : Nat) (src : Source) (tag : Nat) (part : Bool) (wire : List (Nat × Byte)) :
    State × List Byte × Bool :=
  match getLine s p lo with
  | some l =>
    if bit k l.valid then
      (bumpIf s F.SC_CTRL_CNT_EN F.SC_HIT_SECTORS_LO_COUNT p 1, slice (32 * k) 32 l.data, true)
    else
      stackRead (bumpIf s F.SC_CTRL_CNT_EN F.SC_MISS_SECTORS_LO_COUNT p 1) p (lo + 32 * k) src tag part false (wireOf k wire)
  | none =>
    stackRead (bumpIf s F.SC_CTRL_CNT_EN F.SC_MISS_SECTORS_LO_COUNT p 1) p (lo + 32 * k) src tag part false (wireOf k wire)

/-- Hold a sector in the line; where the slice holds no line, a written sector goes to the stack. -/
def sectorHold (s : State) (p lo k : Nat) (d : List Byte) (dirty : Bool) : State :=
  match getLine s p lo with
  | some l =>
    putLine s p { l with
      valid := putBits k k 1 l.valid
      dirty := if dirty then putBits k k 1 l.dirty else l.dirty
      data := patch (32 * k) (padTo 32 d) l.data }
  | none => if dirty then stackWrite s p (lo + 32 * k) d else s

/-- Invalidate sectors of a line, dirty or not (R180). -/
def sectorsDrop (s : State) (p lo : Nat) (ks : List Nat) : State :=
  match getLine s p lo with
  | some l =>
    let v := ks.foldl (fun v k => putBits k k 0 v) l.valid
    if v = 0 then dropLine s p lo
    else putLine s p { l with valid := v, dirty := ks.foldl (fun v k => putBits k k 0 v) l.dirty }
  | none => s

/-- Sectors of its line that an access touches. -/
def sectorsOf (off len : Nat) : List Nat := span (off % 128 / 32) ((off % 128 + len - 1) / 32 + 1 - off % 128 / 32)

/-- Read inside one line of a stack (R179, R180). -/
def lineRead (s : State) (p off len hint : Nat) (src : Source) (tag : Nat) (wire : List (Nat × Byte)) : State × List Byte :=
  let lo := off - off % 128
  let ks := sectorsOf off len
  let (s, held) := if hint = 3 then (s, false) else reach s p lo hint
  let (s, d) := ks.foldl (fun (acc : State × List Byte) k =>
    let (s, d, _) := sectorData acc.1 p lo k src tag false wire
    (if held then sectorHold s p lo k d false else s, acc.2 ++ d)) (s, [])
  (if hint = 3 then sectorsDrop s p lo ks else s, slice (off % 32) len d)

/-- Write inside one line of a stack (R175, R179, R180). -/
def lineWrite (s : State) (p off : Nat) (data : List Byte) (hint : Nat) (src : Source) (tag : Nat) (wire : List (Nat × Byte)) : State :=
  let lo := off - off % 128
  let a := off % 128
  let z := a + data.length
  let (s, _) := reach s p lo hint
  (sectorsOf off data.length).foldl (fun s k =>
    let from_ := max a (32 * k)
    let part := slice (from_ - a) (min z (32 * k + 32) - from_) data
    if part.length = 32 then
      let had := match getLine s p lo with
        | some l => bit k l.valid
        | none => false
      let s := bumpIf s F.SC_CTRL_CNT_EN (if had then F.SC_HIT_SECTORS_LO_COUNT else F.SC_MISS_SECTORS_LO_COUNT) p 1
      sectorHold s p lo k part true
    else
      let (s, d, ok) := sectorData s p lo k src tag true wire
      if ok then sectorHold s p lo k (patch (from_ - 32 * k) part d) true else s) s

/-! ### Faults of an access -/

/-- SC_FAULT_INFO and SC_FAULT_ADDR hold while RED_FAULT or RANGE is set (R192). -/
def scLatch (s : State) (p reason source addr : Nat) : State :=
  if rb s F.SC_EVENT_RED_FAULT p || rb s F.SC_EVENT_RANGE p then s
  else
    let s := wf (wf s F.SC_FAULT_INFO_REASON p reason) F.SC_FAULT_INFO_SOURCE p source
    wf2 s F.SC_FAULT_ADDR_LO_ADDR F.SC_FAULT_ADDR_HI_ADDR p addr

/-- Requester index that a slice latches; for a requester that is no core the manual gives none: a free value (log 7). -/
def requesterIndex (s : State) : Source → Nat × State
  | .core g => (g, s)
  | _ => let (v, s) := fresh s; (v % 65536, s)

/-- The slice that handles an access to a reserved address (R165). -/
def reservedSlice : Source → Nat
  | .core g => partOf g
  | _ => 0

/-- A range fault at a slice (R165). -/
def rangeFault (s : State) (p addr : Nat) (src : Source) (tag : Nat) : State :=
  let (idx, s) := requesterIndex s src
  let s := scLatch s p 0 idx addr
  raise (ev s F.SC_EVENT_RANGE p) E.RANGE_FAULT (U.part p) tag 0

/-- Does a target lie outside the stack or the pinned region (R165)? -/
def outOfRange (s : State) : Target → Bool
  | .stack p off => decide (userMib s p * 2 ^ 20 ≤ off)
  | .pin p off => decide (pinLive s p * 2 ^ 20 ≤ off)
  | .none => true

/-! ### Pinned ways -/

/-- A strobe changed PIN_WAYS: the slice starts its work (R178). -/
def pinChangeStart (s : State) (p : Nat) : State :=
  if min 16 (rf s F.SC_CTRL_PIN_WAYS p) = pinLive s p then s else wf s F.SC_STATUS_PIN_CHANGING p 1

/-- The work of a change of PIN_WAYS (R178): growing, the lines in the new pinned ways are written back and dropped;
shrinking, the content of the ways that leave is discarded. -/
def pinRework (s : State) (p : Nat) : State :=
  let old := pinLive s p
  let new := min 16 (rf s F.SC_CTRL_PIN_WAYS p)
  let gone := (getPart s p).lines.filter fun l => decide (l.way < new)
  let s := gone.foldl (fun s l => dropLine (writeBackLine s p l) p l.off) s
  let d := getPart s p
  let s := if new < old then setPart s p { d with pinned := mclear d.pinned (new * 2 ^ 20) ((old - new) * 2 ^ 20) } else s
  wf (wf s F.SC_STATUS_PIN_LIVE p new) F.SC_STATUS_PIN_CHANGING p 0

/-- The slice has nothing to change any more: an access to the pinned region has waited for it (R178). -/
def pinSettle (s : State) (p : Nat) : State := if rb s F.SC_STATUS_PIN_CHANGING p then pinRework s p else s

/-! ### Accesses -/

/-- `n` free bytes (log 7). -/
def freshBytes (s : State) (n : Nat) : List Byte × State := let (v, s) := fresh s; (toLE n v, s)

/-- One access inside a line, as its owning slice performs it (R165, R178 to R181). Answers the data of a read. -/
def perform (s : State) (r : LineReq) (wire : List (Nat × Byte)) : State × List Byte :=
  let zeros := if r.write then [] else List.replicate r.len 0
  match target r.addr with
  | .none => (rangeFault s (reservedSlice r.src) r.addr r.src r.tag, zeros)
  | .stack p off =>
    if ptnDown s p then
      let s := raise s E.UE_MEMORY (U.part p) r.tag 0
      if r.write then (s, []) else let (d, s) := freshBytes s r.len; (s, d)
    else if outOfRange s (.stack p off) then (rangeFault s p r.addr r.src r.tag, zeros)
    else if r.write then (lineWrite s p off r.data r.hint r.src r.tag wire, [])
    else lineRead s p off r.len r.hint r.src r.tag wire
  | .pin p off =>
    if ptnDown s p then
      let s := raise s E.UE_MEMORY (U.part p) r.tag 0
      if r.write then (s, []) else let (d, s) := freshBytes s r.len; (s, d)
    else
      let s := pinSettle s p
      if outOfRange s (.pin p off) then (rangeFault s p r.addr r.src r.tag, zeros)
      else
        let s := bumpIf s F.SC_CTRL_CNT_EN F.SC_HIT_SECTORS_LO_COUNT p (sectorsOf off r.len).length
        let d := getPart s p
        if r.write then (setPart s p { d with pinned := mwrN d.pinned off r.data }, [])
        else (s, mrdN d.pinned off r.len)

/-- The line of an address. -/
def lineOf (a : Nat) : Nat := a / 128

/-- Does an access need a stack read, or stand behind one that awaits its own (R179, R181)? -/
def mustWait (s : State) (r : LineReq) : Bool :=
  match target r.addr with
  | .stack p off =>
    let blocked := (getPart s p).misses.any fun m => lineOf m.addr == lineOf r.addr
    let v := match getLine s p (off - off % 128) with
      | some l => l.valid
      | none => 0
    let need := (sectorsOf off r.len).any fun k => !bit k v &&
      !(r.write && decide (off % 128 ≤ 32 * k) && decide (32 * k + 32 ≤ off % 128 + r.len))
    !ptnDown s p && !outOfRange s (.stack p off) && (blocked || need)
  | _ => false

/-- Return data to a stand-alone request. -/
def reply (s : State) (src : Source) (tag : Nat) (d : List Byte) : State := { s with replies := s.replies ++ [⟨src, tag, d⟩] }

/-- Perform a stand-alone access and return its data. -/
def performReply (s : State) (r : LineReq) (wire : List (Nat × Byte)) : State :=
  let (s, d) := perform s r wire
  if r.write then s else reply s r.src r.tag d

/-- Perform the misses that no longer need the stack, in order. -/
def drainReady (s : State) (p : Nat) : State :=
  let ms := (getPart s p).misses
  let s := setPart s p { getPart s p with misses := [] }
  ms.foldl (fun s r =>
    if mustWait s r then
      let d := getPart s p
      setPart s p { d with misses := d.misses ++ [r] }
    else performReply s r []) s

/-- The oldest miss receives its sectors; what waited behind it follows. -/
def fillOldest (s : State) (p : Nat) (wire : List (Nat × Byte)) : State :=
  let d := getPart s p
  match d.misses with
  | [] => s
  | r :: rest => drainReady (performReply (setPart s p { d with misses := rest }) r wire) p

/-- Complete every miss of a partition, as an access behind them does in acceptance order (R181). -/
def settleMisses (s : State) (p : Nat) : State :=
  (getPart s p).misses.foldl (fun s _ => fillOldest s p []) s

/-- The pieces of a span of addresses inside single lines: address, length. -/
def linePieces : Nat → Nat → Nat → List (Nat × Nat)
  | 0, _, _ => []
  | fuel + 1, a, n =>
    if n = 0 then []
    else
      let k := min n (128 - a % 128)
      (a, k) :: linePieces fuel (a + k) (n - k)

/-- Lines of a span. -/
def piecesOf (a n : Nat) : List (Nat × Nat) := linePieces (n / 128 + 2) a n

/-- The misses of an address's slice are served before an access of a descriptor or a hub engine. -/
def settleFor (s : State) (a : Nat) : State :=
  match ownerOf a with
  | some p => if (getPart s p).misses.isEmpty then s else settleMisses s p
  | none => s

/-- Read device memory, as a descriptor or a hub engine does. -/
def memRead (s : State) (src : Source) (tag hint a n : Nat) : State × List Byte :=
  (piecesOf a n).foldl (fun (acc : State × List Byte) e =>
    let (s, d) := perform (settleFor acc.1 e.1) ⟨src, false, e.1, e.2, [], hint, tag⟩ []
    (s, acc.2 ++ d)) (s, [])

/-- Write device memory. -/
def memWrite (s : State) (src : Source) (tag hint a : Nat) (data : List Byte) : State :=
  (piecesOf a data.length).foldl (fun s e =>
    (perform (settleFor s e.1) ⟨src, true, e.1, e.2, slice (e.1 - a) e.2 data, hint, tag⟩ []).1) s

/-- Read device memory for a hub engine. -/
def hubRead (s : State) (a n : Nat) : State × List Byte := memRead s .hub 0 0 a n

/-- Write device memory for a hub engine. -/
def hubWrite (s : State) (a : Nat) (data : List Byte) : State := memWrite s .hub 0 0 a data

/-! ### Whole-slice operations -/

/-- Write back every dirty sector of the unpinned ways (R192). -/
def flushSlice (s : State) (p : Nat) : State :=
  (getPart s p).lines.foldl (fun s l => putLine (writeBackLine s p l) p { l with dirty := 0 }) s

/-- Write back, then invalidate (R192). -/
def invalidateSlice (s : State) (p : Nat) : State :=
  let s := flushSlice s p
  setPart s p { getPart s p with lines := [] }

/-! ### The commands -/

/-- SLICE_ACCESS (R181). -/
def execSliceAccess (r : LineReq) (s : State) : Host.Outcome State Fault Refusal :=
  if !hubUp s then .next s else
  match target r.addr with
  | .pin p _ =>
    if rb s F.SC_STATUS_PIN_CHANGING p && !ptnDown s p then
      let d := getPart s p
      .next (setPart s p { d with waiting := d.waiting ++ [r] })
    else .next (performReply s r [])
  | .stack p _ =>
    if mustWait s r then
      let d := getPart s p
      .next (setPart s p { d with misses := d.misses ++ [r] })
    else .next (performReply s r [])
  | .none => .next (performReply s r [])

/-- LINE_FILL (R179): the stack read of the oldest miss completes; `wire` is the damage that it takes on the way. -/
def execLineFill (partition : Nat) (wire : List (Nat × Byte)) (s : State) : Host.Outcome State Fault Refusal :=
  if !hubUp s then .next s else
  .next (fillOldest s partition wire)

/-- One sector of patrol scrub (R176); it is the re-read of a queued retest of its channel (R387). -/
def scrubSector (s : State) (p : Nat) : State :=
  let d := getPart s p
  let off := d.scrub * 32
  let c := 128 * p + channelOf s p off
  let due := if aget s.fh.reread c = some off then [0x11, 0x12].filter fun g => s.fh.retests.contains (2, c, g) else []
  let (s, data, ok) := stackRead s p off .maint 0 false true []
  let s := if ok && storedWord s p off != rsWord data (rsPack (rsCheck data)) then stackWrite s p off data else s
  let s := due.foldl (fun s g => retestEnd s 2 c g ok) s
  let d := getPart s p
  setPart s p { d with scrub := if userMib s p * 32768 ≤ d.scrub + 1 then 0 else d.scrub + 1 }

/-- PATROL_SCRUB (R176): nothing where the scrub is stopped or the partition takes no work. -/
def execPatrolScrub (partition sectors : Nat) (s : State) : Host.Outcome State Fault Refusal :=
  if !hubUp s then .next s else
  if rf s F.MEM_CTRL_SCRUB_HOURS partition = 0 || ptnDown s partition then
    .next (wf s F.MEM_STATUS_SCRUBBING partition 0)
  else
    .next ((List.range sectors).foldl (fun s _ => scrubSector s partition) (wf s F.MEM_STATUS_SCRUBBING partition 1))

/-- PIN_CHANGE_COMPLETE (R178): the waiting accesses to the pinned region are served in order. -/
def execPinChangeComplete (partition : Nat) (s : State) : Host.Outcome State Fault Refusal :=
  if !hubUp s then .next s else
  if rb s F.SC_STATUS_PIN_CHANGING partition then
    let s := pinRework s partition
    let d := getPart s partition
    .next (d.waiting.foldl (fun s r => performReply s r []) (setPart s partition { d with waiting := [] }))
  else .next s

end Sys2Proof.Machine
end

