-- ==== Sys2Proof/Machine/Signals.lean ====
section
/-! DEFINITION. Flags, counters, signals on their way, and packets that enter the router from inside (R205 to R213, R285). -/

namespace Sys2Proof.Machine

/-! ### Fields of arrays of registers -/

/-- Flag `n` of a core (R211). -/
def flagGet (s : State) (g n : Nat) : Bool := bit (n % 32) (rf s (F.SEQ_FLAGS_FLAG.nth (n / 32)) g)

/-- Write flag `n` of a core. -/
def flagPut (s : State) (g n : Nat) (v : Bool) : State :=
  let f := F.SEQ_FLAGS_FLAG.nth (n / 32)
  wf s f g (putBits (n % 32) (n % 32) (b2n v) (rf s f g))

/-- Declared setter of flag `n` (R211). -/
def setterGet (s : State) (g n : Nat) : Nat :=
  bits (4 * (n % 8) + 3) (4 * (n % 8)) (rf s (F.SEQ_FLAG_DECL_SETTER.nth (n / 8)) g)

/-- Declare the setter of flag `n`. -/
def setterPut (s : State) (g n v : Nat) : State :=
  let f := F.SEQ_FLAG_DECL_SETTER.nth (n / 8)
  wf s f g (putBits (4 * (n % 8) + 3) (4 * (n % 8)) v (rf s f g))

/-- Counter `n` of a core (R212). -/
def cntGet (s : State) (g n : Nat) : Nat := rf s (F.SEQ_CNT_VALUE.nth n) g

/-- Write counter `n`, modulo 2^32. -/
def cntPut (s : State) (g n v : Nat) : State := wf s (F.SEQ_CNT_VALUE.nth n) g (v % 2 ^ 32)

/-! ### The address of the device and packets from inside -/

/-- The device's coordinate; none without an address (R282). -/
def ownCoord (s : State) : Option Nat := if rb s F.FAB_ADDR_ASSIGNED 0 then some (rf s F.FAB_ADDR_COORD 0) else none

/-- The live slice ID (R293). -/
def liveSlice (s : State) : Nat := rf s F.RT_SLICE_SLICE_ID 0

/-- An empty packet with the fields that every packet of this device carries (R285). -/
def ownPacket (s : State) (dest cls kind : Nat) : Packet :=
  { dest := dest, src := (ownCoord s).getD 0, cls := cls, kind := kind, slice := liveSlice s, plen := 0, hops := 0
    addr := 0, hint := 0, tag := 0, core := 0, pkt := 0, srcIdx := 0, aux := 0, payload := [] }

/-- Queue a packet at the local input of a tile (R287). -/
def inject (s : State) (tile : Nat) (p : Packet) : State :=
  { s with fab := { s.fab with inject := aput s.fab.inject tile ((aget s.fab.inject tile).getD [] ++ [p]) } }

/-! ### Signals -/

/-- A dropped signal at a core (R209); where no core is concerned there is nothing to count. -/
def sigDrop (s : State) (g cause source idx : Nat) : State :=
  if g < 260 then
    let s := bumpSat s F.SEQ_SIG_DROP_COUNT_COUNT g 1
    let s := wf (wf s F.SEQ_SIG_INFO_EVENT g 0) F.SEQ_SIG_INFO_CAUSE g cause
    ev (wf (wf s F.SEQ_SIG_INFO_SOURCE g source) F.SEQ_SIG_INFO_INDEX g idx) F.SEQ_EVENT_SIG_DROP g
  else s

/-- Fields of a signal word (R206). -/
def sigKind (w : Nat) : Nat := bits 31 29 w
def sigCoord (w : Nat) : Nat := bits 28 17 w
def sigCore (w : Nat) : Nat := bits 16 8 w
def sigIndex (w : Nat) : Nat := bits 7 0 w

/-- Does a word keep the form of R206: zero fields where its KIND requires it, and no KIND 7? -/
def sigFormOk (w : Nat) : Bool :=
  match sigKind w with
  | 0 => w == 0
  | 1 | 2 => sigCoord w == 0 && sigCore w == 0
  | 3 | 4 => sigCoord w == 0
  | 5 | 6 => true
  | _ => false

/-- A signal fires (R207): a word for another device leaves as a SIGNAL packet from `tile`, or is dropped without an
address; every other is on its way to a core of this device. -/
def fire (s : State) (w source core tile : Nat) : State :=
  match sigKind w with
  | 0 => s
  | 1 | 2 | 3 | 4 => { s with signals := s.signals ++ [⟨w, source, core, none⟩] }
  | 5 | 6 =>
    match ownCoord s with
    | none => sigDrop s core 2 source (sigIndex w)
    | some c =>
      if sigCoord w = c then { s with signals := s.signals ++ [⟨w, source, core, none⟩] }
      else
        let p := ownPacket s (sigCoord w) 4 3
        inject s tile { p with core := sigCore w, aux := sigIndex w + (if sigKind w = 6 then 256 else 0) }
  | _ => s

/-- A set of a flag by a signal (R211): mismatch of the setter and a flag already set are reported. -/
def sigSetFlag (s : State) (g n source : Nat) : State :=
  let was := flagGet s g n
  let mis := setterGet s g n != source
  let s := flagPut s g n true
  let note := fun (s : State) (e : Nat) =>
    let s := wf (wf s F.SEQ_SIG_INFO_EVENT g e) F.SEQ_SIG_INFO_CAUSE g 0
    wf (wf s F.SEQ_SIG_INFO_SOURCE g source) F.SEQ_SIG_INFO_INDEX g n
  let s := if mis then ev (note s 1) F.SEQ_EVENT_SETTER_MISMATCH g else s
  if was then ev (note s 2) F.SEQ_EVENT_OVERSET g else s

/-- The core that a signal names: the firing core for KIND 1 and 2. -/
def sigTarget (m : Signal) : Nat :=
  match sigKind m.word with
  | 1 | 2 => m.core
  | _ => sigCore m.word

/-- A signal reaches its target (R209). -/
def sigDeliver (s : State) (m : Signal) : State :=
  let g := sigTarget m
  let idx := sigIndex m.word
  let counter := sigKind m.word % 2 == 0
  if 260 ≤ g then s
  else if ptnDown s (partOf g) then sigDrop s g 1 (if m.source < 8 ∧ m.core ≠ g then 8 else m.source) idx
  else
    match runner s g with
    | none => sigDrop s g 0 (if m.source < 8 ∧ m.core ≠ g then 8 else m.source) idx
    | some r =>
      let source := if m.remote.isSome then 10 else if m.source < 8 ∧ m.core ≠ r then 8 else m.source
      if counter then cntPut s r (idx % 64) (cntGet s r (idx % 64) + 1) else sigSetFlag s r idx source

/-- SIGNAL_ARRIVE (R209): the signal that has been on its way longest arrives. -/
def execSignalArrive (s : State) : Host.Outcome State Fault Refusal :=
  if !hubUp s then .next s else
  match s.signals with
  | [] => .next s
  | m :: rest => .next (sigDeliver { s with signals := rest } m)

end Sys2Proof.Machine
end

