-- ==== Sys2Proof/Machine/Atomic.lean ====
section
/-! DEFINITION. The atomic unit of a slice: scalar and line operations, scale slots and reduction slots (R116, R139 to R144, R182 to R186). -/

namespace Sys2Proof.Machine

/-! ### Element types of R183 -/

/-- Bytes of an element type; 0 for a reserved code. -/
def etBytes : Nat → Nat
  | 0 => 4
  | 1 => 8
  | 2 => 4
  | 3 => 2
  | 4 => 2
  | 5 => 8
  | _ => 0

/-- Floating-point format of an element type. -/
def etFmt : Nat → Option FFmt
  | 2 => some fp32
  | 3 => some bf16
  | 4 => ffmt 5
  | 5 => some fp64
  | _ => none

/-- IEEE sum of two encodings, nearest-even (R116, R182). -/
def fpAdd (f : FFmt) (a b : Nat) : Nat := (f.narrow 0 2 0 ((f.dec a).add false (f.dec b))).code

/-- Order for MIN and MAX: −0 below +0 (R116). -/
def fpBelow (a b : FV) : Bool := a.lt b || (a.eqv b && a.negative && !b.negative)

/-- Minimum or maximum of two encodings: NaN if either is NaN (R116). -/
def fpPick (f : FFmt) (max : Bool) (a b : Nat) : Nat :=
  let x := f.dec a
  let y := f.dec b
  if x.isNan || y.isNan then f.canonNan
  else if fpBelow y x != max then b else a

/-- ADD, MIN or MAX (codes 0, 1, 2) on two elements. -/
def elemOp (et op a b : Nat) : Nat :=
  match etFmt et with
  | some f => if op = 0 then fpAdd f a b else fpPick f (op == 2) a b
  | none =>
    let w := 8 * etBytes et
    if op = 0 then (a + b) % 2 ^ w
    else if (decide (sext w b < sext w a)) != (op == 2) then b else a

/-- The new value of a scalar operation (R182). -/
def scalarOp (et op old v cmp : Nat) : Nat :=
  match op with
  | 0 | 1 | 2 => elemOp et op old v
  | 3 => Nat.land old v
  | 4 => Nat.lor old v
  | 5 => Nat.xor old v
  | 6 => v
  | _ => if old = cmp then v else old

/-- A line operation: element by element, one rounding each (R182). -/
def lineElems (et op : Nat) (a b : List Byte) : List Byte :=
  let k := etBytes et
  if k = 0 then a
  else (List.range (128 / k)).flatMap fun i => toLE k (elemOp et op (fieldLE (k * i) k a) (fieldLE (k * i) k b))

/-! ### Refusals -/

/-- A refusal at a partition that is in reset or in P2: the hub records it (R185). -/
def downRefuse (s : State) (p tag : Nat) : State := raise s E.RED_REFUSED (U.part p) tag 1

/-- A refusal by the slice (R186); `hdr` names the header that takes FAULT. -/
def redRefuse (s : State) (p reason source addr tag : Nat) (hdr : Option Nat) : State :=
  let s := match hdr with
    | some a =>
      match target a with
      | .pin q off =>
        let d := getPart s q
        setPart s q { d with pinned := mwr d.pinned (off + 2) (mrd d.pinned (off + 2) ||| 4) }
      | _ => s
    | none => s
  let s := bumpSat s F.SC_RED_FAULTS_COUNT p 1
  let s := scLatch s p reason source addr
  raise (ev s F.SC_EVENT_RED_FAULT p) E.RED_REFUSED (U.part p) tag reason

/-- Refuse for a requester. -/
def refuseFrom (s : State) (p reason : Nat) (src : Source) (addr tag : Nat) (hdr : Option Nat) : State :=
  let (idx, s) := requesterIndex s src
  redRefuse s p reason idx addr tag hdr

/-! ### Scalar and line operations -/

/-- The checks before an operation of the atomic unit (R165, R185, R186): the owning partition, or the refusal made.
`slot`: the target must lie in a pinned region. -/
def atomicEnter (s : State) (src : Source) (addr align tag : Nat) (slot : Bool) : State ⊕ (State × Nat) :=
  match target addr with
  | .none => .inl (rangeFault s (reservedSlice src) addr src tag)
  | .stack p off =>
    if ptnDown s p then .inl (downRefuse s p tag)
    else if outOfRange s (.stack p off) then .inl (rangeFault s p addr src tag)
    else if addr % align ≠ 0 ∨ slot then .inl (refuseFrom s p 7 src addr tag none)
    else .inr (s, p)
  | .pin p off =>
    if ptnDown s p then .inl (downRefuse s p tag)
    else
      let s := pinSettle s p
      if outOfRange s (.pin p off) then .inl (rangeFault s p addr src tag)
      else if addr % align ≠ 0 then .inl (refuseFrom s p 7 src addr tag none)
      else .inr (s, p)

/-- Count one operation of the atomic unit. -/
def atomicCount (s : State) (p : Nat) : State := bumpIf s F.SC_CTRL_CNT_EN F.SC_ATOMIC_OPS_LO_COUNT p 1

/-- One atomic operation (R182). Answers the old value, and whether the slice performed it. -/
def atomicDo (s : State) (r : AtomicReq) : State × Nat × Bool :=
  let n := if r.lineOp then 128 else etBytes r.etype
  match atomicEnter s r.src r.addr (max n 1) r.tag false with
  | .inl s => (s, 0, false)
  | .inr (s, p) =>
    let s := atomicCount s p
    let (s, old) := memRead s r.src r.tag 0 r.addr n
    let new := if r.lineOp then lineElems r.etype r.op old r.data
      else toLE n (scalarOp r.etype r.op (ofLE old) (r.operand % 2 ^ (8 * n)) (r.comparand % 2 ^ (8 * n)))
    (memWrite s r.src r.tag 0 r.addr new, ofLE old, true)

/-- SLICE_ATOMIC (R182). -/
def execSliceAtomic (r : AtomicReq) (s : State) : Host.Outcome State Fault Refusal :=
  if !hubUp s then .next s else
  let (s, old, ok) := atomicDo s r
  .next (if ok && !r.lineOp then reply s r.src r.tag (toLE (etBytes r.etype) old) else s)

/-! ### Scale slots -/

/-- Step and attempt of the execution (R140): those of the newest step that is OPEN or failed and not yet reported. -/
def currentStep (s : State) : Nat × Nat :=
  match s.sr.steps.reverse.find? fun t => t.state == 1 || t.state == 5 with
  | some t => (t.step, t.attempt)
  | none => (0xFFFFFFFFFFFF, 0)

/-- The larger of two FP32 magnitudes, NaNs ignored. -/
def ampMax (a b : Nat) : Nat := if (fp32.dec a).lt (fp32.dec b) || (fp32.dec a).isNan then b else a

/-- The stage update of a scale slot line (R140, R143), with the counts of R141 and R142. -/
def stageLine (l : List Byte) (step att amax : Nat) (under : Bool) (sat recomp : Nat) : List Byte :=
  let w := fieldLE 0x44 4 l
  let fresh := fieldLE 0x48 6 l == step && bits 7 4 w == att
  let old := if fresh then fieldLE 0x40 4 l else 0
  let hit := (fresh && bit 0 w) || under
  let l := patch 0x40 (toLE 4 (ampMax old amax)) l
  let l := patch 0x44 (toLE 4 (putBits 7 4 att (putBits 0 0 (b2n hit) w))) l
  let l := patch 0x48 (toLE 6 step) l
  let l := patch 0x58 (toLE 4 ((fieldLE 0x58 4 l + sat) % 2 ^ 32)) l
  patch 0x5C (toLE 4 ((fieldLE 0x5C 4 l + recomp) % 2 ^ 32)) l

/-- Stage one tile's maximum into a scale slot, as one atomic operation (R140). -/
def stageDo (s : State) (core addr amax : Nat) (under : Bool) (sat recomp tag : Nat) : State :=
  match atomicEnter s (.core core) addr 128 tag false with
  | .inl s => s
  | .inr (s, p) =>
    let s := atomicCount s p
    let (s, l) := memRead s (.core core) tag 0 addr 128
    let (step, att) := currentStep s
    memWrite s (.core core) tag 0 addr (stageLine l step att amax under sat recomp)

/-- SCALE_STAGE (R140): the drain of a core with STAGE_EN clear writes no slot. -/
def execScaleStage (core addr amax : Nat) (under : Bool) (s : State) : Host.Outcome State Fault Refusal :=
  if !hubUp s then .next s else
  .next (if rb s F.QNT_CTRL_STAGE_EN core then stageDo s core addr amax under 0 0 0 else s)

/-- Fmax of a format under delayed scaling (R138). -/
def fmaxOf : Nat → Option FV
  | 0x06 => some (.fin false 448 0)
  | 0x07 => some (.fin false 57344 0)
  | 0x0E => some (.fin false 127 0)
  | 0x10 | 0x11 => some (.fin false 1 0)
  | _ => none

/-- The exponent that a roll sets (R144); a history that holds a NaN or a negative number gives a free one (log 7). -/
def rollExp (fmax a : FV) (margin uadj : Nat) (free : Nat) : Int :=
  match a with
  | .fin _ 0 _ => 0
  | .fin false _ _ => max (-127) (min 127 (ceilLog2Div a fmax + margin - uadj))
  | .inf false => 127
  | _ => sext 8 free

/-- The scale roll of a slot line for a step (R144). -/
def rollLine (l : List Byte) (fmax : FV) (step free : Nat) : List Byte :=
  let w := fieldLE 0x50 4 l
  let here := fieldLE 0x48 6 l == step
  let a := if here then fieldLE 0x40 4 l else 0
  let uh := here && bit 0 (fieldLE 0x44 4 l)
  let hist := a :: (List.range 15).map fun i => fieldLE (4 * i) 4 l
  let top := if bit 27 w then a else hist.foldl ampMax a
  let margin := bits 26 24 w
  let uadj := if uh then min (bits 15 8 w + 1) margin else bits 15 8 w - 1
  let e := rollExp fmax (fp32.dec top) margin uadj free
  let l := patch 0 (hist.flatMap (toLE 4)) l
  let l := patch 0x50 (toLE 4 (putBits 7 0 (unsext 8 e) (putBits 15 8 uadj w))) l
  let l := patch 0x60 (toLE 4 ((fieldLE 0x60 4 l + b2n uh) % 2 ^ 32)) l
  patch 0x64 (toLE 4 ((fieldLE 0x64 4 l + 1) % 2 ^ 32)) l

/-- The scale roll as one atomic operation (R144). -/
def rollDo (s : State) (src : Source) (addr step tag : Nat) : State :=
  match atomicEnter s src addr 128 tag false with
  | .inl s => s
  | .inr (s, p) =>
    let s := atomicCount s p
    let (s, l) := memRead s src tag 0 addr 128
    match fmaxOf (fieldLE 0x52 1 l) with
    | none => refuseFrom s p 8 src addr tag none
    | some fm =>
      let (v, s) := fresh s
      memWrite s src tag 0 addr (rollLine l fm step v)

/-- SLICE_SCALE_ROLL (R144). -/
def execSliceScaleRoll (src : Source) (addr step : Nat) (s : State) : Host.Outcome State Fault Refusal :=
  if !hubUp s then .next s else
  .next (rollDo s src addr step 0)

/-! ### Reduction slots -/

/-- The header of a reduction slot (R183). -/
structure RedHdr where
  etype : Nat
  op : Nat
  ordered : Bool
  armed : Bool
  done : Bool
  n : Nat
  lines : Nat
  base : Nat
  data : Nat
  buf : Nat
  map : Nat
  arrived : Nat
  signal : Nat
  deriving DecidableEq, Repr

/-- Read a header out of its 64 bytes. -/
def redHdr (l : List Byte) : RedHdr :=
  let w := fieldLE 0 4 l
  { etype := bits 3 0 w, op := bits 7 4 w, ordered := bit 8 w, armed := bit 16 w, done := bit 17 w
    n := fieldLE 4 2 l, lines := fieldLE 8 4 l, base := fieldLE 0xC 2 l, data := fieldLE 0x10 6 l
    buf := fieldLE 0x18 6 l, map := fieldLE 0x20 6 l, arrived := fieldLE 0x28 8 l, signal := fieldLE 0x30 4 l }

/-- Is an address whole lines of the slice's own stack or pinned region (R183)? -/
def slotAddrOk (s : State) (p a : Nat) : Bool := a % 128 == 0 && ownerOf a == some p && !outOfRange s (target a)

/-- Does a header keep R183? -/
def redHdrOk (s : State) (p : Nat) (h : RedHdr) : Bool :=
  decide (h.etype ≤ 5) && decide (h.op ≤ 2) && decide (1 ≤ h.n ∧ h.n ≤ 4096) && decide (1 ≤ h.lines ∧ h.lines ≤ 2 ^ 24) &&
    slotAddrOk s p h.data && (!h.ordered || slotAddrOk s p h.buf) && slotAddrOk s p h.map && sigFormOk h.signal

/-- Write ARMED, DONE and FAULT, keeping the rest of the header's first word. -/
def hdrFlags (l : List Byte) (armed done fault : Bool) : List Byte :=
  patch 0 (toLE 4 (putBits 18 18 (b2n fault) (putBits 17 17 (b2n done) (putBits 16 16 (b2n armed) (fieldLE 0 4 l))))) l

/-- ARM (R184). -/
def armDo (s : State) (src : Source) (addr tag : Nat) : State :=
  match atomicEnter s src addr 64 tag true with
  | .inl s => s
  | .inr (s, p) =>
    let s := atomicCount s p
    let (s, l) := memRead s src tag 0 addr 64
    let h := redHdr l
    if !redHdrOk s p h then refuseFrom s p 5 src addr tag (some addr)
    else if h.armed && !h.done then refuseFrom s p 6 src addr tag (some addr)
    else
      let s := (List.range (ceilDiv (h.n * h.lines) 1024)).foldl
        (fun s i => memWrite s src tag 0 (h.map + 128 * i) (List.replicate 128 0)) s
      memWrite s src tag 0 addr (patch 0x28 (toLE 8 0) (hdrFlags l true false false))

/-- SLICE_ARM (R184). -/
def execSliceArm (src : Source) (addr : Nat) (s : State) : Host.Outcome State Fault Refusal :=
  if !hubUp s then .next s else .next (armDo s src addr 0)

/-- CONTRIB of one line (R184). Answers whether it was accepted. -/
def contribDo (s : State) (src : Source) (addr idx line : Nat) (data : List Byte) (tag : Nat) : State × Bool :=
  match atomicEnter s src addr 64 tag true with
  | .inl s => (s, false)
  | .inr (s, p) =>
    let s := atomicCount s p
    let (s, l) := memRead s src tag 0 addr 64
    let h := redHdr l
    let no := fun (s : State) (reason : Nat) => (redRefuse s p reason idx addr tag (some addr), false)
    if !h.armed || h.done then no s 1
    else if idx < h.base ∨ h.base + h.n ≤ idx then no s 2
    else if h.lines ≤ line then no s 4
    else
      let j := (idx - h.base) * h.lines + line
      let (s, m) := memRead s src tag 0 (h.map + j / 8) 1
      if bit (j % 8) (ofLE m) then no s 3
      else
        let s := memWrite s src tag 0 (h.map + j / 8) (toLE 1 (putBits (j % 8) (j % 8) 1 (ofLE m)))
        let s :=
          if h.ordered then memWrite s src tag 0 (h.buf + 128 * j) data
          else
            let (s, d) := memRead s src tag 0 (h.data + 128 * line) 128
            memWrite s src tag 0 (h.data + 128 * line) (lineElems h.etype h.op d data)
        (memWrite s src tag 0 (addr + 0x28) (toLE 8 (h.arrived + 1)), true)

/-- SLICE_CONTRIB (R184). -/
def execSliceContrib (src : Source) (addr srcIdx line : Nat) (data : List Byte) (s : State) : Host.Outcome State Fault Refusal :=
  if !hubUp s then .next s else
  .next (contribDo s src addr srcIdx line data 0).1

/-- The ordered sum of one line (R184): the initial value, then the contributions in ascending source index. -/
def orderedLine (s : State) (h : RedHdr) (line : Nat) : State :=
  let (s, v) := memRead s .hub 0 0 (h.data + 128 * line) 128
  let (s, v) := (List.range h.n).foldl (fun (acc : State × List Byte) i =>
    let (s, b) := memRead acc.1 .hub 0 0 (h.buf + 128 * (i * h.lines + line)) 128
    (s, lineElems h.etype h.op acc.2 b)) (s, v)
  memWrite s .hub 0 0 (h.data + 128 * line) v

/-- REDUCTION_DONE (R184): the slot whose lines have all arrived sums, sets DONE, clears ARMED and fires its SIGNAL. -/
def execReductionDone (addr : Nat) (s : State) : Host.Outcome State Fault Refusal :=
  if !hubUp s then .next s else
  match target addr with
  | .pin p off =>
    let l := mrdN (getPart s p).pinned off 64
    let h := redHdr l
    if ptnDown s p || outOfRange s (.pin p off) || addr % 64 != 0 || !h.armed || h.done || h.arrived != h.n * h.lines then .next s
    else
      let s := if h.ordered then (List.range h.lines).foldl (fun s i => orderedLine s h i) s else s
      let s := memWrite s .hub 0 0 addr (hdrFlags l false true (bit 18 (fieldLE 0 4 l)))
      .next (fire s h.signal 8 260 (tileOf p))
  | _ => .next s

end Sys2Proof.Machine
end

