-- ==== Sys2Proof/Machine/Hash.lean ====
section
/-! DEFINITION. SHA3-256, SHAKE128 (FIPS 202, named by R335, R449 and others) and the CRC-32 of link blocks (R265). -/

namespace Sys2Proof.Machine

/-- Rotation of a 64-bit lane. -/
def rotl64 (n k : Nat) : Nat := (n * 2 ^ k) % 2 ^ 64 + n / 2 ^ (64 - k)

/-- Rotation offsets of Keccak by lane 5y + x. -/
def keccakRot : List Nat :=
  [0, 1, 62, 28, 27, 36, 44, 6, 55, 20, 3, 10, 43, 25, 39, 41, 45, 15, 21, 8, 18, 2, 61, 56, 14]

/-- Round constants of Keccak. -/
def keccakRc : List Nat :=
  [0x0000000000000001, 0x0000000000008082, 0x800000000000808A, 0x8000000080008000,
   0x000000000000808B, 0x0000000080000001, 0x8000000080008081, 0x8000000000008009,
   0x000000000000008A, 0x0000000000000088, 0x0000000080008009, 0x000000008000000A]
  ++ [0x000000008000808B, 0x800000000000008B, 0x8000000000008089, 0x8000000000008003,
   0x8000000000008002, 0x8000000000000080, 0x000000000000800A, 0x800000008000000A,
   0x8000000080008081, 0x8000000000008080, 0x0000000080000001, 0x8000000080008008]

/-- One round of Keccak over 25 lanes. -/
def keccakRound (a : List Nat) (rc : Nat) : List Nat :=
  let g := fun (l : List Nat) (i : Nat) => l.getD i 0
  let c := (List.range 5).map fun x => (List.range 5).foldl (fun acc y => Nat.xor acc (g a (5 * y + x))) 0
  let d := (List.range 5).map fun x => Nat.xor (g c ((x + 4) % 5)) (rotl64 (g c ((x + 1) % 5)) 1)
  let b := (List.range 25).map fun i =>
    let x := (i % 5 + 3 * (i / 5)) % 5
    let j := 5 * (i % 5) + x
    rotl64 (Nat.xor (g a j) (g d x)) (g keccakRot j)
  let e := (List.range 25).map fun i =>
    let y := 5 * (i / 5)
    Nat.xor (g b i) (Nat.land (2 ^ 64 - 1 - g b (y + (i + 1) % 5)) (g b (y + (i + 2) % 5)))
  match e with
  | [] => []
  | h :: t => Nat.xor h rc :: t

/-- The permutation: 24 rounds. -/
def keccakF (a : List Nat) : List Nat := keccakRc.foldl keccakRound a

/-- Absorb blocks of `r` lanes; `fuel` bounds their number. -/
def absorb (r : Nat) : Nat → List Byte → List Nat → List Nat
  | 0, _, a => a
  | fuel + 1, m, a =>
    let a := keccakF ((List.range 25).map fun i =>
      if i < r then Nat.xor (a.getD i 0) (fieldLE (8 * i) 8 m) else a.getD i 0)
    absorb r fuel (m.drop (8 * r)) a

/-- Padding of a message to whole blocks of `r` lanes, with the domain byte. -/
def keccakPad (r dom : Nat) (m : List Byte) : List Byte :=
  let rate := 8 * r
  let n := rate - m.length % rate
  if n = 1 then m ++ [BitVec.ofNat 8 (dom + 0x80)]
  else m ++ [BitVec.ofNat 8 dom] ++ List.replicate (n - 2) 0 ++ [0x80]

/-- Bytes of the lanes. -/
def laneBytes (a : List Nat) : List Byte := a.flatMap (toLE 8)

/-- Squeeze `n` blocks of `r` lanes. -/
def squeeze (r : Nat) : Nat → List Nat → List Byte
  | 0, _ => []
  | n + 1, a => laneBytes (a.take r) ++ squeeze r n (keccakF a)

/-- A sponge: rate in lanes, domain byte, message, number of output bytes. -/
def sponge (r dom : Nat) (m : List Byte) (n : Nat) : List Byte :=
  let p := keccakPad r dom m
  (squeeze r (ceilDiv n (8 * r)) (absorb r (p.length / (8 * r)) p (List.replicate 25 0))).take n

/-- SHA3-256. -/
def sha3 (m : List Byte) : List Byte := sponge 17 0x06 m 32

/-- SHAKE128, `n` bytes of output. -/
def shake (m : List Byte) (n : Nat) : List Byte := sponge 21 0x1F m n

/-- One bit of the reflected CRC-32 of IEEE 802.3. -/
def crcBit (c : Nat) : Nat := if c % 2 = 1 then Nat.xor (c / 2) 0xEDB88320 else c / 2

/-- One byte. -/
def crcByte (c : Nat) (b : Byte) : Nat := (List.range 8).foldl (fun c _ => crcBit c) (Nat.xor c b.toNat)

/-- The CRC-32 of IEEE 802.3 over bytes. -/
def crc32 (m : List Byte) : Nat := Nat.xor (m.foldl crcByte 0xFFFFFFFF) 0xFFFFFFFF

end Sys2Proof.Machine
end

