-- ==== Sys2Proof/Machine/HostLink.lean ====
section
/-! DEFINITION. What the device sends on the host link: writes, reads and messages (R244 to R249, R258). -/

namespace Sys2Proof.Machine

/-- Is the host link in L0 (R260)? -/
def linkUp (s : State) : Bool := rb s F.HQ_STATUS_LINK_UP 0

/-- Put a packet on the host link. -/
def hostSend (s : State) (p : HostOut) : State := { s with host := { s.host with out := s.host.out ++ [p] } }

/-- A write bound for the host is dropped and counted (R244, R257). -/
def hostWrDrop (s : State) : State := ev (bumpSat s F.HQ_WR_DROPS_COUNT 0 1) F.HQ_EVENT_HOST_WR_DROP 0

/-- Cut a span into pieces of at most 4 KiB (R245): offset, length. -/
def pieces4k (n : Nat) : List (Nat × Nat) :=
  (List.range (ceilDiv n 4096)).map fun i => (4096 * i, min 4096 (n - 4096 * i))

/-- Write host memory (R246); the packets carry the bytes named, the padding of R245 is the link's (log 17). -/
def hostWrite (s : State) (addr : Nat) (data : List Byte) : State :=
  (pieces4k data.length).foldl (fun s e =>
    if linkUp s then
      bumpIf (hostSend s (.hmemWr (addr + e.1) (slice e.1 e.2 data))) F.HQ_CTRL_CNT_EN F.HQ_HOST_WR_BYTES_LO_COUNT 0 e.2
    else hostWrDrop s) s

/-- A tag that no outstanding read uses. -/
def freeTag (s : State) : Option Nat := (List.range 1024).find? fun t => !s.host.reads.any (fun r => r.tag == t)

/-- Send the oldest waiting read, where a tag is free for it (R247); a read without a link stays unanswered (R249). -/
def sendNext (s : State) : Option State :=
  match s.host.waiting, freeTag s with
  | r :: rest, some t =>
    let r := { r with tag := t }
    let s := { s with host := { s.host with waiting := rest, reads := s.host.reads ++ [r] } }
    some (if linkUp s then hostSend s (.hmemRd t r.addr (ceilDiv r.len 32)) else s)
  | _, _ => none

/-- Send the waiting reads that a tag is free for (R247). -/
def sendReads : Nat → State → State
  | 0, s => s
  | fuel + 1, s =>
    match sendNext s with
    | none => s
    | some t => sendReads fuel t

/-- Ask for `len` bytes of host memory, at most 4 KiB; answers the read's serial number. -/
def hostRead (s : State) (addr len : Nat) (use : ReadFor) : State × Nat :=
  let id := s.host.nextId
  let r : HostRead := ⟨id, 0, addr, len, use⟩
  let s := { s with host := { s.host with waiting := s.host.waiting ++ [r], nextId := id + 1 } }
  (sendReads s.host.waiting.length s, id)

/-- Ask for a span of host memory; answers the serial numbers of its reads. -/
def hostReads (s : State) (addr len : Nat) (use : ReadFor) : State × List Nat :=
  (pieces4k len).foldl (fun (acc : State × List Nat) e =>
    let (s, id) := hostRead acc.1 (addr + e.1) e.2 use
    (s, acc.2 ++ [id])) (s, [])

/-! ### Completion queues (R257, R258) -/

/-- Does a completion queue hold as many unconsumed records as it has places (R257)? -/
def cqFull (s : State) (q : Nat) : Bool :=
  decide (2 ^ rf s F.HQ_CQ_CTRL_LOG2_SIZE q ≤ (rf s F.HQ_CQ_TAIL_TAIL q + 2 ^ 32 - rf s F.HQ_CQ_HEAD_HEAD q) % 2 ^ 32)

/-- The 32 bytes of a record (R257). -/
def cqBytes (s : State) (tag core queue typ value : Nat) (remounted phase : Bool) : List Byte :=
  toLE 4 tag ++ toLE 4 (core + b2n remounted * 2 ^ 9 + queue * 2 ^ 16 + typ * 2 ^ 24 + b2n phase * 2 ^ 31) ++ toLE 8 value
    ++ toLE 8 s.time.now ++ List.replicate 8 0

/-- Send the interrupt message of a completion queue. -/
def cqMsg (s : State) (q : Nat) : State := if linkUp s then hostSend s (.msg (rf s F.HQ_CQ_CTRL_VECTOR q)) else s

/-- The message that follows a record, or the hold-off that keeps it (R258). -/
def cqNote (s : State) (q : Nat) : State :=
  if !rb s F.HQ_CQ_CTRL_IRQ_EN q then s
  else if s.host.holdoff.any (fun e => e.1 == q) then
    { s with host := { s.host with holdoff := s.host.holdoff.map fun e => if e.1 = q then (q, true) else e } }
  else
    let s := cqMsg s q
    if rf s F.HQ_CQ_CTRL_HOLDOFF_US q = 0 then s
    else { s with host := { s.host with holdoff := s.host.holdoff ++ [(q, false)] } }

/-- Write a record to a completion queue (R257): PHASE is inverted at each wrap. -/
def cqPost (s : State) (q tag core queue typ value : Nat) (remounted : Bool) : State :=
  let n := rf s F.HQ_CQ_TAIL_TAIL q
  let size := 2 ^ rf s F.HQ_CQ_CTRL_LOG2_SIZE q
  let base := rf2 s F.HQ_CQ_BASE_LO_BASE F.HQ_CQ_BASE_HI_BASE q
  let phase := !s.host.phase0.contains q
  let s := hostWrite s (base + 32 * (n % size)) (cqBytes s tag core queue typ value remounted phase)
  let s := wf s F.HQ_CQ_TAIL_TAIL q ((n + 1) % 2 ^ 32)
  let s := if (n + 1) % size = 0 then
      { s with host := { s.host with phase0 := if phase then s.host.phase0 ++ [q] else s.host.phase0.filter (· != q) } }
    else s
  cqNote s q

/-- INTERRUPT_HOLDOFF (R258): the hold-off of a completion queue ends; one message announces what it kept, and opens the next. -/
def execInterruptHoldoff (cq : Nat) (s : State) : Host.Outcome State Fault Refusal :=
  match s.host.holdoff.find? (fun e => e.1 == cq) with
  | none => .next s
  | some (_, waiting) =>
    let s := { s with host := { s.host with holdoff := s.host.holdoff.filter (fun e => e.1 != cq) } }
    .next (if waiting then cqNote s cq else s)

/-- Bytes of host memory that came back for a descriptor in flight; those that did not are free (R249, log 7). -/
def hostGot (s : State) (g fl addr n : Nat) : State × List Byte :=
  let mine := s.host.got.filter fun e => e.1 == g && e.2.1 == fl
  let byteAt := fun (a : Nat) => (mine.find? fun e => decide (e.2.2.1 ≤ a ∧ a < e.2.2.1 + e.2.2.2.length)).map
    fun e => e.2.2.2.getD (a - e.2.2.1) 0
  let l := (span addr n).map byteAt
  if l.all (·.isSome) then (s, l.map (·.getD 0))
  else
    let (v, s) := freshBytes s n
    (s, (l.zip v).map fun e => e.1.getD e.2)

end Sys2Proof.Machine
end

