-- ==== Sys2Proof/Machine/Operands.lean ====
section
/-! DEFINITION. Operand forms: core store, tensor-table entries, operand references, quantisation records, and the elements of a tile (R98 to R104, R121 to R130, R196 to R199). -/

namespace Sys2Proof.Machine

/-! ### Core store -/

/-- Bytes of a core store (R196). -/
def csSize : Nat := 0x400000

/-- Read core store. -/
def csRead (s : State) (g a n : Nat) : List Byte := mrdN (getCore s g).store a n

/-- Write core store. -/
def csWrite (s : State) (g a : Nat) (d : List Byte) : State :=
  let c := getCore s g
  setCore s g { c with store := mwrN c.store a d }

/-- A view of a core store: what `n` bytes at an address read as. -/
abbrev View := Nat → Nat → List Byte

/-- The core store as it stands. -/
def viewNow (s : State) (g : Nat) : View := fun a n => csRead s g a n

/-- The core store with the entries and records of a legality check in place of what stands there now (R194, R202). -/
def viewOf (s : State) (g : Nat) (snap : List (Nat × List Byte)) : View := fun a n =>
  match snap.find? (fun e => e.1 == a && decide (n ≤ e.2.length)) with
  | some e => slice 0 n e.2
  | none => csRead s g a n

/-! ### Spaces -/

/-- Read `n` bytes of a space of R197 for the descriptor in flight `fl`. -/
def spRead (s : State) (g fl tag space hint a n : Nat) : State × List Byte :=
  match space with
  | 0 => (s, csRead s g a n)
  | 1 => memRead s (.core g) tag hint a n
  | _ => hostGot s g fl a n

/-- Write bytes of a space of R197. -/
def spWrite (s : State) (g tag space hint a : Nat) (d : List Byte) : State :=
  match space with
  | 0 => csWrite s g a d
  | 1 => memWrite s (.core g) tag hint a d
  | _ => hostWrite s a d

/-! ### Tensor table -/

/-- A tensor-table entry (R197). -/
structure TEnt where
  addr : Nat
  fmt : Nat
  space : Nat
  hint : Nat
  axis : Nat
  valid : Bool
  /-- a reserved bit is set -/
  resv : Bool
  scaleAddr : Nat
  rows : Nat
  cols : Nat
  rowStride : Nat
  scaleStride : Nat
  tileRows : Nat
  tileCols : Nat
  qrec : Nat
  qrecV : Bool
  gen : Nat
  genV : Bool
  deriving DecidableEq, Repr

/-- Read an entry out of its 64 bytes. -/
def tent (l : List Byte) : TEnt :=
  let w0 := fieldLE 0 8 l
  let w1 := fieldLE 8 8 l
  let t := fieldLE 0x20 4 l
  let q := fieldLE 0x24 4 l
  let g := fieldLE 0x28 4 l
  { addr := bits 47 0 w0, fmt := bits 55 48 w0, space := bits 57 56 w0, hint := bits 59 58 w0, axis := bits 60 60 w0
    valid := bit 63 w0
    resv := bits 62 61 w0 != 0 || bits 63 48 w1 != 0 || bits 31 17 q != 0 || bits 31 17 g != 0 || fieldLE 0x2C 20 l != 0
    scaleAddr := bits 47 0 w1, rows := fieldLE 0x10 4 l, cols := fieldLE 0x14 4 l, rowStride := fieldLE 0x18 4 l
    scaleStride := fieldLE 0x1C 4 l, tileRows := bits 15 0 t, tileCols := bits 31 16 t, qrec := bits 15 0 q, qrecV := bit 16 q
    gen := bits 15 0 g, genV := bit 16 g }

/-- Core-store address of a tensor-table entry (R196). -/
def tentAddr (i : Nat) : Nat := 0x3F0000 + 64 * i

/-- Is a format code one of R91 that a valid entry may name? -/
def fmtKnown (f : Nat) : Bool := decide ((1 ≤ f ∧ f ≤ 0xE) ∨ (0x10 ≤ f ∧ f ≤ 0x12))

/-! ### Quantisation records -/

/-- A quantisation record (R123). -/
structure QRec where
  line : Nat
  qmode : Nat
  gran : Nat
  src : Nat
  rot : Nat
  smooth : Bool
  recompute : Bool
  rotSide : Bool
  scale : Nat
  offset : Nat
  zp : Int
  chan : Nat
  colsum : Nat
  slot : Nat
  tadj : Nat
  smoothA : Nat
  signs : Nat
  book : List Nat
  deriving DecidableEq, Repr

/-- Read a record out of its 128 bytes. -/
def qrecOf (line : Nat) (l : List Byte) : QRec :=
  let w := fieldLE 0 4 l
  { line := line, qmode := bits 7 0 w, gran := bits 9 8 w, src := bits 11 10 w, rot := bits 13 12 w, smooth := bit 14 w
    recompute := bit 15 w, rotSide := bit 16 w, scale := fieldLE 8 4 l, offset := fieldLE 0xC 4 l
    zp := sext 8 (fieldLE 0x10 1 l), chan := fieldLE 0x18 8 l, colsum := fieldLE 0x20 6 l, slot := fieldLE 0x28 6 l
    tadj := fieldLE 0x30 8 l, smoothA := fieldLE 0x38 8 l, signs := fieldLE 0x40 16 l
    book := (List.range 16).map fun i => fieldLE (0x60 + 2 * i) 2 l }

/-- What an operand without a record is treated as: plain conversion of floats, blocks of MX formats (R125). -/
def qrecNone (fmt : Nat) : QRec :=
  { qrecOf 0 [] with qmode := if isMx fmt then 2 else 0, src := if isMx fmt then 1 else 0 }

/-- An operand: its table index, its tile, its entry and its record. -/
structure Oper where
  idx : Nat
  t : Nat
  e : TEnt
  q : QRec
  deriving DecidableEq, Repr

/-- Is a reference the null operand (R197)? -/
def refNull (w : Nat) : Bool := bits 31 22 w == 1023

/-- The operand that a reference names (R198). -/
def oper (v : View) (w : Nat) : Oper :=
  let i := bits 31 22 w
  let e := tent (v (tentAddr i) 64)
  ⟨i, bits 21 0 w, e, if e.qrecV then qrecOf e.qrec (v (64 * e.qrec) 128) else qrecNone e.fmt⟩

/-- Tiles per row of the tensor. -/
def TEnt.tilesAcross (e : TEnt) : Nat := ceilDiv e.cols e.tileCols

/-- First row of the tile. -/
def Oper.row0 (o : Oper) : Nat := o.t / o.e.tilesAcross * o.e.tileRows
/-- First column of the tile. -/
def Oper.col0 (o : Oper) : Nat := o.t % o.e.tilesAcross * o.e.tileCols
/-- Rows of the tile inside the tensor. -/
def Oper.nrows (o : Oper) : Nat := min o.e.tileRows (o.e.rows - o.row0)
/-- Columns of the tile inside the tensor. -/
def Oper.ncols (o : Oper) : Nat := min o.e.tileCols (o.e.cols - o.col0)

/-- Element width of an entry in bits. -/
def TEnt.width (e : TEnt) : Nat := fmtBits e.fmt

/-- Core-store and device addresses that a descriptor's legality check reads beside its own bytes: entries and records. -/
def refSnap (s : State) (g w : Nat) : List (Nat × List Byte) :=
  if refNull w then []
  else
    let a := tentAddr (bits 31 22 w)
    let l := csRead s g a 64
    let e := tent l
    (a, l) :: (if e.qrecV then [(64 * e.qrec, csRead s g (64 * e.qrec) 128)] else [])

/-! ### Elements -/

/-- Codes of `n` elements of row `r` from column `c` on; elements outside the tensor are `none` (R198, R199). -/
def readCodes (s : State) (g fl tag : Nat) (e : TEnt) (r c n : Nat) : State × List (Option Nat) :=
  let w := e.width
  let k := if r < e.rows then min n (e.cols - c) else 0
  if k = 0 then (s, List.replicate n none)
  else
    let b0 := c * w / 8
    let (s, d) := spRead s g fl tag e.space e.hint (e.addr + r * e.rowStride + b0) (ceilDiv ((c + k) * w) 8 - b0)
    let x := ofLE d >>> (c * w % 8)
    (s, (List.range n).map fun i => if i < k then some (bits (i * w + w - 1) (i * w) x) else none)

/-- Does a row span share its first or last byte with a neighbour (R198)? -/
def partialBytes (e : TEnt) (c k : Nat) : Bool := c * e.width % 8 != 0 || (c + k) * e.width % 8 != 0

/-- Write the codes of a row from column `c` on; what lies outside the tensor is dropped, shared bytes are merged (R198). -/
def writeCodes (s : State) (g fl tag : Nat) (e : TEnt) (r c : Nat) (codes : List Nat) : State :=
  let w := e.width
  let k := if r < e.rows then min codes.length (e.cols - c) else 0
  if k = 0 then s
  else
    let b0 := c * w / 8
    let nb := ceilDiv ((c + k) * w) 8 - b0
    let a := e.addr + r * e.rowStride + b0
    let x := (codes.take k).foldr (fun q acc => q % 2 ^ w + 2 ^ w * acc) 0
    if partialBytes e c k then
      let o := c * w % 8
      let (s, old) := spRead s g fl tag e.space e.hint a nb
      spWrite s g tag e.space e.hint a (toLE nb (putBits (o + k * w - 1) o x (ofLE old)))
    else spWrite s g tag e.space e.hint a (toLE nb x)

/-- Block scales of `n` elements of row `r` from column `c` on (R199). -/
def readScales (s : State) (g fl tag : Nat) (e : TEnt) (r c n : Nat) : State × List Nat :=
  let k := if r < e.rows then min n (e.cols - c) else 0
  if k = 0 ∨ ¬ isMx e.fmt then (s, List.replicate n 0)
  else if e.axis = 0 then
    let (s, d) := spRead s g fl tag e.space e.hint (e.scaleAddr + r * e.scaleStride + c / 32) ((c + k - 1) / 32 + 1 - c / 32)
    (s, (List.range n).map fun i => (d.getD ((c + i) / 32 - c / 32) 0).toNat)
  else
    let (s, d) := spRead s g fl tag e.space e.hint (e.scaleAddr + r / 32 * e.scaleStride + c) k
    (s, (List.range n).map fun i => (d.getD i 0).toNat)

/-- Value of an element without its record's scale: MX block scales act, `x` is the scale byte (R99 to R104). -/
def elemVal (fmt : Nat) (book : List Nat) (q x : Nat) : FV :=
  let sc := fun (v : FV) => if x = 255 then .nan false else v.scale ((x : Int) - 127)
  match fmt with
  | 0x0D => sc ((FV.ofInt (sext 8 q)).scale (-6))
  | 0x0E => FV.ofInt (sext 8 q)
  | 0x10 => bf16.dec (sloeLevels.getD q 0)
  | 0x11 => bf16.dec (book.getD q 0)
  | 0x12 => if q = 255 then .nan false else .fin false 1 ((q : Int) - 127)
  | _ =>
    match ffmt fmt with
    | some f => if isMx fmt then sc (f.dec q) else f.dec q
    | none => fzero false

/-- Codes and MX scales of a row turned into values; what lies outside the tensor reads as zero (R198). -/
def rowVals (s : State) (g fl tag : Nat) (o : Oper) (r c n : Nat) : State × List FV :=
  let (s, qs) := readCodes s g fl tag o.e r c n
  let (s, xs) := readScales s g fl tag o.e r c n
  (s, (qs.zip xs).map fun e => match e.1 with
    | some q => (elemVal o.e.fmt o.q.book q e.2).norm
    | none => fzero false)

/-! ### Parameters and dequantisation -/

/-- Scale, offset and zero point of an INT8 channel. -/
structure Chan where
  sc : FV
  off : FV
  zp : Int
  deriving DecidableEq, Repr

/-- Entry `i` of a channel array (R124). -/
def chanAt (s : State) (g : Nat) (q : QRec) (i : Nat) : Chan :=
  let l := csRead s g (q.chan + 16 * i) 16
  ⟨fp32.dec (fieldLE 0 4 l), fp32.dec (fieldLE 4 4 l), sext 8 (fieldLE 8 1 l)⟩

/-- Tile adjustment of a tile: 0 where there is no array (R130). -/
def tileAdj (s : State) (g : Nat) (q : QRec) (t : Nat) : Int :=
  if q.tadj = 0 then 0 else sext 8 (ofLE (csRead s g (q.tadj + t) 1))

/-- INT8 parameters of element (r, c) of an operand (R130): 2^adj multiplies the per-tensor scale. -/
def int8Params (s : State) (g : Nat) (o : Oper) (r c : Nat) : Chan :=
  match o.q.gran with
  | 1 => chanAt s g o.q r
  | 2 => chanAt s g o.q c
  | _ => ⟨(fp32.dec o.q.scale).scale (tileAdj s g o.q o.t), fp32.dec o.q.offset, o.q.zp⟩

/-- The factor of a per-tensor FP8 or Sloe4 operand, S · 2^adj (R130); one for every other format. -/
def operFactor (s : State) (g : Nat) (o : Oper) : FV :=
  if o.e.fmt = 6 ∨ o.e.fmt = 7 ∨ o.e.fmt = 0x10 ∨ o.e.fmt = 0x11 then (fp32.dec o.q.scale).scale (tileAdj s g o.q o.t)
  else .fin false 1 0

/-- m + s · (q − z), exactly (R128, R130). -/
def int8Value (p : Chan) (q : Int) : FV := (p.off.add false (p.sc.mul (FV.ofInt (q - p.zp)))).norm

/-- Decoded values of a row, exact (R130). -/
def rowDeq (s : State) (g fl tag : Nat) (o : Oper) (r c n : Nat) : State × List FV :=
  let (s, vs) := rowVals s g fl tag o r c n
  if o.e.fmt = 0x0E then
    let (s, qs) := readCodes s g fl tag o.e r c n
    (s, ((List.range n).zip qs).map fun e => match e.2 with
      | some q => int8Value (int8Params s g o r (c + e.1)) (sext 8 q)
      | none => fzero false)
  else if recScaled o.e.fmt then
    let f := operFactor s g o
    (s, vs.map fun v => (v.mul f).norm)
  else (s, vs)

/-! ### Gather stamps -/

/-- Address of the tail stamp (R306). -/
def tailAddr (e : TEnt) : Nat :=
  let z := if isMx e.fmt then e.scaleAddr + (if e.axis = 0 then e.rows else ceilDiv e.rows 32) * e.scaleStride
    else e.addr + e.rows * e.rowStride
  (z + 31) / 32 * 32

/-- The stamp check of one operand (R308): head and tail generations where it fails, and whether the gap is beyond
comparison (R412). -/
def stampCheck (s : State) (g fl tag : Nat) (e : TEnt) : State × Option (Nat × Nat × Bool) :=
  if !e.genV then (s, none)
  else
    let (s, hb) := spRead s g fl tag e.space 0 (e.addr - 32) 32
    let (s, tb) := spRead s g fl tag e.space 0 (tailAddr e) 32
    let h := fieldLE 0 2 hb
    let t := fieldLE 0 2 tb
    let far := fun (b : List Byte) => match openStep s with
      | some st => decide (32768 < fieldLE 8 6 b - st.step) || decide (32768 < st.step - fieldLE 8 6 b)
      | none => false
    let gap := far hb || far tb || serialDist h e.gen == 32768 || serialDist t e.gen == 32768
    (s, if gap || h != e.gen || t != e.gen then some (h, t, gap) else none)

/-- The stamp checks of the operands that a descriptor reads; a failure is reported once (R308, R309, R412). -/
def stampChecks (s : State) (g fl tag : Nat) (es : List TEnt) : State :=
  let (s, bad) := es.foldl (fun (acc : State × Option (Nat × Nat × Nat × Bool)) e =>
    let (s, r) := stampCheck acc.1 g fl tag e
    (s, match acc.2 with
      | some b => some b
      | none => r.map fun x => (e.gen, x.1, x.2.1, x.2.2))) (s, none)
  match bad with
  | none => s
  | some (gen, h, t, gap) =>
    let s := bumpSat s F.CORE_GEN_COUNT_COUNT g 1
    let s := if rb s F.CORE_GEN_EVENT_STALE g then s
      else
        let s := wf (wf s F.CORE_GEN_INFO_HEAD_GEN g h) F.CORE_GEN_INFO_TAIL_GEN g t
        wf (wf s F.CORE_GEN_EXP_EXP_GEN g gen) F.CORE_GEN_TAG_TAG g tag
    raise (ev s F.CORE_GEN_EVENT_STALE g) (if gap then E.GEN_GAP else E.STALE_GATHER) (U.core g) tag (h + t * 2 ^ 16 + gen * 2 ^ 32)

end Sys2Proof.Machine
end

