-- ==== Sys2Proof/Machine/Quant.lean ====
section
/-! DEFINITION. The quantiser of the feeder, the drain and the vector engine: smoothing and rotation, choice of scale, narrowing, delayed scaling, and the histogram record (R105 to R115, R121 to R148). -/

namespace Sys2Proof.Machine

/-! ### Exact helpers -/

/-- Quotient of two values with 70 bits and more below the first, the last of them set when anything follows: every
rounding of R108 to R111 sees the exact quotient in it. -/
def FV.quot (a b : FV) : FV :=
  match a, b with
  | .fin s m e, .fin t n f =>
    if n = 0 then .nan false
    else if m = 0 then .fin (s != t) 0 0
    else
      let (q, k, st) := divMag m n e f
      (FV.fin (s != t) (2 * q + b2n st) (k - 1)).norm
  | .inf s, .fin t _ _ => .inf (s != t)
  | .fin s _ _, .inf t => .fin (s != t) 0 0
  | _, _ => .nan false

/-- Round to FP32, nearest-even. -/
def f32 (v : FV) : FV := (fp32.narrow 0 2 0 v).val.norm

/-- Round a finite value to an integer under a mode of R108. -/
def roundInt (mode r : Nat) (v : FV) : Int :=
  match v with
  | .fin s m e =>
    if m = 0 then 0
    else
      let (t, q, _) := roundMag (bitLen m + 1) (some 0) mode s r m e false
      let n : Int := ((t * 2 ^ q.toNat : Nat) : Int)
      if s then -n else n
  | _ => 0

/-- The smallest FP32 value at or above a positive quotient (R127). -/
def up32 (v : FV) : Nat := (fp32.narrow 2 2 0 v).code

/-- Transpose a matrix of rows of equal length. -/
def transpose {α : Type} (n : Nat) (m : List (List α)) : List (List α) :=
  (List.range n).map fun j => m.filterMap fun r => r[j]?

/-- Cut a list into runs of `n`. -/
def runs {α : Type} : Nat → Nat → List α → List (List α)
  | 0, _, _ => []
  | fuel + 1, n, l => if l.isEmpty then [] else l.take n :: runs fuel n (l.drop n)

/-! ### Steps 1 and 2: smoothing and rotation -/

/-- Smoothing of a row from reduction index `c0` on (R136). -/
def smoothRow (s : State) (g : Nat) (q : QRec) (c0 : Nat) (l : List FV) : List FV :=
  if q.smooth then
    l.mapIdx fun j v =>
      let e := sext 8 (ofLE (csRead s g (q.smoothA + c0 + j) 1))
      v.scale (if q.rotSide then e else -e)
  else l

/-- One butterfly stage at distance `h`, each sum rounded to FP32 (R135). -/
def butterfly (h : Nat) (l : List FV) : List FV :=
  (List.range l.length).map fun i =>
    let at_ := fun (k : Nat) => l.getD k (fzero false)
    if i / h % 2 = 0 then f32 ((at_ i).add false (at_ (i + h))) else f32 ((at_ (i - h)).add false (at_ i).neg)

/-- Length of a rotation block; 1 where there is none (R123). -/
def rotLen (q : QRec) : Nat :=
  match q.rot with
  | 1 => 32
  | 2 => 64
  | 3 => 128
  | _ => 1

/-- Sign flip and Hadamard rotation of one block (R135); stages in rising distance (log 18). -/
def rotBlock (q : QRec) (l : List FV) : List FV :=
  let n := rotLen q
  let l := l.mapIdx fun i v => if bit i q.signs then v.neg else v
  let l := (List.range (Nat.log2 n)).foldl (fun l k => butterfly (2 ^ k) l) l
  if q.rotSide then l.map (FV.scale (-(Nat.log2 n : Int))) else l

/-- Rotation of a row; a run cut short by the row's end has no stated result, its elements are free (log 7). -/
def rotRow (s : State) (q : QRec) (l : List FV) : State × List FV :=
  let n := rotLen q
  if n = 1 then (s, l)
  else
    (runs (l.length + 1) n l).foldl (fun (acc : State × List FV) b =>
      if b.length = n then (acc.1, acc.2 ++ rotBlock q b)
      else
        b.foldl (fun (acc : State × List FV) _ => let (v, s) := fresh acc.1; (s, acc.2 ++ [fp32.dec (v % 2 ^ 32)])) acc) (s, [])

/-- Steps 1 and 2 of R121 on a matrix. -/
def prepare (s : State) (g : Nat) (q : QRec) (c0 : Nat) (m : List (List FV)) : State × List (List FV) :=
  m.foldl (fun (acc : State × List (List FV)) r =>
    let (s, r) := rotRow acc.1 q (smoothRow acc.1 g q c0 r)
    (s, acc.2 ++ [r])) (s, [])

/-! ### Narrowing -/

/-- What an output is counted as (R113, R114). -/
inductive QCls where
  | zero | sub | inf | nan | norm
  deriving DecidableEq, Repr

/-- One quantised element: code, MX scale byte, class, saturation, IEEE flags. -/
structure QEl where
  code : Nat
  x : Nat
  cls : QCls
  sat : Bool
  flags : Flags
  deriving DecidableEq, Repr

/-- Settings of a narrowing: rounding mode, overflow setting, seed and tag of R110. -/
structure QSet where
  rnd : Nat
  ovf : Nat
  seed : Nat
  tag : Nat
  deriving DecidableEq, Repr

/-- The random value of an element (R110); it is used under stochastic rounding alone. -/
def QSet.r (k : QSet) (idx : Nat) : Nat := if k.rnd = 4 then srBits k.seed k.tag idx else 0

/-- Class of a value of a floating-point format. -/
def clsOf (f : FFmt) (v : FV) : QCls :=
  match v with
  | .nan _ => .nan
  | .inf _ => .inf
  | .fin _ m e => if m = 0 then .zero else if ilog2 m e < f.emin then .sub else .norm

/-- Narrow a value into a floating-point format (R106 to R109). -/
def quantFloat (f : FFmt) (k : QSet) (idx x : Nat) (v : FV) : QEl :=
  let n := f.narrow k.rnd k.ovf (k.r idx) v
  ⟨n.code, x, clsOf f n.val, n.sat, n.flags⟩

/-- Round to an integer code and clamp (R107); an infinity takes the extreme code of its sign. -/
def quantInt (k : QSet) (idx : Nat) (lo hi : Int) (v : FV) : Int × Bool :=
  match v with
  | .inf s => (if s then lo else hi, true)
  | .nan _ => (0, false)
  | v =>
    let n := roundInt k.rnd (k.r idx) v
    if n < lo then (lo, true) else if hi < n then (hi, true) else (n, false)

/-- emax of an MX element format (R127). -/
def mxEmax : Nat → Int
  | 8 => 8
  | 9 => 15
  | 0xA => 4
  | 0xB => 2
  | 0xC => 2
  | _ => 0

/-- Larger magnitude of two values, NaNs ignored. -/
def maxAbs (a b : FV) : FV := if a.isNan then b.abs else if a.abs.lt b.abs then b.abs else a.abs

/-- Scale byte of a block (R107, R127). -/
def blockScale (fmt : Nat) (vs : List FV) : Nat :=
  if vs.any (·.isNan) then 255
  else
    match (vs.filter fun v => v.isFin && !v.isZero).foldl maxAbs (.fin false 0 0) with
    | .fin _ m e =>
      if m = 0 then (if vs.any (·.isInf) then 254 else 0)
      else (max (-127) (min 127 (ilog2 m e - mxEmax fmt)) + 127).toNat
    | _ => 254

/-- One element of a block with scale byte `x` (R99, R107, R127). -/
def quantMx (fmt : Nat) (k : QSet) (x : Nat) (allZero : Bool) (idx : Nat) (v : FV) : QEl :=
  if allZero then ⟨0, 0, .zero, false, 0⟩
  else if fmt = 0x0D then
    (if x = 255 then ⟨0, x, .nan, false, 0⟩
     else
       let (q, sat) := quantInt k idx (-127) 127 (v.scale (127 - (x : Int) + 6))
       ⟨unsext 8 q, x, if q = 0 then .zero else .norm, sat, 0⟩)
  else
    match ffmt fmt with
    | none => ⟨0, x, .nan, false, 0⟩
    | some f =>
      if x = 255 then
        let c := if f.topNan ∨ f.hasInf then (f.narrow k.rnd k.ovf (k.r idx) (v.scale (127 - (x : Int)))).code else 0
        ⟨c, x, .nan, false, 0⟩
      else if v.isInf then ⟨f.enc (f.maxFin v.negative), x, .norm, true, 0⟩
      else quantFloat f k idx x (v.scale (127 - (x : Int)))

/-- One MX block of indexed values. -/
def quantBlock (fmt : Nat) (k : QSet) (l : List (Nat × FV)) : List QEl :=
  let vs := l.map (·.2)
  let x := blockScale fmt vs
  l.map fun e => quantMx fmt k x (vs.all (·.isZero)) e.1 e.2

/-- One row of indexed values whose first element stands at `base` along the block axis (R99). -/
def quantBlocks (fmt : Nat) (k : QSet) (base : Nat) (l : List (Nat × FV)) : List QEl :=
  let head := 32 - base % 32
  (l.take head :: runs (l.length + 1) 32 (l.drop head)).flatMap (quantBlock fmt k)

/-- Does code `a` beat code `b` for a value (R105)? -/
def sloeBetter (levels : List FV) (y : FV) (a b : Nat) : Bool :=
  let la := levels.getD a (fzero false)
  let lb := levels.getD b (fzero false)
  let key := fun (l : FV) => b2n (l.isZero && l.negative != y.negative)
  match (y.sub la).abs.cmp (y.sub lb).abs with
  | .lt => true
  | .gt => false
  | .eq =>
    match la.abs.cmp lb.abs with
    | .lt => true
    | .gt => false
    | .eq => decide (key la < key lb)

/-- Encode a scaled value into Sloe4 or Sloe4-P (R105). -/
def quantSloe (levels : List FV) (v : FV) : QEl :=
  if v.isNan then ⟨0, 0, .nan, false, 0⟩
  else
    let top := levels.foldl (fun a b => if a.lt b then b else a) (levels.headD (fzero false))
    let bot := levels.foldl (fun a b => if b.lt a then b else a) (levels.headD (fzero false))
    let sat := top.lt v || v.lt bot
    let y := match v with
      | .inf s => if s then bot else top
      | v => v
    let c := (span 1 15).foldl (fun best i => if sloeBetter levels y i best then i else best) 0
    ⟨c, 0, if (levels.getD c (fzero false)).isZero then .zero else .norm, sat, 0⟩

/-! ### INT8 channels -/

/-- Parameters that a dynamic channel takes from its span, and whether it is constant (R127, R129). -/
def dynChan (qmode : Nat) (vs : List FV) : Nat × Nat × Int × Bool :=
  let fin := vs.filter (·.isFin)
  match fin with
  | [] => (0, 0, 0, true)
  | v0 :: rest =>
    let hi := rest.foldl (fun a b => if a.lt b then b else a) v0
    let lo := rest.foldl (fun a b => if b.lt a then b else a) v0
    if hi.eqv lo then (0, (fp32.narrow 0 2 0 v0).code, 0, true)
    else if qmode = 3 then (up32 ((maxAbs hi lo).quot (.fin false 127 0)), 0, 0, false)
    else (up32 ((hi.sub lo).quot (.fin false 255 0)), (fp32.narrow 0 2 0 lo).code, -128, false)

/-- One element of an INT8 channel (R107, R127 to R129); a scale that is not positive and finite has no stated code, it
is the free byte (log 7). -/
def quantInt8 (qmode : Nat) (k : QSet) (p : Chan) (const : Bool) (free idx : Nat) (v : FV) : QEl :=
  let low : Int := if qmode = 3 then -127 else -128
  if v.isNan then ⟨0, 0, .nan, false, 0⟩
  else if const then ⟨0, 0, if p.off.isZero then .zero else .norm, v.isInf, 0⟩
  else if !(p.sc.isFin && !p.sc.isZero && !p.sc.negative && p.off.isFin) then ⟨free % 256, 0, .norm, false, 0⟩
  else
    let (q, sat) := quantInt k idx (low - p.zp) (127 - p.zp) ((v.add false p.off.neg).quot p.sc)
    ⟨unsext 8 (q + p.zp), 0, if (int8Value p (q + p.zp)).isZero then .zero else .norm, sat, 0⟩

/-! ### The quantiser -/

/-- What a quantiser works for. -/
structure QJob where
  g : Nat
  o : Oper
  /-- the format that it delivers -/
  fmt : Nat
  set : QSet
  /-- the feeder's quantiser writes no tensor -/
  feeder : Bool
  /-- a drain that can drain its rows again (R142) -/
  redrain : Bool
  deriving DecidableEq, Repr

/-- What a quantiser delivers: elements, the channels used, the per-tensor factor, the values it binned, and AMAX. -/
structure QOut where
  els : List (List QEl)
  chans : List Chan
  factor : FV
  vals : List (List FV)
  amax : FV
  recomputed : Bool
  deriving DecidableEq, Repr

/-- Largest magnitude of a matrix, NaNs ignored (R113). -/
def amaxOf (m : List (List FV)) : FV := m.foldl (fun a r => r.foldl maxAbs a) (.fin false 0 0)

/-- Record an event of the quantiser with its tag (R148). -/
def qntEvent (s : State) (f : Fld) (g tag : Nat) : State := wf (ev s f g) F.QNT_EVENT_TAG_TAG g tag

/-- Count in a QNT_ count while CNT_EN is set. -/
def qntCount (s : State) (f : Fld) (g n : Nat) : State := if rb s F.QNT_CTRL_CNT_EN g then bumpSat s f g n else s

/-- Set status bits of a quantisation record (R123). -/
def qrecStatus (s : State) (g : Nat) (o : Oper) (b : Nat) : State :=
  if b = 0 ∨ ¬ o.e.qrecV then s
  else
    let a := 64 * o.q.line + 4
    csWrite s g a (toLE 4 (fieldLE 0 4 (csRead s g a 4) ||| b))

/-- Quantise the channels of an INT8 output or operand; the channel array takes dynamic parameters (R126 to R129). Answers
the elements by channel, the channels and the number of constant ones. -/
def quantChans (s : State) (j : QJob) (ex : Int) (delayed : Bool) (base : Nat) (chans : List (List (Nat × FV))) :
    State × List (List QEl) × List Chan × Nat :=
  chans.foldl (fun (acc : State × List (List QEl) × List Chan × Nat) l =>
    let (s, els, cs, n) := acc
    let i := base + cs.length
    let dyn := j.o.q.src == 1 && j.o.q.gran != 0
    let (sb, ob, z, const) := dynChan j.o.q.qmode (l.map (·.2))
    let p : Chan :=
      if dyn then ⟨fp32.dec sb, fp32.dec ob, z⟩
      else if delayed then ⟨.fin false 1 ex, fzero false, 0⟩
      else if j.o.q.gran = 0 then ⟨fp32.dec j.o.q.scale, fp32.dec j.o.q.offset, j.o.q.zp⟩
      else chanAt s j.g j.o.q i
    let const := dyn && const
    let s := if dyn then
        csWrite s j.g (j.o.q.chan + 16 * i) (toLE 4 sb ++ toLE 4 ob ++ toLE 1 (unsext 8 z) ++ toLE 1 (b2n const) ++ toLE 6 0)
      else s
    let (v, s) := fresh s
    (s, els ++ [l.map fun e => quantInt8 j.o.q.qmode j.set p const v e.1 e.2], cs ++ [p], n + b2n const)) (s, [], [], 0)

/-- Steps 3 to 6 of R121 on values that are smoothed and rotated, under an exponent of delayed scaling. -/
def quantEls (s : State) (j : QJob) (ex : Int) (delayed : Bool) (m : List (List FV)) : State × List (List QEl) × List Chan × Nat :=
  let cols := (m.headD []).length
  let im := m.mapIdx fun i r => r.mapIdx fun c v => (i * cols + c, v)
  let sc := if delayed then FV.fin false 1 ex else fp32.dec j.o.q.scale
  if isMx j.fmt then
    if j.o.e.axis = 1 ∧ ¬ j.feeder then
      (s, transpose m.length ((transpose cols im).map (quantBlocks j.fmt j.set j.o.row0)), [], 0)
    else (s, im.map (quantBlocks j.fmt j.set j.o.col0), [], 0)
  else if j.fmt = 0x0E then
    match j.o.q.gran with
    | 1 => quantChans s j ex delayed j.o.row0 im
    | 2 =>
      let (s, els, cs, n) := quantChans s j ex delayed j.o.col0 (transpose cols im)
      (s, transpose m.length els, cs, n)
    | _ =>
      let (s, els, cs, n) := quantChans s j ex delayed 0 [im.flatten]
      (s, runs (m.length + 1) cols els.flatten, cs, n)
  else if j.fmt = 0x10 ∨ j.fmt = 0x11 then
    let lv := if j.fmt = 0x10 then sloeLevels.map bf16.dec else j.o.q.book.map bf16.dec
    (s, im.map fun r => r.map fun e => quantSloe lv (e.2.quot sc), [], 0)
  else
    match ffmt j.fmt with
    | some f =>
      (s, im.map fun r => r.map fun e => quantFloat f j.set e.1 0 (if j.o.q.qmode = 1 then e.2.quot sc else e.2), [], 0)
    | none => (s, im.map fun r => r.map fun _ => ⟨0, 0, .zero, false, 0⟩, [], 0)

/-- Number of non-zero values that became zero (R113). -/
def underflows (m : List (List FV)) (els : List (List QEl)) : Nat :=
  ((m.flatten.zip els.flatten).filter fun e => e.2.cls == .zero && e.1.isFin && !e.1.isZero).length

/-- The column sums of INT8 codes go to their array (R129). -/
def addColSums (s : State) (j : QJob) (els : List (List QEl)) : State :=
  let row := j.o.t / j.o.e.tilesAcross
  (List.range (min (els.headD []).length j.o.ncols)).foldl (fun s c =>
    let tot := ((els.take j.o.nrows).map fun r => sext 8 (r.getD c ⟨0, 0, .zero, false, 0⟩).code).foldl (· + ·) 0
    (atomicDo s { src := .core j.g, addr := j.o.q.colsum + 4 * (row * j.o.e.cols + j.o.col0 + c), op := 0, etype := 0
                  lineOp := false, operand := unsext 32 tot, comparand := 0, data := [], tag := j.set.tag }).1) s

/-- The counters and events of a tile under delayed scaling (R141 to R143). -/
def delayedEvents (s : State) (j : QJob) (rows : Nat) (satTile recompSat recomp : Bool) (adj : Int) (under : Bool) : State :=
  let tag := j.set.tag
  let s := if satTile then qntEvent (qntCount s F.QNT_SAT_TILES_COUNT j.g 1) F.QNT_EVENT_OVF_SAT j.g tag else s
  let s := if recompSat then qntEvent s F.QNT_EVENT_RECOMP_SAT j.g tag else s
  let s := if recomp then
      let s := qntEvent (qntCount s F.QNT_RECOMP_TILES_COUNT j.g 1) F.QNT_EVENT_RECOMP j.g tag
      wf (bumpIf s F.QNT_CTRL_CNT_EN F.QNT_REDRAIN_CYC_LO_COUNT j.g rows) F.QNT_STATUS_LAST_ADJ j.g (unsext 8 adj)
    else s
  if under then qntEvent (qntCount s F.QNT_UNDER_TILES_COUNT j.g 1) F.QNT_EVENT_UNDER j.g tag else s

/-- The quantiser (R121): answers the quantised elements; the record, the arrays and the scale slot take what R122, R129,
R134 and R140 to R143 write. -/
def quantise (s : State) (j : QJob) (m : List (List FV)) : State × QOut :=
  let q := j.o.q
  let tag := j.set.tag
  let (s, m) := prepare s j.g q j.o.col0 m
  let am := amaxOf m
  let delayed := q.src == 2 && q.qmode != 0 && q.qmode != 2
  let (s, slot) := if delayed then memRead s (.core j.g) tag 0 q.slot 128 else (s, [])
  let e0 := sext 8 (fieldLE 0x50 1 slot)
  let fm := (fmaxOf j.fmt).getD (.fin false 1 0)
  let exceeded := delayed && (fm.scale e0).lt am
  let again := exceeded && q.recompute && j.redrain && rb s F.QNT_CTRL_RECOMP_EN j.g
  let recomp := again && am.isFin
  let need := ceilLog2Div am fm - e0
  let adj := if recomp then min 127 need else 0
  let satTile := exceeded && (!recomp || decide (127 < need))
  let s := if delayed && !j.feeder then
      csWrite s j.g (64 * q.line + 8) (toLE 4 (fp32.narrow 0 2 0 (.fin false 1 e0)).code) else s
  let s := if q.tadj ≠ 0 ∧ ¬ j.feeder ∧ j.o.e.qrecV then csWrite s j.g (q.tadj + j.o.t) (toLE 1 (unsext 8 adj)) else s
  let (s, els, chans, consts) := quantEls s j (e0 + adj) delayed m
  let sat := els.any fun r => r.any (·.sat)
  let s := qrecStatus s j.g j.o (b2n (consts ≠ 0) + 2 * b2n recomp + 4 * b2n sat)
  let s := if consts = 0 then s else qntEvent (qntCount s F.QNT_CONST_COUNT_COUNT j.g consts) F.QNT_EVENT_CONST j.g tag
  let s := if j.fmt = 0x0E ∧ q.colsum ≠ 0 ∧ ¬ j.feeder then addColSums s j els else s
  let out : QOut := ⟨els, chans, if delayed then .fin false 1 (e0 + adj) else fp32.dec q.scale, m, am, recomp⟩
  if !delayed || j.feeder then (s, out)
  else
    let n := fieldLE 0x54 1 slot % 32
    let under := n ≠ 0 && decide (m.flatten.length < underflows m els * 2 ^ n)
    let s := delayedEvents s j m.length satTile (again && !recomp) recomp adj under
    (if rb s F.QNT_CTRL_STAGE_EN j.g then
        stageDo s j.g q.slot (fp32.narrow 0 2 0 am).code under (b2n satTile) (b2n recomp) tag
      else s, out)

/-! ### Writing a quantised tile -/

/-- The MX scales of a quantised tile, from the first row and column of its tile on (R198, R199). -/
def writeScales (s : State) (g tag : Nat) (o : Oper) (els : List (List QEl)) : State :=
  let k := min (els.headD []).length (o.e.cols - o.col0)
  (els.zip (span o.row0 els.length)).foldl (fun s e =>
    if o.e.rows ≤ e.2 ∨ k = 0 then s
    else if o.e.axis = 0 then
      let n := (o.col0 + k - 1) / 32 + 1 - o.col0 / 32
      spWrite s g tag o.e.space o.e.hint (o.e.scaleAddr + e.2 * o.e.scaleStride + o.col0 / 32)
        ((List.range n).map fun b => BitVec.ofNat 8 (e.1.getD (32 * b) ⟨0, 0, .zero, false, 0⟩).x)
    else if e.2 % 32 = 0 then
      spWrite s g tag o.e.space o.e.hint (o.e.scaleAddr + e.2 / 32 * o.e.scaleStride + o.col0)
        ((e.1.take k).map fun q => BitVec.ofNat 8 q.x)
    else s) s

/-- Write the codes of a quantised tile. -/
def writeTileCodes (s : State) (g fl tag : Nat) (o : Oper) (els : List (List QEl)) : State :=
  (els.zip (span o.row0 els.length)).foldl (fun s e => writeCodes s g fl tag o.e e.2 o.col0 (e.1.map (·.code))) s

/-- Write a quantised tile with its MX scales. -/
def writeTile (s : State) (g fl tag : Nat) (o : Oper) (els : List (List QEl)) : State :=
  let s := writeTileCodes s g fl tag o els
  if isMx o.e.fmt then writeScales s g tag o els else s

/-! ### The histogram record -/

/-- The counts of a record in their order from ELEMENTS to NAN (R113, R114). -/
def histCounts (m : List (List FV)) (els : List (List QEl)) : List Nat :=
  let l := m.flatten.zip els.flatten
  let cnt := fun (p : FV × QEl → Bool) => (l.filter p).length
  [l.length, cnt fun e => e.2.cls == .zero, underflows m els, cnt fun e => e.2.cls == .sub,
   cnt fun e => e.2.sat && e.2.cls != .nan, cnt fun e => e.2.cls == .inf, cnt fun e => e.2.cls == .nan]

/-- Bin of a finite, non-zero value (R114). -/
def histBin (base : Int) (v : FV) : Option Nat :=
  match v with
  | .fin _ m e => if m = 0 then none else some (min 63 (ilog2 m e - base).toNat)
  | _ => none

/-- The 64 bins of a matrix. -/
def histBins (base : Int) (m : List (List FV)) : List Nat :=
  let bs := m.flatten.filterMap (histBin base)
  (List.range 64).map fun b => (bs.filter (· == b)).length

/-- Write the record of a descriptor to its slot (R113 to R115). -/
def histWrite (s : State) (g line tag fmt base : Nat) (acc : Bool) (m : List (List FV)) (els : List (List QEl)) : State :=
  let a := 64 * line
  let old := csRead s g a 320
  let cur := histCounts m els
  let bins := histBins (sext 8 base) m
  let am := (fp32.narrow 0 2 0 (amaxOf m)).code
  let add := fun (off n : Nat) => if acc then fieldLE off 4 old + n else n
  let cs := cur.mapIdx fun i n => add (8 + 4 * i) n
  let bs := bins.mapIdx fun i n => add (0x40 + 4 * i) n
  let clamped := (cs ++ bs).any (fun n => decide (0xFFFFFFFF < n)) || (acc && bit 24 (fieldLE 0 4 old))
  let am := if acc then ampMax am (fieldLE 0x24 4 old) else am
  csWrite s g a
    (toLE 4 (fmt + 256 + base % 256 * 2 ^ 16 + b2n clamped * 2 ^ 24) ++ toLE 4 tag ++ cs.flatMap (fun n => toLE 4 (min n 0xFFFFFFFF))
      ++ toLE 4 am ++ List.replicate 24 0 ++ bs.flatMap (fun n => toLE 4 (min n 0xFFFFFFFF)))

/-- IEEE flags that a quantiser gathered (R157). -/
def quantFlags (els : List (List QEl)) : Flags := els.foldl (fun a r => r.foldl (fun a e => a ||| e.flags) a) 0

end Sys2Proof.Machine
end

