-- ==== Sys2Proof/Machine/Elementary.lean ====
section
/-! DEFINITION. The elementary functions of class T (R120, R154): the exact result to some 500 bits, and with it the values that the bound of two units in the last place admits (log 13). -/

namespace Sys2Proof.Machine

/-! ### Reals as whole numbers of 2^−768 -/

/-- Binary places of the approximations. -/
def fxBits : Nat := 768

/-- One. -/
def fxOne : Int := 2 ^ fxBits

def fxMul (a b : Int) : Int := a * b / fxOne
def fxDiv (a b : Int) : Int := if b = 0 then 0 else a * fxOne / b

/-- A magnitude times a power of two, truncated to the grid. -/
def fxOf (neg : Bool) (m : Nat) (e : Int) : Int :=
  let k := e + fxBits
  let n : Int := if 0 ≤ k then (m * 2 ^ k.toNat : Nat) else (m / 2 ^ (-k).toNat : Nat)
  if neg then -n else n

/-- A series whose term n + 1 is term n times `x` times `num n` over `den n`: the sum of `fuel` terms weighted by 1 / `w n`. -/
def series (x : Int) (num den w : Nat → Int) : Nat → Nat → Int → Int → Int
  | 0, _, _, acc => acc
  | fuel + 1, n, term, acc => series x num den w fuel (n + 1) (fxMul term x * num n / den n) (acc + term / w n)

/-- Inverse hyperbolic (`s` = 1) or circular (`s` = −1) tangent of a small number. -/
def fxAtan (s t : Int) : Int := series (s * fxMul t t) (fun _ => 1) (fun _ => 1) (fun n => 2 * n + 1) 400 0 t 0

def fxLn2 : Int := 2 * fxAtan 1 (fxOne / 3)
def fxPi : Int := 16 * fxAtan (-1) (fxOne / 5) - 4 * fxAtan (-1) (fxOne / 239)

/-- e^r for a small r. -/
def fxExp (r : Int) : Int := series r (fun _ => 1) (fun n => n + 1) (fun _ => 1) 160 0 fxOne 0

/-- Square root. -/
def fxSqrt (a : Int) : Int := (isqrt (a.toNat * 2 ^ fxBits) : Nat)

/-- sin (`odd`) or cos of a number between −1 and 1. -/
def fxTrig (odd : Bool) (r : Int) : Int :=
  let o : Int := if odd then 1 else 0
  series (-(fxMul r r)) (fun _ => 1) (fun n => (2 * n + 1 + o) * (2 * n + 2 + o)) (fun _ => 1) 120 0 (if odd then r else fxOne) 0

/-! ### Approximations n · 2^e of the functions -/

/-- An approximation of a real number: n · 2^e. -/
abbrev Apx := Int × Int

def Apx.mul (a b : Apx) : Apx := (a.1 * b.1, a.2 + b.2)
def Apx.toFV (a : Apx) : FV := .fin (decide (a.1 < 0)) a.1.natAbs a.2

/-- A grid value cut to a range in which the functions leave the FP32 range. -/
def fxClamp (x : Int) : Int := max (-(1024 * fxOne)) (min (1024 * fxOne) x)

/-- e^x. -/
def apxExp (x : Int) : Apx :=
  let x := fxClamp x
  let k := (2 * x + fxLn2) / (2 * fxLn2)
  (fxExp (x - k * fxLn2), k - fxBits)

/-- An approximation on the grid. -/
def Apx.fx (a : Apx) : Int := fxOf (decide (a.1 < 0)) a.1.natAbs a.2

/-- 1 / (1 + e^−x). -/
def apxSigmoid (x : Int) : Apx :=
  let e := apxExp (-x.natAbs)
  let d := fxOne + e.fx
  if 0 ≤ x then (fxDiv fxOne d, -fxBits) else (fxDiv e.1 d, e.2)

/-- tanh x. -/
def apxTanh (x : Int) : Apx :=
  let e := (apxExp (-2 * x.natAbs)).fx
  let t := fxDiv (fxOne - e) (fxOne + e)
  (if 0 ≤ x then t else -t, -fxBits)

/-- ln of m · 2^e. -/
def apxLn (m : Nat) (e : Int) : Int :=
  let k := (bitLen m : Int) - 1
  let f := fxOf false m (-k)
  2 * fxAtan 1 (fxDiv (f - fxOne) (f + fxOne)) + (e + k) * fxLn2

/-- The normal distribution function Φ; beyond 16 it is 0 or 1 for every FP32 purpose. -/
def apxPhi (x : Int) : Int :=
  let a : Int := x.natAbs
  let q :=
    if 16 * fxOne ≤ a then 1
    else
      let s := series (fxMul a a) (fun _ => 1) (fun n => 2 * n + 3) (fun _ => 1) 1200 0 a 0
      fxOne / 2 - fxMul (fxDiv (apxExp (-(fxMul a a) / 2)).fx (fxSqrt (2 * fxPi))) s
  if 0 ≤ x then fxOne - q else q

/-- sin (`odd`) or cos of any number: the quarter of the circle, then the series. -/
def apxTrig (odd : Bool) (x : Int) : Int :=
  let h := fxPi / 2
  let k := (2 * x + h) / (2 * h)
  let r := x - k * h
  let j := (k + if odd then 0 else 1) % 4
  let v := fxTrig (j % 2 == 0) r
  if 2 ≤ j then -v else v

/-- The operand of tanh in the approximated GELU, doubled: 2 · √(2/π) · (x + 0.044715 · x³). PRESUMED (log 13): the manual names the
function and gives no constants. -/
def geluArg (x : Int) : Int :=
  let x := fxClamp x
  2 * fxMul (fxSqrt (fxDiv (2 * fxOne) fxPi)) (x + fxMul x (fxMul x x) * 44715 / 1000000)

/-- The exact result of an elementary function at a finite operand other than zero, to a small fraction of one unit. -/
def apxElem (op : Nat) (s : Bool) (m : Nat) (e : Int) : Apx :=
  let x := fxOf s m e
  let self : Apx := (if s then -(m : Int) else m, e)
  match op with
  | 0x13 =>
    let r := sqrtMag m e
    (((2 ^ (2 * fxBits) / (r.1 * 2 ^ fxBits) : Nat) : Int), -(fxBits : Int) - r.2.1)
  | 0x14 =>
    let x := fxClamp x
    let k := x / fxOne
    (fxExp (fxMul (x - k * fxOne) fxLn2), k - fxBits)
  | 0x15 => (fxDiv (apxLn m e) fxLn2, -fxBits)
  | 0x16 => apxExp x
  | 0x17 => (apxLn m e, -fxBits)
  | 0x18 => apxTanh x
  | 0x19 => apxSigmoid x
  | 0x1A => Apx.mul self (apxSigmoid (geluArg x))
  | 0x1B => Apx.mul self (apxPhi x, -fxBits)
  | 0x1C => Apx.mul self (apxSigmoid x)
  | 0x1D => (apxTrig true x, -fxBits)
  | _ => (apxTrig false x, -fxBits)

/-! ### Operands at which the exact result is a value of the format -/

/-- The result at zero, an infinity or outside the domain, with its flags, by IEEE 754; `none` where the function is computed. -/
def elemSpecial (op : Nat) (v : FV) : Option (FV × Flags) :=
  match v with
  | .nan s => some (.nan false, if s then 16 else 0)
  | .inf s =>
    match op with
    | 0x13 => some (if s then (.nan false, 16) else (fzero false, 0))
    | 0x14 | 0x16 => some (if s then fzero false else .inf false, 0)
    | 0x15 | 0x17 => some (if s then (.nan false, 16) else (.inf false, 0))
    | 0x18 => some (.fin s 1 0, 0)
    | 0x19 => some (if s then fzero false else .fin false 1 0, 0)
    | 0x1A | 0x1B | 0x1C => if s then none else some (.inf false, 0)
    | _ => some (.nan false, 16)
  | .fin s m _ =>
    if m = 0 then
      match op with
      | 0x13 => some (.inf s, 8)
      | 0x14 | 0x16 | 0x1E => some (.fin false 1 0, 0)
      | 0x15 | 0x17 => some (.inf true, 8)
      | 0x19 => some (.fin false 1 (-1), 0)
      | _ => some (fzero s, 0)
    else if s ∧ (op = 0x13 ∨ op = 0x15 ∨ op = 0x17) then some (.nan false, 16)
    else none

/-- Is the exact result at a finite operand m · 2^e, m odd, a dyadic number? -/
def elemExact (op : Nat) (m : Nat) (e : Int) : Bool :=
  match op with
  | 0x13 => m == 1 && e % 2 == 0
  | 0x14 => decide (0 ≤ e)
  | 0x15 => m == 1
  | 0x17 => m == 1 && e == 0
  | _ => false

/-! ### The delivered result -/

/-- Place of an FP32 value in the order of all of them. -/
def fpIndex (v : FV) : Int := let c : Int := (fp32.narrow 0 2 0 v.abs).code; if v.negative then -c else c

/-- The FP32 value at a place. -/
def fpAt (i : Int) : FV := let v := (fp32.dec i.natAbs).norm; if i < 0 then v.neg else v

/-- Is a finite value within two units in the last place of the result `r` from the exact result? -/
def withinT (exact r c : FV) : Bool :=
  match r with
  | .fin _ m e =>
    let u : FV := .fin false 2 (max (-149) (ilog2 (max m 1) e - 23))
    c.isFin && ((c.add false exact.neg).abs).le (if m = 0 then .fin false 2 (-149) else u)
  | _ => false

/-- The delivered result of class T: a free choice among the values within the bound, the rounded one where it overflows. -/
def elemPick (choice : Nat) (exact : FV) : FV :=
  let r := (fp32.narrow 0 2 0 exact).val
  let c := fpAt (fpIndex r + (choice % 5 : Nat) - 2)
  if withinT exact r c then (if c.isZero then fzero exact.negative else c) else r

/-- Flags of a delivered result (R157). -/
def elemFlags (isExact : Bool) (exact c : FV) : Flags :=
  if c.isInf then 5
  else
    let inex := !(isExact && c.eqv (fp32.narrow 0 2 0 exact).val)
    let tiny := match (fp32.narrow 0 2 0 exact).val with
      | .fin _ m e => m == 0 || decide (ilog2 m e < -126)
      | _ => false
    b2n inex + (if tiny && inex then 2 else 0)

/-- An elementary function of class T (R154): within the bound of R120 the result is free, and it is free altogether where the
manual's formula has no value (log 13). -/
def opElem (op : Nat) (a : FV) : FV × Flags :=
  let b := (fp32.narrow 0 2 0 a).code
  match elemSpecial op a with
  | some r => r
  | none =>
    match a.norm with
    | .fin s m e =>
      let y := (apxElem op s m e).toFV
      let c := elemPick (Config.elementary op b) y
      (c, elemFlags (elemExact op m e) y c)
    | _ =>
      (match (fp32.dec (Config.elementary op b % 2 ^ 32)).norm with
       | .nan _ => .nan false
       | r => r, Config.elementaryFlags op b % 32)

end Sys2Proof.Machine
end

