-- ==== Sys2Proof/Machine/Flags.lean ====
section
/-! DEFINITION. The operations of a vector stage with the IEEE 754 flags that they raise (R95, R97, R154, R157): invalid 16, divide-by-zero 8, overflow 4, underflow 2, inexact 1. -/

namespace Sys2Proof.Machine

/-- A result and the flags that it raises. -/
abbrev Res := FV × Flags

/-- Invalid for a signalling operand. -/
def sigFlag (l : List FV) : Flags := if l.any (·.isSnan) then 16 else 0

/-- Round an exact result to the chain type under a stage's mode. -/
def stageRound (f : FFmt) (mode : Nat) (v : FV) : Res :=
  if v.isNan then (.nan false, 0)
  else let n := f.narrow mode 2 0 v; (n.val.norm, n.flags)

/-- An operation whose exact result is a NaN without a NaN operand is invalid. -/
def stageExact (f : FFmt) (mode : Nat) (ops : List FV) (v : FV) : Res :=
  if ops.any (·.isNan) then (.nan false, sigFlag ops)
  else if v.isNan then (.nan false, 16)
  else stageRound f mode v

/-- Sum (R154). -/
def opAdd (f : FFmt) (mode : Nat) (a b : FV) : Res := stageExact f mode [a, b] (a.add (mode == 3) b)

/-- Division (R154). -/
def opDiv (f : FFmt) (mode : Nat) (a b : FV) : Res :=
  if a.isNan || b.isNan then (.nan false, sigFlag [a, b])
  else if b.isZero then
    (if a.isZero then (.nan false, 16) else (.inf (a.negative != b.negative), if a.isInf then 0 else 8))
  else stageExact f mode [a, b] (a.quot b)

/-- Square root (R154). -/
def opSqrt (f : FFmt) (mode : Nat) (a : FV) : Res :=
  match a with
  | .nan s => (.nan false, if s then 16 else 0)
  | .inf s => if s then (.nan false, 16) else (.inf false, 0)
  | .fin s m e =>
    if m = 0 then (.fin s 0 0, 0)
    else if s then (.nan false, 16)
    else
      let (r, k, st) := sqrtMag m e
      stageRound f mode (FV.fin false (2 * r + b2n st) (k - 1)).norm

/-- Minimum or maximum of IEEE 754-2019 (R154). -/
def opPick (max : Bool) (a b : FV) : Res :=
  if a.isNan || b.isNan then (.nan false, sigFlag [a, b])
  else (if fpBelow b a != max then b else a, 0)

/-- One or zero. -/
def boolVal (b : Bool) : FV := if b then .fin false 1 0 else .fin false 0 0

/-- A comparison: `quiet` raises invalid for a signalling NaN alone (R154). -/
def opCmp (quiet : Bool) (a b : FV) (r : Bool) : Res :=
  if a.isNan || b.isNan then (.fin false 0 0, if quiet then sigFlag [a, b] else 16) else (boolVal r, 0)

/-- Round to an integral value (R154). -/
def opRint (mode : Nat) (a : FV) : Res :=
  match a with
  | .nan s => (.nan false, if s then 16 else 0)
  | .inf s => (.inf s, 0)
  | .fin s m e =>
    let n := roundInt mode 0 a
    let r : FV := (FV.fin s n.natAbs 0).norm
    (r, if r.eqv (.fin s m e) then 0 else 1)

/-- A quiet copy of an operand. -/
def quiet (v : FV) : FV := if v.isNan then .nan false else v

/-- The operations of R154 that work on one lane. -/
def laneOp (f : FFmt) (op mode : Nat) (a b c : FV) : Res :=
  match op with
  | 0x01 => opAdd f mode a b
  | 0x02 => if b.isNan then (.nan false, sigFlag [a, b]) else opAdd f mode a b.neg
  | 0x03 => stageExact f mode [a, b] (a.mul b)
  | 0x04 => stageExact f mode [a, b, c] ((a.mul b).add (mode == 3) c)
  | 0x05 => opPick false a b
  | 0x06 => opPick true a b
  | 0x07 => (quiet a.abs, sigFlag [a])
  | 0x08 => (quiet a.neg, sigFlag [a])
  | 0x09 => opCmp false a b (a.lt b)
  | 0x0A => opCmp false a b (a.le b)
  | 0x0B => opCmp true a b (a.eqv b)
  | 0x0C => (quiet (if c.isZero then b else a), sigFlag [a, b, c])
  | 0x0E => opRint mode a
  | 0x10 => opDiv f mode a b
  | 0x11 => opSqrt f mode a
  | 0x12 => opDiv f mode (.fin false 1 0) a
  | 0x30 => (a, 0)
  | _ => opElem op a

/-- Is an operation code one of R154? -/
def opKnown (op : Nat) : Bool :=
  decide ((1 ≤ op ∧ op ≤ 0xE) ∨ (0x10 ≤ op ∧ op ≤ 0x1E) ∨ (0x20 ≤ op ∧ op ≤ 0x22) ∨ (0x28 ≤ op ∧ op ≤ 0x2A) ∨ op = 0x30)

/-- Does an operation run on a function unit (R154)? -/
def opFu (op : Nat) : Bool := decide (0x10 ≤ op ∧ op ≤ 0x1E)

/-- Is it a scan or a reduction? -/
def opScanRed (op : Nat) : Bool := decide (0x20 ≤ op ∧ op ≤ 0x2A)

/-- Does the vector engine's residue channel cover the operation (R160)? -/
def opCovered (op : Nat) : Bool :=
  decide ((1 ≤ op ∧ op ≤ 8) ∨ (0xC ≤ op ∧ op ≤ 0xE) ∨ (0x10 ≤ op ∧ op ≤ 0x12) ∨ (0x20 ≤ op ∧ op ≤ 0x2A))

/-- How many of SRC_A, SRC_B, SRC_C an operation reads. -/
def opArity (op : Nat) : Nat :=
  if op = 4 ∨ op = 0xC then 3
  else if (1 ≤ op ∧ op ≤ 6) ∨ (9 ≤ op ∧ op ≤ 0xB) ∨ op = 0x10 then 2 else 1

/-- The binary step of a scan or a reduction: sum under SRND, exact maximum or minimum. -/
def foldOp (f : FFmt) (op mode : Nat) (a b : FV) : Res :=
  match op % 8 with
  | 0 => opAdd f mode a b
  | 1 => opPick true a b
  | _ => opPick false a b

/-- Identity of a scan (R158). -/
def scanIdentity (op : Nat) : FV :=
  match op with
  | 0x21 => .inf true
  | 0x22 => .inf false
  | _ => .fin true 0 0

end Sys2Proof.Machine
end

