-- ==== Sys2Proof/Machine/Desc.lean ====
section
/-! DEFINITION. The fields of a descriptor, of a chain record and of a chain binding record (R152, R193, R201, R202). -/

namespace Sys2Proof.Machine

/-! ### Descriptor header (R193) -/

def dTag (d : List Byte) : Nat := fieldLE 0 4 d
def dOp (d : List Byte) : Nat := fieldLE 4 1 d
def dWrel (d : List Byte) : Bool := bit 0 (fieldLE 5 1 d)
def dAzn (d : List Byte) : Bool := bit 1 (fieldLE 5 1 d)
def dRnd (d : List Byte) : Nat := bits 2 0 (fieldLE 6 1 d)
def dOvf (d : List Byte) : Nat := bits 4 3 (fieldLE 6 1 d)
def dHistAcc (d : List Byte) : Bool := bit 5 (fieldLE 6 1 d)
def dSeed (d : List Byte) : Nat := bits 2 0 (fieldLE 7 1 d)
/-- Wait word `i`. -/
def dWait (d : List Byte) (i : Nat) : Nat := fieldLE (8 + 4 * i) 4 d
/-- Signal word `i`. -/
def dSig (d : List Byte) (i : Nat) : Nat := fieldLE (0x18 + 4 * i) 4 d
/-- Body word `i`. -/
def dW (d : List Byte) (i : Nat) : Nat := fieldLE (0x20 + 4 * i) 4 d
/-- A device address in two body words (R201). -/
def dAddr (d : List Byte) (i : Nat) : Nat := dW d i + bits 15 0 (dW d (i + 1)) * 2 ^ 32

/-! ### STREAM (R201) -/

def stM (d : List Byte) : Nat := bits 10 0 (dW d 3)
def stAcc (d : List Byte) : Nat := bits 20 11 (dW d 3)
def stPhase (d : List Byte) : Nat := bits 22 21 (dW d 3)
def stRelease (d : List Byte) : Bool := bit 23 (dW d 3)
def stFused (d : List Byte) : Bool := bit 24 (dW d 3)
def stK (d : List Byte) : Nat := bits 8 0 (dW d 4)
def stN (d : List Byte) : Nat := bits 23 16 (dW d 4)
/-- Does the pass use the drain's output path (R73)? -/
def stOut (d : List Byte) : Bool := decide (2 ≤ stPhase d)

/-- Lines and bin base of a descriptor's output settings: HIST line, CHAIN line, BIND line, HIST_BASE. -/
structure OutCfg where
  hist : Nat
  chain : Nat
  bind : Nat
  base : Nat
  deriving DecidableEq, Repr

/-- Those of a STREAM. -/
def stCfg (d : List Byte) : OutCfg := ⟨bits 15 0 (dW d 5), bits 31 16 (dW d 5), bits 15 0 (dW d 6), bits 31 24 (dW d 4)⟩
/-- Those of a VCHAIN or an OPTIM. -/
def vcCfg (d : List Byte) : OutCfg := ⟨bits 31 16 (dW d 2), bits 15 0 (dW d 2), bits 15 0 (dW d 3), bits 31 24 (dW d 3)⟩

/-- Output settings of a descriptor: the seed is the step seed that SEED names (R213). -/
def dSet (s : State) (g : Nat) (d : List Byte) : QSet :=
  let lo := F.SEQ_SEED_SEED.nth (2 * dSeed d)
  let hi := F.SEQ_SEED_SEED.nth (2 * dSeed d + 1)
  ⟨dRnd d, dOvf d, rf s lo g + rf s hi g * 2 ^ 32, dTag d⟩

/-! ### Chain binding record (R202) -/

def bnIn1 (b : List Byte) : Nat := fieldLE 0 4 b
def bnOut1 (b : List Byte) : Nat := fieldLE 4 4 b
/-- Lane vector `i`: its index where it is present. -/
def bnLane (b : List Byte) (i : Nat) : Option Nat :=
  let w := fieldLE 8 4 b
  if i = 0 then (if bit 13 w then some (bits 12 0 w) else none) else (if bit 29 w then some (bits 28 16 w) else none)
def bnSumm (b : List Byte) : Nat := bits 15 0 (fieldLE 0xC 4 b)
def bnSlot (b : List Byte) : Nat := bits 18 16 (fieldLE 0xC 4 b)

/-! ### Chain record (R152) -/

/-- A stage word. -/
structure Stage where
  op : Nat
  a : Nat
  b : Nat
  c : Nat
  srnd : Nat
  cidx : Nat
  seg : Nat
  excl : Bool
  carry : Bool
  axis : Bool
  tap : Bool
  fp64 : Bool
  resv : Bool
  deriving DecidableEq, Repr

/-- Read a stage word. -/
def stageOf (w : Nat) : Stage :=
  { op := bits 7 0 w, a := bits 11 8 w, b := bits 15 12 w, c := bits 19 16 w, srnd := bits 22 20 w, cidx := bits 27 24 w
    seg := bits 35 32 w, excl := bit 36 w, carry := bit 37 w, axis := bit 38 w, tap := bit 39 w, fp64 := bit 40 w
    resv := bits 63 41 w != 0 || bits 31 28 w != 0 || bit 23 w }

/-- The stages before the first whose OP is 0x00. -/
def chainStages (r : List Byte) : List Stage :=
  ((List.range 8).map fun i => stageOf (fieldLE (8 * i) 8 r)).takeWhile fun t => t.op != 0

/-- Source fields that a stage reads: its operands, and the segment heads of a scan (R153, R158). -/
def Stage.srcs (t : Stage) : List Nat :=
  [t.a, t.b, t.c].take (opArity t.op) ++ (if 0x20 ≤ t.op ∧ t.op ≤ 0x22 ∧ t.seg ≠ 0xF then [t.seg] else [])

/-- Does a chain read a source? -/
def chainUses (l : List Stage) (k : Nat) : Bool := l.any fun t => t.srcs.contains k

/-- Is the chain's type FP64 (R152)? -/
def chainFp64 (l : List Stage) (in0 : Nat) : Bool := if l.isEmpty then in0 == 1 else l.any (·.fp64)

/-- Constant `i` of a chain record. -/
def chainConst (r : List Byte) (w : Bool) (i : Nat) : FV :=
  if w then fp64.dec (fieldLE (0x40 + 8 * i) 8 r) else fp32.dec (fieldLE (0x40 + 4 * i) 4 r)

end Sys2Proof.Machine
end

