-- ==== Sys2Proof/Machine/Vector.lean ====
section
/-! DEFINITION. The vector engine: chains, scans, summaries, its residue channel, VCHAIN and OPTIM (chapter 07; R145 to R147). -/

namespace Sys2Proof.Machine

/-! ### Conversions -/

/-- Widen a decoded value to the chain type, one rounding (R130, R153). -/
def toChain (w : Bool) (v : FV) : FV :=
  if v.isNan then v else ((if w then fp64 else fp32).narrow 0 2 0 v).val.norm

/-- Does a destination hold every value of a format (R111)? -/
def FFmt.holds (d f : FFmt) : Bool :=
  decide (f.fb ≤ d.fb) && decide (d.emin - d.fb ≤ f.emin - f.fb) && (f.maxFin false).le (d.maxFin false) &&
    (d.hasInf || !f.hasInf) && (d.hasInf || d.topNan || !(f.hasInf || f.topNan))

/-- The condition of R111 on an intermediate and a final floating-point format. -/
def FFmt.twoSteps (i f : FFmt) : Bool := decide (f.fb + 2 ≤ i.fb) && decide (i.emin ≤ f.emin)

/-- A CVT stage on one row (R107, R154): MX targets take the block scale that the quantiser would choose. -/
def cvtRow (code mode ovf : Nat) (l : List FV) : List Res :=
  match ffmt code with
  | none => l.map fun v => (v, 0)
  | some f =>
    let one := fun (v : FV) =>
      let n := f.narrow mode ovf 0 v
      ((n.val.norm, n.flags) : Res)
    if isMx code then
      (runs (l.length + 1) 32 l).flatMap fun b =>
        let x := blockScale code b
        b.map fun v =>
          if x = 255 then (.nan false, sigFlag [v])
          else if v.isInf then ((f.maxFin v.negative).scale ((x : Int) - 127), 0)
          else
            let r := one (v.scale (127 - (x : Int)))
            ((r.1.scale ((x : Int) - 127)).norm, r.2)
    else l.map one

/-! ### Chains -/

/-- What a chain reads beside its rows. -/
structure ChainEnv where
  stages : List Stage
  fp64 : Bool
  consts : List Byte
  lane0 : List FV
  lane1 : List FV
  ovf : Nat
  /-- CVT stages whose result is only narrowed again: they round to odd (R111, R156) -/
  odd : List Nat
  /-- stage and lane of an armed injection (R161) -/
  inj : Option (Nat × Nat)
  deriving DecidableEq, Repr

/-- Summary in progress (R162). -/
structure Summ where
  count : Nat
  nonzero : Nat
  nans : Nat
  infs : Nat
  sum : FV
  mx : Option FV
  mn : Option FV
  amx : Nat
  amn : Nat
  deriving DecidableEq, Repr

def Summ.start : Summ := ⟨0, 0, 0, 0, .fin false 0 0, none, none, 0, 0⟩

/-- What a chain has done so far. -/
structure ChainSt where
  /-- carried values of each stage's scan: one for a lane scan, one for each lane down the rows -/
  scans : List (List (Option FV))
  row : Nat
  out : List (List FV)
  tap : List (List FV)
  flags : Flags
  skips : Nat
  summ : Summ
  /-- row and lane at which the armed injection failed its comparison -/
  hit : Option (Nat × Nat)
  deriving DecidableEq, Repr

/-- The two input rows. -/
structure RowIn where
  in0 : List FV
  in1 : List FV
  deriving DecidableEq, Repr

/-- The values of a source field on the lanes of a row (R153). -/
def srcVals (e : ChainEnv) (rs : List (List FV)) (r : RowIn) (row cidx k : Nat) : List FV :=
  let n := r.in0.length
  let pad := fun (l : List FV) => (List.range n).map fun i => l.getD i (fzero false)
  match k with
  | 8 => r.in0
  | 9 => pad r.in1
  | 0xA => List.replicate n (chainConst e.consts e.fp64 cidx)
  | 0xB => pad e.lane0
  | 0xC => pad e.lane1
  | 0xD => (List.range n).map fun i => (FV.fin false i 0).norm
  | 0xE => List.replicate n (toChain e.fp64 (.fin false row 0))
  | 0xF => List.replicate n (fzero false)
  | _ => pad (rs.getD k [])

/-- One element of a scan: the value before, whether a segment starts, the element. Answers output, new value, flags (R158, R159). -/
def scanStep (f : FFmt) (t : Stage) (prev : Option FV) (x : FV) : FV × FV × Flags :=
  let (acc, fl) : Res := match prev with
    | some p => foldOp f t.op t.srnd p x
    | none => (quiet x, sigFlag [x])
  (if t.excl then prev.getD (scanIdentity t.op) else acc, acc, fl)

/-- A lane scan of one row (R158). -/
def laneScan (f : FFmt) (t : Stage) (carry : Option FV) (heads xs : List FV) : List FV × Option FV × Flags :=
  let start := if t.carry then carry else none
  let (out, last, fl, _) := ((List.range xs.length).zip xs).foldl
    (fun (acc : List FV × Option FV × Flags × Unit) e =>
      let head := t.seg != 0xF && !(heads.getD e.1 (fzero false)).isZero
      let (o, a, fl) := scanStep f t (if head then none else acc.2.1) e.2
      (acc.1 ++ [o], some a, acc.2.2.1 ||| fl, ())) ([], start, 0, ())
  (out, if xs.isEmpty then carry else last, fl)

/-- A row scan: one step of every lane (R158). -/
def rowScan (f : FFmt) (t : Stage) (accs : List (Option FV)) (heads xs : List FV) : List FV × List (Option FV) × Flags :=
  let l := xs.mapIdx fun i x =>
    let head := t.seg != 0xF && !(heads.getD i (fzero false)).isZero
    scanStep f t (if head then none else accs.getD i none) x
  (l.map (·.1), l.map (fun e => some e.2.1), l.foldl (fun a e => a ||| e.2.2) 0)

/-- A reduction over the active lanes, in lane order (R154). -/
def rowReduce (f : FFmt) (t : Stage) (xs : List FV) : List FV × Flags :=
  match xs with
  | [] => ([], 0)
  | x :: rest =>
    let (v, fl) := rest.foldl (fun (acc : Res) y => let r := foldOp f t.op t.srnd acc.1 y; (r.1, acc.2 ||| r.2)) (quiet x, sigFlag [x])
    (List.replicate xs.length v, fl)

/-- Feed the elements of a row to the summary (R162); answers the additions whose sum is not finite. -/
def summRow (m : Summ) (xs : List FV) : Summ × Nat :=
  xs.foldl (fun (acc : Summ × Nat) x =>
    let m := acc.1
    let i := m.count
    let sum := (opAdd fp64 0 m.sum x).1
    let up := match m.mx with
      | none => true
      | some v => v.lt x
    let dn := match m.mn with
      | none => true
      | some v => x.lt v
    let m : Summ :=
      { count := i + 1, nonzero := m.nonzero + b2n (!x.isNan && !x.isZero), nans := m.nans + b2n x.isNan
        infs := m.infs + b2n x.isInf, sum := sum
        mx := if x.isNan then m.mx else some (match m.mx with
          | none => x
          | some v => if fpBelow v x then x else v)
        mn := if x.isNan then m.mn else some (match m.mn with
          | none => x
          | some v => if fpBelow x v then x else v)
        amx := if !x.isNan && up then i else m.amx, amn := if !x.isNan && dn then i else m.amn }
    (m, acc.2 + b2n (!sum.isFin))) (m, 0)

/-- Results, scan values and flags of one stage on one row. -/
def stageRow (e : ChainEnv) (st : ChainSt) (rs : List (List FV)) (r : RowIn) (i : Nat) (t : Stage) :
    List FV × List (Option FV) × Flags :=
  let f := if e.fp64 then fp64 else fp32
  let src := srcVals e rs r st.row t.cidx
  let a := src t.a
  let sc := st.scans.getD i []
  if t.op = 0x0D then
    let l := cvtRow t.cidx (if e.odd.contains i then 5 else t.srnd) e.ovf a
    (l.map (·.1), sc, l.foldl (fun x y => x ||| y.2) 0)
  else if 0x20 ≤ t.op ∧ t.op ≤ 0x22 then
    let heads := if t.seg = 0xF then [] else src t.seg
    if t.axis then rowScan f t sc heads a
    else
      let (o, c, fl) := laneScan f t (sc.headD none) heads a
      (o, [c], fl)
  else if 0x28 ≤ t.op ∧ t.op ≤ 0x2A then
    let (o, fl) := rowReduce f t a
    (o, sc, fl)
  else
    let b := if 2 ≤ opArity t.op then src t.b else []
    let c := if 3 ≤ opArity t.op then src t.c else []
    let l := a.mapIdx fun k x => laneOp f t.op t.srnd x (b.getD k (fzero false)) (c.getD k (fzero false))
    (l.map (·.1), sc, l.foldl (fun x y => x ||| y.2) 0)

/-- Note whether the armed injection meets a compared element of a row (R160, R161). -/
def injHit (e : ChainEnv) (stage row : Nat) (vals : List FV) (hit : Option (Nat × Nat)) : Option (Nat × Nat) :=
  match hit, e.inj with
  | none, some (k, lane) => if k = stage && (vals[lane]?.map (·.isFin)).getD false then some (row, lane) else none
  | h, _ => h

/-- One row through the chain. -/
def chainRow (e : ChainEnv) (st : ChainSt) (r : RowIn) : ChainSt :=
  let (st, rs) := e.stages.mapIdx (fun i t => (i, t)) |>.foldl (fun (acc : ChainSt × List (List FV)) it =>
    let (st, rs) := acc
    let (vals, sc, fl) := stageRow e st rs r it.1 it.2
    let cov := opCovered it.2.op
    let (m, bad) := if it.2.op = 0x30 then summRow st.summ vals else (st.summ, 0)
    let st := { st with
      scans := st.scans.set it.1 sc, flags := st.flags ||| fl, summ := m
      skips := st.skips + bad + (if cov then (vals.filter fun v => !v.isFin).length else 0)
      hit := if cov then injHit e it.1 st.row vals st.hit
        else if it.2.op = 0x30 then injHit e 10 st.row vals st.hit else st.hit
      tap := if it.2.tap then st.tap ++ [vals] else st.tap }
    (st, rs ++ [vals])) (st, [])
  { st with out := st.out ++ [(rs.getLast?).getD r.in0], row := st.row + 1 }

/-- Run a chain over its rows; a carried scan begins with its constant (R159). -/
def chainRun (e : ChainEnv) (rows : List RowIn) : ChainSt :=
  let scans := e.stages.map fun t => if t.carry then [some (chainConst e.consts e.fp64 t.cidx)] else []
  rows.foldl (chainRow e) ⟨scans, 0, [], [], 0, 0, Summ.start, none⟩

/-! ### Residue channel, flags and summaries -/

/-- A failed comparison of the vector engine's residue channel, by injection (R161). -/
def vxFail (s : State) (g tag stage row lane : Nat) : State :=
  let s := bumpSat s F.VX_MISMATCH_COUNT_COUNT g 1
  let s := if rb s F.VX_EVENT_MISMATCH g then s
    else
      let s := wf (wf s F.VX_MISMATCH_INFO_INJECTED g 1) F.VX_MISMATCH_INFO_STAGE g stage
      wf (wf (wf s F.VX_MISMATCH_INFO_ROW g row) F.VX_MISMATCH_INFO_LANE g lane) F.VX_MISMATCH_TAG_TAG g tag
  let s := wf s F.VX_BRAMBLE_INJ_ARMED g 0
  residueMismatch (ev s F.VX_EVENT_MISMATCH g) true g tag [(regLive s (F.VX_MISMATCH_INFO_LANE.key g)).toNat]

/-- Skipped comparisons of the vector engine (R160). -/
def vxSkips (s : State) (g n : Nat) : State :=
  if n = 0 then s else ev (bumpSat s F.VX_SKIP_COUNT_COUNT g n) F.VX_EVENT_SKIP g

/-- The armed injection: stage and lane. -/
def vxArmed (s : State) (g : Nat) : Option (Nat × Nat) :=
  if rb s F.VX_BRAMBLE_INJ_ARMED g then some (rf s F.VX_BRAMBLE_INJ_STAGE g, rf s F.VX_BRAMBLE_INJ_LANE g) else none

/-- The comparisons of one stage over whole rows: the drain's output path (8) or the output quantiser (9). -/
def vxSweep (s : State) (g tag stage : Nat) (fin : List (List Bool)) : State :=
  let s := vxSkips s g ((fin.flatten.filter (!·)).length)
  match vxArmed s g with
  | some (k, lane) =>
    if k = stage then
      match findIdx? (fun (r : List Bool) => r.getD lane false) fin with
      | some row => vxFail s g tag stage row lane
      | none => s
    else s
  | none => s

/-- OR the flags of a descriptor into VX_IEEE_FLAGS (R157). -/
def vxFlags (s : State) (g fl : Nat) : State :=
  let k := F.VX_IEEE_FLAGS_INEXACT.key g
  regPut s k (regLive s k ||| BitVec.ofNat 32 (fl % 32))

/-- Bytes of a summary record (R162); the places of extremes that do not exist are free (log 7). -/
def summBytes (m : Summ) (tag stage : Nat) (w : Bool) (fl free : Nat) : List Byte :=
  let e64 := fun (v : FV) => (fp64.narrow 0 2 0 v).code
  let ext := fun (v : Option FV) => match v with
    | some v => e64 v
    | none => fp64.canonNan
  let c := fun (n : Nat) => toLE 4 (min n 0xFFFFFFFF)
  toLE 4 tag ++ toLE 4 (1 + stage * 256 + b2n w * 2048) ++ c m.count ++ c m.nonzero ++ c m.nans ++ c m.infs
    ++ toLE 8 (e64 m.sum) ++ toLE 8 (ext m.mx) ++ toLE 8 (ext m.mn)
    ++ toLE 4 (if m.mx.isNone then free else m.amx) ++ toLE 4 (if m.mn.isNone then free / 2 ^ 32 else m.amn) ++ toLE 8 (fl % 32)

/-- Write a summary to core store and to the control core's summary file (R162). -/
def summWrite (s : State) (g line slot : Nat) (b : List Byte) : State :=
  let s := csWrite s g (64 * line) b
  let c := getCore s g
  setCore s g { c with summ := mwrN c.summ (64 * slot) b }

/-! ### Output of a drain or a chain -/

/-- Quantise output 0, write its tile and its histogram record (R121, R113). `satMask` marks entries that saturated in the
accumulator (R77). Answers the IEEE flags gathered. -/
def outputTile (s : State) (g fl : Nat) (o : Oper) (set : QSet) (redrain : Bool) (cfg : OutCfg) (acc : Bool)
    (vals : List (List FV)) (satMask : List (List Bool)) : State × QOut :=
  let (s, q) := quantise s ⟨g, o, o.e.fmt, set, false, redrain⟩ vals
  let els := if satMask.isEmpty then q.els
    else q.els.mapIdx fun i r => r.mapIdx fun j e => { e with sat := e.sat || (satMask.getD i []).getD j false }
  let s := vxSweep s g set.tag 9 (q.els.map fun r => r.map fun e => e.cls != .nan && e.cls != .inf)
  let s := writeTile s g fl set.tag o els
  (histWrite s g cfg.hist set.tag o.e.fmt cfg.base acc q.vals els, { q with els := els })

/-- Write rows by plain conversion into a tensor of a floating-point format (R156). -/
def writePlain (s : State) (g fl : Nat) (o : Oper) (set : QSet) (m : List (List FV)) : State × Flags :=
  match ffmt o.e.fmt with
  | none => (s, 0)
  | some f =>
    let cols := (m.headD []).length
    (m.mapIdx fun i r => (i, r)).foldl (fun (acc : State × Flags) e =>
      let l := e.2.mapIdx fun j v => f.narrow set.rnd set.ovf (set.r (e.1 * cols + j)) v
      (writeCodes acc.1 g fl set.tag o.e (o.row0 + e.1) o.col0 (l.map (·.code)), l.foldl (fun a n => a ||| n.flags) acc.2)) (s, 0)

/-- Lane vector `i` of a binding record, in the chain type (R153, R196). -/
def laneVec (s : State) (g : Nat) (b : List Byte) (w : Bool) (i : Nat) : List FV :=
  match bnLane b i with
  | none => []
  | some k =>
    let n := if w then 8 else 4
    let l := csRead s g (512 * k) (128 * n)
    (List.range 128).map fun j => (if w then fp64 else fp32).dec (fieldLE (n * j) n l)

/-- Is a CVT into one format, narrowed again into another, a double narrowing (R111)? -/
def doubleNarrow (mid out : Nat) : Option Bool :=
  match ffmt mid, ffmt out with
  | some i, some f => if out = 0x0D ∨ f.holds i then none else some (i.twoSteps f)
  | _, _ => none

/-- The CVT stages whose result has no use except an output narrowing, with the format that follows: the last stage before
output 0, a tapped stage before output 1 (R111, R156). -/
def lastCvts (l : List Stage) (out0 : Nat) (out1 : Option Nat) : List (Nat × Nat × Nat) :=
  (l.mapIdx fun i t => (i, t)).filterMap fun e =>
    if e.2.op ≠ 0x0D then none
    else if e.1 + 1 = l.length then (if e.2.tap then none else some (e.1, e.2.cidx, out0))
    else if e.2.tap && !(l.drop (e.1 + 1)).any (fun t => t.srcs.contains e.1) then out1.map fun f => (e.1, e.2.cidx, f)
    else none

/-- The stages that round to odd. -/
def oddStages (l : List Stage) (out0 : Nat) (out1 : Option Nat) : List Nat :=
  (lastCvts l out0 out1).filterMap fun e => if doubleNarrow e.2.1 e.2.2 = some true then some e.1 else none

/-- The environment of a chain: its record as legality read it, its constants as they stand. -/
def chainEnv (s : State) (g : Nat) (v : View) (cfg : OutCfg) (in0 outFmt ovf : Nat) : ChainEnv :=
  let r := v (64 * cfg.chain) 128
  let b := v (64 * cfg.bind) 32
  let l := chainStages r
  let w := chainFp64 l in0
  { stages := l, fp64 := w, consts := csRead s g (64 * cfg.chain) 128, lane0 := laneVec s g b w 0, lane1 := laneVec s g b w 1
    ovf := ovf
    odd := oddStages l outFmt (if l.any (·.tap) then some (oper v (bnOut1 b)).e.fmt else none)
    inj := vxArmed s g }

/-- What a chain leaves beside its output 0: carries, output 1, residue channel, flags, counts. Answers the flags. -/
def chainAfter (s : State) (g fl : Nat) (v : View) (cfg : OutCfg) (set : QSet) (e : ChainEnv) (st : ChainSt)
    (tapOf : List (List FV) → List (List FV)) : State × Flags :=
  let s := (e.stages.zip st.scans).foldl (fun s p =>
    if p.1.carry then
      match p.2.headD none with
      | some c =>
        if e.fp64 then csWrite s g (64 * cfg.chain + 0x40 + 8 * p.1.cidx) (toLE 8 (fp64.narrow 0 2 0 c).code)
        else csWrite s g (64 * cfg.chain + 0x40 + 4 * p.1.cidx) (toLE 4 (fp32.narrow 0 2 0 c).code)
      | none => s
    else s) s
  let b := v (64 * cfg.bind) 32
  let (s, tf) := if e.stages.any (·.tap) then writePlain s g fl (oper v (bnOut1 b)) set (tapOf st.tap) else (s, 0)
  let s := vxSkips s g st.skips
  let s := match st.hit, e.inj with
    | some (row, lane), some (k, _) => vxFail s g set.tag k row lane
    | _, _ => s
  let s := bumpIf s F.VX_CTRL_CNT_EN F.VX_ELEMENTS_LO_COUNT g st.out.flatten.length
  (s, st.flags ||| tf)

/-- Flags and summary of a finished chain descriptor (R157, R162). -/
def chainEnd (s : State) (g : Nat) (v : View) (cfg : OutCfg) (tag : Nat) (e : ChainEnv) (st : ChainSt) (fl : Flags) : State :=
  let s := vxFlags s g fl
  match findIdx? (fun (t : Stage) => t.op == 0x30) e.stages with
  | none => s
  | some i =>
    let b := v (64 * cfg.bind) 32
    let (x, s) := fresh s
    summWrite s g (bnSumm b) (bnSlot b) (summBytes st.summ tag i e.fp64 fl x)

/-! ### Descriptors fed from core store -/

/-- Rows of an input tile in the chain type, each cut to 128 lanes (R149). -/
def chainRows (s : State) (g fl tag : Nat) (v : View) (in0 : Oper) (in1 : Nat) (w : Bool) : State × List RowIn :=
  (List.range in0.nrows).foldl (fun (acc : State × List RowIn) r =>
    let n := in0.ncols
    let (s, a) := rowDeq acc.1 g fl tag in0 (in0.row0 + r) in0.col0 n
    let (s, b) := if refNull in1 then (s, []) else
      let o := oper v in1
      rowDeq s g fl tag o (o.row0 + r) o.col0 n
    let cut := fun (l : List FV) => runs (l.length + 1) 128 (l.map (toChain w))
    let bs := cut b
    (s, acc.2 ++ (cut a).mapIdx fun i x => ⟨x, bs.getD i []⟩)) (s, [])

/-- Join rows that were cut to 128 lanes into rows of `n`. -/
def joinRows (n : Nat) (m : List (List FV)) : List (List FV) := if n = 0 then m else runs (m.flatten.length + 1) n m.flatten

/-- Run the chain of a VCHAIN or an OPTIM over its input tile (R152, R202). -/
def coreChain (s : State) (g fl : Nat) (v : View) (d : List Byte) (cfg : OutCfg) (outFmt : Nat) : State × ChainEnv × ChainSt × Nat :=
  let in0 := oper v (dW d 0)
  let b := v (64 * cfg.bind) 32
  let in1 := if chainUses (chainStages (v (64 * cfg.chain) 128)) 9 then bnIn1 b else 0xFFFFFFFF
  let s := stampChecks s g fl (dTag d) (in0.e :: (if refNull in1 then [] else [(oper v in1).e]))
  let e := chainEnv s g v cfg in0.e.fmt outFmt (dOvf d)
  let (s, rows) := chainRows s g fl (dTag d) v in0 in1 e.fp64
  (s, e, chainRun e rows, in0.ncols)

/-- The effect of a VCHAIN (R152, R156). -/
def doVchain (s : State) (g fl : Nat) (v : View) (d : List Byte) : State :=
  let cfg := vcCfg d
  let o := oper v (dW d 1)
  let set := dSet s g d
  let (s, e, st, n) := coreChain s g fl v d cfg o.e.fmt
  let (s, fl1) := chainAfter s g fl v cfg set e st (joinRows n)
  let (s, q) := outputTile s g fl o set false cfg (dHistAcc d) (joinRows n st.out) []
  chainEnd s g v cfg set.tag e st (fl1 ||| quantFlags q.els)

/-- Round to BF16, nearest-even. -/
def rnBf16 (v : FV) : FV := (bf16.narrow 0 2 0 v).val.norm

/-- The update of one master weight (R146, R147): new weight and new compensation. -/
def optimStep (comp : Bool) (lr : Int) (w u c : FV) : FV × FV :=
  if comp then
    let y := f32 ((u.scale (-lr)).sub c)
    let t := rnBf16 (w.add false y)
    (t, rnBf16 ((f32 (t.sub w)).sub y))
  else (f32 (w.add false (u.scale (-lr))), c)

/-- The effect of an OPTIM (R145 to R147). -/
def doOptim (s : State) (g fl : Nat) (v : View) (d : List Byte) : State :=
  let cfg := vcCfg d
  let set := dSet s g d
  let mo := oper v (dW d 1)
  let lr := sext 8 (bits 7 0 (dW d 4))
  let comp := bit 8 (dW d 4)
  let uo := oper v (dW d 5)
  let wo := oper v (dW d 6)
  let co := oper v (dW d 7)
  let s := stampChecks s g fl set.tag (mo.e :: (if comp then [co.e] else []))
  let (s, e, st, n) := coreChain s g fl v d cfg 4
  let (s, fl1) := chainAfter s g fl v cfg set e st (joinRows n)
  let us := joinRows n st.out
  let cols := (us.headD []).length
  let els := us.mapIdx fun i r => r.mapIdx fun j x => quantFloat bf16 set (i * cols + j) 0 (x.scale lr)
  let uv := els.map fun r => r.map fun q => (bf16.dec q.code).norm
  let s := if refNull (dW d 5) then s else
    (els.mapIdx fun i r => (i, r)).foldl (fun s r => writeCodes s g fl set.tag uo.e (uo.row0 + r.1) uo.col0 (r.2.map (·.code))) s
  let s := histWrite s g cfg.hist set.tag 4 cfg.base (dHistAcc d) uv els
  let (s, ws) := (uv.mapIdx fun i r => (i, r)).foldl (fun (acc : State × List (List FV)) r =>
    let k := r.2.length
    let (s, w0) := rowVals acc.1 g fl set.tag mo (mo.row0 + r.1) mo.col0 k
    let (s, c0) := if comp then rowVals s g fl set.tag co (co.row0 + r.1) co.col0 k else (s, [])
    let l := r.2.mapIdx fun j u => optimStep comp lr (w0.getD j (fzero false)) u (c0.getD j (fzero false))
    let enc := fun (f : FFmt) (x : FV) => f.enc x
    let s := writeCodes s g fl set.tag mo.e (mo.row0 + r.1) mo.col0 (l.map fun p => enc (if comp then bf16 else fp32) p.1)
    let s := if comp then writeCodes s g fl set.tag co.e (co.row0 + r.1) co.col0 (l.map fun p => enc bf16 p.2) else s
    (s, acc.2 ++ [l.map (·.1)])) (s, [])
  let (s, fl2) := if refNull (dW d 6) then (s, 0) else
    let (s, q) := quantise s ⟨g, wo, wo.e.fmt, set, false, false⟩ ws
    let s := vxSweep s g set.tag 9 (q.els.map fun r => r.map fun e => e.cls != .nan && e.cls != .inf)
    (writeTile s g fl set.tag wo q.els, quantFlags q.els)
  chainEnd s g v cfg set.tag e st (fl1 ||| quantFlags els ||| fl2)

end Sys2Proof.Machine
end

