-- ==== Sys2Proof/Machine/Matrix.lean ====
section
/-! DEFINITION. The matrix array: weight loads, streams, the accumulator, the Bramble and the drain's output path (chapter 04; R130 to R134, R142). -/

namespace Sys2Proof.Machine

/-! ### Formats of a pass -/

/-- The pairings of R66. -/
def pairOk (x w : Nat) : Bool :=
  match x with
  | 8 | 9 => w == 8 || w == 9 || w == 0x10 || w == 0x11
  | 6 | 7 => w == 6 || w == 7 || w == 0x10 || w == 0x11
  | 0xA | 0xB => w == 0xA || w == 0xB || w == 0x10 || w == 0x11
  | 0xE => w == 0xE
  | 2 | 3 | 4 | 5 | 0xC | 0xD => w == x || w == 0x10 || w == 0x11
  | _ => false

/-- The pass format (R66, R121): the activations' own, or, where they are stored wider and their record narrows to the
weights' format, the weights' (log 19). -/
def passFmt (x : Oper) (w : Nat) : Option Nat :=
  if pairOk x.e.fmt w then some x.e.fmt
  else if 2 ≤ x.e.fmt ∧ x.e.fmt ≤ 5 then
    let ok := match w with
      | 3 => x.e.qrecV && x.q.qmode == 0 && x.e.fmt == 2
      | 4 | 5 => x.e.qrecV && x.q.qmode == 0 && decide (x.e.fmt ≤ 3)
      | 6 | 7 => x.q.qmode == 1
      | 8 | 9 | 0xA | 0xB | 0xC | 0xD => x.q.qmode == 2
      | 0xE => x.q.qmode == 3 || x.q.qmode == 4
      | _ => false
    if ok then some w else none
  else none

/-- Narrow a 32-bit element to AZ19 (R94). -/
def azNarrow (trunc : Bool) (code : Nat) : FV :=
  match ffmt 3 with
  | some f => (f.narrow (if trunc then 1 else 0) 2 0 (fp32.dec code)).val.norm
  | none => .nan false

/-- Values of a row as the array takes them: 32-bit elements of an AZ19 pass are narrowed (R94). -/
def passRow (s : State) (g fl tag : Nat) (o : Oper) (az azn : Bool) (r c n : Nat) : State × List FV :=
  if az then
    let (s, qs) := readCodes s g fl tag o.e r c n
    (s, qs.map fun q => azNarrow azn (q.getD 0))
  else rowVals s g fl tag o r c n

/-! ### Weight banks -/

/-- Bank `b` of a core. -/
def bankOf (c : CoreSt) (b : Nat) : Option Bank := (c.banks.getD b none)

/-- Is a bank held (R70)? -/
def bankHeld (c : CoreSt) (b : Nat) : Bool := c.loaded.contains b

/-- The issue of a WLOAD takes the next bank (R68, R70). -/
def wloadIssue (s : State) (g : Nat) (ref fmt height : Nat) (azn : Bool) : State × Nat :=
  let c := getCore s g
  let b := c.nextBank
  let rows := match bankOf c b with
    | some k => k.rows
    | none => []
  (setCore s g { c with banks := c.banks.set b (some ⟨ref, fmt, height, b2n azn, rows⟩), nextBank := 1 - b, loaded := c.loaded ++ [b] }, b)

/-- The effect of a WLOAD: the tile's values and their residues stand in its bank (R68, R69, R82). -/
def doWload (s : State) (g fl : Nat) (v : View) (d : List Byte) (b : Nat) : State :=
  let o := oper v (dW d 0)
  let s := stampChecks s g fl (dTag d) [o.e]
  let (s, rows) := (List.range o.e.tileRows).foldl (fun (acc : State × List (List (FV × Nat))) r =>
    let (s, l) := passRow acc.1 g fl (dTag d) o (o.e.fmt == 3) (dAzn d) (o.row0 + r) o.col0 o.e.tileCols
    (s, acc.2 ++ [l.map fun x => (x, rho x)])) (s, [])
  let c := getCore s g
  match bankOf c b with
  | some k => setCore s g { c with banks := c.banks.set b (some { k with rows := rows }) }
  | none => s

/-- The issue of a STREAM takes the earliest loaded bank and releases it where RELEASE is set (R70). -/
def streamIssue (s : State) (g : Nat) (release : Bool) : State × Nat :=
  let c := getCore s g
  let b := c.loaded.headD 0
  (if release then setCore s g { c with loaded := c.loaded.drop 1 } else s, b)

/-! ### Column chains -/

/-- What an accumulator entry that nothing has written holds (log 3). -/
def acc0 : Nat → Acc0 := fun _ => ⟨fzero false, 0, false, false, false⟩

/-- Rounding of the chain: FP32 mode is binary32 (R74, R76). -/
def passRound (pf : Nat) (v : FV) : FV := if pf = 2 then f32 v else chainRound v

/-- One addition of a floating-point chain with its residue channel (R75, R76, R82, R84). -/
def chainStep (pf : Nat) (a : Acc0) (x w : FV × Nat) : Acc0 :=
  let t := (x.1.mul w.1).add false a.val
  let r := passRound pf t
  let void := a.void || !t.isFin || !r.isFin
  { val := r, res := if void then 0 else (a.res + x.2 * w.2 + 7 - rho (t.sub r)) % 7, void := void, sat := false, int := false }

/-- One addition of an INT8 chain: exact in 40 bits, saturated for good at the first sum beyond them (R77, R84). -/
def chainStepInt (a : Acc0) (x w : FV × Nat) : Acc0 :=
  if a.sat then a
  else
    let t := ((x.1.mul w.1).add false a.val).norm
    let hi : Int := 2 ^ 39 - 1
    let lo : Int := -(2 ^ 39)
    if (FV.ofInt hi).lt t then ⟨(FV.ofInt hi).norm, 0, true, true, true⟩
    else if t.lt (FV.ofInt lo) then ⟨(FV.ofInt lo).norm, 0, true, true, true⟩
    else ⟨t, (a.res + x.2 * w.2) % 7, a.void, false, true⟩

/-- One column of one vector, in row order (R75). -/
def columnChain (pf : Nat) (seed : Acc0) (xs ws : List (FV × Nat)) : Acc0 :=
  (xs.zip ws).foldl (fun a e => if pf = 0x0E then chainStepInt a e.1 e.2 else chainStep pf a e.1 e.2) seed

/-- Seed of a column (R73): an entry that a pass of the other kind wrote has no stated meaning, it is free (log 7). -/
def seedOf (s : State) (g : Nat) (int : Bool) (key : Nat) : State × Acc0 :=
  match aget (getCore s g).acc key with
  | none => (s, { acc0 0 with int := int })
  | some a =>
    if a.int = int then (s, a)
    else
      let (x, s) := fresh s
      let v := if int then (FV.ofInt (sext 40 x)).norm else (fp32.dec (x % 2 ^ 32)).norm
      (s, ⟨v, rho v, !v.isFin, false, int⟩)

/-- A cell's weight; a cell that its load did not write holds a free value (log 7). -/
def cellOf (rows : List (List (FV × Nat))) (free k n : Nat) : FV × Nat :=
  match (rows[k]?).bind (·[n]?) with
  | some c => c
  | none => let v := (bf16.dec (free / 2 ^ (16 * (128 * k + n)) % 65536)).norm; (v, rho v)

/-! ### The foot of the columns -/

/-- A failed comparison at the foot (R85). -/
def mxFail (s : State) (g tag m n : Nat) (injected : Bool) : State :=
  let s := bumpSat s F.MX_MISMATCH_COUNT_COUNT g 1
  let s := if rb s F.MX_EVENT_MISMATCH g then s
    else
      let s := wf (wf s F.MX_MISMATCH_INFO_INJECTED g (b2n injected)) F.MX_MISMATCH_INFO_VECTOR g m
      wf (wf s F.MX_MISMATCH_INFO_COLUMN g n) F.MX_MISMATCH_TAG_TAG g tag
  residueMismatch (ev s F.MX_EVENT_MISMATCH g) false g tag [(regLive s (F.MX_MISMATCH_INFO_COLUMN.key g)).toNat]

/-- The comparison of one column of one vector at the foot, with an armed injection (R82, R84 to R86). -/
def footCheck (s : State) (g tag m n : Nat) (a : Acc0) : State :=
  let inj := rb s F.MX_BRAMBLE_INJ_ARMED g && rf s F.MX_BRAMBLE_INJ_COLUMN g == n
  let s := if inj then wf s F.MX_BRAMBLE_INJ_ARMED g 0 else s
  if a.void then ev (bumpSat s F.MX_SKIP_COUNT_COUNT g 1) F.MX_EVENT_SKIP g
  else if rho a.val = (a.res + b2n inj) % 7 then s
  else mxFail s g tag m n inj

/-! ### The drain's output path -/

/-- The four terms of R131 as the drain forms and adds them (R133). -/
def int8Terms (a w : Chan) (p ra cw k : Int) : FV :=
  let i := p - w.zp * ra - a.zp * cw + k * a.zp * w.zp
  let dw := cw - k * w.zp
  let da := ra - k * a.zp
  let term := fun (x y : FV) (n : Int) => chainRound ((x.mul y).mul (FV.ofInt n))
  let add := fun (x y : FV) => chainRound (x.add false y)
  add (add (add (term a.sc w.sc i) (term a.off w.sc dw)) (term w.off a.sc da)) (term a.off w.off k)

/-- An exact integer out of an accumulator entry. -/
def FV.toInt : FV → Int
  | .fin s m e => let n : Int := ((m * 2 ^ e.toNat : Nat) : Int); if s then -n else n
  | _ => 0

/-- Column sums of the weight tile: CW of each column (R132, R198). -/
def colSums (s : State) (g tag : Nat) (o : Oper) (n : Nat) : State × List Int :=
  if o.q.colsum = 0 then (s, List.replicate n 0)
  else
    let a := o.q.colsum + 4 * (o.t / o.e.tilesAcross * o.e.cols + o.col0)
    let (s, d) := memRead s (.core g) tag 0 a (4 * n)
    (s, (List.range n).map fun i => sext 32 (fieldLE (4 * i) 4 d))

/-- The chain result after both factors of R130. -/
def scaleOut (pf : Nat) (fa fw y : FV) : FV := passRound pf (passRound pf ((passRound pf (y.mul fa)).mul fw))

/-- The FP32 rows that a fused drain hands to its chain (R111, R121): to odd where the chain has no stage and its output
narrows again. Answers the flags. -/
def handOver (set : QSet) (odd : Bool) (m : List (List FV)) : List (List FV) × Flags :=
  let cols := (m.headD []).length
  let r := m.mapIdx fun i l => l.mapIdx fun j v => fp32.narrow (if odd then 5 else set.rnd) set.ovf (set.r (i * cols + j)) v
  (r.map fun l => l.map fun n => n.val.norm, r.foldl (fun a l => l.foldl (fun a n => a ||| n.flags) a) 0)

/-! ### STREAM -/

/-- The vectors of a pass (R94, R121, R202): rows of values with residues, INT8 parameters of each row, the activation factor. -/
def feed (s : State) (g fl : Nat) (d : List Byte) (x : Oper) (pf : Nat) : State × List (List (FV × Nat)) × List Chan × FV :=
  let m := stM d
  let k := stK d
  let tag := dTag d
  let rd := fun (s : State) (az : Bool) =>
    (List.range m).foldl (fun (acc : State × List (List FV)) i =>
      let (s, l) := passRow acc.1 g fl tag x az (dAzn d) (x.row0 + i) x.col0 k
      (s, acc.2 ++ [l])) (s, [])
  let res := fun (l : List (List FV)) => l.map fun r => r.map fun v => (v, rho v)
  if x.e.fmt = pf ∨ pf = 3 then
    let (s, l) := rd s (pf == 3)
    (s, res l, (List.range m).map fun i => if pf = 0x0E then int8Params s g x (x.row0 + i) x.col0 else ⟨fzero false, fzero false, 0⟩,
      operFactor s g x)
  else
    let (s, l) := rd s false
    let (s, q) := quantise s ⟨g, x, pf, dSet s g d, true, false⟩ l
    let vals := q.els.map fun r => r.map fun e => (elemVal pf x.q.book e.code e.x).norm
    (s, res vals, (List.range m).map fun i => q.chans.getD (if x.q.gran = 1 then i else 0) ⟨fzero false, fzero false, 0⟩,
      if pf = 6 ∨ pf = 7 then q.factor else .fin false 1 0)

/-- The sums of a pass: for every vector the entries of its columns after the foot (R73, R75, R82). -/
def passSums (s : State) (g : Nat) (d : List Byte) (pf : Nat) (rows : List (List (FV × Nat))) (xs : List (List (FV × Nat))) :
    State × List (List Acc0) :=
  let (free, s) := fresh s
  let ws := (List.range (stN d)).map fun n => (List.range (stK d)).map fun k => cellOf rows free k n
  let fromAcc := stPhase d == 1 || stPhase d == 2
  (xs.mapIdx fun m x => (m, x)).foldl (fun (acc : State × List (List Acc0)) e =>
    let (s, l) := (ws.mapIdx fun n w => (n, w)).foldl (fun (acc : State × List Acc0) w =>
      let (s, seed) := if fromAcc then seedOf acc.1 g (pf == 0x0E) (128 * (stAcc d + e.1) + w.1)
        else (acc.1, { acc0 0 with int := pf == 0x0E })
      let a := columnChain pf seed e.2 w.2
      (footCheck s g (dTag d) e.1 w.1 a, acc.2 ++ [a])) (acc.1, [])
    (s, acc.2 ++ [l])) (s, [])

/-- Store the entries of a pass (R73). -/
def storeAcc (s : State) (g base : Nat) (l : List (List Acc0)) : State :=
  let c := getCore s g
  let acc := (l.mapIdx fun m r => (m, r)).foldl (fun acc e =>
    (e.2.mapIdx fun n a => (n, a)).foldl (fun acc p => sput acc0 acc (128 * (base + e.1) + p.1) p.2) acc) c.acc
  setCore s g { c with acc := acc }

/-- Row sums of an INT8 pass (R132): those carried in, with this pass's codes added. -/
def passRowSums (s : State) (g : Nat) (d : List Byte) (xs : List (List (FV × Nat))) : List RowSum :=
  let c := getCore s g
  let fromAcc := stPhase d == 1 || stPhase d == 2
  xs.mapIdx fun m x =>
    let r0 : RowSum := if fromAcc then (aget c.rowSums (stAcc d + m)).getD ⟨0, 0, 0⟩ else ⟨0, 0, 0⟩
    ⟨(x.map fun e => e.1.toInt).foldl (· + ·) r0.sum, (x.map (·.2)).foldl (· + ·) r0.res % 7, r0.len + stK d⟩

/-- Store the row sums of a pass beside its entries (R132). -/
def storeRowSums (s : State) (g base : Nat) (l : List RowSum) : State :=
  let c := getCore s g
  setCore s g { c with rowSums := (l.mapIdx fun m r => (m, r)).foldl (fun l e => aput l (base + e.1) e.2) c.rowSums }

/-- The rows of the second input that a fused chain adds. -/
def fusedIns (s : State) (g fl : Nat) (v : View) (d : List Byte) (e : ChainEnv) (hs : List (List FV)) : State × List RowIn :=
  let o := oper v (bnIn1 (v (64 * (stCfg d).bind) 32))
  let use1 := chainUses e.stages 9
  let s := if use1 then stampChecks s g fl (dTag d) [o.e] else s
  (hs.mapIdx fun i r => (i, r)).foldl (fun (acc : State × List RowIn) r =>
    if use1 then
      let (s, l) := rowDeq acc.1 g fl (dTag d) o (o.row0 + r.1) o.col0 (stN d)
      (s, acc.2 ++ [⟨r.2, l.map (toChain e.fp64)⟩])
    else (acc.1, acc.2 ++ [⟨r.2, []⟩])) (s, [])

/-- A fused drain: the chain runs over the results and its output is written (R111, R121). -/
def fusedDrain (s : State) (g fl : Nat) (v : View) (d : List Byte) (ys : List (List FV)) (mask : List (List Bool)) : State :=
  let o := oper v (dW d 2)
  let set := dSet s g d
  let cfg := stCfg d
  let e := chainEnv s g v cfg 2 o.e.fmt (dOvf d)
  let odd := match ffmt o.e.fmt with
    | some f => e.stages.isEmpty && !f.holds fp32 && fp32.twoSteps f
    | none => false
  let hs := handOver set odd ys
  let (s, ins) := fusedIns s g fl v d e hs.1
  let st := chainRun e ins
  let (s, fl1) := chainAfter s g fl v cfg set e st id
  let (s, q) := outputTile s g fl o set false cfg (dHistAcc d) st.out mask
  chainEnd s g v cfg (dTag d) e st (hs.2 ||| fl1 ||| quantFlags q.els)

/-- The results that a draining pass hands on (R130 to R133). -/
def drainVals (s : State) (g : Nat) (w : Oper) (pf : Nat) (fa : FV) (chs : List Chan) (sums : List (List Acc0)) (rsums : List RowSum)
    (cw : List Int) : List (List FV) :=
  let fw := operFactor s g w
  sums.mapIdx fun m r => r.mapIdx fun n a =>
    if pf = 0x0E then
      let rs := rsums.getD m ⟨0, 0, 0⟩
      int8Terms (chs.getD m ⟨fzero false, fzero false, 0⟩) (int8Params s g w 0 (w.col0 + n)) a.val.toInt rs.sum (cw.getD n 0) rs.len
    else scaleOut pf fa fw a.val

/-- The effect of a STREAM on bank `b` (R72 to R86, R121, R133, R142, R202). -/
def doStream (s : State) (g fl : Nat) (v : View) (d : List Byte) (b : Nat) : State :=
  let x := oper v (dW d 0)
  let w := oper v (dW d 1)
  let tag := dTag d
  let pf := (passFmt x w.e.fmt).getD x.e.fmt
  let s := stampChecks s g fl tag [x.e]
  let (s, xs, chs, fa) := feed s g fl d x pf
  let rows := match bankOf (getCore s g) b with
    | some k => k.rows
    | none => []
  let (s, sums) := passSums s g d pf rows xs
  let rsums := if pf = 0x0E then passRowSums s g d xs else []
  if !stOut d then storeRowSums (storeAcc s g (stAcc d) sums) g (stAcc d) rsums
  else
    let o := oper v (dW d 2)
    let s := if o.q.recompute && rb s F.QNT_CTRL_RECOMP_EN g then storeAcc s g (stAcc d) sums else s
    let (s, cw) := if pf = 0x0E then colSums s g tag w (stN d) else (s, [])
    let ys := drainVals s g w pf fa chs sums rsums cw
    let mask := if pf = 0x0E then sums.map fun r => r.map (·.sat) else []
    let s := vxSweep s g tag 8 (ys.map fun r => r.map (·.isFin))
    if stFused d then fusedDrain s g fl v d ys mask
    else (outputTile s g fl o (dSet s g d) true (stCfg d) (dHistAcc d) ys mask).1

/-! ### LONG_FREEZE -/

/-- LONG_FREEZE (R80): a freeze of this many cycles under a pass in flight; the freeze counter takes its cycles (log 8). -/
def execLongFreeze (core cycles : Nat) (s : State) : Host.Outcome State Fault Refusal :=
  if !hubUp s then .next s else
  if (getCore s core).flights.any (fun f => dOp f.desc == 0x11) then
    let s := bumpIf s F.MX_CTRL_CNT_EN F.MX_CYC_FREEZE_LO_COUNT core cycles
    let n := rf s F.MX_CTRL_LONG_FREEZE_LOG2 core
    .next (if n ≠ 0 ∧ 2 ^ n < cycles then ev s F.MX_EVENT_LONG_FREEZE core else s)
  else .next s

end Sys2Proof.Machine
end

