-- ==== Sys2Proof/Machine/Copy.lean ====
section
/-! DEFINITION. What the sync, memory, fabric and host descriptors do (R201, R211, R212, R256, R257, R286). -/

namespace Sys2Proof.Machine

/-! ### COPY -/

/-- A COPY of a tile, scales included (R201). -/
def copyTile (s : State) (g fl tag : Nat) (a b : Oper) : State :=
  let s := stampChecks s g fl tag [a.e]
  let (s, els) := (List.range b.nrows).foldl (fun (acc : State × List (List QEl)) r =>
    let (s, qs) := readCodes acc.1 g fl tag a.e (a.row0 + r) a.col0 b.ncols
    let (s, xs) := readScales s g fl tag a.e (a.row0 + r) a.col0 b.ncols
    (s, acc.2 ++ [(qs.zip xs).map fun e => ⟨e.1.getD 0, e.2, .norm, false, 0⟩])) (s, [])
  writeTile s g fl tag b els

/-- A COPY of a byte range (R201). -/
def copyRaw (s : State) (g fl : Nat) (d : List Byte) : State :=
  let hint := bits 3 2 (dW d 2)
  let n := dW d 7
  let (s, l) := spRead s g fl (dTag d) (bits 17 16 (dW d 4)) hint (dAddr d 3) n
  spWrite s g (dTag d) (bits 17 16 (dW d 6)) hint (dAddr d 5) l

/-- The effect of a COPY. -/
def doCopy (s : State) (g fl : Nat) (v : View) (d : List Byte) : State :=
  if bit 0 (dW d 2) then copyRaw s g fl d else copyTile s g fl (dTag d) (oper v (dW d 0)) (oper v (dW d 1))

/-! ### Atomic path -/

/-- The request of an ATOMIC (R201). -/
def atomicReqOf (g : Nat) (d : List Byte) : AtomicReq :=
  let w := dW d 1
  { src := .core g, addr := dAddr d 0, op := bits 19 16 w, etype := bits 22 20 w, lineOp := false
    operand := dW d 2 + dW d 3 * 2 ^ 32, comparand := dW d 4 + dW d 5 * 2 ^ 32, data := [], tag := dTag d }

/-- The effect of an ATOMIC (R201): RET writes the old value, in the width of its type (log 20). -/
def doAtomic (s : State) (g : Nat) (d : List Byte) : State :=
  let r := atomicDo s (atomicReqOf g d)
  if bit 23 (dW d 1) && r.2.2 then csWrite r.1 g (bits 21 0 (dW d 6)) (toLE (etBytes (bits 22 20 (dW d 1))) r.2.1) else r.1

/-- The request of line `i` of a LINE_OP, from the core store as it stands (R201). -/
def lineReqOf (s : State) (g : Nat) (d : List Byte) (i : Nat) : AtomicReq :=
  let w := dW d 2
  { src := .core g, addr := dAddr d 1 + 128 * i, op := bits 19 16 w, etype := bits 23 20 w, lineOp := true
    operand := 0, comparand := 0, data := csRead s g (bits 21 0 (dW d 0) + 128 * i) 128, tag := dTag d }

/-- The effect of a LINE_OP (R201). -/
def doLineOp (s : State) (g : Nat) (d : List Byte) : State :=
  (List.range (dW d 3)).foldl (fun s i => (atomicDo s (lineReqOf s g d i)).1) s

/-- The effect of a RED_ARM. -/
def doRedArm (s : State) (g : Nat) (d : List Byte) : State := armDo s (.core g) (dAddr d 0) (dTag d)

/-- Contribute lines of core store to a slot of this device. -/
def contribLines (s : State) (g hdr idx src first count tag : Nat) : State :=
  (List.range count).foldl (fun s i => (contribDo s (.core g) hdr idx (first + i) (csRead s g (src + 128 * i) 128) tag).1) s

/-- The effect of a RED_CONTRIB. -/
def doRedContrib (s : State) (g : Nat) (d : List Byte) : State :=
  contribLines s g (dAddr d 0) (bits 15 0 (dW d 2)) (bits 21 0 (dW d 3)) (dW d 4) (dW d 5) (dTag d)

/-- The effect of a SCALE_ROLL (R144). -/
def doScaleRoll (s : State) (g : Nat) (d : List Byte) : State := rollDo s (.core g) (dAddr d 0) (dAddr d 2) (dTag d)

/-! ### Fabric -/

/-- The packets of a PUT (R286). -/
def putPackets (s : State) (g : Nat) (d : List Byte) : List Packet :=
  let w := dW d 0
  (pieces4k (dW d 4)).mapIdx fun i e =>
    let p := ownPacket s (bits 11 0 w) (if bit 16 w then 2 else 0) 0
    { p with plen := e.2 / 32, addr := dAddr d 1 + e.1, hint := bits 17 16 (dW d 2), tag := dTag d, core := g, pkt := i
             payload := csRead s g (bits 21 0 (dW d 3) + e.1) e.2 }

/-- The packets of an RCONTRIB: up to 32 lines each (R286). -/
def rcontribPackets (s : State) (g : Nat) (d : List Byte) : List Packet :=
  let w := dW d 0
  (pieces4k (128 * dW d 6)).mapIdx fun i e =>
    let p := ownPacket s (bits 11 0 w) (if bit 16 w then 2 else 0) 1
    { p with plen := e.2 / 32, addr := dAddr d 1, tag := dTag d, core := g, pkt := i, srcIdx := bits 15 0 (dW d 3)
             aux := (dW d 5 + e.1 / 128) % 2 ^ 32, payload := csRead s g (bits 21 0 (dW d 4) + e.1) e.2 }

/-- Send the packets of a descriptor from its core's tile; a device without an address sends none (R282, log 20). Answers the
packet numbers whose ACKs it awaits. -/
def sendPackets (s : State) (g : Nat) (ps : List Packet) : State × List Nat :=
  let nums := ps.map (·.pkt)
  match ownCoord s with
  | none => (s, nums)
  | some _ => (ps.foldl (fun s p => inject s (tileOf (partOf g)) p) s, nums)

/-- The effect of a PUT; one for the device itself is delivered locally (R201). -/
def doPut (s : State) (g : Nat) (d : List Byte) : State × List Nat :=
  if ownCoord s = some (bits 11 0 (dW d 0)) then
    (memWrite s (.core g) (dTag d) (bits 17 16 (dW d 2)) (dAddr d 1) (csRead s g (bits 21 0 (dW d 3)) (dW d 4)), [])
  else sendPackets s g (putPackets s g d)

/-- The effect of an RCONTRIB; one for the device itself is delivered locally. -/
def doRcontrib (s : State) (g : Nat) (d : List Byte) : State × List Nat :=
  if ownCoord s = some (bits 11 0 (dW d 0)) then
    (contribLines s g (dAddr d 1) (bits 15 0 (dW d 3)) (bits 21 0 (dW d 4)) (dW d 5) (dW d 6) (dTag d), [])
  else sendPackets s g (rcontribPackets s g d)

/-! ### Sync and host -/

/-- FLAG_DECL (R211): declare and clear. -/
def doFlagDecl (s : State) (g : Nat) (d : List Byte) : State :=
  (span (bits 7 0 (dW d 0)) (bits 8 0 (dW d 1))).foldl (fun s n => flagPut (setterPut s g n (bits 3 0 (dW d 2))) g n false) s

/-- COUNTER_SET (R212). -/
def doCounterSet (s : State) (g : Nat) (d : List Byte) : State :=
  let n := bits 5 0 (dW d 0)
  cntPut s g n (if bit 8 (dW d 0) then cntGet s g n + dW d 1 else dW d 1)

/-- NOTIFY (R256, R257). -/
def doNotify (s : State) (g q : Nat) (d : List Byte) : State :=
  let l := logical s g
  let value := dW d 3 + dW d 4 * 2 ^ 32
  if bit 8 (dW d 0) then hostWrite s (dAddr d 1) (cqBytes s (dTag d) l q 1 value (l != g) true)
  else cqPost s (bits 5 0 (dW d 0)) (dTag d) l q 1 value (l != g)

end Sys2Proof.Machine
end

