-- ==== Sys2Proof/Machine/Legality.lean ====
section
/-! DEFINITION. The legality check of a descriptor: every reason of R215 with its detail, over what the descriptor names (R98, R104 to R111, R124 to R142, R155, R182, R197 to R202, R214, R215, R308). Readings: log 22. -/

namespace Sys2Proof.Machine

/-- A broken rule: reason and detail of R215. -/
abbrev Bad := Nat × Nat

/-- A rule that is broken where `c` holds. -/
def broke (c : Bool) (reason detail : Nat) : List Bad := if c then [(reason, detail)] else []

/-- The report of a descriptor that breaks several rules: lowest reason, then lowest detail (R214). -/
def firstBad (l : List Bad) : Option Bad :=
  l.foldl (fun m b => match m with
    | none => some b
    | some a => if b.1 < a.1 ∨ (b.1 = a.1 ∧ b.2 < a.2) then some b else some a) none

/-! ### Reasons 1 to 4: the descriptor's own fields -/

/-- The opcodes of R200. -/
def opcodes : List Nat := [0, 1, 2, 3, 4, 5, 6, 0x10, 0x11, 0x20, 0x21, 0x30, 0x31, 0x32, 0x33, 0x34, 0x35, 0x40, 0x41, 0x50]

/-- Does an operation narrow (R193)? -/
def opNarrows (op : Nat) : Bool := op == 0x11 || op == 0x20 || op == 0x21

/-- The bits that an operation's body words use (R201, R223, R228, R256). -/
def bodyMask (d : List Byte) : List Nat :=
  let a := 0xFFFFFFFF
  match dOp d with
  | 0x01 => [0xFF, 0x1FF, 0xF]
  | 0x02 => [0x13F, a]
  | 0x03 => [0x3F0F]
  | 0x04 => [0x3F00]
  | 0x05 => [0xFF17, 0xFFFF]
  | 0x06 => [0xFFF]
  | 0x10 => [a]
  | 0x11 => [a, a, a, 0x1FFFFFF, 0xFFFF01FF, a, 0xFFFF]
  | 0x20 => [a, a, a, 0xFF00FFFF]
  | 0x21 => [a, a, a, 0xFF00FFFF, 0x1FF, a, a, a]
  | 0x30 => if bit 0 (dW d 2) then [a, a, 0xD, a, 0x3FFFF, a, 0x3FFFF, a] else [a, a, 0xD]
  | 0x31 => [a, 0xFFFFFF, a, a, a, a, 0x3FFFFF]
  | 0x32 => [0x3FFFFF, a, 0xFFFFFF, a]
  | 0x33 => [a, 0xFFFF]
  | 0x34 => [a, 0xFFFF, 0xFFFF, 0x3FFFFF, a, a]
  | 0x35 => [a, 0xFFFF, a, 0xFFFF]
  | 0x40 => [0x10FFF, a, 0x3FFFF, 0x3FFFFF, a]
  | 0x41 => [0x10FFF, a, 0xFFFF, 0xFFFF, 0x3FFFFF, a, a]
  | 0x50 => if bit 8 (dW d 0) then [0x13F, a, 0xFFFF, a, a] else [0x13F, 0, 0, a, a]
  | _ => []

/-- Bits that a descriptor's byte may use; every other byte is free (R193). -/
def byteMask (d : List Byte) (k : Nat) : Nat :=
  let op := dOp d
  if k = 5 then (if op = 0x10 ∨ op = 0x11 then 3 else 1)
  else if k = 6 then (if opNarrows op then 0x3F else 0x20)
  else if k = 7 then (if opNarrows op then 7 else 0)
  else if 0x20 ≤ k then ((bodyMask d).getD ((k - 0x20) / 4) 0) >>> (8 * (k % 4)) % 256
  else 0xFF

/-- Reason 2: reserved bits that are not zero, by the byte that holds them. -/
def reservedBad (d : List Byte) : List Bad :=
  (List.range 64).flatMap fun k => broke ((fieldLE k 1 d &&& (0xFF ^^^ byteMask d k)) != 0) 2 k

/-- Reason 3: a wait of reserved form, or on an undeclared flag (R203, R211). -/
def waitBad (s : State) (g : Nat) (d : List Byte) : List Bad :=
  (List.range 4).flatMap fun i =>
    let w := dWait d i
    match bits 31 30 w with
    | 0 => broke (w != 0) 3 i
    | 3 => []
    | _ => broke (bits 29 8 w != 0 || setterGet s g (bits 7 0 w) == 15) 3 i

/-- Reason 4: a signal word that breaks R206. -/
def signalBad (d : List Byte) : List Bad :=
  (List.range 2).flatMap fun i =>
    let w := dSig d i
    broke (!sigFormOk w || (decide (3 ≤ sigKind w) && decide (259 < sigCore w))) 4 i

/-! ### Reason 5: operands -/

/-- Is an entry one that a descriptor may name, and the tile one that it has (R197, R198)? -/
def operOk (o : Oper) : Bool :=
  o.e.valid && !o.e.resv && fmtKnown o.e.fmt && o.e.space != 3 && o.e.tileRows != 0 && o.e.tileCols != 0 &&
    decide (o.t < o.e.tilesAcross * ceilDiv o.e.rows o.e.tileRows)

/-- Reason 5 for one reference. -/
def operBad (v : View) (ref word : Nat) (required : Bool) : List Bad :=
  if refNull ref then broke required 5 word else broke (!operOk (oper v ref)) 5 word

/-! ### Ranges of core store and gather stamps: reason 11 -/

/-- Does a span leave core store (R196)? -/
def csOut (a n : Nat) : Bool := decide (csSize < a + n)

/-- The rows and columns from a tile's first element on that lie inside its tensor and its tile. -/
def Oper.inRows (o : Oper) (n : Nat) : Nat := min n o.nrows
def Oper.inCols (o : Oper) (n : Nat) : Nat := min n o.ncols

/-- Core-store range of the first `m` rows and `n` columns of a tile, scales included (R199). -/
def tileBad (o : Oper) (m n word : Nat) : List Bad :=
  let r := o.row0 + o.inRows m
  let c := o.col0 + o.inCols n
  if o.e.space ≠ 0 ∨ o.inRows m = 0 ∨ o.inCols n = 0 then []
  else
    broke (csOut (o.e.addr + (r - 1) * o.e.rowStride) (ceilDiv (c * o.e.width) 8)) 11 word ++
    (if isMx o.e.fmt then
      (if o.e.axis = 0 then broke (csOut (o.e.scaleAddr + (r - 1) * o.e.scaleStride) (ceilDiv c 32)) 11 word
       else broke (csOut (o.e.scaleAddr + (r - 1) / 32 * o.e.scaleStride) c) 11 word)
    else [])

/-- Gather stamps (R306, R308). -/
def stampBad (e : TEnt) (word : Nat) : List Bad :=
  broke (e.genV && (e.addr % 32 != 0 || (isMx e.fmt && decide (e.scaleAddr < e.addr + e.rows * e.rowStride)) ||
    (e.space == 0 && (decide (e.addr < 32) || csOut (tailAddr e) 32)))) 11 word

/-! ### Reasons 7 and 12: quantisation records -/

/-- The combinations of R125 for a format. -/
def comboOk (q : QRec) (f : Nat) : Bool :=
  let static := q.src == 0
  let chans := (q.gran == 1 || q.gran == 2) && (q.src == 0 || q.src == 1)
  match q.qmode with
  | 0 => decide (1 ≤ f ∧ f ≤ 5) && q.gran == 0
  | 1 => (f == 6 || f == 7) && q.gran == 0 && (static || q.src == 2)
  | 2 => isMx f && q.gran == 0 && q.src == 1
  | 3 => f == 0xE && ((q.gran == 0 && (static || q.src == 2)) || chans)
  | 4 => f == 0xE && ((q.gran == 0 && static) || chans)
  | 5 => (f == 0x10 || f == 0x11) && q.gran == 0 && (static || q.src == 2)
  | _ => false

/-- Is a per-tensor SCALE one that R98 permits for a format? -/
def scaleOk (q : QRec) (f : Nat) : Bool :=
  match fp32.dec q.scale with
  | .fin s m _ => if m = 0 then f == 0xE && !s else !s
  | _ => false

/-- Does R98 bear on the per-tensor scale of an operand? -/
def scaleBears (q : QRec) (f : Nat) : Bool := f == 6 || f == 7 || f == 0x10 || f == 0x11 || (f == 0xE && q.gran == 0)

/-- Does a record lie outside core store? -/
def recOut (o : Oper) : Bool := o.e.qrecV && csOut (64 * o.q.line) 128

/-- R98: a missing record, a per-tensor scale that is not permitted, a record outside core store. -/
def scaleBad (o : Oper) (reads : Bool) (word : Nat) : List Bad :=
  if !o.e.qrecV then broke (recScaled o.e.fmt) 7 word
  else if recOut o then [(11, word)]
  else broke ((reads || o.q.src == 0) && scaleBears o.q o.e.fmt && !scaleOk o.q o.e.fmt) 7 word

/-- Addresses that a quantiser or a consumer uses for `m` rows and `n` columns of a tile (R124). -/
def recAddrBad (o : Oper) (f m n word : Nat) : List Bad :=
  let q := o.q
  broke (f == 0xE && q.gran == 1 && csOut q.chan (16 * (o.row0 + m))) 11 word ++
  broke (f == 0xE && q.gran == 2 && csOut q.chan (16 * (o.col0 + n))) 11 word ++
  broke (q.tadj != 0 && csOut q.tadj (o.t + 1)) 11 word ++
  broke (q.smooth && csOut q.smoothA (o.col0 + n)) 11 word

/-- A codebook with an infinity or a NaN (R104). -/
def bookBad (o : Oper) : List Bad :=
  broke (o.e.fmt == 0x11 && o.e.qrecV && !recOut o && o.q.book.any fun b => !(bf16.dec b).isFin) 12 0

/-- The record of an operand that is decoded or quantised in format `f`, over `m` rows and `n` columns. -/
def recBad (o : Oper) (reads : Bool) (f m n word : Nat) : List Bad :=
  scaleBad o reads word ++
  (if o.e.qrecV && !recOut o then
    broke (!comboOk o.q f) 7 word ++ broke (o.q.qmode != 0 && o.q.src == 2 && o.q.slot == 0) 7 word ++ recAddrBad o f m n word ++ bookBad o
  else [])

/-- What a quantiser that writes a tensor must keep beside it: misaligned device targets (R134, R139, R182). -/
def writeRecBad (o : Oper) (word : Nat) : List Bad :=
  if o.e.qrecV && !recOut o then
    broke (o.e.fmt == 0xE && o.q.colsum % 4 != 0) 11 word ++
    broke (o.q.qmode != 0 && o.q.src == 2 && o.q.slot % 128 != 0) 11 word
  else []

/-! ### Reasons 8 and 9 of outputs -/

/-- Destinations without infinity (R106). -/
def noInf (f : Nat) : Bool := f == 6 || f == 8 || f == 0xA || f == 0xB || f == 0xC || f == 0xD || f == 0xE

/-- RND and OVF of a descriptor that narrows (R106, R108). -/
def roundBad (d : List Byte) : List Bad := broke (decide (4 < dRnd d) || dOvf d == 3) 8 0

/-- RND and OVF against a destination (R105, R106). -/
def destBad (d : List Byte) (f : Nat) : List Bad :=
  broke (dOvf d == 2 && noInf f) 8 0 ++ broke ((f == 0x10 || f == 0x11) && dRnd d != 0) 8 0

/-- The extent of an MX write (R199). -/
def extentBad (o : Oper) (m n word : Nat) : List Bad :=
  if !isMx o.e.fmt then []
  else
    let (a, len, edge) := if o.e.axis = 0 then (o.col0, o.inCols n, o.e.cols) else (o.row0, o.inRows m, o.e.rows)
    broke (a % 32 != 0 || ((a + len) % 32 != 0 && a + len != edge)) 9 word

/-- An output operand that a quantiser writes: `m` rows and `n` columns of it. -/
def outBad (v : View) (d : List Byte) (ref word m n : Nat) (fp64 : Bool) : List Bad :=
  let o := oper v ref
  operBad v ref word true ++
  (if refNull ref then []
   else
    broke (o.e.fmt == 0x12 || (o.e.fmt == 1 && !fp64)) 6 word ++ recBad o false o.e.fmt m n word ++ writeRecBad o word ++
    destBad d o.e.fmt ++ extentBad o m n word ++ tileBad o m n word ++ stampBad o.e word)

/-! ### Reason 10: chain records -/

/-- How a descriptor uses its chain. -/
structure ChainUse where
  fused : Bool
  /-- formats of input stream 0 and output 0 -/
  in0 : Nat
  out : Nat
  /-- output 0 is a plain conversion to FP64 or FP32 -/
  plain : Bool
  /-- extent of the rows -/
  m : Nat
  n : Nat
  /-- body words of the CHAIN line and of the BIND line -/
  wc : Nat
  wb : Nat
  deriving DecidableEq, Repr

/-- Reason 10 for stage `i` of a chain (R152 to R155). -/
def stageBad (l : List Stage) (b : List Byte) (u : ChainUse) (w : Bool) (i : Nat) (t : Stage) : List Bad :=
  let upTo := l.take (i + 1)
  let many := fun (p : Stage → Bool) (k : Nat) => p t && decide (k < (upTo.filter p).length)
  let scan := decide (0x20 ≤ t.op ∧ t.op ≤ 0x22)
  broke (t.srcs.any (fun k => (decide (k < 8) && decide (i ≤ k)) || (k == 9 && refNull (bnIn1 b)) ||
      (k == 0xB && (bnLane b 0).isNone) || (k == 0xC && (bnLane b 1).isNone) || (k == 0xA && w && decide (8 ≤ t.cidx))) ||
    (scan && t.carry && w && decide (8 ≤ t.cidx)) ||
    many (fun t => opFu t.op) 2 || many (fun t => opScanRed t.op) 2 || many (fun t => t.op == 0x30) 1 || many (·.tap) 1 ||
    (t.tap && refNull (bnOut1 b)) || decide (3 < t.srnd) || !opKnown t.op || t.resv || (t.axis && t.carry) ||
    (t.fp64 && (u.fused || l.any (fun t => !t.fp64 && t.op != 0x0D) || !u.plain)) ||
    (w && opFu t.op && t.op != 0x10 && t.op != 0x11 && t.op != 0x12) ||
    (t.op == 0x0D && !decide (2 ≤ t.cidx ∧ t.cidx ≤ 0xC))) 10 i

/-- Everything about a descriptor's chain: its record, its binding record, its CVT stages (R106, R111, R149, R152 to R156). -/
def chainBad (v : View) (d : List Byte) (cfg : OutCfg) (u : ChainUse) : List Bad :=
  if csOut (64 * cfg.chain) 128 then [(11, u.wc)]
  else
    let l := chainStages (v (64 * cfg.chain) 128)
    let b := v (64 * cfg.bind) 32
    let w := chainFp64 l u.in0
    let in1 := bnIn1 b
    let use1 := chainUses l 9 && !refNull in1
    let tap := l.any (·.tap) && !refNull (bnOut1 b)
    let o1 := oper v in1
    let t1 := oper v (bnOut1 b)
    let laneN := 128 * (if w then 8 else 4)
    ((l.mapIdx fun i t => stageBad l b u w i t).flatten) ++
    broke (l.isEmpty && w && (u.fused || !u.plain)) 10 0 ++
    (if use1 then
      operBad v in1 u.wb true ++ broke (o1.e.fmt == 0x12 || (o1.e.fmt == 1 && !w)) 6 u.wb ++ recBad o1 true o1.e.fmt u.m u.n u.wb ++
        tileBad o1 u.m u.n u.wb ++ stampBad o1.e u.wb
    else []) ++
    (if tap then
      operBad v (bnOut1 b) u.wb true ++ broke (decide (5 < t1.e.fmt)) 6 u.wb ++ tileBad t1 u.m u.n u.wb ++ stampBad t1.e u.wb
    else []) ++
    ((List.range 2).flatMap fun i => match bnLane b i with
      | some k => broke (csOut (512 * k) laneN) 11 u.wb
      | none => []) ++
    broke (dOvf d == 2 && l.any (fun t => t.op == 0x0D && noInf t.cidx)) 8 0 ++
    ((lastCvts l u.out (if tap then some t1.e.fmt else none)).flatMap fun e =>
      if doubleNarrow e.2.1 e.2.2 = some false then [(8, 0), (10, e.1)] else [])

/-! ### The operations -/

/-- WLOAD (R66, R202). DEDUCED (log 22): the granularity that R131 forbids a weight operand is checked here as well as at the stream. -/
def wloadBad (v : View) (d : List Byte) : List Bad :=
  let o := oper v (dW d 0)
  operBad v (dW d 0) 0 true ++
  (if refNull (dW d 0) then []
   else
    broke (o.e.fmt == 1 || o.e.fmt == 0x12) 6 0 ++ recBad o true o.e.fmt o.e.tileRows o.e.tileCols 0 ++
    broke (o.e.fmt == 0xE && o.q.gran == 1) 7 0 ++
    broke (decide (128 < o.e.tileCols) ||
      decide ((if o.e.fmt = 0xC ∨ o.e.fmt = 0x10 ∨ o.e.fmt = 0x11 then 256 else 128) < o.e.tileRows)) 9 0 ++
    tileBad o o.e.tileRows o.e.tileCols 0 ++ stampBad o.e 0)

/-- The settings in which the two records of a stream must agree (R131, R137).
DEDUCED (log 22): the agreement of R137 is asked for once either record sets ROT or SMOOTH. -/
def pairBad (x w : Oper) (pf k : Nat) : List Bad :=
  (if x.q.rot = 0 ∧ w.q.rot = 0 ∧ !x.q.smooth ∧ !w.q.smooth then []
   else
    broke (x.q.rot != w.q.rot || x.q.signs != w.q.signs || x.q.smooth != w.q.smooth || x.q.smoothA != w.q.smoothA) 7 0 ++
    broke x.q.rotSide 7 0 ++ broke (!w.q.rotSide) 7 1 ++ broke (k % rotLen x.q != 0) 7 4) ++
  broke (pf == 0xE && x.q.gran == 2) 7 0 ++ broke (pf == 0xE && w.q.gran == 1) 7 1

/-- The operands and the geometry of a stream (R66, R70, R73, R137, R199, R202). -/
def streamInBad (s : State) (g : Nat) (v : View) (d : List Byte) : List Bad :=
  let x := oper v (dW d 0)
  let w := oper v (dW d 1)
  let m := stM d
  let k := stK d
  let n := stN d
  let pf := passFmt x w.e.fmt
  let pff := pf.getD x.e.fmt
  let c := getCore s g
  let bank := (c.loaded.head?).bind (bankOf c)
  let opsOk := !refNull (dW d 0) && !refNull (dW d 1) && operOk x && operOk w
  operBad v (dW d 0) 0 true ++ operBad v (dW d 1) 1 true ++
  (if opsOk then
    broke pf.isNone 6 (if 2 ≤ x.e.fmt ∧ x.e.fmt ≤ 0xE then 1 else 0) ++
    broke (isMx x.e.fmt && x.e.axis != 0) 6 0 ++ broke (isMx w.e.fmt && w.e.axis != 1) 6 1 ++
    recBad x true pff m k 0 ++ recBad w true w.e.fmt w.e.tileRows w.e.tileCols 1 ++ pairBad x w pff k ++
    broke (pff != x.e.fmt && dOvf d == 2 && noInf pff) 8 0 ++
    broke (decide (x.e.tileRows < m)) 9 3 ++ broke (decide (x.e.tileCols < k)) 9 4 ++
    tileBad x m k 0 ++ stampBad x.e 0 ++ stampBad w.e 1
  else []) ++
  (match bank with
   | none => [(15, 0)]
   | some b =>
     broke (b.ref != dW d 1 && !refNull (dW d 1)) 6 1 ++ broke (decide (128 < b.height) && pff != 0xC) 9 1) ++
  broke (m == 0 || decide (1024 < m) || decide (1024 < stAcc d + m)) 9 3 ++
  broke (k == 0 || decide ((if pff = 0xC then 256 else 128) < k) || n == 0 || decide (128 < n)) 9 4 ++ roundBad d

/-- The output of a LAST or ONLY pass (R73, R142, R202). -/
def streamOutBad (v : View) (d : List Byte) : List Bad :=
  let o := oper v (dW d 2)
  let cfg := stCfg d
  outBad v d (dW d 2) 2 (stM d) (stN d) (stFused d) ++
  broke (csOut (64 * cfg.hist) 320) 11 5 ++
  (if refNull (dW d 2) then []
   else
    broke (decide (o.e.tileRows < stM d)) 9 3 ++ broke (decide (o.e.tileCols < stN d)) 9 4 ++
    broke (o.e.qrecV && !recOut o && o.q.recompute && (o.q.tadj == 0 || o.e.space != 0 || stFused d)) 7 2) ++
  (if stFused d then
    chainBad v d cfg ⟨true, 2, o.e.fmt, o.q.qmode == 0 && (o.e.fmt == 1 || o.e.fmt == 2), stM d, stN d, 5, 6⟩
  else [])

/-- STREAM: FIRST and MIDDLE ignore their output fields (R202). -/
def streamBad (s : State) (g : Nat) (v : View) (d : List Byte) : List Bad :=
  streamInBad s g v d ++ (if stOut d then streamOutBad v d else [])

/-- Input stream 0 of a chain that core store feeds. -/
def in0Bad (v : View) (d : List Byte) : List Bad :=
  let o := oper v (dW d 0)
  let cfg := vcCfg d
  let w := chainFp64 (chainStages (v (64 * cfg.chain) 128)) o.e.fmt
  operBad v (dW d 0) 0 true ++
  (if refNull (dW d 0) then []
   else
    broke (o.e.fmt == 0x12 || (o.e.fmt == 1 && !w && !csOut (64 * cfg.chain) 128)) 6 0 ++
    recBad o true o.e.fmt o.nrows o.ncols 0 ++ tileBad o o.nrows o.ncols 0 ++ stampBad o.e 0) ++
  broke (csOut (64 * cfg.hist) 320) 11 2 ++ roundBad d

/-- An operand whose tile has not the shape of the input tile (R202). -/
def shapeBad (v : View) (d : List Byte) (word : Nat) : List Bad :=
  let a := (oper v (dW d 0)).e
  let b := (oper v (dW d word)).e
  broke (a.tileRows != b.tileRows || a.tileCols != b.tileCols) 9 word

/-- VCHAIN (R152, R202). -/
def vchainBad (v : View) (d : List Byte) : List Bad :=
  let i := oper v (dW d 0)
  let o := oper v (dW d 1)
  in0Bad v d ++ outBad v d (dW d 1) 1 o.nrows o.ncols true ++
  (if refNull (dW d 1) then [] else shapeBad v d 1) ++
  chainBad v d (vcCfg d) ⟨false, i.e.fmt, o.e.fmt, o.q.qmode == 0 && (o.e.fmt == 1 || o.e.fmt == 2), i.nrows, i.ncols, 2, 3⟩

/-- A tensor of an OPTIM in one of some formats (R145 to R147). -/
def optimOper (v : View) (d : List Byte) (word : Nat) (fmts : List Nat) (required : Bool) : List Bad :=
  let o := oper v (dW d word)
  operBad v (dW d word) word required ++
  (if refNull (dW d word) then []
   else
    broke (!fmts.contains o.e.fmt) 6 word ++ shapeBad v d word ++ tileBad o o.nrows o.ncols word ++ stampBad o.e word)

/-- OPTIM (R145 to R147, R202). -/
def optimBad (v : View) (d : List Byte) : List Bad :=
  let i := oper v (dW d 0)
  let comp := bit 8 (dW d 4)
  let k := oper v (dW d 6)
  in0Bad v d ++ optimOper v d 1 (if comp then [4] else [2]) true ++ optimOper v d 5 [4] false ++
  (if comp then optimOper v d 7 [4] true else []) ++
  (if refNull (dW d 6) then [] else outBad v d (dW d 6) 6 k.nrows k.ncols false ++ shapeBad v d 6) ++
  broke (bits 7 0 (dW d 4) == 0x80) 13 0 ++
  chainBad v d (vcCfg d) ⟨false, i.e.fmt, 4, false, i.nrows, i.ncols, 2, 3⟩

/-- COPY (R201): a tile, or a byte range. -/
def copyBad (v : View) (d : List Byte) : List Bad :=
  if bit 0 (dW d 2) then
    let n := dW d 7
    let side := fun (i : Nat) =>
      broke (bits 17 16 (dW d (i + 1)) == 3 || (bits 17 16 (dW d (i + 1)) == 0 && csOut (dAddr d i) n)) 11 i
    broke (!refNull (dW d 0)) 6 0 ++ broke (!refNull (dW d 1)) 6 1 ++
    broke (n % 32 != 0 || decide (n < 32) || decide (2 ^ 24 < n)) 11 7 ++ side 3 ++ side 5
  else
    let a := oper v (dW d 0)
    let b := oper v (dW d 1)
    operBad v (dW d 0) 0 true ++ operBad v (dW d 1) 1 true ++
    (if refNull (dW d 0) || refNull (dW d 1) then []
     else
      broke (a.e.fmt != b.e.fmt || a.e.tileRows != b.e.tileRows || a.e.tileCols != b.e.tileCols) 6 1 ++
      scaleBad a true 0 ++ scaleBad b false 1 ++ extentBad b b.nrows b.ncols 1 ++
      tileBad a b.nrows b.ncols 0 ++ tileBad b b.nrows b.ncols 1 ++ stampBad a.e 0 ++ stampBad b.e 1)

/-- Lines of core store that a descriptor contributes (R201). -/
def linesBad (d : List Byte) (wsrc wcount : Nat) : List Bad :=
  let a := bits 21 0 (dW d wsrc)
  broke (a % 128 != 0 || csOut a (128 * dW d wcount)) 11 wsrc ++ broke (dW d wcount == 0) 11 wcount

/-- The memory, fabric and host operations (R182, R201, R256). -/
def bodyBad (s : State) (d : List Byte) : List Bad :=
  match dOp d with
  | 0x31 =>
    let w := dW d 1
    let et := bits 22 20 w
    broke (decide (5 < et) || decide (7 < bits 19 16 w) || (decide (3 ≤ bits 19 16 w) && decide (1 < et))) 6 1 ++
    broke (decide (et ≤ 5) && dAddr d 0 % etBytes et != 0) 11 0 ++
    broke (bit 23 w && (dW d 6 % 8 != 0 || csOut (bits 21 0 (dW d 6)) 8)) 11 6
  | 0x32 =>
    let w := dW d 2
    let a := bits 21 0 (dW d 0)
    broke (decide (2 < bits 19 16 w) || decide (5 < bits 23 20 w)) 6 2 ++
    broke (a % 128 != 0 || csOut a (128 * dW d 3)) 11 0 ++ broke (dAddr d 1 % 128 != 0) 11 1 ++
    broke (dW d 3 == 0 || decide (32768 < dW d 3)) 11 3
  | 0x33 => broke (dAddr d 0 % 64 != 0) 11 0
  | 0x34 => broke (dAddr d 0 % 64 != 0) 11 0 ++ linesBad d 3 5
  | 0x35 => broke (dAddr d 0 % 128 != 0) 11 0
  | 0x40 =>
    let a := bits 21 0 (dW d 3)
    let n := dW d 4
    broke (a % 32 != 0 || csOut a n) 11 3 ++ broke (n % 32 != 0 || decide (n < 32) || decide (2 ^ 22 < n)) 11 4
  | 0x41 => broke (dAddr d 1 % 64 != 0) 11 1 ++ linesBad d 4 6
  | 0x50 =>
    if bit 8 (dW d 0) then broke (dW d 1 % 32 != 0) 11 1
    else broke (!rb s F.HQ_CQ_CTRL_EN (bits 5 0 (dW d 0))) 5 0
  | 0x01 =>
    broke (decide (256 < bits 7 0 (dW d 0) + bits 8 0 (dW d 1)) || bits 8 0 (dW d 1) == 0 ||
      decide (11 ≤ bits 3 0 (dW d 2) ∧ bits 3 0 (dW d 2) ≤ 14)) 16 0
  | _ => []

/-! ### Reason 14: loops and branches -/

/-- Positions of a queue's buffer as the structure rules see them (R223 to R234): the head's place, the open loops. -/
structure Shape where
  buf : List (List Byte)
  pos : Nat
  loops : List LoopSt
  /-- count of segments of the last BRANCH, and the INDEX that the next marker must carry -/
  segs : Nat × Nat
  deriving DecidableEq, Repr

def bodyLen (d : List Byte) : Nat := bits 13 8 (dW d 0)
def noWaits (d : List Byte) : Bool := (List.range 4).all fun i => dWait d i == 0 || bits 31 30 (dWait d i) == 0
def noSigs (d : List Byte) : Bool := (List.range 2).all fun i => sigKind (dSig d i) == 0

/-- Place of the LOOP_END of the innermost open loop. -/
def Shape.innerEnd (h : Shape) : Option Nat := (h.loops.getLast?).map fun l => l.start + l.len

/-- First place that the buffer must keep: the LOOP_BEGIN of the outermost open loop, or the head. -/
def Shape.base (h : Shape) : Nat := match h.loops with
  | l :: _ => l.start - 1
  | [] => h.pos

/-- LOOP_BEGIN (R223, R227, R234). -/
def loopBeginBad (h : Shape) (d : List Byte) : List Bad :=
  let n := bodyLen d
  let e := h.pos + n + 1
  broke (decide (4 ≤ h.loops.length)) 14 1 ++
  broke (decide (62 < n) || decide (64 ≤ e - h.base)) 14 3 ++
  (match h.buf[e]? with
   | some x => broke (dOp x != 4 || bodyLen x != n || !noWaits x) 14 4
   | none => []) ++
  (match h.innerEnd with
   | some k => broke (decide (k ≤ e)) 14 4
   | none => [])

/-- LOOP_END (R223, R227, R234). -/
def loopEndBad (h : Shape) (d : List Byte) : List Bad :=
  match h.loops.getLast? with
  | none => [(14, 2)]
  | some l => broke (h.pos != l.start + l.len || bodyLen d != l.len || !noWaits d) 14 4

/-- A test of a rule record (R229). -/
structure RuleTest where
  field : Nat
  cmp : Nat
  seg : Nat
  const : Nat
  deriving DecidableEq, Repr

/-- The tests of a rule record up to the end of its list. -/
def ruleTests (r : List Byte) : List RuleTest :=
  ((List.range 4).map fun t =>
    let b := fieldLE (16 * t) 1 r
    (⟨bits 3 0 b, bits 7 4 b, bits 3 0 (fieldLE (16 * t + 1) 1 r), fieldLE (16 * t + 8) 8 r⟩ : RuleTest)).takeWhile fun t => t.field != 0

/-- Segments behind a BRANCH that the buffer holds: place of each marker in turn, with its body length. -/
def segPlaces (buf : List (List Byte)) : Nat → Nat → List (Nat × Nat)
  | 0, _ => []
  | n + 1, p =>
    match buf[p]? with
    | some m => if dOp m = 6 then (p, bits 7 0 (dW m 0)) :: segPlaces buf n (p + 1 + bits 7 0 (dW m 0)) else []
    | none => []

/-- Markers out of order behind a BRANCH: the segment `i` of `n` is looked for at place `p` (R228, R234). -/
def markersBad (buf : List (List Byte)) (i : Nat) : Nat → Nat → Bool
  | 0, _ => false
  | n + 1, p =>
    match buf[p]? with
    | some m => dOp m != 6 || bits 11 8 (dW m 0) != i || !noWaits m || !noSigs m || markersBad buf (i + 1) n (p + 1 + bits 7 0 (dW m 0))
    | none => false

/-- A segment body that R233 forbids. -/
def segBodyBad (buf : List (List Byte)) (p n : Nat) : Bool :=
  (span (p + 1) n).any fun k => match buf[k]? with
    | some x =>
      dOp x == 5 || (dOp x == 3 && decide (p + n < k + bodyLen x + 1)) ||
        (dOp x == 4 && !(span (p + 1) n).any fun b => match buf[b]? with
          | some y => dOp y == 3 && b + bodyLen y + 1 == k
          | none => false)
    | none => false

/-- BRANCH (R228 to R234), over what the buffer holds of its segments. -/
def branchBad (v : View) (h : Shape) (d : List Byte) : List Bad :=
  let w := dW d 0
  let n := bits 11 8 w
  let rule := ruleTests (v (64 * bits 15 0 (dW d 1)) 64)
  let segs := segPlaces h.buf n (h.pos + 1)
  broke (n == 0 || decide (8 < n) || decide (n ≤ bits 15 12 w) ||
    (!bit 4 w && rule.any fun t => decide (10 < t.field) || decide (7 < t.cmp) || decide (n ≤ t.seg))) 14 6 ++
  broke (markersBad h.buf 0 n (h.pos + 1)) 14 7 ++
  broke (segs.any fun e => segBodyBad h.buf e.1 e.2) 14 8 ++
  (match h.innerEnd with
   | some k => broke (segs.any fun e => decide (k ≤ e.1 + e.2)) 14 8
   | none => [])

/-- SEGMENT (R228, R234): a marker behind a BRANCH carries the next INDEX. -/
def segmentBad (h : Shape) (d : List Byte) : List Bad :=
  broke (!noWaits d || !noSigs d || (decide (h.segs.2 < h.segs.1) && bits 11 8 (dW d 0) != h.segs.2)) 14 7

/-! ### The check -/

/-- Every rule that a descriptor at the head of a queue of core `g` breaks. -/
def allBad (s : State) (g : Nat) (h : Shape) (d : List Byte) : List Bad :=
  let v := viewNow s g
  if !opcodes.contains (dOp d) then [(1, 0)]
  else
    reservedBad d ++ waitBad s g d ++ signalBad d ++
    (match dOp d with
     | 0x03 => loopBeginBad h d
     | 0x04 => loopEndBad h d
     | 0x05 => branchBad v h d
     | 0x06 => segmentBad h d
     | 0x10 => wloadBad v d
     | 0x11 => streamBad s g v d
     | 0x20 => vchainBad v d
     | 0x21 => optimBad v d
     | 0x30 => copyBad v d
     | _ => bodyBad s d)

/-- The legality check (R214): the reason and detail that are reported; `none` for a legal descriptor. -/
def legality (s : State) (g : Nat) (h : Shape) (d : List Byte) : Option Bad := firstBad (allBad s g h d)

/-- Entries and records that a descriptor's check read, for its execution (R194, R202). -/
def descSnap (s : State) (g : Nat) (d : List Byte) : List (Nat × List Byte) :=
  let refs := fun (l : List Nat) => l.flatMap fun i => refSnap s g (dW d i)
  let chain := fun (c : OutCfg) =>
    let b := csRead s g (64 * c.bind) 32
    refSnap s g (bnIn1 b) ++ refSnap s g (bnOut1 b) ++ [(64 * c.chain, csRead s g (64 * c.chain) 128), (64 * c.bind, b)]
  match dOp d with
  | 0x10 => refs [0]
  | 0x11 => refs [0, 1, 2] ++ (if stOut d && stFused d then chain (stCfg d) else [])
  | 0x20 => refs [0, 1] ++ chain (vcCfg d)
  | 0x21 => refs [0, 1, 5, 6, 7] ++ chain (vcCfg d)
  | 0x30 => if bit 0 (dW d 2) then [] else refs [0, 1]
  | _ => []

end Sys2Proof.Machine
end

