-- ==== Sys2Proof/Machine/Sequencer.lean ====
section
/-! DEFINITION. The sequencer: waits, arbitration, issue, illegal descriptors, descriptors in flight and their completion (R194, R195, R203 to R222; readings: log 12). -/

namespace Sys2Proof.Machine

/-! ### Queues -/

/-- A queue of a core. -/
def queueOf (s : State) (g q : Nat) : QueueSt := (getCore s g).queues.getD q QueueSt.reset

/-- Replace a queue of a core. -/
def setQueue (s : State) (g q : Nat) (v : QueueSt) : State :=
  let c := getCore s g
  setCore s g { c with queues := c.queues.set q v }

/-- The head of a queue (R217). -/
def QueueSt.head (q : QueueSt) : Option (List Byte) := q.buf[q.pos]?

/-- Completed iterations of the innermost open loop; 0 outside any loop (R205). -/
def QueueSt.iter (q : QueueSt) : Nat := ((q.loops.getLast?).map (·.i)).getD 0

/-- Does the queue pass over descriptors (R230, R231)? -/
def QueueSt.passing (q : QueueSt) : Bool := q.pass.segs != 0 || q.pass.body != 0 || q.pass.mark

/-- The queue as the structure rules see it. -/
def QueueSt.shape (q : QueueSt) : Shape := ⟨q.buf, q.pos, q.loops, q.segs⟩

/-- The head leaves: the buffer keeps an open loop's descriptors (R217, R224). -/
def QueueSt.advance (q : QueueSt) (n : Nat) : QueueSt :=
  if q.loops.isEmpty then { q with buf := q.buf.drop (q.pos + n), pos := 0, promoted := false }
  else { q with pos := q.pos + n, promoted := false }

/-- One step of a pass-over; `none` where nothing more can be passed. -/
def QueueSt.passStep (q : QueueSt) : Option QueueSt :=
  match q.head with
  | none => none
  | some d =>
    if q.pass.body ≠ 0 then some { q.advance 1 with pass := { q.pass with body := q.pass.body - 1 } }
    else if dOp d ≠ 6 then (if q.passing then some { q with pass := ⟨0, 0, false⟩ } else none)
    else if q.pass.segs ≠ 0 then some { q.advance 1 with pass := { q.pass with segs := q.pass.segs - 1, body := bits 7 0 (dW d 0) } }
    else if q.pass.mark then some { q.advance 1 with pass := ⟨0, 0, false⟩ }
    else none

/-- Pass over what the buffer holds of it (R230, R231). -/
def passFrom : Nat → QueueSt → QueueSt
  | 0, q => q
  | n + 1, q =>
    match q.passStep with
    | some r => passFrom n r
    | none => q

/-- Pass over all that can be passed. -/
def QueueSt.passOver (q : QueueSt) : QueueSt := passFrom (q.buf.length + 2) q

/-- Descriptors of a queue that have issued and not fired, a waiting BRANCH among them (R218). -/
def inFlight (s : State) (g q : Nat) : Nat :=
  ((getCore s g).flights.filter (fun f => f.queue == q)).length + b2n (queueOf s g q).branch.isSome

/-! ### Waits (R203 to R205) -/

/-- Does wait `i` of a descriptor hold? -/
def waitHolds (s : State) (g iter : Nat) (d : List Byte) (i : Nat) : Bool :=
  let w := dWait d i
  match bits 31 30 w with
  | 0 => true
  | 3 =>
    let t := if dWrel d then (bits 23 0 w + iter) % 2 ^ 24 else bits 23 0 w
    decide ((cntGet s g (bits 29 24 w) + 2 ^ 24 - t) % 2 ^ 24 < 2 ^ 23)
  | _ => flagGet s g (bits 7 0 w)

/-- The waits of a head that do not hold, as a mask (R218). -/
def waitMask (s : State) (g iter : Nat) (d : List Byte) : Nat :=
  (List.range 4).foldl (fun m i => m + (if waitHolds s g iter d i then 0 else 2 ^ i)) 0

/-- Flags that a descriptor consumes at issue. -/
def consumed (d : List Byte) : List Nat :=
  (List.range 4).filterMap fun i => if bits 31 30 (dWait d i) = 2 then some (bits 7 0 (dWait d i)) else none

/-! ### Readiness and grants (R219 to R221) -/

/-- Does the core run descriptors: active, out of reset, in P0? -/
def coreRuns (s : State) (g : Nat) : Bool :=
  decide (g < 260) && role s g == 0 && !inReset s (partOf g) && pstate s (partOf g) == 0

/-- The unit of an operation (R195, R200): array, vector engine, atomic path, copy and fabric engine; 4 for the sequencer. -/
def unitOf (op : Nat) : Nat :=
  match op with
  | 0x10 | 0x11 => 0
  | 0x20 | 0x21 => 1
  | 0x31 | 0x32 | 0x33 | 0x34 | 0x35 => 2
  | 0x30 | 0x40 | 0x41 => 3
  | _ => 4

/-- A head that stands for its legality check: its waits hold and nothing holds its queue (R194, R218). -/
def standingHead (s : State) (g q : Nat) : Option (List Byte) :=
  let k := queueOf s g q
  if coreRuns s g && k.halt.isNone && k.branch.isNone && !k.passing then
    match k.head with
    | some d => if waitMask s g k.iter d = 0 then some d else none
    | none => none
  else none

/-- Is a head held though its waits hold: a WLOAD whose bank is held (R70), a NOTIFY whose completion queue is full (R257), a
LOOP_BEGIN whose LOOP_END has not been fetched, any descriptor before the step's inputs are copied (R305; log 12)? -/
def headHeld (s : State) (g q : Nat) (d : List Byte) : Bool :=
  let k := queueOf s g q
  let c := getCore s g
  ((openStep s).map (·.copying)).getD false ||
  (match dOp d with
   | 0x10 => bankHeld c c.nextBank
   | 0x50 => !bit 8 (dW d 0) && cqFull s (bits 5 0 (dW d 0))
   | 0x03 => decide (k.buf.length ≤ k.pos + bodyLen d + 1)
   | _ => false)

/-- A head as the sequencer finds it in a cycle. -/
inductive HeadSt where
  /-- nothing to issue, or a wait does not hold -/
  | empty
  | illegal (bad : Bad) (d : List Byte)
  | held (d : List Byte)
  | ready (d : List Byte)
  deriving DecidableEq, Repr

/-- The head of a queue before arbitration. -/
def headState (s : State) (g q : Nat) : HeadSt :=
  match standingHead s g q with
  | none => .empty
  | some d =>
    match legality s g (queueOf s g q).shape d with
    | some b => .illegal b d
    | none => if headHeld s g q d then .held d else .ready d

/-- The descriptor of a ready head. -/
def HeadSt.desc? : HeadSt → Option (List Byte)
  | .ready d => some d
  | _ => none

/-- Does a lower queue's ready head consume a flag that this one would consume (R204, R220)? -/
def flagTaken (s : State) (g q : Nat) (d : List Byte) : Bool :=
  (List.range q).any fun p => match (headState s g p).desc? with
    | some e => (consumed e).any fun n => (consumed d).contains n
    | none => false

/-- Priority class of a queue (R219, R221): code 3 reads as 1, a promoted head is normal. -/
def prioOf (s : State) (g q : Nat) : Nat :=
  let p := rf s (F.SEQ_QCTRL_PRIO.nth q) g
  if p = 3 then 1 else if p = 0 ∧ (queueOf s g q).promoted then 1 else p

/-- Queues other than `q` whose ready heads ask for a unit. -/
def rivals (s : State) (g q u : Nat) : List Nat :=
  (List.range 8).filter fun p => p != q && (match (headState s g p).desc? with
    | some e => unitOf (dOp e) == u && !flagTaken s g p e
    | none => false)

/-- Does the unit grant this queue (R219, R221)? -/
def granted (s : State) (g q u : Nat) : Bool :=
  let last := (getCore s g).granted.getD u 7
  let turn := fun (p : Nat) => (p + 7 - last) % 8
  u == 4 || (rivals s g q u).all fun p =>
    decide (prioOf s g p < prioOf s g q) || (prioOf s g p == prioOf s g q && decide (turn q < turn p))

/-- The ready head of a queue that issues now. -/
def issuable (s : State) (g q : Nat) : Option (List Byte) :=
  match (headState s g q).desc? with
  | some d => if !flagTaken s g q d && granted s g q (unitOf (dOp d)) then some d else none
  | none => none

/-! ### Retirement and illegal descriptors -/

/-- A descriptor of a queue retires (R194, R375). -/
def retire (s : State) (g q : Nat) : State :=
  let f := F.SEQ_QRETIRED_COUNT.nth q
  let s := if rb s F.SEQ_CTRL_CNT_EN g then wf s f g (rf s f g + 1) else s
  wf s F.CORE_PROG_RETIRED_COUNT g (rf s F.CORE_PROG_RETIRED_COUNT g + 1)

/-- A queue halts (R222). -/
def haltQueue (s : State) (g q : Nat) (h : Halt) : State :=
  ev (setQueue s g q { queueOf s g q with halt := some h }) F.SEQ_QEVENT_HALTED g

/-- Skip an illegal descriptor (R214). -/
def skipIllegal (s : State) (g q : Nat) (b : Bad) (d : List Byte) : State :=
  let s := setQueue s g q (QueueSt.passOver { (queueOf s g q).advance 1 with segs := if dOp d = 5 then (0, 0) else (queueOf s g q).segs })
  let s := bumpSat (retire s g q) F.SEQ_ILL_COUNT_COUNT g 1
  let s := if rb s F.SEQ_EVENT_ILLEGAL g then s
    else
      let s := wf (wf s F.SEQ_ILL_INFO_QUEUE g q) F.SEQ_ILL_INFO_REASON g b.1
      wf (wf (wf s F.SEQ_ILL_INFO_DETAIL g b.2) F.SEQ_ILL_INFO_OPCODE g (dOp d)) F.SEQ_ILL_TAG_TAG g (dTag d)
  let s := raise (ev s F.SEQ_EVENT_ILLEGAL g) E.ILLEGAL_DESC (U.core g) (dTag d) (b.1 + 256 * q)
  if rb s (F.SEQ_QCTRL_HALT_ON_ILLEGAL.nth q) g then haltQueue s g q .illegal else s

/-! ### Host operands of a descriptor (R197, R249) -/

/-- Host bytes that reading `m` rows and `n` columns of a tile takes, its stamps included. -/
def hostTile (o : Oper) (m n : Nat) : List (Nat × Nat) :=
  let e := o.e
  let r := o.inRows m
  let c := o.inCols n
  if e.space ≠ 2 ∨ r = 0 ∨ c = 0 then []
  else
    let b0 := o.col0 * e.width / 8
    (span o.row0 r).map (fun i => (e.addr + i * e.rowStride + b0, ceilDiv ((o.col0 + c) * e.width) 8 - b0)) ++
    (if !isMx e.fmt then []
     else if e.axis = 0 then
       (span o.row0 r).map fun i => (e.scaleAddr + i * e.scaleStride + o.col0 / 32, (o.col0 + c - 1) / 32 + 1 - o.col0 / 32)
     else (span (o.row0 / 32) ((o.row0 + r - 1) / 32 + 1 - o.row0 / 32)).map fun i => (e.scaleAddr + i * e.scaleStride + o.col0, c)) ++
    (if e.genV then [(e.addr - 32, 32), (tailAddr e, 32)] else [])

/-- Host bytes that a write of a tile merges (R198). -/
def hostEdge (o : Oper) (m n : Nat) : List (Nat × Nat) :=
  let c := o.inCols n
  if o.e.space ≠ 2 ∨ !partialBytes o.e o.col0 c then []
  else
    let b0 := o.col0 * o.e.width / 8
    (span o.row0 (o.inRows m)).map fun i => (o.e.addr + i * o.e.rowStride + b0, ceilDiv ((o.col0 + c) * o.e.width) 8 - b0)

/-- Host bytes that a descriptor reads. -/
def hostNeeds (v : View) (d : List Byte) : List (Nat × Nat) :=
  let o := fun (i : Nat) => oper v (dW d i)
  let all := fun (i : Nat) => if refNull (dW d i) then [] else hostTile (o i) (o i).nrows (o i).ncols
  let edge := fun (i : Nat) => if refNull (dW d i) then [] else hostEdge (o i) (o i).nrows (o i).ncols
  let in1 := fun (c : OutCfg) (m n : Nat) =>
    let r := bnIn1 (v (64 * c.bind) 32)
    if chainUses (chainStages (v (64 * c.chain) 128)) 9 && !refNull r then hostTile (oper v r) m n else []
  match dOp d with
  | 0x10 => hostTile (o 0) (o 0).e.tileRows (o 0).e.tileCols
  | 0x11 =>
    hostTile (o 0) (stM d) (stK d) ++
    (if stOut d then hostEdge (o 2) (stM d) (stN d) ++ (if stFused d then in1 (stCfg d) (stM d) (stN d) else []) else [])
  | 0x20 => all 0 ++ in1 (vcCfg d) (o 0).nrows (o 0).ncols ++ edge 1
  | 0x21 =>
    all 0 ++ in1 (vcCfg d) (o 0).nrows (o 0).ncols ++ all 1 ++ (if bit 8 (dW d 4) then all 7 else []) ++ edge 6
  | 0x30 =>
    if bit 0 (dW d 2) then (if bits 17 16 (dW d 4) = 2 then [(dAddr d 3, dW d 7)] else [])
    else hostTile (o 0) (o 1).nrows (o 1).ncols ++ edge 1
  | _ => []

/-! ### Descriptors in flight -/

/-- Replace a flight of a core. -/
def setFlight (s : State) (g : Nat) (f : Flight) : State :=
  let c := getCore s g
  setCore s g { c with flights := c.flights.map fun e => if e.id = f.id then f else e }

/-- The effects of a descriptor in flight; answers the packets whose acknowledgement it awaits. -/
def flightEffect (s : State) (g : Nat) (f : Flight) : State × List Nat :=
  let d := f.desc
  let v := viewOf s g f.snap
  match dOp d with
  | 0x01 => (doFlagDecl s g d, [])
  | 0x02 => (doCounterSet s g d, [])
  | 0x10 => (doWload s g f.id v d f.bank, [])
  | 0x11 => (doStream s g f.id v d f.bank, [])
  | 0x20 => (doVchain s g f.id v d, [])
  | 0x21 => (doOptim s g f.id v d, [])
  | 0x30 => (doCopy s g f.id v d, [])
  | 0x31 => (doAtomic s g d, [])
  | 0x32 => (doLineOp s g d, [])
  | 0x33 => (doRedArm s g d, [])
  | 0x34 => (doRedContrib s g d, [])
  | 0x35 => (doScaleRoll s g d, [])
  | 0x40 => doPut s g d
  | 0x41 => doRcontrib s g d
  | 0x50 => (doNotify s g f.queue d, [])
  | _ => (s, [])

/-- May a flight run now: its host reads have ended, and no earlier one of its unit still has to run (R195)? -/
def flightReady (l : List Flight) (f : Flight) : Bool :=
  !f.done && f.reads.isEmpty && (f.unit == 4 || !(l.takeWhile (fun e => e.id != f.id)).any (fun e => e.unit == f.unit && !e.done))

/-- Run the descriptors in flight that may run, in issue order. -/
def runFlights : Nat → State → Nat → State
  | 0, s, _ => s
  | n + 1, s, g =>
    let l := (getCore s g).flights
    match l.find? (flightReady l) with
    | none => s
    | some f =>
      let (s, acks) := flightEffect s g f
      runFlights n (setFlight s g { f with done := true, acks := acks }) g

/-- Run all that may run on a core. -/
def runReady (s : State) (g : Nat) : State := runFlights (getCore s g).flights.length s g

/-! ### Issue -/

/-- Fire the two signals of a descriptor (R207), with their trace records. -/
def fireSigs (s : State) (g q : Nat) (op tag s0 s1 : Nat) : State :=
  let one := fun (s : State) (w : Nat) =>
    if sigKind w = 0 then s else fire (trace s 3 q g op tag 0 (partOf g)) w q g (tileOf (partOf g))
  one (one s s0) s1

/-- What every issue does: consuming waits clear their flags, the unit's turn moves, the deadlock detector is armed (R194, R219,
R236). -/
def issueCommon (s : State) (g q : Nat) (d : List Byte) : State :=
  let s := (consumed d).foldl (fun s n => flagPut s g n false) s
  let c := getCore s g
  let u := unitOf (dOp d)
  let s := setCore s g { c with granted := if u < 4 then c.granted.set u q else c.granted, armed := true }
  trace s 1 q g (dOp d) (dTag d) 0 (partOf g)

/-- Issue a descriptor that stays in flight (R194 steps 4 and 5). -/
def launch (s : State) (g q : Nat) (d : List Byte) : State :=
  let snap := descSnap s g d
  let v := viewOf s g snap
  let s := issueCommon s g q d
  let s := setQueue s g q ((queueOf s g q).advance 1)
  let (s, bank) :=
    if dOp d = 0x10 then
      let o := oper v (dW d 0)
      wloadIssue s g (dW d 0) o.e.fmt o.e.tileRows (dAzn d)
    else if dOp d = 0x11 then streamIssue s g (stRelease d)
    else (s, 0)
  let c := getCore s g
  let id := c.nextId
  let (s, ids) := (hostNeeds v d).foldl (fun (acc : State × List Nat) e =>
    let (s, l) := hostReads acc.1 e.1 e.2 (.operand g id)
    (s, acc.2 ++ l)) (s, [])
  let c := getCore s g
  let f : Flight := ⟨id, q, unitOf (dOp d), d, ids, [], false, bank, snap⟩
  runReady (setCore s g { c with flights := c.flights ++ [f], nextId := id + 1 }) g

/-- Does a core take nothing out of its queues: its partition is in P1, it is in a sweep, or a test window is open on it (R389, R391,
R425)? -/
def issueHeld (s : State) (g : Nat) : Bool :=
  pstate s (partOf g) == 1 || s.ist.sweep.contains g || s.ist.windows.contains g

/-- The event of an issue: an illegal head of this operation is skipped, a ready one is handed to `act`, every other state of the
queue leaves the machine as it is (log 1). A head of reserved opcode is skipped at the NOP's event (log 12). -/
def issueWith (s : State) (g q op : Nat) (act : State → List Byte → State) : State :=
  if issueHeld s g then s else
  match headState s g q with
  | .illegal b d => if dOp d = op ∨ (op = 0 ∧ ¬ opcodes.contains (dOp d)) then skipIllegal s g q b d else s
  | .ready d => if dOp d = op ∧ (issuable s g q).isSome then act s d else s
  | _ => s

/-- Issue of a descriptor that stays in flight. -/
def issueOp (s : State) (g q op : Nat) : State := issueWith s g q op fun s d => launch s g q d

/-! ### Completion (R195, R207) -/

/-- The flight of a queue that completes next: its effects are made and acknowledged, and no earlier one of its unit is in
flight. -/
def completable (l : List Flight) (q : Nat) : Option Flight :=
  l.find? fun f => f.queue == q && f.done && f.acks.isEmpty &&
    (f.unit == 4 || !(l.takeWhile (fun e => e.id != f.id)).any (fun e => e.unit == f.unit))

/-- A descriptor completes: it leaves, fires its signals and retires. -/
def complete (s : State) (g : Nat) (f : Flight) : State :=
  let c := getCore s g
  let s := setCore s g { c with flights := c.flights.filter fun e => e.id != f.id }
  let s := { s with host := { s.host with got := s.host.got.filter fun e => !(e.1 == g && e.2.1 == f.id) } }
  let s := if dOp f.desc = 0x11 then bumpIf s F.MX_CTRL_CNT_EN F.MX_PASSES_LO_COUNT g 1 else s
  let s := trace s 2 f.queue g (dOp f.desc) (dTag f.desc) 0 (partOf g)
  retire (fireSigs s g f.queue (dOp f.desc) (dTag f.desc) (dSig f.desc 0) (dSig f.desc 1)) g f.queue

/-! ### The commands of issue -/

/-- WLOAD (R68 to R70, R202). -/
def execWload (core queue : Nat) (s : State) : Host.Outcome State Fault Refusal := .next (issueOp s core queue 0x10)

/-- STREAM (R70 to R86, R202). -/
def execStream (core queue : Nat) (s : State) : Host.Outcome State Fault Refusal := .next (issueOp s core queue 0x11)

/-- VCHAIN (R152 to R162). -/
def execVchain (core queue : Nat) (s : State) : Host.Outcome State Fault Refusal := .next (issueOp s core queue 0x20)

/-- OPTIM (R145 to R147). -/
def execOptim (core queue : Nat) (s : State) : Host.Outcome State Fault Refusal := .next (issueOp s core queue 0x21)

/-- NOP (R200). -/
def execNop (core queue : Nat) (s : State) : Host.Outcome State Fault Refusal := .next (issueOp s core queue 0x00)

/-- FLAG_DECL (R211). -/
def execFlagDecl (core queue : Nat) (s : State) : Host.Outcome State Fault Refusal := .next (issueOp s core queue 0x01)

/-- COUNTER_SET (R212). -/
def execCounterSet (core queue : Nat) (s : State) : Host.Outcome State Fault Refusal := .next (issueOp s core queue 0x02)

/-- COPY (R201). -/
def execCopy (core queue : Nat) (s : State) : Host.Outcome State Fault Refusal := .next (issueOp s core queue 0x30)

/-- ATOMIC (R182, R201). -/
def execAtomic (core queue : Nat) (s : State) : Host.Outcome State Fault Refusal := .next (issueOp s core queue 0x31)

/-- LINE_OP (R182, R201). -/
def execLineOp (core queue : Nat) (s : State) : Host.Outcome State Fault Refusal := .next (issueOp s core queue 0x32)

/-- RED_ARM (R184, R201). -/
def execRedArm (core queue : Nat) (s : State) : Host.Outcome State Fault Refusal := .next (issueOp s core queue 0x33)

/-- RED_CONTRIB (R184, R201). -/
def execRedContrib (core queue : Nat) (s : State) : Host.Outcome State Fault Refusal := .next (issueOp s core queue 0x34)

/-- SCALE_ROLL (R144, R201). -/
def execScaleRoll (core queue : Nat) (s : State) : Host.Outcome State Fault Refusal := .next (issueOp s core queue 0x35)

/-- PUT (R201, R286). -/
def execPut (core queue : Nat) (s : State) : Host.Outcome State Fault Refusal := .next (issueOp s core queue 0x40)

/-- RCONTRIB (R201, R286). -/
def execRcontrib (core queue : Nat) (s : State) : Host.Outcome State Fault Refusal := .next (issueOp s core queue 0x41)

/-- NOTIFY (R256, R257). -/
def execNotify (core queue : Nat) (s : State) : Host.Outcome State Fault Refusal := .next (issueOp s core queue 0x50)

/-- DESCRIPTOR_COMPLETE (R207). -/
def execDescriptorComplete (core queue : Nat) (s : State) : Host.Outcome State Fault Refusal :=
  match completable (getCore s core).flights queue with
  | some f => .next (complete s core f)
  | none => .next s

/-- DEFERRED_PROMOTION (R221): a deferred head that is ready and not granted is normal for its next grant. -/
def execDeferredPromotion (core queue : Nat) (s : State) : Host.Outcome State Fault Refusal :=
  if rf s F.SEQ_CTRL_AGE_LOG2 core ≠ 0 ∧ rf s (F.SEQ_QCTRL_PRIO.nth queue) core = 0 ∧
      (headState s core queue).desc?.isSome ∧ (issuable s core queue).isNone then
    .next (setQueue s core queue { queueOf s core queue with promoted := true })
  else .next s

end Sys2Proof.Machine
end

