-- ==== Sys2Proof/Machine/Steps.lean ====
section
/-! DEFINITION. The Pannier and the opening of a step: what a fetch does to the step-replay engine (R326 to R334). -/

namespace Sys2Proof.Machine

/-! ### The plan and the Pannier (R330 to R332) -/

/-- Size of a Pannier slot in bytes (R331). -/
def panSlotSize (s : State) : Nat := rf s F.HUB_PAN_CFG_SIZE_MIB 0 / rf s F.HUB_PAN_CFG_SLOTS 0 * 2 ^ 20

/-- Slot number of a step. -/
def panSlotNo (s : State) (n : Nat) : Nat := n % rf s F.HUB_PAN_CFG_SLOTS 0

/-- Device address of a step's slot. -/
def panSlot (s : State) (n : Nat) : Nat :=
  rf2 s F.HUB_PAN_BASE_LO_BASE F.HUB_PAN_BASE_HI_BASE 0 + panSlotNo s n * panSlotSize s

/-- Input extents of a plan: address, space, length. -/
def planIns (plan : List Byte) : List (Nat × Nat × Nat) :=
  (List.range (min 4 (bits 2 0 (fieldLE 0x50 1 plan)))).map fun i =>
    let e := fieldLE (0x58 + 16 * i) 8 plan
    (bits 47 0 e, bits 49 48 e, fieldLE (0x60 + 16 * i) 4 plan)

/-- The extents with their places in the slot, each aligned to 32 bytes: place, address, space, length (R332). -/
def packedIns (plan : List Byte) : List (Nat × Nat × Nat × Nat) :=
  ((planIns plan).foldl (fun (acc : Nat × List (Nat × Nat × Nat × Nat)) e =>
    (acc.1 + ceilDiv e.2.2 32 * 32, acc.2 ++ [(acc.1, e)])) (0x4000, [])).2

/-- Bytes that the packed inputs take. -/
def packedLen (plan : List Byte) : Nat := (planIns plan).foldl (fun n e => n + ceilDiv e.2.2 32 * 32) 0

/-- Step seeds of a plan or of a header. -/
def seedsOf (l : List Byte) : List Nat := (List.range 8).map fun i => fieldLE (0x10 + 8 * i) 8 l

/-- Load the step seeds into every active core (R213, R339). -/
def loadSeeds (s : State) (seeds : List Nat) : State :=
  (activeCores s).foldl (fun s g =>
    ((List.range 8).zip seeds).foldl (fun s e =>
      wf2 s (F.SEQ_SEED_SEED.nth (2 * e.1)) (F.SEQ_SEED_SEED.nth (2 * e.1 + 1)) g e.2) s) s

/-- The CIDX of every ring, where it is not zero. -/
def cidxTable (s : State) : List (Nat × Nat) :=
  (List.range 2080).filterMap fun r =>
    let c := rf s F.HQ_RING_CIDX_CIDX r
    if c = 0 then none else some (r, c)

/-- CIDX of a ring in a table. -/
def cidxIn (t : List (Nat × Nat)) (r : Nat) : Nat := (aget t r).getD 0

/-- The slot header as a step opens (R332); STREAM and CHECK are written at SEAL. -/
def slotHeader (s : State) (t : Step) : List Byte :=
  toLE 8 t.step ++ toLE 4 (rf s F.HUB_SR_EPOCH_EPOCH 0) ++ toLE 2 t.gen ++ toLE 2 t.attempt ++ slice 0x10 0x88 t.plan
    ++ List.replicate 0x68 0 ++ (List.range 2080).flatMap fun r => toLE 4 (cidxIn t.cidx r)

/-- Generation that a step's parameters carry (R332). -/
def openGen (s : State) (t : Step) : Nat :=
  (rf s F.HUB_SR_GEN_GEN 0 + (if s.sr.steps.any (fun u => u.step != t.step) then 1 else 0)) % 2 ^ 16

/-- The first fetch after an accepted OPEN opens the step (R326): the CIDX of every ring is recorded, the seeds reach the cores,
the slot header is written and the copy of the inputs starts (R332, R333). -/
def stepOpenAtFetch (s : State) : State :=
  match s.sr.steps.find? (fun t => t.state == 0) with
  | none => s
  | some t =>
    if interludeLive s then s
    else
      let t := { t with state := 1, gen := openGen s t, cidx := cidxTable s, copying := true }
      let s := putStep s t
      let s := wf2 (wf s F.HUB_SR_STATUS_ATTEMPT 0 t.attempt) F.HUB_SR_STEP_LO_STEP F.HUB_SR_STEP_HI_STEP 0 t.step
      let s := loadSeeds s (seedsOf t.plan)
      let base := panSlot s t.step
      let s := hubWrite s base (slotHeader s t)
      (packedIns t.plan).foldl (fun s e =>
        if e.2.2.1 = 2 then
          (pieces4k e.2.2.2).foldl (fun s p => (hostRead s (e.2.1 + p.1) p.2 (.pannier (base + e.1 + p.1))).1) s
        else s) s

/-- The copy of the inputs ends: device extents are copied, and the step's descriptors may issue (R333). -/
def pannierCopied (s : State) (t : Step) : State :=
  let base := panSlot s t.step
  let s := (packedIns t.plan).foldl (fun s e =>
    if e.2.2.1 = 1 then
      let r := hubRead s e.2.1 e.2.2.2
      hubWrite r.1 (base + e.1) r.2
    else s) s
  { s with sr := { s.sr with steps := s.sr.steps.map fun u => if u.step = t.step then { u with copying := false } else u } }

/-- Does a span lie in one stack's user memory or one pinned region (R164, R165)? -/
def inMemory (s : State) (a n : Nat) : Bool :=
  match target a with
  | .stack p off => decide (off + n ≤ userMib s p * 2 ^ 20)
  | .pin p off => decide (off + n ≤ pinLive s p * 2 ^ 20)
  | .none => false

/-- Are all bits outside the named fields zero? Fields by byte offset, lowest bit and width. -/
def reservedZero (l : List Byte) (fields : List (Nat × Nat × Nat)) : Bool :=
  let m := fields.foldl (fun m f => m ||| ((2 ^ f.2.2 - 1) * 2 ^ (8 * f.1 + f.2.1))) 0
  (ofLE l ||| m) == m

/-- Set the commit flag on every active core, with setter 9 (R329). -/
def setCommitFlags (s : State) : State :=
  let flag := rf s F.HUB_SR_CTRL_COMMIT_FLAG 0
  (activeCores s).foldl (fun s g => sigDeliver s ⟨3 * 2 ^ 29 + g * 2 ^ 8 + flag, 9, 260, none⟩) s

/-- Clear the commit flag on every active core (R329). -/
def clearCommitFlags (s : State) : State :=
  (activeCores s).foldl (fun s g => flagPut s g (rf s F.HUB_SR_CTRL_COMMIT_FLAG 0) false) s

/-- A commit flag that was held is set once neither a digest nor a capture holds it (R342, R362). -/
def releaseFlag (s : State) : State :=
  if s.sr.heldFlag && s.sr.digest.isNone && !s.ckp.holding then
    setCommitFlags { s with sr := { s.sr with heldFlag := false } }
  else s

/-! ### The descriptor-stream digest (R329, R334) -/

/-- The term of one descriptor. -/
def streamTerm (r k : Nat) (d : List Byte) : Nat := ofLE (shake (toLE 4 r ++ toLE 4 k ++ d) 16)

/-- A fetched descriptor is folded into the OPEN step; outside any step and interlude it is counted (R329, R322). -/
def foldDesc (s : State) (r pos : Nat) (d : List Byte) : State :=
  if interludeLive s then s
  else
    match openStep s with
    | some t =>
      let k := (pos + 2 ^ 32 - cidxIn t.cidx r) % 2 ^ 32
      if k < 2 ^ 31 then putStep s { t with stream := (t.stream + streamTerm r k d) % 2 ^ 128 }
      else ev (bumpSat s F.HUB_SR_UNSTEPPED_COUNT 0 1) F.HUB_SR_EVENT_UNSTEPPED 0
    | none => ev (bumpSat s F.HUB_SR_UNSTEPPED_COUNT 0 1) F.HUB_SR_EVENT_UNSTEPPED 0

end Sys2Proof.Machine
end

