-- ==== Sys2Proof/Machine/Job.lean ====
section
/-! DEFINITION. Jobs and interludes (R302 to R305, R321 to R324). -/

namespace Sys2Proof.Machine

/-- Is a mapping in force? -/
def jobActive (s : State) : Bool := rb s F.HUB_JOB_STATUS_ACTIVE 0

/-- Fields of the mapping descriptor (R303): byte offset, lowest bit, width; SEQ_RING by its places. -/
def mappingFields (sp : Nat) : List (Nat × Nat × Nat) :=
  [(0x00, 0, 8), (0x04, 0, 32), (0x08, 0, 12), (0x08, 16, 12), (0x0C, 0, 5), (0x0C, 8, 5), (0x0C, 16, 5), (0x0C, 24, 3), (0x10, 0, 32),
    (0x14, 0, 32), (0x18, 0, 32)]
  ++ [(0x1C, 0, 20), (0x20, 0, 16), (0x20, 16, 12), (0x24, 0, 9), (0x28, 0, 32), (0x2C, 0, 16), (0x40, 0, 12 * min sp 64)]

/-- Does a mapping descriptor pass the checks of R304? -/
def mappingOk (s : State) (m : List Byte) : Bool :=
  let h := fun (o : Nat) => fieldLE o 2 m
  let e := fieldLE 0x0C 4 m
  let dp := h 0x10
  let sp := h 0x16
  let shard := h 0x1A
  let cuts := dp * h 0x12 * h 0x14 * sp * h 0x18
  fieldLE 0 1 m == 1 && reservedZero m (mappingFields sp) && cuts == bits 4 0 e * bits 12 8 e * bits 20 16 e && cuts != 0 &&
    shard != 0 && dp % shard == 0 && decide (sp ≤ 64) && decide (fieldLE 0x28 4 m ≤ 4194304) && decide (h 0x2C < sp) &&
    decide (h 0x24 ≤ (activeCores s).length)

/-- Take a mapping descriptor that has been read, or refuse it (R304). -/
def jobTake (r : State × List Byte) : State :=
  if mappingOk r.1 r.2 then
    wf { r.1 with sr := { r.1.sr with mapping := r.2, opened := false, lastClosed := none } } F.HUB_JOB_STATUS_ACTIVE 0 1
  else ev r.1 F.HUB_JOB_EVENT_MAP_REFUSED 0

/-- START (R304). -/
def jobStart (s : State) : State :=
  let a := rf2 s F.HUB_MAP_ADDR_LO_ADDR F.HUB_MAP_ADDR_HI_ADDR 0
  if jobActive s ∨ a % 64 ≠ 0 ∨ !inMemory s a 256 then ev s F.HUB_JOB_EVENT_MAP_REFUSED 0
  else jobTake (hubRead s a 256)

/-- END (R324). -/
def jobEnd (s : State) : State := wf { s with sr := { s.sr with mapping := [] } } F.HUB_JOB_STATUS_ACTIVE 0 0

/-- A write of INTERLUDE (R322, R323); a step that is accepted and not yet fetched is not open. -/
def interludeWrite (s : State) (on : Bool) : State :=
  if !on then wf (wf s F.HUB_JOB_CTRL_INTERLUDE 0 0) F.HUB_JOB_STATUS_INTERLUDE_LIVE 0 0
  else if rf s F.HUB_JOB_CTRL_EVAL_MODE 0 = 2 ∧ jobActive s ∧ s.sr.steps.all (fun t => t.state == 0) then
    wf (wf s F.HUB_JOB_CTRL_INTERLUDE 0 1) F.HUB_JOB_STATUS_INTERLUDE_LIVE 0 1
  else ev (wf s F.HUB_JOB_CTRL_INTERLUDE 0 (b2n (interludeLive s))) F.HUB_JOB_EVENT_INTERLUDE_REFUSED 0

/-- What a write to HUB_JOB_CTRL does: START, END, then INTERLUDE where the write reaches it (log 25). -/
def jobCtrlEffect (pulse : Word) (inter : Option Bool) (s : State) : State :=
  let s := if wbits 0 0 pulse = 1 then jobStart s else s
  let s := if wbits 1 1 pulse = 1 then jobEnd s else s
  match inter with
  | some b => interludeWrite s b
  | none => s

/-- JOB_START (R304): START alone, as the set alias writes it. -/
def execJobStart (req : Requester) (s : State) : Host.Outcome State Fault Refusal :=
  regWriteTo s req .hub 0 0x40 1 1 fun _ _ s => jobCtrlEffect 1 none s

/-- JOB_END (R324). -/
def execJobEnd (req : Requester) (s : State) : Host.Outcome State Fault Refusal :=
  regWriteTo s req .hub 0 0x40 1 2 fun _ _ s => jobCtrlEffect 2 none s

/-- INTERLUDE (R322): a write of 1, or of 0 through the clear alias. -/
def execInterlude (req : Requester) (on : Bool) (s : State) : Host.Outcome State Fault Refusal :=
  regWriteTo s req .hub 0 0x40 (if on then 1 else 2) 4 fun _ _ s => jobCtrlEffect 0 (some on) s

end Sys2Proof.Machine
end

