-- ==== Sys2Proof/Machine/Checkpoint.lean ====
section
/-! DEFINITION. The checkpoint engine and the staging module (chapter 16; readings: log 26). One NVMe command is outstanding at a time. -/

namespace Sys2Proof.Machine

/-! ### The module and its layout (R356 to R360) -/

/-- LBAs of a slot (R357). -/
def slotLbas (s : State) : Nat := (s.ckp.facts.nsze - 256) / 2

/-- First LBA of a slot. -/
def slotLba (s : State) (k : Nat) : Nat := 256 + k * slotLbas s

/-- CKP_STATUS.MODULE: 1 ready, 2 failed, 4 foreign. -/
def moduleState (s : State) : Nat := rf s F.CKP_STATUS_MODULE 0

/-- What CKP_STATUS tells of a slot: 0 unknown, 1 valid, 2 invalid. -/
def slotStatus (s : State) (k : Nat) : Nat := if k = 0 then rf s F.CKP_STATUS_SLOT_A 0 else rf s F.CKP_STATUS_SLOT_B 0

/-- Set it. -/
def setSlotStatus (s : State) (k v : Nat) : State := if k = 0 then wf s F.CKP_STATUS_SLOT_A 0 v else wf s F.CKP_STATUS_SLOT_B 0 v

/-- Commit record and manifest of a slot as last read. -/
def slotRecord (s : State) (k : Nat) : List Byte := (aget s.ckp.seen (2 * k)).getD []
def slotManifest (s : State) (k : Nat) : List Byte := (aget s.ckp.seen (2 * k + 1)).getD []

/-- Forms of the label, the manifest and the commit record. -/
def magicLabel : Nat := 0x4C454B53
def magicManifest : Nat := 0x4E414D53
def magicCommit : Nat := 0x54434D43

/-- The label (R357). -/
def labelBytes (s : State) : List Byte :=
  let h := toLE 4 magicLabel ++ toLE 4 1 ++ toLE 8 Config.serial ++ toLE 8 (slotLbas s) ++ List.replicate 8 0
  padTo 4096 (h ++ sha3 h)

/-- Does a label name another device? -/
def labelForeign (l : List Byte) : Bool :=
  fieldLE 0 4 l == magicLabel && fieldLE 4 1 l == 1 && slice 0x20 32 l == sha3 (slice 0 32 l) && fieldLE 8 8 l != Config.serial

/-- Why a slot is invalid (R360, CKP_INFO.SLOT_WHY); 0 where it is valid. -/
def slotWhy (k : Nat) (r m : List Byte) : Nat :=
  let n := fieldLE 0x24 4 r
  if r.all (· == 0) then 1
  else if fieldLE 0 4 r ≠ magicCommit ∨ bit 0 (fieldLE 5 1 r) ≠ (k == 1) ∨ slice 0x60 32 r ≠ sha3 (slice 0 0x60 r) then 2
  else if m.length < n ∨ slice 0x40 32 r ≠ sha3 (m.take n) then 3
  else if fieldLE 0x08 4 m = fieldLE 0x10 4 r ∧ fieldLE 0x0C 4 m = fieldLE 0x14 4 r ∧ fieldLE 0x10 6 m = fieldLE 0x18 6 r ∧
      fieldLE 0x18 2 m = fieldLE 0x20 2 r ∧ fieldLE 0x1A 2 m = fieldLE 0x22 2 r then 0
  else 4

/-- WRITE_SEQ of a slot; 0 where it is not valid. -/
def writeSeq (s : State) (k : Nat) : Nat := if slotStatus s k = 1 then fieldLE 8 8 (slotRecord s k) else 0

/-- The newer valid slot. -/
def newerSlot (s : State) : Option Nat :=
  if writeSeq s 0 = 0 ∧ writeSeq s 1 = 0 then none else if writeSeq s 1 < writeSeq s 0 then some 0 else some 1

/-- Bytes that an extent takes in a slot. -/
def extRoom (e : Nat × Nat) : Nat := ceilDiv e.2 4096 * 4096

/-- Offset of an extent from slot LBA 256 (R358). -/
def extOffset (l : List (Nat × Nat)) (i : Nat) : Nat := (l.take i).foldl (fun n e => n + extRoom e) 0

/-- The manifest (R358). -/
def manifestBytes (s : State) : List Byte :=
  s.ckp.head ++ ((s.ckp.exts.zip s.ckp.digests).zip (List.range s.ckp.exts.length)).flatMap fun e =>
    toLE 8 e.1.1.1 ++ toLE 8 e.1.1.2 ++ toLE 8 (extOffset s.ckp.exts e.2) ++ List.replicate 8 0 ++ e.1.2

/-- The commit record of a manifest (R359). -/
def commitBytes (k seq : Nat) (m : List Byte) : List Byte :=
  let h := toLE 4 magicCommit ++ toLE 4 (1 + k * 2 ^ 8) ++ toLE 8 seq ++ slice 0x08 8 m ++ slice 0x10 8 m ++ slice 0x18 4 m ++
    toLE 4 m.length ++ List.replicate 0x18 0 ++ sha3 m
  padTo 4096 (h ++ sha3 h)

/-! ### Refusals, aborts, events -/

/-- Set the phase. -/
def ckpPhase (s : State) (p : Nat) : State := wf s F.CKP_STATUS_PHASE 0 p

/-- Commit flags are held, or released (R362). -/
def ckpHold (s : State) (on : Bool) : State :=
  wf { s with ckp := { s.ckp with holding := on } } F.CKP_STATUS_HOLDING 0 (b2n on)

/-- The engine is idle again; a pending automatic save follows by AUTO_SAVE_START. -/
def ckpIdle (s : State) : State :=
  let s := wf (wf (ckpPhase s 0) F.CKP_STATUS_OP 0 0) F.CKP_STATUS_BUSY 0 0
  { s with ckp := { s.ckp with cmd := [], script := [], exts := [], digests := [], capturing := false, captured := false, nvme := none, acc := [] } }

/-- Refuse a command (R372). -/
def ckpRefuse (s : State) (reason : Nat) : State := ev (wf s F.CKP_INFO_REASON 0 reason) F.CKP_EVENT_REFUSED 0

/-- Is a command running? -/
def ckpBusy (s : State) : Bool := rb s F.CKP_STATUS_BUSY 0

/-- Operation of the running command. -/
def ckpOp (s : State) : Nat := rf s F.CKP_STATUS_OP 0

/-- Abort the running command (R364). -/
def ckpAbort (s : State) (reason : Nat) : State :=
  if !ckpBusy s then s
  else
    let save := ckpOp s == 1
    let s := if save then { s with ckp := { s.ckp with lastSave := some (tick s) } } else s
    let s := releaseFlag (ckpHold (ckpIdle s) false)
    ev (wf s F.CKP_INFO_REASON 0 reason) F.CKP_EVENT_ABORTED 0

/-- A module error (R371). -/
def moduleError (s : State) (status : Nat) : State :=
  let loading := match s.ckp.script.head? with
    | some (.loadExt i _) => some i
    | some (.verify i) => some i
    | _ => none
  let s := ev (wf s F.CKP_INFO_STATUS 0 status) F.CKP_EVENT_NVME_ERR 0
  let s := fhReport (raise s E.STAGING_ERR (U.port 28) 0 0) 4 28 0x24 true CperInfo.plain
  let s := match loading with
    | some i => ev (wf s F.CKP_INFO_EXTENT 0 i) F.CKP_EVENT_RESTORE_BAD 0
    | none => s
  ckpAbort s 7

/-- Did an access record an uncorrectable memory event or a range fault? -/
def faultedSince (s t : State) : Bool := (t.ledger.cur.drop s.ledger.cur.length).any fun r => r.cls == 3

/-! ### NVMe commands (R354, R355) -/

/-- Issue an NVMe command. -/
def nvmeIssue (s : State) (kind : Nat) (fua : Bool) (lba : Nat) (sram : Bool) (addr len : Nat) : State :=
  { s with ckp := { s.ckp with nvme := some ⟨s.ckp.nextNvme, kind, fua, lba, sram, addr, len⟩, nextNvme := s.ckp.nextNvme + 1 } }

/-- Write bytes that the engine holds in hub SRAM. -/
def nvmeWriteSram (s : State) (fua : Bool) (lba : Nat) (d : List Byte) : State :=
  nvmeIssue { s with ckp := { s.ckp with sram := mwrN s.ckp.sram 0 d } } 1 fua lba true 0 d.length

/-- Read LBAs into hub SRAM. -/
def nvmeReadSram (s : State) (lba n : Nat) : State := nvmeIssue s 0 false lba true 0 (4096 * n)

/-- Pop the action in hand. -/
def ckpPop (s : State) : State := { s with ckp := { s.ckp with script := s.ckp.script.drop 1 } }

/-- Put actions in front. -/
def ckpPush (s : State) (l : List CkpAct) : State := { s with ckp := { s.ckp with script := l ++ s.ckp.script } }

/-- Examine a slot: its commit record, and as much as a manifest can take. -/
def examScript (s : State) (k : Nat) : List CkpAct := [.look (slotLba s k) 1 (2 * k), .look (slotLba s k + 1) 5 (2 * k + 1), .exam k]

/-! ### Captures (R362) -/

/-- The last CLOSED step at capture. -/
def lastClosed (s : State) : Nat := s.sr.lastClosed.getD 0

/-- Start of capture: the manifest's fields are taken, and no commit flag is set until its end. -/
def captureStart (s : State) : State :=
  let total := s.ckp.exts.foldl (fun n e => n + e.2) 0
  let head := toLE 4 magicManifest ++ toLE 4 1 ++ slice 4 4 s.sr.mapping ++ toLE 4 (rf s F.HUB_SR_EPOCH_EPOCH 0) ++ toLE 8 (lastClosed s)
    ++ toLE 2 (rf s F.HUB_SR_GEN_GEN 0) ++ toLE 2 s.ckp.shard ++ toLE 4 s.ckp.exts.length ++ toLE 8 total ++ toLE 8 Config.serial
    ++ toLE 4 (rf s F.FAB_ADDR_COORD 0)
  let head := padTo 4096 (padTo 0x100 head ++ padTo 256 s.sr.mapping)
  ckpPhase (ckpHold { s with ckp := { s.ckp with head := head, capturing := true } } true) 2

/-- Is a step COMMITTED and not CLOSED? -/
def stepCommitted (s : State) : Bool := s.sr.steps.any fun t => t.state == 3

/-- Address from which an extent is saved: its own, or its place in the snapshot buffer (R362). -/
def extSource (s : State) (i : Nat) : Nat :=
  if s.ckp.snap then
    rf2 s F.CKP_SNAP_BASE_LO_ADDR F.CKP_SNAP_BASE_HI_ADDR 0 + (s.ckp.exts.take i).foldl (fun n e => n + e.2) 0
  else (s.ckp.exts.getD i (0, 0)).1

/-- Capture ends: the held commit flags are released. -/
def captureEnd (s : State) : State :=
  releaseFlag (ckpHold { s with ckp := { s.ckp with captured := true } } false)

/-! ### The running command -/

/-- The report of R368. -/
def writeReport (s : State) : State :=
  let op := ckpOp s
  let a := if op = 2 then bits 47 0 (fieldLE 0x30 8 s.ckp.cmd) else bits 47 0 (fieldLE 0x18 8 s.ckp.cmd)
  (List.range 2).foldl (fun s k =>
    hubWrite s (a + 0x2000 * k) (padTo 4096 (slotRecord s k) ++ padTo 4096 (slotManifest s k))) s

/-- Do the mapping fields of a manifest equal those in force (R366)? -/
def mappingFits (s : State) (m : List Byte) : Bool :=
  let a := s.sr.mapping
  let b := slice 0x100 256 m
  slice 4 4 a == slice 4 4 b && slice 0x10 12 a == slice 0x10 12 b && bits 19 0 (fieldLE 0x1C 4 a) == bits 19 0 (fieldLE 0x1C 4 b) &&
    slice 0x20 2 a == slice 0x20 2 b && bits 8 0 (fieldLE 0x24 2 a) == bits 8 0 (fieldLE 0x24 2 b) && slice 0x28 6 a == slice 0x28 6 b

/-- Extents of a manifest: address, length. -/
def manifestExts (m : List Byte) : List (Nat × Nat) :=
  (List.range (fieldLE 0x1C 1 m)).map fun i => (bits 47 0 (fieldLE (0x1000 + 64 * i) 8 m), fieldLE (0x1008 + 64 * i) 8 m)

/-- Digest of an extent in a manifest. -/
def manifestDigest (m : List Byte) (i : Nat) : List Byte := slice (0x1020 + 64 * i) 32 m

/-- Epoch, generation and last closed step are set, and every Pannier slot is free (R367, R369). -/
def adoptStep (s : State) (epoch step gen : Nat) : State :=
  let s := wf (wf s F.HUB_SR_EPOCH_EPOCH 0 epoch) F.HUB_SR_GEN_GEN 0 gen
  { s with sr := { s.sr with steps := [], opened := false, lastClosed := some step } }

/-- A command completed. -/
def ckpDone (s : State) : State := ev (ckpIdle s) F.CKP_EVENT_DONE 0

/-- Slot of the running command, by its command block. -/
def cmdSlot (s : State) : Nat := bits 9 8 (fieldLE 0 4 s.ckp.cmd)

/-- FORCE of the running command. -/
def cmdForce (s : State) : Bool := bit 10 (fieldLE 0 4 s.ckp.cmd)

/-- The slot that RESTORE takes: the named one, or the newer of those that hold the step (R366). -/
def restoreSlot (s : State) : Option Nat :=
  let step := bits 47 0 (fieldLE 8 8 s.ckp.cmd)
  let fits := fun (k : Nat) => slotStatus s k == 1 && fieldLE 0x18 6 (slotRecord s k) == step
  match cmdSlot s with
  | 0 => if fits 0 then some 0 else none
  | 1 => if fits 1 then some 1 else none
  | _ => if fits 0 ∧ fits 1 then newerSlot s else if fits 0 then some 0 else if fits 1 then some 1 else none

/-- The data range of an extent for one 128 KiB command: LBA, length. -/
def pieceOf (s : State) (k i off : Nat) : Nat × Nat :=
  let e := s.ckp.exts.getD i (0, 0)
  (slotLba s k + 256 + (extOffset s.ckp.exts i + off) / 4096, min 131072 (e.2 - off))

/-- What follows a piece of an extent. -/
def nextPiece (s : State) (i off : Nat) (more : Nat → CkpAct) (last : CkpAct) : List CkpAct :=
  if off + 131072 < (s.ckp.exts.getD i (0, 0)).2 then [more (off + 131072)] else [last]

/-- Begin the action in hand: an NVMe command goes out and `true` tells to wait, an internal action is done, and what must wait
waits. -/
def ckpAct (s : State) (a : CkpAct) : State × Bool :=
  let k := s.ckp.target
  match a with
  | .look lba n _ => (ckpPhase (nvmeReadSram s lba n) 6, true)
  | .exam i =>
    let why := slotWhy i (slotRecord s i) (slotManifest s i)
    let s := setSlotStatus (ckpPop s) i (if why = 0 then 1 else 2)
    (if why = 0 then s else wf s F.CKP_INFO_SLOT_WHY 0 why, false)
  | .pick =>
    let t := match newerSlot s with
      | some 0 => 1
      | _ => 0
    let s := ckpPop { s with ckp := { s.ckp with target := t } }
    (ckpPush s [.awaitCapture, .zero t, .zeroed t], false)
  | .awaitCapture =>
    if s.ckp.capturing then (ckpPop s, false)
    else if stepCommitted s then (ckpPhase s 1, true)
    else (ckpPop (captureStart s), false)
  | .zero i => (nvmeWriteSram s true (slotLba s i) (List.replicate 4096 0), true)
  | .zeroed i => (setSlotStatus (ckpPop { s with ckp := { s.ckp with seen := adel s.ckp.seen (2 * i) } }) i 2, false)
  | .awaitCopied => if s.ckp.captured then (ckpPop s, false) else (s, true)
  | .saveExt i off =>
    let p := pieceOf s k i off
    (ckpPhase (nvmeIssue s 1 false p.1 false (extSource s i + off) p.2) 3, true)
  | .digest i =>
    let (t, d) := hubRead s (extSource s i) (s.ckp.exts.getD i (0, 0)).2
    if faultedSince s t then (ckpAbort t 9, true)
    else (ckpPop { t with ckp := { t.ckp with digests := t.ckp.digests ++ [sha3 d] } }, false)
  | .manifest => (nvmeWriteSram s false (slotLba s k + 1) (padTo (ceilDiv (manifestBytes s).length 4096 * 4096) (manifestBytes s)), true)
  | .flush => (ckpPhase (nvmeIssue s 2 false 0 true 0 0) 4, true)
  | .commit =>
    let i := k
    let m := if ckpOp s = 1 then manifestBytes s else (slotManifest s i).take (0x1000 + 64 * fieldLE 0x1C 1 (slotManifest s i))
    let r := commitBytes i (max (writeSeq s 0) (writeSeq s 1) + 1) m
    let s := { s with ckp := { s.ckp with seen := aput (aput s.ckp.seen (2 * i) r) (2 * i + 1) m } }
    (ckpPhase (nvmeWriteSram s true (slotLba s i) r) 5, true)
  | .saved =>
    let s := setSlotStatus s k 1
    let s := wf s F.CKP_INFO_STATUS 0 (writeSeq s k)
    let s := bumpIf s F.CKP_CTRL_CNT_EN F.CKP_SAVES_LO_COUNT 0 1
    let s := if ckpOp s = 1 then captureEnd { s with ckp := { s.ckp with lastSave := some (tick s) } } else s
    (ckpDone s, true)
  | .report => (ckpPop (writeReport s), false)
  | .select =>
    match restoreSlot s with
    | none => (ckpRefuse (ckpIdle s) 6, true)
    | some i =>
      let m := slotManifest s i
      if !mappingFits s m then (ckpRefuse (ckpIdle s) 6, true)
      else
        let l := manifestExts m
        let s := ckpPop { s with ckp := { s.ckp with target := i, exts := l, head := m } }
        (ckpPush s ((List.range l.length).map (fun j => CkpAct.loadExt j 0) ++ [.restored]), false)
  | .loadExt i off =>
    let p := pieceOf s k i off
    (ckpPhase (nvmeIssue s 0 false p.1 false ((s.ckp.exts.getD i (0, 0)).1 + off) p.2) 6, true)
  | .verify i =>
    let e := s.ckp.exts.getD i (0, 0)
    let (s, d) := hubRead s e.1 e.2
    if sha3 d = manifestDigest s.ckp.head i then (ckpPop s, false)
    else (ckpAbort (ev (wf s F.CKP_INFO_EXTENT 0 i) F.CKP_EVENT_RESTORE_BAD 0) 7, true)
  | .restored =>
    let m := s.ckp.head
    (ckpDone (adoptStep s (fieldLE 0x10 4 s.ckp.cmd) (fieldLE 0x10 6 m) (fieldLE 0x18 2 m)), true)
  | .exportTo lba addr len => (ckpPhase (nvmeIssue s 0 false lba false addr (min 131072 len)) 6, true)
  | .guard =>
    let lost := if ckpOp s = 8 then slotStatus s 0 == 1 || slotStatus s 1 == 1
      else slotStatus s (cmdSlot s) == 1 && slotStatus s (1 - cmdSlot s) != 1
    if lost ∧ ¬ cmdForce s then (ckpRefuse (ckpIdle s) 11, true)
    else
      let zero := if ckpOp s ≠ 8 ∧ slotStatus s (cmdSlot s) = 1 then [CkpAct.zero (cmdSlot s), .zeroed (cmdSlot s)] else []
      (ckpPush (ckpPop s) zero, false)
  | .importFrom lba addr len => (ckpPhase (nvmeIssue s 1 false lba false addr (min 131072 len)) 3, true)
  | .adoptManifest =>
    let m := slotManifest s k
    let n := 0x1000 + 64 * fieldLE 0x1C 1 m
    if fieldLE 0 4 m ≠ magicManifest ∨ fieldLE 4 1 m ≠ 1 ∨ fieldLE 0x1C 1 m = 0 then
      (ckpAbort (ev s F.CKP_EVENT_RESTORE_BAD 0) 7, true)
    else
      let l := manifestExts m
      let s := ckpPop { s with ckp := { s.ckp with exts := l, head := m.take n, acc := [] } }
      (ckpPush s ((List.range l.length).map (fun j => CkpAct.readBack j 0) ++ [.flush, .commit, .saved]), false)
  | .readBack i off =>
    let o := fieldLE (0x1010 + 64 * i) 8 s.ckp.head + off
    let n := min 131072 ((s.ckp.exts.getD i (0, 0)).2 - off)
    (ckpPhase (nvmeReadSram s (slotLba s k + 256 + o / 4096) (ceilDiv n 4096)) 6, true)
  | .checkBack i =>
    if sha3 (s.ckp.acc.take (s.ckp.exts.getD i (0, 0)).2) = manifestDigest s.ckp.head i then
      (ckpPop { s with ckp := { s.ckp with acc := [] } }, false)
    else (ckpAbort (ev (wf s F.CKP_INFO_EXTENT 0 i) F.CKP_EVENT_RESTORE_BAD 0) 7, true)
  | .label => (ckpPhase (nvmeWriteSram s true 0 (labelBytes s)) 3, true)
  | .labelled => (ckpPop (wf s F.CKP_STATUS_MODULE 0 1), false)
  | .done => (ckpDone s, true)

/-- Go on with the running command until it waits. -/
def ckpRun : Nat → State → State
  | 0, s => s
  | fuel + 1, s =>
    match s.ckp.script with
    | [] => s
    | a :: _ =>
      if s.ckp.nvme.isSome then s
      else
        match ckpAct s a with
        | (s, true) => s
        | (s, false) => ckpRun fuel s

/-- Enough fuel for the internal actions between two NVMe commands. -/
def ckpGoOn (s : State) : State := ckpRun (s.ckp.script.length + 16) s

/-! ### Accepting commands (R361, R366, R369 to R373) -/

/-- Begin an accepted command. -/
def ckpBegin (s : State) (blk : List Byte) (op : Nat) (script : List CkpAct) : State :=
  let s := wf (wf s F.CKP_STATUS_OP 0 op) F.CKP_STATUS_BUSY 0 1
  ckpGoOn { s with ckp := { s.ckp with cmd := blk, script := script } }

/-- The slots must be known before a save or an import chooses between them. -/
def knowSlots (s : State) : List CkpAct :=
  (List.range 2).flatMap fun k => if slotStatus s k = 0 then examScript s k else []

/-- Do two spans overlap? -/
def overlaps (a n b m : Nat) : Bool := decide (a < b + m ∧ b < a + n)

/-- SAVE of a plan that has been read (R361). -/
def ckpSavePlan (r : State × List Byte) (blk : List Byte) : State :=
  let s := r.1
  let p := r.2
  let n := fieldLE 2 1 p
  let l := (List.range n).map fun i => (bits 47 0 (fieldLE (0x10 + 16 * i) 8 p), fieldLE (0x18 + 16 * i) 4 p)
  let snap := bit 0 (fieldLE 1 1 p)
  let base := rf2 s F.CKP_SNAP_BASE_LO_ADDR F.CKP_SNAP_BASE_HI_ADDR 0
  let size := rf s F.CKP_SNAP_SIZE_MIB 0 * 2 ^ 20
  let pan := rf2 s F.HUB_PAN_BASE_LO_BASE F.HUB_PAN_BASE_HI_BASE 0
  let total := l.foldl (fun n e => n + e.2) 0
  if fieldLE 0 1 p ≠ 1 ∨ n = 0 ∨ !l.all (fun e => e.2 % 32 == 0 && inMemory s e.1 e.2) then ckpRefuse s 4
  else if snap ∧ (l.any (fun e => overlaps e.1 e.2 base size) ∨ overlaps base size pan (rf s F.HUB_PAN_CFG_SIZE_MIB 0 * 2 ^ 20)) then
    ckpRefuse s 4
  else if slotLbas s < 256 + extOffset l n / 4096 ∨ (snap ∧ size < total) ∨ (snap ∧ size = 0) then ckpRefuse s 5
  else
    let s := { s with ckp := { s.ckp with exts := l, digests := [], shard := fieldLE 4 2 p, snap := snap, capturing := false, captured := false } }
    let exts := (List.range n).map fun j => CkpAct.saveExt j 0
    let s := if stepCommitted s then s else captureStart s
    ckpBegin s blk 1 (knowSlots s ++ [.pick] ++ (if snap then [.awaitCopied] else []) ++ exts ++ [.manifest, .flush, .commit, .saved])

/-- SAVE of the plan at an address (R361). -/
def ckpSave (s : State) (blk : List Byte) (a : Nat) : State :=
  if !jobActive s || s.sr.lastClosed.isNone then ckpRefuse s 3
  else if a % 64 ≠ 0 ∨ !inMemory s a 4096 then ckpRefuse s 4
  else ckpSavePlan (hubRead s a 4096) blk

/-- The checks of R366 that involve no slot. -/
def restoreWhy (s : State) (epoch : Nat) : Nat :=
  if !jobActive s || !s.sr.steps.isEmpty then 3
  else if epoch ≤ rf s F.HUB_SR_EPOCH_EPOCH 0 ∨ epoch = 0xFFFFFFFF then 8 else 0

/-- EXPORT or IMPORT: both in whole LBAs inside the slot (R370). -/
def ckpMove (s : State) (blk : List Byte) (op : Nat) : State :=
  let k := bits 9 8 (fieldLE 0 4 blk)
  let a := bits 47 0 (fieldLE 0x18 8 blk)
  let off := fieldLE 0x20 8 blk
  let len := fieldLE 0x28 8 blk
  if 1 < k ∨ off % 4096 ≠ 0 ∨ len % 4096 ≠ 0 ∨ len = 0 ∨ !inMemory s a len then ckpRefuse s 4
  else if slotLbas s * 4096 < off + len then ckpRefuse s 5
  else
    let lba := slotLba s k + off / 4096
    if op = 5 then ckpBegin s blk 5 [.exportTo lba a len]
    else ckpBegin s blk 6 (knowSlots s ++ [.guard, .importFrom lba a len])

/-- A command block that has been read is checked and run (R372, R373). -/
def ckpGoBlock (r : State × List Byte) : State :=
  let s := r.1
  let blk := r.2
  let op := fieldLE 0 1 blk
  let k := bits 9 8 (fieldLE 0 4 blk)
  let addr := bits 47 0 (fieldLE 0x18 8 blk)
  let m := moduleState s
  if op = 0 ∨ 8 < op ∨ k = 3 then ckpRefuse s 4
  else if ¬ (m = 1 ∨ (op = 4 ∧ m = 2) ∨ (m = 4 ∧ (op = 4 ∨ op = 5 ∨ op = 8))) then ckpRefuse s 2
  else
    match op with
    | 1 => ckpSave s blk addr
    | 2 =>
      let why := restoreWhy s (fieldLE 0x10 4 blk)
      if why ≠ 0 then ckpRefuse s why
      else if !inMemory s (bits 47 0 (fieldLE 0x30 8 blk)) 0x4000 then ckpRefuse s 4
      else ckpBegin s blk 2 (examScript s 0 ++ examScript s 1 ++ [.report, .select])
    | 3 =>
      let why := restoreWhy s (fieldLE 0x10 4 blk)
      if why ≠ 0 then ckpRefuse s why
      else ev (adoptStep s (fieldLE 0x10 4 blk) (bits 47 0 (fieldLE 8 8 blk)) (fieldLE 0x14 2 blk)) F.CKP_EVENT_DONE 0
    | 4 =>
      if !inMemory s addr 0x4000 then ckpRefuse s 4
      else ckpBegin s blk 4 (examScript s 0 ++ examScript s 1 ++ [.report, .done])
    | 5 => ckpMove s blk 5
    | 6 => ckpMove s blk 6
    | 7 =>
      if 1 < k then ckpRefuse s 4
      else
        let s := { s with ckp := { s.ckp with target := k } }
        ckpBegin s blk 7 ((if slotStatus s (1 - k) = 0 then examScript s (1 - k) else []) ++ [.look (slotLba s k + 1) 5 (2 * k + 1), .adoptManifest])
    | _ => ckpBegin s blk 8 (knowSlots s ++ [.guard, .label, .zero 0, .zeroed 0, .zero 1, .zeroed 1, .labelled, .done])

/-- GO: the command block is read, checked and run (R372, R373). -/
def ckpGo (s : State) : State :=
  let a := rf2 s F.CKP_CMDBLK_LO_ADDR F.CKP_CMDBLK_HI_ADDR 0
  if ckpBusy s ∨ ¬ rb s F.CKP_CTRL_EN 0 then ckpRefuse s 1
  else if !inMemory s a 64 then ckpRefuse s 4
  else ckpGoBlock (hubRead s a 64)

/-- The operation that the command block names. -/
def ckpBlockOp (s : State) : Nat :=
  let a := rf2 s F.CKP_CMDBLK_LO_ADDR F.CKP_CMDBLK_HI_ADDR 0
  if inMemory s a 64 then fieldLE 0 1 (hubRead s a 64).2 else 0

/-- MODULE_RESET (R356, R371): the bring-up runs again; a running command is aborted. -/
def moduleResetEffect (s : State) : State :=
  let s := ckpAbort s 10
  let s := setSlotStatus (setSlotStatus (wf s F.CKP_STATUS_MODULE 0 0) 0 0) 1 0
  { s with ckp := { s.ckp with bring := true, seen := [] } }

/-- What the pulses of CKP_CMD do: GO, ABORT, MODULE_RESET. -/
def ckpCmdEffect (pulse : Word) (s : State) : State :=
  let s := if wbits 0 0 pulse = 1 then ckpGo s else s
  let s := if wbits 1 1 pulse = 1 then ckpAbort s 10 else s
  if wbits 2 2 pulse = 1 then moduleResetEffect s else s

/-- A write of GO whose command block names an operation; another block is another row's command. -/
def ckpRow (req : Requester) (op : Nat) (s : State) : Host.Outcome State Fault Refusal :=
  if ckpBlockOp s = op then regCmd s req .ckp 0 4 1 fun _ _ s => ckpCmdEffect 1 s else .next s

/-- SAVE (R361 to R363). -/
def execSave (req : Requester) (s : State) : Host.Outcome State Fault Refusal := ckpRow req 1 s
/-- RESTORE (R366, R367). -/
def execRestore (req : Requester) (s : State) : Host.Outcome State Fault Refusal := ckpRow req 2 s
/-- ADOPT (R369). -/
def execAdopt (req : Requester) (s : State) : Host.Outcome State Fault Refusal := ckpRow req 3 s
/-- QUERY (R368). -/
def execQuery (req : Requester) (s : State) : Host.Outcome State Fault Refusal := ckpRow req 4 s
/-- EXPORT (R370). -/
def execCkpExport (req : Requester) (s : State) : Host.Outcome State Fault Refusal := ckpRow req 5 s
/-- IMPORT (R370). -/
def execCkpImport (req : Requester) (s : State) : Host.Outcome State Fault Refusal := ckpRow req 6 s
/-- IMPORT_COMMIT (R370). -/
def execImportCommit (req : Requester) (s : State) : Host.Outcome State Fault Refusal := ckpRow req 7 s
/-- FORMAT (R370). -/
def execFormat (req : Requester) (s : State) : Host.Outcome State Fault Refusal := ckpRow req 8 s

/-- CKP_ABORT (R364). -/
def execCkpAbort (req : Requester) (s : State) : Host.Outcome State Fault Refusal :=
  regCmd s req .ckp 0 4 2 fun _ _ s => ckpCmdEffect 2 s

/-- MODULE_RESET (R371). -/
def execModuleReset (req : Requester) (s : State) : Host.Outcome State Fault Refusal :=
  regCmd s req .ckp 0 4 4 fun _ _ s => ckpCmdEffect 4 s

/-! ### Events of the engine -/

/-- Copy the bytes of extent `i` into the snapshot buffer (R362). -/
def copyExtent (s : State) (i : Nat) : State :=
  let e := s.ckp.exts.getD i (0, 0)
  let r := hubRead s e.1 e.2
  hubWrite r.1 (extSource r.1 i) r.2

/-- CAPTURE_END (R362): in snapshot mode the extents are copied into the buffer now; in hold mode the last byte must have been
read. -/
def execCaptureEnd (s : State) : Host.Outcome State Fault Refusal :=
  if !s.ckp.capturing || s.ckp.captured || ckpOp s != 1 then .next s
  else if s.ckp.snap then
    let t := (List.range s.ckp.exts.length).foldl copyExtent s
    if faultedSince s t then .next (ckpAbort t 9) else .next (ckpGoOn (captureEnd t))
  else if s.ckp.digests.length = s.ckp.exts.length then .next (captureEnd s)
  else .next s

/-- Count the bytes of a completed NVMe command, and land those that it read (R354, R355). -/
def nvmeLand (s : State) (c : NvmeCmd) (data : List Byte) : State :=
  let s := { s with ckp := { s.ckp with nvme := none } }
  let s := if c.kind = 1 then bumpIf s F.CKP_CTRL_CNT_EN F.CKP_WR_BYTES_LO_COUNT 0 c.len
    else if c.kind = 0 then bumpIf s F.CKP_CTRL_CNT_EN F.CKP_RD_BYTES_LO_COUNT 0 c.len else s
  let d := data.take c.len
  if c.kind ≠ 0 ∨ d.isEmpty then s
  else if c.sram then { s with ckp := { s.ckp with sram := mwrN s.ckp.sram c.addr d } } else hubWrite s c.addr d

/-- What follows the action that a completed NVMe command served; `got` are the bytes in the engine's SRAM. -/
def nvmeFollow (s : State) (a : CkpAct) (got : List Byte) : State :=
  match a with
  | .look _ _ key => { s with ckp := { s.ckp with seen := aput s.ckp.seen key got } }
  | .saveExt i off => ckpPush s (nextPiece s i off (.saveExt i) (.digest i))
  | .loadExt i off => ckpPush s (nextPiece s i off (.loadExt i) (.verify i))
  | .readBack i off =>
    ckpPush { s with ckp := { s.ckp with acc := s.ckp.acc ++ got } } (nextPiece s i off (.readBack i) (.checkBack i))
  | .exportTo lba x len => if 131072 < len then ckpPush s [.exportTo (lba + 32) (x + 131072) (len - 131072)] else ckpPush s [.done]
  | .importFrom lba x len => if 131072 < len then ckpPush s [.importFrom (lba + 32) (x + 131072) (len - 131072)] else ckpPush s [.done]
  | _ => s

/-- What a completed NVMe command leads to. -/
def nvmeDone (s : State) (c : NvmeCmd) (data : List Byte) : State :=
  let s := nvmeLand s c data
  match s.ckp.script with
  | [] => s
  | a :: _ => ckpGoOn (nvmeFollow (ckpPop s) a (mrdN s.ckp.sram 0 c.len))

/-- NVME_COMPLETION (R363, R367, R371): `data` are the bytes that the module moved for a read and that no STAGING_INBOUND has
brought. -/
def execNvmeCompletion (id status : Nat) (data : List Byte) (s : State) : Host.Outcome State Fault Refusal :=
  match s.ckp.nvme with
  | none => .next s
  | some c =>
    if c.id ≠ id then .next s
    else if status ≠ 0 then .next (moduleError s status)
    else .next (nvmeDone s c data)

/-- NVME_TIMEOUT (R354). -/
def execNvmeTimeout (id : Nat) (s : State) : Host.Outcome State Fault Refusal :=
  match s.ckp.nvme with
  | none => .next s
  | some c => if c.id = id then .next (moduleError s 0) else .next s

/-- STAGING_LINK_DOWN (R364). -/
def execStagingLinkDown (s : State) : Host.Outcome State Fault Refusal :=
  let s := ckpAbort s 10
  let s := wf (wf s F.CKP_STATUS_WIDTH 0 0) F.CKP_STATUS_RATE 0 0
  .next { s with ckp := { s.ckp with bring := true } }

/-- STAGING_LINK_TRAIN_END (R353, R356, R371). -/
def execStagingLinkTrainEnd (facts : ModuleFacts) (s : State) : Host.Outcome State Fault Refusal :=
  if !hubUp s then .next s else
  if !s.ckp.bring then .next s
  else
    let up := facts.present && facts.width != 0
    let again := s.ckp.facts.present
    let state := if !facts.present then (if again then 2 else 0) else if !up then 2 else if !facts.lba4k then 3
      else if labelForeign facts.labelBytes then 4 else 1
    let s := { s with ckp := { s.ckp with bring := false, facts := if facts.present then facts else s.ckp.facts } }
    let s := wf (wf (wf s F.CKP_STATUS_WIDTH 0 (if up then facts.width else 0)) F.CKP_STATUS_RATE 0 (if up then facts.rate else 0)) F.CKP_STATUS_MODULE 0 state
    let s := if s.fh.retests.contains (4, 28, 0x24) then retestEnd s 4 28 0x24 (state == 1) else s
    .next (if state = 4 then ev s F.CKP_EVENT_FOREIGN 0 else s)

/-- STAGING_INBOUND (R355): a request inside the data range of the outstanding command is performed; reads of the engine's queue
entries and lists are answered with bytes that the manual does not give (log 26). -/
def execStagingInbound (write : Bool) (addr : Nat) (len : Nat) (data : List Byte) (s : State) : Host.Outcome State Fault Refusal :=
  if !hubUp s then .next s else
  let sram := decide (0xF0000000 ≤ addr ∧ addr + len ≤ 0xF1000000)
  let off := addr - 0xF0000000
  let dev := addr - 2 ^ 48
  let answer := fun (s : State) (ok : Bool) (d : List Byte) => { s with ckp := { s.ckp with inbound := s.ckp.inbound ++ [(ok, d)] } }
  let hit := match s.ckp.nvme with
    | none => false
    | some c => (c.kind == (if write then 0 else 1)) &&
      (if c.sram then sram && decide (c.addr ≤ off ∧ off + len ≤ c.addr + c.len)
       else decide (2 ^ 48 ≤ addr ∧ c.addr ≤ dev ∧ dev + len ≤ c.addr + c.len))
  if hit then
    if sram then
      .next (if write then answer { s with ckp := { s.ckp with sram := mwrN s.ckp.sram off (padTo len data) } } true []
        else answer s true (mrdN s.ckp.sram off len))
    else if write then .next (answer (hubWrite s dev (padTo len data)) true [])
    else
      let (t, d) := hubRead s dev len
      let t := answer t true d
      .next (if faultedSince s t then ckpAbort t 9 else t)
  else if sram then
    (if write then .next (answer s true []) else let (d, s) := freshBytes s len; .next (answer s true d))
  else .next (moduleError (answer s false []) 0)

/-- AUTO_SAVE_START (R365): a pending save starts once no command runs and the gap has passed. -/
def execAutoSaveStart (s : State) : Host.Outcome State Fault Refusal :=
  let gap := rf s F.CKP_CTRL_MIN_GAP 0 * 10000000
  let early := match s.ckp.lastSave with
    | some t => decide (tick s < t + gap)
    | none => false
  if !s.ckp.pendingAuto || ckpBusy s || early then .next s
  else
    let s := wf { s with ckp := { s.ckp with pendingAuto := false } } F.CKP_STATUS_PENDING 0 0
    if !rb s F.CKP_CTRL_EN 0 then .next (ckpRefuse s 1)
    else if moduleState s ≠ 1 then .next (ckpRefuse s 2)
    else .next (ckpSave s (List.replicate 64 0) (rf2 s F.CKP_PLAN_LO_ADDR F.CKP_PLAN_HI_ADDR 0))

/-- A CLOSE lets an awaited capture start (R362). -/
def captureAtClose (s : State) : State :=
  match s.ckp.script with
  | .awaitCapture :: _ => ckpGoOn s
  | _ => s

end Sys2Proof.Machine
end

