-- ==== Sys2Proof/Machine/Control.lean ====
section
/-! DEFINITION. Loops, branches and the mutual-wait rule of a core, and the registers that act on its queues (R222 to R238). -/

namespace Sys2Proof.Machine

/-! ### Loops (R223 to R227) -/

/-- Fire the signals of a descriptor at its issue and retire it. -/
def finishAtIssue (s : State) (g q : Nat) (d : List Byte) : State :=
  let s := trace s 2 q g (dOp d) (dTag d) 0 (partOf g)
  retire (fireSigs s g q (dOp d) (dTag d) (dSig d 0) (dSig d 1)) g q

/-- Issue of a LOOP_BEGIN (R224, R225): a loop of no iterations passes its body and its LOOP_END, whose signals fire. -/
def doLoopBegin (s : State) (g q : Nat) (d : List Byte) : State :=
  let lc := bits 3 0 (dW d 0)
  let n := rf s (F.SEQ_LC_COUNT.nth lc) g
  let len := bodyLen d
  let s := issueCommon s g q d
  let k := queueOf s g q
  if n = 0 then
    let s := finishAtIssue (setQueue s g q (k.advance (len + 2))) g q d
    match k.buf[k.pos + len + 1]? with
    | some e => fireSigs s g q (dOp e) (dTag e) (dSig e 0) (dSig e 1)
    | none => s
  else
    finishAtIssue (setQueue s g q { k with pos := k.pos + 1, loops := k.loops ++ [⟨n, 0, lc, k.pos + 1, len⟩], promoted := false }) g q d

/-- Issue of a LOOP_END (R224): back to the body, or the loop closes and its signals fire. -/
def doLoopEnd (s : State) (g q : Nat) (d : List Byte) : State :=
  let s := issueCommon s g q d
  let k := queueOf s g q
  match k.loops.getLast? with
  | none => s
  | some l =>
    if l.i + 1 < l.n then
      retire (setQueue s g q { k with pos := l.start, loops := k.loops.dropLast ++ [{ l with i := l.i + 1 }], promoted := false }) g q
    else finishAtIssue (setQueue s g q ({ k with loops := k.loops.dropLast }.advance 1)) g q d

/-- LOOP_BEGIN (R223 to R227). -/
def execLoopBegin (core queue : Nat) (s : State) : Host.Outcome State Fault Refusal :=
  .next (issueWith s core queue 0x03 fun s d => doLoopBegin s core queue d)

/-- LOOP_END (R223 to R227). -/
def execLoopEnd (core queue : Nat) (s : State) : Host.Outcome State Fault Refusal :=
  .next (issueWith s core queue 0x04 fun s d => doLoopEnd s core queue d)

/-! ### Branches (R228 to R233) -/

/-- Issue of a BRANCH: the queue awaits a selection; the rule and the summary entry are taken as they stand (R230). -/
def doBranch (s : State) (g q : Nat) (d : List Byte) : State :=
  let w := dW d 0
  let b : BranchSt :=
    { tag := dTag d, mode := bits 4 4 w, nseg := bits 11 8 w, dflt := bits 15 12 w, rule := csRead s g (64 * bits 15 0 (dW d 1)) 64
      summ := mrdN (getCore s g).summ (64 * bits 2 0 w) 64, sig0 := dSig d 0, sig1 := dSig d 1 }
  let s := issueCommon s g q d
  let k := queueOf s g q
  setQueue s g q { k.advance 1 with branch := some b, segs := (b.nseg, 0) }

/-- Issue of a SEGMENT marker: it passes over its own body and counts as retired (R231). -/
def doSegment (s : State) (g q : Nat) (d : List Byte) : State :=
  let s := issueCommon s g q d
  let k := queueOf s g q
  let k := { k.advance 1 with pass := ⟨0, bits 7 0 (dW d 0), false⟩, segs := if k.segs.2 < k.segs.1 then (k.segs.1, k.segs.2 + 1) else k.segs }
  retire (setQueue s g q k.passOver) g q

/-- A field of a summary record as FP64 (R162, R229). -/
def summField (b : List Byte) (f : Nat) : FV :=
  let n := fun (off : Nat) => (FV.fin false (fieldLE off 4 b) 0).norm
  match f with
  | 1 => n 0x08
  | 2 => n 0x0C
  | 3 => n 0x10
  | 4 => n 0x14
  | 5 => fp64.dec (fieldLE 0x18 8 b)
  | 6 => fp64.dec (fieldLE 0x20 8 b)
  | 7 => fp64.dec (fieldLE 0x28 8 b)
  | 8 => n 0x30
  | 9 => n 0x34
  | _ => (FV.fin false (bits 4 0 (fieldLE 0x38 4 b)) 0).norm

/-- Does a test hold (R229)? -/
def testHolds (b : List Byte) (t : RuleTest) : Bool :=
  let x := summField b t.field
  let c := fp64.dec t.const
  match t.cmp with
  | 0 => x.lt c
  | 1 => x.le c
  | 2 => x.eqv c
  | 3 => !x.eqv c
  | 4 => c.le x
  | 5 => c.lt x
  | 6 => (bits 4 0 (fieldLE 0x38 4 b) &&& bits 4 0 t.const) != 0
  | _ => x.isNan

/-- The segment that a rule selects (R229). -/
def ruleSelect (b : BranchSt) : Nat := (((ruleTests b.rule).find? (testHolds b.summ)).map (·.seg)).getD b.dflt

/-- A selection is made (R230 steps 3 to 5): the BRANCH's signals fire, it retires, the segments ahead are passed over. -/
def selectSeg (s : State) (g q : Nat) (b : BranchSt) (seg : Nat) (byHost : Bool) : State :=
  let k := queueOf s g q
  let s := setQueue s g q (QueueSt.passOver { k with branch := none, pass := ⟨seg, 0, true⟩, segs := (b.nseg, seg + 1) })
  let s := wf (wf s (F.SEQ_QBRSEL_TAGLO.nth q) g (b.tag % 2 ^ 16)) (F.SEQ_QBRSEL_BY_HOST.nth q) g (b2n byHost)
  let s := wf s (F.SEQ_QBRSEL_SEG.nth q) g seg
  let s := trace s 2 q g 5 b.tag 0 (partOf g)
  retire (fireSigs s g q 5 b.tag b.sig0 b.sig1) g q

/-- BRANCH (R228 to R234). -/
def execBranch (core queue : Nat) (s : State) : Host.Outcome State Fault Refusal :=
  .next (issueWith s core queue 0x05 fun s d => doBranch s core queue d)

/-- SEGMENT (R228, R231). -/
def execSegment (core queue : Nat) (s : State) : Host.Outcome State Fault Refusal :=
  .next (issueWith s core queue 0x06 fun s d => doSegment s core queue d)

/-- BRANCH_SELECT (R230): the control core selects for a mode-0 BRANCH. -/
def execBranchSelect (core queue : Nat) (s : State) : Host.Outcome State Fault Refusal :=
  match (queueOf s core queue).branch with
  | some b => if b.mode = 0 ∧ coreRuns s core then .next (selectSeg s core queue b (ruleSelect b) false) else .next s
  | none => .next s

/-- A write to SEQ_QBRSEL (R222, R232): accepted for a waiting mode-1 BRANCH, else refused. -/
def qbrselEffect (s : State) (req : Requester) (g q : Nat) (value : Word) : State :=
  let k := queueOf s g q
  let v := value.toNat
  let refuse := fun (s : State) => ev s F.SEQ_QEVENT_BRSEL_BAD g
  match k.branch with
  | some b =>
    if b.mode ≠ 1 ∨ k.halt.isSome then refuse s
    else if req ≠ .mgmt ∧ bits 31 16 v = b.tag % 2 ^ 16 ∧ bits 3 0 v < b.nseg then selectSeg s g q b (bits 3 0 v) true
    else
      let s := refuse s
      if rb s (F.SEQ_QCTRL_HALT_ON_ILLEGAL.nth q) g then haltQueue s g q .selection else s
  | none => refuse s

/-! ### Discard, resume, loop counts -/

/-- DISCARD in SEQ_QCTRL (R222). -/
def queueDiscard (s : State) (g q : Nat) : State := setQueue s g q QueueSt.reset

/-- RESUME in SEQ_QCTRL (R222): a halt on a selection returns to the BRANCH, which is still held. -/
def queueResume (s : State) (g q : Nat) : State := setQueue s g q { queueOf s g q with halt := none }

/-- A write to SEQ_LCn (R226). -/
def loopCountEffect (s : State) (g n : Nat) (value : Word) : State :=
  let s := wf s (F.SEQ_LC_COUNT.nth n) g value.toNat
  match (List.range 8).find? fun q => (queueOf s g q).loops.any fun l => l.lc == n with
  | none => s
  | some q =>
    let s := if rb s F.SEQ_QEVENT_COUNT_WRITTEN_IN_FLIGHT g then s
      else wf (wf s F.SEQ_CWIF_INFO_QUEUE g q) F.SEQ_CWIF_INFO_LCREG g n
    ev s F.SEQ_QEVENT_COUNT_WRITTEN_IN_FLIGHT g

/-! ### States and mutual waits (R218, R235 to R237) -/

/-- STATE of a queue (R218). -/
def queueState (s : State) (g q : Nat) : Nat :=
  let k := queueOf s g q
  if k.halt.isSome then 4
  else if k.branch.isSome then 3
  else
    match k.head with
    | none => 0
    | some d =>
      if waitMask s g k.iter d ≠ 0 then 1
      else
        match headState s g q with
        | .illegal _ _ => 5
        | .ready _ => if (issuable s g q).isSome then 5 else 2
        | _ => 2

/-- An idle queue (R235). -/
def queueIdle (s : State) (g q : Nat) : Bool :=
  let st := queueState s g q
  (st == 0 || st == 4) && inFlight s g q == 0

/-- May a queue be stuck beside a set of stuck queues (R235)? -/
def stuckBy (s : State) (g : Nat) (m : List Nat) (q : Nat) : Bool :=
  let k := queueOf s g q
  queueState s g q == 1 && inFlight s g q == 0 &&
    (match k.head with
     | none => false
     | some d => (List.range 4).all fun i =>
         waitHolds s g k.iter d i ||
           (let w := dWait d i
            (bits 31 30 w == 1 || bits 31 30 w == 2) && m.contains (setterGet s g (bits 7 0 w))))

/-- The largest set of non-idle queues in which each is stuck by the others (R235). -/
def stuckSet (s : State) (g : Nat) : List Nat :=
  (List.range 8).foldl (fun m _ => m.filter (stuckBy s g m)) ((List.range 8).filter fun q => !queueIdle s g q)

/-- Is every non-idle queue stuck, and one non-idle (R236)? -/
def deadlocked (s : State) (g : Nat) : Bool :=
  let live := (List.range 8).filter fun q => !queueIdle s g q
  !live.isEmpty && stuckSet s g == live

/-- DEADLOCK (R236, R237): raised in the 64th cycle of the condition, once until a queue issues. -/
def execDeadlock (core : Nat) (s : State) : Host.Outcome State Fault Refusal :=
  if !hubUp s then .next s else
  let c := getCore s core
  if rb s F.SEQ_CTRL_DL_EN core ∧ c.armed ∧ coreRuns s core ∧ deadlocked s core then
    let l := stuckSet s core
    let mask := l.foldl (fun m q => m + 2 ^ q) 0
    let tagOf := fun (q : Nat) => if l.contains q then (((queueOf s core q).head).map dTag).getD 0 else 0
    let s1 := setCore s core { c with armed := false }
    let s1 := if rb s1 F.SEQ_QEVENT_DEADLOCK core then s1
      else (List.range 8).foldl (fun s q => wf s (F.SEQ_DL_TAG_TAG.nth q) core (tagOf q)) (wf s1 F.SEQ_DL_INFO_QMASK core mask)
    .next (raise (ev s1 F.SEQ_QEVENT_DEADLOCK core) E.DEADLOCK (U.core core) (tagOf (l.headD 0)) mask)
  else .next s

end Sys2Proof.Machine
end

