-- ==== Sys2Proof/Machine/FabricLink.lean ====
section
/-! DEFINITION. Fabric ports: link blocks, retry, credits, training, identity and the cabling check (chapter 12; readings: log 24). -/

namespace Sys2Proof.Machine

/-! ### Packets as flits (R264, R285) -/

/-- The 32-byte header and the payload of a packet. -/
def packetBytes (p : Packet) : List Byte :=
  toLE 4 (p.dest + p.src * 2 ^ 12 + p.cls * 2 ^ 24 + p.kind * 2 ^ 28) ++ toLE 4 (p.slice + p.plen * 2 ^ 16 + p.hops * 2 ^ 24)
    ++ toLE 6 p.addr ++ toLE 2 p.hint ++ toLE 4 p.tag ++ toLE 4 (p.core + p.pkt * 2 ^ 16) ++ toLE 4 p.srcIdx ++ toLE 4 p.aux
    ++ p.payload

/-- The packet that a run of flits spells. -/
def packetOf (l : List Byte) : Packet :=
  let w := fun (o : Nat) => fieldLE o 4 l
  { dest := bits 11 0 (w 0), src := bits 23 12 (w 0), cls := bits 26 24 (w 0), kind := bits 31 28 (w 0), slice := bits 11 0 (w 4)
    plen := bits 23 16 (w 4), hops := bits 31 24 (w 4), addr := fieldLE 8 6 l, hint := bits 1 0 (fieldLE 14 2 l), tag := w 16
    core := bits 8 0 (w 20), pkt := bits 31 16 (w 20), srcIdx := bits 15 0 (w 24), aux := w 28
    payload := slice 32 (32 * bits 23 16 (w 4)) l }

/-- Flits of a packet (R264). -/
def flitsOf (p : Packet) : Nat := ceilDiv (32 * p.plen + 32) 128

/-- Does a packet keep the forms of R286, on a virtual channel that its CLASS may take (R289)? -/
def packetOk (p : Packet) (vc : Nat) : Bool :=
  let cls := match p.kind with
    | 0 | 1 => p.cls == 0 || p.cls == 2
    | 2 => p.cls == 1
    | 3 | 4 | 5 => p.cls == 4
    | _ => false
  let len := match p.kind with
    | 0 => decide (1 ≤ p.plen ∧ p.plen ≤ 128)
    | 1 => decide (4 ≤ p.plen ∧ p.plen ≤ 128) && p.plen % 4 == 0
    | 2 | 3 => p.plen == 0
    | _ => decide (1 ≤ p.plen ∧ p.plen ≤ 3)
  cls && len && (vc == p.cls || (vc == 3 && p.cls != 4))

/-! ### Blocks (R265) -/

/-- A pair of a list over virtual channels. -/
def vcAt (l : List (Nat × Nat)) (v : Nat) : Nat × Nat := l.getD v (0, 0)

/-- Change the pair of a virtual channel. -/
def vcSet (l : List (Nat × Nat)) (v : Nat) (e : Nat × Nat) : List (Nat × Nat) := l.set v e

/-- SLOT_INFO of empty slots. -/
def emptyInfo : Nat := (List.range 8).foldl (fun n i => n + 7 * 2 ^ (6 * i)) 0

/-- The trailer that a port sends, with its current ACK and credit counters, without the CRC. -/
def trailerHead (p : PortSt) (seq info : Nat) (idle retry nak : Bool) : List Byte :=
  toLE 2 (seq + b2n idle * 2 ^ 12 + b2n retry * 2 ^ 13 + b2n nak * 2 ^ 14) ++ toLE 2 p.rxSeq ++ toLE 6 info ++
    toLE 18 ((List.range 6).foldl (fun n v => n + (vcAt p.freed v).1 % 4096 * 2 ^ (12 * v) + (vcAt p.freed v).2 % 4096 * 2 ^ (12 * (v + 6))) 0)

/-- A block with its CRC. -/
def mkBlock (p : PortSt) (seq : Nat) (slots : List (List Byte)) (info : Nat) (idle retry nak : Bool) : LinkBlock :=
  let h := trailerHead p seq info idle retry nak
  ⟨slots, h ++ toLE 4 (crc32 (slots.flatten ++ h))⟩

/-- Put an idle block on the link. -/
def sendIdle (p : PortSt) (nak : Bool) : PortSt :=
  { p with wire := p.wire ++ [mkBlock p p.txSeq (List.replicate 8 (List.replicate 128 0)) emptyInfo true false nak] }

/-! ### Events of a port -/

/-- Link state of a port (R284). -/
def lstate (s : State) (n : Nat) : Nat := rf s F.FAB_P_STATE_LSTATE n

/-- Set the link state; FAB_STATUS.UP follows. -/
def setLstate (s : State) (n v : Nat) : State :=
  let s := wf s F.FAB_P_STATE_LSTATE n v
  wf s F.FAB_STATUS_UP 0 (putBits n n (if v = 3 then 1 else 0) (rf s F.FAB_STATUS_UP 0))

/-- Is a port enabled? -/
def portEnabled (s : State) (n : Nat) : Bool := rb s F.FAB_CTRL_EN 0 && rb s F.FAB_P_CTRL_EN n

/-! ### Credits (R271, R272) -/

/-- Credit settings of a port. -/
def credRegs (s : State) (n : Nat) : List (Nat × Nat) :=
  (List.range 6).map fun v => (rf s (F.FAB_P_CRED_MIN.nth v) n, rf s (F.FAB_P_CRED_CAP.nth v) n)

/-- The shared pool that private minimums leave. -/
def poolOf (l : List (Nat × Nat)) : Nat := 6144 - (l.map (·.1)).foldl (· + ·) 0

/-- The rules of R272. -/
def credOk (l : List (Nat × Nat)) : Bool :=
  (List.range 4).all (fun v => decide (66 ≤ (vcAt l v).1)) && decide (8 ≤ (vcAt l 4).1) &&
    decide ((l.map (·.1)).foldl (· + ·) 0 ≤ 6144) && l.all (fun e => decide (e.2 ≤ poolOf l) && decide (e.2 ≤ 4000))

/-- Credits that a port holds for a virtual channel of its neighbour: private, shared. -/
def credits (p : PortSt) (v : Nat) : Nat × Nat :=
  let a := vcAt p.nbr v
  let u := vcAt p.used v
  (a.1 - u.1, min (a.2 - u.2) (poolOf p.nbr - (p.used.map (·.2)).foldl (· + ·) 0))

/-! ### Sending (R266, R268) -/

/-- Cut a list into groups of eight. -/
def groups8 {α : Type} : Nat → List α → List (List α)
  | 0, _ => []
  | n + 1, l => l.take 8 :: groups8 n (l.drop 8)

/-- May a packet start: credits for all its flits, room in the retry buffer? -/
def canSend (p : PortSt) (vc flits : Nat) : Bool :=
  decide (flits ≤ (credits p vc).1 + (credits p vc).2) && decide (p.retry.length + ceilDiv flits 8 ≤ 248)

/-- Slots of a packet with their information: VC, POOL, HEAD, TAIL. -/
def packetSlots (p : PortSt) (vc : Nat) (pkt : Packet) : List (List Byte × Nat) :=
  let n := flitsOf pkt
  let b := padTo (128 * n) (packetBytes pkt)
  let priv := (credits p vc).1
  (List.range n).map fun i =>
    (slice (128 * i) 128 b, vc + (if i < priv then 0 else 8) + (if i = 0 then 16 else 0) + (if i + 1 = n then 32 else 0))

/-- Put one block of at most eight slots on the link and into the retry buffer. -/
def sendSlots (p : PortSt) (l : List (List Byte × Nat)) : PortSt :=
  let l := l ++ List.replicate (8 - l.length) (List.replicate 128 0, 7)
  let info := (l.map (·.2)).foldr (fun x n => x + 64 * n) 0
  let b : OutBlock := ⟨p.txSeq, l.map (·.1), info⟩
  { p with wire := p.wire ++ [mkBlock p b.seq b.slots info false false false], retry := p.retry ++ [b], txSeq := (p.txSeq + 1) % 4096 }

/-- Send a packet on a virtual channel of a port. -/
def sendPacket (s : State) (n vc : Nat) (pkt : Packet) : State :=
  let p := getPort s n
  let k := flitsOf pkt
  let slots := packetSlots p vc pkt
  let priv := min k (credits p vc).1
  let p := (groups8 (ceilDiv k 8) slots).foldl sendSlots p
  let u := vcAt p.used vc
  let s := setPort s n { p with used := vcSet p.used vc (u.1 + priv, u.2 + (k - priv)) }
  let s := bumpIf s F.FAB_CTRL_CNT_EN F.FAB_P_TX_FLITS_LO_COUNT n k
  if vc = 3 then bumpIf s F.RT_CTRL_CNT_EN F.RT_VC3_FLITS_LO_COUNT 0 k else s

/-- Flits leave the input buffer: their credits go back to the pools that they were drawn from (R272). -/
def freeFlits (p : PortSt) (vc priv shared : Nat) : PortSt :=
  let f := vcAt p.freed vc
  { p with freed := vcSet p.freed vc ((f.1 + priv) % 4096, (f.2 + shared) % 4096) }

/-! ### Link down and training (R263, R268, R270, R277) -/

/-- A link goes down (R270). Fault history counts it, except after a RETRAIN (R387). -/
def portDown (s : State) (n : Nat) (counts : Bool) (next : Nat) : State :=
  let was := lstate s n == 3
  let p := getPort s n
  let s := portDrop s n 1 (lostPackets p)
  let s := setPort s n { PortSt.reset with inq := p.inq, own := p.own, errs := p.errs, wire := p.wire, idents := p.idents }
  let s := setLstate s n next
  let s := raise s E.FAB_LINK_DOWN (U.port n) 0 0
  let s := if was then timePortDown (portEv s n F.FAB_P_EVENT_DOWN 0) n else s
  fhReport s 4 n 0x21 counts CperInfo.plain

/-- State that a port takes to train again: PHY_TRAIN, unless it has given up, is disabled or retired. -/
def retrainState (s : State) (n : Nat) : Nat :=
  if !portEnabled s n then 6 else if 3 ≤ rf s F.FAB_P_STATE_FAILS n then 0 else 1

/-- Is a link there to go down? -/
def linked (s : State) (n : Nat) : Bool := decide (2 ≤ lstate s n) && decide (lstate s n ≤ 4)

/-- FAB_LINK_DOWN (R270). -/
def execFabLinkDown (port : Nat) (s : State) : Host.Outcome State Fault Refusal :=
  if linked s port then
    let s := portDown s port true (retrainState s port)
    .next s
  else .next s

/-- What RETRAIN of a port does (R270, R284). -/
def fabRetrainEffect (n : Nat) (s : State) : State :=
  if lstate s n = 5 ∨ lstate s n = 6 then s
  else
    let s := if linked s n then portDown s n false 1 else s
    setLstate (wf (wf s F.FAB_P_STATE_FAILS n 0) F.FAB_P_EVENT_RETRAIN_GIVEUP n 0) n 1

/-- What CNT_CLR of a port does (R284). -/
def fabCntClrEffect (n : Nat) (s : State) : State :=
  [F.FAB_P_TX_FLITS_LO_COUNT, F.FAB_P_TX_FLITS_HI_COUNT, F.FAB_P_RX_FLITS_LO_COUNT, F.FAB_P_RX_FLITS_HI_COUNT, F.FAB_P_FEC_CORR_LO_COUNT,
    F.FAB_P_FEC_CORR_HI_COUNT, F.FAB_P_BLOCK_ERR_LO_COUNT, F.FAB_P_BLOCK_ERR_HI_COUNT, F.FAB_P_REPLAYS_LO_COUNT,
    F.FAB_P_REPLAYS_HI_COUNT].foldl (fun s f => wf s f n 0) s

/-- What the pulses of FAB_P_CMD do. -/
def fabCmdEffect (n : Nat) (pulse : Word) (s : State) : State :=
  let s := if wbits 0 0 pulse = 1 then fabRetrainEffect n s else s
  if wbits 1 1 pulse = 1 then fabCntClrEffect n s else s

/-- FAB_RETRAIN (R284). -/
def execFabRetrain (req : Requester) (s : State) : Host.Outcome State Fault Refusal :=
  regCmd s req .fabP 0 4 1 fun n _ s => fabCmdEffect n 1 s

/-- FAB_CNT_CLR (R284). -/
def execFabCntClr (req : Requester) (s : State) : Host.Outcome State Fault Refusal :=
  regCmd s req .fabP 0 4 2 fun n _ s => fabCmdEffect n 2 s

/-! ### The cabling check (R278 to R280) -/

/-- What the plan expects on a port: serial, port, ALLOW_SWAP (R281). -/
def planFor (e : List Byte) (p : Nat) : Nat × Nat × Bool :=
  (fieldLE (0x10 + 10 * p) 8 e, bits 4 0 (fieldLE (0x18 + 10 * p) 1 e), bit 0 (fieldLE (0x19 + 10 * p) 1 e))

/-- The neighbour that a port has found: serial, port. -/
def nbrOf (s : State) (n : Nat) : Nat × Nat :=
  (rf2 s F.FAB_P_NBR_SERIAL_LO_SERIAL F.FAB_P_NBR_SERIAL_HI_SERIAL n, rf s F.FAB_P_NBR_INFO_PORT n)

/-- Does the neighbour of port `n` match the plan's entry for port `p`? -/
def nbrFits (s : State) (e : List Byte) (n p : Nat) : Bool :=
  (nbrOf s n).1 != 0 && (nbrOf s n).1 == (planFor e p).1 && (nbrOf s n).2 == (planFor e p).2.1

/-- The result of a check: CABLE, the event where it is not OK, and the state it leads to (R279). -/
def cableResult (s : State) (n cable : Nat) : State :=
  let s := wf s F.FAB_P_STATE_CABLE n cable
  let s := if cable = 1 then s else portEv s n F.FAB_P_EVENT_CABLE 2
  let was := lstate s n
  let s := setPort s n { getPort s n with waiting := false }
  if cable = 1 ∨ cable = 4 ∨ cable = 7 then
    (if was = 3 then s
     else portEv (wf (setLstate s n 3) F.FAB_P_STATE_FAILS n 0) n F.FAB_P_EVENT_UP 1)
  else
    let s := setLstate s n 4
    if was = 3 then portEv s n F.FAB_P_EVENT_DOWN 0 else s

/-- The IDENT flit of a port (R278). -/
def identOf (s : State) (n : Nat) (recheck : Bool) : Ident :=
  { serial := Config.serial, port := n, phys := rf s F.FAB_P_STATE_PHYS n, assigned := rb s F.FAB_ADDR_ASSIGNED 0
    recheck := recheck, coord := rf s F.FAB_ADDR_COORD 0, planId := rf s F.FAB_PLAN_ID_ID 0, cred := (getPort s n).own }

/-- Put an IDENT flit on a port's link. -/
def sendIdent (s : State) (n : Nat) (recheck : Bool) : State :=
  let i := identOf s n recheck
  let p := getPort s n
  setPort s n { p with idents := p.idents ++ [i] }

/-- Exchange the values of a register field of two ports. -/
def swapField (a b : Nat) (s : State) (f : Fld) : State :=
  let x := rf s f a
  wf (wf s f a (rf s f b)) f b x

/-- Exchange the logical ports of a pair (R280). -/
def remapPorts (s : State) (a b : Nat) : State :=
  let s := [F.FAB_P_STATE_PHYS, F.FAB_P_STATE_FAILS, F.FAB_P_STATE_CABLE, F.FAB_P_NBR_SERIAL_LO_SERIAL, F.FAB_P_NBR_SERIAL_HI_SERIAL,
    F.FAB_P_NBR_INFO_PORT, F.FAB_P_NBR_INFO_ASSIGNED, F.FAB_P_NBR_INFO_COORD].foldl (swapField a b) s
  let la := lstate s a
  let s := setLstate (setLstate s a (lstate s b)) b la
  let pa := getPort s a
  let s := setPort (setPort s a (getPort s b)) b pa
  let mark := fun (s : State) (n : Nat) => wf s F.FAB_P_STATE_REMAPPED n (if rf s F.FAB_P_STATE_PHYS n = n then 0 else 1)
  mark (mark s a) b

/-- The port of a swapped pair with `n`: its neighbour fits the plan of `n`, and the other way round. -/
def swapPartner (s : State) (e : List Byte) (n : Nat) : Option Nat :=
  (List.range 24).find? fun b => b != n && linked s b && nbrFits s e n b && nbrFits s e b n

/-- Check a port against the plan (R279, R280). -/
def checkPort (s : State) (n : Nat) : State :=
  match s.fab.plan with
  | none => cableResult s n 7
  | some e =>
    if (planFor e n).1 = 0 then cableResult s n 6
    else if nbrFits s e n n then cableResult s n (if rb s F.FAB_P_STATE_REMAPPED n then 4 else 1)
    else
      match swapPartner s e n with
      | some b =>
        if !((planFor e n).2.2 && (planFor e b).2.2) then cableResult (cableResult s n 5) b 5
        else if (nbrOf s n).1 ≠ (nbrOf s b).1 ∨ Config.serial < (nbrOf s n).1 then
          let s := remapPorts s n b
          let s := sendIdent (sendIdent s n true) b true
          cableResult (cableResult s n 4) b 4
        else
          let s := setPort s n { getPort s n with waiting := true }
          setPort s b { getPort s b with waiting := true }
      | none =>
        if (nbrOf s n).1 = (planFor e n).1 then setPort s n { getPort s n with waiting := true }
        else cableResult s n 3

/-- Check every UP and QUARANTINED port again, when a plan arrives or changes (R279). -/
def recheckPorts (s : State) : State :=
  (List.range 24).foldl (fun s n =>
    if lstate s n = 3 ∨ lstate s n = 4 then checkPort (wf s F.FAB_P_STATE_CABLE n 0) n else s) s

/-- A training or the IDENT exchange failed where the plan expects a neighbour: MISSING (R279). -/
def cableMissing (s : State) (n : Nat) : State :=
  if s.fab.plan.any (fun e => (planFor e n).1 != 0) then portEv (wf s F.FAB_P_STATE_CABLE n 2) n F.FAB_P_EVENT_CABLE 2 else s

/-- The retests of a port that its training decides (R387). -/
def portRetests (s : State) (n : Nat) (sigs : List Nat) (pass : Bool) : State :=
  sigs.foldl (fun s sig => if s.fh.retests.contains (4, n, sig) then retestEnd s 4 n sig pass else s) s

/-- PHY_TRAIN_END (R263, R270, R277). -/
def execPhyTrainEnd (port : Nat) (ok : Bool) (s : State) : Host.Outcome State Fault Refusal :=
  if !hubUp s then .next s else
  let n := port
  let fails := rf s F.FAB_P_STATE_FAILS n
  if 1 < lstate s n ∨ 3 ≤ fails ∨ !portEnabled s n then .next s
  else if ok then
    let s := setPort s n { getPort s n with own := credRegs s n, txSeq := 0, rxSeq := 0 }
    let s := setLstate (wf s F.FAB_P_STATE_FAILS n 0) n 2
    .next (portRetests s n [0x20, 0x21, 0x22] true)
  else
    let s := wf (setLstate s n 0) F.FAB_P_STATE_FAILS n (fails + 1)
    let s := raise s E.FAB_LINK_DOWN (U.port n) 0 0
    let s := cableMissing s n
    let s := portRetests (fhReport s 4 n 0x22 true CperInfo.plain) n [0x20] false
    if fails + 1 = 3 then .next (portRetests (ev s F.FAB_P_EVENT_RETRAIN_GIVEUP n) n [0x21, 0x22] false) else .next s

/-- IDENT_SEND (R277). -/
def execIdentSend (port : Nat) (s : State) : Host.Outcome State Fault Refusal :=
  if lstate s port = 2 ∨ lstate s port = 4 then .next (sendIdent s port false) else .next s

/-- IDENT_TIMEOUT (R277). -/
def execIdentTimeout (port : Nat) (s : State) : Host.Outcome State Fault Refusal :=
  if lstate s port = 2 ∧ ¬ (getPort s port).waiting then .next (cableMissing (setLstate s port 0) port) else .next s

/-- IDENT_RECEIVE (R278 to R280): the neighbour's data are taken, and the port is checked. -/
def execIdentReceive (port : Nat) (ident : Ident) (s : State) : Host.Outcome State Fault Refusal :=
  if !hubUp s then .next s else
  if !linked s port then .next s
  else
    let s := wf2 s F.FAB_P_NBR_SERIAL_LO_SERIAL F.FAB_P_NBR_SERIAL_HI_SERIAL port ident.serial
    let s := wf (wf (wf s F.FAB_P_NBR_INFO_PORT port ident.port) F.FAB_P_NBR_INFO_ASSIGNED port (b2n ident.assigned)) F.FAB_P_NBR_INFO_COORD port ident.coord
    let s := if lstate s port = 3 then s else setPort s port { getPort s port with nbr := padCred ident.cred }
    .next (checkPort s port)
where
  /-- Six advertised pairs. -/
  padCred (l : List (Nat × Nat)) : List (Nat × Nat) := (l ++ List.replicate 6 (0, 0)).take 6

/-- RECHECK_TIMEOUT (R280). -/
def execRecheckTimeout (port : Nat) (s : State) : Host.Outcome State Fault Refusal :=
  if (getPort s port).waiting then .next (cableResult s port 3) else .next s

/-! ### Retry (R267, R268) -/

/-- Start a replay from the oldest block held, or take the link down when the oldest has been replayed often enough (R268). -/
def startReplay (s : State) (n : Nat) : State :=
  let p := getPort s n
  if p.retry.isEmpty then s
  else if max 1 (rf s F.FAB_CTRL_REPLAY_LIMIT 0) ≤ p.replays then
    portDown (ev s F.FAB_P_EVENT_REPLAY_EXHAUST n) n true (retrainState s n)
  else
    let again := p.retry.map fun b => mkBlock p b.seq b.slots b.info false true false
    bumpIf (setPort s n { p with wire := p.wire ++ again, replays := p.replays + 1 }) F.FAB_CTRL_CNT_EN F.FAB_P_REPLAYS_LO_COUNT n again.length

/-- REPLAY_TIMEOUT (R268). -/
def execReplayTimeout (port : Nat) (s : State) : Host.Outcome State Fault Refusal :=
  if linked s port then .next (startReplay s port) else .next s

/-- An ACK passes the blocks before it (R268). -/
def takeAck (p : PortSt) (ack : Nat) : PortSt :=
  let k := match p.retry with
    | [] => 0
    | b :: _ => (ack + 4096 - b.seq) % 4096
  if k ≤ p.retry.length ∧ k ≠ 0 then { p with retry := p.retry.drop k, replays := 0 } else p

/-- Credit counters of a trailer (R265). -/
def takeCredits (p : PortSt) (c : Nat) : PortSt :=
  (List.range 6).foldl (fun p v =>
    let now := (bits (12 * v + 11) (12 * v) c, bits (12 * v + 83) (12 * v + 72) c)
    let was := vcAt p.seen v
    let u := vcAt p.used v
    { p with
      seen := vcSet p.seen v now
      used := vcSet p.used v (u.1 - (now.1 + 4096 - was.1) % 4096, u.2 - (now.2 + 4096 - was.2) % 4096) }) p

/-- Flits of a run by pool: private, shared. -/
def poolCounts (l : List (List Byte × Bool)) : Nat × Nat := ((l.filter fun e => !e.2).length, (l.filter (·.2)).length)

/-- A packet is dropped in the input buffer: its flits are freed, and it is counted as MALFORMED. -/
def malformed (s : State) (n vc : Nat) (l : List (List Byte × Bool)) : State :=
  let c := poolCounts l
  portDrop (setPort s n (freeFlits (getPort s n) vc c.1 c.2)) n 2 1

/-- One flit of an accepted block (R266). VC5 carries IDENT flits, whose content is IDENT_RECEIVE's. -/
def takeFlit (s : State) (n : Nat) (flit : List Byte) (info : Nat) : State :=
  let vc := bits 2 0 info
  let pool := bit 3 info
  if vc = 7 then s
  else
    let s := bumpIf s F.FAB_CTRL_CNT_EN F.FAB_P_RX_FLITS_LO_COUNT n 1
    if vc = 5 then setPort s n (freeFlits (getPort s n) 5 (b2n !pool) (b2n pool))
    else if vc = 6 ∨ lstate s n ≠ 3 then malformed s n vc [(flit, pool)]
    else
      let held := (aget (getPort s n).part vc).getD []
      let head := bit 4 info
      if !head && held.isEmpty then malformed s n vc [(flit, pool)]
      else
        let s := if head && !held.isEmpty then malformed s n vc held else s
        let run := (if head then [] else held) ++ [(flit, pool)]
        let p := getPort s n
        if !bit 5 info then setPort s n { p with part := aput p.part vc run }
        else
          let pkt := packetOf (run.flatMap (·.1))
          let s := setPort s n { p with part := adel p.part vc }
          if packetOk pkt vc && run.length == flitsOf pkt then
            let c := poolCounts run
            let p := getPort s n
            setPort s n { p with inq := p.inq ++ [⟨vc, c.1, c.2, pkt⟩] }
          else malformed s n vc run

/-- A block error enters the window of 60 s (R275). -/
def blockError (s : State) (n : Nat) : State :=
  let p := getPort s n
  let errs := p.errs.filter (fun t => decide (tick s < t + 60000000)) ++ [tick s]
  let s := setPort s n { p with errs := errs }
  if errs.length = 7 then
    fhReport (raise (warnTrigger (portEv s n F.FAB_P_EVENT_BER_DEGRADED 3) 3) E.BER_DEGRADED (U.port n) 0 0) 4 n 0x20 true CperInfo.plain
  else s

/-- A block that is not accepted (R267): one NAK goes out until a block with RETRY arrives. -/
def blockRefused (s : State) (n : Nat) (nak : Bool) : State :=
  let s := bumpIf s F.FAB_CTRL_CNT_EN F.FAB_P_BLOCK_ERR_LO_COUNT n 1
  let p := getPort s n
  if nak && !p.discard then setPort s n (sendIdle { p with discard := true } true) else s

/-- LINK_BLOCK_RECEIVE (R265 to R268). -/
def execLinkBlockReceive (port : Nat) (fecOk : Bool) (corrected : Nat) (block : LinkBlock) (s : State) : Host.Outcome State Fault Refusal :=
  if !hubUp s then .next s else
  if !linked s port then .next s
  else
    let n := port
    let s := bumpIf s F.FAB_CTRL_CNT_EN F.FAB_P_FEC_CORR_LO_COUNT n corrected
    let t := block.trailer
    let w := fieldLE 0 2 t
    let idle := bit 12 w
    let retry := bit 13 w
    let p := getPort s n
    let p := { p with discard := p.discard && !retry }
    let s := setPort s n p
    let sound := fecOk && fieldLE 0x1C 4 t == crc32 (block.slots.flatten ++ t.take 0x1C)
    let inSeq := bits 11 0 w == p.rxSeq
    let s := if sound then s else blockError s n
    if !sound || !inSeq || p.discard then .next (blockRefused s n (!idle || (sound && !inSeq)))
    else
      let p := getPort s n
      let p := takeCredits (takeAck { p with rxSeq := if idle then p.rxSeq else (p.rxSeq + 1) % 4096 } (bits 11 0 (fieldLE 2 2 t))) (fieldLE 0x0A 18 t)
      let s := setPort s n p
      let info := fieldLE 4 6 t
      let s := if idle then s
        else (block.slots.zip (List.range 8)).foldl (fun s e => takeFlit s n e.1 (bits (6 * e.2 + 5) (6 * e.2) info)) s
      let s := if idle then s else setPort s n (sendIdle (getPort s n) false)
      .next (if bit 14 w then startReplay s n else s)

end Sys2Proof.Machine
end

