-- ==== Sys2Proof/Machine/Grants.lean ====
section
/-! DEFINITION. What a grant admits (R447). -/

namespace Sys2Proof.Machine

/-- Does the held grant admit an action of the management requester? The grant names its operation, its argument and, where `dig` gives one, a digest; in the
cycle of its expiry it admits nothing. -/
def grantAdmits (s : State) (op arg : Nat) (dig : Option (List Byte)) : Bool :=
  match s.sec.grant with
  | none => false
  | some g => g.op == op && g.arg == arg && decide (s.time.now < g.expires) && (match dig with
    | none => true
    | some d => g.digest == d)

/-- The matching action consumes the grant. -/
def grantUse (s : State) : State := ev { s with sec := { s.sec with grant := none } } F.SEC_EVENT_GRANT_USED 0

/-- GRANT_EXPIRY (R447). -/
def execGrantExpiry (s : State) : Host.Outcome State Fault Refusal :=
  match s.sec.grant with
  | none => .next s
  | some g => if g.expires ≤ s.time.now then .next { s with sec := { s.sec with grant := none } } else .next s

end Sys2Proof.Machine
end

