-- ==== Sys2Proof/Machine/Box.lean ====
section
/-! DEFINITION. The slice box and the tree that joins its devices (R293, R300). -/

namespace Sys2Proof.Machine

/-- One axis of a coordinate X + 16Y + 256Z. -/
def axisOf (c a : Nat) : Nat := bits (4 * a + 3) (4 * a) c

/-- Box length along an axis, by RT_BOX_EXTENT. -/
def boxLen (s : State) (a : Nat) : Nat :=
  match a with
  | 0 => rf s F.RT_BOX_EXTENT_XLEN 0
  | 1 => rf s F.RT_BOX_EXTENT_YLEN 0
  | _ => rf s F.RT_BOX_EXTENT_ZLEN 0

/-- Torus dimension along an axis; 0 without a plan. -/
def boxDim (s : State) (a : Nat) : Nat :=
  match a with
  | 0 => rf s F.RT_DIMS_DX 0
  | 1 => rf s F.RT_DIMS_DY 0
  | _ => rf s F.RT_DIMS_DZ 0

/-- Devices of the box. -/
def boxCount (s : State) : Nat := boxLen s 0 * boxLen s 1 * boxLen s 2

/-- The device's coordinate as its address register holds it. -/
def coordReg (s : State) : Nat := rf s F.FAB_ADDR_COORD 0

/-- Position of a coordinate in the box along an axis (R299). -/
def posOf (s : State) (c a : Nat) : Nat :=
  let o := axisOf (rf s F.RT_BOX_ORIGIN_ORIGIN 0) a
  let d := boxDim s a
  if d = 0 then axisOf c a - o else (axisOf c a + d - o) % d

/-- RT_POS (R301). -/
def boxPos (s : State) : Nat := posOf s (coordReg s) 0 + 16 * posOf s (coordReg s) 1 + 256 * posOf s (coordReg s) 2

/-- The coordinate at a distance along an axis of the box from this device's. -/
def boxPeer (s : State) (a : Nat) (delta : Int) : Nat :=
  let d := boxDim s a
  let x := ((axisOf (coordReg s) a : Int) + delta) % (if d = 0 then 16 else (d : Int))
  putBits (4 * a + 3) (4 * a) x.toNat (coordReg s)

/-- Levels of the tree along a length: the powers of two below it. -/
def levelsOf (len : Nat) : List Nat := (List.range 4).filter fun j => decide (2 ^ j < len)

/-- All levels of the tree, X then Y then Z: axis, power (R335). -/
def treeLevels (s : State) : List (Nat × Nat) := (List.range 3).flatMap fun a => (levelsOf (boxLen s a)).map fun j => (a, j)

/-- What this device does at a level: receives from a partner, sends to one, or neither. -/
inductive TreeAct where
  | recv (peer : Nat)
  | send (peer : Nat)
  | skip
  deriving DecidableEq, Repr

/-- The device's part at a level of the tree (R300): positions off the start of an earlier axis have sent already. -/
def treeAct (s : State) (a j : Nat) : TreeAct :=
  let p := posOf s (coordReg s) a
  if (List.range a).any (fun b => posOf s (coordReg s) b != 0) then .skip
  else if p % 2 ^ (j + 1) = 0 then (if p + 2 ^ j < boxLen s a then .recv (boxPeer s a (2 ^ j : Nat)) else .skip)
  else if p % 2 ^ j = 0 then .send (boxPeer s a (-(2 ^ j : Nat) : Int))
  else .skip

/-- The device's children in the tree. -/
def treeChildren (s : State) : List Nat :=
  (treeLevels s).filterMap fun e => match treeAct s e.1 e.2 with
    | .recv c => some c
    | _ => none

/-- Is this device at box position 0? -/
def boxRoot (s : State) : Bool := (List.range 3).all fun a => posOf s (coordReg s) a == 0

/-- Does a box keep the rules of R293 and hold the device's own coordinate? -/
def boxOk (s : State) : Bool :=
  (List.range 3).all fun a =>
    let l := boxLen s a
    let d := boxDim s a
    let o := axisOf (rf s F.RT_BOX_ORIGIN_ORIGIN 0) a
    let wrap := bit a (rf s F.RT_BOX_EXTENT_WRAP 0)
    decide (1 ≤ l ∧ l ≤ 16) && decide (l ≤ d ∧ o < d) && (!wrap || l == d) && (decide (o + l ≤ d) || l == d) &&
      decide (posOf s (coordReg s) a < l)

/-- Does the device at a coordinate lie in the slice box (R289)? -/
def inBox (s : State) (c : Nat) : Bool := (List.range 3).all fun a => decide (posOf s c a < boxLen s a)

end Sys2Proof.Machine
end

