-- ==== Sys2Proof/Machine/StepReplay.lean ====
section
/-! DEFINITION. The step-replay engine's commands, the commit vote, replay in place and the weight digests (R326 to R344; readings: log 25). -/

namespace Sys2Proof.Machine

/-- Refuse a step-replay command (R326). -/
def srRefuse (s : State) (reason : Nat) : State := ev (wf s F.HUB_SR_INFO_REFUSE 0 reason) F.HUB_SR_EVENT_REFUSED 0

/-- Oldest step that is not CLOSED. -/
def oldestStep (s : State) : Option Step := s.sr.steps.head?

/-- The job epoch. -/
def epoch (s : State) : Nat := rf s F.HUB_SR_EPOCH_EPOCH 0

/-! ### OPEN (R327, R330) -/

/-- Fields of a step plan: byte, lowest bit, width. -/
def planFields : List (Nat × Nat × Nat) :=
  [(0x00, 0, 8), (0x08, 0, 48)] ++ (List.range 8).map (fun i => (0x10 + 8 * i, 0, 64)) ++ [(0x50, 0, 3)] ++
    (List.range 4).flatMap (fun i => [(0x58 + 16 * i, 0, 50), (0x60 + 16 * i, 0, 32)]) ++
    [(0x98, 0, 48), (0xA0, 0, 48), (0xA8, 0, 10), (0xB0, 0, 48)]

/-- Is a step plan valid (R330)? -/
def planOk (s : State) (p : List Byte) : Bool :=
  fieldLE 0 1 p == 1 && reservedZero p planFields && decide (bits 2 0 (fieldLE 0x50 1 p) ≤ 4) &&
    (planIns p).all fun e =>
      e.2.2 % 32 == 0 && (e.2.1 == 2 || (e.2.1 == 1 && inMemory s e.1 e.2.2))

/-- Step number of a plan. -/
def planStep (p : List Byte) : Nat := bits 47 0 (fieldLE 8 8 p)

/-- A plan that has been read is accepted or refused (R327, R330). -/
def srAccept (r : State × List Byte) : State :=
  let s := r.1
  let p := r.2
  let n := planStep p
  if !planOk s p then srRefuse s 2
  else if (s.sr.opened ∧ n ≠ s.sr.last + 1) ∨ 2 ^ 48 - 1 ≤ n then srRefuse s 3
  else if s.sr.steps.any (fun t => panSlotNo s t.step == panSlotNo s n) ∨ panSlotSize s < 0x4000 + packedLen p then srRefuse s 4
  else
    let t : Step :=
      { step := n, state := 0, attempt := 0, gen := 0, causes := 0, failTick := none, sealTick := none, reported := false
        awaits := false, stream := 0, plan := p, cidx := [], copying := false }
    { s with sr := { s.sr with steps := s.sr.steps ++ [t], opened := true, last := n } }

/-- OPEN: the plan is accepted, and the next fetch opens the step (R326, R327). -/
def srOpen (s : State) : State :=
  let a := rf2 s F.HUB_SR_PLAN_LO_ADDR F.HUB_SR_PLAN_HI_ADDR 0
  let free := match s.sr.steps with
    | [] => true
    | [t] => t.state == 2
    | _ => false
  if !jobActive s || !free then srRefuse s 1
  else if a % 64 ≠ 0 ∨ !inMemory s a 256 then srRefuse s 2
  else srAccept (hubRead s a 256)

/-- PANNIER_COPY_DONE (R333): the host extents have been read; the copy ends. -/
def execPannierCopyDone (s : State) : Host.Outcome State Fault Refusal :=
  let busy := (s.host.reads ++ s.host.waiting).any fun r => match r.use with
    | .pannier _ => true
    | _ => false
  match s.sr.steps.find? (fun t => t.copying) with
  | some t => .next (if busy then s else pannierCopied s t)
  | none => .next s

/-! ### The vote (R335 to R338) -/

/-- Device address of line `k` of the vote area; the same slice holds it on every device of the slice. -/
def voteArea (s : State) (k : Nat) : Nat := 0x20000000000 + rf s F.HUB_SR_CTRL_VOTE_PTN 0 * 2 ^ 24 + 128 * k

/-- Send a line to a device's vote area (R335). -/
def sendLine (s : State) (peer k : Nat) (line : List Byte) : State :=
  match ownCoord s with
  | none => s
  | some _ =>
    let p := { ownPacket s peer 0 0 with plen := 4, addr := voteArea s k, core := 511, payload := line }
    inject s (tileOf (rf s F.HUB_SR_CTRL_VOTE_PTN 0)) p

/-- A line of the vote. -/
def voteBytes (step ep att : Nat) (result commit : Bool) (devices failed causes first : Nat) : List Byte :=
  padTo 128 (toLE 8 step ++ toLE 4 ep ++ toLE 4 (att + 2 ^ 8 + b2n result * 2 ^ 16 + b2n commit * 2 ^ 17) ++ toLE 4 devices ++
    toLE 4 failed ++ toLE 4 causes ++ toLE 4 first)

/-- STEP, EPOCH and ATTEMPT of a line. -/
def lineId (l : List Byte) : Nat × Nat × Nat := (bits 47 0 (fieldLE 0 8 l), fieldLE 8 4 l, bits 3 0 (fieldLE 12 4 l))

/-- DEVICES, FAILED, CAUSES, FIRST of a line. -/
def lineDevices (l : List Byte) : Nat := fieldLE 0x10 2 l
def lineFailed (l : List Byte) : Nat := fieldLE 0x14 2 l
def lineCauses (l : List Byte) : Nat := fieldLE 0x18 2 l
def lineFirst (l : List Byte) : Nat := bits 11 0 (fieldLE 0x1C 2 l)

/-- Combine the own line with a partner's (R335). -/
def combineLines (own l : List Byte) : List Byte :=
  let id := lineId own
  let odd := lineId l != id
  voteBytes id.1 id.2.1 id.2.2 false false ((lineDevices own + lineDevices l) % 2 ^ 16)
    ((lineFailed own + lineFailed l + b2n odd) % 2 ^ 16) ((lineCauses own ||| lineCauses l) ||| (if odd then 2 ^ 7 else 0))
    (min (lineFirst own) (lineFirst l))

/-- Identity of a step in the vote. -/
def stepId (s : State) (t : Step) : Nat × Nat × Nat := (t.step, epoch s, t.attempt)

/-- A verdict reaches the step that awaits one (R336, R337). `first` is none where the verdict brings no FIRST. -/
def applyResult (s : State) (commit : Bool) (causes : Nat) (first : Option Nat) : State :=
  match s.sr.steps.find? (fun t => t.awaits) with
  | none => s
  | some t =>
    if commit ∧ t.state = 2 then
      let s := putStep s { t with state := 3, awaits := false }
      let s := releaseFlag { s with sr := { s.sr with heldFlag := true } }
      ev (bumpIf s F.HUB_SR_CTRL_CNT_EN F.HUB_SR_COMMITS_LO_COUNT 0 1) F.HUB_SR_EVENT_COMMITTED 0
    else
      let s := putStep s { t with state := 5, awaits := false }
      let s := { s with sr := { s.sr with steps := s.sr.steps.map fun u => if u.state = 1 then { u with state := 5 } else u } }
      let s := wf s F.HUB_SR_INFO_CAUSES 0 causes
      let s := match first with
        | some f => wf s F.HUB_SR_INFO_FIRST 0 f
        | none => s
      ev s F.HUB_SR_EVENT_FAILED 0

/-- The line is whole at box position 0: the result goes down the tree and acts here (R336). -/
def rootResult (s : State) (l : List Byte) : State :=
  let commit := lineDevices l == boxCount s && lineFailed l == 0 && lineCauses l == 0
  let id := lineId l
  let r := voteBytes id.1 id.2.1 id.2.2 true commit (lineDevices l) (lineFailed l) (lineCauses l) (lineFirst l)
  let s := (treeChildren s).foldl (fun s c => sendLine s c 15 r) s
  applyResult s commit (lineCauses l) (some (lineFirst l))

/-- Go on combining from a level of the tree (R335). -/
def voteRun : Nat → State → State
  | 0, s => s
  | fuel + 1, s =>
    match s.sr.vote with
    | none => s
    | some (k, own) =>
      match (treeLevels s)[k]? with
      | none =>
        let s := { s with sr := { s.sr with vote := none } }
        if boxRoot s then rootResult s own else s
      | some (a, j) =>
        match treeAct s a j with
        | .skip => voteRun fuel { s with sr := { s.sr with vote := some (k + 1, own) } }
        | .send peer => sendLine { s with sr := { s.sr with vote := none } } peer k own
        | .recv _ =>
          match aget s.sr.lines k with
          | none => s
          | some l =>
            voteRun fuel { s with sr := { s.sr with vote := some (k + 1, combineLines own l), lines := adel s.sr.lines k } }

/-- The tree has at most twelve levels. -/
def voteGo (s : State) : State := voteRun 13 s

/-- Take the device's report for a sealed step and send it (R335, R337). -/
def takeReport (s : State) (t : Step) : State :=
  let s := putStep s { t with reported := true }
  let s := if t.causes = 0 then s else wf s F.HUB_SR_INFO_CAUSES 0 t.causes
  let id := stepId s t
  let bad := t.causes != 0
  let l := voteBytes id.1 id.2.1 id.2.2 false false 1 (b2n bad) t.causes (if bad then coordReg s else 0xFFF)
  voteGo { s with sr := { s.sr with vote := some (0, l) } }

/-- At the end of a tick the reports of the steps sealed in it are taken (R328, log 25). -/
def sealReports (s : State) : State :=
  match s.sr.steps.find? (fun t => t.sealTick == some (tick s) && !t.reported) with
  | some t => takeReport s t
  | none => s

/-- A partner's line arrives (R335). -/
def lineArrive (s : State) (k : Nat) (l : List Byte) : State := voteGo { s with sr := { s.sr with lines := aput s.sr.lines k l } }

/-- A result line arrives (R336): it goes on to the children, and acts here unless RESOLVE has ended its vote (R338). -/
def resultArrive (s : State) (l : List Byte) : State :=
  let s := (treeChildren s).foldl (fun s c => sendLine s c 15 l) s
  let ended := s.sr.resolved == some (lineId l) && !(s.sr.steps.any fun t => t.awaits && stepId s t == lineId l)
  if !bit 16 (fieldLE 12 4 l) || ended then s
  else applyResult s (bit 17 (fieldLE 12 4 l)) (lineCauses l) (some (lineFirst l))

/-- A line that a hub-engine write brought into the vote area acts by its place (R335, R336). -/
def voteArrive (s : State) (k : Nat) (l : List Byte) : State :=
  if k = 15 then resultArrive s l else if k < 15 then lineArrive s k l else s

/-- VOTE_LINE (R335). -/
def execVoteLine (level : Nat) (line : List Byte) (s : State) : Host.Outcome State Fault Refusal :=
  if !hubUp s then .next s else
  if 15 ≤ level then .next s else .next (lineArrive (hubWrite s (voteArea s level) (padTo 128 line)) level (padTo 128 line))

/-- VOTE_RESULT (R336). -/
def execVoteResult (line : List Byte) (s : State) : Host.Outcome State Fault Refusal :=
  if !hubUp s then .next s else
  .next (resultArrive (hubWrite s (voteArea s 15) (padTo 128 line)) (padTo 128 line))

/-- VOTE_TIMEOUT_US in microseconds. -/
def voteTicks (s : State) : Nat :=
  match rf s F.HUB_SR_CTRL_VOTE_TIMEOUT_US 0 with
  | 0 => 500
  | 1 => 1000
  | 2 => 2000
  | _ => 8000

/-- VOTE_TIMEOUT (R338): only the event; the step stays as it is. -/
def execVoteTimeout (s : State) : Host.Outcome State Fault Refusal :=
  let due := s.sr.steps.any fun t => t.awaits && (match t.sealTick with
    | some k => decide (k + voteTicks s ≤ tick s)
    | none => false)
  .next (if due then ev s F.HUB_SR_EVENT_VOTE_TIMEOUT 0 else s)

/-! ### SEAL, RESOLVE, CLOSE (R326 to R338) -/

/-- CHECK of a slot (R332). -/
def slotCheck (s : State) (t : Step) : State × List Byte :=
  let h := hubRead s (panSlot s t.step) 0x2180
  let d := hubRead h.1 (panSlot h.1 t.step + 0x4000) (packedLen t.plan)
  (d.1, shake (h.2.take 0xA0 ++ h.2.drop 0x100 ++ d.2) 16)

/-- A step that SEAL takes: OPEN, or FAILED while OPEN with no report sent (R337). -/
def sealable (t : Step) : Bool := t.state == 1 || (t.state == 5 && t.sealTick.isNone)

/-- The stream hash goes into the slot; answers whether a replay changed it (R334). -/
def stampStream (s : State) (t : Step) : State × Bool :=
  let at_ := panSlot s t.step + 0xA0
  let old := hubRead s at_ 16
  (hubWrite old.1 at_ (toLE 16 t.stream), decide (0 < t.attempt) && ofLE old.2 != t.stream)

/-- A CHECK that has been formed goes into its slot (R332). -/
def putCheck (c : State × List Byte) (t : Step) : State := hubWrite c.1 (panSlot c.1 t.step + 0xB0) c.2

/-- A step whose slot is stamped becomes SEALED, or stays FAILED, and awaits its result (R327, R335, R337). -/
def sealStep (r : State × Bool) (t : Step) : State :=
  let s := putCheck (slotCheck r.1 t) t
  let s := if r.2 then ev s F.HUB_SR_EVENT_STREAM_CHANGED 0 else s
  let strict := r.2 && rb s F.HUB_SR_CTRL_STREAM_STRICT 0
  { s with sr := { s.sr with steps := s.sr.steps.map fun u =>
      if u.step = t.step then
        { u with state := if u.state = 1 then 2 else u.state, causes := u.causes ||| (if strict then 2 ^ 6 else 0)
                 sealTick := some (tick s), awaits := true }
      else u } }

/-- SEAL (R327, R332, R334, R335, R337). -/
def srSeal (s : State) : State :=
  match oldestStep s with
  | none => srRefuse s 1
  | some t =>
    let p := rf s F.HUB_SR_CTRL_VOTE_PTN 0
    if !sealable t then srRefuse s 1
    else if 19 < p ∨ pinLive s p = 0 then srRefuse s 5
    else sealStep (stampStream (hubWrite s (panSlot s t.step + 0x0E) (toLE 2 t.attempt)) t) t

/-- RESOLVE_COMMIT and RESOLVE_FAIL (R338). -/
def srResolve (s : State) (commit : Bool) : State :=
  match s.sr.steps.find? (fun t => t.awaits) with
  | none => srRefuse s 9
  | some t => applyResult { s with sr := { s.sr with resolved := some (stepId s t) } } commit t.causes none

/-- CLOSE (R326, R329, R342, R362). -/
def srClose (s : State) : State :=
  match oldestStep s with
  | none => srRefuse s 1
  | some t =>
    if t.state ≠ 3 then srRefuse s 1
    else
      let gen := (rf s F.HUB_SR_GEN_GEN 0 + 1) % 2 ^ 16
      let s := clearCommitFlags (wf s F.HUB_SR_GEN_GEN 0 gen)
      let n := rf s F.HUB_SR_CTRL_DIGEST_INTERVAL 0
      let dig := if n ≠ 0 ∧ t.step % n = 0 ∧ bits 47 0 (fieldLE 0x98 8 t.plan) ≠ 0 then some (t.plan, t.step, gen) else s.sr.digest
      captureAtClose { s with sr := { s.sr with steps := s.sr.steps.drop 1, lastClosed := some t.step, heldFlag := false, digest := dig } }

/-! ### Replay in place (R337, R339) -/

/-- Are the rings and the queues of every active core at rest? -/
def coresQuiet (s : State) : Bool :=
  (activeCores s).all fun g => (List.range 8).all fun q =>
    ringState s (8 * logical s g + q) != 1 && (queueState s g q == 0 || queueState s g q == 4)

/-- Inputs of a slot are copied back to the plan's extents. -/
def inputsBack (s : State) (t : Step) : State :=
  (packedIns t.plan).foldl (fun s e =>
    let r := hubRead s (panSlot s t.step + e.1) e.2.2.2
    if e.2.2.1 = 1 then hubWrite r.1 e.2.1 r.2 else hostWrite r.1 e.2.1 r.2) s

/-- The step of a slot's header opens again (R339). -/
def replayOpen (r : State × List Byte) (t : Step) : State :=
  let h := r.2
  let table := (List.range 2080).filterMap fun r =>
    let v := fieldLE (0x100 + 4 * r) 4 h
    if v = 0 then none else some (r, v)
  let s := loadSeeds r.1 (seedsOf h)
  let s := (List.range 2080).foldl (fun s r => wf s F.HQ_RING_CIDX_CIDX r (cidxIn table r)) s
  let u : Step :=
    { t with state := 1, attempt := (t.attempt + 1) % 16, causes := 0, failTick := none, sealTick := none, reported := false
             awaits := false, stream := 0, cidx := table, copying := false }
  let s := { s with sr := { s.sr with steps := [u], last := t.step } }
  let s := wf2 (wf s F.HUB_SR_STATUS_ATTEMPT 0 u.attempt) F.HUB_SR_STEP_LO_STEP F.HUB_SR_STEP_HI_STEP 0 t.step
  ev (bumpIf s F.HUB_SR_CTRL_CNT_EN F.HUB_SR_REPLAYS_LO_COUNT 0 1) F.HUB_SR_EVENT_REPLAY_READY 0

/-- The inputs go back and the step opens again (R339). -/
def replayLoad (s : State) (t : Step) : State := replayOpen (hubRead s (panSlot s t.step) 0x2180) t

/-- The slot's CHECK as formed again and as it was stored (R339). -/
def replayWith (c was : State × List Byte) (t : Step) : State :=
  if c.2 ≠ was.2 then srRefuse was.1 8 else replayLoad (inputsBack was.1 t) t

/-- A CHECK that has been formed is compared with the slot's (R339). -/
def replayCheck (c : State × List Byte) (t : Step) : State := replayWith c (hubRead c.1 (panSlot c.1 t.step + 0xB0) 16) t

/-- REPLAY (R339). -/
def srReplay (s : State) : State :=
  match oldestStep s with
  | none => srRefuse s 1
  | some t =>
    if t.state ≠ 5 ∨ t.awaits ∨ t.sealTick.isNone then srRefuse s 1
    else if !coresQuiet s then srRefuse s 6
    else if rf s F.HUB_SR_CTRL_REPLAY_LIMIT 0 ≤ t.attempt then srRefuse s 7
    else replayCheck (slotCheck s t) t

/-! ### Weight digests (R342, R343) -/

/-- 4 KiB blocks of a run of bytes, the last perhaps shorter. -/
def blocks4k (l : List Byte) : List (List Byte) := (List.range (ceilDiv l.length 4096)).map fun i => slice (4096 * i) (min 4096 (l.length - 4096 * i)) l

/-- Digest of a shard's bytes. -/
def digestOf (l : List Byte) : Nat :=
  ((blocks4k l).zip (List.range (ceilDiv l.length 4096))).foldl (fun n e => (n + ofLE (shake (toLE 8 e.2 ++ e.1) 16)) % 2 ^ 128) 0

/-- Bytes of a run of extents of a digest list. -/
def extentBytes (s : State) (list : List Byte) (first n : Nat) : State × List Byte :=
  (span first n).foldl (fun acc i =>
    let r := hubRead acc.1 (bits 47 0 (fieldLE (0x10 + 16 * i) 8 list)) (fieldLE (0x18 + 16 * i) 4 list)
    (r.1, acc.2 ++ r.2)) (s, [])

/-- Form both digests of a list that has been read and write the record (R342). -/
def formDigest (r : State × List Byte) (plan : List Byte) (step gen : Nat) : State :=
  let list := r.2
  let own := bits 6 0 (fieldLE 4 1 list)
  let a := extentBytes r.1 list 0 own
  let b := extentBytes a.1 list own (bits 6 0 (fieldLE 5 1 list))
  let s := b.1
  let d := toLE 8 step ++ toLE 4 (epoch s) ++ toLE 2 gen ++ toLE 2 (coordReg s) ++ slice 0 4 list ++ List.replicate 12 0 ++
    toLE 16 (digestOf a.2) ++ toLE 16 (digestOf b.2)
  let s := hubWrite s (bits 47 0 (fieldLE 0xB0 8 plan)) d
  ev { s with sr := { s.sr with digest := none, digested := some (plan, d) } } F.HUB_SR_EVENT_DIG_DONE 0

/-- DIG_DONE (R342): both digests are formed from the list, the record is written, and a held commit flag is set. -/
def execDigDone (s : State) : Host.Outcome State Fault Refusal :=
  match s.sr.digest with
  | none => .next s
  | some (plan, step, gen) => .next (releaseFlag (formDigest (hubRead s (bits 47 0 (fieldLE 0x98 8 plan)) 0x810) plan step gen))

/-- The digest of a shard in a record of R342. -/
def shardDigest (r : List Byte) (shard : Nat) : Option (List Byte) :=
  if shard = fieldLE 0x10 2 r then some (slice 0x20 16 r)
  else if shard = fieldLE 0x12 2 r ∧ shard ≠ 0xFFFF then some (slice 0x30 16 r) else none

/-- Matches and mismatches of an inbox record against the device's own (R343). -/
def compareRecord (own r : List Byte) : Nat × Nat :=
  if slice 0 8 r ≠ slice 0 8 own ∨ slice 8 4 r ≠ slice 8 4 own then (0, 1)
  else
    let pairs := [(fieldLE 0x10 2 r, slice 0x20 16 r)] ++ (if fieldLE 0x12 2 r = 0xFFFF then [] else [(fieldLE 0x12 2 r, slice 0x30 16 r)])
    let res := pairs.filterMap fun e => (shardDigest own e.1).map (· == e.2)
    ((res.filter id).length, (res.filter (!·)).length)

/-- Compare the `n` records of an inbox that has been read (R343). -/
def compareBox (r : State × List Byte) (own : List Byte) (n : Nat) : State :=
  let res := (List.range n).map fun i => (slice (64 * i) 64 r.2, compareRecord own (slice (64 * i) 64 r.2))
  let good := res.foldl (fun k e => k + e.2.1) 0
  let bad := res.foldl (fun k e => k + e.2.2) 0
  let first := match res.find? (fun e => e.2.2 != 0) with
    | some e => bits 11 0 (fieldLE 0x0E 2 e.1)
    | none => 0xFFF
  let s := wf (wf (wf r.1 F.HUB_SR_DIG_FIRST 0 first) F.HUB_SR_DIG_MATCHED 0 (min 1023 good)) F.HUB_SR_DIG_MISMATCHED 0 (min 1023 bad)
  if bad = 0 then s else ev s F.HUB_SR_EVENT_DIG_MISMATCH 0

/-- DIG_COMPARE (R343); refused with reason 1 while no digest has been formed (log 25). -/
def srDigCompare (s : State) : State :=
  match s.sr.digested with
  | none => srRefuse s 1
  | some (plan, own) =>
    let n := bits 9 0 (fieldLE 0xA8 2 plan)
    compareBox (hubRead s (bits 47 0 (fieldLE 0xA0 8 plan)) (64 * n)) own n

/-! ### HUB_SR_CMD (R326, R351) -/

/-- One command bit. -/
def srCommand (s : State) (b : Nat) : State :=
  match b with
  | 1 => srOpen s
  | 2 => srSeal s
  | 3 => srClose s
  | 4 => srReplay s
  | 5 => srResolve s true
  | 6 => srResolve s false
  | 7 => srDigCompare s
  | _ => s

/-- What the pulses of HUB_SR_CMD do, from bit 1 upward (log 25); with EN 0 all are refused. -/
def srCmdEffect (pulse : Word) (s : State) : State :=
  (span 1 7).foldl (fun s b =>
    if bit b pulse.toNat then (if rb s F.HUB_SR_CTRL_EN 0 then srCommand s b else srRefuse s 1) else s) s

/-- OPEN (R327). -/
def execStepOpen (req : Requester) (s : State) : Host.Outcome State Fault Refusal :=
  regCmd s req .hubSr 0 4 0x02 fun _ _ s => srCmdEffect 0x02 s
/-- SEAL (R326, R335, R337). -/
def execSeal (req : Requester) (s : State) : Host.Outcome State Fault Refusal :=
  regCmd s req .hubSr 0 4 0x04 fun _ _ s => srCmdEffect 0x04 s
/-- CLOSE (R326). -/
def execClose (req : Requester) (s : State) : Host.Outcome State Fault Refusal :=
  regCmd s req .hubSr 0 4 0x08 fun _ _ s => srCmdEffect 0x08 s
/-- REPLAY (R339). -/
def execReplay (req : Requester) (s : State) : Host.Outcome State Fault Refusal :=
  regCmd s req .hubSr 0 4 0x10 fun _ _ s => srCmdEffect 0x10 s
/-- RESOLVE_COMMIT (R338). -/
def execResolveCommit (req : Requester) (s : State) : Host.Outcome State Fault Refusal :=
  regCmd s req .hubSr 0 4 0x20 fun _ _ s => srCmdEffect 0x20 s
/-- RESOLVE_FAIL (R338). -/
def execResolveFail (req : Requester) (s : State) : Host.Outcome State Fault Refusal :=
  regCmd s req .hubSr 0 4 0x40 fun _ _ s => srCmdEffect 0x40 s
/-- DIG_COMPARE (R343). -/
def execDigCompare (req : Requester) (s : State) : Host.Outcome State Fault Refusal :=
  regCmd s req .hubSr 0 4 0x80 fun _ _ s => srCmdEffect 0x80 s

end Sys2Proof.Machine
end

