-- ==== Sys2Proof/Machine/TimeLedger.lean ====
section
/-! DEFINITION. The time base, its synchronisation, ledger ticks, the event ledger, the trace and snapshots (chapter 18; readings: log 27). -/

namespace Sys2Proof.Machine

/-! ### The end of a tick (R405 to R407, R411) -/

/-- Write one trace record into the ring in device memory (R411). -/
def traceWrite (s : State) (r : List Byte) : State :=
  let size := rf s F.LEDGER_TRACE_SIZE_MIB 0 * 2 ^ 20
  let stop := rb s F.LEDGER_CTRL_TRACE_STOP 0
  let wr := rf s F.LEDGER_TRACE_WR_OFFSET 0
  if size = 0 ∨ (size ≤ wr ∧ stop) then s
  else
    let wr := if size ≤ wr then 0 else wr
    let s := hubWrite s (rf2 s F.LEDGER_TRACE_BASE_LO_ADDR F.LEDGER_TRACE_BASE_HI_ADDR 0 + wr) r
    wf s F.LEDGER_TRACE_WR_OFFSET 0 (if wr + 16 = size ∧ !stop then 0 else wr + 16)

/-- The tick's trace records are written, in stamp order. -/
def traceFlush (s : State) : State :=
  s.ledger.trace.foldl traceWrite { s with ledger := { s.ledger with trace := [] } }

/-- The order key of R406: class, partition, local core, port-class index, channel or lane. -/
def LedgerRec.sortKey (r : LedgerRec) : Nat := (((r.cls * 32 + r.part) * 16 + r.core) * 64 + r.port) * 2048 + r.lane

/-- Put a record into the ledger (R407). -/
def ledgerPut (s : State) (r : LedgerRec) : State :=
  let t := rf s F.LEDGER_TAIL_COUNT 0
  let s := wf { s with ledger := { s.ledger with ring := aput s.ledger.ring (t % 4096) r } } F.LEDGER_TAIL_COUNT 0 ((t + 1) % 2 ^ 32)
  let s := bumpIf s F.LEDGER_CTRL_CNT_EN F.LEDGER_EVENTS_LO_COUNT 0 1
  let h := rf s F.LEDGER_HEAD_COUNT 0
  if 4096 < (t + 1 + 2 ^ 32 - h) % 2 ^ 32 then ev (wf s F.LEDGER_HEAD_COUNT 0 ((h + 1) % 2 ^ 32)) F.LEDGER_EVENT_OVF 0 else s

/-- The 32 bytes of a record (R407). -/
def LedgerRec.bytes (r : LedgerRec) : List Byte :=
  toLE 8 r.tick ++ toLE 4 (r.cls + r.kind * 2 ^ 4 + r.event * 2 ^ 8 + r.index * 2 ^ 16) ++ toLE 4 r.tag ++
    toLE 8 (r.step + r.attempt * 2 ^ 48 + b2n r.interlude * 2 ^ 52 + b2n r.transit * 2 ^ 53 + b2n r.unsync * 2 ^ 54) ++
    toLE 4 (r.order + r.aux % 2 ^ 16 * 2 ^ 16) ++ toLE 4 0

/-- A tick ends: its trace and its events are written, and the reports of steps sealed in it are taken (R328, R405 to R411). -/
def tickEnd (s : State) : State :=
  let s := sealReports (traceFlush s)
  let l := (sortBy LedgerRec.sortKey s.ledger.cur).mapIdx fun i r => { r with order := i }
  let s := l.foldl ledgerPut { s with ledger := { s.ledger with cur := [] } }
  { s with seqTicked := [], host := { s.host with polls := 0 } }

/-- Register cycles to the next tick boundary. -/
def cyclesToTick (s : State) : Nat :=
  let unit : Int := 14 * 10 ^ 9
  let left : Int := ((tick s + 1) * 1000 - s.time.now : Nat) * unit - s.time.acc
  let per : Int := 40 * (10 ^ 9 + sext 32 (rf s F.TIME_ADJ_ADJ 0))
  ((left + per - 1) / per).toNat

/-- LEDGER_TICK (R401, R405): the tick ends and register cycles pass until the next begins. Without the root no time passes, but for
P3, where the island keeps the time base running (R428). -/
def execLedgerTick (s : State) : Host.Outcome State Fault Refusal :=
  if s.power.inP3 then .next (runClock s (cyclesToTick s))
  else if !s.power.root then .next s
  else
    let n := cyclesToTick s
    .next (runClock (tickEnd s) n)

/-! ### Steps of the time base (R403, R405, R410) -/

/-- The time base takes a new value; a step back cancels a pending snapshot. -/
def stepTime (s : State) (now acc : Nat) : State :=
  let s := if now / 1000 = tick s then s else tickEnd s
  let back := decide (now < s.time.now ∨ (now = s.time.now ∧ acc < s.time.acc))
  let s := if back && s.ledger.snap.isSome then
      ev { s with ledger := { s.ledger with snap := none } } F.LEDGER_EVENT_SNAP_CANCELLED 0
    else s
  ev { s with time := { s.time with now := now, acc := acc } } F.TIME_EVENT_STEPPED 0

/-- What the HI write of TIME_SET does (R413). -/
def timeSetEffect (s : State) : State :=
  if rf s F.TIME_CTRL_ROLE 0 ≤ 1 then stepTime s (rf2 s F.TIME_SET_LO_VALUE F.TIME_SET_HI_VALUE 0) 0 else s

/-- TIME_SET (R413): the write of the upper half. -/
def execTimeSet (req : Requester) (value : Word) (s : State) : Host.Outcome State Fault Refusal :=
  regCmd (withHolding s req .time 0 0x4C) req .time 0 0x4C value fun _ _ s => timeSetEffect s

/-! ### Synchronisation (R402, R403) -/

/-- Simplify a fraction. -/
def Frac.norm (f : Frac) : Frac := ⟨f.num / (Nat.gcd f.num.natAbs f.den : Nat), f.den / Nat.gcd f.num.natAbs f.den⟩

def Frac.add (a b : Frac) : Frac := Frac.norm ⟨a.num * b.den + b.num * a.den, a.den * b.den⟩

/-- Clamp to the range of 100 ppm (R403). -/
def Frac.clamp (a : Frac) : Frac :=
  if 10 ^ 4 * a.num > a.den then ⟨1, 10 ^ 4⟩ else if 10 ^ 4 * a.num < -(a.den : Int) then ⟨-1, 10 ^ 4⟩ else a

/-- An integer for an exact quotient; where it falls between two, the manual does not tell which (log 27). -/
def roundFree (s : State) (num : Int) (den : Nat) : State × Int :=
  let q := num / den
  if num % den = 0 then (s, q)
  else
    let (v, s) := fresh s
    (s, q + (v % 2 : Nat))

/-- Write TIME_ADJ from a rate. -/
def setAdj (s : State) (r : Frac) : State :=
  let (s, v) := roundFree s (r.num * 10 ^ 9) r.den
  wf s F.TIME_ADJ_ADJ 0 (unsext 32 v)

/-- Saturate to a 32-bit two's complement field. -/
def sat32 (i : Int) : Nat := unsext 32 (max (-(2 ^ 31)) (min (2 ^ 31 - 1) i))

/-- The exchange interval in ns. -/
def syncInterval (s : State) : Nat := max 1 (rf s F.TIME_CTRL_INTERVAL_MS 0) * 1000000

/-- Apply an offset, given as twice its value (R403). -/
def applyOffset (s : State) (o2 : Int) : State :=
  let stepNs : Int := max 1 (rf s F.TIME_CTRL_STEP_NS 0)
  let big := decide (2 * stepNs < o2.natAbs)
  if big ∧ (¬ locked s ∨ 0 < o2) then
    let unit : Int := 14 * 10 ^ 9
    let t : Int := s.time.now * unit + s.time.acc + o2 * (unit / 2)
    stepTime s ((t / unit) % 2 ^ 64).toNat (t % unit).toNat
  else if big then setAdj s ⟨-1, 10 ^ 4⟩
  else
    let i := syncInterval s
    let integ := Frac.clamp (Frac.add s.time.integ (Frac.norm ⟨o2, 2 * i * 16⟩))
    let s := { s with time := { s.time with integ := integ } }
    setAdj s (Frac.clamp (Frac.add (Frac.norm ⟨o2, 4 * i⟩) integ))

/-- Count an exchange for LOCKED: 8 within 20 ns set it, 4 beyond 50 ns clear it (R403). -/
def countExchange (s : State) (o2 : Int) : State :=
  let good := if o2.natAbs ≤ 40 then s.time.good + 1 else 0
  let bad := if 100 < o2.natAbs then s.time.bad + 1 else 0
  let s := { s with time := { s.time with good := good, bad := bad } }
  let s := if 8 ≤ good then wf s F.TIME_STATUS_LOCKED 0 1 else s
  if 4 ≤ bad then timeUnlock s else s

/-- Payload of a TIME packet (R402). -/
def timePayload (resp : Bool) (t1 t2 t3 : Nat) : List Byte := toLE 8 (b2n resp) ++ toLE 8 t1 ++ toLE 8 t2 ++ toLE 8 t3

/-- Send a TIME packet on a port that is UP and has room. -/
def sendTime (s : State) (n dest : Nat) (payload : List Byte) : State :=
  let p := { ownPacket s dest 4 4 with plen := 1, payload := payload }
  if lstate s n = 3 ∧ canSend (getPort s n) 4 (flitsOf p) ∧ (ownCoord s).isSome then sendPacket s n 4 p else s

/-- TIME_EXCHANGE (R402): a follower sends a request toward its parent; an interval without response passes. -/
def execTimeExchange (s : State) : Host.Outcome State Fault Refusal :=
  if !hubUp s then .next s else
  if rf s F.TIME_CTRL_ROLE 0 ≠ 2 then .next s
  else
    let n := rf s F.TIME_CTRL_PARENT_PORT 0
    let s := { s with time := { s.time with asked := some s.time.now, silent := s.time.silent + 1 } }
    .next (sendTime s n (rf s F.FAB_P_NBR_INFO_COORD n) (timePayload false s.time.now 0 0))

/-- A port that is UP toward a neighbour. -/
def portToward (s : State) (coord : Nat) : Option Nat :=
  (List.range 24).find? fun n => lstate s n == 3 && rb s F.FAB_P_NBR_INFO_ASSIGNED n && rf s F.FAB_P_NBR_INFO_COORD n == coord

/-- A TIME request arrives: it is stamped and answered at once (R402). -/
def timeRequestArrive (s : State) (p : Packet) : State :=
  match portToward s p.src with
  | some n => sendTime s n p.src (timePayload true (fieldLE 8 8 p.payload) s.time.now s.time.now)
  | none => s

/-- A TIME response arrives (R402, R403): only the answer to the last request counts. -/
def timeResponseArrive (s : State) (p : Packet) : State :=
  let t1 := fieldLE 8 8 p.payload
  if rf s F.TIME_CTRL_ROLE 0 ≠ 2 ∨ s.time.asked ≠ some t1 then s
  else
    let t2 : Int := fieldLE 16 8 p.payload
    let t3 : Int := fieldLE 24 8 p.payload
    let t4 : Int := s.time.now
    let o2 : Int := (t2 - t1) - (t4 - t3)
    let d2 : Int := (t4 - t1) - (t3 - t2)
    let s := { s with time := { s.time with asked := none, silent := 0 } }
    let (s, o) := roundFree s o2 2
    let (s, d) := roundFree s d2 2
    let s := wf (wf s F.TIME_OFFSET_O 0 (sat32 o)) F.TIME_DELAY_DELAY 0 (unsext 32 d)
    countExchange (applyOffset s o2) o2

/-- A TIME packet by its RESP bit. -/
def timeArrive (s : State) (p : Packet) : State :=
  if bit 0 (fieldLE 0 1 p.payload) then timeResponseArrive s p else timeRequestArrive s p

/-- TIME_REQUEST (R402). -/
def execTimeRequest (p : Packet) (s : State) : Host.Outcome State Fault Refusal :=
  if !hubUp s then .next s else .next (timeRequestArrive s p)

/-- TIME_RESPONSE (R403). -/
def execTimeResponse (p : Packet) (s : State) : Host.Outcome State Fault Refusal :=
  if !hubUp s then .next s else .next (timeResponseArrive s p)

/-- NO_RESP (R403): after 8 intervals LOCKED clears, and the rate held is the integrator's. -/
def execNoResp (s : State) : Host.Outcome State Fault Refusal :=
  if rf s F.TIME_CTRL_ROLE 0 = 2 ∧ 8 ≤ s.time.silent then
    let s := ev { s with time := { s.time with silent := 0 } } F.TIME_EVENT_NO_RESP 0
    .next (setAdj (timeUnlock s) s.time.integ)
  else .next s

/-- The role comes live: a grandmaster is always LOCKED, and any other role starts unlocked (R403, log 27). -/
def timeRoleLive (s : State) : State :=
  let s := { s with time := { s.time with asked := none, silent := 0 } }
  if rf s F.TIME_CTRL_ROLE 0 = 1 then wf s F.TIME_STATUS_LOCKED 0 1 else timeUnlock s

/-! ### Snapshots (R409, R410) -/

/-- Is the register at an offset a counter with a SNAPSHOT_AT shadow, at its offset plus 0x100? The pages of routing entries and of
the transit map hold none; of the queues' frame only SEQ_QRETIRED has one, and of the flags' frame the two counts and the counters
(R216, R239, R301). On every other page the registers 0x100 apart are those pairs. -/
def shadowed (b : Blk) (off : Nat) : Bool :=
  match b with
  | .rtMap | .rtEntry => false
  | .seqQ => decide (0x94 ≤ off ∧ off < 0x194) && (off - 0x94) % 0x20 == 0
  | .seqF => off == 0x30 || off == 0x34 || (decide (0x200 ≤ off ∧ off < 0x300) && off % 4 == 0)
  | _ => (findReg b off).isSome && (findReg b (off + 0x100)).isSome

/-- Is the register of a key copied at a snapshot that skips these partitions? -/
def snapCopies (skip : Nat) (k : Nat) : Bool :=
  match keyBlk k with
  | some b => shadowed b (keyOff k) && !(decide (b.partition (keyInst k) < 20) && bit (b.partition (keyInst k)) skip)
  | none => false

/-- Every counter that has a shadow copies into it. -/
def copyShadows (s : State) (skip : Nat) : State :=
  let src := s.regs.filter fun e => snapCopies skip e.1
  let old := s.regs.filter fun e => decide (0x100 ≤ keyOff e.1) && snapCopies skip (e.1 - 0x100)
  let s := old.foldl (fun s e => regPut s e.1 0) s
  src.foldl (fun s e => regPut s (e.1 + 0x100) e.2) s

/-- SNAPSHOT_TAKEN (R409, R410): at the target tick, or at the first tick after a skip over it. -/
def execSnapshotTaken (s : State) : Host.Outcome State Fault Refusal :=
  match s.ledger.snap with
  | none => .next s
  | some t =>
    if tick s < t then .next s
    else
      let skip := (List.range 20).foldl (fun m p => if ptnDown s p then putBits p p 1 m else m) 0
      let s := copyShadows { s with ledger := { s.ledger with snap := none } } skip
      let s := wf2 s F.TIME_SNAP_LO_NOW F.TIME_SNAP_HI_NOW 0 s.time.now
      let s := wf2 s F.LEDGER_SNAP_TAKEN_LO_TICK F.LEDGER_SNAP_TAKEN_HI_TICK 0 (tick s)
      let s := ev (wf s F.LEDGER_SNAP_SKIPPED_PARTITIONS 0 skip) F.LEDGER_EVENT_SNAP_DONE 0
      .next (raise s E.SNAPSHOT_TAKEN U.none 0 0)

/-- The device's neighbours in the tree of R300: its children, and the one that it sends to. -/
def treePeers (s : State) : List Nat :=
  treeChildren s ++ (treeLevels s).filterMap fun e => match treeAct s e.1 e.2 with
    | .send c => some c
    | _ => none

/-- Send a snapshot target over the tree, except back where it came from (R410; the packet's layout: log 27). -/
def snapForward (s : State) (target : Nat) (from_ : Option Nat) : State :=
  match ownCoord s with
  | none => s
  | some _ =>
    (treePeers s).foldl (fun s c =>
      if some c = from_ then s else inject s 0 { ownPacket s c 4 5 with plen := 1, payload := padTo 32 (toLE 8 target) }) s

/-- What SNAP_ARM does (R409, R410). -/
def snapArmEffect (s : State) : State :=
  let t := rf2 s F.LEDGER_SNAP_AT_LO_TICK F.LEDGER_SNAP_AT_HI_TICK 0
  if t < tick s + 2 then ev s F.LEDGER_EVENT_SNAP_LATE 0
  else
    let s := { s with ledger := { s.ledger with snap := some t } }
    if rb s F.LEDGER_CMD_SNAP_BCAST 0 then snapForward s t none else s

/-- What ACK does (R407): the record at HEAD has been read. -/
def ledgerAckEffect (s : State) : State :=
  let h := rf s F.LEDGER_HEAD_COUNT 0
  if h = rf s F.LEDGER_TAIL_COUNT 0 then s else wf s F.LEDGER_HEAD_COUNT 0 ((h + 1) % 2 ^ 32)

/-- What the pulses of LEDGER_CMD do: ACK, then SNAP_ARM. -/
def ledgerCmdEffect (pulse : Word) (s : State) : State :=
  let s := if wbits 0 0 pulse = 1 then ledgerAckEffect s else s
  if wbits 1 1 pulse = 1 then snapArmEffect s else s

/-- SNAP_ARM (R409, R410), by the set alias, which leaves SNAP_BCAST as it is. -/
def execSnapArm (req : Requester) (s : State) : Host.Outcome State Fault Refusal :=
  regWriteTo s req .ledger 0 4 1 2 fun _ _ s => ledgerCmdEffect 2 s

/-- LEDGER_ACK (R407). -/
def execLedgerAck (req : Requester) (s : State) : Host.Outcome State Fault Refusal :=
  regWriteTo s req .ledger 0 4 1 1 fun _ _ s => ledgerCmdEffect 1 s

/-- SNAP_BCAST_RECEIVE (R410): armed as by a local write, or late; the target goes on over the tree. -/
def execSnapBcastReceive (p : Packet) (s : State) : Host.Outcome State Fault Refusal :=
  if !hubUp s then .next s else
  let t := fieldLE 0 8 p.payload
  let s := snapForward s t (some p.src)
  if t ≤ tick s then .next (ev s F.LEDGER_EVENT_SNAP_LATE 0)
  else .next { wf2 s F.LEDGER_SNAP_AT_LO_TICK F.LEDGER_SNAP_AT_HI_TICK 0 t with ledger := { s.ledger with snap := some t } }

end Sys2Proof.Machine
end

