-- ==== Sys2Proof/Machine/Routing.lean ====
section
/-! DEFINITION. The router: routing entries, virtual channels, delivery and drops; acknowledgements; the Route Plan (chapter 13, R281, R282, R286; readings: log 28). -/

namespace Sys2Proof.Machine

/-! ### Routing entries (R288, R289, R292) -/

/-- The routing entry of a destination. -/
def routeEntry (s : State) (dest : Nat) : Nat := (regLive s (regKey .rtEntry (dest / 256) (4 * (dest % 256)))).toNat

/-- Ports of a mask in an axis direction that are UP. -/
def maskPorts (s : State) (axis dir mask : Nat) : List Nat :=
  ((List.range 4).filter fun k => bit k mask).filterMap fun k =>
    let n := 8 * axis + 4 * dir + k
    if lstate s n = 3 then some n else none

/-- Candidate ports of an entry. -/
def candidates (s : State) (e : Nat) : List Nat :=
  let main := maskPorts s (bits 29 28 e) (bits 27 27 e) (bits 26 23 e)
  if main.isEmpty then maskPorts s (bits 29 28 e) (bits 27 27 e) (bits 22 19 e) else main

/-- The port that a packet takes: CLASS 0 and 4 by source and destination, CLASS 1 and 2 in turn (R288). -/
def choosePort (s : State) (e : Nat) (p : Packet) (l : List Nat) : Nat :=
  if p.cls = 0 ∨ p.cls = 4 then l.getD ((7 * p.src + p.dest) % l.length) 0
  else
    match aget s.fab.turn (bits 29 27 e) with
    | none => l.getD 0 0
    | some last => (l.find? fun n => decide (last < n)).getD (l.getD 0 0)

/-- Does a hop to the device at the far end of a port leave the slice box, or cross the wrap link that is outside it (R289, R293)? -/
def leavesBox (s : State) (n : Nat) : Bool :=
  let c := rf s F.FAB_P_NBR_INFO_COORD n
  let a := n / 8
  let own := posOf s (coordReg s) a
  let far := posOf s c a
  let crosses := if n / 4 % 2 = 0 then decide (far < own) else decide (own < far)
  !rb s F.FAB_P_NBR_INFO_ASSIGNED n || !inBox s c || (!bit a (rf s F.RT_BOX_EXTENT_WRAP 0) && crosses)

/-- The virtual channel on which a packet leaves (R289). -/
def leaveVc (s : State) (n : Nat) (p : Packet) : Nat :=
  if 3 ≤ p.kind then p.cls else if p.slice ≠ liveSlice s ∨ leavesBox s n then 3 else p.cls

/-- What the router does with a packet. -/
inductive Route where
  | deliver
  | drop (cause : Nat)
  | hops
  | out (port vc : Nat)
  | wait
  deriving DecidableEq, Repr

/-- Slice IDs whose packets are delivered (R294). -/
def slicesHere (s : State) : List Nat :=
  liveSlice s :: (List.range 4).filterMap fun n =>
    if rb s (F.RT_PEER_V.nth n) 0 then some (rf s (F.RT_PEER_SLICE.nth n) 0) else none

/-- Delivery rule of R294: none where the packet is delivered, else the cause of the drop. -/
def deliverWhy (s : State) (p : Packet) : Option Nat :=
  if p.kind = 4 ∨ p.kind = 5 then none
  else if (ownCoord s).isNone then some 5
  else if liveSlice s = 0xFFF ∨ !(slicesHere s).contains p.slice then some 3 else none

/-- Hop limit (R289). -/
def maxHops (s : State) : Nat :=
  let m := rf s F.RT_CTRL_MAX_HOPS 0
  if m = 0 then 255 else m

/-- Credits that a packet needs to start: its own, and the bubble where it enters a ring (R290). -/
def mayStart (s : State) (input vc n out : Nat) (p : Packet) : Bool :=
  let q := getPort s n
  let c := credits q out
  let enters := decide (24 ≤ input) || input / 8 != n / 8 || out != vc
  canSend q out (flitsOf p) && (!enters || decide ((if out = 4 then 2 else 66) ≤ c.1 + c.2))

/-- The route of a packet at the head of its virtual channel at an input: ports 0 to 23, tiles 24 to 27 (R288 to R290). -/
def routeOf (s : State) (input vc : Nat) (p : Packet) : Route :=
  let e := routeEntry s p.dest
  if !bit 31 e then .drop 4
  else if bit 30 e then
    match deliverWhy s p with
    | none => .deliver
    | some c => .drop c
  else if bits 29 28 e = 3 then .drop 4
  else if (ownCoord s).isNone ∧ vc ≠ 3 ∧ vc ≠ 4 then .drop 5
  else if maxHops s < p.hops + 1 then .hops
  else
    let l := candidates s e
    if l.isEmpty then .drop 6
    else
      let n := choosePort s e p l
      let out := leaveVc s n p
      if mayStart s input vc n out p then .out n out else .wait

/-! ### Delivery (R286, R287, R294) -/

/-- Would the owning slices refuse a write: reserved or out of range, or a partition that is down (R165, R186)? -/
def writeRefused (s : State) (a n : Nat) : Bool :=
  (piecesOf a n).any fun e => match target e.1 with
    | .none => true
    | .stack p off => ptnDown s p || outOfRange s (.stack p off)
    | .pin p off => ptnDown s p || outOfRange s (.pin p off)

/-- The tile on whose local output an address leaves; CT0 for a reserved one (R287). -/
def outTile (a : Nat) : Nat :=
  match ownerOf a with
  | some p => tileOf p
  | none => 0

/-- Send the ACK of a WRITE or CONTRIB (R286). -/
def sendAck (s : State) (p : Packet) (refused : Bool) : State :=
  let a := ownPacket s p.src 1 2
  inject s (outTile p.addr) { a with tag := p.tag, core := p.core, pkt := p.pkt, aux := b2n refused }

/-- An ACK takes its packet number from the descriptor that awaits it (R286). -/
def ackArrive (s : State) (p : Packet) : State :=
  if 260 ≤ p.core then s
  else
    let c := getCore s p.core
    match findIdx? (fun f => f.done && dTag f.desc == p.tag && f.acks.contains p.pkt) c.flights with
    | none => s
    | some i =>
      setCore s p.core { c with flights := c.flights.mapIdx fun j f => if j = i then { f with acks := f.acks.erase p.pkt } else f }

/-- A delivered WRITE; one from a hub engine into the vote area is a line of the vote (R335). -/
def deliverWrite (s : State) (p : Packet) : State :=
  let bad := writeRefused s p.addr p.payload.length
  let s := sendAck (memWrite s .hub p.tag p.hint p.addr p.payload) p bad
  let base := voteArea s 0
  if p.core = 511 ∧ base ≤ p.addr ∧ p.addr < base + 0x800 ∧ p.addr % 128 = 0 ∧ !bad then
    voteArrive s ((p.addr - base) / 128) (padTo 128 p.payload)
  else s

/-- A delivered CONTRIB: each line goes to the slot on its own (R286). -/
def deliverContrib (s : State) (p : Packet) : State :=
  let (s, ok) := (List.range (p.payload.length / 128)).foldl (fun (acc : State × Bool) j =>
    let (s, ok) := contribDo acc.1 .hub p.addr p.srcIdx (p.aux + j) (slice (128 * j) 128 p.payload) p.tag
    (s, acc.2 && ok)) (s, true)
  sendAck s p !ok

/-- A delivered SIGNAL is on its way to its core (R207). -/
def deliverSignal (s : State) (p : Packet) : State :=
  let kind := if bit 8 p.aux then 4 else 3
  { s with signals := s.signals ++ [⟨kind * 2 ^ 29 + p.core * 2 ^ 8 + bits 7 0 p.aux, 10, 260, some p.slice⟩] }

/-- Delivery of a packet by its kind; MGMT traffic goes to the management controller (R286, R451). -/
def deliver (s : State) (p : Packet) : State :=
  let s := bumpIf s F.RT_CTRL_CNT_EN F.RT_DELIV_PKTS_LO_COUNT 0 1
  match p.kind with
  | 0 => deliverWrite s p
  | 1 => deliverContrib s p
  | 2 => ackArrive s p
  | 3 => deliverSignal s p
  | 4 => timeArrive s p
  | _ => s

/-- A drop is counted at the port of arrival; one at delivery is latched too (R276, R294). -/
def dropPacket (s : State) (input cause : Nat) (p : Packet) : State :=
  let s := if input < 24 then portDrop s input cause 1 else s
  if cause = 3 ∨ cause = 5 then
    let s := if rb s F.RT_EVENT_SLICE_DROP 0 then s
      else wf (wf s F.RT_EVENT_INFO_PORT 0 input) F.RT_EVENT_INFO_SLICE 0 p.slice
    ev s F.RT_EVENT_SLICE_DROP 0
  else s

/-- Forward a packet (R288, R289, R295). -/
def forward (s : State) (n vc : Nat) (p : Packet) : State :=
  let s := if vc = 3 then
      let f := F.RT_TRANSIT_MAP_MAP.nth (p.slice / 32)
      wf s f 0 (putBits (p.slice % 32) (p.slice % 32) 1 (rf s f 0))
    else s
  let s := if p.cls = 1 ∨ p.cls = 2 then { s with fab := { s.fab with turn := aput s.fab.turn (n / 4) n } } else s
  let s := bumpIf s F.RT_CTRL_CNT_EN F.RT_FWD_PKTS_LO_COUNT 0 1
  sendPacket s n vc { p with hops := p.hops + 1 }

/-- Carry out a route. -/
def routeDo (s : State) (input : Nat) (r : Route) (p : Packet) : State :=
  match r with
  | .deliver => deliver s p
  | .drop c => dropPacket s input c p
  | .hops => dropPacket (ev s F.RT_EVENT_HOPS 0) input 4 p
  | .out n vc => forward s n vc p
  | .wait => s

/-! ### PACKET_ROUTE -/

/-- Packets that wait at an input, with the virtual channel of each. -/
def inputPackets (s : State) (input : Nat) : List (Nat × Packet) :=
  if input < 24 then (getPort s input).inq.map fun e => (e.vc, e.pkt)
  else ((aget s.fab.inject (input - 24)).getD []).map fun p => (p.cls, p)

/-- Take a packet out of an input; a port returns the credits of its flits (R272). -/
def takeInput (s : State) (input i : Nat) : State :=
  if input < 24 then
    let q := getPort s input
    match q.inq[i]? with
    | none => s
    | some e => setPort s input (freeFlits { q with inq := q.inq.eraseIdx i } e.vc e.priv e.shared)
  else
    let t := input - 24
    { s with fab := { s.fab with inject := aput s.fab.inject t (((aget s.fab.inject t).getD []).eraseIdx i) } }

/-- The places of the first packet of each virtual channel. -/
def headPlaces (l : List (Nat × Packet)) : List Nat :=
  (List.range l.length).filter fun i => !((l.take i).map (·.1)).contains ((l.map (·.1)).getD i 9)

/-- PACKET_ROUTE (R287 to R296): the first packet of some virtual channel at the input that can move, moves. -/
def execPacketRoute (input : Nat) (s : State) : Host.Outcome State Fault Refusal :=
  if !hubUp s then .next s else
  let l := inputPackets s input
  let ready := (headPlaces l).filterMap fun i => match l[i]? with
    | none => none
    | some e =>
      let r := routeOf s input e.1 e.2
      if r = .wait then none else some (i, r, e.2)
  match ready with
  | [] => .next s
  | (i, r, p) :: _ => .next (routeDo (takeInput s input i) input r p)

/-- ACK_RECEIVE (R286). -/
def execAckReceive (p : Packet) (s : State) : Host.Outcome State Fault Refusal :=
  if !hubUp s then .next s else .next (ackArrive s p)

/-! ### Route Plan (R281, R282, R448) -/

/-- The device writes a settings record of its own (R432). -/
def settingsPut (s : State) (key : Nat) (data : List Byte) : State :=
  let st := s.settings
  { s with settings := { st with records := aput st.records key data, wear := aput st.wear key ((aget st.wear key).getD 0 + 1) } }

/-- Body of a plan; its own layout is the model's: plan ID, then the three dimensions, then the entries from 16 (log 28). -/
def planBody (l : List Byte) : List Byte := slice 64 (l.length - 64 - 3309) l

/-- Entries of a plan body. -/
def planEntries (b : List Byte) : List (List Byte) := (List.range ((b.length - 16) / 256)).map fun i => slice (16 + 256 * i) 256 b

/-- Serial and coordinate of an entry. -/
def entrySerial (e : List Byte) : Nat := fieldLE 0 8 e
def entryCoord (e : List Byte) : Nat := bits 11 0 (fieldLE 8 2 e)

/-- Key of a slot; none where the slot is empty. -/
def opKey (s : State) (k : Nat) : Option (List Byte) :=
  match s.sec.opKeys.getD k [] with
  | [] => none
  | l => some l

/-- Does a plan verify (R448)? -/
def planSigned (s : State) (l : List Byte) : Bool :=
  match opKey s (bits 0 0 (fieldLE 7 1 l)) with
  | none => false
  | some key =>
    decide (64 + 3309 + 16 ≤ l.length) && fieldLE 0 4 l == 0x544E5247 && fieldLE 4 1 l == 1 && fieldLE 6 1 l == 0 &&
      fieldLE 8 8 l == 0 && fieldLE 0x10 4 l == 0 && slice 0x20 32 l == sha3 (planBody l) &&
      Config.mldsaVerify key (l.take 64) (slice (l.length - 3309) 3309 l)

/-- Is a list free of repeats? -/
def noTwins (l : List Nat) : Bool := l.eraseDups.length == l.length

/-- The settings record of a plan: entry, plan ID, dimensions. -/
def planRecord (e : List Byte) (id dims : Nat) : List Byte := padTo 256 e ++ toLE 4 id ++ toLE 4 dims

/-- Take the address and the plan that a settings record gives (R282, R432): its PLAN code, the record. -/
def planApply (s : State) (code : Nat) (r : List Byte) : State :=
  let e := slice 0 256 r
  let mine := entrySerial e == Config.serial
  let d := fieldLE 260 4 r
  let s := wf (wf s F.FAB_ADDR_ASSIGNED 0 (b2n mine)) F.FAB_ADDR_COORD 0 (if mine then entryCoord e else 0)
  let s := wf (wf s F.FAB_STATUS_ASSIGNED 0 (b2n mine)) F.FAB_STATUS_PLAN 0 code
  let s := wf s F.FAB_PLAN_ID_ID 0 (fieldLE 256 4 r)
  let s := wf (wf (wf s F.RT_DIMS_DX 0 (bits 7 0 d)) F.RT_DIMS_DY 0 (bits 15 8 d)) F.RT_DIMS_DZ 0 (bits 23 16 d)
  { s with fab := { s.fab with plan := if mine then some e else none } }

/-- ROUTE_PLAN (R281, R282). -/
def execRoutePlan (plan : List Byte) (s : State) : Host.Outcome State Fault Refusal :=
  if !hubUp s then .next s else
  let b := planBody plan
  let l := planEntries b
  let mine := l.find? fun e => entrySerial e == Config.serial
  let coord := mine.map entryCoord
  let sound := planSigned s plan && noTwins (l.map entrySerial) && noTwins (l.map entryCoord)
  if !sound || (liveSlice s != 0xFFF && coord != ownCoord s) then .next (ev s F.FAB_EVENT_PLAN_REFUSED 0)
  else
    let r := planRecord (mine.getD []) (fieldLE 0 4 b) (fieldLE 4 4 b)
    .next (waybillDue (recheckPorts (planApply (settingsPut s 1 r) 2 r)))

end Sys2Proof.Machine
end

