-- ==== Sys2Proof/Machine/Waybill.lean ====
section
/-! DEFINITION. The Waybill image and its regeneration, the scrub of triplicated fields, the mesh bridges (R17, R26 to R39, R59, R60; readings: log 30). -/

namespace Sys2Proof.Machine

/-! ### The image (R26 to R35) -/

/-- Bytes of a list of (offset, length, value) fields in `n` bytes of zeros. -/
def packFields (n : Nat) (l : List (Nat × Nat × Nat)) : List Byte :=
  l.foldl (fun d e => patch e.1 (toLE e.2.1 e.2.2) d) (List.replicate n 0)

/-- An entry with its common header (R29). -/
def wbEntry (typ len inst : Nat) (l : List (Nat × Nat × Nat)) : List Byte :=
  packFields len ((0, 2, typ) :: (2, 2, len) :: (4, 2, inst) :: l)

/-- A set of channels as a map of bits. -/
def bitMap (p : Nat → Bool) (n : Nat) : Nat := (List.range n).foldl (fun m k => m + b2n (p k) * 2 ^ k) 0

/-- Cores of a partition in a role. -/
def roleCount (s : State) (p r : Nat) : Nat := ((span (13 * p) 13).filter fun g => role s g == r).length

/-- Does a partition hold a fenced core that no spare replaced (R34)? -/
def holdsUnreplaced (s : State) (p : Nat) : Bool := (span (13 * p) 13).any fun g => role s g == 2 && (standIn s g).isNone

/-- STATE of a partition entry (R30, R34). -/
def partStateCode (s : State) (failed : List Nat) (p : Nat) : Nat :=
  if failed.contains p then 3 else if pstate s p = 2 then 2 else if holdsUnreplaced s p then 1 else 0

/-- Partition entries, in ascending partition (R30, R33). -/
def wbPartitions (s : State) (failed : List Nat) : List (List Byte) :=
  (List.range 20).map fun p => wbEntry 1 24 p
    [(8, 1, tileOf p), (9, 1, partStateCode s failed p), (10, 1, roleCount s p 0), (11, 1, roleCount s p 1), (12, 1, roleCount s p 2),
     (13, 1, roleCount s p 3), (14, 2, 20), (16, 1, p)]

/-- Core entries (R30, R33). -/
def wbCores (s : State) : List (List Byte) :=
  (List.range 260).map fun g => wbEntry 2 16 g
    [(8, 1, partOf g), (9, 1, g % 13), (10, 1, role s g), (11, 1, rf s F.MX_COLMAP_USE_A g + rf s F.MX_COLMAP_USE_B g),
     (12, 2, if logical s g = g then 0xFFFF else logical s g), (14, 2, 4096)]

/-- Stack entries and channel summaries (R30, R35). -/
def wbStacks (s : State) : List (List Byte) :=
  ((List.range 20).map fun p => wbEntry 3 24 p
    [(8, 4, 65536), (12, 4, userMib s p), (16, 1, rf s F.MEM_STATUS_CH_OUT p), (17, 1, rf s F.MEM_STATUS_LANE_SPARED p),
     (18, 1, rf s F.MEM_STATUS_ECC2_LIVE p), (19, 1, 16)]) ++
  (List.range 20).map fun p => wbEntry 4 40 p
    [(8, 16, bitMap (fun k => rf s F.MEM_CH_STATE_STATE (128 * p + k) == 2) 128),
     (24, 16, bitMap (fun k => rf s F.MEM_CH_STATE_SPARE_FOR (128 * p + k) != 31) 128)]

/-- Port entries (R30, R261, R263). -/
def wbPorts (s : State) : List (List Byte) :=
  (List.range 24).map fun n => wbEntry 5 16 n
    [(8, 1, n / 8), (9, 1, n / 4 % 2), (10, 1, if n % 4 = 3 then 1 else 0), (11, 1, if rf s F.FAB_P_STATE_LSTATE n = 5 then 1 else 0),
     (12, 1, 4), (14, 2, 2125)]

/-- Clock and feature entries (R8, R18, R30); the host site holds the host tile (log 4). -/
def wbClocks : List (List Byte) :=
  ([(8400000, 0), (700000, 12), (1400000, 6), (1050000, 8), (350000, 24), (100000, 0)].mapIdx fun i (e : Nat × Nat) =>
    wbEntry 6 16 i [(8, 4, e.1), (12, 2, e.2)]) ++ [wbEntry 7 16 0 [(8, 1, 0), (9, 1, 4), (12, 4, 15)]]

/-- A register block: instance, offset, prefix, size (R32, R62 to R64). -/
structure WbBlock where
  inst : Nat
  off : Nat
  name : List Nat
  size : Nat
  deriving DecidableEq, Repr

/-- Blocks of the hub (R62). -/
def wbHubBlocks : List WbBlock :=
  [⟨0, 0x10000, [72, 85, 66, 95], 0x10000⟩, ⟨0, 0x20000, [67, 76, 75, 95], 0x4000⟩, ⟨0, 0x24000, [82, 83, 84, 95], 0x4000⟩,
   ⟨0, 0x28000, [80, 87, 82, 95], 0x8000⟩, ⟨0, 0x30000, [84, 73, 77, 69, 95], 0x4000⟩,
   ⟨0, 0x34000, [76, 69, 68, 71, 69, 82, 95], 0xC000⟩, ⟨0, 0x40000, [83, 69, 84, 95], 0x10000⟩,
   ⟨0, 0x50000, [83, 69, 67, 95], 0x10000⟩, ⟨0, 0x80000, [72, 81, 95], 0x80000⟩, ⟨0, 0x100000, [70, 65, 66, 95], 0x40000⟩,
   ⟨0, 0x140000, [82, 84, 95], 0x40000⟩, ⟨0, 0x180000, [67, 75, 80, 95], 0x40000⟩, ⟨0, 0x1C0000, [70, 72, 95], 0x20000⟩,
   ⟨0, 0x1E0000, [73, 83, 84, 95], 0x20000⟩]

/-- Blocks of a partition (R63). -/
def wbPtnBlocks (p : Nat) : List WbBlock :=
  [⟨p, 0x1000000 + 0x100000 * p, [80, 84, 78, 95], 0x10000⟩, ⟨p, 0x1010000 + 0x100000 * p, [77, 69, 77, 95], 0x10000⟩,
   ⟨p, 0x1020000 + 0x100000 * p, [83, 67, 95], 0x10000⟩]

/-- Blocks of a core (R64). -/
def wbCoreBlocks (g : Nat) : List WbBlock :=
  let b := Blk.base .core g
  [⟨g, b, [67, 79, 82, 69, 95], 0x1000⟩, ⟨g, b + 0x1000, [83, 69, 81, 95], 0x2000⟩, ⟨g, b + 0x3000, [77, 88, 95], 0x1000⟩,
   ⟨g, b + 0x4000, [86, 88, 95], 0x1000⟩, ⟨g, b + 0x5000, [81, 78, 84, 95], 0x1000⟩]

/-- Every block, in ascending instance; blocks of one instance in ascending offset (log 30). -/
def wbBlocks : List WbBlock :=
  (List.range 260).flatMap fun i => (if i = 0 then wbHubBlocks else []) ++ (if i < 20 then wbPtnBlocks i else []) ++ wbCoreBlocks i

/-- Register block entries (R30, R32). -/
def wbBlockEntries : List (List Byte) :=
  wbBlocks.map fun b => wbEntry 8 24 b.inst [(8, 8, ofLE (b.name.map (BitVec.ofNat 8))), (16, 4, b.off), (20, 4, b.size)]

/-- RATE_X16 of a format (R91); none where the format has no entry. -/
def rateX16 (f : Nat) : Option Nat :=
  if f = 1 then some 0 else if f = 2 then some 1 else if f = 3 then some 4 else if f = 4 ∨ f = 5 then some 8
  else if 6 ≤ f ∧ f ≤ 0xB then some 16 else if f = 0xC then some 32 else if f = 0xD ∨ f = 0xE then some 16
  else if f = 0x10 ∨ f = 0x11 then some 0 else none

/-- Format-rate entries (R30, R91). -/
def wbRates : List (List Byte) :=
  (List.range 0x12).filterMap fun f => (rateX16 f).map fun r =>
    wbEntry 9 16 f [(8, 2, r), (10, 1, if f = 1 then 1 else 0), (11, 1, if f = 1 then 32 else 0)]

/-- Limits of R31. -/
def wbLimitValues : List Nat := [8, 256, 64, 4, 4, 2, 16, 4096, 4096, 4194304, 64, 262144]

/-- Limit entries. -/
def wbLimits : List (List Byte) := wbLimitValues.mapIdx fun i v => wbEntry 10 16 (i + 1) [(8, 8, v)]

/-- Every entry, in ascending type (R29). -/
def wbEntries (s : State) (failed : List Nat) : List (List Byte) :=
  wbPartitions s failed ++ wbCores s ++ wbStacks s ++ wbPorts s ++ wbClocks ++ wbBlockEntries ++ wbRates ++ wbLimits

/-- The header with a digest of zero (R26). -/
def wbHeader (total rev grade n : Nat) : List Byte :=
  packFields 64 [(0, 4, 0x4C425957), (4, 2, 0x100), (6, 2, 64), (8, 4, total), (12, 4, rev), (16, 1, grade), (18, 2, n)]

/-- The image behind the window: what its last build saw (R26, R37). -/
def waybillImage (s : State) : List Byte :=
  let w := s.waybill
  let l := wbEntries { State.reset with regs := w.shown } w.failed
  let body := l.flatten
  let head := wbHeader (64 + body.length) w.rev w.grade l.length
  head.take 32 ++ sha3 (head ++ body) ++ body

/-! ### Grade fuses (R26, R60) -/

/-- Key under which copies of the grade fuses that differ are held. -/
def gradeKey : Nat := 2 ^ 60

/-- The grade, voted; grade B after a split (R60; the fuses: log 4). -/
def grade (s : State) : Nat := ((aget s.tmr gradeKey).map fun c => c.vote 2).getD 1

/-! ### Regeneration (R36 to R38) -/

/-- Does a register show in the Waybill? -/
def wbShows (k : Nat) : Bool :=
  match keyBlk k with
  | some .ptnCore | some .mem | some .memCh | some .fabP | some .pwr | some .mx => true
  | _ => false

/-- Build a new image: REVISION advances and WAYBILL_CHANGED is recorded. -/
def waybillBuild (s : State) : State :=
  let rev := s.waybill.rev + 1
  let s := { s with waybill :=
    { rev := rev, shown := (s.regs.filter fun e => wbShows e.1).map fun e => (e.1, regLive s e.1), failed := s.power.failed
      grade := grade s, due := false } }
  raise (wf s F.HUB_WAYBILL_REV_REV 0 rev) E.WAYBILL_CHANGED U.none 0 rev

/-! ### The body of an attestation report (R449, R450) -/

/-- The image of a firmware type that runs. -/
def runningImage (s : State) (type : Nat) : Option Image :=
  s.sec.images.getD (if type = 1 then s.sec.hubSlot else 2 + s.sec.coreSlot) none

/-- A digest, or zero where there is nothing to digest. -/
def digestOr0 (d : Option (List Byte)) : List Byte := padTo 32 (d.getD [])

/-- Body of an attestation report (R449); the host site is bit 10 of the word at 0x004. -/
def attestBody (s : State) (nonce : List Byte) : List Byte :=
  let hub := runningImage s 1
  let core := runningImage s 2
  let svn := fun (i : Option Image) => toLE 1 ((i.map (·.svn)).getD 0)
  let pkg := (s.ist.active.bind fun i => s.ist.slots.getD i none).map (·.digest)
  let tail := svn hub ++ svn core ++ toLE 1 s.sec.floors.svnHub ++ toLE 1 s.sec.floors.svnCore ++ toLE 1 s.sec.floors.revoked
  padTo 320 (toLE 4 0x54535441 ++ toLE 4 (1 + rf s F.SEC_STATUS_BOOT_STATE 0 * 2 ^ 8) ++ toLE 8 Config.serial ++ padTo 32 nonce ++
    toLE 8 s.time.now ++ toLE 2 (grade s) ++ toLE 2 ((ownCoord s).getD 0xFFF) ++ toLE 4 s.waybill.rev ++ digestOr0 (hub.map (·.digest)) ++
    digestOr0 (core.map (·.digest)) ++ digestOr0 pkg ++ slice 0x20 32 (waybillImage s) ++
    ((List.range 8).flatMap fun n => toLE 4 (rf s (F.FH_DIGEST_DIGEST.nth n) 0)) ++
    sha3 (s.sec.opKeys.flatMap (padTo 1952)) ++ sha3 Config.gradeFuses ++ tail)

/-- Capture the body at the first edge at which neither a Waybill switch nor a digest is pending (R450). -/
def attestCapture (s : State) : State :=
  match s.sec.attest with
  | some ⟨a, n, none⟩ =>
    if s.waybill.due || s.fh.digestStale then s
    else { s with sec := { s.sec with attest := some ⟨a, n, some (attestBody s n)⟩ } }
  | _ => s

/-- WAYBILL_REGENERATE (R36, R37): the changes so far fold into one image. -/
def execWaybillRegenerate (s : State) : Host.Outcome State Fault Refusal :=
  if s.waybill.due then .next (attestCapture (waybillBuild s)) else .next s

/-! ### Triplicated fields (R59, R60, R89) -/

/-- The page's place in the window of an instance: channels count by their partition, per-core fields by theirs. -/
def pageIndex (b : Blk) (i : Nat) : Nat :=
  match b with
  | .memCh => i / 128
  | .ptnCore => i / 13
  | .hqRing | .hqCq | .fabP => 0
  | _ => i

/-- Window offset of the register at a key; of the grade fuses, the Waybill's GRADE (log 30). -/
def keyOffset (k : Nat) : Nat :=
  match keyBlk k with
  | some b => winOff b (pageIndex b (keyInst k)) (keyOff k)
  | none => 0x10

/-- Do two of three copies agree? -/
def Copies.agree (c : Copies) : Bool := c.a == c.b || c.a == c.c || c.b == c.c

/-- Write all three copies of the field that an entry of the copies names. -/
def copiesFix (s : State) (e : Nat × Copies) (v : Nat) : State :=
  let k := e.1 / 32
  let rest := s.tmr.filter (· != e)
  match (keyBlk k).bind (fun b => (findReg b (keyOff k)).bind (fun r => r.fields.find? (fun f => f.lo == e.1 % 32))) with
  | some f => { s with regs := sput regReset s.regs k (wput f.hi f.lo v (sget regReset s.regs k)), tmr := rest }
  | none => { s with tmr := if e.2.agree then rest else aput rest e.1 ⟨v, v, v⟩ }

/-- A field of which no two copies agree takes its safe value (R60); a core without a safe column map is fenced (R89). -/
def tmrSplit (s : State) (e : Nat × Copies) : State :=
  let k := e.1 / 32
  let safe := if (keyBlk k).isNone then 2 else safeOf k
  let off := keyOffset k
  let s := wf (ev (copiesFix s e safe) F.HUB_TMR_STATUS_SPLIT 0) F.HUB_TMR_SPLIT_ADDR_OFFSET 0 off
  let s := raise s E.TMR_SPLIT U.none 0 0
  let s := fhReport s 0 0 0x30 false { CperInfo.plain with detail := [off] }
  match keyBlk k with
  | some .mx => fenceCore s (keyInst k)
  | some .ptnCore | some .memCh => waybillDue s
  | _ => s

/-- The scrub of one field. -/
def scrubField (s : State) (e : Nat × Copies) : State :=
  if e.2.a = e.2.b ∧ e.2.b = e.2.c then s
  else if e.2.agree then bump (copiesFix s e (e.2.vote 0)) F.HUB_TMR_CORR_LO_CORR 0 1
  else tmrSplit s e

/-- TMR_SCRUB (R59, R60). -/
def execTmrScrub (s : State) : Host.Outcome State Fault Refusal :=
  if !hubUp s then .next s else .next (s.tmr.foldl scrubField s)

/-! ### Mesh bridges (R17, R374, R380) -/

/-- MESH_FLIT_RECEIVE: a flit that fails its CRC is replayed; a bridge that fails the same flit eight times is a fatal event. -/
def execMeshFlitReceive (bridge : Nat) (crcOk : Bool) (s : State) : Host.Outcome State Fault Refusal :=
  if !hubUp s ∨ 10 ≤ bridge then .next s
  else if crcOk then .next { s with mesh := { s.mesh with fails := adel s.mesh.fails bridge } }
  else
    let n := (aget s.mesh.fails bridge).getD 0 + 1
    let r := (aget s.mesh.replays bridge).getD 0 + 1
    let s := { s with mesh := { replays := aput s.mesh.replays bridge r, fails := aput s.mesh.fails bridge n } }
    if n = 8 then
      .next (fhReport (raise s E.MESH_FATAL (U.port (29 + bridge)) 0 0) 4 (29 + bridge) 0x25 false { CperInfo.plain with detail := [r] })
    else .next s

end Sys2Proof.Machine
end

