-- ==== Sys2Proof/Machine/Views.lean ====
section
/-! DEFINITION. Registers that show state held elsewhere: what a read of them returns (R30 to R39, R55, R90, R163, R218, R239, R301, R351, R375, R398, R413, R414, R438, R452). -/

namespace Sys2Proof.Machine

/-! ### Cores -/

/-- Does a core hold pending work (R375)? -/
def corePending (s : State) (g : Nat) : Bool :=
  !(getCore s g).flights.isEmpty || (List.range 8).any fun q =>
    let st := queueState s g q
    !(st == 0 || st == 4 || (st == 3 && ((queueOf s g q).branch.map (·.mode)) == some 1))

/-- Mark of a watched unit at its last hang (R375). -/
def hungAt (s : State) (kind index : Nat) : Option Nat :=
  (s.fh.hung.find? fun e => e.1 == kind && e.2.1 == index).map (·.2.2)

/-- Has a hang of a core been raised and its counter not moved since? -/
def coreHung (s : State) (g : Nat) : Bool := corePending s g && hungAt s 1 g == some (rf s F.CORE_PROG_RETIRED_COUNT g)

/-- SEQ_QSTATE of a queue (R239). -/
def qstateWord (s : State) (g q : Nat) : Nat :=
  let k := queueOf s g q
  let mask := (k.head.map (waitMask s g k.iter)).getD 0
  queueState s g q + k.loops.length * 2 ^ 4 + min 15 (inFlight s g q) * 2 ^ 8 + mask * 2 ^ 16

/-- Computed registers of a queue, by the place in its 32-byte group: QSTATE, QHEAD_TAG, QITER, QREMAIN. -/
def queueWord (s : State) (g q o : Nat) : Option Nat :=
  let k := queueOf s g q
  match o with
  | 4 => some (qstateWord s g q)
  | 8 => some ((k.head.map dTag).getD 0)
  | 0xC => some k.iter
  | 0x10 => some (((k.loops.getLast?).map fun l => l.n - l.i).getD 0)
  | _ => none

/-- Format of the pass in flight; 0 when idle. -/
def passInFlight (s : State) (g : Nat) : Nat :=
  match (getCore s g).flights.find? fun f => dOp f.desc == 0x11 with
  | none => 0
  | some f =>
    let v := viewOf s g f.snap
    let x := oper v (dW f.desc 0)
    (passFmt x (oper v (dW f.desc 1)).e.fmt).getD x.e.fmt

/-- MX_STATUS (R90); the cycle states are left out (log 8). -/
def mxStatusWord (s : State) (g : Nat) : Nat :=
  let c := getCore s g
  let op := fun (o : Nat) => b2n (c.flights.any fun f => dOp f.desc == o)
  op 0x11 * 2 + op 0x10 * 4 + c.nextBank * 2 ^ 5 + b2n (bankHeld c 0) * 2 ^ 6 + b2n (bankHeld c 1) * 2 ^ 7 + passInFlight s g * 2 ^ 8

/-- VX_STATUS (R163): of the oldest chain in flight. -/
def vxStatusWord (s : State) (g : Nat) : Nat :=
  match (getCore s g).flights.find? fun f => f.unit == 1 || (dOp f.desc == 0x11 && stFused f.desc) with
  | none => 0
  | some f =>
    let v := viewOf s g f.snap
    let fused := dOp f.desc == 0x11
    let cfg := if fused then stCfg f.desc else vcCfg f.desc
    let l := if dOp f.desc = 0x21 then [] else chainStages (v (64 * cfg.chain) 128)
    1 + b2n fused * 4 + b2n (!fused && chainFp64 l (oper v (dW f.desc 0)).e.fmt) * 8 + l.length * 16

/-- CORE_PROG_STATUS (R398). -/
def progWord (s : State) (g : Nat) : Nat :=
  b2n (corePending s g) + b2n (coreHung s g) * 2 + b2n (s.ist.windows.contains g) * 4

/-! ### Hub -/

/-- HUB_UPD_PENDING (R55): groups that hold a pending write. -/
def pendingGroups (s : State) : Nat :=
  bitMap (fun g => (unstrobed s).any fun k => ((keyBlk k).bind fun b => groupOf s b (keyInst k)) == some g) 16

/-- HUB_SR_STATUS (R351): the stored ATTEMPT, and the states. -/
def srStatusWord (s : State) (w : Word) : Nat :=
  let l := s.sr.steps
  let newest := ((l.getLast?).map (·.state)).getD (if s.sr.opened && s.sr.lastClosed.isSome then 4 else 0)
  let older := if l.length = 2 then (l.head?.map (·.state)).getD 0 else 0
  wbits 31 28 w * 2 ^ 28 + newest * 2 ^ 21 + older * 2 ^ 18 + b2n s.sr.digest.isSome * 2 ^ 17 + b2n (l.any (·.awaits)) * 2 ^ 16

/-- Bytes that the settings records occupy (R429). -/
def settingsUsed (s : State) : Nat := (s.settings.records.map fun e => e.2.length + 64).foldl (· + ·) 0

/-- SET_STATUS (R438): the stored RESULT, BUSY and the free area. -/
def setStatusWord (s : State) (w : Word) : Nat :=
  wbits 7 4 w * 2 ^ 4 + b2n (s.settings.busy != 0) + (262144 - settingsUsed s) / 1024 * 2 ^ 16

/-- SEC_STATUS (R452): the stored BOOT_STATE and what the controller holds. -/
def secStatusWord (s : State) (w : Word) : Nat :=
  let has := fun (k : Nat) => b2n (!(s.sec.opKeys.getD k []).isEmpty)
  wbits 1 0 w + s.sec.hubSlot * 2 ^ 2 + s.sec.coreSlot * 2 ^ 3 + s.sec.floors.revoked * 2 ^ 4 + b2n s.sec.attest.isSome * 2 ^ 8 +
    b2n s.sec.grant.isSome * 2 ^ 9 + has 0 * 2 ^ 10 + has 1 * 2 ^ 11

/-- CLK_STATUS (R414, R435): every PLL locks with the root (log 30). -/
def clkStatusWord (s : State) (w : Word) : Nat :=
  b2n s.power.refOk + b2n s.power.root * 30 + wbits 8 8 w * 2 ^ 8

/-- What a register shows: state held elsewhere, or its stored word `w`. -/
def shownWord (s : State) (b : Blk) (j off : Nat) (w : Word) : Word :=
  let n (v : Nat) : Word := BitVec.ofNat 32 v
  match b with
  | .hub => if off = 0x18 then n (pendingGroups s) else w
  | .hubSr => if off = 8 then n (srStatusWord s w) else w
  | .seqQ =>
    if 0x80 ≤ off ∧ off < 0x180 then ((queueWord s j ((off - 0x80) / 32) (off % 32)).map n).getD w else w
  | .mx => if off = 4 then n (mxStatusWord s j) else w
  | .vx => if off = 4 then n (vxStatusWord s j) else w
  | .core => if off = 0x44 then n (progWord s j) else w
  | .rt => if off = 0x14 then n (boxPos s) else w
  | .time => if off = 0x40 then n s.time.now else if off = 0x44 then n (s.time.now / 2 ^ 32) else w
  | .clk => if off = 0 then n (clkStatusWord s w) else w
  | .set =>
    if off = 8 then n (setStatusWord s w) else if off = 0x10 then n ((aget s.settings.wear (rf s F.SET_KEY_KEY 0)).getD 0) else w
  | .sec =>
    if off = 0 then n (secStatusWord s w) else if off = 0xC then n s.sec.floors.authCtr
    else if off = 0x40 then n Config.certificate.length else w
  | .fab => if off = 0x18 then n Config.serial else if off = 0x1C then n (Config.serial / 2 ^ 32) else w
  | _ => w

end Sys2Proof.Machine
end

