-- ==== Sys2Proof/Machine/FaultTest.lean ====
section
/-! DEFINITION. The progress watch, fault-history commands, exported records and in-service test (chapter 17; readings: log 31). -/

namespace Sys2Proof.Machine

/-! ### The progress watch (R375 to R377) -/

/-- Put down that a hang of a unit has been raised. -/
def hungSet (s : State) (kind index mark : Nat) : State :=
  { s with fh := { s.fh with hung := (s.fh.hung.filter fun e => !(e.1 == kind && e.2.1 == index)) ++ [(kind, index, mark)] } }

/-- The lowest non-idle queue of a core. -/
def lowestBusy (s : State) (g : Nat) : Option Nat := (List.range 8).find? fun q => !queueIdle s g q

/-- Core window in ms; none where the watch is off (R398, R399). -/
def coreWindow (s : State) (g : Nat) : Option Nat :=
  let w := rf s F.CORE_PROG_CTRL_WIN_MS g
  let w := if w = 0 then rf s F.FH_WIN_CORE_MS 0 else w
  if w = 0 ∨ w = 0xFFFF then none else some w

/-- Kind of a core hang (R376): 0 UNIT, 1 REMOTE, 2 WAIT. -/
def hangKind (s : State) (g : Nat) : Nat :=
  let l := (getCore s g).flights
  if l.any (fun f => decide (f.unit ≤ 1)) then 0 else if l.isEmpty then 2 else 1

/-- Record a hang in the registers (R376, R399). -/
def hangNote (s : State) (kind unit index tag : Nat) : State :=
  let s := wf (wf (wf s F.FH_HANG_INFO_HANG_KIND 0 kind) F.FH_HANG_INFO_UNIT_KIND 0 unit) F.FH_HANG_INFO_INDEX 0 index
  ev (wf s F.FH_HANG_TAG_TAG 0 tag) F.FH_EVENT_HANG 0

/-- A core hang. -/
def coreHang (s : State) (g win : Nat) : State :=
  let k := hangKind s g
  let q := (lowestBusy s g).getD 0
  let tag := (((queueOf s g q).head).map dTag).getD 0
  let dl := k == 2 && rb s F.SEQ_QEVENT_DEADLOCK g
  let retired := rf s F.CORE_PROG_RETIRED_COUNT g
  let info : CperInfo := { CperInfo.plain with tag := tag, dl := dl, hangKind := k, detail := [qstateWord s g q, win, retired] }
  let s := hangNote (hungSet s 1 g retired) k 1 g tag
  fhReport (raise s E.HANG (U.core g) tag 0) 1 g (if k = 0 then 5 else 6) (k == 0) info

/-- Is a core watched now (R375)? -/
def coreWatched (s : State) (g : Nat) : Bool := coreRuns s g && !s.ist.windows.contains g && !s.ist.sweep.contains g

/-- Misses that wait for a channel of a group of eight. -/
def groupMisses (s : State) (p grp : Nat) : List LineReq :=
  (getPart s p).misses.filter fun r => match target r.addr with
    | .stack q off => q == p && channelOf s p off / 8 == grp
    | _ => false

/-- A channel-group hang (R377). -/
def groupHang (s : State) (p grp mark : Nat) : State :=
  let i := 16 * p + grp
  let s := hangNote (hungSet s 5 i mark) 0 5 i 0
  fhReport (raise s E.HANG (U.part p) 0 grp) 5 p 0x13 false { CperInfo.plain with detail := [grp, rf s F.FH_WIN_CHGRP_MS 0] }

/-- Has a port a flit to send: a packet at some input whose way leads out of it (R375)? -/
def portWaits (s : State) (n : Nat) : Bool :=
  (List.range 28).any fun i =>
    let l := inputPackets s i
    (headPlaces l).any fun j => match l[j]? with
      | none => false
      | some e =>
        let r := routeEntry s e.2.dest
        bit 31 r && !bit 30 r && bits 29 28 r != 3 && (let c := candidates s r; !c.isEmpty && choosePort s r e.2 c == n)

/-- A port stall (R377). -/
def portHang (s : State) (n mark : Nat) : State :=
  let s := hangNote (hungSet s 4 n mark) 0 4 n 0
  fhReport (raise s E.HANG (U.port n) 0 0) 4 n 0x21 true { CperInfo.plain with
    detail := [(regLive s (F.FAB_P_STATE_LSTATE.key n)).toNat, rf s F.FAB_P_BLOCK_ERR_LO_COUNT n, rf s F.FAB_P_NBR_INFO_COORD n] }

/-- HANG (R375): a window of a watched unit expires with work pending and the counter where it was. Cores by global index, ports by
number, channel groups under unit kind 5 by 16·p + group. -/
def execHang (kind index : Nat) (s : State) : Host.Outcome State Fault Refusal :=
  if !hubUp s then .next s
  else if kind = 1 then
    match coreWindow s index with
    | none => .next s
    | some w =>
      if index < 260 ∧ coreWatched s index ∧ corePending s index ∧ ¬ coreHung s index then .next (coreHang s index w) else .next s
  else if kind = 4 then
    let mark := rf2 s F.FAB_P_TX_FLITS_LO_COUNT F.FAB_P_TX_FLITS_HI_COUNT index
    if index < 24 ∧ rf s F.FH_WIN_PORT_MS 0 ≠ 0 ∧ lstate s index = 3 ∧ portWaits s index ∧ hungAt s 4 index ≠ some mark then
      .next (portHang s index mark)
    else .next s
  else if kind = 5 then
    let p := index / 16
    match groupMisses s p (index % 16) with
    | [] => .next s
    | r :: _ =>
      if p < 20 ∧ rf s F.FH_WIN_CHGRP_MS 0 ≠ 0 ∧ pstate s p = 0 ∧ ¬ inReset s p ∧ hungAt s 5 index ≠ some r.addr then
        .next (groupHang s p (index % 16) r.addr)
      else .next s
  else .next s

/-! ### Fault history (R381 to R386, R394 to R399) -/

/-- EVENT_AGE_OUT (R383): every event of a signature on a unit has aged 7 days without a verdict, and the signature was transient. -/
def execEventAgeOut (kind index sig : Nat) (s : State) : Host.Outcome State Fault Refusal :=
  let mine := fun (e : FhEvent) => e.kind == kind && e.index == index && e.sig == sig
  let l := s.fh.events.filter mine
  let old := l.all fun e => decide (e.at_ + 604800 ≤ operS s)
  let judged := s.fh.verdicts.any fun v => v.kind == kind && v.index == index && v.sig == sig
  if hubUp s ∧ l.any (·.counted) ∧ old ∧ ¬ judged then
    let s := { s with fh := { s.fh with events := s.fh.events.filter fun e => !mine e } }
    let s := wf s F.FH_STATUS_TRANSIENTS 0 (min 0xFFFF (rf s F.FH_STATUS_TRANSIENTS 0 + 1))
    .next (cperPush (ev s F.FH_EVENT_TRANSIENT 0) kind index sig 1 CperInfo.plain)
  else .next s

/-- The unit that FH_UNIT names: kind, index. -/
def fhUnit (s : State) : Nat × Nat := (rf s F.FH_UNIT_KIND 0, rf s F.FH_UNIT_INDEX 0)

/-- RETEST (R399): every retest of the unit's recorded signatures is queued. -/
def retestUnit (s : State) (u : Nat × Nat) : State :=
  let sigs := (s.fh.events.filter fun e => e.kind == u.1 && e.index == u.2).map (·.sig) ++
    (s.fh.verdicts.filter fun v => v.kind == u.1 && v.index == u.2).map (·.sig)
  (sigs.filter sigRetest).foldl (fun s g => queueRetest s u.1 u.2 g) s

/-- APPLY (R384): the proposed verdicts of a unit take effect. -/
def applyUnit (s : State) (u : Nat × Nat) : State :=
  let mine := fun (v : Verdict) => v.kind == u.1 && v.index == u.2 && !v.applied
  if s.fh.verdicts.any mine then
    let s := { s with fh := { s.fh with verdicts := s.fh.verdicts.map fun v => if mine v then { v with applied := true } else v, digestStale := true } }
    let s := wf s F.FH_STATUS_VERDICTS 0 (verdictCount s)
    verdictAct (warnTrigger s 2) u.1 u.2
  else s

/-- CLEAR_VERDICT (R385): the clearing waits for the next package reset. -/
def clearUnit (s : State) (u : Nat × Nat) : State :=
  if s.fh.clearing.contains u then s else { s with fh := { s.fh with clearing := s.fh.clearing ++ [u] } }

/-- EXPORT_ACK (R397). -/
def exportAck (s : State) : State :=
  let h := rf s F.FH_CPER_HEAD_HEAD 0
  let s := if h = rf s F.FH_CPER_TAIL_TAIL 0 then s else wf s F.FH_CPER_HEAD_HEAD 0 (h + 1)
  { s with fh := { s.fh with cper := cperKept s } }

/-- What the pulses of FH_CMD do: RETEST, APPLY, CLEAR_VERDICT, EXPORT_ACK. -/
def fhCmdEffect (pulse : Word) (s : State) : State :=
  let s := if wbits 0 0 pulse = 1 then retestUnit s (fhUnit s) else s
  let s := if wbits 1 1 pulse = 1 then applyUnit s (fhUnit s) else s
  let s := if wbits 2 2 pulse = 1 then clearUnit (grantUse s) (fhUnit s) else s
  if wbits 3 3 pulse = 1 then exportAck s else s

/-- Is a write to FH_CMD that clears a verdict authorised (R385, R447)? -/
def clearAllowed (s : State) (req : Requester) : Bool :=
  req == .mgmt && grantAdmits s 3 (regLive s (F.FH_UNIT_KIND.key 0)).toNat none

/-- A write to FH_CMD through a view; the clear alias writes no pulse. -/
def fhCmdWrite (req : Requester) (view : Nat) (v : Word) (s : State) : Host.Outcome State Fault Refusal :=
  let pulse := if view = 2 then 0 else v
  if hubUp s ∧ wbits 2 2 pulse = 1 ∧ ¬ clearAllowed s req then .next (accFault s 7 req.id (winOff .fh 0 (1024 * view + 0x1C)))
  else regWriteTo s req .fh 0 0x1C view v fun _ _ s => fhCmdEffect pulse s

/-- EXPORT_ACK (R397). -/
def execExportAck (req : Requester) (s : State) : Host.Outcome State Fault Refusal := fhCmdWrite req 0 8 s
/-- CLEAR_VERDICT (R385). -/
def execClearVerdict (req : Requester) (s : State) : Host.Outcome State Fault Refusal := fhCmdWrite req 0 4 s
/-- APPLY (R384). -/
def execApply (req : Requester) (s : State) : Host.Outcome State Fault Refusal := fhCmdWrite req 0 2 s
/-- RETEST (R399). -/
def execRetest (req : Requester) (s : State) : Host.Outcome State Fault Refusal := fhCmdWrite req 0 1 s

/-- A record has gone to the management layer. -/
def Cper.asSent (c : Cper) : Cper := { c with sent := true }

/-- CPER_SEND (R397): the oldest record not yet sent goes to the management layer. -/
def execCperSend (s : State) : Host.Outcome State Fault Refusal :=
  match s.fh.cper.find? fun e => !e.2.sent with
  | none => .next s
  | some r =>
    let s := { s with
      fh := { s.fh with cper := s.fh.cper.map fun (e : Nat × Cper) => if e.1 = r.1 then (e.1, e.2.asSent) else e }
      sec := { s.sec with reports := s.sec.reports ++ [r.2.body] } }
    .next { s with fh := { s.fh with cper := cperKept s } }

/-- The verdict table as the digest takes it (R386). -/
def verdictBytes (s : State) : List Byte :=
  (sortBy (fun v : Verdict => v.kind * 2 ^ 24 + v.index * 2 ^ 8 + v.sig) s.fh.verdicts).flatMap fun v =>
    toLE 1 v.kind ++ toLE 2 v.index ++ toLE 1 v.sig ++ toLE 4 v.oper

/-- FH_DIGEST_RECOMPUTE (R386). -/
def execFhDigestRecompute (s : State) : Host.Outcome State Fault Refusal :=
  if s.fh.digestStale then
    let d := sha3 (verdictBytes s)
    let s := (List.range 8).foldl (fun s n => wf s (F.FH_DIGEST_DIGEST.nth n) 0 (fieldLE (4 * n) 4 d)) s
    .next (attestCapture { s with fh := { s.fh with digestStale := false } })
  else .next s

/-- OPERATING_SECOND (R381): in P0, P1 or P2. -/
def execOperatingSecond (s : State) : Host.Outcome State Fault Refusal :=
  if hubUp s then .next (wf s F.FH_OPER_S_SECONDS 0 ((operS s + 1) % 2 ^ 32)) else .next s

/-! ### In-service test (R388 to R393) -/

/-- Patterns of the set in use: the active package's, else the baseline set's (R393). -/
def patternCount (s : State) : Nat :=
  match s.ist.active.bind fun i => (s.ist.slots.getD i none) with
  | some p => p.patterns
  | none => Config.baselinePatterns

/-- Signatures whose retest is the core pattern set in test windows (R387). -/
def patternSigs : List Nat := [1, 2, 5]

/-- Queued pattern-set retests of a core. -/
def patternRetests (s : State) (g : Nat) : List Nat :=
  (s.fh.retests.filter fun r => r.1 == 1 && r.2.1 == g && patternSigs.contains r.2.2).map (·.2.2)

/-- Test time of a core in the last second, in ns (R389). -/
def testTime (s : State) (g : Nat) : Nat :=
  ((s.ist.spent.filter fun e => e.1 == g && decide (s.time.now < e.2.1 + 10 ^ 9)).map (·.2.2)).foldl (· + ·) 0

/-- Test time that a core may spend in a second, in ns (R389, R400). -/
def testBudget (s : State) (g : Nat) : Nat :=
  if role s g = 1 then rf s F.IST_CTRL_SPARE_DUTY 0 * 10 ^ 7 else min 5 (rf s F.IST_CTRL_CAP 0) * 10 ^ 6

/-- May a test window open on a core (R389, R400)? -/
def windowOpens (s : State) (g : Nat) : Bool :=
  decide (g < 260) && hubUp s && rb s F.IST_CTRL_EN 0 && decide (role s g ≤ 1) && !inReset s (partOf g) && pstate s (partOf g) == 0 &&
    !s.ist.windows.contains g && !s.ist.sweep.contains g && (getCore s g).flights.isEmpty &&
    (List.range 8).all (fun q => queueIdle s g q) && decide (testTime s g < testBudget s g) &&
    !(!(patternRetests s g).isEmpty && s.sr.steps.any fun t => t.state == 2)

/-- A package that waits in the inactive slot becomes active (R392). -/
def packageTurn (s : State) : State :=
  if s.ist.staged then
    let i := if s.ist.active = some 0 then 1 else 0
    match s.ist.slots.getD i none with
    | none => s
    | some p =>
      let s := { s with ist := { s.ist with active := some i, staged := false, passed := [] } }
      let s := wf (wf (wf s F.IST_PKG_ID_VALUE 0 p.id) F.IST_PKG_VER_VALUE 0 p.ver) F.IST_STATUS_PKG_VALID 0 1
      ev s F.IST_EVENT_PKG_LOADED 0
  else s

/-- IST_WINDOW_OPEN (R389). -/
def execIstWindowOpen (core : Nat) (s : State) : Host.Outcome State Fault Refusal :=
  if !hubUp s then .next s else
  if windowOpens s core then
    let s := packageTurn s
    .next { s with ist := { s.ist with windows := s.ist.windows ++ [core] } }
  else .next s

/-- A window closes. -/
def windowClose (s : State) (g : Nat) : State := { s with ist := { s.ist with windows := s.ist.windows.filter (· != g) } }

/-- IST_PREEMPT (R389): a descriptor has reached a queue of a core under test; the test stops within 128 arithmetic cycles. -/
def execIstPreempt (core delay : Nat) (s : State) : Host.Outcome State Fault Refusal :=
  if s.ist.windows.contains core ∧ corePending s core ∧ delay ≤ 128 then
    .next (bumpIf (windowClose s core) F.IST_CTRL_CNT_EN F.IST_PREEMPT_CYC_LO_COUNT 0 delay)
  else .next s

/-- Patterns of the set that a core has passed. -/
def passedOf (s : State) (g : Nat) : List Nat := (aget s.ist.passed g).getD []

/-- A pattern passed; with the whole set passed, the core's pattern-set retests pass (R383). -/
def patternPass (s : State) (g pattern : Nat) : State :=
  let s := bumpIf s F.IST_CTRL_CNT_EN F.IST_PASSES_LO_COUNT 0 1
  let l := if (passedOf s g).contains pattern then passedOf s g else passedOf s g ++ [pattern]
  if (List.range (patternCount s)).all (fun k => l.contains k) then
    let s := { s with ist := { s.ist with passed := adel s.ist.passed g } }
    (patternRetests s g).foldl (fun s sig => retestEnd s 1 g sig true) s
  else { s with ist := { s.ist with passed := aput s.ist.passed g l } }

/-- A test failure of a core (R390): an IST_FAIL event, a failed retest and a permanent verdict. With `act` the action follows at once. -/
def istFail (s : State) (g pattern expected got : Nat) (act : Bool) : State :=
  let s := ev (bumpIf s F.IST_CTRL_CNT_EN F.IST_FAILS_LO_COUNT 0 1) F.IST_EVENT_FAIL 0
  let s := wf (wf s F.IST_FAIL_INFO_PATTERN 0 pattern) F.IST_FAIL_INFO_CORE 0 g
  let s := raise s E.IST_FAIL (U.core g) 0 pattern
  let info : CperInfo := { CperInfo.plain with detail := [pattern, expected, got] }
  let s := ev (fhReport s 1 g 8 false info) F.FH_EVENT_RETEST_FAIL 0
  let r := enterVerdict s 1 g 8 3 info
  if r.2 && act then verdictAct r.1 1 g else r.1

/-- IST_PATTERN_DONE (R388 to R390): in a test window, which ends with its pattern, or in a sweep. -/
def execIstPatternDone (core pattern cycles expected got : Nat) (s : State) : Host.Outcome State Fault Refusal :=
  let win := s.ist.windows.contains core
  if (win || s.ist.sweep.contains core) && decide (pattern < patternCount s) then
    let s := bumpIf s F.IST_CTRL_CNT_EN F.IST_CYC_LO_COUNT 0 cycles
    let old := s.ist.spent.filter fun e => decide (s.time.now < e.2.1 + 10 ^ 9)
    let s := if win then { windowClose s core with ist := { (windowClose s core).ist with
        spent := old ++ [(core, s.time.now, ceilDiv (cycles * 10) 7)] } } else s
    if expected = got then .next (patternPass s core pattern)
    else
      let s := { s with ist := { s.ist with passed := adel s.ist.passed core } }
      let s := (patternRetests s core).foldl (fun s sig => retestEnd s 1 core sig false) s
      .next (istFail s core pattern expected got true)
  else .next s

/-- Cores that a sweep runs on (R391). -/
def sweepCores (s : State) : List Nat :=
  (List.range 260).filter fun g => decide (role s g ≤ 1) && !ptnDown s (partOf g)

/-- SWEEP (R391): refused while a step is OPEN or SEALED, or no test may run. -/
def sweepStart (s : State) : State :=
  if s.sr.steps.any (fun t => t.state == 1 || t.state == 2) ∨ ¬ rb s F.IST_CTRL_EN 0 then ev s F.IST_EVENT_SWEEP_REFUSED 0
  else
    let s := packageTurn s
    wf { s with ist := { s.ist with sweep := sweepCores s, windows := [], passed := [] } } F.IST_STATUS_SWEEPING 0 1

/-- A sweep is over. -/
def sweepStop (s : State) : State := wf { s with ist := { s.ist with sweep := [], passed := [] } } F.IST_STATUS_SWEEPING 0 0

/-- What the pulses of IST_CMD do: SWEEP, then ABORT_SWEEP. -/
def istCmdEffect (pulse : Word) (s : State) : State :=
  let s := if wbits 0 0 pulse = 1 then sweepStart s else s
  if wbits 1 1 pulse = 1 then sweepStop s else s

/-- SWEEP (R391). -/
def execSweep (req : Requester) (s : State) : Host.Outcome State Fault Refusal :=
  regCmd s req .ist 0 4 1 fun _ _ s => istCmdEffect 1 s
/-- ABORT_SWEEP (R400). -/
def execAbortSweep (req : Requester) (s : State) : Host.Outcome State Fault Refusal :=
  regCmd s req .ist 0 4 2 fun _ _ s => istCmdEffect 2 s
/-- SWEEP_DONE (R391). -/
def execSweepDone (s : State) : Host.Outcome State Fault Refusal :=
  if rb s F.IST_STATUS_SWEEPING 0 then .next (ev (sweepStop s) F.IST_EVENT_SWEEP_DONE 0) else .next s

/-! ### Test packages (R392) -/

/-- The running core firmware's version. -/
def coreVersion (s : State) : Nat := ((s.sec.images.getD (2 + s.sec.coreSlot) none).map (·.version)).getD 0

/-- The package that bytes hold, where they verify. -/
def packageOf (l : List Byte) : Option Package :=
  let body := slice 64 (l.length - 64 - 3309) l
  if 64 + 3309 ≤ l.length ∧ l.length ≤ 524288 ∧ fieldLE 0 4 l = 0x4B505349 ∧ fieldLE 4 2 l = 1 ∧ fieldLE 0x10 4 l = l.length ∧
      fieldLE 0x18 1 l = 0x20 ∧ slice 0x20 32 l = sha3 body ∧
      Config.mldsaVerify Config.packageKey (l.take (l.length - 3309)) (slice (l.length - 3309) 3309 l) = true then
    some ⟨fieldLE 8 4 l, fieldLE 0xC 4 l, fieldLE 0x14 2 l, fieldLE 0x16 2 l, slice 0x20 32 l⟩
  else none

/-- TEST_PACKAGE (R392): written into the inactive slot, or refused. -/
def execTestPackage (pkg : List Byte) (s : State) : Host.Outcome State Fault Refusal :=
  if !hubUp s then .next s
  else
    let active := (s.ist.active.bind fun i => s.ist.slots.getD i none)
    match packageOf pkg with
    | some p =>
      if (active.map (·.ver)).getD 0 < p.ver ∧ p.minFw ≤ coreVersion s then
        let i := if s.ist.active = some 0 then 1 else 0
        .next { s with ist := { s.ist with slots := s.ist.slots.set i (some p), staged := true } }
      else .next (ev s F.IST_EVENT_PKG_REFUSED 0)
    | none => .next (ev s F.IST_EVENT_PKG_REFUSED 0)

end Sys2Proof.Machine
end

