-- ==== Sys2Proof/Machine/HostQueue.lean ====
section
/-! DEFINITION. The host link and the host queue engine: link events, packets from the host, rings, completion queues (R241 to R260; readings: log 23). -/

namespace Sys2Proof.Machine

/-! ### Rings (R250 to R255) -/

/-- A ring-error record, where its completion queue takes it (R254, R257). -/
def ringErrRecord (s : State) (r reason : Nat) : State :=
  let q := rf s F.HQ_RING_CTRL_ERR_CQ r
  if !rb s F.HQ_CQ_CTRL_EN q || cqFull s q then hostWrDrop s
  else
    let g := r / 8
    cqPost s q 0 g (r % 8) 2 (r + reason * 2 ^ 16) (match runner s g with
      | some c => c != g
      | none => false)

/-- A ring enters ERROR (R254). -/
def ringError (s : State) (r reason : Nat) : State :=
  let s := ringPauseWith s r reason
  let s := wf (wf s F.HQ_RING_STATE_STATE r 3) F.HQ_RING_STATE_REASON r reason
  let s := wf (wf s F.HQ_ERR_INFO_REASON 0 reason) F.HQ_ERR_INFO_RING 0 r
  ringErrRecord (ev s F.HQ_EVENT_RING_ERR 0) r reason

/-- Is a read of this ring's producer record outstanding? -/
def recordOut (s : State) (r : Nat) : Bool := (s.host.reads ++ s.host.waiting).any fun h => h.use == .record r

/-- Is a fetch of this ring outstanding? -/
def fetchOut (s : State) (r : Nat) : Bool :=
  (s.host.reads ++ s.host.waiting).any fun h => match h.use with
    | .descs q _ _ => q == r
    | _ => false

/-- Read a ring's producer record; while one is outstanding, exactly one more follows it (R252). -/
def readRecord (s : State) (r : Nat) : State :=
  if recordOut s r then
    if s.host.again.contains r then s else { s with host := { s.host with again := s.host.again ++ [r] } }
  else
    let s := { s with host := { s.host with lastRead := aput s.host.lastRead r (tick s) } }
    (hostRead s (rf2 s F.HQ_RING_PREC_LO_PREC F.HQ_RING_PREC_HI_PREC r) 16 (.record r)).1

/-- A wake (R252): no read for a ring that does not run; a number beyond the last ring names none. -/
def wakeRing (s : State) (r : Nat) : State := if r < 2080 ∧ ringState s r = 1 then readRecord s r else s

/-- What a write to HQ_WAKE does. -/
def hqWakeEffect (v : Word) (s : State) : State :=
  let r := wbits 11 0 v
  if wbits 12 12 v = 1 then (span (r / 8 * 8) 8).foldl wakeRing s else wakeRing s r

/-- RUN (R254, R255). -/
def runRing (s : State) (r : Nat) : State :=
  let lg := rf s F.HQ_RING_CTRL_LOG2_SIZE r
  if lg < 6 ∨ 16 < lg ∨ rf s F.HQ_RING_BASE_LO_BASE r % 4096 ≠ 0 ∨ rf s F.HQ_RING_PREC_LO_PREC r % 16 ≠ 0 then ringError s r 5
  else readRecord (wf (wf s F.HQ_RING_STATE_STATE r 1) F.HQ_RING_STATE_REASON r 0) r

/-- What the pulses of a write to HQ_RING_CTRL do: RUN, then PAUSE (log 23). -/
def ringCtrlEffect (r : Nat) (pulse : Word) (s : State) : State :=
  let s := if wbits 1 1 pulse = 1 then runRing s r else s
  if wbits 2 2 pulse = 1 then ringPauseWith s r 19 else s

/-- Pending work of a ring (R253). -/
def ringPending (s : State) (r : Nat) : Nat := (rf s F.HQ_RING_PIDX_PIDX r + 2 ^ 32 - rf s F.HQ_RING_CIDX_CIDX r) % 2 ^ 32

/-- How many descriptors the next fetch of a ring takes; 0 where it fetches nothing (R253). -/
def fetchCount (s : State) (r : Nat) : Nat :=
  match runner s (r / 8) with
  | none => 0
  | some g =>
    let pending := ringPending s r
    let room := 64 - (queueOf s g (r % 8)).buf.length
    if ringState s r ≠ 1 ∨ ¬ rb s F.HQ_CTRL_ENABLE 0 ∨ fetchOut s r ∨ ptnDown s (partOf g) then 0
    else if room < 16 ∧ room < pending then 0
    else min pending (min room 64)

/-- A fetch: one read, or two where it wraps (R253); the first after an accepted OPEN opens the step (R326). -/
def fetchRing (s : State) (r : Nat) : State :=
  let n := fetchCount s r
  if n = 0 then s
  else
    let s := stepOpenAtFetch s
    let pos := rf s F.HQ_RING_CIDX_CIDX r
    let size := 2 ^ rf s F.HQ_RING_CTRL_LOG2_SIZE r
    let base := rf2 s F.HQ_RING_BASE_LO_BASE F.HQ_RING_BASE_HI_BASE r
    let n1 := min n (size - pos % size)
    let s := (hostRead s (base + 64 * (pos % size)) (64 * n1) (.descs r pos n1)).1
    if n1 = n then s else (hostRead s base (64 * (n - n1)) (.descs r ((pos + n1) % 2 ^ 32) (n - n1))).1

/-- CIDX advances and is written to the producer record (R253). -/
def advanceCidx (s : State) (r n : Nat) : State :=
  let c := (rf s F.HQ_RING_CIDX_CIDX r + n) % 2 ^ 32
  hostWrite (wf s F.HQ_RING_CIDX_CIDX r c) (rf2 s F.HQ_RING_PREC_LO_PREC F.HQ_RING_PREC_HI_PREC r + 8) (toLE 4 c)

/-- Fetched descriptors enter the queue in ring order, and the step's digest (R253, R334). -/
def deliverDescs (s : State) (r pos : Nat) (data : List Byte) : State :=
  match runner s (r / 8) with
  | none => s
  | some g =>
    let ds := (List.range (data.length / 64)).map fun i => (i, slice (64 * i) 64 data)
    let s := ds.foldl (fun s e => foldDesc s r ((pos + e.1) % 2 ^ 32) e.2) s
    let q := queueOf s g (r % 8)
    setQueue s g (r % 8) (QueueSt.passOver { q with buf := q.buf ++ ds.map (·.2) })

/-- A read of a fetch has come back; the last one delivers the fetch whole. One that a pause outran is dropped, and CIDX counts it
where it has not been rewritten (R255). -/
def descsArrive (s : State) (r id pos : Nat) (data : List Byte) : State :=
  let s := { s with host := { s.host with fetched := s.host.fetched ++ [(r, id, pos, data)] } }
  if fetchOut s r then s
  else
    let mine := sortBy (fun e => e.2.1) (s.host.fetched.filter fun e => e.1 == r)
    let bytes := mine.flatMap fun e => e.2.2.2
    let start := ((mine.head?).map (·.2.2.1)).getD pos
    let drop := mine.any fun e => s.host.dropped.contains (r, e.2.1)
    let s := { s with host := { s.host with
      fetched := s.host.fetched.filter fun e => e.1 != r
      dropped := s.host.dropped.filter fun e => e.1 != r } }
    let n := bytes.length / 64
    if drop then (if rf s F.HQ_RING_CIDX_CIDX r = start then advanceCidx s r n else s)
    else
      let s := advanceCidx (deliverDescs s r start bytes) r n
      bumpIf s F.HQ_CTRL_CNT_EN F.HQ_DESC_FETCHED_LO_COUNT 0 n

/-- A producer record has come back (R251 to R253): the checks are made on a ring that runs, the pending count first (R254). -/
def recordArrive (s : State) (r : Nat) (data : List Byte) : State :=
  let s := wf s F.HQ_RING_PIDX_PIDX r (fieldLE 0 4 data)
  let more := s.host.again.contains r
  let s := { s with host := { s.host with again := s.host.again.filter (· != r) } }
  if ringState s r ≠ 1 then s
  else if 2 ^ rf s F.HQ_RING_CTRL_LOG2_SIZE r < ringPending s r then ringError s r 1
  else if bits 11 0 (fieldLE 4 4 data) ≠ r then ringError s r 2
  else if more then readRecord s r else s

/-! ### Host reads (R247, R249) -/

/-- A read ends in error (R249): 3 an error status, 4 a timeout. A ring that does not run keeps its state (log 23). -/
def readFailed (s : State) (h : HostRead) (reason : Nat) : State :=
  let s := ev s F.HQ_EVENT_HOST_RD_ERR 0
  match h.use with
  | .record r =>
    let s := { s with host := { s.host with again := s.host.again.filter (· != r) } }
    if ringState s r = 1 then ringError s r reason else s
  | .descs r _ _ =>
    let s := { s with host := { s.host with fetched := s.host.fetched.filter fun e => e.1 != r } }
    if ringState s r = 1 then ringError s r reason else s
  | .operand g f =>
    let tag := (((getCore s g).flights.find? (fun e => e.id == f)).map (fun e => dTag e.desc)).getD 0
    let s := raise s E.HOST_RD_ERR (U.core g) tag 0
    let c := getCore s g
    runReady (setCore s g { c with flights := c.flights.map fun e => { e with reads := if e.id = f then e.reads.filter (· != h.id) else e.reads } }) g
  | .pannier dst =>
    let (d, s) := freshBytes (raise s E.HOST_RD_ERR U.none 0 0) h.len
    hubWrite s dst d

/-- A read is answered. -/
def readDone (s : State) (h : HostRead) (data : List Byte) : State :=
  let s := bumpIf s F.HQ_CTRL_CNT_EN F.HQ_HOST_RD_BYTES_LO_COUNT 0 h.len
  let d := padTo h.len data
  match h.use with
  | .record r => recordArrive s r d
  | .descs r pos _ => descsArrive s r h.id pos d
  | .operand g f =>
    let c := getCore s g
    let s := if c.flights.any (fun e => e.id == f && e.reads.contains h.id) then
        { s with host := { s.host with got := s.host.got ++ [(g, f, h.addr, d)] } } else s
    runReady (setCore s g { c with flights := c.flights.map fun e => { e with reads := if e.id = f then e.reads.filter (· != h.id) else e.reads } }) g
  | .pannier dst => hubWrite s dst d

/-- Take an outstanding read from the table and send the reads that its tag was wanted for. -/
def takeRead (s : State) (tag : Nat) : Option (HostRead × State) :=
  (s.host.reads.find? fun h => h.tag == tag).map fun h =>
    (h, { s with host := { s.host with reads := s.host.reads.filter fun e => e.id != h.id } })

/-- HMEM_RD_COMPLETION (R249): a completion whose read has timed out is dropped and counted. -/
def execHmemRdCompletion (tag status : Nat) (data : List Byte) (s : State) : Host.Outcome State Fault Refusal :=
  if !linkUp s then .next s
  else
    match takeRead s tag with
    | none => .next (bumpSat s F.HQ_WR_DROPS_COUNT 0 1)
    | some (h, s) =>
      let s := if status = 0 then readDone s h data else readFailed s h 3
      .next (sendReads s.host.waiting.length s)

/-- HMEM_RD_TIMEOUT (R249). -/
def execHmemRdTimeout (tag : Nat) (s : State) : Host.Outcome State Fault Refusal :=
  match takeRead s tag with
  | none => .next s
  | some (h, s) =>
    let s := readFailed s h 4
    .next (sendReads s.host.waiting.length s)

/-! ### Link (R242 to R244) -/

/-- Set what HQ_STATUS tells of the link. -/
def linkStatus (s : State) (modules rate : Nat) : State :=
  wf (wf (wf s F.HQ_STATUS_MODULES 0 modules) F.HQ_STATUS_RATE 0 rate) F.HQ_STATUS_LINK_UP 0 (if modules = 0 then 0 else 1)

/-- Outstanding reads end under R249, until none is left. -/
def endReads (s : State) : State :=
  let all := s.host.reads ++ s.host.waiting
  let s := { s with host := { s.host with reads := [], waiting := [] } }
  all.foldl (fun s h => readFailed s h 3) s

/-- The link leaves L0 other than for P3 (R244). -/
def hostLinkLost (s : State) (trainings : Nat) : State :=
  let s := linkStatus s 0 0
  let s := fhReport (raise s E.UCIE_LINK_DOWN (U.port 24) 0 0) 4 24 0x23 true CperInfo.plain
  let s := ev s F.HQ_EVENT_LINK_DOWN 0
  let s := (List.range 2080).foldl (fun s r => ringPauseWith s r 18) s
  let s := endReads s
  { s with host := { s.host with training := trainings } }

/-- HOST_LINK_DOWN (R244). -/
def execHostLinkDown (s : State) : Host.Outcome State Fault Refusal :=
  if linkUp s then .next (hostLinkLost s 3) else .next s

/-- RETRAIN (R243, R244): a link that is up leaves L0 for it (log 23). -/
def hqRetrainEffect (s : State) : State :=
  if linkUp s then hostLinkLost s 1 else { s with host := { s.host with training := max 1 s.host.training } }

/-- HQ_LINK_RETRAIN (R243). -/
def execHqLinkRetrain (req : Requester) (s : State) : Host.Outcome State Fault Refusal :=
  regCmd s req .hq 0 0x20 1 fun _ _ s => hqRetrainEffect s

/-- The lowest modules of a mask, `n` of them. -/
def lowModules (mask n : Nat) : Nat :=
  (((List.range 4).filter fun m => bit m mask).take n).foldl (fun a m => a + 2 ^ m) 0

/-- The largest set of 4, 2 or 1 modules of a mask (R243). -/
def moduleSet (mask : Nat) : Nat :=
  let n := ((List.range 4).filter fun m => bit m mask).length
  lowModules mask (if n = 4 then 4 else if 2 ≤ n then 2 else n)

/-- A module trained or failed: fault history counts a failure, and its retest is the next training (R243, R387). -/
def moduleTrained (s : State) (m : Nat) (ok : Bool) : State :=
  if s.fh.retests.contains (4, 24 + m, 0x23) then retestEnd s 4 (24 + m) 0x23 ok
  else if ok then s
  else fhReport (raise s E.UCIE_LINK_DOWN (U.port (24 + m)) 0 0) 4 (24 + m) 0x23 true CperInfo.plain

/-- UCIE_TRAIN_END (R243): bit m of a mask tells that module m trained at 32 or 16 GT/s. -/
def execUcieTrainEnd (modules32 modules16 : Nat) (s : State) : Host.Outcome State Fault Refusal :=
  if !hubUp s then .next s else
  if linkUp s || s.host.training == 0 || s.power.inP3 || s.power.held then .next s
  else
    let live32 := moduleSet modules32
    let live := if live32 = 0 then moduleSet modules16 else live32
    let rate := if live = 0 then 0 else if live32 = 0 then 1 else 2
    let s := (List.range 4).foldl (fun s m => moduleTrained s m (bit m modules32)) s
    let s := { s with host := { s.host with training := if live = 0 then s.host.training - 1 else 0 } }
    if live = 0 then .next s
    else
      let s := linkStatus s live rate
      let s := if live ≠ 15 ∨ rate ≠ 2 then ev s F.HQ_EVENT_MODULE_DEGRADE 0 else s
      .next (sendReads s.host.waiting.length s)

/-! ### Packets from the host (R245, R246) -/

/-- DMEM_RD (R246). A partition in reset or P2 answers STATUS 3 (R245). -/
def execDmemRd (tag addr units : Nat) (s : State) : Host.Outcome State Fault Refusal :=
  if !hubUp s then .next s else
  if !linkUp s then .next s
  else if (ownerOf addr).any (fun p => ptnDown s p) then .next (hostSend s (.cpl tag 3 (List.replicate 32 0)))
  else
    let r := hubRead s addr (32 * units)
    .next (hostSend r.1 (.cpl tag 0 r.2))

/-- DMEM_WR (R246). -/
def execDmemWr (addr : Nat) (data : List Byte) (s : State) : Host.Outcome State Fault Refusal :=
  if !hubUp s then .next s else
  if !linkUp s then .next s else .next (hubWrite s addr data)

/-- HOST_PACKET_RESERVED (R246); no register holds the count of dropped packets (log 23). -/
def execHostPacketReserved (ptype tag : Nat) (nonPosted : Bool) (s : State) : Host.Outcome State Fault Refusal :=
  if !hubUp s then .next s else
  if linkUp s ∧ nonPosted ∧ (ptype = 0 ∨ 8 < ptype) then .next (hostSend s (.cpl tag 1 (List.replicate 32 0))) else .next s

/-! ### Ring commands -/

/-- HQ_WAKE (R252). -/
def execHqWake (req : Requester) (value : Word) (s : State) : Host.Outcome State Fault Refusal :=
  regCmd s req .hq 0 0x14 value fun _ _ s => hqWakeEffect value s

/-- RING_POLL (R252): due POLL_US after the ring's last read, within the budget of the microsecond. -/
def execRingPoll (ring : Nat) (s : State) : Host.Outcome State Fault Refusal :=
  let us := rf s F.HQ_RING_CTRL_POLL_US ring
  if ringState s ring ≠ 1 ∨ us = 0 ∨ tick s < (aget s.host.lastRead ring).getD 0 + us then .next s
  else if recordOut s ring then .next (readRecord s ring)
  else if max 1 (rf s F.HQ_CTRL_POLL_BUDGET 0) ≤ s.host.polls then .next (ev s F.HQ_EVENT_POLL_LATE 0)
  else .next (readRecord { s with host := { s.host with polls := s.host.polls + 1 } } ring)

/-- RING_FETCH (R253). -/
def execRingFetch (ring : Nat) (s : State) : Host.Outcome State Fault Refusal := .next (fetchRing s ring)

/-- RING_RUN (R252, R255). -/
def execRingRun (req : Requester) (value : Word) (s : State) : Host.Outcome State Fault Refusal :=
  regCmd s req .hqRing 0 0 value fun r _ s => ringCtrlEffect r value s

/-- RING_PAUSE (R254, R255). -/
def execRingPause (req : Requester) (value : Word) (s : State) : Host.Outcome State Fault Refusal :=
  regCmd s req .hqRing 0 0 value fun r _ s => ringCtrlEffect r value s

/-- HQ_RING_CIDX_WRITE (R255, R260). -/
def execHqRingCidxWrite (req : Requester) (value : Word) (s : State) : Host.Outcome State Fault Refusal :=
  regCmd s req .hqRing 0 0x18 value noEffect

/-! ### Completion-queue commands -/

/-- HQ_CQ_HEAD_WRITE (R257). -/
def execHqCqHeadWrite (req : Requester) (value : Word) (s : State) : Host.Outcome State Fault Refusal :=
  regCmd s req .hqCq 0 0x0C value noEffect

/-- What a write to HQ_CQ_CTRL does: enabling starts the queue afresh; a disabled queue has no hold-off (R258, R260). -/
def cqCtrlEffect (q : Nat) (old : Word) (s : State) : State :=
  let en := rb s F.HQ_CQ_CTRL_EN q
  if en ∧ wbits 0 0 old = 0 then
    wf { s with host := { s.host with phase0 := s.host.phase0.filter (· != q) } } F.HQ_CQ_TAIL_TAIL q 0
  else if en then s
  else { s with host := { s.host with holdoff := s.host.holdoff.filter fun e => e.1 != q } }

/-- CQ_ENABLE (R260). -/
def execCqEnable (req : Requester) (value : Word) (s : State) : Host.Outcome State Fault Refusal :=
  regCmd s req .hqCq 0 0 value cqCtrlEffect

end Sys2Proof.Machine
end

