-- ==== Sys2Proof/Machine/Roles.lean ====
section
/-! DEFINITION. Register commands on cores: fencing and Remount, the queues' control registers, counter clears and injections (R86, R90, R148, R163, R222, R232, R345, R346). -/

namespace Sys2Proof.Machine

/-! ### Fence and Remount -/

/-- A fence that the run-time writes (R345, R385): fault history records RUNTIME_FENCE, and the retest follows at the next package
reset. -/
def runtimeFence (s : State) (g : Nat) : State :=
  if role s g = 0 ∨ role s g = 1 then
    let s := fhReport s 1 g 0x07 false CperInfo.plain
    let s := { s with fh := { s.fh with rtFences := s.fh.rtFences ++ [g] } }
    fenceCore s g
  else s

/-- REMOUNT of a fenced core that no core stands for (R346). -/
def remountEffect (s : State) (g : Nat) : State := if role s g = 2 ∧ (standIn s g).isNone then remountCore s g else s

/-- What a write to PTN_CORE_CTRL does; a write of 0 to FENCE is ignored (R345, R352). -/
def coreCtrlEffect (g : Nat) (v : Word) (s : State) : State :=
  let s := if wbits 0 0 v = 1 then runtimeFence s g else s
  if wbits 1 1 v = 1 then remountEffect s g else s

/-- FENCE (R345). -/
def execFence (req : Requester) (partition : Nat) (s : State) : Host.Outcome State Fault Refusal :=
  regCmd s req .ptnCore partition 0x20 1 fun g _ s => coreCtrlEffect g 1 s

/-- REMOUNT (R346), by the set alias. -/
def execRemount (req : Requester) (partition : Nat) (s : State) : Host.Outcome State Fault Refusal :=
  regWriteTo s req .ptnCore partition 0x20 1 2 fun g _ s => coreCtrlEffect g 2 s

/-! ### Queue control -/

/-- What a write to SEQ_QCTRL does (R222): DISCARD, which also pauses the queue's ring (R254), then RESUME. -/
def queueCtrlEffect (q g : Nat) (pulse : Word) (s : State) : State :=
  let s := if wbits 9 9 pulse = 1 then ringPauseWith (queueDiscard s g q) (8 * logical s g + q) 16 else s
  if wbits 8 8 pulse = 1 then queueResume s g q else s

/-- QBRSEL_WRITE (R232). -/
def execQbrselWrite (req : Requester) (core queue : Nat) (value : Word) (s : State) : Host.Outcome State Fault Refusal :=
  regCmd s req .seqQ core (0x98 + 0x20 * queue) value fun g _ s => qbrselEffect s req g queue value

/-- QUEUE_DISCARD (R222), by the set alias. -/
def execQueueDiscard (req : Requester) (core queue : Nat) (s : State) : Host.Outcome State Fault Refusal :=
  regWriteTo s req .seqQ core (0x80 + 0x20 * queue) 1 0x200 fun g _ s => queueCtrlEffect queue g 0x200 s

/-- QUEUE_RESUME (R222), by the set alias. -/
def execQueueResume (req : Requester) (core queue : Nat) (s : State) : Host.Outcome State Fault Refusal :=
  regWriteTo s req .seqQ core (0x80 + 0x20 * queue) 1 0x100 fun g _ s => queueCtrlEffect queue g 0x100 s

/-- LOOP_COUNT_WRITE (R226). -/
def execLoopCountWrite (req : Requester) (core reg : Nat) (value : Word) (s : State) : Host.Outcome State Fault Refusal :=
  regCmd s req .seqQ core (0x40 + 4 * reg) value fun g _ s => loopCountEffect s g reg value

/-! ### Counters and injections of a core -/

/-- Set registers of a page instance to zero. -/
def zeroRegs (s : State) (b : Blk) (i : Nat) (offs : List Nat) : State := offs.foldl (fun s o => regPut s (regKey b i o) 0) s

/-- CLEAR of MX_CNT_CLR (R90). -/
def mxCntClrEffect (g : Nat) (s : State) : State :=
  zeroRegs s .mx g ([0x14, 0x18] ++ (List.range 14).map (0x40 + 4 * ·))

/-- CLEAR of VX_CNT_CLR (R163). -/
def vxCntClrEffect (g : Nat) (s : State) : State :=
  zeroRegs s .vx g ([0x14, 0x18] ++ (List.range 10).map (0x40 + 4 * ·))

/-- CLEAR of QNT_CNT_CLR (R148). -/
def qntCntClrEffect (g : Nat) (s : State) : State := zeroRegs s .qnt g [0x10, 0x14, 0x18, 0x1C, 0x40, 0x44]

/-- ARM of MX_BRAMBLE_INJ (R86). -/
def mxArmEffect (g : Nat) (v : Word) (s : State) : State := if wbits 8 8 v = 1 then wf s F.MX_BRAMBLE_INJ_ARMED g 1 else s

/-- ARM of VX_BRAMBLE_INJ (R161). -/
def vxArmEffect (g : Nat) (v : Word) (s : State) : State := if wbits 8 8 v = 1 then wf s F.VX_BRAMBLE_INJ_ARMED g 1 else s

/-- MX_CNT_CLR (R90). -/
def execMxCntClr (req : Requester) (core : Nat) (s : State) : Host.Outcome State Fault Refusal :=
  regCmd s req .mx core 0x24 1 fun g _ s => mxCntClrEffect g s

/-- QNT_CNT_CLR (R148). -/
def execQntCntClr (req : Requester) (core : Nat) (s : State) : Host.Outcome State Fault Refusal :=
  regCmd s req .qnt core 0x20 1 fun g _ s => qntCntClrEffect g s

/-- VX_CNT_CLR (R163). -/
def execVxCntClr (req : Requester) (core : Nat) (s : State) : Host.Outcome State Fault Refusal :=
  regCmd s req .vx core 0x24 1 fun g _ s => vxCntClrEffect g s

/-- MX_BRAMBLE_INJ_ARM (R86). -/
def execMxBrambleInjArm (req : Requester) (core : Nat) (value : Word) (s : State) : Host.Outcome State Fault Refusal :=
  regCmd s req .mx core 0x20 value fun g _ s => mxArmEffect g value s

/-- VX_BRAMBLE_INJ_ARM (R161). -/
def execVxBrambleInjArm (req : Requester) (core : Nat) (value : Word) (s : State) : Host.Outcome State Fault Refusal :=
  regCmd s req .vx core 0x20 value fun g _ s => vxArmEffect g value s

end Sys2Proof.Machine
end

