-- ==== Sys2Proof/Machine/MemControl.lean ====
section
/-! DEFINITION. The command registers of a stack, its channels and its slice (R191, R192). -/

namespace Sys2Proof.Machine

/-! ### SC_CMD -/

/-- KEEP_RELEASE: every keep-class line becomes normal. -/
def keepRelease (s : State) (p : Nat) : State :=
  let d := getPart s p
  setPart s p { d with lines := d.lines.map fun l => { l with keep := false } }

/-- CNT_CLR of SC_CMD. -/
def scCntClr (s : State) (p : Nat) : State := zeroRegs s .sc p (0x20 :: (List.range 10).map (0x40 + 4 * ·))

/-- What the pulses of SC_CMD do: FLUSH, INVALIDATE, KEEP_RELEASE, CNT_CLR. -/
def scCmdEffect (p : Nat) (pulse : Word) (s : State) : State :=
  let s := if wbits 0 0 pulse = 1 then flushSlice s p else s
  let s := if wbits 1 1 pulse = 1 then invalidateSlice s p else s
  let s := if wbits 2 2 pulse = 1 then keepRelease s p else s
  if wbits 3 3 pulse = 1 then scCntClr s p else s

/-- FLUSH (R192). -/
def execFlush (req : Requester) (partition : Nat) (s : State) : Host.Outcome State Fault Refusal :=
  regCmd s req .sc partition 0x1C 1 fun p _ s => scCmdEffect p 1 s
/-- INVALIDATE (R192). -/
def execInvalidate (req : Requester) (partition : Nat) (s : State) : Host.Outcome State Fault Refusal :=
  regCmd s req .sc partition 0x1C 2 fun p _ s => scCmdEffect p 2 s
/-- KEEP_RELEASE (R180, R192). -/
def execKeepRelease (req : Requester) (partition : Nat) (s : State) : Host.Outcome State Fault Refusal :=
  regCmd s req .sc partition 0x1C 4 fun p _ s => scCmdEffect p 4 s
/-- SC_CNT_CLR (R192). -/
def execScCntClr (req : Requester) (partition : Nat) (s : State) : Host.Outcome State Fault Refusal :=
  regCmd s req .sc partition 0x1C 8 fun p _ s => scCmdEffect p 8 s

/-! ### Channels -/

/-- DETAIL words of a channel or lane verdict by request (R396). -/
def chanDetail (s : State) (c : Nat) : CperInfo :=
  { CperInfo.plain with detail := [rf s F.MEM_CH_LANE_ERR_LANES c, 0, (regLive s (F.MEM_CH_STATE_STATE.key c)).toNat] }

/-- What the pulses of MEM_CH_CTRL do: REQ_OUT, then RETIRE_LANE of the lane that the register names after the write (R191). -/
def chCtrlEffect (c : Nat) (pulse : Word) (s : State) : State :=
  let s := if wbits 0 0 pulse = 1 then recordVerdict s 2 c 0x16 6 (chanDetail s c) else s
  if wbits 1 1 pulse = 1 then recordVerdict s 3 (19 * c + rf s F.MEM_CH_CTRL_LANE c) 0x15 6 (chanDetail s c) else s

/-- A write to MEM_CH_CTRL: with RETIRE_LANE and a LANE above 18 it is ignored as a whole, with reason 6 (R43, R191). -/
def chCtrlWrite (s : State) (req : Requester) (p view : Nat) (v : Word) : Host.Outcome State Fault Refusal :=
  let bad := wbits 1 1 v == 1 && view != 2 && match reached s req .memCh p 4 true with
    | some l => l.any fun c => decide (18 < wbits 12 8 (viewWord view (regLive s (regKey .memCh c 4)) v))
    | none => false
  if hubUp s && !pageDown s .memCh p && bad then .next (accFault s 6 req.id (winOff .memCh p (1024 * view + 4)))
  else regWriteTo s req .memCh p 4 view v fun c _ s => chCtrlEffect c (if view = 2 then 0 else v) s

/-- RETIRE_LANE (R191). -/
def execRetireLane (req : Requester) (partition : Nat) (value : Word) (s : State) : Host.Outcome State Fault Refusal :=
  chCtrlWrite s req partition 0 value

/-- REQ_OUT (R191). -/
def execReqOut (req : Requester) (partition : Nat) (value : Word) (s : State) : Host.Outcome State Fault Refusal :=
  chCtrlWrite s req partition 0 value

/-- CLEAR of MEM_CH_CLR. -/
def chClrEffect (c : Nat) (s : State) : State := zeroRegs s .memCh c [0x08, 0x0C, 0x10]

/-- MEM_CH_CLR (R191). -/
def execMemChClr (req : Requester) (partition : Nat) (s : State) : Host.Outcome State Fault Refusal :=
  regCmd s req .memCh partition 0x14 1 fun c _ s => chClrEffect c s

/-- CLEAR of MEM_CNT_CLR. -/
def memCntClrEffect (p : Nat) (s : State) : State := zeroRegs s .mem p ((List.range 8).map (0x40 + 4 * ·))

/-- MEM_CNT_CLR (R191). -/
def execMemCntClr (req : Requester) (partition : Nat) (s : State) : Host.Outcome State Fault Refusal :=
  regCmd s req .mem partition 0x1C 1 fun p _ s => memCntClrEffect p s

end Sys2Proof.Machine
end

