-- ==== Sys2Proof/Machine/Partition.lean ====
section
/-! DEFINITION. Stack training and relayout, the phases of a partition reset, and the power states of a partition (R171, R172, R378, R379, R419, R422 to R427; readings: log 32). -/

namespace Sys2Proof.Machine

/-! ### Training (R171) -/

/-- What a reset without a report of a partition measured: nothing fails. -/
def Measured.clean : Measured := ⟨[], [], [], true⟩

/-- What was measured for a partition. -/
def measuredOf (ms : List (Nat × Measured)) (p : Nat) : Measured := (aget ms p).getD Measured.clean

/-- Does a permanent verdict of any signature stand against a lane of a channel? -/
def laneRetired (s : State) (c l : Nat) : Bool := standing s 3 (19 * c + l)

/-- A lane that may not carry data: retired, or it fails training. -/
def laneBad (s : State) (m : Measured) (p k l : Nat) : Bool := laneRetired s (128 * p + k) l || m.laneFails.contains (k, l)

/-- Set-up of a channel: its state (0 in service, 2 mapped out), and the lane that lane 18 replaces. -/
def chanSetup (s : State) (m : Measured) (p k : Nat) : Nat × Nat :=
  let bad := (List.range 18).filter (laneBad s m p k)
  let spare := !laneBad s m p k 18
  if standing s 2 (128 * p + k) ∨ m.chanFails.contains k ∨ b2n spare < bad.length then (2, 31) else (0, bad.headD 31)

/-- Train a channel. One that is mapped out without a standing map-out verdict takes one (signature 0x17). -/
def trainChan (s : State) (m : Measured) (p k : Nat) : State :=
  let c := 128 * p + k
  let r := chanSetup s m p k
  let had := standing s 2 c
  let s := wf (wf s F.MEM_CH_STATE_STATE c r.1) F.MEM_CH_STATE_SPARE_FOR c r.2
  if r.1 = 2 ∧ ¬ had then (enterVerdict s 2 c 0x17 3 { CperInfo.plain with
      detail := [rf s F.MEM_CH_LANE_ERR_LANES c, 0, (regLive s (F.MEM_CH_STATE_STATE.key c)).toNat] }).1
  else s

/-- Lane retests that a training of the stack ends (R387). -/
def laneRetests (s : State) (p : Nat) : List (Nat × Nat × Nat) :=
  s.fh.retests.filter fun r => (r.1 == 3 && r.2.1 / 19 / 128 == p && r.2.2 == 0x10) || (r.1 == 2 && r.2.1 / 128 == p && r.2.2 == 0x17)

/-- A retest ends; a failure is a permanent verdict, whose action follows at once where `act` says so. -/
def retestClose (s : State) (r : Nat × Nat × Nat) (pass act : Bool) : State :=
  if act then retestEnd s r.1 r.2.1 r.2.2 pass
  else
    let s := { s with fh := { s.fh with retests := s.fh.retests.filter (· != r) } }
    if pass then s else (enterVerdict (ev s F.FH_EVENT_RETEST_FAIL 0) r.1 r.2.1 r.2.2 3 CperInfo.plain).1

/-- Train a stack: every channel, the retests that wait for training, and the counts of MEM_STATUS. -/
def trainStack (s : State) (p : Nat) (m : Measured) : State :=
  let s := (laneRetests s p).foldl (fun s r =>
    retestClose s r (if r.1 = 3 then !m.laneFails.contains (r.2.1 / 19 % 128, r.2.1 % 19) else !m.chanFails.contains (r.2.1 % 128)) false) s
  let s := (List.range 128).foldl (fun s k => trainChan s m p k) s
  let n := fun (q : Nat → Bool) => ((List.range 128).filter fun k => q (128 * p + k)).length
  let s := wf s F.MEM_STATUS_CH_OUT p (n fun c => rf s F.MEM_CH_STATE_STATE c == 2)
  wf (wf s F.MEM_STATUS_LANE_SPARED p (n fun c => rf s F.MEM_CH_STATE_SPARE_FOR c != 31)) F.MEM_STATUS_PENDING p 0

/-- Relayout (R172): an offset keeps its content unless its old channel is newly mapped out or it ceases to exist. -/
def relayout (s : State) (p : Nat) (old : List Nat) : State :=
  let now := outList s p
  if now = old then s
  else
    let live := fun (a : Nat) => !now.contains (interleave old a).1 && decide (a < userMib s p * 2 ^ 20)
    let q := getPart s p
    setPart s p { q with stack := q.stack.filter (fun e => live e.1), check := q.check.filter (fun e => live (32 * e.1)) }

/-! ### The core check (R378, R387) -/

/-- The core check of one core: a failure is a permanent verdict; core-store retests end here. -/
def checkCore (s : State) (m : Measured) (act : Bool) (g : Nat) : State :=
  let ok := !m.coreFails.contains (g % 13)
  if role s g = 3 then s
  else
    let s := (s.fh.retests.filter fun r => r.1 == 1 && r.2.1 == g && (r.2.2 == 3 || r.2.2 == 4)).foldl (fun s r => retestClose s r ok act) s
    if ok then s
    else
      let (v, s) := fresh s
      istFail s g (v % 2 ^ 16) 0 0 act

/-- The core check of a partition. -/
def checkCores (s : State) (p : Nat) (m : Measured) (act : Bool) : State :=
  (span (13 * p) 13).foldl (fun s g => checkCore s m act g) s

/-! ### The phases of a partition reset (R378) -/

/-- Does a signal lead to a core of a partition on this device? -/
def signalTo (p : Nat) (x : Signal) : Bool := partOf (bits 16 8 x.word) == p

/-- Phase 1: the partition's rings pause, signals to it drop, accepted accesses end, and a capture that reads its stack is given up (R362). -/
def quiesce (s : State) (p : Nat) : State :=
  let s := (span (13 * p) 13).foldl (fun s g => pauseRingsOf s g 17) s
  let s := { s with signals := s.signals.filter fun x => !signalTo p x }
  let hit := s.ckp.capturing && !s.ckp.captured && s.ckp.exts.any fun e => ownerOf e.1 == some p
  settleMisses (if hit then ckpAbort s 9 else s) p

/-- Phases 2 and 3: write-back, self-refresh, CONTENT_KEPT. -/
def writeBack (s : State) (p : Nat) (kept : Bool) : State :=
  let s := flushSlice s p
  wf s F.RST_CONTENT_CONTENT_KEPT 0 (putBits p p (b2n kept) (rf s F.RST_CONTENT_CONTENT_KEPT 0))

/-- Does a key name a register of a partition that its reset returns to reset values? PTN_EVENT, the roles and fence bits, and what training sets stay. -/
def resetsWith (p k : Nat) : Bool :=
  match keyBlk k with
  | some .mem => keyInst k == p
  | some .sc => keyInst k == p
  | some .memCh => keyInst k / 128 == p && keyOff k != 0
  | some .ptn => keyInst k % 64 == p && keyOff k != 0x28
  | some .core | some .seqQ | some .seqF | some .mx | some .vx | some .qnt => keyInst k / 13 == p
  | _ => false

/-- Forget the registers of a partition that `out` names, live and pending. -/
def forget (s : State) (out : Nat → Bool) : State :=
  { s with
    regs := s.regs.filter fun e => !out e.1
    pend := s.pend.filter fun e => !out e.1
    heldWrites := s.heldWrites.filter fun h => !out h.key
    tmr := s.tmr.filter fun e => !out (e.1 / 32)
    seqTicked := s.seqTicked.filter fun k => !out k }

/-- Cores, slice and controllers lose what they hold; the stack keeps its contents where `kept`. -/
def powerLoss (s : State) (p : Nat) (kept : Bool) : State :=
  let s := (span (13 * p) 13).foldl (fun s g => setCore s g CoreSt.reset) s
  let q := getPart s p
  let s := setPart s p (if kept then { PartSt.reset with stack := q.stack, check := q.check } else PartSt.reset)
  { s with
    host := { s.host with got := s.host.got.filter fun e => e.1 / 13 != p }
    ist := { s.ist with windows := s.ist.windows.filter (fun g => g / 13 != p), sweep := s.ist.sweep.filter (fun g => g / 13 != p) } }

/-- Phase 4: the logic reset. Channels that were mapped out are remembered until training. -/
def logicReset (s : State) (p : Nat) (kept : Bool) : State :=
  let out := rf s F.MEM_STATUS_CH_OUT p
  wf (powerLoss (forget s (resetsWith p)) p kept) F.MEM_STATUS_CH_OUT p out

/-- What the Waybill shows of a partition: a change of it is a change of the Waybill. -/
def partFacts (s : State) (p : Nat) : List Nat :=
  (List.range 128).map (fun k => (regLive s (F.MEM_CH_STATE_STATE.key (128 * p + k))).toNat) ++
    (span (13 * p) 13).map (fun g => (regLive s (F.PTN_CORE_STATE_ROLE.key g)).toNat) ++
    [rf s F.MEM_STATUS_ECC2_LIVE p, partStateCode s s.power.failed p]

/-- Has a partition no working stack, or no active core (R378)? -/
def partDead (s : State) (p : Nat) : Bool := rf s F.MEM_STATUS_CH_OUT p == 128 || roleCount s p 0 == 0

/-- The partition reads failed, or no longer does (R347, R378). -/
def settleFailed (s : State) (p : Nat) : State :=
  let rest := s.power.failed.filter (· != p)
  if partDead s p then
    let was := s.power.failed.contains p
    let s := { s with power := { s.power with failed := rest ++ [p] } }
    if was then s else degraded s p
  else { s with power := { s.power with failed := rest } }

/-- Phases 5 to 8: training, relayout, core check, exit. `facts` is what the Waybill showed before. -/
def bringBack (s : State) (p : Nat) (m : Measured) (old : List Nat) (facts : List Nat) : State :=
  let s := relayout (trainStack s p m) p old
  let s := settleFailed (checkCores s p m true) p
  let s := if partFacts s p = facts then s else waybillDue s
  raise s E.PARTITION_READY (U.part p) 0 0

/-- A partition reset (R378). -/
def resetPartition (s : State) (p : Nat) (m : Measured) : State :=
  let facts := partFacts s p
  let old := outList s p
  let s := setPstate (writeBack (quiesce s p) p m.kept) p 0
  bringBack (logicReset s p m.kept) p m old facts

/-! ### PARTITION_RESET (R419) -/

/-- A reset write that starts nothing. -/
def rstRefuse (s : State) (reason p : Nat) : State :=
  ev (wf (wf s F.RST_INFO_REASON 0 reason) F.RST_INFO_PARTITION 0 p) F.RST_EVENT_REFUSED 0

/-- What RESET of RST_PTN_CMD does with the partition that the register names. -/
def ptnResetEffect (m : Measured) (v : Word) (s : State) : State :=
  let p := wbits 4 0 v
  if wbits 8 8 v = 0 then s
  else if ¬ rb s F.RST_EN_PTN_EN 0 then rstRefuse s 1 p
  else if 20 ≤ p ∨ ptnDown s p then rstRefuse s 2 p
  else ev (resetPartition s p m) F.RST_EVENT_PTN_DONE 0

/-- PARTITION_RESET: a write to RST_PTN_CMD. -/
def execPartitionReset (req : Requester) (value : Word) (m : Measured) (s : State) : Host.Outcome State Fault Refusal :=
  regCmd s req .rst 0 4 value fun _ _ s => ptnResetEffect m value s

/-! ### P1 (R425) -/

/-- Is a retest queued for a unit of a partition? -/
def retestIn (s : State) (p : Nat) : Bool :=
  s.fh.retests.any fun r => (r.1 == 1 && r.2.1 / 13 == p) || (r.1 == 2 && r.2.1 / 128 == p) || (r.1 == 3 && r.2.1 / 19 / 128 == p)

/-- P1_ENTER. -/
def execP1Enter (partition : Nat) (s : State) : Host.Outcome State Fault Refusal :=
  let p := partition
  let idle := (span (13 * p) 13).all fun g => decide (2 ≤ role s g) || (!corePending s g && !s.ist.windows.contains g)
  if hubUp s ∧ p < 20 ∧ rb s F.PWR_CTRL_P1_AUTO 0 ∧ ¬ inReset s p ∧ pstate s p = 0 ∧ idle ∧ ¬ retestIn s p then .next (setPstate s p 1)
  else .next s

/-- P1_EXIT. -/
def execP1Exit (partition : Nat) (s : State) : Host.Outcome State Fault Refusal :=
  if partition < 20 ∧ pstate s partition = 1 then .next (setPstate s partition 0) else .next s

/-! ### P2 (R426, R427) -/

/-- A P2 command that is refused. -/
def p2Refuse (s : State) (reason p : Nat) : State :=
  ev (wf (wf s F.PWR_INFO_REASON 0 reason) F.PWR_INFO_PARTITION 0 p) F.PWR_EVENT_P2_REFUSED 0

/-- Does a partition hold the Pannier or the vote area (R331, R335)? -/
def holdsSteps (s : State) (p : Nat) : Bool :=
  rf s F.HUB_SR_CTRL_VOTE_PTN 0 == p || ownerOf (rf2 s F.HUB_PAN_BASE_LO_BASE F.HUB_PAN_BASE_HI_BASE 0) == some p

/-- Is every queue of a partition EMPTY or HALTED, with nothing in flight? -/
def partQuiet (s : State) (p : Nat) : Bool := (span (13 * p) 13).all fun g => (List.range 8).all fun q => queueIdle s g q

/-- Is every ring that feeds a core of a partition OFF or PAUSED? -/
def ringsQuiet (s : State) (p : Nat) : Bool := (span (104 * p) 104).all fun r => ringState s r == 0 || ringState s r == 2

/-- Put the configuration bits of a register word back (R427). -/
def keepOne (s : State) (e : Nat × Word) : State :=
  match keyBlk e.1 with
  | some b =>
    let m := configBits b (keyOff e.1)
    regPut s e.1 ((regReset e.1 &&& ~~~m) ||| (e.2 &&& m))
  | none => s

/-- The registers of a partition keep their configuration bits, which the retention copy holds (R427). -/
def keepConfig (s : State) (p : Nat) : State :=
  let out := rf s F.MEM_STATUS_CH_OUT p
  wf ((s.regs.filter fun e => resetsWith p e.1).foldl keepOne (forget s (resetsWith p))) F.MEM_STATUS_CH_OUT p out

/-- P2_ENTER (R426). -/
def p2Enter (s : State) (p : Nat) (kept : Bool) : State :=
  if 20 ≤ p ∨ ptnDown s p then p2Refuse s 1 p
  else if ¬ partQuiet s p then p2Refuse s 2 p
  else if ¬ ringsQuiet s p then p2Refuse s 3 p
  else if rb s F.HUB_JOB_STATUS_ACTIVE 0 ∧ holdsSteps s p then p2Refuse s 4 p
  else
    let s := writeBack (quiesce s p) p kept
    let s := setPstate (powerLoss (keepConfig s p) p kept) p 2
    waybillDue (ev s F.PWR_EVENT_P2_DONE 0)

/-- P2_EXIT (R427): the decoding mode and the pinned ways follow their restored settings. -/
def p2Exit (s : State) (p : Nat) (m : Measured) : State :=
  if 20 ≤ p ∨ inReset s p ∨ pstate s p = 3 then p2Refuse s 1 p
  else if pstate s p ≠ 2 then p2Refuse s 5 p
  else
    let facts := partFacts s p
    let old := outList s p
    let s := setPstate s p 0
    let s := wf (wf s F.MEM_STATUS_ECC2_LIVE p (rf s F.MEM_CTRL_ECC2 p)) F.SC_STATUS_PIN_LIVE p (rf s F.SC_CTRL_PIN_WAYS p)
    ev (bringBack s p m old facts) F.PWR_EVENT_P2_DONE 0

/-- What the pulses of PWR_PTN_CMD do with the partition that the register names: P2_ENTER, then P2_EXIT. -/
def ptnPowerEffect (kept : Bool) (m : Measured) (v : Word) (s : State) : State :=
  let s := if wbits 8 8 v = 1 then p2Enter s (wbits 4 0 v) kept else s
  if wbits 9 9 v = 1 then p2Exit s (wbits 4 0 v) m else s

/-- P2_ENTER: a write to PWR_PTN_CMD. -/
def execP2Enter (req : Requester) (value : Word) (kept : Bool) (s : State) : Host.Outcome State Fault Refusal :=
  regCmd s req .pwr 0 0x0C value fun _ _ s => ptnPowerEffect kept Measured.clean value s

/-- P2_EXIT: a write to PWR_PTN_CMD. -/
def execP2Exit (req : Requester) (value : Word) (m : Measured) (s : State) : Host.Outcome State Fault Refusal :=
  regCmd s req .pwr 0 0x0C value fun _ _ s => ptnPowerEffect true m value s

end Sys2Proof.Machine
end

