-- ==== Sys2Proof/Machine/Settings.lean ====
section
/-! DEFINITION. The settings store (R429, R430, R432; readings: log 33). -/

namespace Sys2Proof.Machine

/-- The key and the length that SET_KEY names. -/
def setKey (s : State) : Nat := rf s F.SET_KEY_KEY 0
def setLen (s : State) : Nat := rf s F.SET_KEY_LEN 0

/-- The bytes of the buffer that a store takes. -/
def setData (s : State) : List Byte := mrdN s.settings.buf 0 (setLen s)

/-- A command is refused with a result. -/
def setFail (s : State) (result : Nat) : State := ev (wf s F.SET_STATUS_RESULT 0 result) F.SET_EVENT_FAIL 0

/-- Bytes of the area that are free (R429). -/
def settingsFree (s : State) : Nat := 262144 - (s.settings.records.map fun e => e.2.length + 64).foldl (· + ·) 0

/-- May a requester write a key (R429)? -/
def keyWritable (req : Requester) (key : Nat) : Bool :=
  (req == .host || req == .mgmt) && (decide (0x100 ≤ key ∧ key ≤ 0x10F) || decide (0x110 ≤ key ∧ key ≤ 0xFFFF))

/-- A command runs. -/
def setRun (s : State) (op : Nat) (data : List Byte) : State :=
  { s with settings := { s.settings with busy := op, key := setKey s, data := data } }

/-- STORE (R430). -/
def setStore (s : State) (req : Requester) : State :=
  if s.settings.busy ≠ 0 then setFail s 1
  else
    let k := setKey s
    let n := setLen s
    let s := if req = .mgmt then grantUse s else s
    if !keyWritable req k then setFail s 4
    else if n = 0 ∨ 16384 < n ∨ n % 8 ≠ 0 then setFail s 5
    else if 10 ^ 6 ≤ (aget s.settings.wear k).getD 0 then setFail s 7
    else if settingsFree s < n + 64 then setFail s 3
    else setRun s 1 (setData s)

/-- READ (R430). -/
def setRead (s : State) : State := if s.settings.busy ≠ 0 then setFail s 1 else setRun s 2 []

/-- ERASE (R430). -/
def setErase (s : State) (req : Requester) : State :=
  if s.settings.busy ≠ 0 then setFail s 1
  else
    let s := if req = .mgmt then grantUse s else s
    if !keyWritable req (setKey s) then setFail s 4 else setRun s 3 []

/-- Has the management requester the authorisation that the pulses of a write to SET_CMD need (R430, R447)? -/
def setAllowed (s : State) (req : Requester) (v : Word) : Bool :=
  req != .mgmt || s.settings.busy != 0 ||
    ((wbits 0 0 v == 0 || grantAdmits s 1 (setKey s) (some (sha3 (setData s)))) && (wbits 2 2 v == 0 || grantAdmits s 2 (setKey s) none))

/-- What the pulses of SET_CMD do: STORE, READ, ERASE. -/
def setCmdEffect (req : Requester) (pulse : Word) (s : State) : State :=
  let s := if wbits 0 0 pulse = 1 then setStore s req else s
  let s := if wbits 1 1 pulse = 1 then setRead s else s
  if wbits 2 2 pulse = 1 then setErase s req else s

/-- A write to SET_CMD: without its authorisation a management store or erase gives RESULT 6 and reason 7. -/
def setCmdWrite (req : Requester) (view : Nat) (v : Word) (s : State) : Host.Outcome State Fault Refusal :=
  let pulse := if view = 2 then 0 else v
  if hubUp s ∧ ¬ setAllowed s req pulse then .next (setFail (accFault s 7 req.id (winOff .set 0 (1024 * view))) 6)
  else regWriteTo s req .set 0 0 view v fun _ _ s => setCmdEffect req pulse s

/-- SETTINGS_STORE (R430). -/
def execSettingsStore (req : Requester) (s : State) : Host.Outcome State Fault Refusal := setCmdWrite req 0 1 s
/-- SETTINGS_READ (R430). -/
def execSettingsRead (req : Requester) (s : State) : Host.Outcome State Fault Refusal := setCmdWrite req 0 2 s
/-- SETTINGS_ERASE (R430). -/
def execSettingsErase (req : Requester) (s : State) : Host.Outcome State Fault Refusal := setCmdWrite req 0 4 s

/-- The running command ends: the directory switch of a store or an erase, the copy of a read; an absent key gives RESULT 2. -/
def settingsFinish (s : State) : State :=
  let st := s.settings
  let idle := { st with busy := 0, data := [] }
  let ok := fun (s : State) => ev (wf s F.SET_STATUS_RESULT 0 0) F.SET_EVENT_DONE 0
  match st.busy, aget st.records st.key with
  | 0, _ => s
  | 1, _ => ok { s with settings := { idle with
      records := aput st.records st.key st.data, wear := aput st.wear st.key ((aget st.wear st.key).getD 0 + 1) } }
  | _, none => setFail { s with settings := idle } 2
  | 2, some d => wf (ok { s with settings := { idle with buf := mwrN st.buf 0 d } }) F.SET_KEY_LEN 0 d.length
  | _, some _ => ok { s with settings := { idle with records := adel st.records st.key } }

/-- SETTINGS_DONE (R430). -/
def execSettingsDone (s : State) : Host.Outcome State Fault Refusal := .next (settingsFinish s)

/-- A write to the buffer window; while a command runs it is ignored (R430). -/
def setBufWrite (s : State) (off : Nat) (v : Word) : State :=
  if s.settings.busy ≠ 0 then setFail s 1
  else { s with settings := { s.settings with buf := mwrN s.settings.buf off (toLE 4 v.toNat) } }

/-- The routing table as record 0x0002 holds it (R432). -/
def routeRecord (s : State) : List Byte := (List.range 4096).flatMap fun d => toLE 4 (routeEntry s d)

/-- ROUTING_RECORD_STORE (R432). -/
def execRoutingRecordStore (s : State) : Host.Outcome State Fault Refusal :=
  if s.settings.routeDue ∧ hubUp s then
    let s := settingsPut s 2 (routeRecord s)
    .next { s with settings := { s.settings with routeDue := false } }
  else .next s

end Sys2Proof.Machine
end

