-- ==== Sys2Proof/Machine/Power.lean ====
section
/-! DEFINITION. The power limit, the trips and losses that stop the root, and what the management island keeps (R414, R417, R433, R455 to R459, R462; readings: log 34). -/

namespace Sys2Proof.Machine

/-! ### The power limit (R417) -/

/-- Set the throttle level; leaving level 0 sets THROTTLE. -/
def setLevel (s : State) (l : Nat) : State :=
  let was := rf s F.PWR_STATUS_LEVEL 0
  let s := wf s F.PWR_STATUS_LEVEL 0 l
  if was = 0 ∧ l ≠ 0 then ev s F.PWR_EVENT_THROTTLE 0 else s

/-- Is level 8 held by the board's alert or by a junction? -/
def levelForced (s : State) : Bool := rb s F.PWR_STATUS_ALERT 0 || rb s F.PWR_STATUS_THERMAL 0

/-- The limit in force. -/
def powerLimit (s : State) : Nat := min 2400 (rf s F.PWR_CTRL_LIMIT_W 0)

/-- Set the counts of sums. -/
def setSums (s : State) (low top cool : Nat) : State :=
  { s with power := { s.power with lowSums := low, topSums := top, coolSums := cool } }

/-- Steps 1 and 2 of R417 on a sum. -/
def sumStep (s : State) (watts : Nat) : State :=
  let lvl := rf s F.PWR_STATUS_LEVEL 0
  let lim := powerLimit s
  if lim < watts then
    if lvl < 8 then setSums (setLevel s (lvl + 1)) 0 0 0
    else if 100 ≤ s.power.topSums then ev (setSums s 0 0 0) F.PWR_EVENT_LIMIT_MISS 0
    else setSums s 0 (s.power.topSums + 1) 0
  else
    let top := if lvl = 8 then s.power.topSums + 1 else 0
    if watts + rf s F.PWR_CTRL_HYST_W 0 ≤ lim then
      if s.power.lowSums + 1 = 100 then setSums (setLevel s (lvl - 1)) 0 0 0 else setSums s (s.power.lowSums + 1) top 0
    else setSums s 0 top 0

/-- POWER_SUM: 1 ms after the causes of level 8 have cleared is 100 sums. -/
def execPowerSum (watts : Nat) (s : State) : Host.Outcome State Fault Refusal :=
  if !hubUp s then .next s
  else
    let s := wf s F.PWR_STATUS_PKG_W 0 (min watts 4095)
    if levelForced s then .next (setSums (setLevel s 8) 0 0 100)
    else if s.power.coolSums ≠ 0 then .next (setSums s 0 0 (s.power.coolSums - 1))
    else .next (sumStep s watts)

/-- PWR_ALERT: the board asserts or releases PWR_ALERT_N. -/
def execPwrAlert (asserted : Bool) (s : State) : Host.Outcome State Fault Refusal :=
  let s := { s with power := { s.power with alert := asserted } }
  if !hubUp s then .next s
  else
    let s := wf s F.PWR_STATUS_ALERT 0 (b2n asserted)
    .next (if asserted then setSums (setLevel s 8) 0 0 100 else s)

/-- Show the junction temperatures (R462). -/
def setTemps (s : State) (compute stack hub host : Nat) : State :=
  let t := fun (n : Nat) => min n 255
  wf (wf (wf (wf s F.I3C_TEMP_CT 0 (t compute)) F.I3C_TEMP_STACK 0 (t stack)) F.I3C_TEMP_HUB 0 (t hub)) F.I3C_TEMP_HOST 0 (t host)

/-- THERMAL_THROTTLE: a junction above its throttle point (R459) forces level 8. -/
def execThermalThrottle (compute stack hub host : Nat) (s : State) : Host.Outcome State Fault Refusal :=
  if !hubUp s then .next s
  else
    let hot := decide (95 < compute ∨ 85 < stack ∨ 95 < hub ∨ 100 < host)
    let s := wf (setTemps s compute stack hub host) F.PWR_STATUS_THERMAL 0 (b2n hot)
    .next (if hot then setSums (setLevel s 8) 0 0 100 else s)

/-! ### What resets leave (R418, R422, R433) -/

/-- The word that the management island, the MRAM or the fuses keep of a register through a package reset. -/
def islandWord (k : Nat) (w : Word) : Word :=
  let o := keyOff k
  match keyBlk k with
  | some .fh => if o = 8 ∨ o = 0x24 ∨ (0x40 ≤ o ∧ o < 0x60) ∨ o = 0x80 ∨ o = 0x84 then w else regReset k
  | some .ist => if o = 0x14 ∨ o = 0x18 then w else if o = 8 then w &&& 2 else regReset k
  | some .rst => if o = 0xC then w &&& 0xF0000000 else regReset k
  | some .clk | some .i3c => w
  | some .hub => if o = 0 then w else regReset k
  | _ => regReset k

/-- The state with everything outside the management island at its reset values; MRAM, fuses, the island and the time base stay. The
queue of commands, the free values and what has been answered or sent are the model's own and stay too. -/
def islandBase (s : State) : State :=
  let s := settingsFinish s
  { State.reset with
    regs := s.regs.foldl (fun l e => sput regReset l e.1 (islandWord e.1 e.2)) []
    tmr := s.tmr.filter fun e => e.1 = gradeKey
    answers := s.answers, replies := s.replies, ledger := LedgerSt.reset
    time := { State.reset.time with now := s.time.now, acc := s.time.acc }
    fh := { s.fh with cper := [], hung := [] }
    ist := { s.ist with sweep := [], windows := [], spent := [], passed := [] }
    power := { s.power with lowSums := 0, topSums := 0, coolSums := 0, failed := [] }
    settings := { s.settings with buf := [], routeDue := false }
    sec := { s.sec with grant := none, attest := none }
    waybill := { s.waybill with due := false }
    free := s.free, pending := s.pending }

/-- Every partition is in reset. -/
def allInReset (s : State) : State := wf s F.RST_STATUS_IN_RESET 0 0xFFFFF

/-- A bit of I3C_BSTAT sets: the target raises an in-band interrupt (R462). -/
def bstat (s : State) (f : Fld) (b : Bool) : State :=
  let was := rb s f 0
  let s := wf s f 0 (b2n b)
  if b && !was then { s with power := { s.power with ibis := s.power.ibis + 1 } } else s

/-- MAIN_ON follows EN_MAIN and PG_MAIN. -/
def mainOn (s : State) : State := bstat s F.I3C_BSTAT_MAIN_ON (s.power.enMain && s.power.pgMain)

/-- The root stops and everything outside the island is held in reset (R414, R458, R463). -/
def holdPackage (s : State) : State :=
  let s := allInReset (islandBase s)
  { s with power := { s.power with root := false, held := true, hostResetN := false, perstN := false } }

/-! ### ROOT_UNLOCK, RAIL_FAIL and the like -/

/-- ROOT_UNLOCK (R414): the package is held until lock returns. -/
def execRootUnlock (refStopped : Bool) (s : State) : Host.Outcome State Fault Refusal :=
  if !s.power.root then .next s
  else
    let s := holdPackage s
    .next { s with power := { s.power with refOk := !refStopped, cause := 4 } }

/-- R458: the root stops and EN_MAIN is deasserted; the package waits for RESET_N. A settings store in progress is cut short. -/
def railLoss (s : State) (f : Fld) : State :=
  let s := { s with settings := { s.settings with busy := 0, data := [] } }
  let s := holdPackage s
  let s := { s with power := { s.power with enMain := false, pgMain := false, railFail := true, cause := 1, inP3 := false } }
  mainOn (bstat (bstat s F.I3C_BSTAT_IN_P3 false) f true)

/-- RAIL_FAIL (R458): PG_MAIN did not rise in time or fell, or a VCORE regulator failed, while EN_MAIN is asserted. -/
def execRailFail (s : State) : Host.Outcome State Fault Refusal :=
  if s.power.enMain then .next (railLoss s F.I3C_BSTAT_RAIL_FAIL) else .next s

/-- AVS_ACK_TIMEOUT (R456): one of the four VCORE regulators is treated as a failed rail. -/
def execAvsAckTimeout (regulator : Nat) (s : State) : Host.Outcome State Fault Refusal :=
  if regulator < 4 ∧ s.power.enMain then .next (railLoss s F.I3C_BSTAT_RAIL_FAIL) else .next s

/-- THERMTRIP (R459): a junction at its trip point. -/
def execThermtrip (compute stack hub host : Nat) (s : State) : Host.Outcome State Fault Refusal :=
  if 110 ≤ compute ∨ 95 ≤ stack ∨ 110 ≤ hub ∨ 105 ≤ host then
    let s := railLoss (setTemps s compute stack hub host) F.I3C_BSTAT_THERMTRIP
    .next { s with power := { s.power with thermtripN := false } }
  else .next s

/-- The state that the MRAM and the fuses alone leave (R418, R433): a settings store in progress leaves the old record. -/
def coldBase (s : State) : State :=
  let s := islandBase { s with settings := { s.settings with busy := 0, data := [] } }
  let keep := fun (e : Nat × Word) => keyBlk e.1 == some .fh || keyBlk e.1 == some .ist || (keyBlk e.1 == some .hub && keyOff e.1 == 0)
  { s with
    regs := s.regs.filter keep
    time := { State.reset.time with now := 0, acc := 0 }
    power := { State.reset.power with resetN := s.power.resetN, ibis := s.power.ibis } }

/-- VMI_LOSS (R458): all state is lost except the MRAM and the fuses, and a cold power-on follows when VMI returns. -/
def execVmiLoss (s : State) : Host.Outcome State Fault Refusal :=
  let s := allInReset (coldBase s)
  let w := { s.power with supplied := false, refOk := false, root := false, held := true, enMain := false, pgMain := false, resetN := false, hostResetN := false, perstN := false, cause := 0 }
  .next { s with power := w }

/-- COLD_POWER_ON (R457): RESET_N is released with VMI, VAUX and the reference up; the island asserts EN_MAIN and waits for PG_MAIN. -/
def execColdPowerOn (s : State) : Host.Outcome State Fault Refusal :=
  let s := allInReset (coldBase s)
  let w := { s.power with supplied := true, refOk := true, root := false, held := true, enMain := true, pgMain := false, resetN := true, hostResetN := false, perstN := false, cause := 0 }
  .next { s with power := w }

/-! ### P3 (R428) -/

/-- P3_ENTER: stacks and everything outside the island lose power; the time base runs on, unlocked, with its last correction. -/
def p3Enter (s : State) : State :=
  let adj := regLive s (F.TIME_ADJ_ADJ.key 0)
  let s := holdPackage s
  let s := regPut s (F.TIME_ADJ_ADJ.key 0) adj
  let s := { s with power := { s.power with inP3 := true, enMain := false, pgMain := false, cause := 5 } }
  mainOn (bstat s F.I3C_BSTAT_IN_P3 true)

/-- What a write of ENTER does: from the management requester only; refused while ACTIVE is set. -/
def p3Effect (req : Requester) (pulse : Word) (s : State) : State :=
  if wbits 0 0 pulse = 0 ∨ req ≠ .mgmt then s else if rb s F.HUB_JOB_STATUS_ACTIVE 0 then p2Refuse s 6 0 else p3Enter s

/-- P3_ENTER (R428). -/
def execP3Enter (req : Requester) (s : State) : Host.Outcome State Fault Refusal :=
  regCmd s req .pwr 0 0x18 1 fun _ _ s => p3Effect req 1 s

/-- P3 ends: EN_MAIN is asserted again, and the package reset follows PG_MAIN (R457). -/
def p3Leave (s : State) : State :=
  if s.power.inP3 then
    let s := { s with power := { s.power with inP3 := false, enMain := true, cause := 5 } }
    mainOn (bstat s F.I3C_BSTAT_IN_P3 false)
  else s

/-- P3_WAKE (R428). -/
def execP3Wake (s : State) : Host.Outcome State Fault Refusal := .next (p3Leave s)

/-- I3C_WAKE (R462). -/
def execI3cWake (s : State) : Host.Outcome State Fault Refusal := .next (p3Leave s)

/-- I3C_DYNAMIC_ADDRESS (R462): the seven bits of an I3C address. -/
def execI3cDynamicAddress (addr : Nat) (s : State) : Host.Outcome State Fault Refusal :=
  if addr < 128 ∧ s.power.supplied then .next { s with power := { s.power with i3cAddr := some addr } } else .next s

end Sys2Proof.Machine
end

