-- ==== Sys2Proof/Machine/Security.lean ====
section
/-! DEFINITION. Firmware images, operator keys, grants and attestation (R439 to R452; readings: log 35). -/

namespace Sys2Proof.Machine

/-! ### Images (R441, R442) -/

/-- Length of an image's body, and where its key block and its signature lie. -/
def imageLen (l : List Byte) : Nat := fieldLE 0xC 4 l
def imageBody (l : List Byte) : List Byte := slice 64 (imageLen l) l
def imageKey (l : List Byte) : List Byte := slice (64 + imageLen l) 1952 l
def imageSig (l : List Byte) : List Byte := slice (64 + imageLen l + 1952) 3309 l

/-- Bytes of the slot of a type; the envelope of an operator key takes none. -/
def slotBytes (type : Nat) : Nat := if type = 1 then 786432 else 262144

/-- The fused minimum of a type. -/
def svnMin (s : State) (type : Nat) : Nat := if type = 1 then s.sec.floors.svnHub else if type = 2 then s.sec.floors.svnCore else 0

/-- Why an image or an envelope does not verify, as SEC_INFO codes it; 0 where it does (R442, R452). -/
def imageReason (s : State) (types : List Nat) (l : List Byte) : Nat :=
  let type := fieldLE 4 1 l
  let slot := bits 1 0 (fieldLE 5 1 l)
  let revoke := bits 3 0 (fieldLE 7 1 l)
  if l.length < 64 ∨ fieldLE 0 4 l ≠ 0x4D495746 ∨ 32 < fieldLE 6 1 l ∨ bit slot revoke then 1
  else if !types.contains type ∨ fieldLE 0x10 1 l ≠ 0x20 ∨ l.length ≠ 64 + imageLen l + 1952 + 3309 ∨ slotBytes type < l.length then 11
  else if bit slot s.sec.floors.revoked then 10
  else if sha3 (imageKey l) ≠ Config.rootKeyHash slot ∨ slice 0x20 32 l ≠ sha3 (imageBody l) ∨
      !Config.mldsaVerify (imageKey l) (sha3 (l.take (64 + imageLen l))) (imageSig l) then 8
  else if fieldLE 6 1 l < svnMin s type then 9
  else 0

/-- The image that bytes hold. -/
def imageOf (l : List Byte) : Image :=
  ⟨fieldLE 4 1 l, fieldLE 8 4 l, fieldLE 6 1 l, bits 1 0 (fieldLE 5 1 l), bits 3 0 (fieldLE 7 1 l), sha3 (l.take (64 + imageLen l))⟩

/-- Record a reason and an event of SEC_. -/
def secEvent (s : State) (f : Fld) (reason : Nat) : State := ev (wf s F.SEC_INFO_REASON 0 reason) f 0

/-- IMAGE_LOAD (R444): into the inactive slot of its type, to be active from the next package reset. -/
def execImageLoad (image : List Byte) (s : State) : Host.Outcome State Fault Refusal :=
  if !islandUp s then .next s
  else
    let r := imageReason s [1, 2] image
    if r ≠ 0 then .next (secEvent s F.SEC_EVENT_IMAGE_REFUSED r)
    else
      let i := imageOf image
      let c := s.sec
      let c := if i.type = 1 then { c with images := c.images.set (1 - c.hubSlot) (some i), hubNew := true }
        else { c with images := c.images.set (3 - c.coreSlot) (some i), coreNew := true }
      .next (ev { s with sec := c } F.SEC_EVENT_IMAGE_LOADED 0)

/-! ### Operator keys and grants (R445 to R447) -/

/-- Install an operator key. -/
def keyInstall (s : State) (slot : Nat) (key : List Byte) : State := { s with sec := { s.sec with opKeys := s.sec.opKeys.set slot key } }

/-- OPERATOR_KEY_ENVELOPE (R445): only while no key is installed. The body holds the key and then a byte with the slot. -/
def execOperatorKeyEnvelope (envelope : List Byte) (s : State) : Host.Outcome State Fault Refusal :=
  if !hubUp s then .next s
  else
    let r := imageReason s [3] envelope
    let r := if r = 0 ∧ (s.sec.opKeys.any (fun k => !k.isEmpty) ∨ imageLen envelope ≠ 1953 ∨ 2 ≤ fieldLE 1952 1 (imageBody envelope)) then 11 else r
    if r ≠ 0 then .next (secEvent s F.SEC_EVENT_IMAGE_REFUSED r)
    else .next (keyInstall s (fieldLE 1952 1 (imageBody envelope)) ((imageBody envelope).take 1952))

/-- COMMIT_SVN (R444): the SVN fuses up to the running images' versions, and the slots that they revoke. -/
def commitSvn (s : State) : State :=
  let hub := runningImage s 1
  let core := runningImage s 2
  let svn := fun (i : Option Image) => (i.map (·.svn)).getD 0
  let rev := fun (i : Option Image) => (i.map (·.revoke)).getD 0
  let c := s.sec.floors
  let c := { c with svnHub := max c.svnHub (svn hub), svnCore := max c.svnCore (svn core), revoked := c.revoked ||| rev hub ||| rev core }
  { s with sec := { s.sec with floors := c } }

/-- Are OP and ARG of a grant valid (R446)? -/
def grantArgOk (g : List Byte) : Bool :=
  let arg := fieldLE 0x14 4 g
  match fieldLE 6 1 g with
  | 1 | 2 => decide (arg < 2 ^ 16)
  | 3 => decide (arg < 2 ^ 20)
  | 4 => arg == 1 || arg == 2
  | 5 => decide (arg < 2) && g.length == 64 + 3309 + 1952 && slice 0x20 32 g == sha3 (slice 3373 1952 g)
  | 6 => true
  | _ => false

/-- Why a grant is refused, as SEC_INFO codes it; 0 where it is accepted (R447, R452). -/
def grantReason (s : State) (g : List Byte) : Nat :=
  if g.length < 64 + 3309 ∨ fieldLE 0 4 g ≠ 0x544E5247 ∨ fieldLE 4 1 g ≠ 1 ∨ fieldLE 0x18 1 g = 0 ∨ 60 < fieldLE 0x18 1 g then 1
  else match opKey s (bits 0 0 (fieldLE 7 1 g)) with
    | none => 4
    | some key =>
      if s.sec.floors.authCtr = 0xFFFFFFFF then 7
      else if !Config.mldsaVerify key (g.take 64) (slice 64 3309 g) then 5
      else if fieldLE 8 8 g ≠ Config.serial then 2
      else if fieldLE 0x10 4 g ≠ s.sec.floors.authCtr then 3
      else if !grantArgOk g then 6
      else 0

/-- What an accepted grant does at once, or that it is held. -/
def grantTake (s : State) (g : List Byte) : State :=
  let s := { s with sec := { s.sec with floors := { s.sec.floors with authCtr := s.sec.floors.authCtr + 1 } } }
  match fieldLE 6 1 g with
  | 5 => keyInstall s (fieldLE 0x14 4 g) (slice 3373 1952 g)
  | 6 => commitSvn s
  | op => { s with sec := { s.sec with
      grant := some ⟨op, fieldLE 0x14 4 g, slice 0x20 32 g, s.time.now + fieldLE 0x18 1 g * 10 ^ 9⟩ } }

/-- GRANT (R447). -/
def execGrant (g : List Byte) (s : State) : Host.Outcome State Fault Refusal :=
  if !hubUp s then .next s
  else
    let r := grantReason s g
    if r ≠ 0 then .next (secEvent s F.SEC_EVENT_GRANT_REFUSED r) else .next (grantTake s g)

/-! ### Attestation (R449, R450) -/

/-- A report starts: for the host at an address, for the management layer with none. -/
def attestStart (s : State) (addr : Option Nat) (nonce : List Byte) : State :=
  if s.sec.attest.isSome then secEvent s F.SEC_EVENT_ATTEST_REFUSED 12
  else attestCapture { s with sec := { s.sec with attest := some ⟨addr, nonce, none⟩ } }

/-- ATTEST_REQUEST (R450), in recovery too (R443). -/
def execAttestRequest (nonce : List Byte) (s : State) : Host.Outcome State Fault Refusal :=
  if !islandUp s then .next s else .next (attestStart s none nonce)

/-- Bytes of a signed report. -/
def reportBytes : Nat := 3629

/-- Does a host report fit device memory at an address? -/
def reportFits (s : State) (a : Nat) : Bool :=
  !outOfRange s (target a) && !outOfRange s (target (a + reportBytes - 1))

/-- What GO of SEC_ATTEST_CMD does. -/
def attestGo (pulse : Word) (s : State) : State :=
  if wbits 0 0 pulse = 0 then s
  else
    let a := rf2 s F.SEC_ATTEST_ADDR_LO_ADDR F.SEC_ATTEST_ADDR_HI_ADDR 0
    if s.sec.attest.isSome then secEvent s F.SEC_EVENT_ATTEST_REFUSED 12
    else if !reportFits s a then secEvent s F.SEC_EVENT_ATTEST_REFUSED 13
    else attestStart s (some a) ((List.range 8).flatMap fun n => toLE 4 (rf s (F.SEC_NONCE_NONCE.nth n) 0))

/-- SEC_ATTEST_GO (R450). -/
def execSecAttestGo (req : Requester) (s : State) : Host.Outcome State Fault Refusal :=
  regCmd s req .sec 0 0x10 1 fun _ _ s => attestGo 1 s

/-- A body and the identity signature over its digest. -/
def signedReport (body : List Byte) : List Byte := body ++ padTo 3309 (Config.mldsaSign (sha3 body))

/-- ATTEST_DONE (R450). -/
def execAttestDone (s : State) : Host.Outcome State Fault Refusal :=
  match s.sec.attest with
  | some ⟨addr, _, some body⟩ =>
    let s := { s with sec := { s.sec with attest := none } }
    match addr with
    | some a => .next (ev (hubWrite s a (signedReport body)) F.SEC_EVENT_ATTEST_DONE 0)
    | none => .next { s with sec := { s.sec with reports := s.sec.reports ++ [signedReport body] } }
  | _ => .next s

end Sys2Proof.Machine
end

