-- ==== Sys2Proof/Machine/Registers.lean ====
section
/-! DEFINITION. Register accesses over the whole window: reads, writes, aliases, 64-bit halves, update groups (R40 to R58, R61 to R64; readings: log 36). -/

namespace Sys2Proof.Machine

/-! ### 64-bit quantities (R45, R46) -/

/-- `n` offsets, eight apart. -/
def eights (a n : Nat) : List Nat := (List.range n).map (a + 8 * ·)

/-- Page offsets of the LO halves of a page, but for the shadows. -/
def loOffsets (b : Blk) : List Nat :=
  match b with
  | .hub => [0x30, 0x50]
  | .hubSr => [0x14, 0x24, 0x2C, 0x40, 0x48]
  | .mx => eights 0x40 7
  | .vx => eights 0x40 5
  | .qnt => [0x40]
  | .mem => 0x10 :: eights 0x40 4
  | .sc => 0x14 :: eights 0x40 5
  | .hq => eights 0x40 3
  | .hqRing => [0x08, 0x10]
  | .hqCq => [0x04]
  | .fab => [0x18]
  | .fabP => 0x10 :: eights 0x80 5
  | .rt => eights 0x40 4
  | .ckp => eights 0x20 3 ++ eights 0x40 3
  | .fh => [0x80]
  | .ist => eights 0x40 4
  | .time => [0x40, 0x48]
  | .ledger => [0x10, 0x18, 0x28, 0x40]
  | .pwr => [0x40]
  | .sec => [0x14]
  | _ => []

/-- Is the register at an offset the LO half of a pair? -/
def isLo (b : Blk) (off : Nat) : Bool :=
  (loOffsets b).contains off || (decide (0x100 ≤ off) && (loOffsets b).contains (off - 0x100) && shadowed b (off - 0x100))

/-- Is it the HI half? -/
def isHi (b : Blk) (off : Nat) : Bool := decide (4 ≤ off) && isLo b (off - 4)

/-! ### Update groups (R50 to R55) -/

/-- HUB_UPD_STROBE: a transfer is scheduled (R52). -/
def strobeEffect (pulse : Word) (s : State) : State :=
  let m := wbits 15 0 pulse
  if m = 0 then s else { s with strobes := s.strobes ++ [m] }

/-- Does a register's block instance lie in a masked group? -/
def inGroups (s : State) (mask k : Nat) : Bool :=
  match (keyBlk k).bind fun b => groupOf s b (keyInst k) with
  | some g => bit g mask
  | none => false

/-- HUB_UPD_DISCARD: the pending copies of the masked groups return to the live values (R54). -/
def discardEffect (pulse : Word) (s : State) : State :=
  { s with pend := s.pend.filter fun e => !inGroups s (wbits 15 0 pulse) e.1 }

/-- A pending copy becomes live: the buffered bits of its register. -/
def pendLive (s : State) (k : Nat) (w : Word) : State :=
  match (keyBlk k).bind fun b => findReg b (keyOff k) with
  | some r =>
    let m := r.maskOf Acc.buffered
    regPut s k ((regLive s k &&& ~~~m) ||| (w &&& m))
  | none => s

/-- Held writes that no longer wait are applied to the pending copies; the others wait for one transfer less (R53). -/
def heldRelease (s : State) : State :=
  let l := s.heldWrites.map fun h => { h with after := h.after - 1 }
  let now := l.filter fun h => h.after == 0
  let s := { s with heldWrites := l.filter fun h => h.after != 0 }
  now.foldl (fun s h => { s with pend := aput s.pend h.key h.value }) s

/-- The UGRP registers of a partition's blocks. -/
def partGroups (p : Nat) : List Nat :=
  regKey .mem p 0x3FC :: regKey .sc p 0x3FC :: (span (13 * p) 13).flatMap fun g => [Blk.core, .seqQ, .mx, .vx, .qnt].map fun b => regKey b g 0x3FC

/-- Groups of a partition that is in reset or P2 as a strobe finds them: from reset values, or from the retention copy (R55). -/
def skippedGroups (s : State) (p mask : Nat) : List Nat :=
  ((partGroups p).map fun k => wbits 3 0 (if inReset s p then regReset k else regLive s k)).filter fun g => bit g mask

/-- Report the partitions that a strobe skipped (R55). -/
def skipReport (s : State) (mask : Nat) : State :=
  (List.range 20).foldl (fun s p =>
    let l := if ptnDown s p then skippedGroups s p mask else []
    match l with
    | [] => s
    | _ =>
      let put := fun (f : Fld) (n : Nat) (s : State) => wf s f 0 (rf s f 0 ||| n)
      let s := put F.HUB_UPD_STATUS_SKIPPED_GROUPS (l.foldl (fun m g => m ||| 2 ^ g) 0) s
      put F.HUB_UPD_SKIPPED_PARTITIONS (2 ^ p) (seqAdvance s (F.HUB_UPD_STATUS_SKIPPED_GROUPS.key 0))) s

/-! ### What a new live value does -/

/-- A port's enable changed (R277, R283, R284). -/
def portEnable (s : State) (n : Nat) : State :=
  let l := lstate s n
  if l = 5 then s
  else if !portEnabled s n then (if l = 6 then s else if linked s n then portDown s n false 6 else setLstate s n 6)
  else if l = 6 then setLstate s n (retrainState s n)
  else s

/-- Registers take the words again that they held before. -/
def putBack (before s : State) (keys : List Nat) : State := keys.foldl (fun s k => regPut s k (regLive before k)) s

/-- Credit settings that break R272 leave the previous ones in force. -/
def credCheck (before : State) (s : State) (n : Nat) : State :=
  if credOk (credRegs s n) then s
  else
    ev (putBack before s ((List.range 6).map fun v => regKey .fabP n (0x20 + 4 * v))) F.FAB_P_EVENT_CRED_BAD n

/-- The router checks the box (R293). -/
def boxCheck (s : State) : State :=
  if liveSlice s = 0xFFF ∨ boxOk s then s else ev (wf s F.RT_SLICE_SLICE_ID 0 0xFFF) F.RT_EVENT_SLICE_BAD 0

/-- Trace records begin: the hub writes a wrap marker (R411). -/
def traceEnable (s : State) : State :=
  let hi := s.time.now / 2 ^ 32 % 2 ^ 32
  { s with ledger := { s.ledger with trace := s.ledger.trace ++ [toLE 4 0 ++ toLE 4 hi ++ toLE 4 15 ++ toLE 4 0], marker := some hi } }

/-- A new live value of one register takes effect. -/
def liveEffect (before : State) (s : State) (k : Nat) : State :=
  let i := keyInst k
  let o := keyOff k
  let w := regLive s k
  let old := regLive before k
  match keyBlk k with
  | some .sc => if o = 0 then pinChangeStart s i else s
  | some .mem =>
    if o = 0 ∧ rf s F.MEM_STATUS_ECC2_LIVE i ≠ wbits 0 0 w then waybillDue (wf s F.MEM_STATUS_ECC2_LIVE i (wbits 0 0 w)) else s
  | some .fab => if o = 0 then (List.range 24).foldl portEnable s else s
  | some .fabP => if o = 0 then portEnable s i else if 0x20 ≤ o ∧ o < 0x38 then credCheck before s i else s
  | some .rtEntry => if w = old then s else { s with settings := { s.settings with routeDue := true } }
  | some .time => if o = 0 ∧ wbits 1 0 w ≠ wbits 1 0 old then timeRoleLive s else s
  | some .ledger =>
    if o = 0 ∧ rb s F.LEDGER_CTRL_TRACE_EN 0 ∧ ¬ rb before F.LEDGER_CTRL_TRACE_EN 0 then traceEnable s else s
  | _ => s

/-- The transfer of a strobe (R52, R53, R55): every pending copy of the masked groups becomes live at once. -/
def transfer (s : State) (mask : Nat) : State :=
  let moved := s.pend.filter fun e => inGroups s mask e.1
  let rt := bit (rf s F.RT_UGRP_GROUP 0) mask
  let t := moved.foldl (fun s e => pendLive s e.1 e.2) { s with pend := s.pend.filter fun e => !inGroups s mask e.1 }
  let t := skipReport t mask
  let t := moved.foldl (fun t e => liveEffect s t e.1) t
  if rt then boxCheck t else t

/-- UPDATE_TRANSFER (R52): the oldest scheduled strobe, then the writes that were held behind it. -/
def execUpdateTransfer (s : State) : Host.Outcome State Fault Refusal :=
  match s.strobes with
  | [] => .next s
  | m :: l => .next (heldRelease (transfer { s with strobes := l } m))

/-! ### Writes that a page checks before it takes them -/

/-- The smallest DIGEST_INTERVAL setting that SLOTS must exceed by 2: the greater of the live and the pending one. -/
def intervalOf (s : State) : Nat :=
  let k := F.HUB_SR_CTRL_DIGEST_INTERVAL.key 0
  max (wbits 19 12 (regLive s k)) (wbits 19 12 (pendWord s k))

/-- Does a HUB_PAN_CFG word keep the rules of R331 with a digest interval? -/
def pannierOk (cfg : Word) (interval : Nat) : Bool :=
  decide (interval + 2 ≤ wbits 31 24 cfg) && decide (1 ≤ wbits 15 0 cfg / wbits 31 24 cfg)

/-- What of a write to the step-replay page is refused with reason 2 under R331; the value that remains. -/
def srGuard (s : State) (off view : Nat) (v : Word) : Option Word × Bool :=
  let active := rb s F.HUB_JOB_STATUS_ACTIVE 0
  if off = 0x2C ∨ off = 0x30 then (if active then (none, true) else (some v, false))
  else if off = 0x34 then
    if active || !pannierOk (viewWord view (regLive s (regKey .hubSr 0 off)) v) (intervalOf s) then (none, true) else (some v, false)
  else if off = 0 then
    let old := pendWord s (regKey .hubSr 0 0)
    let new := viewWord view old v
    if wbits 19 12 new ≠ wbits 19 12 old ∧
        (active ∨ !pannierOk (regLive s (regKey .hubSr 0 0x34)) (wbits 19 12 new)) then
      (some (if view = 0 then wput 19 12 (wbits 19 12 old) v else wput 19 12 0 v), true)
    else (some v, false)
  else (some v, false)

/-- Bits of a write on which a command acts: of an alias, those written as 1 that end as 1. -/
def actWord (view : Nat) (old v : Word) : Word := if view = 0 then v else viewWord view old v &&& v

/-- The value of INTERLUDE that a write reaches HUB_JOB_CTRL with; none where an alias leaves the bit alone. -/
def interOf (view : Nat) (old v : Word) : Option Bool :=
  if view = 0 ∨ wbits 2 2 v = 1 then some (wbits 2 2 (viewWord view old v) == 1) else none

/-- What a write does beyond the fields that it stores, by page and offset. `old` is the live word before it. -/
def regEffect (req : Requester) (b : Blk) (off view : Nat) (v : Word) (j : Nat) (old : Word) (s : State) : State :=
  let a := actWord view old v
  let w := viewWord view old v
  match b with
  | .hub => if off = 0x10 then strobeEffect a s else if off = 0x14 then discardEffect a s
    else if off = 0x40 then jobCtrlEffect a (interOf view old v) s else s
  | .hubSr => if off = 4 then srCmdEffect a s else s
  | .mx => if off = 0x20 then mxArmEffect j a s else if off = 0x24 ∧ wbits 0 0 a = 1 then mxCntClrEffect j s else s
  | .vx => if off = 0x20 then vxArmEffect j a s else if off = 0x24 ∧ wbits 0 0 a = 1 then vxCntClrEffect j s else s
  | .qnt => if off = 0x20 ∧ wbits 0 0 a = 1 then qntCntClrEffect j s else s
  | .mem => if off = 0x1C ∧ wbits 0 0 a = 1 then memCntClrEffect j s else s
  | .memCh => if off = 0x14 ∧ wbits 0 0 a = 1 then chClrEffect j s else s
  | .sc => if off = 0x1C then scCmdEffect j a s else s
  | .seqQ =>
    if 0x40 ≤ off ∧ off < 0x80 then loopCountEffect s j ((off - 0x40) / 4) w
    else if 0x80 ≤ off ∧ off < 0x180 ∧ off % 32 = 0 then queueCtrlEffect ((off - 0x80) / 32) j a s
    else if 0x80 ≤ off ∧ off < 0x180 ∧ off % 32 = 0x18 then qbrselEffect s req j ((off - 0x80) / 32) w
    else s
  | .hq => if off = 0x14 then hqWakeEffect w s else if off = 0x20 ∧ wbits 0 0 a = 1 then hqRetrainEffect s else s
  | .hqRing => if off = 0 then ringCtrlEffect j a s else s
  | .hqCq => if off = 0 then cqCtrlEffect j old s else s
  | .fabP => if off = 4 then fabCmdEffect j a s else s
  | .ptnCore => if off = 0x20 then coreCtrlEffect j a s else s
  | .ckp => if off = 4 then ckpCmdEffect a s else s
  | .ist => if off = 4 then istCmdEffect a s else s
  | .time => if off = 0x4C then timeSetEffect s else s
  | .ledger => if off = 4 then ledgerCmdEffect a s else s
  | .rst => if off = 4 then ptnResetEffect Measured.clean w s else s
  | .pwr => if off = 0x0C then ptnPowerEffect true Measured.clean w s else if off = 0x18 then p3Effect req a s else s
  | .sec => if off = 0x10 then attestGo a s else s
  | _ => s

/-- A write to a register that no check of its own refuses. -/
def plainWrite (s : State) (req : Requester) (b : Blk) (i off view : Nat) (v : Word) : Host.Outcome State Fault Refusal :=
  regWriteTo s req b i off view v (regEffect req b off view v)

/-- A write to a UGRP register: ignored with reason 5 for a block instance that has a pending write (R50). -/
def ugrpPut (s : State) (req : Requester) (b : Blk) (i view : Nat) (v : Word) (j : Nat) : State :=
  if blockPending s (regKey b j 0x3FC) then accFault s 5 req.id (winOff b i (1024 * view + 0x3FC)) else storeFields s b j 0x3FC view v

/-- A base-page write to an event status register: cleared where SEQ matches (R56); HUB_UPD_SKIPPED goes with HUB_UPD_STATUS. -/
def seqWrite (s : State) (b : Blk) (off : Nat) (v : Word) (j : Nat) : State :=
  let k := regKey b j off
  if wbits 31 16 v ≠ wbits 31 16 (regLive s k) then s
  else
    let s := seqClear s k
    if b = .hub ∧ off = 0x1C then wf s F.HUB_UPD_SKIPPED_PARTITIONS 0 0 else s

/-- The lower half that a requester's write holding keeps for a 64-bit quantity lands with its upper half (R46). -/
def landHolding (s : State) (req : Requester) (b : Blk) (i off view : Nat) : State :=
  if view = 0 ∧ isHi b off then withHolding s req b i off else s

/-- A write to the step-replay page under R331; a refused upper half drops the holding (log 36). -/
def srPageWrite (s : State) (req : Requester) (i off view : Nat) (v : Word) : Host.Outcome State Fault Refusal :=
  let g := srGuard s off view v
  let refuse := fun (s : State) => if g.2 then srRefuse s 2 else s
  match g.1 with
  | some w => plainWrite (refuse (landHolding s req .hubSr i off view)) req .hubSr i off view w
  | none => .next (refuse { s with holding := if view = 0 ∧ off = 0x30 then adel s.holding req.id else s.holding })

/-- The writes that a page checks before it takes them, and the others. -/
def checkedWrite (s : State) (req : Requester) (b : Blk) (i off view : Nat) (v : Word) : Host.Outcome State Fault Refusal :=
  match b, off with
  | .memCh, 4 => chCtrlWrite s req i view v
  | .fh, 0x1C => fhCmdWrite req view v s
  | .set, 0 => setCmdWrite req view v s
  | .hubSr, _ => srPageWrite s req i off view v
  | _, _ => plainWrite (landHolding s req b i off view) req b i off view v

/-- A write to a register of a page that is reached: halves, event registers, UGRP registers, then the writes that a page checks. -/
def pageWrite (s : State) (req : Requester) (b : Blk) (i off view : Nat) (v : Word) : Host.Outcome State Fault Refusal :=
  if pageDown s b i then .next (accFault s 3 req.id (winOff b i (1024 * view + off)))
  else if pageInert s b i then .next s
  else
    match reached s req b i off true with
    | none => .next (accFault s 6 req.id (winOff b i (1024 * view + off)))
    | some l =>
      let r := findReg b off
      if r.any RegDef.isSeq then
        if view = 0 then .next (l.foldl (fun s j => seqWrite s b off v j) s) else .next (accFault s 4 req.id (winOff b i (1024 * view + off)))
      else if off = 0x3FC ∧ r.isSome then
        if view = 0 ∧ l.any (fun j => breaksReserved s b j off v) then .fault (.testControl (winOff b i off))
        else .next (l.foldl (fun s j => ugrpPut s req b i view v j) s)
      else if view = 0 ∧ isLo b off then .next { s with holding := aput s.holding req.id (winOff b i off, v) }
      else checkedWrite s req b i off view v

/-! ### The window (R40, R43, R62) -/

/-- What an access of a size at an offset is refused with before the window is looked at; 0 for nothing (R40, R43). -/
def accReason (req : Requester) (off size : Nat) : Nat :=
  if size ≠ 4 ∨ off % 4 ≠ 0 then 1
  else
    match place off with
    | .beyond => if req = .host then 8 else 2
    | .reserved => 2
    | _ => 0

/-- A register write anywhere in the window, but for RST_PKG_CMD, whose effect is a reset of the hub. -/
def windowWrite (s : State) (req : Requester) (off size : Nat) (v : Word) : Host.Outcome State Fault Refusal :=
  if !hubUp s then .next s
  else if accReason req off size ≠ 0 then .next (accFault s (accReason req off size) req.id (off % 2 ^ 26))
  else
    match place off with
    | .frame b i o => pageWrite s req (pageOf b (o % 1024)) i (o % 1024) (o / 1024) v
    | .setBuf o => .next (setBufWrite s o v)
    | .empty => if v = 0 then .next s else .fault (.testControl off)
    | _ => .next s

/-! ### Reads -/

/-- Record the answer to a read. -/
def answer (s : State) (req : Requester) (off : Nat) (err : Bool) (w : Word) : State :=
  { s with answers := s.answers ++ [⟨req, off, err, w⟩] }

/-- What a register shows to a requester: the pending copy of its buffered bits, or the live one under READ_LIVE (R49, R55). -/
def readWord (s : State) (req : Requester) (b : Blk) (j off : Nat) : Word :=
  match findReg b off with
  | none => 0
  | some r =>
    let k := regKey b j off
    let live := regLive s k
    let m := r.maskOf Acc.buffered
    let w := if m = 0 || rb s F.HUB_ACC_CTRL_READ_LIVE (bankInst 0 req.id) then live else (live &&& ~~~m) ||| (pendWord s k &&& m)
    shownWord s b j off w

/-- A read of a register: LO latches the upper half, HI takes it where the tag matches (R45). -/
def pageRead (s : State) (req : Requester) (b : Blk) (i off at_ : Nat) : State :=
  if pageDown s b i then answer (accFault s 3 req.id (at_ % 2 ^ 26)) req at_ true 0
  else if pageInert s b i then answer s req at_ false 0
  else
    match reached s req b i off false with
    | none | some [] => answer (accFault s 6 req.id (at_ % 2 ^ 26)) req at_ false 0
    | some (j :: _) =>
      if isLo b off then
        answer { s with shadow := aput s.shadow req.id (winOff b i off, readWord s req b j (off + 4)) } req at_ false (readWord s req b j off)
      else
        match aget s.shadow req.id with
        | some (tag, hi) =>
          if isHi b off && tag == winOff b i (off - 4) then answer { s with shadow := adel s.shadow req.id } req at_ false hi
          else answer s req at_ false (readWord s req b j off)
        | none => answer s req at_ false (readWord s req b j off)

/-- The record that the ledger's record window shows (R407). -/
def ledgerRecord (s : State) : List Byte := ((aget s.ledger.ring (rf s F.LEDGER_HEAD_COUNT 0 % 4096)).map LedgerRec.bytes).getD []

/-- The record that the fault history's record window shows (R397). -/
def fhRecord (s : State) : List Byte := ((aget s.fh.cper (rf s F.FH_CPER_HEAD_HEAD 0)).map (·.body)).getD []

/-- A word of a list of bytes; zero beyond its end. -/
def wordAt (l : List Byte) (off : Nat) : Word := BitVec.ofNat 32 (fieldLE off 4 l)

/-- A register read anywhere in the window (R40, R43). -/
def windowRead (s : State) (req : Requester) (off size : Nat) : State :=
  if !hubUp s then s
  else
    let c := accReason req off size
    if c ≠ 0 then answer (accFault s c req.id (off % 2 ^ 26)) req off (c != 2) 0
    else
      match place off with
      | .frame b i o => pageRead s req (pageOf b (o % 1024)) i (o % 1024) off
      | .waybill o => answer s req off false (wordAt (waybillImage s) o)
      | .ledgerWin o => answer s req off false (wordAt (ledgerRecord s) o)
      | .fhWin o => answer s req off false (wordAt (fhRecord s) o)
      | .setBuf o => answer s req off false (wordAt (mrdN s.settings.buf o 4) 0)
      | .certWin o => answer s req off false (wordAt Config.certificate o)
      | _ => answer s req off false 0

end Sys2Proof.Machine
end

