-- ==== Sys2Proof/Machine/Resets.lean ====
section
/-! DEFINITION. The boot chain, package and hub resets, and the register commands of the whole window (R392, R393, R413 to R423, R431 to R434, R442, R443, R456 to R458; readings: logs 34, 37). -/

namespace Sys2Proof.Machine

/-! ### The boot chain (R443) -/

/-- Does the image of a slot verify at boot? Its signature was verified when it was written. -/
def slotOk (s : State) (i : Nat) : Bool :=
  match s.sec.images.getD i none with
  | some x => !bit x.key s.sec.floors.revoked && decide (svnMin s x.type ≤ x.svn)
  | none => false

/-- The slot of a firmware type that runs, and whether it is the other one; none where both fail. -/
def slotPick (s : State) (base active : Nat) : Option (Nat × Bool) :=
  if slotOk s (base + active) then some (active, false)
  else if slotOk s (base + (1 - active)) then some (1 - active, true)
  else none

/-- Enter a boot state, and record a fallback. -/
def bootState (s : State) (code : Nat) (fallback : Bool) : State :=
  let s := wf s F.SEC_STATUS_BOOT_STATE 0 code
  if fallback then ev s F.SEC_EVENT_BOOT_FALLBACK 0 else s

/-- Step 4: the test package in use verifies against the running core firmware, or the baseline set takes its place (R392, R393). -/
def bootPackages (s : State) : State :=
  let ok := fun (i : Nat) => (s.ist.slots.getD i none).any fun p => decide (p.minFw ≤ coreVersion s)
  let waits := if s.ist.staged then (if s.ist.active = some 0 then 1 else 0) else 2
  let pick := match s.ist.active with
    | some i => if ok i then some i else (List.range 2).find? fun k => ok k && k != waits
    | none => (List.range 2).find? fun k => ok k && k != waits
  let s := { s with ist := { s.ist with active := pick } }
  match pick.bind fun i => s.ist.slots.getD i none with
  | some p => wf (wf (wf s F.IST_PKG_ID_VALUE 0 p.id) F.IST_PKG_VER_VALUE 0 p.ver) F.IST_STATUS_PKG_VALID 0 1
  | none => wf (wf (wf s F.IST_PKG_ID_VALUE 0 0) F.IST_PKG_VER_VALUE 0 0) F.IST_STATUS_PKG_VALID 0 0

/-- Steps 3 and 4, which a hub reset reruns: core firmware, test packages. -/
def bootCore (s : State) (fell : Bool) : State :=
  match slotPick s 2 s.sec.coreSlot with
  | none => bootState s 2 false
  | some (c, other) =>
    bootPackages (bootState { s with sec := { s.sec with coreSlot := c } } (if fell || other then 1 else 0) other)

/-- Steps 1 to 4; an image that was loaded becomes active first (R444). -/
def bootChain (s : State) : State :=
  let c := s.sec
  let c := { c with
    hubSlot := if c.hubNew then 1 - c.hubSlot else c.hubSlot, coreSlot := if c.coreNew then 1 - c.coreSlot else c.coreSlot
    hubNew := false, coreNew := false }
  let s := { s with sec := c }
  match slotPick s 0 c.hubSlot with
  | none => bootState s 2 false
  | some (h, other) => bootCore (bootState { s with sec := { s.sec with hubSlot := h } } 0 other) other

/-- Is the device in recovery? -/
def inRecovery (s : State) : Bool := rf s F.SEC_STATUS_BOOT_STATE 0 == 2

/-! ### What comes back (R385, R420 to R423, R432) -/

/-- The verdicts whose clearing was commanded are removed (R385); a record of each goes out (code 5 of R395). -/
def clearVerdicts (s : State) : State :=
  let hit := fun (v : Verdict) => s.fh.clearing.contains (v.kind, v.index)
  let gone := s.fh.verdicts.filter hit
  if gone.isEmpty then { s with fh := { s.fh with clearing := [] } }
  else
    let s := { s with fh := { s.fh with verdicts := s.fh.verdicts.filter fun v => !hit v, clearing := [], digestStale := true } }
    let s := wf s F.FH_STATUS_VERDICTS 0 (verdictCount s)
    gone.foldl (fun s v => cperPush s v.kind v.index v.sig 5 CperInfo.plain) s

/-- The routing entries that record 0x0002 holds. -/
def routeApply (s : State) (r : List Byte) : State :=
  (List.range 4096).foldl (fun s d =>
    let w := fieldLE (4 * d) 4 r
    if w = 0 then s else regPut s (regKey .rtEntry (d / 256) (4 * (d % 256))) (BitVec.ofNat 32 w)) s

/-- The records that the device keeps of itself are applied (R282, R432). -/
def recordsApply (s : State) : State :=
  let s := match aget s.settings.records 1 with
    | some r => planApply s 1 r
    | none => s
  match aget s.settings.records 2 with
  | some r => routeApply s r
  | none => s

/-- Ports that a verdict retires stay retired (R263, R385). -/
def portsKept (s : State) : State := (List.range 24).foldl (fun s n => if standing s 4 n then portRetire s n else s) s

/-- The retest of the fences that the run-time wrote (R385). -/
def fencesRetest (s : State) (ms : List (Nat × Measured)) : State :=
  let s := s.fh.rtFences.foldl (fun s g =>
    if (measuredOf ms (partOf g)).coreFails.contains (g % 13) then
      (enterVerdict (ev s F.FH_EVENT_RETEST_FAIL 0) 1 g 7 3 CperInfo.plain).1
    else s) s
  { s with fh := { s.fh with rtFences := [] } }

/-- Give each fenced core of a list the lowest spare that remains (R423). -/
def spareGive (s : State) (l : List Nat) : State :=
  l.foldl (fun s g => match lowestSpare s (partOf g) with
    | some sp => wf (wf s F.PTN_CORE_STATE_ROLE sp 0) F.PTN_CORE_STATE_STOOD_BY g sp
    | none => s) s

/-- Rebuild the roles from the fuses, the verdicts, and the fences that stand (R423). -/
def rolesRebuild (s : State) : State :=
  let l := (List.range 260).filter fun g => role s g != 3 && (standing s 1 g || s.fh.rtFences.contains g)
  let s := l.foldl (fun s g => wf (wf s F.PTN_CORE_CTRL_FENCE g 1) F.PTN_CORE_STATE_ROLE g 2) s
  let s := spareGive s l
  (List.range 20).foldl (fun s p => if holdsUnreplaced s p then degraded s p else s) s

/-! ### Presets (R431) -/

/-- Keys of the preset records. -/
def presetKeys : List Nat := span 0x100 16

/-- Offsets that no preset may name: the Waybill, SET_, SEC_, RST_, HUB_UPD_, PWR_P3_CMD. -/
def presetBarred (off : Nat) : Bool :=
  match place off with
  | .waybill _ | .setBuf _ | .certWin _ => true
  | .frame .set _ _ | .frame .sec _ _ | .frame .rst _ _ => true
  | .frame .hub _ o => decide (0x10 ≤ o % 1024 ∧ o % 1024 < 0x24)
  | .frame .pwr _ o => o % 1024 == 0x18
  | _ => false

/-- One entry of a preset record: the state after it, and whether it was skipped. The reason of an earlier access fault is kept unless
the entry is refused. -/
def presetEntry (s : State) (off : Nat) (v : Word) : Host.Outcome (State × Bool) Fault Refusal :=
  if presetBarred off then .next (s, true)
  else
    let old := rf s F.HUB_ACC_FAULT_REASON 0
    match windowWrite (wf s F.HUB_ACC_FAULT_REASON 0 0) .fw off 4 v with
    | .next t => if rf t F.HUB_ACC_FAULT_REASON 0 = 0 then .next (wf t F.HUB_ACC_FAULT_REASON 0 old, false) else .next (t, true)
    | .fault f => .fault f
    | .refused r => .refused r

/-- The entries of all preset records, in order. -/
def presetEntries (s : State) : List (Nat × Word) :=
  presetKeys.flatMap fun k =>
    let d := (aget s.settings.records k).getD []
    (List.range (d.length / 8)).map fun i => (fieldLE (8 * i) 4 d % 2 ^ 26, BitVec.ofNat 32 (fieldLE (8 * i + 4) 4 d))

/-- Write the entries one after another; counts those applied and those skipped. -/
def presetRun : List (Nat × Word) → Nat → Nat → State → Host.Outcome State Fault Refusal
  | [], n, k, s => .next (wf (wf s F.SET_PRESET_INFO_APPLIED 0 n) F.SET_PRESET_INFO_SKIPPED 0 k)
  | e :: l, n, k, s =>
    match presetEntry s e.1 e.2 with
    | .next (t, true) => presetRun l n (k + 1) t
    | .next (t, false) => presetRun l (n + 1) k t
    | .fault f => .fault f
    | .refused r => .refused r

/-- Apply the presets, strobe all sixteen groups at once, and then do the rest. -/
def presetApply (s : State) (rest : State → State) : Host.Outcome State Fault Refusal :=
  match presetRun (presetEntries s) 0 0 s with
  | .next t => .next (rest (transfer t 0xFFFF))
  | .fault f => .fault f
  | .refused r => .refused r

/-! ### Package reset (R420) -/

/-- The board's alert, where it is still asserted, forces level 8 again (R459). -/
def alertAgain (s : State) : State :=
  if s.power.alert then setSums (setLevel (wf s F.PWR_STATUS_ALERT 0 1) 8) 0 0 100 else s

/-- The host die and the staging module leave reset. -/
def hostRelease (s : State) : State :=
  alertAgain { s with power := { s.power with hostResetN := true, perstN := true } }

/-- Every partition trains its stack, checks its cores, and reads failed or not; each of `ps`. -/
def partsCheck (s : State) (ms : List (Nat × Measured)) (ps : List Nat) : State :=
  ps.foldl (fun s p => checkCores (trainStack s p (measuredOf ms p)) p (measuredOf ms p) false) s

/-- The island restarts the package, for a cause, and the boot chain runs (R420, R443). -/
def bootStart (s : State) (cause : Nat) : State :=
  let s := islandBase s
  let w := { s.power with root := true, refOk := true, held := false, inP3 := false, hostResetN := false, perstN := false }
  bootChain (wf (wf { s with power := w } F.RST_STATUS_CAUSE 0 cause) F.CLK_STATUS_LAST_UNLOCK 0 (b2n (cause == 4)))

/-- The hub's firmware brings up the partitions, the roles and the Waybill (R420). -/
def bootParts (s : State) (ms : List (Nat × Measured)) : State :=
  let s := partsCheck (portsKept (recordsApply (clearVerdicts s))) ms (List.range 20)
  waybillBuild ((List.range 20).foldl settleFailed (rolesRebuild (fencesRetest s ms)))

/-- A package reset of a cause, or the same order at a cold power-on (cause 0). -/
def boot (s : State) (cause : Nat) (ms : List (Nat × Measured)) : Host.Outcome State Fault Refusal :=
  let s := bootStart s cause
  if inRecovery s then .next (allInReset s) else presetApply (bootParts s ms) hostRelease

/-! ### Hub reset (R421, R422) -/

/-- Partitions that a hub reset resets: all but those in P2. -/
def hubParts (s : State) : List Nat := (List.range 20).filter fun p => pstate s p != 2

/-- The word that a register keeps through a hub reset: the island's, the controller's SEC_ and SET_, and of a partition in P2 its state
and what training has set. -/
def hubWord (s : State) (k : Nat) (w : Word) : Word :=
  let p2 := fun (p : Nat) => pstate s p == 2
  match keyBlk k with
  | some .sec | some .set => w
  | some .memCh => if keyOff k = 0 ∧ p2 (keyInst k / 128) then w else regReset k
  | some .mem => if keyOff k = 4 ∧ p2 (keyInst k) then (regReset k &&& 0x00FFFFFF) ||| (w &&& 0xFF000000) else regReset k
  | some .rst => if keyOff k = 0x10 then w else islandWord k w
  | _ => islandWord k w

/-- The state with the hub and the partitions that `ps` names reset; roles are rebuilt later. -/
def hubBase (s : State) (ps : List Nat) : State :=
  let keep := fun (e : Nat × PartSt) =>
    if ps.contains e.1 ∧ ¬ bit e.1 (rf s F.RST_CONTENT_CONTENT_KEPT 0) then (e.1, PartSt.reset)
    else (e.1, { PartSt.reset with stack := e.2.stack, check := e.2.check })
  let p2 := (List.range 20).filter fun p => !ps.contains p
  let t := { State.reset with
    regs := s.regs.foldl (fun l e => sput regReset l e.1 (hubWord s e.1 e.2)) []
    tmr := s.tmr.filter fun e => e.1 = gradeKey
    answers := s.answers, replies := s.replies, ledger := LedgerSt.reset
    time := { State.reset.time with now := s.time.now, acc := s.time.acc }
    fh := { s.fh with cper := [], hung := [] }
    ist := { s.ist with sweep := [], windows := [], spent := [], passed := [] }
    parts := (s.parts.map keep).filter fun e => e.2 != PartSt.reset
    power := { s.power with lowSums := 0, topSums := 0, coolSums := 0 }
    settings := { s.settings with routeDue := false }
    sec := s.sec, waybill := s.waybill, free := s.free, pending := s.pending }
  p2.foldl (fun t p => setPstate t p 2) t

/-- The phases of R378 that run before the hub resets: accepted accesses end, dirty sectors are written back, CONTENT_KEPT. -/
def hubQuiesce (s : State) (ms : List (Nat × Measured)) (ps : List Nat) : State :=
  ps.foldl (fun s p => writeBack (settleMisses s p) p (measuredOf ms p).kept) s

/-- The hub and the partitions of `ps` come down and the hub boots again (R378, R421, R443). -/
def hubStart (s : State) (ms : List (Nat × Measured)) (ps : List Nat) : State :=
  let s := hubBase (hubQuiesce s ms ps) ps
  bootCore s (rf s F.SEC_STATUS_BOOT_STATE 0 == 1)

/-- The hub's firmware brings the partitions of `ps` up again; `was` is what the Waybill's facts and the lost channels were. -/
def hubBring (s : State) (ms : List (Nat × Measured)) (ps : List Nat) (was : State) : State :=
  let s := partsCheck (portsKept (recordsApply s)) ms ps
  let s := rolesRebuild (ps.foldl (fun s p => relayout s p (outList was p)) s)
  let s := ps.foldl settleFailed s
  let s := if (List.range 20).map (partFacts s) = (List.range 20).map (partFacts was) then s else waybillDue s
  ps.foldl (fun s p => raise s E.PARTITION_READY (U.part p) 0 0) s

/-- The last of a hub reset. -/
def hubDone (s : State) : State := ev (hostRelease s) F.RST_EVENT_HUB_DONE 0

/-- A hub reset. -/
def hubReset (was : State) (ms : List (Nat × Measured)) : Host.Outcome State Fault Refusal :=
  let ps := hubParts was
  let s := hubStart was ms ps
  if inRecovery s then .next (allInReset { s with power := { s.power with hostResetN := false, perstN := false } })
  else presetApply (hubBring s ms ps was) hubDone

/-! ### RST_PKG_CMD (R419) -/

/-- The reset that a write to RST_PKG_CMD names: 1 hub, 2 package, 0 none; a package reset overrides a hub reset (R422). -/
def pkgArg (view : Nat) (v : Word) : Nat := if view = 2 then 0 else if wbits 0 0 v = 1 then 2 else if wbits 1 1 v = 1 then 1 else 0

/-- What a write that is admitted and stored does. -/
def pkgEffect (view : Nat) (v : Word) (ms : List (Nat × Measured)) (s : State) : Host.Outcome State Fault Refusal :=
  let arg := pkgArg view v
  if arg = 0 then .next s
  else if ¬ rb s (if arg = 2 then F.RST_EN_PKG_EN else F.RST_EN_HUB_EN) 0 then .next (rstRefuse s 1 0)
  else if wbits 31 16 v ≠ 0x5253 then .next (rstRefuse s 3 0)
  else if arg = 2 then boot s 2 ms
  else hubReset s ms

/-- A write to RST_PKG_CMD; the management requester needs a grant for it (reason 7). -/
def pkgCmdWrite (req : Requester) (view : Nat) (v : Word) (ms : List (Nat × Measured)) (s : State) : Host.Outcome State Fault Refusal :=
  if !hubUp s then .next s
  else if req = .mgmt ∧ ¬ grantAdmits s 4 (pkgArg view v) none then .next (accFault s 7 req.id (winOff .rst 0 (1024 * view + 8)))
  else
    match regWriteTo s req .rst 0 8 view v noEffect with
    | .next t => pkgEffect view v ms (if req = .mgmt then grantUse t else t)
    | .fault f => .fault f
    | .refused r => .refused r

/-- PACKAGE_RESET (R420): a write to RST_PKG_CMD. -/
def execPackageReset (req : Requester) (value : Word) (ms : List (Nat × Measured)) (s : State) : Host.Outcome State Fault Refusal :=
  pkgCmdWrite req 0 value ms s

/-- HUB_RESET (R421): a write to RST_PKG_CMD. -/
def execHubReset (req : Requester) (value : Word) (ms : List (Nat × Measured)) (s : State) : Host.Outcome State Fault Refusal :=
  pkgCmdWrite req 0 value ms s

/-! ### Resets that the board and the island start -/

/-- RESET_N_ASSERT (R418, R457): in operation it starts a package reset. -/
def execResetNAssert (ms : List (Nat × Measured)) (s : State) : Host.Outcome State Fault Refusal :=
  let s := { s with power := { s.power with resetN := false } }
  if islandUp s then boot s 1 ms else .next s

/-- RESET_N_RELEASE (R458): after a rail failure or a trip it runs the main-rail sequence again. -/
def execResetNRelease (s : State) : Host.Outcome State Fault Refusal :=
  if s.power.resetN then .next s
  else
    let s := { s with power := { s.power with resetN := true } }
    if s.power.supplied && s.power.railFail then
      let s := wf (wf s F.I3C_BSTAT_RAIL_FAIL 0 0) F.I3C_BSTAT_THERMTRIP 0 0
      .next { s with power := { s.power with railFail := false, thermtripN := true, enMain := true, cause := 1 } }
    else .next s

/-- PG_MAIN_ASSERT (R457): the sequence of R420 goes on. -/
def execPgMainAssert (ms : List (Nat × Measured)) (s : State) : Host.Outcome State Fault Refusal :=
  if s.power.enMain && !s.power.pgMain then
    boot (mainOn { s with power := { s.power with pgMain := true } }) s.power.cause ms
  else .next s

/-- ROOT_LOCK (R414): lock returns after a loss. -/
def execRootLock (ms : List (Nat × Measured)) (s : State) : Host.Outcome State Fault Refusal :=
  if s.power.enMain && s.power.pgMain && !s.power.root then boot s 4 ms else .next s

/-! ### The register commands (R40 to R57) -/

/-- A register write anywhere in the window. -/
def regWriteAny (s : State) (req : Requester) (off size : Nat) (v : Word) : Host.Outcome State Fault Refusal :=
  if accReason req off size = 0 ∧ off / 0x1000 = 0x24 ∧ off % 1024 = 8 then pkgCmdWrite req (off % 4096 / 1024) v [] s
  else windowWrite s req off size v

/-- The register that an offset names: page, page offset, view. -/
def named (off : Nat) : Option (Blk × Nat × Nat) :=
  match place off with
  | .frame b _ o => some (pageOf b (o % 1024), o % 1024, o / 1024)
  | _ => none

/-- A command that writes a register of one kind: an offset that names none of that kind is no such command (log 1). -/
def kindWrite (s : State) (req : Requester) (off : Nat) (v : Word) (kind : Blk → Nat → Nat → Bool) :
    Host.Outcome State Fault Refusal :=
  match named off with
  | some (b, o, view) => if kind b o view then regWriteAny s req off 4 v else .next s
  | none => .next s

/-- REG_WRITE (R41). -/
def execRegWrite (req : Requester) (off size : Nat) (value : Word) (s : State) : Host.Outcome State Fault Refusal :=
  regWriteAny s req off size value

/-- REG_READ (R40, R43). -/
def execRegRead (req : Requester) (off size : Nat) (s : State) : Host.Outcome State Fault Refusal := .next (windowRead s req off size)

/-- READ_LO (R45). -/
def execReadLo (req : Requester) (off : Nat) (s : State) : Host.Outcome State Fault Refusal :=
  match named off with
  | some (b, o, _) => if isLo b o then .next (windowRead s req off 4) else .next s
  | none => .next s

/-- WRITE_LO (R46). -/
def execWriteLo (req : Requester) (off : Nat) (value : Word) (s : State) : Host.Outcome State Fault Refusal :=
  kindWrite s req off value fun b o view => isLo b o && view == 0

/-- WRITE_HI (R46). -/
def execWriteHi (req : Requester) (off : Nat) (value : Word) (s : State) : Host.Outcome State Fault Refusal :=
  kindWrite s req off value fun b o view => isHi b o && view == 0

/-- SET_ALIAS_WRITE (R47). -/
def execSetAliasWrite (req : Requester) (off : Nat) (value : Word) (s : State) : Host.Outcome State Fault Refusal :=
  kindWrite s req off value fun _ _ view => view == 1

/-- CLEAR_ALIAS_WRITE (R47). -/
def execClearAliasWrite (req : Requester) (off : Nat) (value : Word) (s : State) : Host.Outcome State Fault Refusal :=
  kindWrite s req off value fun _ _ view => view == 2

/-- TOGGLE_ALIAS_WRITE (R47). -/
def execToggleAliasWrite (req : Requester) (off : Nat) (value : Word) (s : State) : Host.Outcome State Fault Refusal :=
  kindWrite s req off value fun _ _ view => view == 3

/-- UGRP_WRITE (R50). -/
def execUgrpWrite (req : Requester) (off : Nat) (value : Word) (s : State) : Host.Outcome State Fault Refusal :=
  kindWrite s req off value fun b o view => o == 0x3FC && view == 0 && (findReg b o).isSome

/-- HUB_UPD_STROBE (R52). -/
def execHubUpdStrobe (req : Requester) (value : Word) (s : State) : Host.Outcome State Fault Refusal :=
  windowWrite s req (winOff .hub 0 0x10) 4 value

/-- HUB_UPD_DISCARD (R54). -/
def execHubUpdDiscard (req : Requester) (value : Word) (s : State) : Host.Outcome State Fault Refusal :=
  windowWrite s req (winOff .hub 0 0x14) 4 value

/-- SEQ_WRITE_BACK (R56). -/
def execSeqWriteBack (req : Requester) (off : Nat) (value : Word) (s : State) : Host.Outcome State Fault Refusal :=
  kindWrite s req off value fun b o view => view == 0 && (findReg b o).any RegDef.isSeq

end Sys2Proof.Machine
end

