-- ==== Sys2Proof/Machine/Dispatch.lean ====
section
/-! DEFINITION. The meaning of every command: one arm per row of the table of operations and events. -/

namespace Sys2Proof.Machine

def exec (i : Instr) (s : State) : Host.Outcome State Fault Refusal :=
  match i with
  | .regWrite req off size value => Sys2Proof.Machine.execRegWrite req off size value s
  | .readLo req off => Sys2Proof.Machine.execReadLo req off s
  | .writeLo req off value => Sys2Proof.Machine.execWriteLo req off value s
  | .writeHi req off value => Sys2Proof.Machine.execWriteHi req off value s
  | .setAliasWrite req off value => Sys2Proof.Machine.execSetAliasWrite req off value s
  | .clearAliasWrite req off value => Sys2Proof.Machine.execClearAliasWrite req off value s
  | .toggleAliasWrite req off value => Sys2Proof.Machine.execToggleAliasWrite req off value s
  | .ugrpWrite req off value => Sys2Proof.Machine.execUgrpWrite req off value s
  | .hubUpdStrobe req value => Sys2Proof.Machine.execHubUpdStrobe req value s
  | .updateTransfer => Sys2Proof.Machine.execUpdateTransfer s
  | .hubUpdDiscard req value => Sys2Proof.Machine.execHubUpdDiscard req value s
  | .seqWriteBack req off value => Sys2Proof.Machine.execSeqWriteBack req off value s
  | .tmrScrub => Sys2Proof.Machine.execTmrScrub s
  | .waybillRegenerate => Sys2Proof.Machine.execWaybillRegenerate s
  | .meshFlitReceive bridge crcOk => Sys2Proof.Machine.execMeshFlitReceive bridge crcOk s
  | .wload core queue => Sys2Proof.Machine.execWload core queue s
  | .stream core queue => Sys2Proof.Machine.execStream core queue s
  | .longFreeze core cycles => Sys2Proof.Machine.execLongFreeze core cycles s
  | .mxBrambleInjArm req core value => Sys2Proof.Machine.execMxBrambleInjArm req core value s
  | .mxCntClr req core => Sys2Proof.Machine.execMxCntClr req core s
  | .qntCntClr req core => Sys2Proof.Machine.execQntCntClr req core s
  | .vchain core queue => Sys2Proof.Machine.execVchain core queue s
  | .optim core queue => Sys2Proof.Machine.execOptim core queue s
  | .vxBrambleInjArm req core value => Sys2Proof.Machine.execVxBrambleInjArm req core value s
  | .vxCntClr req core => Sys2Proof.Machine.execVxCntClr req core s
  | .sliceAccess r => Sys2Proof.Machine.execSliceAccess r s
  | .lineFill partition wire => Sys2Proof.Machine.execLineFill partition wire s
  | .patrolScrub partition sectors => Sys2Proof.Machine.execPatrolScrub partition sectors s
  | .pinChangeComplete partition => Sys2Proof.Machine.execPinChangeComplete partition s
  | .flush req partition => Sys2Proof.Machine.execFlush req partition s
  | .invalidate req partition => Sys2Proof.Machine.execInvalidate req partition s
  | .keepRelease req partition => Sys2Proof.Machine.execKeepRelease req partition s
  | .scCntClr req partition => Sys2Proof.Machine.execScCntClr req partition s
  | .sliceAtomic r => Sys2Proof.Machine.execSliceAtomic r s
  | .scaleStage core addr amax under => Sys2Proof.Machine.execScaleStage core addr amax under s
  | .sliceScaleRoll src addr step => Sys2Proof.Machine.execSliceScaleRoll src addr step s
  | .sliceArm src addr => Sys2Proof.Machine.execSliceArm src addr s
  | .sliceContrib src addr srcIdx line data => Sys2Proof.Machine.execSliceContrib src addr srcIdx line data s
  | .reductionDone addr => Sys2Proof.Machine.execReductionDone addr s
  | .retireLane req partition value => Sys2Proof.Machine.execRetireLane req partition value s
  | .reqOut req partition value => Sys2Proof.Machine.execReqOut req partition value s
  | .memChClr req partition => Sys2Proof.Machine.execMemChClr req partition s
  | .memCntClr req partition => Sys2Proof.Machine.execMemCntClr req partition s
  | .nop core queue => Sys2Proof.Machine.execNop core queue s
  | .flagDecl core queue => Sys2Proof.Machine.execFlagDecl core queue s
  | .counterSet core queue => Sys2Proof.Machine.execCounterSet core queue s
  | .loopBegin core queue => Sys2Proof.Machine.execLoopBegin core queue s
  | .loopEnd core queue => Sys2Proof.Machine.execLoopEnd core queue s
  | .branch core queue => Sys2Proof.Machine.execBranch core queue s
  | .segment core queue => Sys2Proof.Machine.execSegment core queue s
  | .copy core queue => Sys2Proof.Machine.execCopy core queue s
  | .atomic core queue => Sys2Proof.Machine.execAtomic core queue s
  | .lineOp core queue => Sys2Proof.Machine.execLineOp core queue s
  | .redArm core queue => Sys2Proof.Machine.execRedArm core queue s
  | .redContrib core queue => Sys2Proof.Machine.execRedContrib core queue s
  | .scaleRoll core queue => Sys2Proof.Machine.execScaleRoll core queue s
  | .put core queue => Sys2Proof.Machine.execPut core queue s
  | .rcontrib core queue => Sys2Proof.Machine.execRcontrib core queue s
  | .notify core queue => Sys2Proof.Machine.execNotify core queue s
  | .descriptorComplete core queue => Sys2Proof.Machine.execDescriptorComplete core queue s
  | .signalArrive => Sys2Proof.Machine.execSignalArrive s
  | .deferredPromotion core queue => Sys2Proof.Machine.execDeferredPromotion core queue s
  | .branchSelect core queue => Sys2Proof.Machine.execBranchSelect core queue s
  | .qbrselWrite req core queue value => Sys2Proof.Machine.execQbrselWrite req core queue value s
  | .queueDiscard req core queue => Sys2Proof.Machine.execQueueDiscard req core queue s
  | .queueResume req core queue => Sys2Proof.Machine.execQueueResume req core queue s
  | .loopCountWrite req core reg value => Sys2Proof.Machine.execLoopCountWrite req core reg value s
  | .deadlock core => Sys2Proof.Machine.execDeadlock core s
  | .hostLinkDown => Sys2Proof.Machine.execHostLinkDown s
  | .hqLinkRetrain req => Sys2Proof.Machine.execHqLinkRetrain req s
  | .dmemRd tag addr units => Sys2Proof.Machine.execDmemRd tag addr units s
  | .dmemWr addr data => Sys2Proof.Machine.execDmemWr addr data s
  | .hostPacketReserved ptype tag nonPosted => Sys2Proof.Machine.execHostPacketReserved ptype tag nonPosted s
  | .hmemRdCompletion tag status data => Sys2Proof.Machine.execHmemRdCompletion tag status data s
  | .hmemRdTimeout tag => Sys2Proof.Machine.execHmemRdTimeout tag s
  | .hqWake req value => Sys2Proof.Machine.execHqWake req value s
  | .ringPoll ring => Sys2Proof.Machine.execRingPoll ring s
  | .ringFetch ring => Sys2Proof.Machine.execRingFetch ring s
  | .ringRun req value => Sys2Proof.Machine.execRingRun req value s
  | .ringPause req value => Sys2Proof.Machine.execRingPause req value s
  | .hqRingCidxWrite req value => Sys2Proof.Machine.execHqRingCidxWrite req value s
  | .hqCqHeadWrite req value => Sys2Proof.Machine.execHqCqHeadWrite req value s
  | .cqEnable req value => Sys2Proof.Machine.execCqEnable req value s
  | .interruptHoldoff cq => Sys2Proof.Machine.execInterruptHoldoff cq s
  | .phyTrainEnd port ok => Sys2Proof.Machine.execPhyTrainEnd port ok s
  | .identSend port => Sys2Proof.Machine.execIdentSend port s
  | .identTimeout port => Sys2Proof.Machine.execIdentTimeout port s
  | .identReceive port ident => Sys2Proof.Machine.execIdentReceive port ident s
  | .recheckTimeout port => Sys2Proof.Machine.execRecheckTimeout port s
  | .linkBlockReceive port fecOk corrected block => Sys2Proof.Machine.execLinkBlockReceive port fecOk corrected block s
  | .replayTimeout port => Sys2Proof.Machine.execReplayTimeout port s
  | .fabLinkDown port => Sys2Proof.Machine.execFabLinkDown port s
  | .fabRetrain req => Sys2Proof.Machine.execFabRetrain req s
  | .fabCntClr req => Sys2Proof.Machine.execFabCntClr req s
  | .packetRoute input => Sys2Proof.Machine.execPacketRoute input s
  | .ackReceive p => Sys2Proof.Machine.execAckReceive p s
  | .routePlan plan => Sys2Proof.Machine.execRoutePlan plan s
  | .jobStart req => Sys2Proof.Machine.execJobStart req s
  | .jobEnd req => Sys2Proof.Machine.execJobEnd req s
  | .interlude req on => Sys2Proof.Machine.execInterlude req on s
  | .stepOpen req => Sys2Proof.Machine.execStepOpen req s
  | .pannierCopyDone => Sys2Proof.Machine.execPannierCopyDone s
  | .seal req => Sys2Proof.Machine.execSeal req s
  | .close req => Sys2Proof.Machine.execClose req s
  | .replay req => Sys2Proof.Machine.execReplay req s
  | .resolveCommit req => Sys2Proof.Machine.execResolveCommit req s
  | .resolveFail req => Sys2Proof.Machine.execResolveFail req s
  | .digCompare req => Sys2Proof.Machine.execDigCompare req s
  | .voteLine level line => Sys2Proof.Machine.execVoteLine level line s
  | .voteResult line => Sys2Proof.Machine.execVoteResult line s
  | .voteTimeout => Sys2Proof.Machine.execVoteTimeout s
  | .digDone => Sys2Proof.Machine.execDigDone s
  | .fence req partition => Sys2Proof.Machine.execFence req partition s
  | .remount req partition => Sys2Proof.Machine.execRemount req partition s
  | .save req => Sys2Proof.Machine.execSave req s
  | .restore req => Sys2Proof.Machine.execRestore req s
  | .adopt req => Sys2Proof.Machine.execAdopt req s
  | .query req => Sys2Proof.Machine.execQuery req s
  | .ckpExport req => Sys2Proof.Machine.execCkpExport req s
  | .ckpImport req => Sys2Proof.Machine.execCkpImport req s
  | .importCommit req => Sys2Proof.Machine.execImportCommit req s
  | .format req => Sys2Proof.Machine.execFormat req s
  | .ckpAbort req => Sys2Proof.Machine.execCkpAbort req s
  | .moduleReset req => Sys2Proof.Machine.execModuleReset req s
  | .captureEnd => Sys2Proof.Machine.execCaptureEnd s
  | .nvmeCompletion id status data => Sys2Proof.Machine.execNvmeCompletion id status data s
  | .nvmeTimeout id => Sys2Proof.Machine.execNvmeTimeout id s
  | .stagingLinkDown => Sys2Proof.Machine.execStagingLinkDown s
  | .stagingInbound write addr len data => Sys2Proof.Machine.execStagingInbound write addr len data s
  | .autoSaveStart => Sys2Proof.Machine.execAutoSaveStart s
  | .hang kind index => Sys2Proof.Machine.execHang kind index s
  | .partitionReset req value m => Sys2Proof.Machine.execPartitionReset req value m s
  | .eventAgeOut kind index sig => Sys2Proof.Machine.execEventAgeOut kind index sig s
  | .exportAck req => Sys2Proof.Machine.execExportAck req s
  | .clearVerdict req => Sys2Proof.Machine.execClearVerdict req s
  | .apply req => Sys2Proof.Machine.execApply req s
  | .retest req => Sys2Proof.Machine.execRetest req s
  | .cperSend => Sys2Proof.Machine.execCperSend s
  | .fhDigestRecompute => Sys2Proof.Machine.execFhDigestRecompute s
  | .operatingSecond => Sys2Proof.Machine.execOperatingSecond s
  | .istWindowOpen core => Sys2Proof.Machine.execIstWindowOpen core s
  | .istPreempt core delay => Sys2Proof.Machine.execIstPreempt core delay s
  | .istPatternDone core pattern cycles expected got => Sys2Proof.Machine.execIstPatternDone core pattern cycles expected got s
  | .sweep req => Sys2Proof.Machine.execSweep req s
  | .abortSweep req => Sys2Proof.Machine.execAbortSweep req s
  | .sweepDone => Sys2Proof.Machine.execSweepDone s
  | .testPackage pkg => Sys2Proof.Machine.execTestPackage pkg s
  | .ledgerTick => Sys2Proof.Machine.execLedgerTick s
  | .timeExchange => Sys2Proof.Machine.execTimeExchange s
  | .timeRequest p => Sys2Proof.Machine.execTimeRequest p s
  | .timeResponse p => Sys2Proof.Machine.execTimeResponse p s
  | .noResp => Sys2Proof.Machine.execNoResp s
  | .timeSet req value => Sys2Proof.Machine.execTimeSet req value s
  | .snapArm req => Sys2Proof.Machine.execSnapArm req s
  | .snapshotTaken => Sys2Proof.Machine.execSnapshotTaken s
  | .snapBcastReceive p => Sys2Proof.Machine.execSnapBcastReceive p s
  | .ledgerAck req => Sys2Proof.Machine.execLedgerAck req s
  | .rootUnlock refStopped => Sys2Proof.Machine.execRootUnlock refStopped s
  | .rootLock ms => Sys2Proof.Machine.execRootLock ms s
  | .powerSum watts => Sys2Proof.Machine.execPowerSum watts s
  | .pwrAlert asserted => Sys2Proof.Machine.execPwrAlert asserted s
  | .thermalThrottle compute stack hub host => Sys2Proof.Machine.execThermalThrottle compute stack hub host s
  | .thermtrip compute stack hub host => Sys2Proof.Machine.execThermtrip compute stack hub host s
  | .coldPowerOn => Sys2Proof.Machine.execColdPowerOn s
  | .resetNAssert ms => Sys2Proof.Machine.execResetNAssert ms s
  | .packageReset req value ms => Sys2Proof.Machine.execPackageReset req value ms s
  | .hubReset req value ms => Sys2Proof.Machine.execHubReset req value ms s
  | .railFail => Sys2Proof.Machine.execRailFail s
  | .avsAckTimeout regulator => Sys2Proof.Machine.execAvsAckTimeout regulator s
  | .vmiLoss => Sys2Proof.Machine.execVmiLoss s
  | .p1Enter partition => Sys2Proof.Machine.execP1Enter partition s
  | .p1Exit partition => Sys2Proof.Machine.execP1Exit partition s
  | .p2Enter req value kept => Sys2Proof.Machine.execP2Enter req value kept s
  | .p2Exit req value m => Sys2Proof.Machine.execP2Exit req value m s
  | .p3Enter req => Sys2Proof.Machine.execP3Enter req s
  | .p3Wake => Sys2Proof.Machine.execP3Wake s
  | .i3cWake => Sys2Proof.Machine.execI3cWake s
  | .settingsStore req => Sys2Proof.Machine.execSettingsStore req s
  | .settingsRead req => Sys2Proof.Machine.execSettingsRead req s
  | .settingsErase req => Sys2Proof.Machine.execSettingsErase req s
  | .settingsDone => Sys2Proof.Machine.execSettingsDone s
  | .routingRecordStore => Sys2Proof.Machine.execRoutingRecordStore s
  | .imageLoad image => Sys2Proof.Machine.execImageLoad image s
  | .operatorKeyEnvelope envelope => Sys2Proof.Machine.execOperatorKeyEnvelope envelope s
  | .grant g => Sys2Proof.Machine.execGrant g s
  | .grantExpiry => Sys2Proof.Machine.execGrantExpiry s
  | .attestRequest nonce => Sys2Proof.Machine.execAttestRequest nonce s
  | .secAttestGo req => Sys2Proof.Machine.execSecAttestGo req s
  | .attestDone => Sys2Proof.Machine.execAttestDone s
  | .regRead req off size => Sys2Proof.Machine.execRegRead req off size s
  | .ucieTrainEnd modules32 modules16 => Sys2Proof.Machine.execUcieTrainEnd modules32 modules16 s
  | .stagingLinkTrainEnd facts => Sys2Proof.Machine.execStagingLinkTrainEnd facts s
  | .pgMainAssert ms => Sys2Proof.Machine.execPgMainAssert ms s
  | .resetNRelease => Sys2Proof.Machine.execResetNRelease s
  | .i3cDynamicAddress addr => Sys2Proof.Machine.execI3cDynamicAddress addr s

end Sys2Proof.Machine
end

