-- ==== Sys2Proof/Safety.lean ====
section
/-! DEFINITION. What a safe run is, and the words in which the claims speak of a step: when an access lands, and what a step leaves
alone. -/

namespace Sys2Proof.Safety

open Sys2Proof.Machine

/-- A step from this state neither faults nor is refused. -/
def stepsOn (s : State) : Bool :=
  match step s with
  | .next _ => true
  | _ => false

/-- A command completes in this state. -/
def completes (c : Instr) (s : State) : Prop := ∃ t, exec c s = .next t

/-- A property that every step keeps. -/
def kept (P : State → Prop) : Prop := ∀ s t, P s → step s = .next t → P t

/-! ### When a register access lands -/

/-- A window offset names the register at offset `o` of page `b`, instance `i` before any select register, through a view: 0 the
base page, 1 to 3 the set, clear and toggle aliases (R43, R47, R62 to R64). -/
def regAt (off : Nat) (b : Blk) (i o view : Nat) : Prop :=
  off % 4 = 0 ∧ o < 1024 ∧ ∃ f, place off = .frame f i (1024 * view + o) ∧ b = pageOf f o

/-- The register is one that a write reaches with no check of its page's own: no event register, no UGRP, none of the pages whose
writes are checked first (MEM_CH_CTRL, FH_CMD, SET_CMD, RST_PKG_CMD, the step-replay page). -/
def plainReg (b : Blk) (o : Nat) : Prop :=
  (findReg b o).any RegDef.isSeq = false ∧ o ≠ 0x3FC ∧ (b ≠ .memCh ∨ o ≠ 4) ∧ (b ≠ .fh ∨ o ≠ 0x1C) ∧ (b ≠ .set ∨ o ≠ 0) ∧ b ≠ .hubSr ∧
    (b ≠ .rst ∨ o ≠ 8)

/-- The frame of a page takes accesses: the hub runs, and the page's partition and core are there (R43, R44). -/
def frameOpen (s : State) (b : Blk) (i : Nat) : Prop := hubUp s = true ∧ pageDown s b i = false ∧ pageInert s b i = false

/-- A base-page write of `v` reaches the instances `l` and changes no reserved bit of them (R58, R61). -/
def lands (s : State) (req : Requester) (b : Blk) (i off : Nat) (v : Word) (l : List Nat) : Prop :=
  frameOpen s b i ∧ reached s req b i off true = some l ∧ ∀ j ∈ l, breaksReserved s b j off v = false

/-- A write through an alias reaches the instances `l` (R47). -/
def landsSet (s : State) (req : Requester) (b : Blk) (i off : Nat) (l : List Nat) : Prop :=
  frameOpen s b i ∧ reached s req b i off true = some l

/-! ### When a descriptor issues -/

/-- The head `d` of a queue issues now, by its operation (R194, R204, R219): the core takes descriptors from its queues, the waits
hold, the head is legal and not held, no lower queue takes a flag that it would consume, and its unit grants the queue. -/
def issues (s : State) (g q op : Nat) (d : List Byte) : Prop :=
  issueHeld s g = false ∧ headState s g q = .ready d ∧ dOp d = op ∧ flagTaken s g q d = false ∧ granted s g q (unitOf op) = true

/-! ### When a slice serves an access -/

/-- `n` bytes at `a` lie in one line of the pinned region of partition `p`, from offset `off`, inside the pinned ways in effect, and
the slice serves them at once (R165, R178): its partition is up, no change of PIN_WAYS is under way and no miss is waited for. -/
def pinServed (s : State) (a n p off : Nat) : Prop :=
  target a = .pin p off ∧ ptnDown s p = false ∧ rb s F.SC_STATUS_PIN_CHANGING p = false ∧ off < pinLive s p * 2 ^ 20 ∧
    0 < n ∧ a % 128 + n ≤ 128 ∧ (getPart s p).misses = []

/-- The 64-bit counters of a slice (R192). -/
def scCounts (p : Nat) : List Nat := (List.range 10).map fun n => regKey .sc p (0x40 + 4 * n)

/-- The state with the pinned bytes of a partition from `off` on replaced. -/
def pinnedPut (s : State) (p off : Nat) (data : List Byte) : State :=
  setPart s p { getPart s p with pinned := mwrN (getPart s p).pinned off data }

/-! ### What a step leaves alone -/

/-- Nothing but the registers `ks` changes. -/
def onlyRegs (ks : List Nat) (s t : State) : Prop :=
  (∀ k, k ∉ ks → regLive t k = regLive s k) ∧ t = { s with regs := t.regs, tmr := t.tmr }

/-- Nothing but the registers `ks` and the tick's note of event registers changes. -/
def onlyEvents (ks : List Nat) (s t : State) : Prop :=
  (∀ k, k ∉ ks → regLive t k = regLive s k) ∧ t = { s with regs := t.regs, tmr := t.tmr, seqTicked := t.seqTicked }

/-- Every byte of every slice's lines, pinned region and stack, and of every core store, reads as before. -/
def memoryKept (s t : State) : Prop := t.parts = s.parts ∧ ∀ g, (getCore t g).store = (getCore s g).store

/-! ### The security counters -/

/-- The counters and revocations of R444 and R447 never fall back: each SVN and the authorisation counter rise or stay, and a
revoked key stays revoked. -/
def rises (a b : Floors) : Prop :=
  a.svnHub ≤ b.svnHub ∧ a.svnCore ≤ b.svnCore ∧ (∀ n, bit n a.revoked = true → bit n b.revoked = true) ∧ a.authCtr ≤ b.authCtr

end Sys2Proof.Safety
end

