-- ==== Sys2Proof/Certificates/Slice0/Obligations.lean ====
section
/-! DEFINITION. The statements of this block for the provers: the register window, the descriptors and sequencers, the memory, the host
and fabric links, jobs and steps, checkpoints, fault history, time, power, resets, settings and security. -/

open Sys2Proof Sys2Proof.Machine Sys2Proof.Safety

/-- The queue of waiting commands is served first in, first out: a step with a command at the front of the queue is the meaning of that command,
run with the rest of the queue (the cut of the block; the queue is the model's own). -/
def Obligations.FrontCommandRuns : Prop :=
  ∀ (c : Instr) (rest : List Instr) (s : State), s.pending = c :: rest → step s = exec c (s.withPending rest)

/-- On an empty queue a step changes nothing (the model's choice, log 2). -/
def Obligations.EmptyQueueIdles : Prop :=
  ∀ s : State, s.pending = [] → step s = .next s

/-- No command's own effect reaches the queue of waiting commands. -/
def Obligations.CommandsKeepQueue : Prop :=
  ∀ (c : Instr) (s t : State), exec c s = .next t → t.pending = s.pending

/-- Fuses cannot be unblown (R444) and the authorisation counter only advances (R447): over every step, whatever its command, each minimum SVN
rises or stays, a revoked key slot stays revoked, and SEC_AUTH_CTR rises or stays. -/
def Obligations.FusesStayBlown : Prop :=
  ∀ s t : State, step s = .next t → rises s.sec.floors t.sec.floors

/-- SEC_AUTH_CTR never wraps (R447): every step keeps it at 0xFFFF_FFFF or below. -/
def Obligations.GrantCounterNeverWraps : Prop :=
  kept fun s => s.sec.floors.authCtr ≤ 0xFFFFFFFF

/-- The counter stands within its 32 bits right after reset. -/
def Obligations.GrantCounterAtReset : Prop :=
  State.reset.sec.floors.authCtr ≤ 0xFFFFFFFF

/-- R447 through the machine: a grant that the controller accepts advances SEC_AUTH_CTR by one, whatever its operation; one that it refuses
leaves the counter and the held grant, and is recorded in SEC_EVENT with its reason. -/
def Obligations.GrantAdvancesCounter : Prop :=
  ∀ (g : List Byte) (s : State), hubUp s = true →
    (grantReason s g = 0 → ∃ t, exec (.grant g) s = .next t ∧ t.sec.floors.authCtr = s.sec.floors.authCtr + 1 ∧
      (fieldLE 6 1 g ≠ 5 → fieldLE 6 1 g ≠ 6 →
        t.sec.grant = some ⟨fieldLE 6 1 g, fieldLE 0x14 4 g, slice 0x20 32 g, s.time.now + fieldLE 0x18 1 g * 10 ^ 9⟩)) ∧
    (grantReason s g ≠ 0 → ∃ t, exec (.grant g) s = .next t ∧ t.sec = s.sec ∧ rf t F.SEC_EVENT_GRANT_REFUSED 0 = 1)

/-- R40: an access of another size than 32 bits, or not aligned to 4 bytes, is refused with reason 1. The write has no effect, the read returns
an error completion and no data; each changes nothing but the two registers that record the fault. -/
def Obligations.BadAccessRefused : Prop :=
  ∀ (req : Requester) (off size : Nat) (v : Word) (s : State), hubUp s = true → (size ≠ 4 ∨ off % 4 ≠ 0) →
    (∃ t, exec (.regWrite req off size v) s = .next t ∧ rf t F.HUB_ACC_FAULT_REASON 0 = 1 ∧ rf t F.HUB_ACC_FAULT_REQUESTER 0 = req.id ∧
      onlyEvents [F.HUB_ACC_FAULT_REASON.key 0, F.HUB_ACC_ADDR_OFFSET.key 0] s t) ∧
    (∃ t, exec (.regRead req off size) s = .next t ∧ rf t F.HUB_ACC_FAULT_REASON 0 = 1 ∧ rf t F.HUB_ACC_FAULT_REQUESTER 0 = req.id ∧
      t.answers = s.answers ++ [⟨req, off, true, 0⟩] ∧
      onlyEvents [F.HUB_ACC_FAULT_REASON.key 0, F.HUB_ACC_ADDR_OFFSET.key 0] s { t with answers := s.answers })

/-- R27: a write to the Waybill changes nothing, a read returns the image's word, and beyond the image's length it returns zero. -/
def Obligations.WaybillReadOnly : Prop :=
  (∀ (req : Requester) (off : Nat) (v : Word) (s : State), hubUp s = true → off < 0x10000 → off % 4 = 0 →
    exec (.regWrite req off 4 v) s = .next s ∧
    exec (.regRead req off 4) s = .next { s with answers := s.answers ++ [⟨req, off, false, wordAt (waybillImage s) off⟩] }) ∧
  (∀ (s : State) (off : Nat), (waybillImage s).length ≤ off → wordAt (waybillImage s) off = 0)

/-- R45: a read of the lower half latches the upper half in the requester's shadow under the lower half's offset; a read of the upper half whose
tag matches returns the shadow and clears it, any other returns the live upper half. Nothing else changes. -/
def Obligations.HalvesReadAsOne : Prop :=
  ∀ (req : Requester) (off : Nat) (b : Blk) (i o view j : Nat) (l : List Nat) (s : State), regAt off b i o view → frameOpen s b i →
    reached s req b i o false = some (j :: l) →
    (isLo b o = true →
      exec (.readLo req off) s = .next { s with
        shadow := aput s.shadow req.id (winOff b i o, readWord s req b j (o + 4))
        answers := s.answers ++ [⟨req, off, false, readWord s req b j o⟩] }) ∧
    (isHi b o = true → isLo b o = false →
      (∀ hi, aget s.shadow req.id = some (winOff b i (o - 4), hi) →
        exec (.regRead req off 4) s = .next { s with shadow := adel s.shadow req.id, answers := s.answers ++ [⟨req, off, false, hi⟩] }) ∧
      ((∀ hi, aget s.shadow req.id ≠ some (winOff b i (o - 4), hi)) →
        exec (.regRead req off 4) s = .next { s with answers := s.answers ++ [⟨req, off, false, readWord s req b j o⟩] }))

/-- R46: a write of a lower half goes to the requester's write holding and changes nothing else. A write of the upper half lands on its own,
and, where the holding is tagged with the lower half, together with the half held, which clears the holding. -/
def Obligations.HalvesWriteAsOne : Prop :=
  ∀ (req : Requester) (off : Nat) (b : Blk) (i o : Nat) (l : List Nat) (v : Word) (s : State), regAt off b i o 0 → frameOpen s b i →
    reached s req b i o true = some l →
    (isLo b o = true → exec (.writeLo req off v) s = .next { s with holding := aput s.holding req.id (winOff b i o, v) }) ∧
    (isHi b o = true → isLo b o = false → plainReg b o → ∀ m u,
      (u = s ∧ (∀ lo, aget s.holding req.id ≠ some (winOff b i (o - 4), lo)) ∨
        ∃ lo k, aget s.holding req.id = some (winOff b i (o - 4), lo) ∧ reached s req b i (o - 4) true = some k ∧
          u = k.foldl (fun s j => storeFields s b j (o - 4) 0 lo) { s with holding := adel s.holding req.id }) →
      lands u req b i o v m →
      exec (.writeHi req off v) s = .next (m.foldl (fun s j => regEffect req b o 0 v j (regLive s (regKey b j o)) (storeFields s b j o 0 v)) u))

/-- What a write of one register stores (R47, R48, R49, R59): with `m` the bits of its RW and TMR fields and `x` those of its RWB fields, less
the bits that the unit's state keeps from it, the live copy takes the view's value in `m`, the pending copy takes it in `x`, and every other
bit of the register stays. -/
def Obligations.WritesReachTheirBits : Prop :=
  ∀ (b : Blk) (j o view : Nat) (v : Word) (s : State) (r : RegDef), findReg b o = some r →
    let k := regKey b j o
    let m := r.maskOf (fun a => a == .rw || a == .tmr) &&& ~~~ frozen s b j o
    let x := r.maskOf Acc.buffered &&& ~~~ frozen s b j o
    let t := storeFields s b j o view v
    regLive t k = (regLive s k &&& ~~~ m) ||| (viewWord view (regLive s k) v &&& m) ∧
    (x ≠ 0 → strobeDepth s ((groupOf s b j).getD 16) = 0 → s.heldWrites.all (fun h => h.key != k) = true →
      m = 0 → pendWord t k = legalWord b o ((pendWord s k &&& ~~~ x) ||| (viewWord view (pendWord s k) v &&& x))) ∧
    (∀ n, n ≠ k → regLive t n = regLive s n) ∧
    t = { s with regs := t.regs, tmr := t.tmr, pend := t.pend, heldWrites := t.heldWrites }

/-- R47: a write to a plain register through the base page or an alias reaches every instance that the access selects: each takes the write in
the bits that take it, and then the register's own effect follows; nothing else happens. A read of a register that is no half of a pair
returns what the register shows, through every view, and changes nothing but the list of answers. -/
def Obligations.PlainWritesLand : Prop :=
  (∀ (req : Requester) (off : Nat) (b : Blk) (i o view : Nat) (l : List Nat) (v : Word) (s : State), regAt off b i o view → plainReg b o →
    let t := l.foldl (fun u j => regEffect req b o view v j (regLive u (regKey b j o)) (storeFields u b j o view v)) s
    (view = 0 → isLo b o = false → isHi b o = false → lands s req b i o v l → exec (.regWrite req off 4 v) s = .next t) ∧
    (view = 1 → frameOpen s b i → reached s req b i o true = some l → exec (.setAliasWrite req off v) s = .next t) ∧
    (view = 2 → frameOpen s b i → reached s req b i o true = some l → exec (.clearAliasWrite req off v) s = .next t) ∧
    (view = 3 → frameOpen s b i → reached s req b i o true = some l → exec (.toggleAliasWrite req off v) s = .next t)) ∧
  (∀ (req : Requester) (off : Nat) (b : Blk) (i o view j : Nat) (l : List Nat) (s : State), regAt off b i o view → frameOpen s b i →
    reached s req b i o false = some (j :: l) → isLo b o = false → isHi b o = false →
    exec (.regRead req off 4) s = .next { s with answers := s.answers ++ [⟨req, off, false, readWord s req b j o⟩] })

/-- R50: a write to a UGRP register takes effect at each instance that has no pending write that has not been strobed: its group number is the
one written and nothing else changes. At one that has a pending write it is ignored and recorded with reason 5. (The last word of a page of
routing entries or of flag words is no UGRP register.) -/
def Obligations.GroupChangesOnlyWhenNothingPends : Prop :=
  ∀ (req : Requester) (off : Nat) (b : Blk) (i : Nat) (l : List Nat) (v : Word) (s : State), regAt off b i 0x3FC 0 →
    (findReg b 0x3FC).isSome = true → b ≠ .rtEntry → b ≠ .seqF → lands s req b i 0x3FC v l →
    exec (.ugrpWrite req off v) s = .next (l.foldl (fun u j => ugrpPut u req b i 0 v j) s) ∧
    ∀ u j, (blockPending u (regKey b j 0x3FC) = true → ugrpPut u req b i 0 v j = accFault u 5 req.id (winOff b i 0x3FC)) ∧
      (blockPending u (regKey b j 0x3FC) = false →
        onlyRegs [regKey b j 0x3FC] u (ugrpPut u req b i 0 v j) ∧ wbits 3 0 (regLive (ugrpPut u req b i 0 v j) (regKey b j 0x3FC)) = wbits 3 0 v)

/-- R52: a write to HUB_UPD_STROBE schedules the transfer of its groups, and UPDATE_TRANSFER performs the oldest one scheduled: the pending
copies of its groups are no longer pending, the writes held behind it are applied to the pending copies (R53), and where a register's
pending copy becomes live its buffered bits are those of that copy. R54: a write to HUB_UPD_DISCARD takes every pending copy of the masked
groups away, so that the register's pending copy is its live value again, and changes nothing else. A write still held behind a strobe is no
pending copy yet (the model's choice, log 36). -/
def Obligations.StrobesTransfer : Prop :=
  (∀ (req : Requester) (v : Word) (s : State), lands s req .hub 0 0x10 v [0] →
    exec (.hubUpdStrobe req v) s = .next (if wbits 15 0 v = 0 then s else { s with strobes := s.strobes ++ [wbits 15 0 v] })) ∧
  (∀ (m : Nat) (rest : List Nat) (s : State), s.strobes = m :: rest →
    exec .updateTransfer s = .next (heldRelease (transfer { s with strobes := rest } m))) ∧
  (∀ (b : Blk) (j o : Nat) (w : Word) (s : State) (r : RegDef), j < 4096 → o < 65536 → findReg b o = some r →
    onlyRegs [regKey b j o] s (pendLive s (regKey b j o) w) ∧
    regLive (pendLive s (regKey b j o) w) (regKey b j o) = (regLive s (regKey b j o) &&& ~~~ r.maskOf Acc.buffered) ||| (w &&& r.maskOf Acc.buffered)) ∧
  (∀ s : State, heldRelease s = { s with
      pend := ((s.heldWrites.map fun h => { h with after := h.after - 1 }).filter fun h => h.after == 0).foldl (fun l h => aput l h.key h.value) s.pend
      heldWrites := (s.heldWrites.map fun h => { h with after := h.after - 1 }).filter fun h => h.after != 0 }) ∧
  (∀ (req : Requester) (v : Word) (s : State), lands s req .hub 0 0x14 v [0] →
    exec (.hubUpdDiscard req v) s = .next { s with pend := s.pend.filter fun e => !inGroups s (wbits 15 0 v) e.1 } ∧
    ∀ k, inGroups s (wbits 15 0 v) k = true → s.heldWrites.all (fun h => h.key != k) = true →
      pendWord { s with pend := s.pend.filter fun e => !inGroups s (wbits 15 0 v) e.1 } k = regLive s k)

/-- R56: SEQ advances by one at the first event of a tick or since a clear and not again; the event's field is set each time; a base-page write
whose bits [31:16] equal SEQ clears the event fields and leaves SEQ, and lets the next event advance SEQ again; a write whose bits differ
leaves everything; SEQ and the event fields are zero at reset. -/
def Obligations.EventsClearBySequence : Prop :=
  (∀ (s : State) (f : Fld) (i : Nat), f.lo ≤ f.hi → f.hi < 16 →
    rf (ev s f i) f i = 1 ∧ (ev s f i).seqTicked.contains (f.key i) = true ∧
    wbits 31 16 (regLive (ev s f i) (f.key i)) =
      if s.seqTicked.contains (f.key i) then wbits 31 16 (regLive s (f.key i)) else (wbits 31 16 (regLive s (f.key i)) + 1) % 65536) ∧
  (∀ (req : Requester) (off : Nat) (b : Blk) (i o j : Nat) (v : Word) (s : State), regAt off b i o 0 → frameOpen s b i →
    reached s req b i o true = some [j] → (findReg b o).any RegDef.isSeq = true →
    (wbits 31 16 v ≠ wbits 31 16 (regLive s (regKey b j o)) → exec (.seqWriteBack req off v) s = .next s) ∧
    (wbits 31 16 v = wbits 31 16 (regLive s (regKey b j o)) → ∃ t, exec (.seqWriteBack req off v) s = .next t ∧
      regLive t (regKey b j o) = (regLive s (regKey b j o) &&& 0xFFFF0000) ∧
      t.seqTicked = s.seqTicked.filter (· != regKey b j o) ∧ onlyEvents (if b = .hub ∧ o = 0x1C then [regKey b j o, F.HUB_UPD_SKIPPED_PARTITIONS.key 0] else [regKey b j o]) s t)) ∧
  (∀ (b : Blk) (o i : Nat), (findReg b o).any RegDef.isSeq = true → i < 4096 → o < 65536 → regLive State.reset (regKey b i o) = 0)

/-- R203, with the threshold of R205: a wait of KIND 0 always holds; one of KIND 1 or 2 while its flag is 1; one of KIND 3 while the counter's
low 24 bits stand less than 2^23 above T modulo 2^24, where T counts the completed iterations with WREL set. A head is ready only where all
four waits hold, and issuing clears the flag of each wait of KIND 2. -/
def Obligations.WaitsHold : Prop :=
  (∀ (s : State) (g iter : Nat) (d : List Byte) (i : Nat),
    (bits 31 30 (dWait d i) = 0 → waitHolds s g iter d i = true) ∧
    (bits 31 30 (dWait d i) = 1 ∨ bits 31 30 (dWait d i) = 2 → waitHolds s g iter d i = flagGet s g (bits 7 0 (dWait d i))) ∧
    (bits 31 30 (dWait d i) = 3 → (waitHolds s g iter d i = true ↔
      ((bits 23 0 (cntGet s g (bits 29 24 (dWait d i))) : Int) -
        (if dWrel d then (bits 23 0 (dWait d i) + iter) % 2 ^ 24 else bits 23 0 (dWait d i) : Nat)) % 2 ^ 24 < 2 ^ 23))) ∧
  (∀ (s : State) (g q : Nat) (d : List Byte), headState s g q = .ready d → ∀ i, i < 4 → waitHolds s g (queueOf s g q).iter d i = true) ∧
  (∀ (s : State) (g q : Nat) (d : List Byte) (i : Nat), i < 4 → bits 31 30 (dWait d i) = 2 →
    flagGet (issueCommon s g q d) g (bits 7 0 (dWait d i)) = false)

/-- R212: COUNTER_SET writes VALUE, or with ADD set adds it modulo 2^32, and changes no other register and nothing else; R211: FLAG_DECL clears
each of its flags, gives it its setter, and changes no other flag and no other setter. -/
def Obligations.CountersAndFlagsAreSet : Prop :=
  (∀ (s : State) (g : Nat) (d : List Byte), dW d 1 < 2 ^ 32 →
    cntGet (doCounterSet s g d) g (bits 5 0 (dW d 0)) =
      (if bit 8 (dW d 0) then (cntGet s g (bits 5 0 (dW d 0)) + dW d 1) % 2 ^ 32 else dW d 1) ∧
    onlyRegs [(F.SEQ_CNT_VALUE.nth (bits 5 0 (dW d 0))).key g] s (doCounterSet s g d)) ∧
  (∀ (s : State) (g : Nat) (d : List Byte), bits 7 0 (dW d 0) + bits 8 0 (dW d 1) ≤ 256 → ∀ n, n < 256 →
    (bits 7 0 (dW d 0) ≤ n ∧ n < bits 7 0 (dW d 0) + bits 8 0 (dW d 1) →
      flagGet (doFlagDecl s g d) g n = false ∧ setterGet (doFlagDecl s g d) g n = bits 3 0 (dW d 2)) ∧
    (¬ (bits 7 0 (dW d 0) ≤ n ∧ n < bits 7 0 (dW d 0) + bits 8 0 (dW d 1)) →
      flagGet (doFlagDecl s g d) g n = flagGet s g n ∧ setterGet (doFlagDecl s g d) g n = setterGet s g n))

/-- A descriptor that issues (R194, R195, R207): its consuming waits clear their flags, its queue moves on by one, it stays in flight with what
its legality check read, and where no other descriptor of the core is in flight and it needs no host data it has its effect at once and
awaits its acknowledgements. -/
def Obligations.DescriptorsIssue : Prop :=
  ∀ (g q : Nat) (d : List Byte) (s : State) (op : Nat) (c : Instr),
    (op, c) ∈ [(0x00, Instr.nop g q), (0x01, .flagDecl g q), (0x02, .counterSet g q), (0x10, .wload g q), (0x11, .stream g q),
      (0x20, .vchain g q), (0x21, .optim g q), (0x30, .copy g q), (0x31, .atomic g q), (0x32, .lineOp g q), (0x33, .redArm g q),
      (0x34, .redContrib g q), (0x35, .scaleRoll g q), (0x40, .put g q), (0x41, .rcontrib g q), (0x50, .notify g q)] →
    issues s g q op d →
    exec c s = .next (launch s g q d) ∧
    (let a := issueCommon s g q d
     let b := setQueue a g q ((queueOf a g q).advance 1)
     let o := oper (viewOf s g (descSnap s g d)) (dW d 0)
     let u := if op = 0x10 then wloadIssue b g (dW d 0) o.e.fmt o.e.tileRows (dAzn d)
       else if op = 0x11 then streamIssue b g (stRelease d) else (b, 0)
     let f : Flight := ⟨(getCore u.1 g).nextId, q, unitOf op, d, [], [], false, u.2, descSnap s g d⟩
     let w := setCore u.1 g { getCore u.1 g with flights := [f], nextId := f.id + 1 }
     hostNeeds (viewOf s g (descSnap s g d)) d = [] → (getCore u.1 g).flights = [] →
       launch s g q d = setFlight (flightEffect w g f).1 g { f with done := true, acks := (flightEffect w g f).2 })

/-- R225: a LOOP_BEGIN whose count is 0 passes the body and the LOOP_END in its issue: no body descriptor issues, retires or fires; the
LOOP_BEGIN's signals fire and it retires, and then the LOOP_END's signals fire. -/
def Obligations.EmptyLoopsPass : Prop :=
  ∀ (g q : Nat) (d : List Byte) (s : State), issues s g q 0x03 d → rf s (F.SEQ_LC_COUNT.nth (bits 3 0 (dW d 0))) g = 0 →
    let u := issueCommon s g q d
    let k := queueOf u g q
    let t := finishAtIssue (setQueue u g q (k.advance (bodyLen d + 2))) g q d
    exec (.loopBegin g q) s = .next (match k.buf[k.pos + bodyLen d + 1]? with
      | some e => fireSigs t g q (dOp e) (dTag e) (dSig e 0) (dSig e 1)
      | none => t)

/-- R224: a LOOP_BEGIN with a count latches it and opens the loop; a LOOP_END goes back to the body until the count is done, and then closes the
loop, fires its signals and moves on. Both retire at issue. -/
def Obligations.LoopsRun : Prop :=
  (∀ (g q : Nat) (d : List Byte) (s : State), issues s g q 0x03 d → ∀ n, rf s (F.SEQ_LC_COUNT.nth (bits 3 0 (dW d 0))) g = n → n ≠ 0 →
    let u := issueCommon s g q d
    let k := queueOf u g q
    exec (.loopBegin g q) s = .next (finishAtIssue (setQueue u g q { k with
      pos := k.pos + 1, loops := k.loops ++ [⟨n, 0, bits 3 0 (dW d 0), k.pos + 1, bodyLen d⟩], promoted := false }) g q d)) ∧
  (∀ (g q : Nat) (d : List Byte) (s : State) (l : LoopSt), issues s g q 0x04 d →
    let u := issueCommon s g q d
    let k := queueOf u g q
    k.loops.getLast? = some l →
    (l.i + 1 < l.n → exec (.loopEnd g q) s = .next (retire (setQueue u g q { k with
      pos := l.start, loops := k.loops.dropLast ++ [{ l with i := l.i + 1 }], promoted := false }) g q)) ∧
    (l.n ≤ l.i + 1 → exec (.loopEnd g q) s = .next (finishAtIssue (setQueue u g q ({ k with loops := k.loops.dropLast }.advance 1)) g q d)))

/-- R228 to R232: a BRANCH that issues waits for its selection with its rule and its summary entry as they stand at issue; a SEGMENT marker in
ordinary issue passes over its own body and retires; the control core's selection, or a write of the host or of firmware that names the
waiting mode-1 BRANCH and one of its segments, makes the selection; any other write to SEQ_QBRSEL is refused. What a selection does: the
queue no longer waits, it passes over the segments before the selected one and its marker, and SEQ_QBRSEL reports the segment and who chose
it. -/
def Obligations.BranchesSelect : Prop :=
  (∀ (g q : Nat) (d : List Byte) (s : State), issues s g q 0x05 d →
    let u := issueCommon s g q d
    let k := queueOf u g q
    exec (.branch g q) s = .next (setQueue u g q { k.advance 1 with
      branch := some { tag := dTag d, mode := bits 4 4 (dW d 0), nseg := bits 11 8 (dW d 0), dflt := bits 15 12 (dW d 0)
                       rule := csRead s g (64 * bits 15 0 (dW d 1)) 64, summ := mrdN (getCore s g).summ (64 * bits 2 0 (dW d 0)) 64
                       sig0 := dSig d 0, sig1 := dSig d 1 }
      segs := (bits 11 8 (dW d 0), 0) })) ∧
  (∀ (g q : Nat) (d : List Byte) (s : State), issues s g q 0x06 d →
    let u := issueCommon s g q d
    let k := queueOf u g q
    exec (.segment g q) s = .next (retire (setQueue u g q (QueueSt.passOver { k.advance 1 with
      pass := ⟨0, bits 7 0 (dW d 0), false⟩, segs := if k.segs.2 < k.segs.1 then (k.segs.1, k.segs.2 + 1) else k.segs })) g q)) ∧
  (∀ (g q : Nat) (s : State) (b : BranchSt), (queueOf s g q).branch = some b → b.mode = 0 → coreRuns s g = true →
    exec (.branchSelect g q) s = .next (selectSeg s g q b ((((ruleTests b.rule).find? (testHolds b.summ)).map (·.seg)).getD b.dflt) false)) ∧
  (∀ (req : Requester) (g q : Nat) (v : Word) (s : State), q < 8 → lands s req .seqQ g (0x98 + 0x20 * q) v [g] →
    (∀ b, (queueOf s g q).branch = some b → b.mode = 1 → (queueOf s g q).halt = none → req ≠ .mgmt →
      wbits 31 16 v = b.tag % 2 ^ 16 → wbits 3 0 v < b.nseg → exec (.qbrselWrite req g q v) s = .next (selectSeg s g q b (wbits 3 0 v) true)) ∧
    ((queueOf s g q).branch = none → exec (.qbrselWrite req g q v) s = .next (ev s F.SEQ_QEVENT_BRSEL_BAD g))) ∧
  (∀ (g q : Nat) (s : State) (b : BranchSt) (seg : Nat) (byHost : Bool), g < 260 → q < 8 → (getCore s g).queues.length = 8 → seg < 16 →
    queueOf (selectSeg s g q b seg byHost) g q =
      QueueSt.passOver { queueOf s g q with branch := none, pass := ⟨seg, 0, true⟩, segs := (b.nseg, seg + 1) } ∧
    rf (selectSeg s g q b seg byHost) (F.SEQ_QBRSEL_SEG.nth q) g = seg ∧
    rf (selectSeg s g q b seg byHost) (F.SEQ_QBRSEL_BY_HOST.nth q) g = b2n byHost ∧
    rf (selectSeg s g q b seg byHost) (F.SEQ_QBRSEL_TAGLO.nth q) g = b.tag % 2 ^ 16)

/-- R222 and R254: DISCARD drops every descriptor in a queue's buffer, its open loops and a pending branch, and pauses the queue's ring; RESUME
ends a halt. Beside that, the alias write is a write of the register's buffered fields that leaves every bit of their pending copy as it was
(R48). -/
def Obligations.QueuesDiscardAndResume : Prop :=
  ∀ (req : Requester) (g q : Nat) (s : State), q < 8 → landsSet s req .seqQ g (0x80 + 0x20 * q) [g] →
    (∃ u, u = { s with pend := u.pend, heldWrites := u.heldWrites } ∧
      exec (.queueDiscard req g q) s = .next (ringPauseWith (setQueue u g q QueueSt.reset) (8 * logical s g + q) 16)) ∧
    (∃ u, u = { s with pend := u.pend, heldWrites := u.heldWrites } ∧
      exec (.queueResume req g q) s = .next (setQueue u g q { queueOf s g q with halt := none }))

/-- R226: a write to a loop-count register stores the count and changes no other register, but where a running loop had latched from it, which
COUNT_WRITTEN_IN_FLIGHT reports with the register and the lowest such queue; the running loops themselves stay. -/
def Obligations.LoopCountsAreWritten : Prop :=
  ∀ (req : Requester) (g n : Nat) (v : Word) (s : State), g < 260 → n < 16 → lands s req .seqQ g (0x40 + 4 * n) v [g] →
    ∃ t, exec (.loopCountWrite req g n v) s = .next t ∧ t.cores = s.cores ∧ rf t (F.SEQ_LC_COUNT.nth n) g = v.toNat ∧
      ((∀ q, q < 8 → (queueOf s g q).loops.any (fun l => l.lc == n) = false) → onlyRegs [(F.SEQ_LC_COUNT.nth n).key g] s t) ∧
      (∀ q, (List.range 8).find? (fun q => (queueOf s g q).loops.any fun l => l.lc == n) = some q →
        rf t F.SEQ_QEVENT_COUNT_WRITTEN_IN_FLIGHT g = 1 ∧
        (rb s F.SEQ_QEVENT_COUNT_WRITTEN_IN_FLIGHT g = false → rf t F.SEQ_CWIF_INFO_QUEUE g = q ∧ rf t F.SEQ_CWIF_INFO_LCREG g = n))

/-- R236 and R237: where the detector is enabled and armed and every non-idle queue of a running core is stuck, DEADLOCK is recorded in the
queue events and in the ledger with the mask of stuck queues, the detector disarms, and no queue and no flag is touched. -/
def Obligations.DeadlocksAreRaised : Prop :=
  ∀ (g : Nat) (s : State), hubUp s = true → rb s F.SEQ_CTRL_DL_EN g = true → (getCore s g).armed = true → coreRuns s g = true →
    deadlocked s g = true →
    ∃ t, exec (.deadlock g) s = .next t ∧ rf t F.SEQ_QEVENT_DEADLOCK g = 1 ∧ getCore t g = { getCore s g with armed := false } ∧
      t.parts = s.parts ∧ t.signals = s.signals ∧ (∀ n, n < 256 → flagGet t g n = flagGet s g n) ∧
      ∃ r, t.ledger.cur = s.ledger.cur ++ [r] ∧ r.event = E.DEADLOCK ∧ r.cls = 7 ∧ r.index = g ∧
        r.aux = (stuckSet s g).foldl (fun m q => m + 2 ^ q) 0

/-- R207: a descriptor of the queue whose effects are made and acknowledged, with none of its unit before it, leaves the core, fires its signals
and retires; nothing of memory changes. R221: a deferred head that is ready and not granted is promoted. -/
def Obligations.DescriptorsComplete : Prop :=
  (∀ (g q : Nat) (s : State) (f : Flight), completable (getCore s g).flights q = some f →
    ∃ t, exec (.descriptorComplete g q) s = .next t ∧ (getCore t g).flights = (getCore s g).flights.filter (fun e => e.id != f.id) ∧
      (getCore t g).queues = (getCore s g).queues ∧ memoryKept s t ∧
      rf t F.CORE_PROG_RETIRED_COUNT g = (rf s F.CORE_PROG_RETIRED_COUNT g + 1) % 2 ^ 32) ∧
  (∀ (g q : Nat) (s : State) (d : List Byte), rf s F.SEQ_CTRL_AGE_LOG2 g ≠ 0 → rf s (F.SEQ_QCTRL_PRIO.nth q) g = 0 →
    headState s g q = .ready d → issuable s g q = none →
    exec (.deferredPromotion g q) s = .next (setQueue s g q { queueOf s g q with promoted := true }))

/-- R206, R209, R211: the signal that has been on its way longest arrives: at a running core it sets its flag or adds 1 to its counter, modulo
2^32; where its target is in a partition in reset or P2, or is run by no core, it is dropped and counted. -/
def Obligations.SignalsArrive : Prop :=
  ∀ (m : Signal) (rest : List Signal) (s : State), hubUp s = true → s.signals = m :: rest → sigTarget m < 260 →
    (ptnDown s (partOf (sigTarget m)) = true → ∃ t, exec .signalArrive s = .next t ∧ t.signals = rest ∧ t.cores = s.cores ∧
      rf t F.SEQ_EVENT_SIG_DROP (sigTarget m) = 1 ∧ rf t F.SEQ_SIG_DROP_COUNT_COUNT (sigTarget m) = satAdd (rf s F.SEQ_SIG_DROP_COUNT_COUNT (sigTarget m)) 1 % 2 ^ 32) ∧
    (∀ r, ptnDown s (partOf (sigTarget m)) = false → runner s (sigTarget m) = some r →
      ∃ t, exec .signalArrive s = .next t ∧ t.signals = rest ∧ t.cores = s.cores ∧ t.parts = s.parts ∧
        (sigKind m.word % 2 = 1 → flagGet t r (sigIndex m.word) = true) ∧
        (sigKind m.word % 2 = 0 → cntGet t r (sigIndex m.word % 64) = (cntGet s r (sigIndex m.word % 64) + 1) % 2 ^ 32 ∧
          onlyRegs [(F.SEQ_CNT_VALUE.nth (sigIndex m.word % 64)).key r] { s with signals := rest } t))

/-- R108, R109 and R111, what a narrowing makes of a magnitude m · 2^e of a sign: the quantum is the least that leaves the precision and is not
below the format's; a magnitude on its grid stays, exact; off it, the result is one of its two neighbours: the nearer one, an even one of
two as near (mode 0), the one towards zero (1), towards +∞ (2), towards −∞ (3), the one away from zero where the fraction and the random
value carry (4), or the odd one (5). -/
def Obligations.RoundingFollowsItsMode : Prop :=
  ∀ (p : Nat) (qmin : Option Int) (mode : Nat) (neg : Bool) (r m : Nat) (e : Int), 0 < p → r < 65536 →
    ∃ (t : Nat) (q : Int) (inexact : Bool), roundMag p qmin mode neg r m e false = (t, q, inexact) ∧
      (bitLen m : Int) + e - p ≤ q ∧ (∀ k, qmin = some k → k ≤ q) ∧ (q = (bitLen m : Int) + e - p ∨ qmin = some q) ∧ t ≤ 2 ^ p ∧
      (q ≤ e → t = m * 2 ^ (e - q).toNat ∧ inexact = false) ∧
      (e < q → let w := 2 ^ (q - e).toNat
        (inexact = true ↔ m % w ≠ 0) ∧ (m % w = 0 → t * w = m) ∧ (m < t * w + w ∧ t * w < m + w) ∧
        (mode = 0 → 2 * (t * w) ≤ 2 * m + w ∧ 2 * m ≤ 2 * (t * w) + w ∧ (2 * (t * w) = 2 * m + w ∨ 2 * m = 2 * (t * w) + w → t % 2 = 0)) ∧
        (mode = 1 ∨ mode = 2 ∧ neg = true ∨ mode = 3 ∧ neg = false → t * w ≤ m) ∧
        (mode = 2 ∧ neg = false ∨ mode = 3 ∧ neg = true → m ≤ t * w) ∧
        (mode = 4 → (m < t * w ↔ 65536 ≤ (m % w) * 65536 / w + r)) ∧
        (mode = 5 → m % w ≠ 0 → t % 2 = 1))

/-- R92 to R94: a code of a floating-point format of sign, stored exponent E and fraction F names (−1)^S · 1.F · 2^(E − bias), or (−1)^S · 0.F ·
2^(1 − bias) where E is 0, and the encoding of that value is the code; the greatest exponent holds infinity and the NaNs where the format
has them, E4M3 its one NaN of each sign; the canonical NaN is a NaN. -/
def Obligations.CodesNameTheirValues : Prop :=
  ∀ (c : Nat) (f : FFmt), ffmt c = some f →
    (∀ (neg : Bool) (E F : Nat), E < 2 ^ f.eb → F < 2 ^ f.fb →
      let w := ((b2n neg * 2 ^ f.eb + E) * 2 ^ f.fb + F) * 2 ^ f.pad
      (f.hasInf = true → E = 2 ^ f.eb - 1 → (F = 0 → f.dec w = .inf neg ∧ f.enc (.inf neg) = w) ∧ (F ≠ 0 → (f.dec w).isNan = true)) ∧
      (f.topNan = true → E = 2 ^ f.eb - 1 → F = 2 ^ f.fb - 1 → f.dec w = .nan false) ∧
      (¬ (f.hasInf = true ∧ E = 2 ^ f.eb - 1) → ¬ (f.topNan = true ∧ E = 2 ^ f.eb - 1 ∧ F = 2 ^ f.fb - 1) →
        f.dec w = (if E = 0 then .fin neg F (1 - f.bias - f.fb) else .fin neg (2 ^ f.fb + F) (E - f.bias - f.fb)) ∧ f.enc (f.dec w) = w)) ∧
    (f.hasInf = true ∨ f.topNan = true → (f.dec f.canonNan).isNan = true)

/-- R90, R148, R163, R191, R192 and R259: a CLEAR zeroes the block's counters and changes nothing else. -/
def Obligations.CountersClear : Prop :=
  ∀ (req : Requester) (b : Blk) (i off : Nat) (v : Word) (c : Instr) (offs : List Nat),
    (b, off, v, c, offs) ∈ [(Blk.mx, 0x24, 1, Instr.mxCntClr req i, [0x14, 0x18] ++ (List.range 14).map (0x40 + 4 * ·)),
      (.vx, 0x24, 1, .vxCntClr req i, [0x14, 0x18] ++ (List.range 10).map (0x40 + 4 * ·)),
      (.qnt, 0x20, 1, .qntCntClr req i, [0x10, 0x14, 0x18, 0x1C, 0x40, 0x44]),
      (.sc, 0x1C, 8, .scCntClr req i, 0x20 :: (List.range 10).map (0x40 + 4 * ·)),
      (.mem, 0x1C, 1, .memCntClr req i, (List.range 8).map (0x40 + 4 * ·)),
      (.memCh, 0x14, 1, .memChClr req i, [0x08, 0x0C, 0x10])] →
    ∀ (s : State) (j : Nat), lands s req b i off v [j] →
      ∃ t, exec c s = .next t ∧ (∀ o ∈ offs, regLive t (regKey b j o) = 0) ∧ onlyRegs (offs.map (regKey b j)) s t

/-- R79, R80, R86 and R161: a freeze of a pass in flight adds its cycles to MX_CYC_FREEZE while counting is on, and one longer than 2^n cycles,
n being LONG_FREEZE_LOG2 and not 0, sets LONG_FREEZE; nothing else changes. Writing ARM with a column, or with a stage and a lane, arms one
injection there and changes nothing else; a write without ARM only stores the place. -/
def Obligations.FreezesAreCounted : Prop :=
  (∀ (g n : Nat) (s : State), hubUp s = true → (getCore s g).flights.any (fun f => dOp f.desc == 0x11) = true →
    let lo := F.MX_CYC_FREEZE_LO_COUNT
    let hi := F.MX_CYC_FREEZE_HI_COUNT
    let e := rf s F.MX_CTRL_LONG_FREEZE_LOG2 g
    ∃ t, exec (.longFreeze g n) s = .next t ∧ onlyEvents [lo.key g, hi.key g, F.MX_EVENT_LONG_FREEZE.key g] s t ∧
      rf2 t lo hi g = (if rb s F.MX_CTRL_CNT_EN g then (rf2 s lo hi g + n) % 2 ^ 64 else rf2 s lo hi g) ∧
      rf t F.MX_EVENT_LONG_FREEZE g = (if e ≠ 0 ∧ 2 ^ e < n then 1 else rf s F.MX_EVENT_LONG_FREEZE g)) ∧
  (∀ (req : Requester) (g : Nat) (v : Word) (s : State), lands s req .mx g 0x20 v [g] →
    ∃ t, exec (.mxBrambleInjArm req g v) s = .next t ∧ onlyRegs [F.MX_BRAMBLE_INJ_COLUMN.key g] s t ∧
      rf t F.MX_BRAMBLE_INJ_COLUMN g = wbits 6 0 v ∧ rf t F.MX_BRAMBLE_INJ_ARMED g = (if wbits 8 8 v = 1 then 1 else rf s F.MX_BRAMBLE_INJ_ARMED g)) ∧
  (∀ (req : Requester) (g : Nat) (v : Word) (s : State), lands s req .vx g 0x20 v [g] →
    ∃ t, exec (.vxBrambleInjArm req g v) s = .next t ∧ onlyRegs [F.VX_BRAMBLE_INJ_LANE.key g] s t ∧
      rf t F.VX_BRAMBLE_INJ_LANE g = wbits 6 0 v ∧ rf t F.VX_BRAMBLE_INJ_STAGE g = wbits 15 12 v ∧
      rf t F.VX_BRAMBLE_INJ_ARMED g = (if wbits 8 8 v = 1 then 1 else rf s F.VX_BRAMBLE_INJ_ARMED g))

/-- R165 and R178: an access to the pinned region waits while PIN_WAYS changes; otherwise a read answers the bytes held there and a write
replaces exactly the bytes written, the slice's counters apart. -/
def Obligations.PinnedAccessesAnswer : Prop :=
  ∀ (r : LineReq) (s : State) (p off : Nat), hubUp s = true → target r.addr = .pin p off → ptnDown s p = false →
    (rb s F.SC_STATUS_PIN_CHANGING p = true →
      exec (.sliceAccess r) s = .next (setPart s p { getPart s p with waiting := (getPart s p).waiting ++ [r] })) ∧
    (rb s F.SC_STATUS_PIN_CHANGING p = false → off < pinLive s p * 2 ^ 20 →
      ∃ t, exec (.sliceAccess r) s = .next t ∧
        (r.write = true → onlyRegs (scCounts p) (pinnedPut s p off r.data) t) ∧
        (r.write = false → onlyRegs (scCounts p) { s with replies := s.replies ++ [⟨r.src, r.tag, mrdN (getPart s p).pinned off r.len⟩] } t))

/-- R165, R174, R179 and R181: an access to a stack that needs a sector the slice does not hold, or stands behind one that does, waits behind
the misses of its slice; a fill serves the oldest miss and what waited behind it. An access to a partition in reset or P2 is recorded as
uncorrectable memory: a write is dropped, and a read answers free bytes (the model's choice, log 7). -/
def Obligations.StackAccessesWait : Prop :=
  (∀ (r : LineReq) (s : State) (p off : Nat), hubUp s = true → target r.addr = .stack p off → mustWait s r = true →
    exec (.sliceAccess r) s = .next (setPart s p { getPart s p with misses := (getPart s p).misses ++ [r] })) ∧
  (∀ (p : Nat) (wire : List (Nat × Byte)) (s : State) (r : LineReq) (rest : List LineReq), hubUp s = true →
    (getPart s p).misses = r :: rest →
    exec (.lineFill p wire) s = .next (drainReady (performReply (setPart s p { getPart s p with misses := rest }) r wire) p)) ∧
  (∀ (r : LineReq) (s : State) (p off : Nat), hubUp s = true → target r.addr = .stack p off → ptnDown s p = true →
    ∃ t, exec (.sliceAccess r) s = .next t ∧ t.parts = s.parts ∧ (r.write = true → t.replies = s.replies) ∧
      (r.write = false → t.replies = s.replies ++ [⟨r.src, r.tag, toLE r.len (fresh s).1⟩]) ∧
      ∃ x, t.ledger.cur = s.ledger.cur ++ [x] ∧ x.event = E.UE_MEMORY ∧ x.cls = 3 ∧ x.kind = (U.part p).kind ∧ x.index = p)

/-- R176, R178 and R192: FLUSH leaves no line of the slice dirty; INVALIDATE leaves no line; KEEP_RELEASE leaves none in the keep class and
changes nothing else; none of them touches the pinned region. Patrol scrub reads the sectors of its turn, one after another, while
MEM_CTRL.SCRUB_HOURS is not 0 and the partition is up; a change of PIN_WAYS completes and serves the accesses that waited for it, in order. -/
def Obligations.SlicesFlush : Prop :=
  (∀ (req : Requester) (i p : Nat) (s : State), lands s req .sc i 0x1C 1 [p] →
    ∃ t, exec (.flush req i) s = .next t ∧ (∀ l ∈ (getPart t p).lines, l.dirty = 0) ∧ (getPart t p).pinned = (getPart s p).pinned) ∧
  (∀ (req : Requester) (i p : Nat) (s : State), lands s req .sc i 0x1C 2 [p] →
    ∃ t, exec (.invalidate req i) s = .next t ∧ (getPart t p).lines = [] ∧ (getPart t p).pinned = (getPart s p).pinned) ∧
  (∀ (req : Requester) (i p : Nat) (s : State), lands s req .sc i 0x1C 4 [p] →
    exec (.keepRelease req i) s = .next (setPart s p { getPart s p with lines := (getPart s p).lines.map fun l => { l with keep := false } })) ∧
  (∀ (p n : Nat) (s : State), hubUp s = true →
    (rf s F.MEM_CTRL_SCRUB_HOURS p ≠ 0 → ptnDown s p = false →
      exec (.patrolScrub p n) s = .next (Nat.repeat (fun s => scrubSector s p) n (wf s F.MEM_STATUS_SCRUBBING p 1))) ∧
    (rf s F.MEM_CTRL_SCRUB_HOURS p = 0 → exec (.patrolScrub p n) s = .next (wf s F.MEM_STATUS_SCRUBBING p 0))) ∧
  (∀ (p : Nat) (s : State), hubUp s = true → rb s F.SC_STATUS_PIN_CHANGING p = true →
    let u := pinRework s p
    rf u F.SC_STATUS_PIN_LIVE p = min 16 (rf s F.SC_CTRL_PIN_WAYS p) ∧ rb u F.SC_STATUS_PIN_CHANGING p = false ∧
    exec (.pinChangeComplete p) s = .next ((getPart u p).waiting.foldl (fun s r => performReply s r []) (setPart u p { getPart u p with waiting := [] })))

/-- R140, R144 and R182: an atomic on the pinned region replaces its target by the operation's result and answers the old value; a stage and a
roll replace the scale slot's line; nothing else changes but the slice's counters, and a roll's free value (log 7). -/
def Obligations.AtomicsAreOneOperation : Prop :=
  (∀ (r : AtomicReq) (s : State) (p off : Nat), hubUp s = true → r.lineOp = false → r.addr % etBytes r.etype = 0 →
    pinServed s r.addr (etBytes r.etype) p off →
    let n := etBytes r.etype
    let old := ofLE (mrdN (getPart s p).pinned off n)
    let u := pinnedPut s p off (toLE n (scalarOp r.etype r.op old (r.operand % 2 ^ (8 * n)) (r.comparand % 2 ^ (8 * n))))
    ∃ t, exec (.sliceAtomic r) s = .next t ∧ onlyRegs (scCounts p) { u with replies := s.replies ++ [⟨r.src, r.tag, toLE n old⟩] } t) ∧
  (∀ (g addr amax : Nat) (under : Bool) (s : State) (p off : Nat), hubUp s = true → rb s F.QNT_CTRL_STAGE_EN g = true → addr % 128 = 0 →
    pinServed s addr 128 p off →
    ∃ t, exec (.scaleStage g addr amax under) s = .next t ∧
      onlyRegs (scCounts p) (pinnedPut s p off
        (stageLine (mrdN (getPart s p).pinned off 128) (currentStep s).1 (currentStep s).2 amax under 0 0)) t) ∧
  (∀ (src : Source) (addr step : Nat) (s : State) (p off : Nat) (fm : FV), hubUp s = true → addr % 128 = 0 → pinServed s addr 128 p off →
    fmaxOf (fieldLE 0x52 1 (mrdN (getPart s p).pinned off 128)) = some fm →
    ∃ t, exec (.sliceScaleRoll src addr step) s = .next t ∧
      onlyRegs (scCounts p) { pinnedPut s p off (rollLine (mrdN (getPart s p).pinned off 128) fm step (fresh s).1) with free := s.free + 1 } t)

/-- R183, R184 and R186: ARM of a good header that is not armed and open zeroes its arrival map and arms it; ARM of a bad header is refused with
reason 5. CONTRIB of a line that has not arrived marks it, takes it in the slot's mode and counts it; a reduction whose lines have all
arrived is summed, done and disarmed, and fires its signal. `u` and `w` differ from `s` in the slice's counters alone. -/
def Obligations.ReductionsRun : Prop :=
  (∀ (src : Source) (addr p off : Nat) (s : State), hubUp s = true → addr % 64 = 0 → pinServed s addr 64 p off →
    let l := mrdN (getPart s p).pinned off 64
    let h := redHdr l
    (redHdrOk s p h = true → (h.armed = true → h.done = true) →
      ∃ u, onlyRegs (scCounts p) s u ∧ exec (.sliceArm src addr) s = .next (memWrite
        ((List.range (ceilDiv (h.n * h.lines) 1024)).foldl (fun s i => memWrite s src 0 0 (h.map + 128 * i) (List.replicate 128 0)) u)
        src 0 0 addr (patch 0x28 (toLE 8 0) (hdrFlags l true false false)))) ∧
    (redHdrOk s p h = false → ∃ u, onlyRegs (scCounts p) s u ∧ exec (.sliceArm src addr) s = .next (refuseFrom u p 5 src addr 0 (some addr)))) ∧
  (∀ (src : Source) (addr idx line p off moff : Nat) (data : List Byte) (s : State), hubUp s = true → addr % 64 = 0 → pinServed s addr 64 p off →
    let h := redHdr (mrdN (getPart s p).pinned off 64)
    let j := (idx - h.base) * h.lines + line
    let m := mrdN (getPart s p).pinned moff 1
    h.armed = true → h.done = false → h.base ≤ idx → idx < h.base + h.n → line < h.lines → pinServed s (h.map + j / 8) 1 p moff →
    bit (j % 8) (ofLE m) = false →
    ∃ u, onlyRegs (scCounts p) s u ∧
      let w := memWrite u src 0 0 (h.map + j / 8) (toLE 1 (putBits (j % 8) (j % 8) 1 (ofLE m)))
      let d := memRead w src 0 0 (h.data + 128 * line) 128
      exec (.sliceContrib src addr idx line data) s = .next (memWrite
        (if h.ordered then memWrite w src 0 0 (h.buf + 128 * j) data
          else memWrite d.1 src 0 0 (h.data + 128 * line) (lineElems h.etype h.op d.2 data))
        src 0 0 (addr + 0x28) (toLE 8 (h.arrived + 1)))) ∧
  (∀ (addr p off : Nat) (s : State), hubUp s = true → addr % 64 = 0 → target addr = .pin p off → ptnDown s p = false →
    off < pinLive s p * 2 ^ 20 →
    let l := mrdN (getPart s p).pinned off 64
    let h := redHdr l
    h.armed = true → h.done = false → h.arrived = h.n * h.lines →
    exec (.reductionDone addr) s = .next (fire (memWrite
      (if h.ordered then (List.range h.lines).foldl (fun s i => orderedLine s h i) s else s) .hub 0 0 addr
        (hdrFlags l false true (bit 18 (fieldLE 0 4 l)))) h.signal 8 260 (tileOf p)))

/-- R191 and R387: REQ_OUT asks that the channel be mapped out and RETIRE_LANE that the lane named be retired, by a verdict that the run-time
asked for; a lane above 18 is refused as a register access, under reason 6. -/
def Obligations.ChannelsAreRetired : Prop :=
  ∀ (req : Requester) (i c : Nat) (v : Word) (s : State) (x : Instr), x = .reqOut req i v ∨ x = .retireLane req i v →
    lands s req .memCh i 4 v [c] →
    let u := storeFields s .memCh c 4 0 v
    let w := if wbits 0 0 v = 1 then recordVerdict u 2 c 0x16 6 (chanDetail u c) else u
    rf u F.MEM_CH_CTRL_LANE c = wbits 12 8 v ∧ onlyRegs [F.MEM_CH_CTRL_LANE.key c] s u ∧
    (wbits 1 1 v = 0 → exec x s = .next w) ∧
    (wbits 1 1 v = 1 → wbits 12 8 v ≤ 18 →
      exec x s = .next (recordVerdict w 3 (19 * c + rf w F.MEM_CH_CTRL_LANE c) 0x15 6 (chanDetail w c))) ∧
    (wbits 1 1 v = 1 → 18 < wbits 12 8 v → exec x s = .next (accFault s 6 req.id (winOff .memCh i 4)))

/-- R59 and R60: the scrub walks the fields whose copies were stored apart; a field whose three copies agree is left alone, one with a single
odd copy takes the value of the other two and counts one correction, and one whose copies all differ is a split. -/
def Obligations.ScrubsMend : Prop :=
  (∀ s : State, hubUp s = true → exec .tmrScrub s = .next (s.tmr.foldl scrubField s)) ∧
  (∀ (s : State) (k a b c : Nat),
    (a = b → b = c → scrubField s (k, ⟨a, b, c⟩) = s) ∧
    (a ≠ b → b = c → scrubField s (k, ⟨a, b, c⟩) = bump (copiesFix s (k, ⟨a, b, c⟩) b) F.HUB_TMR_CORR_LO_CORR 0 1) ∧
    (a = b → b ≠ c → scrubField s (k, ⟨a, b, c⟩) = bump (copiesFix s (k, ⟨a, b, c⟩) a) F.HUB_TMR_CORR_LO_CORR 0 1) ∧
    (a ≠ b → a = c → scrubField s (k, ⟨a, b, c⟩) = bump (copiesFix s (k, ⟨a, b, c⟩) a) F.HUB_TMR_CORR_LO_CORR 0 1) ∧
    (a ≠ b → b ≠ c → a ≠ c → scrubField s (k, ⟨a, b, c⟩) = tmrSplit s (k, ⟨a, b, c⟩)))

/-- R36, R37: a Waybill that is due is built again: it is no longer due, its revision and HUB_WAYBILL_REV advance by one, and the ledger records
the new revision; one that is not due stays. -/
def Obligations.WaybillsAreBuilt : Prop :=
  (∀ s : State, s.waybill.due = true → s.sec.attest = none →
    ∃ t, exec .waybillRegenerate s = .next t ∧ t.waybill.due = false ∧ t.waybill.rev = s.waybill.rev + 1 ∧
      rf t F.HUB_WAYBILL_REV_REV 0 = (s.waybill.rev + 1) % 2 ^ 32 ∧
      ∃ x, t.ledger.cur = s.ledger.cur ++ [x] ∧ x.event = E.WAYBILL_CHANGED ∧ x.aux = s.waybill.rev + 1) ∧
  (∀ s : State, s.waybill.due = false → exec .waybillRegenerate s = .next s)

/-- R17: a flit with a good CRC ends its bridge's run of failures; a bad one is replayed and counted, and the eighth in a row is a fatal fault
of the bridge. -/
def Obligations.BridgesReplay : Prop :=
  ∀ (n : Nat) (s : State), hubUp s = true → n < 10 →
    exec (.meshFlitReceive n true) s = .next { s with mesh := { s.mesh with fails := adel s.mesh.fails n } } ∧
    (let f := (aget s.mesh.fails n).getD 0 + 1
     let r := (aget s.mesh.replays n).getD 0 + 1
     let u := { s with mesh := { replays := aput s.mesh.replays n r, fails := aput s.mesh.fails n f } }
     (f ≠ 8 → exec (.meshFlitReceive n false) s = .next u) ∧
     (f = 8 → exec (.meshFlitReceive n false) s =
       .next (fhReport (raise u E.MESH_FATAL (U.port (29 + n)) 0 0) 4 (29 + n) 0x25 false { CperInfo.plain with detail := [r] })))

/-- R243, R244: a host link that is up leaves L0 when it fails or is told to retrain, with three trainings or one to come; a link that is down
takes the largest set of modules that trained, at the higher rate if any trained there. -/
def Obligations.HostLinkTrains : Prop :=
  (∀ s : State, linkUp s = true → exec .hostLinkDown s = .next (hostLinkLost s 3)) ∧
  (∀ (req : Requester) (s : State), lands s req .hq 0 0x20 1 [0] →
    (linkUp s = true → exec (.hqLinkRetrain req) s = .next (hostLinkLost s 1)) ∧
    (linkUp s = false → exec (.hqLinkRetrain req) s = .next { s with host := { s.host with training := max 1 s.host.training } })) ∧
  (∀ (s : State) (n : Nat), (hostLinkLost s n).host.training = n) ∧
  (∀ (a b : Nat) (s : State), hubUp s = true → linkUp s = false → s.host.training ≠ 0 → s.power.inP3 = false → s.power.held = false →
    let u := (List.range 4).foldl (fun s m => moduleTrained s m (bit m a)) s
    (moduleSet a ≠ 0 →
      let v := linkStatus { u with host := { u.host with training := 0 } } (moduleSet a) 2
      let w := if moduleSet a = 15 then v else ev v F.HQ_EVENT_MODULE_DEGRADE 0
      exec (.ucieTrainEnd a b) s = .next (sendReads w.host.waiting.length w)) ∧
    (moduleSet a = 0 → moduleSet b ≠ 0 →
      let w := ev (linkStatus { u with host := { u.host with training := 0 } } (moduleSet b) 1) F.HQ_EVENT_MODULE_DEGRADE 0
      exec (.ucieTrainEnd a b) s = .next (sendReads w.host.waiting.length w)) ∧
    (moduleSet a = 0 → moduleSet b = 0 →
      exec (.ucieTrainEnd a b) s = .next { u with host := { u.host with training := u.host.training - 1 } }))

/-- R245, R246 and R249: the host reads and writes device memory over a link that is up; a partition in reset or P2 answers STATUS 3, and a non-
posted packet of a reserved type STATUS 1. A completion of the host ends the read that carries its tag, and one that no read waits for is
counted; a read that times out ends with reason 4. -/
def Obligations.HostPacketsAreServed : Prop :=
  (∀ (tag a n p off : Nat) (s : State), hubUp s = true → linkUp s = true → pinServed s a (32 * n) p off →
    ∃ u, onlyRegs (scCounts p) s u ∧
      exec (.dmemRd tag a n) s = .next (hostSend u (.cpl tag 0 (mrdN (getPart s p).pinned off (32 * n))))) ∧
  (∀ (tag a n p : Nat) (s : State), hubUp s = true → linkUp s = true → ownerOf a = some p → ptnDown s p = true →
    exec (.dmemRd tag a n) s = .next (hostSend s (.cpl tag 3 (List.replicate 32 0)))) ∧
  (∀ (a p off : Nat) (d : List Byte) (s : State), hubUp s = true → linkUp s = true → pinServed s a d.length p off →
    ∃ u, onlyRegs (scCounts p) s u ∧ exec (.dmemWr a d) s = .next (pinnedPut u p off d)) ∧
  (∀ (ptype tag : Nat) (s : State), hubUp s = true → linkUp s = true → ptype = 0 ∨ 8 < ptype →
    exec (.hostPacketReserved ptype tag true) s = .next (hostSend s (.cpl tag 1 (List.replicate 32 0)))) ∧
  (∀ (tag status : Nat) (d : List Byte) (s : State), linkUp s = true → s.host.reads.any (fun h => h.tag == tag) = false →
    ∃ t, exec (.hmemRdCompletion tag status d) s = .next t ∧ onlyRegs [F.HQ_WR_DROPS_COUNT.key 0] s t ∧
      rf t F.HQ_WR_DROPS_COUNT 0 = satAdd (rf s F.HQ_WR_DROPS_COUNT 0) 1 % 2 ^ 32) ∧
  (∀ (tag status : Nat) (d : List Byte) (s : State) (h : HostRead), s.host.reads.find? (fun h => h.tag == tag) = some h →
    let u := { s with host := { s.host with reads := s.host.reads.filter fun e => e.id != h.id } }
    (linkUp s = true → let v := if status = 0 then readDone u h d else readFailed u h 3
      exec (.hmemRdCompletion tag status d) s = .next (sendReads v.host.waiting.length v)) ∧
    (let v := readFailed u h 4
     exec (.hmemRdTimeout tag) s = .next (sendReads v.host.waiting.length v)))

/-- R250 to R255: RUN of a ring whose size and addresses are good makes it RUNNING and reads its producer record, and of one whose are not an
error with reason 5; PAUSE stops a running ring with reason 19; CIDX takes a write while the ring does not run; a wake, a poll that is due
and within its budget, and a fetch act on a running ring. -/
def Obligations.RingsRun : Prop :=
  (∀ (req : Requester) (r : Nat) (v : Word) (s : State), lands s req .hqRing 0 0 v [r] → ringState s r ≠ 1 →
    let u := storeFields s .hqRing r 0 0 v
    let lg := wbits 28 24 v
    rf u F.HQ_RING_CTRL_LOG2_SIZE r = lg ∧ rf u F.HQ_RING_CTRL_ERR_CQ r = wbits 21 16 v ∧ rf u F.HQ_RING_CTRL_POLL_US r = wbits 15 8 v ∧
    onlyRegs [F.HQ_RING_CTRL_RUN.key r] s u ∧
    (wbits 2 1 v = 1 → 6 ≤ lg → lg ≤ 16 → rf u F.HQ_RING_BASE_LO_BASE r % 4096 = 0 → rf u F.HQ_RING_PREC_LO_PREC r % 16 = 0 →
      exec (.ringRun req v) s = .next (readRecord (wf (wf u F.HQ_RING_STATE_STATE r 1) F.HQ_RING_STATE_REASON r 0) r)) ∧
    (wbits 2 1 v = 1 → lg < 6 ∨ 16 < lg → exec (.ringRun req v) s = .next (ringError u r 5))) ∧
  (∀ (req : Requester) (r : Nat) (v : Word) (s : State), lands s req .hqRing 0 0 v [r] → ringState s r = 1 → wbits 2 1 v = 2 →
    ∃ t, exec (.ringPause req v) s = .next t ∧ ringState t r = 2 ∧ rf t F.HQ_RING_STATE_REASON r = 19 ∧
      t.host.reads = s.host.reads ∧ onlyRegs [F.HQ_RING_STATE_STATE.key r] { s with host := t.host } t) ∧
  (∀ (req : Requester) (r : Nat) (v : Word) (s : State), lands s req .hqRing 0 0x18 v [r] →
    (ringState s r = 1 → exec (.hqRingCidxWrite req v) s = .next s) ∧
    (ringState s r ≠ 1 → ∃ t, exec (.hqRingCidxWrite req v) s = .next t ∧ onlyRegs [F.HQ_RING_CIDX_CIDX.key r] s t ∧
      rf t F.HQ_RING_CIDX_CIDX r = v.toNat)) ∧
  (∀ (req : Requester) (v : Word) (s : State), lands s req .hq 0 0x14 v [0] →
    ∃ u, onlyRegs [regKey .hq 0 0x14] s u ∧ exec (.hqWake req v) s = .next (if wbits 12 12 v = 1
      then (span (wbits 11 0 v / 8 * 8) 8).foldl (fun s r => if r < 2080 ∧ ringState s r = 1 then readRecord s r else s) u
      else if wbits 11 0 v < 2080 ∧ ringState u (wbits 11 0 v) = 1 then readRecord u (wbits 11 0 v) else u)) ∧
  (∀ (r : Nat) (s : State), ringState s r = 1 → rf s F.HQ_RING_CTRL_POLL_US r ≠ 0 →
    (aget s.host.lastRead r).getD 0 + rf s F.HQ_RING_CTRL_POLL_US r ≤ tick s → recordOut s r = false →
    (s.host.polls < max 1 (rf s F.HQ_CTRL_POLL_BUDGET 0) →
      exec (.ringPoll r) s = .next (readRecord { s with host := { s.host with polls := s.host.polls + 1 } } r)) ∧
    (max 1 (rf s F.HQ_CTRL_POLL_BUDGET 0) ≤ s.host.polls → exec (.ringPoll r) s = .next (ev s F.HQ_EVENT_POLL_LATE 0))) ∧
  (∀ (r : Nat) (s : State), fetchCount s r ≠ 0 →
    let n := fetchCount s r
    let u := stepOpenAtFetch s
    let pos := rf u F.HQ_RING_CIDX_CIDX r
    let size := 2 ^ rf u F.HQ_RING_CTRL_LOG2_SIZE r
    pos % size + n ≤ size →
    exec (.ringFetch r) s = .next (hostRead u (rf2 u F.HQ_RING_BASE_LO_BASE F.HQ_RING_BASE_HI_BASE r + 64 * (pos % size)) (64 * n) (.descs r pos n)).1)

/-- R257, R258 and R260: enabling a completion queue starts it at record 0 in phase 1; disabling it ends its hold-off; HEAD is what the host
last wrote; the end of a hold-off sends the one message that it kept, and opens the next. -/
def Obligations.CompletionQueuesNotify : Prop :=
  (∀ (req : Requester) (q : Nat) (v : Word) (s : State), lands s req .hqCq 0 0 v [q] →
    (rb s F.HQ_CQ_CTRL_EN q = false → wbits 0 0 v = 1 → ∃ t, exec (.cqEnable req v) s = .next t ∧ rb t F.HQ_CQ_CTRL_EN q = true ∧
      rf t F.HQ_CQ_TAIL_TAIL q = 0 ∧ t.host.phase0 = s.host.phase0.filter (· != q) ∧
      onlyRegs [F.HQ_CQ_CTRL_EN.key q, F.HQ_CQ_TAIL_TAIL.key q] { s with host := t.host } t) ∧
    (wbits 0 0 v = 0 → ∃ t, exec (.cqEnable req v) s = .next t ∧ rb t F.HQ_CQ_CTRL_EN q = false ∧
      (∀ e ∈ t.host.holdoff, e.1 ≠ q) ∧ t.host.out = s.host.out)) ∧
  (∀ (req : Requester) (q : Nat) (v : Word) (s : State), lands s req .hqCq 0 0x0C v [q] →
    ∃ t, exec (.hqCqHeadWrite req v) s = .next t ∧ onlyRegs [F.HQ_CQ_HEAD_HEAD.key q] s t ∧ rf t F.HQ_CQ_HEAD_HEAD q = v.toNat) ∧
  (∀ (q : Nat) (w : Bool) (s : State), s.host.holdoff.find? (fun e => e.1 == q) = some (q, w) →
    let u := { s with host := { s.host with holdoff := s.host.holdoff.filter (fun e => e.1 != q) } }
    (w = false ∨ rb s F.HQ_CQ_CTRL_IRQ_EN q = false → exec (.interruptHoldoff q) s = .next u) ∧
    (w = true → rb s F.HQ_CQ_CTRL_IRQ_EN q = true → linkUp s = true →
      let v := hostSend u (.msg (rf s F.HQ_CQ_CTRL_VECTOR q))
      exec (.interruptHoldoff q) s = .next (if rf s F.HQ_CQ_CTRL_HOLDOFF_US q = 0 then v
        else { v with host := { v.host with holdoff := u.host.holdoff ++ [(q, false)] } })))

/-- R263, R268, R270, R277, R278 and R284: a port whose PHY has trained waits in IDENT with its credits and sequence numbers afresh; a failed
training is counted and recorded, and the third gives up. IDENT flits go out of a port in IDENT or quarantine; one that does not come in
time sends the port down; a swap that is not confirmed is MISWIRED. A link that goes down trains again, and RETRAIN takes a port that is
neither disabled nor retired to PHY_TRAIN with its failures forgotten. -/
def Obligations.LinksTrain : Prop :=
  (∀ (n : Nat) (s : State), hubUp s = true → n < 24 → lstate s n ≤ 1 → rf s F.FAB_P_STATE_FAILS n < 3 → portEnabled s n = true →
    (let u := setLstate (wf (setPort s n { getPort s n with own := credRegs s n, txSeq := 0, rxSeq := 0 }) F.FAB_P_STATE_FAILS n 0) n 2
     lstate u n = 2 ∧ rf u F.FAB_P_STATE_FAILS n = 0 ∧ exec (.phyTrainEnd n true) s = .next (portRetests u n [0x20, 0x21, 0x22] true)) ∧
    (let k := rf s F.FAB_P_STATE_FAILS n + 1
     let u := wf (setLstate s n 0) F.FAB_P_STATE_FAILS n k
     let v := portRetests (fhReport (cableMissing (raise u E.FAB_LINK_DOWN (U.port n) 0 0) n) 4 n 0x22 true CperInfo.plain) n [0x20] false
     lstate u n = 0 ∧ rf u F.FAB_P_STATE_FAILS n = k ∧
     exec (.phyTrainEnd n false) s = .next (if k = 3 then portRetests (ev v F.FAB_P_EVENT_RETRAIN_GIVEUP n) n [0x21, 0x22] false else v))) ∧
  (∀ (n : Nat) (s : State), lstate s n = 2 ∨ lstate s n = 4 →
    ∃ t, exec (.identSend n) s = .next t ∧ getPort t n = { getPort s n with idents := (getPort s n).idents ++ [identOf s n false] } ∧
      t.regs = s.regs) ∧
  (∀ (n : Nat) (s : State), lstate s n = 2 → (getPort s n).waiting = false → exec (.identTimeout n) s = .next (cableMissing (setLstate s n 0) n)) ∧
  (∀ (n : Nat) (s : State), (getPort s n).waiting = true → exec (.recheckTimeout n) s = .next (cableResult s n 3)) ∧
  (∀ (n : Nat) (s : State), linked s n = true → exec (.fabLinkDown n) s = .next (portDown s n true (retrainState s n))) ∧
  (∀ (req : Requester) (n : Nat) (s : State), lands s req .fabP 0 4 1 [n] →
    (lstate s n = 5 ∨ lstate s n = 6 → exec (.fabRetrain req) s = .next s) ∧
    (lstate s n ≤ 1 → n < 24 → ∃ t, exec (.fabRetrain req) s = .next t ∧ lstate t n = 1 ∧ rf t F.FAB_P_STATE_FAILS n = 0 ∧
      onlyRegs [F.FAB_P_STATE_LSTATE.key n, F.FAB_P_EVENT_RETRAIN_GIVEUP.key n, F.FAB_STATUS_UP.key 0] s t)) ∧
  (∀ (req : Requester) (n : Nat) (s : State), lands s req .fabP 0 4 2 [n] →
    let l := [F.FAB_P_TX_FLITS_LO_COUNT, F.FAB_P_TX_FLITS_HI_COUNT, F.FAB_P_RX_FLITS_LO_COUNT, F.FAB_P_RX_FLITS_HI_COUNT,
      F.FAB_P_FEC_CORR_LO_COUNT, F.FAB_P_FEC_CORR_HI_COUNT, F.FAB_P_BLOCK_ERR_LO_COUNT, F.FAB_P_BLOCK_ERR_HI_COUNT,
      F.FAB_P_REPLAYS_LO_COUNT, F.FAB_P_REPLAYS_HI_COUNT]
    ∃ t, exec (.fabCntClr req) s = .next t ∧ (∀ f ∈ l, rf t f n = 0) ∧ onlyRegs (l.map fun f => f.key n) s t)

/-- R265 to R268, R275, R276, R279, R281, R282, R285 and R286: an IDENT flit names the neighbour of the port and is checked against the plan; a
block that is damaged or out of sequence is refused, and one in sequence advances the sequence number that the port acknowledges; a retry
timeout sends the retry buffer again. A packet at the head of an input goes where its route says; an ACK settles the packet that it names; a
signed Route Plan that keeps the device's place is stored and applied, and any other is refused. -/
def Obligations.LinksCarryPackets : Prop :=
  (∀ (n : Nat) (i : Ident) (s : State), hubUp s = true → linked s n = true →
    ∃ u, exec (.identReceive n i) s = .next (checkPort u n) ∧
      rf2 u F.FAB_P_NBR_SERIAL_LO_SERIAL F.FAB_P_NBR_SERIAL_HI_SERIAL n = i.serial % 2 ^ 64 ∧ rf u F.FAB_P_NBR_INFO_PORT n = i.port % 32 ∧
      rf u F.FAB_P_NBR_INFO_COORD n = i.coord % 2 ^ 12 ∧ rf u F.FAB_P_NBR_INFO_ASSIGNED n = b2n i.assigned ∧ lstate u n = lstate s n) ∧
  (∀ (n c : Nat) (ok : Bool) (b : LinkBlock) (s : State), hubUp s = true → linked s n = true →
    let w := fieldLE 0 2 b.trailer
    let v := bumpIf s F.FAB_CTRL_CNT_EN F.FAB_P_FEC_CORR_LO_COUNT n c
    let p := { getPort s n with discard := (getPort s n).discard && !bit 13 w }
    let u := setPort v n p
    (ok = false ∨ fieldLE 0x1C 4 b.trailer ≠ crc32 (b.slots.flatten ++ b.trailer.take 0x1C) →
      exec (.linkBlockReceive n ok c b) s = .next (blockRefused (blockError u n) n (!bit 12 w))) ∧
    (ok = true → fieldLE 0x1C 4 b.trailer = crc32 (b.slots.flatten ++ b.trailer.take 0x1C) → bits 11 0 w ≠ p.rxSeq →
      exec (.linkBlockReceive n ok c b) s = .next (blockRefused u n true)) ∧
    (ok = true → fieldLE 0x1C 4 b.trailer = crc32 (b.slots.flatten ++ b.trailer.take 0x1C) → bits 11 0 w = p.rxSeq → p.discard = false →
      bit 12 w = true → bit 14 w = false →
      exec (.linkBlockReceive n ok c b) s =
        .next (setPort u n (takeCredits (takeAck p (bits 11 0 (fieldLE 2 2 b.trailer))) (fieldLE 0x0A 18 b.trailer))))) ∧
  (∀ (n : Nat) (s : State), linked s n = true → exec (.replayTimeout n) s = .next (startReplay s n)) ∧
  (∀ (x i : Nat) (e : Nat × Packet) (s : State), hubUp s = true → headPlaces (inputPackets s x) = [i] → (inputPackets s x)[i]? = some e →
    routeOf s x e.1 e.2 ≠ .wait → exec (.packetRoute x) s = .next (routeDo (takeInput s x i) x (routeOf s x e.1 e.2) e.2)) ∧
  (∀ (p : Packet) (i : Nat) (s : State), hubUp s = true → p.core < 260 →
    findIdx? (fun f => f.done && dTag f.desc == p.tag && f.acks.contains p.pkt) (getCore s p.core).flights = some i →
    ∃ t, exec (.ackReceive p) s = .next t ∧ t.regs = s.regs ∧ (getCore t p.core).queues = (getCore s p.core).queues ∧
      (getCore t p.core).flights = (getCore s p.core).flights.mapIdx fun j f => if j = i then { f with acks := f.acks.erase p.pkt } else f) ∧
  (∀ (plan : List Byte) (s : State), hubUp s = true →
    let l := planEntries (planBody plan)
    let mine := l.find? fun e => entrySerial e == Config.serial
    let r := planRecord (mine.getD []) (fieldLE 0 4 (planBody plan)) (fieldLE 4 4 (planBody plan))
    (planSigned s plan = true → noTwins (l.map entrySerial) = true → noTwins (l.map entryCoord) = true →
      (liveSlice s ≠ 0xFFF → mine.map entryCoord = ownCoord s) →
      exec (.routePlan plan) s = .next (waybillDue (recheckPorts (planApply (settingsPut s 1 r) 2 r)))) ∧
    (planSigned s plan = false → exec (.routePlan plan) s = .next (ev s F.FAB_EVENT_PLAN_REFUSED 0)))

/-- R302 to R305 and R322 to R324: START takes a good mapping descriptor and makes the job active, and refuses a bad one; END ends the job;
INTERLUDE is taken where EVAL_MODE is 2, a job runs and no step is open, and refused elsewhere; a write of 0 ends it. The alias write itself
changes no register (R48). -/
def Obligations.JobsStartAndEnd : Prop :=
  (∀ (req : Requester) (s : State), landsSet s req .hub 0 0x40 [0] →
    let u := storeFields s .hub 0 0x40 1 1
    let a := rf2 s F.HUB_MAP_ADDR_LO_ADDR F.HUB_MAP_ADDR_HI_ADDR 0
    let r := hubRead u a 256
    (∀ k, regLive u k = regLive s k) ∧
    (jobActive s = true ∨ a % 64 ≠ 0 → exec (.jobStart req) s = .next (ev u F.HUB_JOB_EVENT_MAP_REFUSED 0)) ∧
    (jobActive s = false → a % 64 = 0 → inMemory u a 256 = true →
      (mappingOk r.1 r.2 = false → exec (.jobStart req) s = .next (ev r.1 F.HUB_JOB_EVENT_MAP_REFUSED 0)) ∧
      (mappingOk r.1 r.2 = true → ∃ t, exec (.jobStart req) s = .next t ∧ jobActive t = true ∧ t.sr.mapping = r.2 ∧ t.sr.opened = false ∧
        t.sr.lastClosed = none ∧ memoryKept r.1 t ∧ onlyRegs [F.HUB_JOB_STATUS_ACTIVE.key 0] { r.1 with sr := t.sr } t))) ∧
  (∀ (req : Requester) (s : State), landsSet s req .hub 0 0x40 [0] →
    ∃ t, exec (.jobEnd req) s = .next t ∧ jobActive t = false ∧ t.sr = { s.sr with mapping := [] } ∧ memoryKept s t ∧
      ∀ k, k ≠ F.HUB_JOB_STATUS_ACTIVE.key 0 → regLive t k = regLive s k) ∧
  (∀ (req : Requester) (s : State), landsSet s req .hub 0 0x40 [0] →
    (∃ t, exec (.interlude req false) s = .next t ∧ rf t F.HUB_JOB_CTRL_INTERLUDE 0 = 0 ∧ rf t F.HUB_JOB_STATUS_INTERLUDE_LIVE 0 = 0 ∧ t.sr = s.sr) ∧
    (rf s F.HUB_JOB_CTRL_EVAL_MODE 0 = 2 → jobActive s = true → s.sr.steps = [] →
      ∃ t, exec (.interlude req true) s = .next t ∧ rf t F.HUB_JOB_CTRL_INTERLUDE 0 = 1 ∧ rf t F.HUB_JOB_STATUS_INTERLUDE_LIVE 0 = 1 ∧ t.sr = s.sr) ∧
    (jobActive s = false → ∃ t, exec (.interlude req true) s = .next t ∧ rf t F.HUB_JOB_EVENT_INTERLUDE_REFUSED 0 = 1 ∧
      rf t F.HUB_JOB_STATUS_INTERLUDE_LIVE 0 = rf s F.HUB_JOB_STATUS_INTERLUDE_LIVE 0 ∧ t.sr = s.sr))

/-- R326, R327, R329, R332, R333, R337 and R339: with EN set, OPEN of a good plan by an active job with no other step in its way accepts the
step; the end of the Pannier's copy lets its descriptors issue; SEAL stamps the slot of the oldest step and seals it; CLOSE of a COMMITTED
step advances GEN, clears the commit flag and drops the step; REPLAY of a FAILED step at rest checks its slot and opens it again. With EN 0,
and where the step is not in the state that the command needs, the command is refused. -/
def Obligations.StepsOpenAndClose : Prop :=
  (∀ (req : Requester) (v : Word) (c : Instr) (s : State),
    (v, c) ∈ [((0x02 : Word), Instr.stepOpen req), (0x04, .seal req), (0x08, .close req), (0x10, .replay req), (0x20, .resolveCommit req),
      (0x40, .resolveFail req), (0x80, .digCompare req)] → lands s req .hubSr 0 4 v [0] → rb s F.HUB_SR_CTRL_EN 0 = false →
    ∃ t, exec c s = .next t ∧ rf t F.HUB_SR_INFO_REFUSE 0 = 1 ∧ rf t F.HUB_SR_EVENT_REFUSED 0 = 1 ∧
      onlyEvents [F.HUB_SR_INFO_REFUSE.key 0, F.HUB_SR_EVENT_REFUSED.key 0] s t) ∧
  (∀ (req : Requester) (s : State), lands s req .hubSr 0 4 0x02 [0] → rb s F.HUB_SR_CTRL_EN 0 = true → jobActive s = true → s.sr.steps = [] →
    let a := rf2 s F.HUB_SR_PLAN_LO_ADDR F.HUB_SR_PLAN_HI_ADDR 0
    let r := hubRead s a 256
    a % 64 = 0 → inMemory s a 256 = true → exec (.stepOpen req) s = .next (srAccept r)) ∧
  (∀ r : State × List Byte, r.1.sr.steps = [] → planOk r.1 r.2 = true → (r.1.sr.opened = true → planStep r.2 = r.1.sr.last + 1) →
    planStep r.2 < 2 ^ 48 - 1 → 0x4000 + packedLen r.2 ≤ panSlotSize r.1 →
    ∃ t, srAccept r = { r.1 with sr := { r.1.sr with steps := [t], opened := true, last := planStep r.2 } } ∧
      t.step = planStep r.2 ∧ t.state = 0 ∧ t.attempt = 0 ∧ t.plan = r.2) ∧
  (∀ (s : State) (t : Step), s.sr.steps.find? (fun t => t.copying) = some t →
    ((s.host.reads ++ s.host.waiting).all fun r => match r.use with | .pannier _ => false | _ => true) = true →
    exec .pannierCopyDone s = .next (pannierCopied s t)) ∧
  (∀ (req : Requester) (t : Step) (rest : List Step) (s : State), lands s req .hubSr 0 4 0x04 [0] → rb s F.HUB_SR_CTRL_EN 0 = true →
    s.sr.steps = t :: rest → t.state = 1 → rf s F.HUB_SR_CTRL_VOTE_PTN 0 ≤ 19 → pinLive s (rf s F.HUB_SR_CTRL_VOTE_PTN 0) ≠ 0 →
    exec (.seal req) s = .next (sealStep (stampStream (hubWrite s (panSlot s t.step + 0x0E) (toLE 2 t.attempt)) t) t)) ∧
  (∀ (req : Requester) (t : Step) (rest : List Step) (s : State), lands s req .hubSr 0 4 0x08 [0] → rb s F.HUB_SR_CTRL_EN 0 = true →
    s.sr.steps = t :: rest →
    (t.state ≠ 3 → exec (.close req) s = .next (srRefuse s 1)) ∧
    (t.state = 3 → rf s F.HUB_SR_CTRL_DIGEST_INTERVAL 0 = 0 →
      let g := (rf s F.HUB_SR_GEN_GEN 0 + 1) % 2 ^ 16
      let u := clearCommitFlags (wf s F.HUB_SR_GEN_GEN 0 g)
      u.sr = s.sr ∧
      exec (.close req) s = .next (captureAtClose { u with sr := { u.sr with steps := rest, lastClosed := some t.step, heldFlag := false } }))) ∧
  (∀ (req : Requester) (t : Step) (rest : List Step) (s : State), lands s req .hubSr 0 4 0x10 [0] → rb s F.HUB_SR_CTRL_EN 0 = true →
    s.sr.steps = t :: rest → t.state = 5 → t.awaits = false → t.sealTick ≠ none →
    (coresQuiet s = false → exec (.replay req) s = .next (srRefuse s 6)) ∧
    (coresQuiet s = true → rf s F.HUB_SR_CTRL_REPLAY_LIMIT 0 ≤ t.attempt → exec (.replay req) s = .next (srRefuse s 7)) ∧
    (coresQuiet s = true → t.attempt < rf s F.HUB_SR_CTRL_REPLAY_LIMIT 0 → exec (.replay req) s = .next (replayCheck (slotCheck s t) t)))

/-- R335 to R338, R342, R343, R345 and R346: a line of the vote is kept and combined at its level; a result, or a RESOLVE, reaches the step that
awaits one: COMMITTED where it commits a SEALED step, FAILED otherwise; a vote that takes too long is reported and nothing else; a digest is
formed and compared; FENCE fences the core selected and REMOUNT moves its work to a spare. -/
def Obligations.VotesResolveSteps : Prop :=
  (∀ (req : Requester) (t : Step) (s : State), rb s F.HUB_SR_CTRL_EN 0 = true → s.sr.steps.find? (fun t => t.awaits) = some t →
    let u := { s with sr := { s.sr with resolved := some (stepId s t) } }
    (lands s req .hubSr 0 4 0x20 [0] → exec (.resolveCommit req) s = .next (applyResult u true t.causes none)) ∧
    (lands s req .hubSr 0 4 0x40 [0] → exec (.resolveFail req) s = .next (applyResult u false t.causes none))) ∧
  (∀ (t : Step) (s : State) (commit : Bool) (causes : Nat) (first : Option Nat), s.sr.steps = [t] → t.awaits = true →
    (commit = true → t.state = 2 → ∃ u, applyResult s commit causes first = u ∧ u.sr.steps.map (fun x => (x.state, x.awaits)) = [(3, false)] ∧
      rf u F.HUB_SR_EVENT_COMMITTED 0 = 1) ∧
    (commit = false ∨ t.state ≠ 2 → ∃ u, applyResult s commit causes first = u ∧ u.sr.steps = [{ t with state := 5, awaits := false }] ∧
      rf u F.HUB_SR_EVENT_FAILED 0 = 1 ∧ rf u F.HUB_SR_INFO_CAUSES 0 = causes % 2 ^ 16)) ∧
  (∀ (k : Nat) (l : List Byte) (s : State), hubUp s = true → k < 15 →
    let u := hubWrite s (voteArea s k) (padTo 128 l)
    exec (.voteLine k l) s = .next (voteGo { u with sr := { u.sr with lines := aput u.sr.lines k (padTo 128 l) } })) ∧
  (∀ (l : List Byte) (s : State), hubUp s = true → exec (.voteResult l) s = .next (resultArrive (hubWrite s (voteArea s 15) (padTo 128 l)) (padTo 128 l))) ∧
  (∀ (t : Step) (k : Nat) (s : State), t ∈ s.sr.steps → t.awaits = true → t.sealTick = some k → k + voteTicks s ≤ tick s →
    ∃ u, exec .voteTimeout s = .next u ∧ rf u F.HUB_SR_EVENT_VOTE_TIMEOUT 0 = 1 ∧ onlyEvents [F.HUB_SR_EVENT_VOTE_TIMEOUT.key 0] s u) ∧
  (∀ (plan : List Byte) (n g : Nat) (s : State), s.sr.digest = some (plan, n, g) →
    exec .digDone s = .next (releaseFlag (formDigest (hubRead s (bits 47 0 (fieldLE 0x98 8 plan)) 0x810) plan n g))) ∧
  (∀ (req : Requester) (plan own : List Byte) (s : State), lands s req .hubSr 0 4 0x80 [0] → rb s F.HUB_SR_CTRL_EN 0 = true →
    s.sr.digested = some (plan, own) →
    let n := bits 9 0 (fieldLE 0xA8 2 plan)
    exec (.digCompare req) s = .next (compareBox (hubRead s (bits 47 0 (fieldLE 0xA0 8 plan)) (64 * n)) own n)) ∧
  (∀ (req : Requester) (p g : Nat) (s : State),
    (lands s req .ptnCore p 0x20 1 [g] → exec (.fence req p) s = .next (runtimeFence s g)) ∧
    (landsSet s req .ptnCore p 0x20 [g] → exec (.remount req p) s = .next (remountEffect s g)))

/-- R361, R366, R369, R370, R372 and R373: GO reads the command block and runs the operation it names. A command written while one runs, or with
EN 0, is refused with reason 1; a module that is not ready refuses with 2, but a failed one takes QUERY and a foreign one QUERY, EXPORT and
FORMAT. ADOPT sets the epoch, the generation and the last CLOSED step and frees every Pannier slot; every other command begins with the
actions that the manual gives it, in its order. -/
def Obligations.CheckpointCommandsRun : Prop :=
  (∀ (req : Requester) (op : Nat) (c : Instr) (s : State),
    (op, c) ∈ [(1, Instr.save req), (2, .restore req), (3, .adopt req), (4, .query req), (5, .ckpExport req), (6, .ckpImport req),
      (7, .importCommit req), (8, .format req)] → lands s req .ckp 0 4 1 [0] → ckpBlockOp s = op →
    (ckpBusy s = true ∨ rb s F.CKP_CTRL_EN 0 = false → exec c s = .next (ckpRefuse s 1)) ∧
    (ckpBusy s = false → rb s F.CKP_CTRL_EN 0 = true →
      exec c s = .next (ckpGoBlock (hubRead s (rf2 s F.CKP_CMDBLK_LO_ADDR F.CKP_CMDBLK_HI_ADDR 0) 64)))) ∧
  (∀ (blk : List Byte) (s : State), 1 ≤ fieldLE 0 1 blk → fieldLE 0 1 blk ≤ 8 → bits 9 8 (fieldLE 0 4 blk) ≠ 3 →
    let op := fieldLE 0 1 blk
    let k := bits 9 8 (fieldLE 0 4 blk)
    let addr := bits 47 0 (fieldLE 0x18 8 blk)
    let off := fieldLE 0x20 8 blk
    let len := fieldLE 0x28 8 blk
    let epoch := fieldLE 0x10 4 blk
    let resting := jobActive s = true ∧ s.sr.steps = [] ∧ rf s F.HUB_SR_EPOCH_EPOCH 0 < epoch ∧ epoch ≠ 0xFFFFFFFF
    (moduleState s ≠ 1 → moduleState s ≠ 2 → moduleState s ≠ 4 → ckpGoBlock (s, blk) = ckpRefuse s 2) ∧
    (moduleState s = 2 → op ≠ 4 → ckpGoBlock (s, blk) = ckpRefuse s 2) ∧
    (moduleState s = 4 → op ≠ 4 → op ≠ 5 → op ≠ 8 → ckpGoBlock (s, blk) = ckpRefuse s 2) ∧
    (moduleState s = 1 →
      (op = 1 → jobActive s = true → s.sr.lastClosed ≠ none → addr % 64 = 0 → inMemory s addr 4096 = true →
        ckpGoBlock (s, blk) = ckpSavePlan (hubRead s addr 4096) blk) ∧
      (op = 1 → jobActive s = false ∨ s.sr.lastClosed = none → ckpGoBlock (s, blk) = ckpRefuse s 3) ∧
      (op = 2 → resting → inMemory s (bits 47 0 (fieldLE 0x30 8 blk)) 0x4000 = true →
        ckpGoBlock (s, blk) = ckpBegin s blk 2 (examScript s 0 ++ examScript s 1 ++ [.report, .select])) ∧
      (op = 2 ∨ op = 3 → jobActive s = false ∨ s.sr.steps ≠ [] → ckpGoBlock (s, blk) = ckpRefuse s 3) ∧
      (op = 2 ∨ op = 3 → jobActive s = true → s.sr.steps = [] → epoch ≤ rf s F.HUB_SR_EPOCH_EPOCH 0 ∨ epoch = 0xFFFFFFFF →
        ckpGoBlock (s, blk) = ckpRefuse s 8) ∧
      (op = 3 → resting → ∃ t, ckpGoBlock (s, blk) = t ∧ rf t F.HUB_SR_EPOCH_EPOCH 0 = epoch % 2 ^ 32 ∧
        rf t F.HUB_SR_GEN_GEN 0 = fieldLE 0x14 2 blk % 2 ^ 16 ∧
        t.sr = { s.sr with steps := [], opened := false, lastClosed := some (bits 47 0 (fieldLE 8 8 blk)) } ∧ rf t F.CKP_EVENT_DONE 0 = 1)) ∧
    (moduleState s = 1 ∨ moduleState s = 2 ∨ moduleState s = 4 → op = 4 → inMemory s addr 0x4000 = true →
      ckpGoBlock (s, blk) = ckpBegin s blk 4 (examScript s 0 ++ examScript s 1 ++ [.report, .done])) ∧
    (k < 2 → off % 4096 = 0 → len % 4096 = 0 → 0 < len → inMemory s addr len = true → off + len ≤ slotLbas s * 4096 →
      (moduleState s = 1 ∨ moduleState s = 4 → op = 5 →
        ckpGoBlock (s, blk) = ckpBegin s blk 5 [.exportTo (slotLba s k + off / 4096) addr len]) ∧
      (moduleState s = 1 → op = 6 →
        ckpGoBlock (s, blk) = ckpBegin s blk 6 (knowSlots s ++ [.guard, .importFrom (slotLba s k + off / 4096) addr len]))) ∧
    (moduleState s = 1 → op = 7 → k < 2 → ∃ u, u = { s with ckp := { s.ckp with target := k } } ∧ ckpGoBlock (s, blk) =
      ckpBegin u blk 7 ((if slotStatus s (1 - k) = 0 then examScript s (1 - k) else []) ++ [.look (slotLba s k + 1) 5 (2 * k + 1), .adoptManifest])) ∧
    (moduleState s = 1 ∨ moduleState s = 4 → op = 8 → ckpGoBlock (s, blk) =
      ckpBegin s blk 8 (knowSlots s ++ [.guard, .label, .zero 0, .zeroed 0, .zero 1, .zeroed 1, .labelled, .done])))

/-- R355, R356, R362 to R365, R367 and R371: ABORT, MODULE_RESET and a link-down end the running command with reason 10 and release the commit
flags; the end of a capture releases them; a completion of the outstanding NVMe command lets the engine go on, an error or a timeout is a
module error, and any other completion does nothing; an inbound request inside the command's data range is performed and one outside the
buffer window is refused as a module error; a pending automatic save starts from CKP_PLAN; the module's bring-up reports what it found. -/
def Obligations.CheckpointEngineRuns : Prop :=
  (∀ (req : Requester) (s : State), lands s req .ckp 0 4 2 [0] → exec (.ckpAbort req) s = .next (ckpAbort s 10)) ∧
  (∀ (req : Requester) (s : State), lands s req .ckp 0 4 4 [0] → exec (.moduleReset req) s = .next (moduleResetEffect s)) ∧
  (∀ s : State, ckpBusy s = false → ckpAbort s 10 = s) ∧
  (∀ (s : State) (reason : Nat), ckpBusy s = true → ∃ t, ckpAbort s reason = t ∧ t.ckp.script = [] ∧ t.ckp.nvme = none ∧ t.ckp.holding = false ∧
    rf t F.CKP_STATUS_BUSY 0 = 0 ∧ rf t F.CKP_STATUS_HOLDING 0 = 0 ∧ rf t F.CKP_EVENT_ABORTED 0 = 1 ∧
    rf t F.CKP_INFO_REASON 0 = reason % 16) ∧
  (∀ s : State, s.ckp.capturing = true → s.ckp.captured = false → ckpOp s = 1 →
    (s.ckp.snap = false → s.ckp.digests.length = s.ckp.exts.length → exec .captureEnd s = .next (captureEnd s)) ∧
    (s.ckp.snap = true →
      let t := (List.range s.ckp.exts.length).foldl copyExtent s
      (faultedSince s t = true → exec .captureEnd s = .next (ckpAbort t 9)) ∧
      (faultedSince s t = false → exec .captureEnd s = .next (ckpGoOn (captureEnd t))))) ∧
  (∀ (c : NvmeCmd) (status : Nat) (data : List Byte) (s : State), s.ckp.nvme = some c →
    (status ≠ 0 → exec (.nvmeCompletion c.id status data) s = .next (moduleError s status)) ∧
    exec (.nvmeCompletion c.id 0 data) s = .next (nvmeDone s c data) ∧
    exec (.nvmeTimeout c.id) s = .next (moduleError s 0) ∧
    (∀ id, id ≠ c.id → exec (.nvmeCompletion id status data) s = .next s ∧ exec (.nvmeTimeout id) s = .next s)) ∧
  (∀ s : State, ∃ t, exec .stagingLinkDown s = .next t ∧ rf t F.CKP_STATUS_WIDTH 0 = 0 ∧ rf t F.CKP_STATUS_RATE 0 = 0 ∧ t.ckp.bring = true ∧
    t.ckp = { (ckpAbort s 10).ckp with bring := true }) ∧
  (∀ (c : NvmeCmd) (off : Nat) (data : List Byte) (s : State), hubUp s = true → s.ckp.nvme = some c → c.sram = true → c.addr ≤ off →
    off + data.length ≤ c.addr + c.len → off + data.length ≤ 0x1000000 →
    (c.kind = 0 → exec (.stagingInbound true (0xF0000000 + off) data.length data) s = .next { s with ckp := { s.ckp with
      sram := mwrN s.ckp.sram off data, inbound := s.ckp.inbound ++ [(true, [])] } }) ∧
    (c.kind = 1 → exec (.stagingInbound false (0xF0000000 + off) data.length []) s = .next { s with ckp := { s.ckp with
      inbound := s.ckp.inbound ++ [(true, mrdN s.ckp.sram off data.length)] } })) ∧
  (∀ (w : Bool) (addr len : Nat) (data : List Byte) (s : State), hubUp s = true → addr < 0xF0000000 →
    exec (.stagingInbound w addr len data) s =
      .next (moduleError { s with ckp := { s.ckp with inbound := s.ckp.inbound ++ [(false, [])] } } 0)) ∧
  (∀ s : State, s.ckp.pendingAuto = false ∨ ckpBusy s = true → exec .autoSaveStart s = .next s) ∧
  (∀ s : State, s.ckp.pendingAuto = true → ckpBusy s = false → rb s F.CKP_CTRL_EN 0 = true → moduleState s = 1 → s.ckp.lastSave = none →
    ∃ u, u = wf { s with ckp := { s.ckp with pendingAuto := false } } F.CKP_STATUS_PENDING 0 0 ∧
      exec .autoSaveStart s = .next (ckpSave u (List.replicate 64 0) (rf2 s F.CKP_PLAN_LO_ADDR F.CKP_PLAN_HI_ADDR 0))) ∧
  (∀ (m : ModuleFacts) (s : State), hubUp s = true → s.ckp.bring = true → s.fh.retests.contains (4, 28, 0x24) = false → m.present = true →
    m.width ≠ 0 → ∃ t, exec (.stagingLinkTrainEnd m) s = .next t ∧ t.ckp = { s.ckp with bring := false, facts := m } ∧
      (m.lba4k = false → rf t F.CKP_STATUS_MODULE 0 = 3) ∧
      (m.lba4k = true → labelForeign m.labelBytes = false → rf t F.CKP_STATUS_MODULE 0 = 1) ∧
      (m.lba4k = true → labelForeign m.labelBytes = true → rf t F.CKP_STATUS_MODULE 0 = 4 ∧ rf t F.CKP_EVENT_FOREIGN 0 = 1))

/-- R375, R377, R381, R383 to R386, R397 and R399: a watched core, port or channel group that holds work while its counter stands still raises
its hang once; a signature that has aged out without a verdict is reported as transient; EXPORT_ACK advances HEAD where a record waits;
APPLY, RETEST and a CLEAR_VERDICT that is authorised act on the unit that FH_UNIT names, and an unauthorised one is refused; the oldest
unsent record goes to the management layer; a stale digest is computed anew; operating time counts seconds. -/
def Obligations.FaultHistoryActs : Prop :=
  (∀ (g w : Nat) (s : State), hubUp s = true → coreWindow s g = some w →
    (g < 260 → coreWatched s g = true → corePending s g = true → coreHung s g = false → exec (.hang 1 g) s = .next (coreHang s g w)) ∧
    (corePending s g = false ∨ coreHung s g = true → exec (.hang 1 g) s = .next s)) ∧
  (∀ (n : Nat) (s : State), hubUp s = true → n < 24 → rf s F.FH_WIN_PORT_MS 0 ≠ 0 → lstate s n = 3 → portWaits s n = true →
    let mark := rf2 s F.FAB_P_TX_FLITS_LO_COUNT F.FAB_P_TX_FLITS_HI_COUNT n
    (hungAt s 4 n ≠ some mark → exec (.hang 4 n) s = .next (portHang s n mark)) ∧ (hungAt s 4 n = some mark → exec (.hang 4 n) s = .next s)) ∧
  (∀ (p g : Nat) (r : LineReq) (rest : List LineReq) (s : State), hubUp s = true → p < 20 → g < 16 → groupMisses s p g = r :: rest →
    rf s F.FH_WIN_CHGRP_MS 0 ≠ 0 → pstate s p = 0 → inReset s p = false → hungAt s 5 (16 * p + g) ≠ some r.addr →
    exec (.hang 5 (16 * p + g)) s = .next (groupHang s p g r.addr)) ∧
  (∀ (k i g : Nat) (s : State), hubUp s = true →
    let mine := fun (e : FhEvent) => e.kind == k && e.index == i && e.sig == g
    (∃ e ∈ s.fh.events, mine e = true ∧ e.counted = true) → (∀ e ∈ s.fh.events, mine e = true → e.at_ + 604800 ≤ operS s) →
    (∀ v ∈ s.fh.verdicts, ¬ (v.kind = k ∧ v.index = i ∧ v.sig = g)) →
    ∃ u, u = wf { s with fh := { s.fh with events := s.fh.events.filter fun e => !mine e } } F.FH_STATUS_TRANSIENTS 0
        (min 0xFFFF (rf s F.FH_STATUS_TRANSIENTS 0 + 1)) ∧
      exec (.eventAgeOut k i g) s = .next (cperPush (ev u F.FH_EVENT_TRANSIENT 0) k i g 1 CperInfo.plain)) ∧
  (∀ (req : Requester) (s : State), lands s req .fh 0 0x1C 8 [0] → ∃ t, exec (.exportAck req) s = .next t ∧
    (rf s F.FH_CPER_HEAD_HEAD 0 = rf s F.FH_CPER_TAIL_TAIL 0 → rf t F.FH_CPER_HEAD_HEAD 0 = rf s F.FH_CPER_HEAD_HEAD 0) ∧
    (rf s F.FH_CPER_HEAD_HEAD 0 ≠ rf s F.FH_CPER_TAIL_TAIL 0 → rf t F.FH_CPER_HEAD_HEAD 0 = (rf s F.FH_CPER_HEAD_HEAD 0 + 1) % 2 ^ 32) ∧
    t.fh.verdicts = s.fh.verdicts ∧ memoryKept s t) ∧
  (∀ (req : Requester) (s : State), lands s req .fh 0 0x1C 2 [0] → exec (.apply req) s = .next (applyUnit s (fhUnit s))) ∧
  (∀ (req : Requester) (s : State), lands s req .fh 0 0x1C 1 [0] → exec (.retest req) s = .next (retestUnit s (fhUnit s))) ∧
  (∀ (req : Requester) (s : State),
    (lands s req .fh 0 0x1C 4 [0] → clearAllowed s req = true → exec (.clearVerdict req) s = .next (clearUnit (grantUse s) (fhUnit s))) ∧
    (hubUp s = true → clearAllowed s req = false → exec (.clearVerdict req) s = .next (accFault s 7 req.id (winOff .fh 0 0x1C)))) ∧
  (∀ (u : Nat × Nat) (s : State), (clearUnit s u).fh.verdicts = s.fh.verdicts ∧ u ∈ (clearUnit s u).fh.clearing) ∧
  (∀ s : State, (∀ e ∈ s.fh.cper, e.2.sent = true) → exec .cperSend s = .next s) ∧
  (∀ (r : Nat × Cper) (s : State), s.fh.cper.find? (fun e => !e.2.sent) = some r →
    ∃ t, exec .cperSend s = .next t ∧ t.sec.reports = s.sec.reports ++ [r.2.body] ∧ t.regs = s.regs ∧ memoryKept s t) ∧
  (∀ s : State, s.fh.digestStale = false → exec .fhDigestRecompute s = .next s) ∧
  (∀ s : State, s.fh.digestStale = true → ∃ u, (∀ n < 8, rf u (F.FH_DIGEST_DIGEST.nth n) 0 = fieldLE (4 * n) 4 (sha3 (verdictBytes s))) ∧
    u.fh = { s.fh with digestStale := false } ∧ exec .fhDigestRecompute s = .next (attestCapture u)) ∧
  (∀ s : State, hubUp s = true → ∃ t, exec .operatingSecond s = .next t ∧ operS t = (operS s + 1) % 2 ^ 32 ∧
    onlyRegs [F.FH_OPER_S_SECONDS.key 0] s t)

/-- R388 to R392 and R400: a test window opens on a core that is idle and within its budget; work that arrives ends it; a pattern that matches
passes and one that differs fails the core; SWEEP starts a sweep of every working and spare core, and is refused while a step is OPEN or
SEALED or with EN 0; ABORT_SWEEP and the sweep's end stop it; a test package that verifies waits in the inactive slot, and another is
refused. -/
def Obligations.TestsRun : Prop :=
  (∀ (g : Nat) (s : State), hubUp s = true →
    (windowOpens s g = true → ∃ u, u = packageTurn s ∧
      exec (.istWindowOpen g) s = .next { u with ist := { u.ist with windows := u.ist.windows ++ [g] } }) ∧
    (windowOpens s g = false → exec (.istWindowOpen g) s = .next s)) ∧
  (∀ (g d : Nat) (s : State), g ∈ s.ist.windows → corePending s g = true → d ≤ 128 → ∃ t, exec (.istPreempt g d) s = .next t ∧
    t.ist.windows = s.ist.windows.filter (· != g) ∧ memoryKept s t) ∧
  (∀ (g k n x y : Nat) (s : State), g ∉ s.ist.windows → g ∈ s.ist.sweep → k < patternCount s →
    let u := bumpIf s F.IST_CTRL_CNT_EN F.IST_CYC_LO_COUNT 0 n
    exec (.istPatternDone g k n x x) s = .next (patternPass u g k) ∧
    (x ≠ y → ∃ v, v = { u with ist := { u.ist with passed := adel u.ist.passed g } } ∧ exec (.istPatternDone g k n x y) s =
      .next (istFail ((patternRetests v g).foldl (fun s sig => retestEnd s 1 g sig false) v) g k x y true))) ∧
  (∀ (g k n x : Nat) (s : State), g ∈ s.ist.windows → k < patternCount s → ∃ w, exec (.istPatternDone g k n x x) s = .next (patternPass w g k) ∧
    w.ist.windows = s.ist.windows.filter (· != g) ∧ (g, s.time.now, ceilDiv (n * 10) 7) ∈ w.ist.spent) ∧
  (∀ (req : Requester) (s : State), lands s req .ist 0 4 1 [0] →
    ((∃ t ∈ s.sr.steps, t.state = 1 ∨ t.state = 2) ∨ rb s F.IST_CTRL_EN 0 = false → exec (.sweep req) s = .next (ev s F.IST_EVENT_SWEEP_REFUSED 0)) ∧
    ((∀ t ∈ s.sr.steps, t.state ≠ 1 ∧ t.state ≠ 2) → rb s F.IST_CTRL_EN 0 = true → ∃ t, exec (.sweep req) s = .next t ∧
      rf t F.IST_STATUS_SWEEPING 0 = 1 ∧ t.ist.sweep = sweepCores (packageTurn s) ∧ t.ist.windows = [])) ∧
  (∀ (req : Requester) (s : State), lands s req .ist 0 4 2 [0] → ∃ t, exec (.abortSweep req) s = .next t ∧ t.ist.sweep = [] ∧
    rf t F.IST_STATUS_SWEEPING 0 = 0 ∧ memoryKept s t) ∧
  (∀ s : State, (rb s F.IST_STATUS_SWEEPING 0 = true → ∃ t, exec .sweepDone s = .next t ∧ t.ist.sweep = [] ∧ rf t F.IST_STATUS_SWEEPING 0 = 0 ∧
      rf t F.IST_EVENT_SWEEP_DONE 0 = 1 ∧ memoryKept s t) ∧
    (rb s F.IST_STATUS_SWEEPING 0 = false → exec .sweepDone s = .next s)) ∧
  (∀ (l : List Byte) (s : State), hubUp s = true →
    (packageOf l = none → exec (.testPackage l) s = .next (ev s F.IST_EVENT_PKG_REFUSED 0)) ∧
    (∀ p, packageOf l = some p →
      let now := (((s.ist.active.bind fun i => s.ist.slots.getD i none)).map (·.ver)).getD 0
      (p.ver ≤ now ∨ coreVersion s < p.minFw → exec (.testPackage l) s = .next (ev s F.IST_EVENT_PKG_REFUSED 0)) ∧
      (now < p.ver → p.minFw ≤ coreVersion s → exec (.testPackage l) s =
        .next { s with ist := { s.ist with slots := s.ist.slots.set (if s.ist.active = some 0 then 1 else 0) (some p), staged := true } })))

/-- R401 to R403, R405 and R413: LEDGER_TICK ends the tick and lets the least register cycles pass that bring the time base to the next one
(with the rate correction within ±100 ppm); without the root no time passes but in P3; a write of TIME_SET steps the time base of a device
that follows none; a follower asks, and the answer to its last request gives the offset and the delay, to the nearest integer that the
manual leaves open where they fall between two; a locked follower that is ahead slews at −100 ppm; eight good exchanges set LOCKED; after
eight silent intervals it clears. -/
def Obligations.TimeIsKept : Prop :=
  (∀ s : State, (s.power.inP3 = true → exec .ledgerTick s = .next (runClock s (cyclesToTick s))) ∧
    (s.power.inP3 = false → s.power.root = false → exec .ledgerTick s = .next s) ∧
    (s.power.inP3 = false → s.power.root = true → exec .ledgerTick s = .next (runClock (tickEnd s) (cyclesToTick s)))) ∧
  (∀ s : State, s.time.acc < 14 * 10 ^ 9 → s.time.now < 2 ^ 64 - 2000 → -100000 ≤ sext 32 (rf s F.TIME_ADJ_ADJ 0) →
    sext 32 (rf s F.TIME_ADJ_ADJ 0) ≤ 100000 → tick (runClock s (cyclesToTick s)) = tick s + 1) ∧
  (∀ (req : Requester) (v : Word) (s : State), lands (withHolding s req .time 0 0x4C) req .time 0 0x4C v [0] →
    let u := storeFields (withHolding s req .time 0 0x4C) .time 0 0x4C 0 v
    (rf u F.TIME_CTRL_ROLE 0 ≤ 1 → ∃ t, exec (.timeSet req v) s = .next t ∧ t.time.now = rf2 u F.TIME_SET_LO_VALUE F.TIME_SET_HI_VALUE 0 ∧
      t.time.acc = 0 ∧ rf t F.TIME_EVENT_STEPPED 0 = 1) ∧
    (1 < rf u F.TIME_CTRL_ROLE 0 → exec (.timeSet req v) s = .next u)) ∧
  (∀ s : State, hubUp s = true →
    (rf s F.TIME_CTRL_ROLE 0 ≠ 2 → exec .timeExchange s = .next s) ∧
    (rf s F.TIME_CTRL_ROLE 0 = 2 → ∃ u, u = { s with time := { s.time with asked := some s.time.now, silent := s.time.silent + 1 } } ∧
      exec .timeExchange s = .next (sendTime u (rf s F.TIME_CTRL_PARENT_PORT 0)
        (rf s F.FAB_P_NBR_INFO_COORD (rf s F.TIME_CTRL_PARENT_PORT 0)) (timePayload false s.time.now 0 0)))) ∧
  (∀ (p : Packet) (n : Nat) (s : State), hubUp s = true → portToward s p.src = some n →
    exec (.timeRequest p) s = .next (sendTime s n p.src (timePayload true (fieldLE 8 8 p.payload) s.time.now s.time.now))) ∧
  (∀ (p : Packet) (s : State), hubUp s = true →
    (rf s F.TIME_CTRL_ROLE 0 ≠ 2 ∨ s.time.asked ≠ some (fieldLE 8 8 p.payload) → exec (.timeResponse p) s = .next s) ∧
    (rf s F.TIME_CTRL_ROLE 0 = 2 → s.time.asked = some (fieldLE 8 8 p.payload) →
      let t1 : Int := fieldLE 8 8 p.payload
      let o2 : Int := ((fieldLE 16 8 p.payload : Int) - t1) - ((s.time.now : Int) - fieldLE 24 8 p.payload)
      let d2 : Int := ((s.time.now : Int) - t1) - ((fieldLE 24 8 p.payload : Int) - fieldLE 16 8 p.payload)
      ∃ (u : State) (o d : Int), exec (.timeResponse p) s = .next (countExchange (applyOffset u o2) o2) ∧ u.time.asked = none ∧ u.time.silent = 0 ∧
        2 * o - o2 ≤ 1 ∧ o2 - 2 * o ≤ 1 ∧ 2 * d - d2 ≤ 1 ∧ d2 - 2 * d ≤ 1 ∧ rf u F.TIME_OFFSET_O 0 = sat32 o % 2 ^ 32 ∧
        rf u F.TIME_DELAY_DELAY 0 = unsext 32 d % 2 ^ 32)) ∧
  (∀ (o2 : Int) (s : State), locked s = true → o2 < 0 → 2 * (max 1 (rf s F.TIME_CTRL_STEP_NS 0) : Int) < o2.natAbs →
    ∃ t, applyOffset s o2 = t ∧ sext 32 (rf t F.TIME_ADJ_ADJ 0) = -100000 ∧ t.time = s.time) ∧
  (∀ (o2 : Int) (s : State), o2.natAbs ≤ 40 → s.time.good = 7 → rf (countExchange s o2) F.TIME_STATUS_LOCKED 0 = 1) ∧
  (∀ s : State, (rf s F.TIME_CTRL_ROLE 0 = 2 ∧ 8 ≤ s.time.silent → ∃ u, u = ev { s with time := { s.time with silent := 0 } } F.TIME_EVENT_NO_RESP 0 ∧
      exec .noResp s = .next (setAdj (timeUnlock u) s.time.integ)) ∧
    (¬ (rf s F.TIME_CTRL_ROLE 0 = 2 ∧ 8 ≤ s.time.silent) → exec .noResp s = .next s))

/-- R407, R409 and R410: ACK drops the record at HEAD, where one waits; SNAP_ARM arms a snapshot two ticks or more ahead, and reports one that
comes too late; a broadcast target arms it here and goes on over the tree; at its tick the snapshot takes the time and the tick. The alias
write itself leaves LEDGER_CMD as it is (R48). -/
def Obligations.SnapshotsAreTaken : Prop :=
  (∀ (req : Requester) (s : State), landsSet s req .ledger 0 4 [0] →
    ∃ t, exec (.ledgerAck req) s = .next t ∧
      (rf s F.LEDGER_HEAD_COUNT 0 = rf s F.LEDGER_TAIL_COUNT 0 → rf t F.LEDGER_HEAD_COUNT 0 = rf s F.LEDGER_HEAD_COUNT 0) ∧
      (rf s F.LEDGER_HEAD_COUNT 0 ≠ rf s F.LEDGER_TAIL_COUNT 0 → rf t F.LEDGER_HEAD_COUNT 0 = (rf s F.LEDGER_HEAD_COUNT 0 + 1) % 2 ^ 32) ∧
      t.ledger = s.ledger ∧ ∀ k, k ≠ F.LEDGER_HEAD_COUNT.key 0 → regLive t k = regLive s k) ∧
  (∀ (req : Requester) (s : State), landsSet s req .ledger 0 4 [0] →
    let t := rf2 s F.LEDGER_SNAP_AT_LO_TICK F.LEDGER_SNAP_AT_HI_TICK 0
    ∃ u, (∀ k, regLive u k = regLive s k) ∧ u.ledger = s.ledger ∧
      (t < tick s + 2 → exec (.snapArm req) s = .next (ev u F.LEDGER_EVENT_SNAP_LATE 0)) ∧
      (tick s + 2 ≤ t → rb s F.LEDGER_CMD_SNAP_BCAST 0 = false →
        exec (.snapArm req) s = .next { u with ledger := { u.ledger with snap := some t } }) ∧
      (tick s + 2 ≤ t → rb s F.LEDGER_CMD_SNAP_BCAST 0 = true →
        exec (.snapArm req) s = .next (snapForward { u with ledger := { u.ledger with snap := some t } } t none))) ∧
  (∀ (p : Packet) (s : State), hubUp s = true →
    let t := fieldLE 0 8 p.payload
    let u := snapForward s t (some p.src)
    (t ≤ tick u → exec (.snapBcastReceive p) s = .next (ev u F.LEDGER_EVENT_SNAP_LATE 0)) ∧
    (tick u < t → ∃ v, exec (.snapBcastReceive p) s = .next v ∧ v.ledger = { u.ledger with snap := some t } ∧
      rf2 v F.LEDGER_SNAP_AT_LO_TICK F.LEDGER_SNAP_AT_HI_TICK 0 = t)) ∧
  (∀ s : State, s.ledger.snap = none → exec .snapshotTaken s = .next s) ∧
  (∀ (t : Nat) (s : State), s.ledger.snap = some t → (tick s < t → exec .snapshotTaken s = .next s) ∧
    (t ≤ tick s → s.time.now < 2 ^ 64 → ∃ u, exec .snapshotTaken s = .next (raise u E.SNAPSHOT_TAKEN U.none 0 0) ∧ u.ledger = { s.ledger with snap := none } ∧
      rf2 u F.TIME_SNAP_LO_NOW F.TIME_SNAP_HI_NOW 0 = s.time.now ∧ rf2 u F.LEDGER_SNAP_TAKEN_LO_TICK F.LEDGER_SNAP_TAKEN_HI_TICK 0 = tick s ∧
      rf u F.LEDGER_EVENT_SNAP_DONE 0 = 1))

/-- R414, R417, R456 to R459, R462 and R463: on each power sum above the limit the throttle level rises by one, and after a hundred sums below
it by the hysteresis it falls by one; the board's alert and a junction above its throttle point force level 8; a trip, a failed rail and an
AVS that is not acknowledged stop the root and EN_MAIN; the loss of VMI and a cold power-on leave what the MRAM and the fuses keep; a loss
of lock holds the package; RESET_N's release runs the main rails again after a failure. -/
def Obligations.PowerIsLimited : Prop :=
  (∀ (w : Nat) (s : State), hubUp s = true → ∃ u, u = wf s F.PWR_STATUS_PKG_W 0 (min w 4095) ∧
    (levelForced u = true → exec (.powerSum w) s = .next (setSums (setLevel u 8) 0 0 100)) ∧
    (levelForced u = false → s.power.coolSums ≠ 0 → exec (.powerSum w) s = .next (setSums u 0 0 (s.power.coolSums - 1))) ∧
    (levelForced u = false → s.power.coolSums = 0 → exec (.powerSum w) s = .next (sumStep u w))) ∧
  (∀ (w : Nat) (s : State), rf s F.PWR_STATUS_LEVEL 0 < 8 → powerLimit s < w → rf (sumStep s w) F.PWR_STATUS_LEVEL 0 = rf s F.PWR_STATUS_LEVEL 0 + 1) ∧
  (∀ (w : Nat) (s : State), 0 < rf s F.PWR_STATUS_LEVEL 0 → w + rf s F.PWR_CTRL_HYST_W 0 ≤ powerLimit s → s.power.lowSums = 99 →
    rf (sumStep s w) F.PWR_STATUS_LEVEL 0 = rf s F.PWR_STATUS_LEVEL 0 - 1) ∧
  (∀ s : State, hubUp s = true →
    (∃ t, exec (.pwrAlert true) s = .next t ∧ t.power.alert = true ∧ rf t F.PWR_STATUS_LEVEL 0 = 8 ∧ rf t F.PWR_STATUS_ALERT 0 = 1) ∧
    (∃ t, exec (.pwrAlert false) s = .next t ∧ t.power.alert = false ∧ rf t F.PWR_STATUS_ALERT 0 = 0 ∧
      rf t F.PWR_STATUS_LEVEL 0 = rf s F.PWR_STATUS_LEVEL 0)) ∧
  (∀ (c k h o : Nat) (s : State), hubUp s = true →
    (95 < c ∨ 85 < k ∨ 95 < h ∨ 100 < o → ∃ t, exec (.thermalThrottle c k h o) s = .next t ∧ rf t F.PWR_STATUS_LEVEL 0 = 8 ∧ rf t F.PWR_STATUS_THERMAL 0 = 1) ∧
    (c ≤ 95 → k ≤ 85 → h ≤ 95 → o ≤ 100 → ∃ t, exec (.thermalThrottle c k h o) s = .next t ∧ rf t F.PWR_STATUS_THERMAL 0 = 0 ∧
      rf t F.PWR_STATUS_LEVEL 0 = rf s F.PWR_STATUS_LEVEL 0)) ∧
  (∀ (c k h o : Nat) (s : State),
    (110 ≤ c ∨ 95 ≤ k ∨ 110 ≤ h ∨ 105 ≤ o → ∃ t, exec (.thermtrip c k h o) s = .next t ∧ t.power.root = false ∧ t.power.enMain = false ∧
      t.power.thermtripN = false) ∧
    (c < 110 → k < 95 → h < 110 → o < 105 → exec (.thermtrip c k h o) s = .next s)) ∧
  (∀ (r : Nat) (s : State), s.power.enMain = true → r < 4 →
    (∃ t, exec .railFail s = .next t ∧ t.power.root = false ∧ t.power.enMain = false ∧ t.power.railFail = true ∧ t.cores = [] ∧ t.parts = []) ∧
    (∃ t, exec (.avsAckTimeout r) s = .next t ∧ t.power.root = false ∧ t.power.enMain = false ∧ t.power.railFail = true)) ∧
  (∀ (stopped : Bool) (s : State), (s.power.root = false → exec (.rootUnlock stopped) s = .next s) ∧
    (s.power.root = true → ∃ t, exec (.rootUnlock stopped) s = .next t ∧ t.power.root = false ∧ t.power.held = true ∧ t.power.refOk = !stopped ∧
      t.time.now = s.time.now ∧ t.cores = [] ∧ t.parts = [] ∧ rf t F.RST_STATUS_IN_RESET 0 = 0xFFFFF)) ∧
  (∀ s : State, ∃ t, exec .vmiLoss s = .next t ∧ t.power.supplied = false ∧ t.power.root = false ∧ t.time.now = 0 ∧ t.cores = [] ∧ t.parts = [] ∧
    t.settings.records = s.settings.records ∧ t.sec.floors = s.sec.floors ∧ t.sec.images = s.sec.images) ∧
  (∀ s : State, ∃ t, exec .coldPowerOn s = .next t ∧ t.power.supplied = true ∧ t.power.enMain = true ∧ t.power.root = false ∧ t.time.now = 0 ∧
    t.settings.records = s.settings.records ∧ t.sec.floors = s.sec.floors ∧ t.sec.images = s.sec.images) ∧
  (∀ s : State, (s.power.resetN = true → exec .resetNRelease s = .next s) ∧
    (s.power.resetN = false → s.power.supplied = true → s.power.railFail = true → ∃ t, exec .resetNRelease s = .next t ∧ t.power.resetN = true ∧
      t.power.enMain = true ∧ t.power.railFail = false ∧ t.power.thermtripN = true) ∧
    (s.power.resetN = false → s.power.railFail = false → exec .resetNRelease s = .next { s with power := { s.power with resetN := true } }))

/-- R378, R414, R418 to R422, R431, R443 and R457: the return of lock, PG_MAIN, RESET_N and a package reset with its key boot the package: into
recovery where no image verifies, else through the presets to the release of the host die; a hub reset does so with the hub. A reset without
its key or its enable is refused; a partition reset runs its phases and reports. That one preset names a reserved bit of a register stops
the boot in this model (log 9). -/
def Obligations.ResetsBoot : Prop :=
  (∀ (ms : List (Nat × Measured)) (c : Instr) (u : State) (cause : Nat) (s : State),
    (c = .rootLock ms ∧ s.power.enMain = true ∧ s.power.pgMain = true ∧ s.power.root = false ∧ u = s ∧ cause = 4) ∨
    (c = .pgMainAssert ms ∧ s.power.enMain = true ∧ s.power.pgMain = false ∧ u = mainOn { s with power := { s.power with pgMain := true } } ∧
      cause = s.power.cause) ∨
    (c = .resetNAssert ms ∧ u = { s with power := { s.power with resetN := false } } ∧ islandUp u = true ∧ cause = 1) ∨
    (∃ req, c = .packageReset req 0x52530001 ms ∧ req ≠ .mgmt ∧ lands s req .rst 0 8 0x52530001 [0] ∧ rb s F.RST_EN_PKG_EN 0 = true ∧
      u = storeFields s .rst 0 8 0 0x52530001 ∧ cause = 2) →
    let b := bootStart u cause
    (inRecovery b = true → exec c s = .next (allInReset b)) ∧
    (inRecovery b = false → ∀ t, presetRun (presetEntries (bootParts b ms)) 0 0 (bootParts b ms) = .next t →
      exec c s = .next (hostRelease (transfer t 0xFFFF))) ∧
    (inRecovery b = false → b.settings.records = [] → ∃ t, exec c s = .next (hostRelease (transfer t 0xFFFF)) ∧
      t = wf (wf (bootParts b ms) F.SET_PRESET_INFO_APPLIED 0 0) F.SET_PRESET_INFO_SKIPPED 0 0)) ∧
  (∀ (ms : List (Nat × Measured)) (req : Requester) (s : State), req ≠ .mgmt → lands s req .rst 0 8 0x52530002 [0] → rb s F.RST_EN_HUB_EN 0 = true →
    let u := storeFields s .rst 0 8 0 0x52530002
    let b := hubStart u ms (hubParts u)
    (inRecovery b = true → ∃ t, exec (.hubReset req 0x52530002 ms) s = .next t ∧ t.power.perstN = false ∧ rf t F.RST_STATUS_IN_RESET 0 = 0xFFFFF) ∧
    (inRecovery b = false → ∀ t, presetRun (presetEntries (hubBring b ms (hubParts u) u)) 0 0 (hubBring b ms (hubParts u) u) = .next t →
      exec (.hubReset req 0x52530002 ms) s = .next (hubDone (transfer t 0xFFFF))) ∧
    (inRecovery b = false → b.settings.records = [] → ∃ t, exec (.hubReset req 0x52530002 ms) s = .next (hubDone (transfer t 0xFFFF)) ∧
      t = wf (wf (hubBring b ms (hubParts u) u) F.SET_PRESET_INFO_APPLIED 0 0) F.SET_PRESET_INFO_SKIPPED 0 0)) ∧
  (∀ (ms : List (Nat × Measured)) (req : Requester) (s : State), req ≠ .mgmt →
    (lands s req .rst 0 8 1 [0] → rb s F.RST_EN_PKG_EN 0 = true → exec (.packageReset req 1 ms) s = .next (rstRefuse (storeFields s .rst 0 8 0 1) 3 0)) ∧
    (lands s req .rst 0 8 2 [0] → rb s F.RST_EN_HUB_EN 0 = false → exec (.hubReset req 2 ms) s = .next (rstRefuse (storeFields s .rst 0 8 0 2) 1 0))) ∧
  (∀ (ms : List (Nat × Measured)) (s : State), s.power.enMain = false → exec (.rootLock ms) s = .next s ∧ exec (.pgMainAssert ms) s = .next s) ∧
  (∀ (req : Requester) (v : Word) (m : Measured) (s : State), lands s req .rst 0 4 v [0] → wbits 8 8 v = 1 →
    let u := storeFields s .rst 0 4 0 v
    let p := wbits 4 0 v
    (rb u F.RST_EN_PTN_EN 0 = false → exec (.partitionReset req v m) s = .next (rstRefuse u 1 p)) ∧
    (rb u F.RST_EN_PTN_EN 0 = true → 20 ≤ p ∨ ptnDown u p = true → exec (.partitionReset req v m) s = .next (rstRefuse u 2 p)) ∧
    (rb u F.RST_EN_PTN_EN 0 = true → p < 20 → ptnDown u p = false → ∃ t, exec (.partitionReset req v m) s = .next t ∧
      t = ev (resetPartition u p m) F.RST_EVENT_PTN_DONE 0 ∧ rf t F.RST_EVENT_PTN_DONE 0 = 1))

/-- R425 to R428 and R462: an idle partition enters P1 and leaves it; P2_ENTER and P2_EXIT of a partition that may change its state do so, and
give the reason of R426 or R427 where it may not; P3_ENTER of the management requester stops the root but leaves the time base running, and
is refused with reason 6 while a job is active; a wake ends it; the target takes its dynamic address. -/
def Obligations.PartitionsSleep : Prop :=
  (∀ (p : Nat) (s : State), hubUp s = true → p < 20 → rb s F.PWR_CTRL_P1_AUTO 0 = true → inReset s p = false → pstate s p = 0 →
    (∀ g ∈ span (13 * p) 13, 2 ≤ role s g ∨ (corePending s g = false ∧ g ∉ s.ist.windows)) → retestIn s p = false →
    exec (.p1Enter p) s = .next (setPstate s p 1)) ∧
  (∀ (p : Nat) (s : State), p < 20 → pstate s p = 1 → exec (.p1Exit p) s = .next (setPstate s p 0)) ∧
  (∀ (p : Nat) (s : State), pstate s p ≠ 0 → exec (.p1Enter p) s = .next s) ∧
  (∀ (p : Nat) (s : State), pstate s p ≠ 1 → exec (.p1Exit p) s = .next s) ∧
  (∀ (req : Requester) (v : Word) (kept : Bool) (s : State), lands s req .pwr 0 0x0C v [0] → wbits 8 8 v = 1 → wbits 9 9 v = 0 →
    exec (.p2Enter req v kept) s = .next (p2Enter (storeFields s .pwr 0 0x0C 0 v) (wbits 4 0 v) kept)) ∧
  (∀ (req : Requester) (v : Word) (m : Measured) (s : State), lands s req .pwr 0 0x0C v [0] → wbits 8 8 v = 0 → wbits 9 9 v = 1 →
    exec (.p2Exit req v m) s = .next (p2Exit (storeFields s .pwr 0 0x0C 0 v) (wbits 4 0 v) m)) ∧
  (∀ (p : Nat) (kept : Bool) (s : State), p < 20 → ptnDown s p = false →
    (partQuiet s p = false → p2Enter s p kept = p2Refuse s 2 p) ∧
    (partQuiet s p = true → ringsQuiet s p = false → p2Enter s p kept = p2Refuse s 3 p) ∧
    (partQuiet s p = true → ringsQuiet s p = true → rb s F.HUB_JOB_STATUS_ACTIVE 0 = true → holdsSteps s p = true →
      p2Enter s p kept = p2Refuse s 4 p) ∧
    (partQuiet s p = true → ringsQuiet s p = true → rb s F.HUB_JOB_STATUS_ACTIVE 0 = false ∨ holdsSteps s p = false →
      ∃ u, u = setPstate (powerLoss (keepConfig (writeBack (quiesce s p) p kept) p) p kept) p 2 ∧
        p2Enter s p kept = waybillDue (ev u F.PWR_EVENT_P2_DONE 0))) ∧
  (∀ (p : Nat) (m : Measured) (s : State), p < 20 → inReset s p = false → pstate s p = 0 → p2Exit s p m = p2Refuse s 5 p) ∧
  (∀ (p : Nat) (m : Measured) (s : State), p < 20 → inReset s p = false → pstate s p = 2 → rf (p2Exit s p m) F.PWR_EVENT_P2_DONE 0 = 1) ∧
  (∀ (s : State) (reason p : Nat), rf (p2Refuse s reason p) F.PWR_INFO_REASON 0 = reason % 16 ∧ rf (p2Refuse s reason p) F.PWR_EVENT_P2_REFUSED 0 = 1) ∧
  (∀ s : State, lands s .mgmt .pwr 0 0x18 1 [0] →
    (rb s F.HUB_JOB_STATUS_ACTIVE 0 = true → exec (.p3Enter .mgmt) s = .next (p2Refuse s 6 0)) ∧
    (rb s F.HUB_JOB_STATUS_ACTIVE 0 = false → ∃ t, exec (.p3Enter .mgmt) s = .next t ∧ t.power.inP3 = true ∧ t.power.root = false ∧
      t.power.enMain = false ∧ t.time.now = s.time.now ∧ t.cores = [] ∧ t.parts = [])) ∧
  (∀ (c : Instr) (s : State), c = .p3Wake ∨ c = .i3cWake → (s.power.inP3 = false → exec c s = .next s) ∧
    (s.power.inP3 = true → ∃ t, exec c s = .next t ∧ t.power.inP3 = false ∧ t.power.enMain = true ∧ t.power.root = s.power.root)) ∧
  (∀ (a : Nat) (s : State), a < 128 → s.power.supplied = true →
    exec (.i3cDynamicAddress a) s = .next { s with power := { s.power with i3cAddr := some a } })

/-- R429, R430 and R432: STORE, READ and ERASE start where no command runs and the requester may; their end switches the record: a store puts it
and counts wear, a read copies it to the buffer and gives its length, an erase removes it; an absent key gives RESULT 2. A busy store gives
1, a key that the requester may not write 4, a bad length 5, a missing authorisation 6, a worn key 7 and a full area 3. The routing table
goes into its record when it is due. -/
def Obligations.SettingsAreKept : Prop :=
  (∀ (req : Requester) (s : State), lands s req .set 0 0 1 [0] → setAllowed s req 1 = true →
    let k := setKey s
    let n := setLen s
    let u := if req = .mgmt then grantUse s else s
    (s.settings.busy ≠ 0 → exec (.settingsStore req) s = .next (setFail s 1)) ∧
    (s.settings.busy = 0 → keyWritable req k = false → exec (.settingsStore req) s = .next (setFail u 4)) ∧
    (s.settings.busy = 0 → keyWritable req k = true → n = 0 ∨ 16384 < n ∨ n % 8 ≠ 0 → exec (.settingsStore req) s = .next (setFail u 5)) ∧
    (s.settings.busy = 0 → keyWritable req k = true → 0 < n → n ≤ 16384 → n % 8 = 0 →
      (10 ^ 6 ≤ (aget u.settings.wear k).getD 0 → exec (.settingsStore req) s = .next (setFail u 7)) ∧
      ((aget u.settings.wear k).getD 0 < 10 ^ 6 → settingsFree u < n + 64 → exec (.settingsStore req) s = .next (setFail u 3)) ∧
      ((aget u.settings.wear k).getD 0 < 10 ^ 6 → n + 64 ≤ settingsFree u → exec (.settingsStore req) s =
        .next { u with settings := { u.settings with busy := 1, key := setKey u, data := setData u } }))) ∧
  (∀ (req : Requester) (s : State), lands s req .set 0 0 2 [0] →
    (s.settings.busy ≠ 0 → exec (.settingsRead req) s = .next (setFail s 1)) ∧
    (s.settings.busy = 0 → exec (.settingsRead req) s = .next { s with settings := { s.settings with busy := 2, key := setKey s, data := [] } })) ∧
  (∀ (req : Requester) (s : State), lands s req .set 0 0 4 [0] → setAllowed s req 4 = true →
    let u := if req = .mgmt then grantUse s else s
    (s.settings.busy ≠ 0 → exec (.settingsErase req) s = .next (setFail s 1)) ∧
    (s.settings.busy = 0 → keyWritable req (setKey u) = false → exec (.settingsErase req) s = .next (setFail u 4)) ∧
    (s.settings.busy = 0 → keyWritable req (setKey u) = true → exec (.settingsErase req) s =
      .next { u with settings := { u.settings with busy := 3, key := setKey u, data := [] } })) ∧
  (∀ (c : Instr) (v : Word) (s : State), (c, v) ∈ [(Instr.settingsStore .mgmt, (1 : Word)), (.settingsErase .mgmt, 4)] → hubUp s = true →
    setAllowed s .mgmt v = false → exec c s = .next (setFail (accFault s 7 Requester.mgmt.id (winOff .set 0 0)) 6)) ∧
  (∀ s : State, s.settings.busy = 0 → exec .settingsDone s = .next s) ∧
  (∀ s : State, s.settings.busy = 1 → ∃ t, exec .settingsDone s = .next t ∧ t.settings.busy = 0 ∧ rf t F.SET_EVENT_DONE 0 = 1 ∧
    t.settings.records = aput s.settings.records s.settings.key s.settings.data ∧
    t.settings.wear = aput s.settings.wear s.settings.key ((aget s.settings.wear s.settings.key).getD 0 + 1)) ∧
  (∀ (d : List Byte) (s : State), s.settings.busy = 2 → aget s.settings.records s.settings.key = some d → ∃ t, exec .settingsDone s = .next t ∧
    t.settings.busy = 0 ∧ t.settings.buf = mwrN s.settings.buf 0 d ∧ setLen t = d.length % 2 ^ 15 ∧ t.settings.records = s.settings.records) ∧
  (∀ (d : List Byte) (s : State), s.settings.busy = 3 → aget s.settings.records s.settings.key = some d → ∃ t, exec .settingsDone s = .next t ∧
    t.settings.busy = 0 ∧ t.settings.records = adel s.settings.records s.settings.key) ∧
  (∀ s : State, s.settings.busy = 2 ∨ s.settings.busy = 3 → aget s.settings.records s.settings.key = none → ∃ t, exec .settingsDone s = .next t ∧
    t.settings = { s.settings with busy := 0, data := [] } ∧ rf t F.SET_STATUS_RESULT 0 = 2 ∧ rf t F.SET_EVENT_FAIL 0 = 1) ∧
  (∀ s : State, s.settings.routeDue = false → exec .routingRecordStore s = .next s) ∧
  (∀ s : State, s.settings.routeDue = true → hubUp s = true → ∃ u, u = settingsPut s 2 (routeRecord s) ∧
    exec .routingRecordStore s = .next { u with settings := { u.settings with routeDue := false } })

/-- R442, R444, R445, R447 and R450 to R452: an image that verifies goes into the inactive slot of its type, and another is refused with its
reason; an operator key's envelope installs it only while none is installed; a grant expires; a report is taken for the host at an address
of device memory or for the management layer, one at a time, and its end writes or sends it signed. -/
def Obligations.SecurityActs : Prop :=
  (∀ (l : List Byte) (s : State), islandUp s = true →
    (imageReason s [1, 2] l ≠ 0 → ∃ t, exec (.imageLoad l) s = .next t ∧ t = secEvent s F.SEC_EVENT_IMAGE_REFUSED (imageReason s [1, 2] l) ∧
      t.sec = s.sec ∧ rf t F.SEC_EVENT_IMAGE_REFUSED 0 = 1) ∧
    (imageReason s [1, 2] l = 0 → (imageOf l).type = 1 → ∃ t, exec (.imageLoad l) s = .next t ∧ rf t F.SEC_EVENT_IMAGE_LOADED 0 = 1 ∧
      t.sec = { s.sec with images := s.sec.images.set (1 - s.sec.hubSlot) (some (imageOf l)), hubNew := true }) ∧
    (imageReason s [1, 2] l = 0 → (imageOf l).type ≠ 1 → ∃ t, exec (.imageLoad l) s = .next t ∧ rf t F.SEC_EVENT_IMAGE_LOADED 0 = 1 ∧
      t.sec = { s.sec with images := s.sec.images.set (3 - s.sec.coreSlot) (some (imageOf l)), coreNew := true })) ∧
  (∀ (l : List Byte) (s : State), hubUp s = true →
    (imageReason s [3] l ≠ 0 → exec (.operatorKeyEnvelope l) s = .next (secEvent s F.SEC_EVENT_IMAGE_REFUSED (imageReason s [3] l))) ∧
    (imageReason s [3] l = 0 → (∃ k ∈ s.sec.opKeys, k ≠ []) → exec (.operatorKeyEnvelope l) s = .next (secEvent s F.SEC_EVENT_IMAGE_REFUSED 11)) ∧
    (imageReason s [3] l = 0 → (∀ k ∈ s.sec.opKeys, k = []) → imageLen l = 1953 → fieldLE 1952 1 (imageBody l) < 2 →
      exec (.operatorKeyEnvelope l) s = .next { s with sec := { s.sec with
        opKeys := s.sec.opKeys.set (fieldLE 1952 1 (imageBody l)) ((imageBody l).take 1952) } })) ∧
  (∀ s : State, (s.sec.grant = none → exec .grantExpiry s = .next s) ∧
    (∀ g, s.sec.grant = some g → s.time.now < g.expires → exec .grantExpiry s = .next s) ∧
    (∀ g, s.sec.grant = some g → g.expires ≤ s.time.now → exec .grantExpiry s = .next { s with sec := { s.sec with grant := none } })) ∧
  (∀ (nonce : List Byte) (s : State), islandUp s = true →
    (s.sec.attest ≠ none → exec (.attestRequest nonce) s = .next (secEvent s F.SEC_EVENT_ATTEST_REFUSED 12)) ∧
    (s.sec.attest = none → ∃ u, u = { s with sec := { s.sec with attest := some ⟨none, nonce, none⟩ } } ∧
      exec (.attestRequest nonce) s = .next (attestCapture u))) ∧
  (∀ (req : Requester) (s : State), lands s req .sec 0 0x10 1 [0] →
    let a := rf2 s F.SEC_ATTEST_ADDR_LO_ADDR F.SEC_ATTEST_ADDR_HI_ADDR 0
    (s.sec.attest ≠ none → exec (.secAttestGo req) s = .next (secEvent s F.SEC_EVENT_ATTEST_REFUSED 12)) ∧
    (s.sec.attest = none → reportFits s a = false → exec (.secAttestGo req) s = .next (secEvent s F.SEC_EVENT_ATTEST_REFUSED 13)) ∧
    (s.sec.attest = none → reportFits s a = true → ∃ u, u = { s with sec := { s.sec with
        attest := some ⟨some a, (List.range 8).flatMap (fun n => toLE 4 (rf s (F.SEC_NONCE_NONCE.nth n) 0)), none⟩ } } ∧
      exec (.secAttestGo req) s = .next (attestCapture u))) ∧
  (∀ (nonce body : List Byte) (s : State), s.sec.attest = some ⟨none, nonce, some body⟩ →
    ∃ t, exec .attestDone s = .next t ∧ t.sec = { s.sec with attest := none, reports := s.sec.reports ++ [signedReport body] } ∧ t.regs = s.regs) ∧
  (∀ (a : Nat) (nonce body : List Byte) (s : State), s.sec.attest = some ⟨some a, nonce, some body⟩ →
    ∃ u, u = { s with sec := { s.sec with attest := none } } ∧ exec .attestDone s = .next (ev (hubWrite u a (signedReport body)) F.SEC_EVENT_ATTEST_DONE 0))
end

