-- ==== Sys2Proof/Laws/Store.lean ====
section
/-! SUPPORT. Laws of the sparse stores: a read after a write, and that every write keeps the canonical form. -/

namespace Sys2Proof.Laws

open Sys2Proof.Machine

variable {α : Type}

/-! ### Entries -/

theorem adel_cons (k : Nat) (v : α) (t : List (Nat × α)) (x : Nat) :
    adel ((k, v) :: t) x = if k = x then adel t x else (k, v) :: adel t x := by
  unfold adel; by_cases h : k = x <;> simp [h]

theorem sget_adel_same (d : Nat → α) (l : List (Nat × α)) (x : Nat) : sget d (adel l x) x = d x := by
  induction l with
  | nil => rfl
  | cons e t ih => rw [adel_cons]; split <;> grind [sget]

theorem sget_adel_ne (d : Nat → α) (l : List (Nat × α)) {x y : Nat} (h : y ≠ x) : sget d (adel l x) y = sget d l y := by
  induction l with
  | nil => rfl
  | cons e t ih => rw [adel_cons]; split <;> grind [sget]

theorem sget_sins_ne (d : Nat → α) (l : List (Nat × α)) (v : α) {x y : Nat} (h : y ≠ x) : sget d (sins l x v) y = sget d l y := by
  induction l with
  | nil => simp [sins, sget, h]
  | cons e t ih => grind [sins, sget]

theorem sget_sins_adel (d : Nat → α) (l : List (Nat × α)) (x : Nat) (v : α) : sget d (sins (adel l x) x v) x = v := by
  induction l with
  | nil => simp [adel, sins, sget]
  | cons e t ih => rw [adel_cons]; split <;> grind [sins, sget]

/-- A read of the key just written gives the value written. -/
@[simp] theorem sget_sput_same [DecidableEq α] (d : Nat → α) (l : List (Nat × α)) (x : Nat) (v : α) : sget d (sput d l x v) x = v := by
  unfold sput; split
  · rename_i h; rw [sget_adel_same, h]
  · exact sget_sins_adel d l x v

/-- A write leaves every other key alone. -/
theorem sget_sput_ne [DecidableEq α] (d : Nat → α) (l : List (Nat × α)) (v : α) {x y : Nat} (h : y ≠ x) :
    sget d (sput d l x v) y = sget d l y := by
  unfold sput; split
  · exact sget_adel_ne d l h
  · rw [sget_sins_ne d _ v h, sget_adel_ne d l h]

theorem sget_sput [DecidableEq α] (d : Nat → α) (l : List (Nat × α)) (x y : Nat) (v : α) :
    sget d (sput d l x v) y = if y = x then v else sget d l y := by
  split
  · subst_vars; exact sget_sput_same d l y v
  · exact sget_sput_ne d l v ‹_›

/-- Optional entries: a read of the key just entered. -/
@[simp] theorem aget_aput_same (l : List (Nat × α)) (x : Nat) (v : α) : aget (aput l x v) x = some v := by
  unfold aput
  induction l with
  | nil => simp [adel, sins, aget]
  | cons e t ih => rw [adel_cons]; split <;> grind [sins, aget]

theorem aget_sins_ne (l : List (Nat × α)) (v : α) {x y : Nat} (h : y ≠ x) : aget (sins l x v) y = aget l y := by
  induction l with
  | nil => simp [sins, aget, h]
  | cons e t ih => grind [sins, aget]

theorem aget_adel_ne (l : List (Nat × α)) {x y : Nat} (h : y ≠ x) : aget (adel l x) y = aget l y := by
  induction l with
  | nil => rfl
  | cons e t ih => rw [adel_cons]; split <;> grind [aget]

/-- Entering a key leaves every other key alone. -/
theorem aget_aput_ne (l : List (Nat × α)) (v : α) {x y : Nat} (h : y ≠ x) : aget (aput l x v) y = aget l y := by
  unfold aput; rw [aget_sins_ne _ v h, aget_adel_ne _ h]

@[simp] theorem aget_adel_same (l : List (Nat × α)) (x : Nat) : aget (adel l x) x = none := by
  induction l with
  | nil => rfl
  | cons e t ih => rw [adel_cons]; split <;> grind [aget]

/-! ### The canonical form -/

theorem swfFrom_mono [DecidableEq α] (d : Nat → α) {l : List (Nat × α)} {a b : Nat} (h : b ≤ a) (w : swfFrom d a l = true) :
    swfFrom d b l = true := by
  cases l with
  | nil => rfl
  | cons e t => obtain ⟨k, v⟩ := e; simp [swfFrom] at *; exact ⟨⟨by omega, w.1.2⟩, w.2⟩

theorem swfFrom_filter [DecidableEq α] (d : Nat → α) (p : Nat × α → Bool) {l : List (Nat × α)} {a : Nat} (w : swfFrom d a l = true) :
    swfFrom d a (l.filter p) = true := by
  induction l generalizing a with
  | nil => rfl
  | cons e t ih =>
    obtain ⟨k, v⟩ := e
    simp [swfFrom] at w
    by_cases hp : p (k, v) = true
    · simp [List.filter, hp, swfFrom, w.1.1, w.1.2, ih w.2]
    · simp only [List.filter, hp]
      exact swfFrom_mono d (by omega) (ih w.2)

theorem swfFrom_sins [DecidableEq α] (d : Nat → α) {l : List (Nat × α)} {a x : Nat} {v : α} (w : swfFrom d a l = true)
    (n : ∀ e ∈ l, e.1 ≠ x) (h : a ≤ x) (hv : v ≠ d x) : swfFrom d a (sins l x v) = true := by
  induction l generalizing a with
  | nil => simp [sins, swfFrom, h, hv]
  | cons e t ih =>
    obtain ⟨k, u⟩ := e
    simp [swfFrom] at w
    have hk : k ≠ x := n (k, u) (by simp)
    unfold sins; split
    · simp [swfFrom, h, hv, w.1.2, w.2]; omega
    · have := ih (a := k + 1) w.2 (fun e he => n e (by simp [he])) (by omega)
      simp [swfFrom, w.1.1, w.1.2, this]

theorem swf_adel [DecidableEq α] (d : Nat → α) {l : List (Nat × α)} (w : swf d l = true) (x : Nat) : swf d (adel l x) = true :=
  swfFrom_filter d _ w

/-- A write keeps the canonical form. -/
theorem swf_sput [DecidableEq α] (d : Nat → α) {l : List (Nat × α)} (w : swf d l = true) (x : Nat) (v : α) :
    swf d (sput d l x v) = true := by
  unfold sput; split
  · exact swf_adel d w x
  · refine swfFrom_sins d (swf_adel d w x) ?_ (by omega) ‹_›
    intro e he; simp [adel] at he; exact he.2

/-! ### Byte memories -/

/-- A byte just written reads back. -/
@[simp] theorem mrd_mwr_same (m : List (Nat × Byte)) (a : Nat) (v : Byte) : mrd (mwr m a v) a = v := sget_sput_same _ _ _ _

/-- Writing a byte leaves every other byte alone. -/
theorem mrd_mwr_ne (m : List (Nat × Byte)) (v : Byte) {a b : Nat} (h : b ≠ a) : mrd (mwr m a v) b = mrd m b := sget_sput_ne _ _ _ h

/-- A byte of a memory after a write of a run of bytes. -/
theorem mrd_mwrN (m : List (Nat × Byte)) (a b : Nat) (l : List Byte) :
    mrd (mwrN m a l) b = if a ≤ b ∧ b < a + l.length then l.getD (b - a) 0 else mrd m b := by
  induction l generalizing m a with
  | nil => simp [mwrN] <;> omega
  | cons x t ih =>
    rw [mwrN, ih]
    by_cases hab : b = a
    · subst hab
      have h0 : ¬ (b + 1 ≤ b ∧ b < b + 1 + t.length) := by omega
      have h1 : b ≤ b ∧ b < b + (x :: t).length := by simp
      rw [if_neg h0, if_pos h1]; simp
    · rw [mrd_mwr_ne m x hab]
      by_cases h : a + 1 ≤ b ∧ b < a + 1 + t.length
      · have h1 : a ≤ b ∧ b < a + (x :: t).length := by simp; omega
        rw [if_pos h, if_pos h1, show b - a = (b - (a + 1)) + 1 by omega]; simp
      · have h1 : ¬ (a ≤ b ∧ b < a + (x :: t).length) := by simp; omega
        rw [if_neg h, if_neg h1]

/-- Clearing a range makes its bytes read as unwritten and leaves the rest alone. -/
theorem mrd_mclear (m : List (Nat × Byte)) (a n b : Nat) :
    mrd (mclear m a n) b = if a ≤ b ∧ b < a + n then 0 else mrd m b := by
  unfold mclear mrd
  induction m with
  | nil => simp [sget, blank]
  | cons e t ih =>
    obtain ⟨k, v⟩ := e
    simp only [List.filter]
    split <;> grind [sget]

/-- Every operation on a memory keeps its canonical form. -/
theorem wf_mwr {m : List (Nat × Byte)} (w : Memory.wf m = true) (a : Nat) (v : Byte) : Memory.wf (mwr m a v) = true := swf_sput _ w a v

theorem wf_mwrN {m : List (Nat × Byte)} (w : Memory.wf m = true) (a : Nat) (l : List Byte) : Memory.wf (mwrN m a l) = true := by
  induction l generalizing m a with
  | nil => exact w
  | cons x t ih => exact ih (wf_mwr w a x) (a + 1)

theorem wf_mclear {m : List (Nat × Byte)} (w : Memory.wf m = true) (a n : Nat) : Memory.wf (mclear m a n) = true :=
  swfFrom_filter _ _ w

end Sys2Proof.Laws
end

