-- ==== Sys2Proof/Laws/Regs.lean ====
section
/-! SUPPORT. Laws of bit fields and of the register file: a read of a field after a write. -/

namespace Sys2Proof.Laws

open Sys2Proof.Machine

/-! ### Bit fields -/

theorem testBit_bits (hi lo n i : Nat) : (bits hi lo n).testBit i = (decide (i < hi + 1 - lo) && n.testBit (lo + i)) := by
  simp [bits, Nat.testBit_mod_two_pow, Nat.testBit_shiftRight]

theorem testBit_putBits (hi lo v n i : Nat) (h : lo ≤ hi) :
    (putBits hi lo v n).testBit i = if i < lo then n.testBit i else if i ≤ hi then v.testBit (i - lo) else n.testBit i := by
  unfold putBits
  have h1 : n % 2 ^ lo + v % 2 ^ (hi + 1 - lo) * 2 ^ lo + (n >>> (hi + 1)) * 2 ^ (hi + 1) =
      2 ^ (hi + 1) * (n >>> (hi + 1)) + (2 ^ lo * (v % 2 ^ (hi + 1 - lo)) + n % 2 ^ lo) := by
    rw [Nat.mul_comm (n >>> (hi + 1)), Nat.mul_comm (v % _)]; omega
  have h2 : 2 ^ lo * (v % 2 ^ (hi + 1 - lo)) + n % 2 ^ lo < 2 ^ (hi + 1) := by
    have a : v % 2 ^ (hi + 1 - lo) + 1 ≤ 2 ^ (hi + 1 - lo) := Nat.mod_lt _ (Nat.two_pow_pos _)
    have b : n % 2 ^ lo < 2 ^ lo := Nat.mod_lt _ (Nat.two_pow_pos _)
    have c : 2 ^ lo * (v % 2 ^ (hi + 1 - lo) + 1) ≤ 2 ^ lo * 2 ^ (hi + 1 - lo) := Nat.mul_le_mul_left _ a
    rw [← Nat.pow_add, show lo + (hi + 1 - lo) = hi + 1 by omega, Nat.mul_add] at c
    omega
  rw [h1, Nat.testBit_two_pow_mul_add _ h2]
  split
  · rw [Nat.testBit_two_pow_mul_add _ (Nat.mod_lt _ (Nat.two_pow_pos _))]
    split
    · simp [Nat.testBit_mod_two_pow, *]
    · have : i - lo < hi + 1 - lo := by omega
      have h3 : i ≤ hi := by omega
      simp [Nat.testBit_mod_two_pow, this, h3]
  · have : ¬ i < lo := by omega
    have h4 : ¬ i ≤ hi := by omega
    rw [if_neg this, if_neg h4, Nat.testBit_shiftRight, show hi + 1 + (i - (hi + 1)) = i by omega]

/-- The field just put reads back, cut to its width. -/
theorem bits_putBits_same (hi lo v n : Nat) (h : lo ≤ hi) : bits hi lo (putBits hi lo v n) = v % 2 ^ (hi + 1 - lo) := by
  apply Nat.eq_of_testBit_eq; intro i
  rw [testBit_bits, testBit_putBits _ _ _ _ _ h, Nat.testBit_mod_two_pow]
  have h1 : ¬ lo + i < lo := by omega
  rw [if_neg h1]
  by_cases h2 : i < hi + 1 - lo
  · have h3 : lo + i ≤ hi := by omega
    simp [h2, h3, show lo + i - lo = i by omega]
  · simp [h2]

/-- Putting a field leaves the fields beside it alone. -/
theorem bits_putBits_disj (hi lo a b v n : Nat) (h : lo ≤ hi) (d : a < lo ∨ hi < b) : bits a b (putBits hi lo v n) = bits a b n := by
  apply Nat.eq_of_testBit_eq; intro i
  rw [testBit_bits, testBit_bits, testBit_putBits _ _ _ _ _ h]
  by_cases h1 : i < a + 1 - b
  · by_cases h2 : b + i < lo
    · simp [h2]
    · have h3 : ¬ b + i ≤ hi := by omega
      simp [h2, h3]
  · simp [h1]

theorem bits_mod (hi lo n w : Nat) (h : hi < w) : bits hi lo (n % 2 ^ w) = bits hi lo n := by
  apply Nat.eq_of_testBit_eq; intro i
  rw [testBit_bits, testBit_bits, Nat.testBit_mod_two_pow]
  by_cases h1 : i < hi + 1 - lo
  · have : lo + i < w := by omega
    simp [this]
  · simp [h1]

theorem wbits_wput_same (hi lo v : Nat) (w : Word) (h : lo ≤ hi) (h32 : hi < 32) : wbits hi lo (wput hi lo v w) = v % 2 ^ (hi + 1 - lo) := by
  simp only [wbits, wput, BitVec.toNat_ofNat]; rw [bits_mod _ _ _ _ h32, bits_putBits_same _ _ _ _ h]

theorem wbits_wput_disj (hi lo a b v : Nat) (w : Word) (h : lo ≤ hi) (h32 : a < 32) (d : a < lo ∨ hi < b) :
    wbits a b (wput hi lo v w) = wbits a b w := by
  simp only [wbits, wput, BitVec.toNat_ofNat]; rw [bits_mod _ _ _ _ h32, bits_putBits_disj _ _ _ _ _ _ h d]

/-- A field is below two to its width. -/
theorem bits_lt (hi lo n : Nat) : bits hi lo n < 2 ^ (hi + 1 - lo) := Nat.mod_lt _ (Nat.two_pow_pos _)

/-! ### The register file -/

theorem voteFold_skip (k : Nat) (l : List (Nat × Copies)) (h : ∀ e ∈ l, e.1 / 32 ≠ k) (f : Word → Nat × Copies → Word) (w : Word) :
    l.foldl (fun w e => if e.1 / 32 = k then f w e else w) w = w := by
  induction l generalizing w with
  | nil => rfl
  | cons e t ih =>
    have h1 : e.1 / 32 ≠ k := h e (by simp)
    simp only [List.foldl, if_neg h1]
    exact ih (fun e he => h e (by simp [he])) w

/-- A register just written reads back whole, all its copies agreeing. -/
@[simp] theorem regLive_regPut_same (s : State) (k : Nat) (w : Word) : regLive (regPut s k w) k = w := by
  unfold regLive regPut
  rw [voteFold_skip k _ (by intro e he; simp at he; exact he.2)]
  simp

theorem voteFold_filter (k j : Nat) (h : j ≠ k) (l : List (Nat × Copies)) (f : Word → Nat × Copies → Word) (w : Word) :
    (l.filter (fun e => e.1 / 32 != k)).foldl (fun w e => if e.1 / 32 = j then f w e else w) w =
      l.foldl (fun w e => if e.1 / 32 = j then f w e else w) w := by
  induction l generalizing w with
  | nil => rfl
  | cons e t ih =>
    by_cases hk : e.1 / 32 = k
    · have : ¬ e.1 / 32 = j := by omega
      simp [hk, ih, Ne.symm h]
    · simp [hk, ih]

/-- Writing a register leaves every other register alone. -/
theorem regLive_regPut_ne (s : State) (w : Word) {k j : Nat} (h : j ≠ k) : regLive (regPut s k w) j = regLive s j := by
  unfold regLive regPut
  rw [voteFold_filter k j h, sget_sput_ne _ _ _ h]

/-- A field just written reads back, cut to its width. -/
theorem rf_wf_same (s : State) (f : Fld) (i v : Nat) (h : f.lo ≤ f.hi) (h32 : f.hi < 32) : rf (wf s f i v) f i = v % 2 ^ (f.hi + 1 - f.lo) := by
  unfold rf wf; rw [regLive_regPut_same, wbits_wput_same _ _ _ _ h h32]

/-- Writing a field leaves the fields of other registers alone. -/
theorem rf_wf_ne (s : State) (f g : Fld) (i j v : Nat) (h : g.key j ≠ f.key i) : rf (wf s f i v) g j = rf s g j := by
  unfold rf wf; rw [regLive_regPut_ne _ _ h]

/-- Writing a field leaves the other fields of its register alone. -/
theorem rf_wf_disj (s : State) (f g : Fld) (i j v : Nat) (k : g.key j = f.key i) (h : f.lo ≤ f.hi) (h32 : g.hi < 32)
    (d : g.hi < f.lo ∨ f.hi < g.lo) : rf (wf s f i v) g j = rf s g j := by
  unfold rf wf; rw [k, regLive_regPut_same, wbits_wput_disj _ _ _ _ _ _ h h32 d]

/-- Writing a field leaves a register other than its own alone. -/
theorem regLive_wf_ne (s : State) (f : Fld) (i v k : Nat) (h : k ≠ f.key i) : regLive (wf s f i v) k = regLive s k :=
  regLive_regPut_ne _ _ h

end Sys2Proof.Laws
end

