-- ==== Sys2Proof/Laws/State.lean ====
section
/-! SUPPORT. What each named update leaves as it was, field by field, so that no proof unfolds an update of the state. -/

namespace Sys2Proof.Laws

open Sys2Proof.Machine

@[simp] theorem regPut_rest (s : State) (k : Nat) (w : Word) :
    (regPut s k w).pend = s.pend ∧ (regPut s k w).shadow = s.shadow ∧ (regPut s k w).holding = s.holding ∧ (regPut s k w).strobes = s.strobes ∧ (regPut s k w).heldWrites = s.heldWrites ∧ (regPut s k w).seqTicked = s.seqTicked ∧ (regPut s k w).answers = s.answers ∧ (regPut s k w).replies = s.replies ∧ (regPut s k w).time = s.time ∧ (regPut s k w).ledger = s.ledger ∧ (regPut s k w).fh = s.fh ∧ (regPut s k w).ist = s.ist ∧ (regPut s k w).cores = s.cores ∧ (regPut s k w).parts = s.parts ∧ (regPut s k w).signals = s.signals ∧ (regPut s k w).host = s.host ∧ (regPut s k w).fab = s.fab ∧ (regPut s k w).sr = s.sr ∧ (regPut s k w).ckp = s.ckp ∧ (regPut s k w).power = s.power ∧ (regPut s k w).settings = s.settings ∧ (regPut s k w).sec = s.sec ∧ (regPut s k w).waybill = s.waybill ∧ (regPut s k w).mesh = s.mesh ∧ (regPut s k w).free = s.free ∧ (regPut s k w).pending = s.pending :=
  ⟨rfl, rfl, rfl, rfl, rfl, rfl, rfl, rfl, rfl, rfl, rfl, rfl, rfl, rfl, rfl, rfl, rfl, rfl, rfl, rfl, rfl, rfl, rfl, rfl, rfl, rfl⟩

@[simp] theorem wf_rest (s : State) (f : Fld) (i v : Nat) :
    (wf s f i v).pend = s.pend ∧ (wf s f i v).shadow = s.shadow ∧ (wf s f i v).holding = s.holding ∧ (wf s f i v).strobes = s.strobes ∧ (wf s f i v).heldWrites = s.heldWrites ∧ (wf s f i v).seqTicked = s.seqTicked ∧ (wf s f i v).answers = s.answers ∧ (wf s f i v).replies = s.replies ∧ (wf s f i v).time = s.time ∧ (wf s f i v).ledger = s.ledger ∧ (wf s f i v).fh = s.fh ∧ (wf s f i v).ist = s.ist ∧ (wf s f i v).cores = s.cores ∧ (wf s f i v).parts = s.parts ∧ (wf s f i v).signals = s.signals ∧ (wf s f i v).host = s.host ∧ (wf s f i v).fab = s.fab ∧ (wf s f i v).sr = s.sr ∧ (wf s f i v).ckp = s.ckp ∧ (wf s f i v).power = s.power ∧ (wf s f i v).settings = s.settings ∧ (wf s f i v).sec = s.sec ∧ (wf s f i v).waybill = s.waybill ∧ (wf s f i v).mesh = s.mesh ∧ (wf s f i v).free = s.free ∧ (wf s f i v).pending = s.pending :=
  ⟨rfl, rfl, rfl, rfl, rfl, rfl, rfl, rfl, rfl, rfl, rfl, rfl, rfl, rfl, rfl, rfl, rfl, rfl, rfl, rfl, rfl, rfl, rfl, rfl, rfl, rfl⟩

@[simp] theorem wf2_rest (s : State) (lo hi : Fld) (i v : Nat) :
    (wf2 s lo hi i v).pend = s.pend ∧ (wf2 s lo hi i v).shadow = s.shadow ∧ (wf2 s lo hi i v).holding = s.holding ∧ (wf2 s lo hi i v).strobes = s.strobes ∧ (wf2 s lo hi i v).heldWrites = s.heldWrites ∧ (wf2 s lo hi i v).seqTicked = s.seqTicked ∧ (wf2 s lo hi i v).answers = s.answers ∧ (wf2 s lo hi i v).replies = s.replies ∧ (wf2 s lo hi i v).time = s.time ∧ (wf2 s lo hi i v).ledger = s.ledger ∧ (wf2 s lo hi i v).fh = s.fh ∧ (wf2 s lo hi i v).ist = s.ist ∧ (wf2 s lo hi i v).cores = s.cores ∧ (wf2 s lo hi i v).parts = s.parts ∧ (wf2 s lo hi i v).signals = s.signals ∧ (wf2 s lo hi i v).host = s.host ∧ (wf2 s lo hi i v).fab = s.fab ∧ (wf2 s lo hi i v).sr = s.sr ∧ (wf2 s lo hi i v).ckp = s.ckp ∧ (wf2 s lo hi i v).power = s.power ∧ (wf2 s lo hi i v).settings = s.settings ∧ (wf2 s lo hi i v).sec = s.sec ∧ (wf2 s lo hi i v).waybill = s.waybill ∧ (wf2 s lo hi i v).mesh = s.mesh ∧ (wf2 s lo hi i v).free = s.free ∧ (wf2 s lo hi i v).pending = s.pending :=
  ⟨rfl, rfl, rfl, rfl, rfl, rfl, rfl, rfl, rfl, rfl, rfl, rfl, rfl, rfl, rfl, rfl, rfl, rfl, rfl, rfl, rfl, rfl, rfl, rfl, rfl, rfl⟩

@[simp] theorem fresh_rest (s : State) :
    ((fresh s).2).regs = s.regs ∧ ((fresh s).2).pend = s.pend ∧ ((fresh s).2).tmr = s.tmr ∧ ((fresh s).2).shadow = s.shadow ∧ ((fresh s).2).holding = s.holding ∧ ((fresh s).2).strobes = s.strobes ∧ ((fresh s).2).heldWrites = s.heldWrites ∧ ((fresh s).2).seqTicked = s.seqTicked ∧ ((fresh s).2).answers = s.answers ∧ ((fresh s).2).replies = s.replies ∧ ((fresh s).2).time = s.time ∧ ((fresh s).2).ledger = s.ledger ∧ ((fresh s).2).fh = s.fh ∧ ((fresh s).2).ist = s.ist ∧ ((fresh s).2).cores = s.cores ∧ ((fresh s).2).parts = s.parts ∧ ((fresh s).2).signals = s.signals ∧ ((fresh s).2).host = s.host ∧ ((fresh s).2).fab = s.fab ∧ ((fresh s).2).sr = s.sr ∧ ((fresh s).2).ckp = s.ckp ∧ ((fresh s).2).power = s.power ∧ ((fresh s).2).settings = s.settings ∧ ((fresh s).2).sec = s.sec ∧ ((fresh s).2).waybill = s.waybill ∧ ((fresh s).2).mesh = s.mesh ∧ ((fresh s).2).pending = s.pending :=
  ⟨rfl, rfl, rfl, rfl, rfl, rfl, rfl, rfl, rfl, rfl, rfl, rfl, rfl, rfl, rfl, rfl, rfl, rfl, rfl, rfl, rfl, rfl, rfl, rfl, rfl, rfl, rfl⟩

@[simp] theorem setCore_rest (s : State) (g : Nat) (c : CoreSt) :
    (setCore s g c).regs = s.regs ∧ (setCore s g c).pend = s.pend ∧ (setCore s g c).tmr = s.tmr ∧ (setCore s g c).shadow = s.shadow ∧ (setCore s g c).holding = s.holding ∧ (setCore s g c).strobes = s.strobes ∧ (setCore s g c).heldWrites = s.heldWrites ∧ (setCore s g c).seqTicked = s.seqTicked ∧ (setCore s g c).answers = s.answers ∧ (setCore s g c).replies = s.replies ∧ (setCore s g c).time = s.time ∧ (setCore s g c).ledger = s.ledger ∧ (setCore s g c).fh = s.fh ∧ (setCore s g c).ist = s.ist ∧ (setCore s g c).parts = s.parts ∧ (setCore s g c).signals = s.signals ∧ (setCore s g c).host = s.host ∧ (setCore s g c).fab = s.fab ∧ (setCore s g c).sr = s.sr ∧ (setCore s g c).ckp = s.ckp ∧ (setCore s g c).power = s.power ∧ (setCore s g c).settings = s.settings ∧ (setCore s g c).sec = s.sec ∧ (setCore s g c).waybill = s.waybill ∧ (setCore s g c).mesh = s.mesh ∧ (setCore s g c).free = s.free ∧ (setCore s g c).pending = s.pending :=
  ⟨rfl, rfl, rfl, rfl, rfl, rfl, rfl, rfl, rfl, rfl, rfl, rfl, rfl, rfl, rfl, rfl, rfl, rfl, rfl, rfl, rfl, rfl, rfl, rfl, rfl, rfl, rfl⟩

@[simp] theorem setPart_rest (s : State) (p : Nat) (d : PartSt) :
    (setPart s p d).regs = s.regs ∧ (setPart s p d).pend = s.pend ∧ (setPart s p d).tmr = s.tmr ∧ (setPart s p d).shadow = s.shadow ∧ (setPart s p d).holding = s.holding ∧ (setPart s p d).strobes = s.strobes ∧ (setPart s p d).heldWrites = s.heldWrites ∧ (setPart s p d).seqTicked = s.seqTicked ∧ (setPart s p d).answers = s.answers ∧ (setPart s p d).replies = s.replies ∧ (setPart s p d).time = s.time ∧ (setPart s p d).ledger = s.ledger ∧ (setPart s p d).fh = s.fh ∧ (setPart s p d).ist = s.ist ∧ (setPart s p d).cores = s.cores ∧ (setPart s p d).signals = s.signals ∧ (setPart s p d).host = s.host ∧ (setPart s p d).fab = s.fab ∧ (setPart s p d).sr = s.sr ∧ (setPart s p d).ckp = s.ckp ∧ (setPart s p d).power = s.power ∧ (setPart s p d).settings = s.settings ∧ (setPart s p d).sec = s.sec ∧ (setPart s p d).waybill = s.waybill ∧ (setPart s p d).mesh = s.mesh ∧ (setPart s p d).free = s.free ∧ (setPart s p d).pending = s.pending :=
  ⟨rfl, rfl, rfl, rfl, rfl, rfl, rfl, rfl, rfl, rfl, rfl, rfl, rfl, rfl, rfl, rfl, rfl, rfl, rfl, rfl, rfl, rfl, rfl, rfl, rfl, rfl, rfl⟩

@[simp] theorem setPort_rest (s : State) (n : Nat) (p : PortSt) :
    (setPort s n p).regs = s.regs ∧ (setPort s n p).pend = s.pend ∧ (setPort s n p).tmr = s.tmr ∧ (setPort s n p).shadow = s.shadow ∧ (setPort s n p).holding = s.holding ∧ (setPort s n p).strobes = s.strobes ∧ (setPort s n p).heldWrites = s.heldWrites ∧ (setPort s n p).seqTicked = s.seqTicked ∧ (setPort s n p).answers = s.answers ∧ (setPort s n p).replies = s.replies ∧ (setPort s n p).time = s.time ∧ (setPort s n p).ledger = s.ledger ∧ (setPort s n p).fh = s.fh ∧ (setPort s n p).ist = s.ist ∧ (setPort s n p).cores = s.cores ∧ (setPort s n p).parts = s.parts ∧ (setPort s n p).signals = s.signals ∧ (setPort s n p).host = s.host ∧ (setPort s n p).sr = s.sr ∧ (setPort s n p).ckp = s.ckp ∧ (setPort s n p).power = s.power ∧ (setPort s n p).settings = s.settings ∧ (setPort s n p).sec = s.sec ∧ (setPort s n p).waybill = s.waybill ∧ (setPort s n p).mesh = s.mesh ∧ (setPort s n p).free = s.free ∧ (setPort s n p).pending = s.pending :=
  ⟨rfl, rfl, rfl, rfl, rfl, rfl, rfl, rfl, rfl, rfl, rfl, rfl, rfl, rfl, rfl, rfl, rfl, rfl, rfl, rfl, rfl, rfl, rfl, rfl, rfl, rfl, rfl⟩

@[simp] theorem waybillDue_rest (s : State) :
    (waybillDue s).regs = s.regs ∧ (waybillDue s).pend = s.pend ∧ (waybillDue s).tmr = s.tmr ∧ (waybillDue s).shadow = s.shadow ∧ (waybillDue s).holding = s.holding ∧ (waybillDue s).strobes = s.strobes ∧ (waybillDue s).heldWrites = s.heldWrites ∧ (waybillDue s).seqTicked = s.seqTicked ∧ (waybillDue s).answers = s.answers ∧ (waybillDue s).replies = s.replies ∧ (waybillDue s).time = s.time ∧ (waybillDue s).ledger = s.ledger ∧ (waybillDue s).fh = s.fh ∧ (waybillDue s).ist = s.ist ∧ (waybillDue s).cores = s.cores ∧ (waybillDue s).parts = s.parts ∧ (waybillDue s).signals = s.signals ∧ (waybillDue s).host = s.host ∧ (waybillDue s).fab = s.fab ∧ (waybillDue s).sr = s.sr ∧ (waybillDue s).ckp = s.ckp ∧ (waybillDue s).power = s.power ∧ (waybillDue s).settings = s.settings ∧ (waybillDue s).sec = s.sec ∧ (waybillDue s).mesh = s.mesh ∧ (waybillDue s).free = s.free ∧ (waybillDue s).pending = s.pending :=
  ⟨rfl, rfl, rfl, rfl, rfl, rfl, rfl, rfl, rfl, rfl, rfl, rfl, rfl, rfl, rfl, rfl, rfl, rfl, rfl, rfl, rfl, rfl, rfl, rfl, rfl, rfl, rfl⟩

@[simp] theorem putStep_rest (s : State) (t : Step) :
    (putStep s t).regs = s.regs ∧ (putStep s t).pend = s.pend ∧ (putStep s t).tmr = s.tmr ∧ (putStep s t).shadow = s.shadow ∧ (putStep s t).holding = s.holding ∧ (putStep s t).strobes = s.strobes ∧ (putStep s t).heldWrites = s.heldWrites ∧ (putStep s t).seqTicked = s.seqTicked ∧ (putStep s t).answers = s.answers ∧ (putStep s t).replies = s.replies ∧ (putStep s t).time = s.time ∧ (putStep s t).ledger = s.ledger ∧ (putStep s t).fh = s.fh ∧ (putStep s t).ist = s.ist ∧ (putStep s t).cores = s.cores ∧ (putStep s t).parts = s.parts ∧ (putStep s t).signals = s.signals ∧ (putStep s t).host = s.host ∧ (putStep s t).fab = s.fab ∧ (putStep s t).ckp = s.ckp ∧ (putStep s t).power = s.power ∧ (putStep s t).settings = s.settings ∧ (putStep s t).sec = s.sec ∧ (putStep s t).waybill = s.waybill ∧ (putStep s t).mesh = s.mesh ∧ (putStep s t).free = s.free ∧ (putStep s t).pending = s.pending :=
  ⟨rfl, rfl, rfl, rfl, rfl, rfl, rfl, rfl, rfl, rfl, rfl, rfl, rfl, rfl, rfl, rfl, rfl, rfl, rfl, rfl, rfl, rfl, rfl, rfl, rfl, rfl, rfl⟩

@[simp] theorem runClock_rest (s : State) (n : Nat) :
    (runClock s n).regs = s.regs ∧ (runClock s n).pend = s.pend ∧ (runClock s n).tmr = s.tmr ∧ (runClock s n).shadow = s.shadow ∧ (runClock s n).holding = s.holding ∧ (runClock s n).strobes = s.strobes ∧ (runClock s n).heldWrites = s.heldWrites ∧ (runClock s n).seqTicked = s.seqTicked ∧ (runClock s n).answers = s.answers ∧ (runClock s n).replies = s.replies ∧ (runClock s n).ledger = s.ledger ∧ (runClock s n).fh = s.fh ∧ (runClock s n).ist = s.ist ∧ (runClock s n).cores = s.cores ∧ (runClock s n).parts = s.parts ∧ (runClock s n).signals = s.signals ∧ (runClock s n).host = s.host ∧ (runClock s n).fab = s.fab ∧ (runClock s n).sr = s.sr ∧ (runClock s n).ckp = s.ckp ∧ (runClock s n).power = s.power ∧ (runClock s n).settings = s.settings ∧ (runClock s n).sec = s.sec ∧ (runClock s n).waybill = s.waybill ∧ (runClock s n).mesh = s.mesh ∧ (runClock s n).free = s.free ∧ (runClock s n).pending = s.pending :=
  ⟨rfl, rfl, rfl, rfl, rfl, rfl, rfl, rfl, rfl, rfl, rfl, rfl, rfl, rfl, rfl, rfl, rfl, rfl, rfl, rfl, rfl, rfl, rfl, rfl, rfl, rfl, rfl⟩

@[simp] theorem withPending_rest (s : State) (l : List Instr) :
    (s.withPending l).regs = s.regs ∧ (s.withPending l).pend = s.pend ∧ (s.withPending l).tmr = s.tmr ∧ (s.withPending l).shadow = s.shadow ∧ (s.withPending l).holding = s.holding ∧ (s.withPending l).strobes = s.strobes ∧ (s.withPending l).heldWrites = s.heldWrites ∧ (s.withPending l).seqTicked = s.seqTicked ∧ (s.withPending l).answers = s.answers ∧ (s.withPending l).replies = s.replies ∧ (s.withPending l).time = s.time ∧ (s.withPending l).ledger = s.ledger ∧ (s.withPending l).fh = s.fh ∧ (s.withPending l).ist = s.ist ∧ (s.withPending l).cores = s.cores ∧ (s.withPending l).parts = s.parts ∧ (s.withPending l).signals = s.signals ∧ (s.withPending l).host = s.host ∧ (s.withPending l).fab = s.fab ∧ (s.withPending l).sr = s.sr ∧ (s.withPending l).ckp = s.ckp ∧ (s.withPending l).power = s.power ∧ (s.withPending l).settings = s.settings ∧ (s.withPending l).sec = s.sec ∧ (s.withPending l).waybill = s.waybill ∧ (s.withPending l).mesh = s.mesh ∧ (s.withPending l).free = s.free :=
  ⟨rfl, rfl, rfl, rfl, rfl, rfl, rfl, rfl, rfl, rfl, rfl, rfl, rfl, rfl, rfl, rfl, rfl, rfl, rfl, rfl, rfl, rfl, rfl, rfl, rfl, rfl, rfl⟩

@[simp] theorem bump_rest (s : State) (lo : Fld) (i n : Nat) :
    (bump s lo i n).pend = s.pend ∧ (bump s lo i n).shadow = s.shadow ∧ (bump s lo i n).holding = s.holding ∧ (bump s lo i n).strobes = s.strobes ∧ (bump s lo i n).heldWrites = s.heldWrites ∧ (bump s lo i n).seqTicked = s.seqTicked ∧ (bump s lo i n).answers = s.answers ∧ (bump s lo i n).replies = s.replies ∧ (bump s lo i n).time = s.time ∧ (bump s lo i n).ledger = s.ledger ∧ (bump s lo i n).fh = s.fh ∧ (bump s lo i n).ist = s.ist ∧ (bump s lo i n).cores = s.cores ∧ (bump s lo i n).parts = s.parts ∧ (bump s lo i n).signals = s.signals ∧ (bump s lo i n).host = s.host ∧ (bump s lo i n).fab = s.fab ∧ (bump s lo i n).sr = s.sr ∧ (bump s lo i n).ckp = s.ckp ∧ (bump s lo i n).power = s.power ∧ (bump s lo i n).settings = s.settings ∧ (bump s lo i n).sec = s.sec ∧ (bump s lo i n).waybill = s.waybill ∧ (bump s lo i n).mesh = s.mesh ∧ (bump s lo i n).free = s.free ∧ (bump s lo i n).pending = s.pending := by
  rw [bump]; simp

@[simp] theorem bumpIf_rest (s : State) (en lo : Fld) (i n : Nat) :
    (bumpIf s en lo i n).pend = s.pend ∧ (bumpIf s en lo i n).shadow = s.shadow ∧ (bumpIf s en lo i n).holding = s.holding ∧ (bumpIf s en lo i n).strobes = s.strobes ∧ (bumpIf s en lo i n).heldWrites = s.heldWrites ∧ (bumpIf s en lo i n).seqTicked = s.seqTicked ∧ (bumpIf s en lo i n).answers = s.answers ∧ (bumpIf s en lo i n).replies = s.replies ∧ (bumpIf s en lo i n).time = s.time ∧ (bumpIf s en lo i n).ledger = s.ledger ∧ (bumpIf s en lo i n).fh = s.fh ∧ (bumpIf s en lo i n).ist = s.ist ∧ (bumpIf s en lo i n).cores = s.cores ∧ (bumpIf s en lo i n).parts = s.parts ∧ (bumpIf s en lo i n).signals = s.signals ∧ (bumpIf s en lo i n).host = s.host ∧ (bumpIf s en lo i n).fab = s.fab ∧ (bumpIf s en lo i n).sr = s.sr ∧ (bumpIf s en lo i n).ckp = s.ckp ∧ (bumpIf s en lo i n).power = s.power ∧ (bumpIf s en lo i n).settings = s.settings ∧ (bumpIf s en lo i n).sec = s.sec ∧ (bumpIf s en lo i n).waybill = s.waybill ∧ (bumpIf s en lo i n).mesh = s.mesh ∧ (bumpIf s en lo i n).free = s.free ∧ (bumpIf s en lo i n).pending = s.pending := by
  unfold bumpIf; split <;> simp

@[simp] theorem seqAdvance_rest (s : State) (k : Nat) :
    (seqAdvance s k).pend = s.pend ∧ (seqAdvance s k).shadow = s.shadow ∧ (seqAdvance s k).holding = s.holding ∧ (seqAdvance s k).strobes = s.strobes ∧ (seqAdvance s k).heldWrites = s.heldWrites ∧ (seqAdvance s k).answers = s.answers ∧ (seqAdvance s k).replies = s.replies ∧ (seqAdvance s k).time = s.time ∧ (seqAdvance s k).ledger = s.ledger ∧ (seqAdvance s k).fh = s.fh ∧ (seqAdvance s k).ist = s.ist ∧ (seqAdvance s k).cores = s.cores ∧ (seqAdvance s k).parts = s.parts ∧ (seqAdvance s k).signals = s.signals ∧ (seqAdvance s k).host = s.host ∧ (seqAdvance s k).fab = s.fab ∧ (seqAdvance s k).sr = s.sr ∧ (seqAdvance s k).ckp = s.ckp ∧ (seqAdvance s k).power = s.power ∧ (seqAdvance s k).settings = s.settings ∧ (seqAdvance s k).sec = s.sec ∧ (seqAdvance s k).waybill = s.waybill ∧ (seqAdvance s k).mesh = s.mesh ∧ (seqAdvance s k).free = s.free ∧ (seqAdvance s k).pending = s.pending := by
  unfold seqAdvance; split <;> simp

@[simp] theorem bumpSat_rest (s : State) (f : Fld) (i n : Nat) :
    (bumpSat s f i n).pend = s.pend ∧ (bumpSat s f i n).shadow = s.shadow ∧ (bumpSat s f i n).holding = s.holding ∧ (bumpSat s f i n).strobes = s.strobes ∧ (bumpSat s f i n).heldWrites = s.heldWrites ∧ (bumpSat s f i n).seqTicked = s.seqTicked ∧ (bumpSat s f i n).answers = s.answers ∧ (bumpSat s f i n).replies = s.replies ∧ (bumpSat s f i n).time = s.time ∧ (bumpSat s f i n).ledger = s.ledger ∧ (bumpSat s f i n).fh = s.fh ∧ (bumpSat s f i n).ist = s.ist ∧ (bumpSat s f i n).cores = s.cores ∧ (bumpSat s f i n).parts = s.parts ∧ (bumpSat s f i n).signals = s.signals ∧ (bumpSat s f i n).host = s.host ∧ (bumpSat s f i n).fab = s.fab ∧ (bumpSat s f i n).sr = s.sr ∧ (bumpSat s f i n).ckp = s.ckp ∧ (bumpSat s f i n).power = s.power ∧ (bumpSat s f i n).settings = s.settings ∧ (bumpSat s f i n).sec = s.sec ∧ (bumpSat s f i n).waybill = s.waybill ∧ (bumpSat s f i n).mesh = s.mesh ∧ (bumpSat s f i n).free = s.free ∧ (bumpSat s f i n).pending = s.pending := by
  rw [bumpSat]; simp

@[simp] theorem ev_rest (s : State) (f : Fld) (i : Nat) :
    (ev s f i).pend = s.pend ∧ (ev s f i).shadow = s.shadow ∧ (ev s f i).holding = s.holding ∧ (ev s f i).strobes = s.strobes ∧ (ev s f i).heldWrites = s.heldWrites ∧ (ev s f i).answers = s.answers ∧ (ev s f i).replies = s.replies ∧ (ev s f i).time = s.time ∧ (ev s f i).ledger = s.ledger ∧ (ev s f i).fh = s.fh ∧ (ev s f i).ist = s.ist ∧ (ev s f i).cores = s.cores ∧ (ev s f i).parts = s.parts ∧ (ev s f i).signals = s.signals ∧ (ev s f i).host = s.host ∧ (ev s f i).fab = s.fab ∧ (ev s f i).sr = s.sr ∧ (ev s f i).ckp = s.ckp ∧ (ev s f i).power = s.power ∧ (ev s f i).settings = s.settings ∧ (ev s f i).sec = s.sec ∧ (ev s f i).waybill = s.waybill ∧ (ev s f i).mesh = s.mesh ∧ (ev s f i).free = s.free ∧ (ev s f i).pending = s.pending := by
  unfold ev; simp

@[simp] theorem accFault_rest (s : State) (reason req off : Nat) :
    (accFault s reason req off).pend = s.pend ∧ (accFault s reason req off).shadow = s.shadow ∧ (accFault s reason req off).holding = s.holding ∧ (accFault s reason req off).strobes = s.strobes ∧ (accFault s reason req off).heldWrites = s.heldWrites ∧ (accFault s reason req off).answers = s.answers ∧ (accFault s reason req off).replies = s.replies ∧ (accFault s reason req off).time = s.time ∧ (accFault s reason req off).ledger = s.ledger ∧ (accFault s reason req off).fh = s.fh ∧ (accFault s reason req off).ist = s.ist ∧ (accFault s reason req off).cores = s.cores ∧ (accFault s reason req off).parts = s.parts ∧ (accFault s reason req off).signals = s.signals ∧ (accFault s reason req off).host = s.host ∧ (accFault s reason req off).fab = s.fab ∧ (accFault s reason req off).sr = s.sr ∧ (accFault s reason req off).ckp = s.ckp ∧ (accFault s reason req off).power = s.power ∧ (accFault s reason req off).settings = s.settings ∧ (accFault s reason req off).sec = s.sec ∧ (accFault s reason req off).waybill = s.waybill ∧ (accFault s reason req off).mesh = s.mesh ∧ (accFault s reason req off).free = s.free ∧ (accFault s reason req off).pending = s.pending := by
  unfold accFault; simp

@[simp] theorem setPstate_rest (s : State) (p v : Nat) :
    (setPstate s p v).pend = s.pend ∧ (setPstate s p v).shadow = s.shadow ∧ (setPstate s p v).holding = s.holding ∧ (setPstate s p v).strobes = s.strobes ∧ (setPstate s p v).heldWrites = s.heldWrites ∧ (setPstate s p v).seqTicked = s.seqTicked ∧ (setPstate s p v).answers = s.answers ∧ (setPstate s p v).replies = s.replies ∧ (setPstate s p v).time = s.time ∧ (setPstate s p v).ledger = s.ledger ∧ (setPstate s p v).fh = s.fh ∧ (setPstate s p v).ist = s.ist ∧ (setPstate s p v).cores = s.cores ∧ (setPstate s p v).parts = s.parts ∧ (setPstate s p v).signals = s.signals ∧ (setPstate s p v).host = s.host ∧ (setPstate s p v).fab = s.fab ∧ (setPstate s p v).sr = s.sr ∧ (setPstate s p v).ckp = s.ckp ∧ (setPstate s p v).power = s.power ∧ (setPstate s p v).settings = s.settings ∧ (setPstate s p v).sec = s.sec ∧ (setPstate s p v).waybill = s.waybill ∧ (setPstate s p v).mesh = s.mesh ∧ (setPstate s p v).free = s.free ∧ (setPstate s p v).pending = s.pending := by
  unfold setPstate; (repeat' split) <;> simp

@[simp] theorem markStep_rest (s : State) (cause : Nat) :
    (markStep s cause).pend = s.pend ∧ (markStep s cause).shadow = s.shadow ∧ (markStep s cause).holding = s.holding ∧ (markStep s cause).strobes = s.strobes ∧ (markStep s cause).heldWrites = s.heldWrites ∧ (markStep s cause).answers = s.answers ∧ (markStep s cause).replies = s.replies ∧ (markStep s cause).time = s.time ∧ (markStep s cause).ledger = s.ledger ∧ (markStep s cause).fh = s.fh ∧ (markStep s cause).ist = s.ist ∧ (markStep s cause).cores = s.cores ∧ (markStep s cause).parts = s.parts ∧ (markStep s cause).signals = s.signals ∧ (markStep s cause).host = s.host ∧ (markStep s cause).fab = s.fab ∧ (markStep s cause).ckp = s.ckp ∧ (markStep s cause).power = s.power ∧ (markStep s cause).settings = s.settings ∧ (markStep s cause).sec = s.sec ∧ (markStep s cause).waybill = s.waybill ∧ (markStep s cause).mesh = s.mesh ∧ (markStep s cause).free = s.free ∧ (markStep s cause).pending = s.pending := by
  unfold markStep; dsimp only; (repeat' split) <;> simp

@[simp] theorem trace_rest (s : State) (kind queue core opcode tag event part : Nat) :
    (trace s kind queue core opcode tag event part).pend = s.pend ∧ (trace s kind queue core opcode tag event part).shadow = s.shadow ∧ (trace s kind queue core opcode tag event part).holding = s.holding ∧ (trace s kind queue core opcode tag event part).strobes = s.strobes ∧ (trace s kind queue core opcode tag event part).heldWrites = s.heldWrites ∧ (trace s kind queue core opcode tag event part).seqTicked = s.seqTicked ∧ (trace s kind queue core opcode tag event part).answers = s.answers ∧ (trace s kind queue core opcode tag event part).replies = s.replies ∧ (trace s kind queue core opcode tag event part).time = s.time ∧ (trace s kind queue core opcode tag event part).fh = s.fh ∧ (trace s kind queue core opcode tag event part).ist = s.ist ∧ (trace s kind queue core opcode tag event part).cores = s.cores ∧ (trace s kind queue core opcode tag event part).parts = s.parts ∧ (trace s kind queue core opcode tag event part).signals = s.signals ∧ (trace s kind queue core opcode tag event part).host = s.host ∧ (trace s kind queue core opcode tag event part).fab = s.fab ∧ (trace s kind queue core opcode tag event part).sr = s.sr ∧ (trace s kind queue core opcode tag event part).ckp = s.ckp ∧ (trace s kind queue core opcode tag event part).power = s.power ∧ (trace s kind queue core opcode tag event part).settings = s.settings ∧ (trace s kind queue core opcode tag event part).sec = s.sec ∧ (trace s kind queue core opcode tag event part).waybill = s.waybill ∧ (trace s kind queue core opcode tag event part).mesh = s.mesh ∧ (trace s kind queue core opcode tag event part).free = s.free ∧ (trace s kind queue core opcode tag event part).pending = s.pending := by
  unfold trace; dsimp only; (repeat' split) <;> simp

@[simp] theorem warnTrigger_rest (s : State) (b : Nat) :
    (warnTrigger s b).pend = s.pend ∧ (warnTrigger s b).shadow = s.shadow ∧ (warnTrigger s b).holding = s.holding ∧ (warnTrigger s b).strobes = s.strobes ∧ (warnTrigger s b).heldWrites = s.heldWrites ∧ (warnTrigger s b).answers = s.answers ∧ (warnTrigger s b).replies = s.replies ∧ (warnTrigger s b).time = s.time ∧ (warnTrigger s b).ledger = s.ledger ∧ (warnTrigger s b).fh = s.fh ∧ (warnTrigger s b).ist = s.ist ∧ (warnTrigger s b).cores = s.cores ∧ (warnTrigger s b).parts = s.parts ∧ (warnTrigger s b).signals = s.signals ∧ (warnTrigger s b).host = s.host ∧ (warnTrigger s b).fab = s.fab ∧ (warnTrigger s b).sr = s.sr ∧ (warnTrigger s b).power = s.power ∧ (warnTrigger s b).settings = s.settings ∧ (warnTrigger s b).sec = s.sec ∧ (warnTrigger s b).waybill = s.waybill ∧ (warnTrigger s b).mesh = s.mesh ∧ (warnTrigger s b).free = s.free ∧ (warnTrigger s b).pending = s.pending := by
  unfold warnTrigger; dsimp only; (repeat' split) <;> simp

@[simp] theorem warnCount_rest (s : State) (b limit : Nat) :
    (warnCount s b limit).pend = s.pend ∧ (warnCount s b limit).shadow = s.shadow ∧ (warnCount s b limit).holding = s.holding ∧ (warnCount s b limit).strobes = s.strobes ∧ (warnCount s b limit).heldWrites = s.heldWrites ∧ (warnCount s b limit).answers = s.answers ∧ (warnCount s b limit).replies = s.replies ∧ (warnCount s b limit).time = s.time ∧ (warnCount s b limit).ledger = s.ledger ∧ (warnCount s b limit).fh = s.fh ∧ (warnCount s b limit).ist = s.ist ∧ (warnCount s b limit).cores = s.cores ∧ (warnCount s b limit).parts = s.parts ∧ (warnCount s b limit).signals = s.signals ∧ (warnCount s b limit).host = s.host ∧ (warnCount s b limit).fab = s.fab ∧ (warnCount s b limit).sr = s.sr ∧ (warnCount s b limit).power = s.power ∧ (warnCount s b limit).settings = s.settings ∧ (warnCount s b limit).sec = s.sec ∧ (warnCount s b limit).waybill = s.waybill ∧ (warnCount s b limit).mesh = s.mesh ∧ (warnCount s b limit).free = s.free ∧ (warnCount s b limit).pending = s.pending := by
  unfold warnCount; dsimp only; (repeat' split) <;> simp

@[simp] theorem warnEvent_rest (s : State) (e : Nat) :
    (warnEvent s e).pend = s.pend ∧ (warnEvent s e).shadow = s.shadow ∧ (warnEvent s e).holding = s.holding ∧ (warnEvent s e).strobes = s.strobes ∧ (warnEvent s e).heldWrites = s.heldWrites ∧ (warnEvent s e).answers = s.answers ∧ (warnEvent s e).replies = s.replies ∧ (warnEvent s e).time = s.time ∧ (warnEvent s e).ledger = s.ledger ∧ (warnEvent s e).fh = s.fh ∧ (warnEvent s e).ist = s.ist ∧ (warnEvent s e).cores = s.cores ∧ (warnEvent s e).parts = s.parts ∧ (warnEvent s e).signals = s.signals ∧ (warnEvent s e).host = s.host ∧ (warnEvent s e).fab = s.fab ∧ (warnEvent s e).sr = s.sr ∧ (warnEvent s e).power = s.power ∧ (warnEvent s e).settings = s.settings ∧ (warnEvent s e).sec = s.sec ∧ (warnEvent s e).waybill = s.waybill ∧ (warnEvent s e).mesh = s.mesh ∧ (warnEvent s e).free = s.free ∧ (warnEvent s e).pending = s.pending := by
  unfold warnEvent; (repeat' split) <;> simp

@[simp] theorem raise_rest (s : State) (e : Nat) (u : EvUnit) (tag aux : Nat) :
    (raise s e u tag aux).pend = s.pend ∧ (raise s e u tag aux).shadow = s.shadow ∧ (raise s e u tag aux).holding = s.holding ∧ (raise s e u tag aux).strobes = s.strobes ∧ (raise s e u tag aux).heldWrites = s.heldWrites ∧ (raise s e u tag aux).answers = s.answers ∧ (raise s e u tag aux).replies = s.replies ∧ (raise s e u tag aux).time = s.time ∧ (raise s e u tag aux).fh = s.fh ∧ (raise s e u tag aux).ist = s.ist ∧ (raise s e u tag aux).cores = s.cores ∧ (raise s e u tag aux).parts = s.parts ∧ (raise s e u tag aux).signals = s.signals ∧ (raise s e u tag aux).host = s.host ∧ (raise s e u tag aux).fab = s.fab ∧ (raise s e u tag aux).power = s.power ∧ (raise s e u tag aux).settings = s.settings ∧ (raise s e u tag aux).sec = s.sec ∧ (raise s e u tag aux).waybill = s.waybill ∧ (raise s e u tag aux).mesh = s.mesh ∧ (raise s e u tag aux).free = s.free ∧ (raise s e u tag aux).pending = s.pending := by
  unfold raise; dsimp only; (repeat' split) <;> simp

@[simp] theorem timeUnlock_rest (s : State) :
    (timeUnlock s).pend = s.pend ∧ (timeUnlock s).shadow = s.shadow ∧ (timeUnlock s).holding = s.holding ∧ (timeUnlock s).strobes = s.strobes ∧ (timeUnlock s).heldWrites = s.heldWrites ∧ (timeUnlock s).answers = s.answers ∧ (timeUnlock s).replies = s.replies ∧ (timeUnlock s).ledger = s.ledger ∧ (timeUnlock s).fh = s.fh ∧ (timeUnlock s).ist = s.ist ∧ (timeUnlock s).cores = s.cores ∧ (timeUnlock s).parts = s.parts ∧ (timeUnlock s).signals = s.signals ∧ (timeUnlock s).host = s.host ∧ (timeUnlock s).fab = s.fab ∧ (timeUnlock s).sr = s.sr ∧ (timeUnlock s).ckp = s.ckp ∧ (timeUnlock s).power = s.power ∧ (timeUnlock s).settings = s.settings ∧ (timeUnlock s).sec = s.sec ∧ (timeUnlock s).waybill = s.waybill ∧ (timeUnlock s).mesh = s.mesh ∧ (timeUnlock s).free = s.free ∧ (timeUnlock s).pending = s.pending := by
  unfold timeUnlock; (repeat' split) <;> simp

/-- The register words under an update of other fields. -/
theorem regLive_congr (s t : State) (k : Nat) (h : t.regs = s.regs) (h2 : t.tmr = s.tmr) : regLive t k = regLive s k := by
  unfold regLive; rw [h, h2]

end Sys2Proof.Laws
end

