-- ==== Sys2Proof/Laws/Events.lean ====
section
/-! SUPPORT. Laws of event registers: what recording an event leaves in a field. -/

namespace Sys2Proof.Laws

open Sys2Proof.Machine

/-- A register word depends on the register file alone. -/
theorem regLive_with {s t : State} (h1 : t.regs = s.regs) (h2 : t.tmr = s.tmr) (k : Nat) : regLive t k = regLive s k := by
  unfold regLive; rw [h1, h2]

theorem rf_with {s t : State} (h1 : t.regs = s.regs) (h2 : t.tmr = s.tmr) (f : Fld) (i : Nat) : rf t f i = rf s f i := by
  unfold rf; rw [regLive_with h1 h2]

theorem regLive_ticked (s : State) (q : List Nat) (k : Nat) : regLive { s with seqTicked := q } k = regLive s k := rfl

/-- The SEQ advance by cases. -/
theorem seqAdvance_eq (s : State) (k : Nat) : seqAdvance s k = if s.seqTicked.contains k then s else
    { regPut s k (wput 31 16 (wbits 31 16 (regLive s k) + 1) (regLive s k)) with seqTicked := k :: s.seqTicked } := rfl

theorem regLive_seqAdvance (s : State) (k j : Nat) : regLive (seqAdvance s k) j =
    if s.seqTicked.contains k then regLive s j
    else regLive (regPut s k (wput 31 16 (wbits 31 16 (regLive s k) + 1) (regLive s k))) j := by
  rw [seqAdvance_eq]
  split
  · rfl
  · exact regLive_ticked _ _ _

/-- The SEQ advance leaves the other registers alone. -/
theorem regLive_seqAdvance_ne (s : State) {k j : Nat} (h : j ≠ k) : regLive (seqAdvance s k) j = regLive s j := by
  rw [regLive_seqAdvance, regLive_regPut_ne _ _ h, ite_self]

/-- The SEQ advance leaves the event fields of its register alone. -/
theorem wbits_seqAdvance (s : State) (k hi lo : Nat) (h : hi < 16) : wbits hi lo (regLive (seqAdvance s k) k) = wbits hi lo (regLive s k) := by
  rw [regLive_seqAdvance, regLive_regPut_same]
  split
  · rfl
  · exact wbits_wput_disj _ _ _ _ _ _ (by omega) (by omega) (by omega)

/-- SEQ advances by one at the first event of the tick, and not again (R56). -/
theorem seq_seqAdvance (s : State) (k : Nat) :
    wbits 31 16 (regLive (seqAdvance s k) k) =
      if s.seqTicked.contains k then wbits 31 16 (regLive s k) else (wbits 31 16 (regLive s k) + 1) % 65536 := by
  rw [regLive_seqAdvance, regLive_regPut_same]
  split
  · rfl
  · exact wbits_wput_same _ _ _ _ (by omega) (by omega)

/-- Recording an event sets its field. -/
theorem rf_ev_same (s : State) (f : Fld) (i : Nat) (h : f.lo ≤ f.hi) (h16 : f.hi < 16) : rf (ev s f i) f i = 1 := by
  unfold ev rf
  rw [wbits_seqAdvance _ _ _ _ h16]
  have e := rf_wf_same s f i 1 h (by omega)
  unfold rf at e
  rw [e]
  have : 2 ^ 1 ≤ 2 ^ (f.hi + 1 - f.lo) := Nat.pow_le_pow_right (by omega) (by omega)
  exact Nat.mod_eq_of_lt (by omega)

/-- Recording an event leaves the other registers alone. -/
theorem regLive_ev_ne (s : State) (f : Fld) (i : Nat) {k : Nat} (h : k ≠ f.key i) : regLive (ev s f i) k = regLive s k := by
  unfold ev
  rw [regLive_seqAdvance_ne _ h, regLive_wf_ne _ _ _ _ _ h]

theorem rf_ev_ne (s : State) (f g : Fld) (i j : Nat) (h : g.key j ≠ f.key i) : rf (ev s f i) g j = rf s g j := by
  unfold rf; rw [regLive_ev_ne s f i h]

/-- Recording an event leaves the other event fields of its register alone. -/
theorem rf_ev_disj (s : State) (f g : Fld) (i j : Nat) (k : g.key j = f.key i) (h : f.lo ≤ f.hi) (h16 : g.hi < 16)
    (d : g.hi < f.lo ∨ f.hi < g.lo) : rf (ev s f i) g j = rf s g j := by
  unfold ev rf
  rw [k, wbits_seqAdvance _ _ _ _ h16]
  have e := rf_wf_disj s f g i j 1 k h (by omega) d
  unfold rf at e
  rw [← k, e]

theorem ticked_parts (s : State) (k : Nat) (w : Word) (l : List Nat) :
    ∃ r m q, ({ regPut s k w with seqTicked := l } : State) = { s with regs := r, tmr := m, seqTicked := q } := ⟨_, _, _, rfl⟩

theorem seqAdvance_parts (s : State) (k : Nat) : ∃ r m q, seqAdvance s k = { s with regs := r, tmr := m, seqTicked := q } := by
  rw [seqAdvance_eq]
  split
  · exact ⟨_, _, _, rfl⟩
  · exact ticked_parts _ _ _ _

theorem regPut_parts (s : State) (k : Nat) (w : Word) : ∃ r m, regPut s k w = { s with regs := r, tmr := m } := ⟨_, _, rfl⟩

theorem wf_parts (s : State) (f : Fld) (i v : Nat) : ∃ r m, wf s f i v = { s with regs := r, tmr := m } := regPut_parts _ _ _

/-- Recording an event changes its register and the tick's note of event registers, and nothing else. -/
theorem ev_eq (s : State) (f : Fld) (i : Nat) : ∃ r m q, ev s f i = { s with regs := r, tmr := m, seqTicked := q } := by
  obtain ⟨r, m, e⟩ := wf_parts s f i 1
  unfold ev
  rw [e]
  obtain ⟨r, m, q, e⟩ := seqAdvance_parts { s with regs := r, tmr := m } (f.key i)
  rw [e]
  exact ⟨_, _, _, rfl⟩

end Sys2Proof.Laws
end

