-- ==== Sys2Proof/Laws/Access.lean ====
section
/-! SUPPORT. Laws of a register write by command: where it lands, and what its fields store. -/

namespace Sys2Proof.Laws

open Sys2Proof.Machine
open Sys2Proof.Safety

/-! ### Frames -/

theorem onlyRegs_of {ks : List Nat} {s t : State} {r : List (Nat × Word)} {m : List (Nat × Copies)}
    (h : ∀ k, k ∉ ks → regLive t k = regLive s k) (e : t = { s with regs := r, tmr := m }) : onlyRegs ks s t := by
  subst e; exact ⟨h, rfl⟩

theorem onlyRegs_refl (ks : List Nat) (s : State) : onlyRegs ks s s := ⟨fun _ _ => rfl, rfl⟩

theorem onlyRegs_trans {ks : List Nat} {a b c : State} (h : onlyRegs ks a b) (g : onlyRegs ks b c) : onlyRegs ks a c := by
  obtain ⟨r, m, e⟩ : ∃ r m, b = { a with regs := r, tmr := m } := ⟨_, _, h.2⟩
  obtain ⟨r', m', e'⟩ : ∃ r m, c = { b with regs := r, tmr := m } := ⟨_, _, g.2⟩
  refine onlyRegs_of (r := r') (m := m') (fun k hk => (g.1 k hk).trans (h.1 k hk)) ?_
  rw [e', e]

theorem onlyRegs_mono {ks ls : List Nat} {a b : State} (h : onlyRegs ks a b) (i : ∀ k ∈ ks, k ∈ ls) : onlyRegs ls a b :=
  ⟨fun k hk => h.1 k fun x => hk (i k x), h.2⟩

theorem onlyRegs_wf {ks : List Nat} (s : State) {f : Fld} {i : Nat} (v : Nat) (h : f.key i ∈ ks) : onlyRegs ks s (wf s f i v) :=
  onlyRegs_of (fun _ hk => regLive_regPut_ne _ _ fun e => hk (e ▸ h)) rfl

theorem onlyRegs_regPut {ks : List Nat} (s : State) {k : Nat} (w : Word) (h : k ∈ ks) : onlyRegs ks s (regPut s k w) :=
  onlyRegs_of (fun _ hk => regLive_regPut_ne _ _ fun e => hk (e ▸ h)) rfl

theorem onlyEvents_of {ks : List Nat} {s t : State} {r : List (Nat × Word)} {m : List (Nat × Copies)} {q : List Nat}
    (h : ∀ k, k ∉ ks → regLive t k = regLive s k) (e : t = { s with regs := r, tmr := m, seqTicked := q }) : onlyEvents ks s t := by
  subst e; exact ⟨h, rfl⟩

theorem onlyEvents_refl (ks : List Nat) (s : State) : onlyEvents ks s s := ⟨fun _ _ => rfl, rfl⟩

theorem onlyEvents_trans {ks : List Nat} {a b c : State} (h : onlyEvents ks a b) (g : onlyEvents ks b c) : onlyEvents ks a c := by
  obtain ⟨r, m, q, e⟩ : ∃ r m q, b = { a with regs := r, tmr := m, seqTicked := q } := ⟨_, _, _, h.2⟩
  obtain ⟨r', m', q', e'⟩ : ∃ r m q, c = { b with regs := r, tmr := m, seqTicked := q } := ⟨_, _, _, g.2⟩
  refine onlyEvents_of (r := r') (m := m') (q := q') (fun k hk => (g.1 k hk).trans (h.1 k hk)) ?_
  rw [e', e]

theorem onlyEvents_of_regs {ks : List Nat} {s t : State} (h : onlyRegs ks s t) : onlyEvents ks s t := by
  obtain ⟨r, m, e⟩ : ∃ r m, t = { s with regs := r, tmr := m } := ⟨_, _, h.2⟩
  exact onlyEvents_of (q := s.seqTicked) h.1 (by rw [e])

theorem onlyEvents_ev {ks : List Nat} (s : State) {f : Fld} {i : Nat} (h : f.key i ∈ ks) : onlyEvents ks s (ev s f i) := by
  obtain ⟨r, m, q, e⟩ := ev_eq s f i
  exact onlyEvents_of (fun _ hk => regLive_ev_ne _ _ _ fun e => hk (e ▸ h)) e

theorem onlyEvents_mono {ks ls : List Nat} {a b : State} (h : onlyEvents ks a b) (i : ∀ k ∈ ks, k ∈ ls) : onlyEvents ls a b :=
  ⟨fun k hk => h.1 k fun x => hk (i k x), h.2⟩

/-! ### Keys -/

/-- Registers of one instance of a page differ by their offsets. -/
theorem regKey_off_ne (b : Blk) (i : Nat) {x y : Nat} (h : x ≠ y) : regKey b i x ≠ regKey b i y := by
  unfold regKey; omega

/-- Keys fall apart into page, instance and offset. -/
theorem regKey_inj {b c : Blk} {i j x y : Nat} (hi : i < 4096) (hj : j < 4096) (hx : x < 65536) (hy : y < 65536)
    (h : regKey b i x = regKey c j y) : b.code = c.code ∧ i = j ∧ x = y := by
  unfold regKey at h; omega

theorem regKey_ne_code {b c : Blk} {i j x y : Nat} (hi : i < 4096) (hj : j < 4096) (hx : x < 65536) (hy : y < 65536)
    (h : b.code ≠ c.code) : regKey b i x ≠ regKey c j y := fun e => h (regKey_inj hi hj hx hy e).1

theorem regKey_ne_inst {b : Blk} {i j x y : Nat} (hx : x < 65536) (hy : y < 65536) (h : i ≠ j) : regKey b i x ≠ regKey b j y := by
  unfold regKey; omega

/-! ### Writes that land -/

/-- A base-page write that lands is stored and has its effect, instance after instance. -/
theorem regCmd_lands {s : State} {req : Requester} {b : Blk} {i off : Nat} {v : Word} {l : List Nat} (h : lands s req b i off v l)
    (eff : Nat → Word → State → State) :
    regCmd s req b i off v eff =
      .next (l.foldl (fun s j => eff j (regLive s (regKey b j off)) (storeFields s b j off 0 v)) s) := by
  obtain ⟨⟨h1, h2, h3⟩, h4, h5⟩ := h
  have h6 : l.any (fun j => breaksReserved s b j off v) = false := by
    rw [List.any_eq_false]; intro j hj; simp [h5 j hj]
  unfold regCmd regWriteTo
  simp only [h1, h2, h3, h4, h6, Bool.not_true, Bool.false_eq_true, and_false, if_neg not_false]

/-- A write through an alias that lands. -/
theorem regWriteTo_alias {s : State} {req : Requester} {b : Blk} {i off : Nat} {l : List Nat} (h : landsSet s req b i off l)
    {view : Nat} (hv : view ≠ 0) (v : Word) (eff : Nat → Word → State → State) :
    regWriteTo s req b i off view v eff =
      .next (l.foldl (fun s j => eff j (regLive s (regKey b j off)) (storeFields s b j off view v)) s) := by
  obtain ⟨⟨h1, h2, h3⟩, h4⟩ := h
  unfold regWriteTo
  simp only [h1, h2, h3, h4, hv, Bool.not_true, Bool.false_eq_true, false_and, if_neg not_false]

/-- A register none of whose fields a write stores: all its writable bits are pulses, or nothing but the device changes it. -/
def pulseOnly (b : Blk) (off : Nat) (open_ : Word) : Bool :=
  match findReg b off with
  | none => true
  | some r => (r.maskOf (fun a => a == .rw || a == .tmr) &&& open_) == 0 && (r.maskOf Acc.buffered &&& open_) == 0

theorem storeFields_pulse {s : State} {b : Blk} {j off : Nat} (h : pulseOnly b off (~~~ frozen s b j off) = true) (view : Nat) (v : Word) :
    storeFields s b j off view v = s := by
  unfold pulseOnly at h
  unfold storeFields
  split
  · rfl
  · rename_i r hr
    rw [hr] at h
    simp only [Bool.and_eq_true, beq_iff_eq] at h
    simp only [h.1, h.2, if_true]

/-- A write stores into the register file and the pending copies alone. -/
theorem storeFields_rest (s : State) (b : Blk) (j off view : Nat) (v : Word) :
    ∃ r t p h, storeFields s b j off view v = { s with regs := r, tmr := t, pend := p, heldWrites := h } := by
  have hp : ∀ (s : State) (k : Nat) (w : Word), ∃ p h, pendPut s b j k w = { s with pend := p, heldWrites := h } := by
    intro s k w
    unfold pendPut
    split
    · exact ⟨_, _, rfl⟩
    · simp only []
      split
      · exact ⟨_, _, rfl⟩
      · exact ⟨_, _, rfl⟩
  unfold storeFields
  split
  · exact ⟨_, _, _, _, rfl⟩
  · simp only []
    split <;> split
    · exact ⟨_, _, _, _, rfl⟩
    · exact ⟨_, _, _, _, rfl⟩
    · obtain ⟨p, h, e⟩ := hp s _ _; rw [e]; exact ⟨_, _, _, _, rfl⟩
    · obtain ⟨p, h, e⟩ := hp (regPut s _ _) _ _; rw [e]; exact ⟨_, _, _, _, rfl⟩

/-! ### The window -/

theorem place_frame_lt {off i o : Nat} {f : Blk} (h : place off = .frame f i o) : off < 0x4000000 := by
  apply Decidable.byContradiction; intro hc
  rw [place, if_pos (by omega)] at h; cases h

/-- The frame of the reset control block is the only one at its place. -/
theorem place_rst {off : Nat} (h : off / 0x1000 = 0x24) : place off = .frame .rst 0 (off - 0x24000) := by
  unfold place
  rw [if_neg (by omega), if_neg (by omega), if_neg (by omega), if_pos (by omega), if_neg (by omega), if_pos (by omega)]

theorem accReason_regAt {off i o view : Nat} {b : Blk} (h : regAt off b i o view) (req : Requester) : accReason req off 4 = 0 := by
  obtain ⟨h1, -, f, h2, -⟩ := h
  unfold accReason
  simp [h1, h2]

/-- A write to a register's offset is the write of its page. -/
theorem windowWrite_regAt {s : State} {off i o view : Nat} {b : Blk} (h : regAt off b i o view) (hu : hubUp s = true) (req : Requester)
    (v : Word) : windowWrite s req off 4 v = pageWrite s req b i o view v := by
  have ha := accReason_regAt h req
  obtain ⟨-, h0, f, h2, h3⟩ := h
  unfold windowWrite
  have e1 : (1024 * view + o) % 1024 = o := by omega
  have e2 : (1024 * view + o) / 1024 = view := by omega
  simp [hu, ha, h2, h3, e1, e2]

/-- The same for any register but RST_PKG_CMD. -/
theorem regWriteAny_regAt {s : State} {off i o view : Nat} {b : Blk} (h : regAt off b i o view) (hr : b ≠ .rst ∨ o ≠ 8)
    (hu : hubUp s = true) (req : Requester) (v : Word) : regWriteAny s req off 4 v = pageWrite s req b i o view v := by
  unfold regWriteAny
  rw [if_neg, windowWrite_regAt h hu]
  rintro ⟨-, h2, h3⟩
  obtain ⟨-, h0, f, h4, h5⟩ := h
  rw [place_rst h2] at h4
  simp only [Place.frame.injEq] at h4
  obtain ⟨e1, -, e3⟩ := h4
  rw [← e1] at h5
  simp only [pageOf] at h5
  rcases hr with h6 | h6
  · exact h6 h5
  · omega

theorem named_regAt {off i o view : Nat} {b : Blk} (h : regAt off b i o view) : named off = some (b, o, view) := by
  obtain ⟨-, h0, f, h2, h3⟩ := h
  unfold named
  have e1 : (1024 * view + o) % 1024 = o := by omega
  have e2 : (1024 * view + o) / 1024 = view := by omega
  simp [h2, h3, e1, e2]

/-- A read of a register's offset is the read of its page. -/
theorem windowRead_regAt {s : State} {off i o view : Nat} {b : Blk} (h : regAt off b i o view) (hu : hubUp s = true) (req : Requester) :
    windowRead s req off 4 = pageRead s req b i o off := by
  have ha := accReason_regAt h req
  obtain ⟨-, h0, f, h2, h3⟩ := h
  unfold windowRead
  have e1 : (1024 * view + o) % 1024 = o := by omega
  simp [hu, ha, h2, h3, e1]

/-- A write to a plain register is what its fields store and its page's effect, but for a LO half of the base page. -/
theorem pageWrite_plain {s : State} {req : Requester} {b : Blk} {i o view : Nat} (hf : frameOpen s b i) {l : List Nat}
    (hl : reached s req b i o true = some l) (hp : plainReg b o) (hn : ¬ (view = 0 ∧ isLo b o = true)) (v : Word) :
    pageWrite s req b i o view v = plainWrite (landHolding s req b i o view) req b i o view v := by
  obtain ⟨h1, h2, h3⟩ := hf
  obtain ⟨p1, p2, p3, p4, p5, p6, -⟩ := hp
  have hc : checkedWrite s req b i o view v = plainWrite (landHolding s req b i o view) req b i o view v := by
    unfold checkedWrite
    split <;> first | rfl | (simp_all; done)
  have hn' : (decide (view = 0) && isLo b o) = false := by
    rw [Bool.and_eq_false_iff, decide_eq_false_iff_not]
    by_cases hv : view = 0
    · right; exact Bool.eq_false_iff.mpr fun h => hn ⟨hv, h⟩
    · exact .inl hv
  unfold pageWrite
  simp only [h2, h3, hl, p1, p2, hc, Bool.false_eq_true, if_false, false_and]
  rw [if_neg hn]

end Sys2Proof.Laws
end

