-- ==== Sys2Proof/Laws/Boot.lean ====
section
/-! SUPPORT. What a boot leaves alone: the records of the settings area. One lemma for each operation that a boot runs. -/

namespace Sys2Proof.Laws

open Sys2Proof.Machine

set_option maxRecDepth 4000

/-- Two states hold the same records. -/
def Recs (a b : State) : Prop := a.settings.records = b.settings.records

@[simp] theorem recs_iff (a b : State) : Recs a b ↔ a.settings.records = b.settings.records := Iff.rfl

@[simp] theorem recs_foldl {α : Type} (f : State → α → State) (h : ∀ s a, Recs (f s a) s) (l : List α) (s : State) :
    (l.foldl f s).settings.records = s.settings.records := by
  induction l generalizing s with
  | nil => rfl
  | cons a t ih => exact (ih _).trans (h s a)

@[simp] theorem recs_foldl1 {α β : Type} (f : State × β → α → State × β) (h : ∀ s a, Recs (f s a).1 s.1) (l : List α) (s : State × β) :
    (l.foldl f s).1.settings.records = s.1.settings.records := by
  induction l generalizing s with
  | nil => rfl
  | cons a t ih => exact (ih _).trans (h s a)

@[simp] theorem recs_regPut (s : State) (k : Nat) (w : Word) : (regPut s k w).settings.records = s.settings.records := by
  unfold regPut; simp

@[simp] theorem recs_wf (s : State) (f : Fld) (i v : Nat) : (wf s f i v).settings.records = s.settings.records := by
  unfold wf; simp

@[simp] theorem recs_wf2 (s : State) (lo hi : Fld) (i v : Nat) : (wf2 s lo hi i v).settings.records = s.settings.records := by
  unfold wf2; simp

@[simp] theorem recs_bump (s : State) (lo : Fld) (i n : Nat) : (bump s lo i n).settings.records = s.settings.records := by
  unfold bump; simp

@[simp] theorem recs_bumpIf (s : State) (en lo : Fld) (i n : Nat) : (bumpIf s en lo i n).settings.records = s.settings.records := by
  unfold bumpIf; split <;> simp

@[simp] theorem recs_bumpSat (s : State) (f : Fld) (i n : Nat) : (bumpSat s f i n).settings.records = s.settings.records := by
  unfold bumpSat; simp

@[simp] theorem recs_seqAdvance (s : State) (k : Nat) : (seqAdvance s k).settings.records = s.settings.records := by
  unfold seqAdvance; split <;> simp

@[simp] theorem recs_ev (s : State) (f : Fld) (i : Nat) : (ev s f i).settings.records = s.settings.records := by
  unfold ev; simp

@[simp] theorem recs_fresh (s : State) : (fresh s).2.settings.records = s.settings.records := by
  unfold fresh; simp

@[simp] theorem recs_setCore (s : State) (g : Nat) (c : CoreSt) : (setCore s g c).settings.records = s.settings.records := by
  unfold setCore; simp

@[simp] theorem recs_setPart (s : State) (p : Nat) (c : PartSt) : (setPart s p c).settings.records = s.settings.records := by
  unfold setPart; simp

@[simp] theorem recs_setPort (s : State) (n : Nat) (p : PortSt) : (setPort s n p).settings.records = s.settings.records := by
  unfold setPort; simp

@[simp] theorem recs_waybillDue (s : State) : (waybillDue s).settings.records = s.settings.records := by
  unfold waybillDue; simp

@[simp] theorem recs_markStep (s : State) (cause : Nat) : (markStep s cause).settings.records = s.settings.records := by
  unfold markStep; dsimp only; (repeat' split) <;> simp

@[simp] theorem recs_trace (s : State) (kind queue core opcode tag event part : Nat) : (trace s kind queue core opcode tag event part).settings.records = s.settings.records := by
  unfold trace; dsimp only; (repeat' split) <;> simp

@[simp] theorem recs_warnTrigger (s : State) (b : Nat) : (warnTrigger s b).settings.records = s.settings.records := by
  unfold warnTrigger; dsimp only; (repeat' split) <;> simp

@[simp] theorem recs_warnCount (s : State) (b limit : Nat) : (warnCount s b limit).settings.records = s.settings.records := by
  unfold warnCount; dsimp only; (repeat' split) <;> simp

@[simp] theorem recs_warnEvent (s : State) (e : Nat) : (warnEvent s e).settings.records = s.settings.records := by
  unfold warnEvent; (repeat' split) <;> simp

@[simp] theorem recs_raise (s : State) (e : Nat) (u : EvUnit) (tag aux : Nat) : (raise s e u tag aux).settings.records = s.settings.records := by
  unfold raise; dsimp only; (repeat' split) <;> simp

@[simp] theorem recs_timeUnlock (s : State) : (timeUnlock s).settings.records = s.settings.records := by
  unfold timeUnlock; split <;> simp

@[simp] theorem recs_timePortDown (s : State) (n : Nat) : (timePortDown s n).settings.records = s.settings.records := by
  unfold timePortDown; split <;> simp

@[simp] theorem recs_copyConfig (s : State) (src dst : Nat) : (copyConfig s src dst).settings.records = s.settings.records := by
  unfold copyConfig; apply recs_foldl; intro s a; simp only [recs_iff]; (repeat' split) <;> simp

@[simp] theorem recs_ringPauseWith (s : State) (r reason : Nat) : (ringPauseWith s r reason).settings.records = s.settings.records := by
  unfold ringPauseWith; split <;> simp

@[simp] theorem recs_pauseRingsOf (s : State) (g reason : Nat) : (pauseRingsOf s g reason).settings.records = s.settings.records := by
  unfold pauseRingsOf; apply recs_foldl; intro s a; simp only [recs_iff]; (repeat' split) <;> simp

@[simp] theorem recs_cperPush (s : State) (kind index sig verdict : Nat) (i : CperInfo) : (cperPush s kind index sig verdict i).settings.records = s.settings.records := by
  unfold cperPush; dsimp only; (repeat' split) <;> simp

@[simp] theorem recs_dropWork (s : State) (g : Nat) : (dropWork s g).settings.records = s.settings.records := by
  unfold dropWork; simp

@[simp] theorem recs_pageReset (s : State) (b : Blk) (i : Nat) : (pageReset s b i).settings.records = s.settings.records := by
  unfold pageReset; simp

@[simp] theorem recs_coreReset (s : State) (g : Nat) : (coreReset s g).settings.records = s.settings.records := by
  unfold coreReset; simp

@[simp] theorem recs_degraded (s : State) (p : Nat) : (degraded s p).settings.records = s.settings.records := by
  unfold degraded; simp

@[simp] theorem recs_remountCore (s : State) (g : Nat) : (remountCore s g).settings.records = s.settings.records := by
  unfold remountCore; dsimp only; (repeat' split) <;> simp

@[simp] theorem recs_fenceCore (s : State) (g : Nat) : (fenceCore s g).settings.records = s.settings.records := by
  unfold fenceCore; dsimp only; (repeat' split) <;> simp

@[simp] theorem recs_chanPending (s : State) (p k : Nat) : (chanPending s p k).settings.records = s.settings.records := by
  unfold chanPending; dsimp only; (repeat' split) <;> simp

@[simp] theorem recs_evBit (s : State) (f : Fld) (i b : Nat) : (evBit s f i b).settings.records = s.settings.records := by
  unfold evBit; simp

@[simp] theorem recs_portEv (s : State) (n : Nat) (f : Fld) (any : Nat) : (portEv s n f any).settings.records = s.settings.records := by
  unfold portEv; simp

@[simp] theorem recs_portDrop (s : State) (n cause k : Nat) : (portDrop s n cause k).settings.records = s.settings.records := by
  unfold portDrop; split <;> simp

@[simp] theorem recs_portRetire (s : State) (n : Nat) : (portRetire s n).settings.records = s.settings.records := by
  unfold portRetire; dsimp only; (repeat' split) <;> simp

@[simp] theorem recs_verdictAct (s : State) (kind index : Nat) : (verdictAct s kind index).settings.records = s.settings.records := by
  unfold verdictAct; (repeat' split) <;> simp

@[simp] theorem recs_enterVerdict (s : State) (kind index sig code : Nat) (i : CperInfo) : (enterVerdict s kind index sig code i).1.settings.records = s.settings.records := by
  unfold enterVerdict; dsimp only; (repeat' split) <;> simp

@[simp] theorem recs_recordVerdict (s : State) (kind index sig code : Nat) (i : CperInfo) : (recordVerdict s kind index sig code i).settings.records = s.settings.records := by
  unfold recordVerdict; dsimp only; (repeat' split) <;> simp

@[simp] theorem recs_queueRetest (s : State) (kind index sig : Nat) : (queueRetest s kind index sig).settings.records = s.settings.records := by
  unfold queueRetest; split <;> simp

@[simp] theorem recs_newEvent (s : State) (kind index sig : Nat) (counts : Bool) (i : CperInfo) : (newEvent s kind index sig counts i).settings.records = s.settings.records := by
  unfold newEvent; dsimp only; (repeat' split) <;> simp

@[simp] theorem recs_fhReport (s : State) (kind index sig : Nat) (counts : Bool) (i : CperInfo) : (fhReport s kind index sig counts i).settings.records = s.settings.records := by
  unfold fhReport; dsimp only; (repeat' split) <;> simp

@[simp] theorem recs_retestEnd (s : State) (kind index sig : Nat) (pass : Bool) : (retestEnd s kind index sig pass).settings.records = s.settings.records := by
  unfold retestEnd; split <;> simp

@[simp] theorem recs_trainChan (s : State) (m : Measured) (p k : Nat) : (trainChan s m p k).settings.records = s.settings.records := by
  show Recs _ _; unfold trainChan; dsimp only; split <;> simp

@[simp] theorem recs_retestClose (s : State) (r : Nat × Nat × Nat) (pass act : Bool) : (retestClose s r pass act).settings.records = s.settings.records := by
  show Recs _ _; unfold retestClose; (repeat' (first | split | dsimp only)) <;> simp

@[simp] theorem recs_trainStack (s : State) (p : Nat) (m : Measured) : (trainStack s p m).settings.records = s.settings.records := by
  show Recs _ _; unfold trainStack; (repeat' (first | split | dsimp only)) <;> simp

@[simp] theorem recs_relayout (s : State) (p : Nat) (old : List Nat) : (relayout s p old).settings.records = s.settings.records := by
  show Recs _ _; unfold relayout; dsimp only; split <;> simp

@[simp] theorem recs_istFail (s : State) (g pattern expected got : Nat) (act : Bool) : (istFail s g pattern expected got act).settings.records = s.settings.records := by
  show Recs _ _; unfold istFail; dsimp only; split <;> simp

@[simp] theorem recs_checkCore (s : State) (m : Measured) (act : Bool) (g : Nat) : (checkCore s m act g).settings.records = s.settings.records := by
  show Recs _ _; unfold checkCore; (repeat' (first | split | dsimp only)) <;> simp

@[simp] theorem recs_checkCores (s : State) (p : Nat) (m : Measured) (act : Bool) : (checkCores s p m act).settings.records = s.settings.records := by
  show Recs _ _; unfold checkCores; (repeat' (first | split | dsimp only)) <;> simp

@[simp] theorem recs_settleFailed (s : State) (p : Nat) : (settleFailed s p).settings.records = s.settings.records := by
  show Recs _ _; unfold settleFailed; (repeat' (first | split | dsimp only)) <;> simp

@[simp] theorem recs_clearVerdicts (s : State) : (clearVerdicts s).settings.records = s.settings.records := by
  show Recs _ _; unfold clearVerdicts; dsimp only; split <;> simp

@[simp] theorem recs_portsKept (s : State) : (portsKept s).settings.records = s.settings.records := by
  unfold portsKept; apply recs_foldl; intro s a; simp only [recs_iff]; (repeat' split) <;> simp

@[simp] theorem recs_fencesRetest (s : State) (ms : List (Nat × Measured)) : (fencesRetest s ms).settings.records = s.settings.records := by
  unfold fencesRetest; apply recs_foldl; intro s a; simp only [recs_iff]; (repeat' split) <;> simp

@[simp] theorem recs_spareGive (s : State) (l : List Nat) : (spareGive s l).settings.records = s.settings.records := by
  unfold spareGive; apply recs_foldl; intro s a; simp only [recs_iff]; (repeat' split) <;> simp

@[simp] theorem recs_rolesRebuild (s : State) : (rolesRebuild s).settings.records = s.settings.records := by
  unfold rolesRebuild; grind [recs_wf, recs_degraded, recs_spareGive, recs_foldl, recs_iff]

@[simp] theorem recs_partsCheck (s : State) (ms : List (Nat × Measured)) (ps : List Nat) : (partsCheck s ms ps).settings.records = s.settings.records := by
  show Recs _ _; unfold partsCheck; (repeat' (first | split | dsimp only)) <;> simp

@[simp] theorem recs_waybillBuild (s : State) : (waybillBuild s).settings.records = s.settings.records := by
  show Recs _ _; unfold waybillBuild; (repeat' (first | split | dsimp only)) <;> simp

/-- Nothing is applied where there is no record. -/
theorem recordsApply_none {s : State} (h : s.settings.records = []) : recordsApply s = s := by
  unfold recordsApply
  rw [h, show aget ([] : List (Nat × List Byte)) 1 = none from rfl]
  dsimp only
  rw [h, show aget ([] : List (Nat × List Byte)) 2 = none from rfl]

/-- A boot with no record of its own to apply leaves none. -/
theorem recs_bootParts (s : State) (ms : List (Nat × Measured)) (h : s.settings.records = []) : (bootParts s ms).settings.records = [] := by
  have hc : (clearVerdicts s).settings.records = [] := (recs_clearVerdicts s).trans h
  refine (recs_waybillBuild _).trans ((recs_foldl _ (fun _ _ => recs_settleFailed _ _) _ _).trans ((recs_rolesRebuild _).trans ((recs_fencesRetest _ _).trans
    ((recs_partsCheck _ _ _).trans ((recs_portsKept _).trans ?_)))))
  rw [recordsApply_none hc, hc]

/-- The same of a hub reset. -/
theorem recs_hubBring (s : State) (ms : List (Nat × Measured)) (ps : List Nat) (was : State) (h : s.settings.records = []) :
    (hubBring s ms ps was).settings.records = [] := by
  refine (recs_foldl _ (fun _ _ => recs_raise _ _ _ _ _) _ _).trans ?_
  have g : ∀ (c : Prop) [Decidable c] (u : State), u.settings.records = [] → (if c then u else waybillDue u).settings.records = [] := by
    intro c _ u hu
    split
    · exact hu
    · exact (recs_waybillDue u).trans hu
  refine g _ _ ((recs_foldl _ (fun _ _ => recs_settleFailed _ _) _ _).trans ((recs_rolesRebuild _).trans ((recs_foldl _ (fun _ _ => recs_relayout _ _ _) _ _).trans
    ((recs_partsCheck _ _ _).trans ((recs_portsKept _).trans ?_)))))
  rw [recordsApply_none h, h]

/-- No record, no entry. -/
theorem presetEntries_none {s : State} (h : s.settings.records = []) : presetEntries s = [] := by
  unfold presetEntries
  rw [h]
  decide +kernel

end Sys2Proof.Laws
end

