-- ==== Sys2Proof/Laws/Raise.lean ====
section
/-! SUPPORT. What recording an event in the ledger can change. -/

namespace Sys2Proof.Laws

open Sys2Proof.Machine

/-- Registers that recording an event in the ledger may write. -/
def raiseKeys : List Nat :=
  [F.HUB_SR_EVENT_FAILED.key 0, F.LEDGER_TRACE_DROP_COUNT.key 0, F.CKP_WARN_STATUS_TRIGGER.key 0, F.CKP_EVENT_WARN.key 0, F.CKP_STATUS_PENDING.key 0]

/-- A state that differs from another in what recording an event may change. -/
def RaiseRel (s t : State) : Prop :=
  (∃ r m q l sr ck, t = { s with regs := r, tmr := m, seqTicked := q, ledger := l, sr := sr, ckp := ck }) ∧
  (∀ k, k ∉ raiseKeys → regLive t k = regLive s k)

theorem RaiseRel.refl (s : State) : RaiseRel s s := ⟨⟨_, _, _, _, _, _, rfl⟩, fun _ _ => rfl⟩

theorem RaiseRel.trans {a b c : State} (h : RaiseRel a b) (g : RaiseRel b c) : RaiseRel a c := by
  obtain ⟨⟨r, m, q, l, sr, ck, e⟩, h2⟩ := h
  obtain ⟨⟨r', m', q', l', sr', ck', e'⟩, g2⟩ := g
  refine ⟨⟨r', m', q', l', sr', ck', ?_⟩, fun k hk => (g2 k hk).trans (h2 k hk)⟩
  rw [e', e]

theorem RaiseRel.wf {s : State} {f : Fld} {i v : Nat} (h : f.key i ∈ raiseKeys) : RaiseRel s (wf s f i v) := by
  obtain ⟨r, m, e⟩ := wf_parts s f i v
  refine ⟨⟨r, m, s.seqTicked, s.ledger, s.sr, s.ckp, by rw [e]⟩, fun k hk => regLive_wf_ne _ _ _ _ _ fun e => hk (e ▸ h)⟩

theorem RaiseRel.ev {s : State} {f : Fld} {i : Nat} (h : f.key i ∈ raiseKeys) : RaiseRel s (ev s f i) := by
  obtain ⟨r, m, q, e⟩ := ev_eq s f i
  refine ⟨⟨r, m, q, s.ledger, s.sr, s.ckp, by rw [e]⟩, fun k hk => regLive_ev_ne _ _ _ fun e => hk (e ▸ h)⟩

theorem RaiseRel.ledger (s : State) (l : LedgerSt) : RaiseRel s { s with ledger := l } :=
  ⟨⟨_, _, _, _, _, _, rfl⟩, fun _ _ => rfl⟩

theorem RaiseRel.sr (s : State) (x : StepSt) : RaiseRel s { s with sr := x } := ⟨⟨_, _, _, _, _, _, rfl⟩, fun _ _ => rfl⟩

theorem RaiseRel.ckp (s : State) (x : CkpSt) : RaiseRel s { s with ckp := x } := ⟨⟨_, _, _, _, _, _, rfl⟩, fun _ _ => rfl⟩

theorem RaiseRel.trace (s : State) (kind queue core opcode tag event part : Nat) : RaiseRel s (trace s kind queue core opcode tag event part) := by
  unfold Machine.trace
  split
  · simp only []
    generalize (if s.ledger.marker = some _ then _ else _ : List (List Byte)) = mark
    split
    · exact RaiseRel.wf (by decide)
    · exact RaiseRel.ledger _ _
  · exact RaiseRel.refl _

/-- A trace record leaves the events of the tick in progress alone. -/
theorem trace_cur (s : State) (kind queue core opcode tag event part : Nat) :
    (trace s kind queue core opcode tag event part).ledger.cur = s.ledger.cur := by
  unfold Machine.trace
  split
  · simp only []
    generalize (if s.ledger.marker = some _ then _ else _ : List (List Byte)) = mark
    split
    · unfold bumpSat
      obtain ⟨r, m, e⟩ := wf_parts s F.LEDGER_TRACE_DROP_COUNT 0 (satAdd (rf s F.LEDGER_TRACE_DROP_COUNT 0) 1)
      rw [e]
    · rfl
  · rfl

theorem RaiseRel.markStep (s : State) (c : Nat) : RaiseRel s (markStep s c) := by
  unfold Machine.markStep
  simp only []
  have key : ∀ x : StepSt, RaiseRel s { s with sr := x } := RaiseRel.sr s
  split
  · exact (key _).trans (RaiseRel.ev (by decide))
  · split
    · exact (key _).trans (RaiseRel.ev (by decide))
    · exact key _

theorem ev_ledger (s : State) (f : Fld) (i : Nat) : (ev s f i).ledger = s.ledger := by
  obtain ⟨r, m, q, e⟩ := ev_eq s f i; rw [e]

theorem wf_ledger (s : State) (f : Fld) (i v : Nat) : (wf s f i v).ledger = s.ledger := by
  obtain ⟨r, m, e⟩ := wf_parts s f i v; rw [e]

theorem markStep_ledger (s : State) (c : Nat) : (markStep s c).ledger = s.ledger := by
  unfold Machine.markStep
  simp only []
  split
  · rw [ev_ledger]
  · split
    · rw [ev_ledger]
    · rfl

theorem RaiseRel.warnTrigger (s : State) (b : Nat) : RaiseRel s (warnTrigger s b) := by
  unfold Machine.warnTrigger
  simp only []
  have h1 : RaiseRel s (Machine.wf s F.CKP_WARN_STATUS_TRIGGER 0 (putBits b b 1 (rf s F.CKP_WARN_STATUS_TRIGGER 0))) := RaiseRel.wf (by decide)
  have h2 := h1.trans (RaiseRel.ev (f := F.CKP_EVENT_WARN) (i := 0) (by decide))
  split
  · exact (h2.trans (RaiseRel.ckp _ _)).trans (RaiseRel.wf (by decide))
  · exact h2

theorem warnTrigger_ledger (s : State) (b : Nat) : (warnTrigger s b).ledger = s.ledger := by
  unfold Machine.warnTrigger
  simp only []
  split
  · rw [wf_ledger]
    show (ev _ _ _).ledger = _
    rw [ev_ledger, wf_ledger]
  · rw [ev_ledger, wf_ledger]

theorem RaiseRel.warnCount (s : State) (b n : Nat) : RaiseRel s (warnCount s b n) := by
  unfold Machine.warnCount
  simp only []
  split
  · exact (RaiseRel.ckp s _).trans (RaiseRel.warnTrigger _ _)
  · exact RaiseRel.ckp s _

theorem warnCount_ledger (s : State) (b n : Nat) : (warnCount s b n).ledger = s.ledger := by
  unfold Machine.warnCount
  simp only []
  split
  · rw [warnTrigger_ledger]
  · rfl

theorem RaiseRel.warnEvent (s : State) (e : Nat) : RaiseRel s (warnEvent s e) := by
  unfold Machine.warnEvent
  split
  · exact RaiseRel.warnCount _ _ _
  · split
    · exact RaiseRel.warnCount _ _ _
    · exact RaiseRel.refl _

theorem warnEvent_ledger (s : State) (e : Nat) : (warnEvent s e).ledger = s.ledger := by
  unfold Machine.warnEvent
  split
  · exact warnCount_ledger _ _ _
  · split
    · exact warnCount_ledger _ _ _
    · rfl

/-- The record that an event leaves in the tick in progress (R405 to R408). -/
def raiseRec (s : State) (e : Nat) (u : EvUnit) (tag aux : Nat) : LedgerRec :=
  { tick := tick s, cls := eventClass e, kind := u.kind, event := e, index := u.index, tag := tag
    step := ((windowStep s).map (·.step)).getD 0xFFFFFFFFFFFF, attempt := ((windowStep s).map (·.attempt)).getD 0
    interlude := interludeLive s, transit := (eventClass e == 1 || eventClass e == 2 || eventClass e == 6) && transitMarked s
    unsync := !locked s, order := 0, aux := aux
    part := u.part, core := u.core, port := u.port, lane := u.lane }

theorem RaiseRel.markIf (x : State) (p : Prop) [Decidable p] (c : Nat) : RaiseRel x (if p then Machine.markStep x c else x) := by
  split
  · exact RaiseRel.markStep _ _
  · exact RaiseRel.refl _

theorem markIf_ledger (x : State) (p : Prop) [Decidable p] (c : Nat) : (if p then Machine.markStep x c else x).ledger = x.ledger := by
  split
  · exact markStep_ledger _ _
  · rfl

/-- Recording an event changes the ledger, the steps it marks, the warning windows and their registers, and nothing else. -/
theorem raise_rel (s : State) (e : Nat) (u : EvUnit) (tag aux : Nat) : RaiseRel s (raise s e u tag aux) := by
  have h := (RaiseRel.ledger s { s.ledger with cur := s.ledger.cur ++ [raiseRec s e u tag aux] }).trans
    (RaiseRel.trace _ 4 0 (if u.kind = 1 then u.index else 0x1FF) 0 tag e u.part)
  exact (h.trans (RaiseRel.markIf _ _ _)).trans (RaiseRel.warnEvent _ _)

/-- The event stands last among the events of the tick. -/
theorem raise_cur (s : State) (e : Nat) (u : EvUnit) (tag aux : Nat) : (raise s e u tag aux).ledger.cur = s.ledger.cur ++ [raiseRec s e u tag aux] := by
  unfold raise
  simp only []
  rw [warnEvent_ledger, markIf_ledger, trace_cur]
  rfl

end Sys2Proof.Laws
end

