-- ==== Sys2Proof/Laws/Sequence.lean ====
section
/-! SUPPORT. Laws of flags, counters, queues and of firing a signal. -/

namespace Sys2Proof.Laws

open Sys2Proof.Machine
open Sys2Proof.Safety

/-! ### Flags and counters -/

theorem rf_wf_word (s : State) (f : Fld) (g v : Nat) (hh : f.hi = 31) (hl : f.lo = 0) : rf (wf s f g v) f g = v % 2 ^ 32 := by
  rw [rf_wf_same s f g v (by omega) (by omega), hh, hl]

theorem nth_key_ne (f : Fld) (g : Nat) {a b : Nat} (hs : 0 < f.stride) (h : a ≠ b) : (f.nth a).key g ≠ (f.nth b).key g := by
  unfold Fld.key Fld.nth
  apply regKey_off_ne
  dsimp only
  intro e
  have : a * f.stride = b * f.stride := by omega
  exact h (Nat.eq_of_mul_eq_mul_right hs this)

theorem putBits_lt (hi lo v n w : Nat) (h : lo ≤ hi) (hw : hi < w) (hn : n < 2 ^ w) : putBits hi lo v n % 2 ^ w = putBits hi lo v n := by
  apply Nat.mod_eq_of_lt
  apply Nat.lt_pow_two_of_testBit
  intro i hi
  rw [testBit_putBits _ _ _ _ _ h, if_neg (by omega), if_neg (by omega)]
  exact Nat.testBit_lt_two_pow (Nat.lt_of_lt_of_le hn (Nat.pow_le_pow_right (by omega) hi))

theorem rf_lt (s : State) (f : Fld) (g w : Nat) (h : f.hi + 1 - f.lo = w) : rf s f g < 2 ^ w := by
  have := bits_lt f.hi f.lo (regLive s (f.key g)).toNat
  rw [h] at this; exact this

theorem flagGet_flagPut_same (s : State) (g n : Nat) (v : Bool) : flagGet (flagPut s g n v) g n = v := by
  unfold flagGet flagPut
  simp only []
  rw [rf_wf_word _ _ _ _ rfl rfl, putBits_lt _ _ _ _ 32 (Nat.le_refl _) (Nat.mod_lt _ (by omega)) (rf_lt _ _ _ 32 rfl)]
  unfold bit
  rw [bits_putBits_same _ _ _ _ (Nat.le_refl _)]
  cases v <;> simp [b2n]

theorem flagGet_flagPut_ne (s : State) (g n k : Nat) (v : Bool) (h : k ≠ n) : flagGet (flagPut s g n v) g k = flagGet s g k := by
  unfold flagGet flagPut
  simp only []
  by_cases hw : k / 32 = n / 32
  · rw [hw, rf_wf_word _ _ _ _ rfl rfl, putBits_lt _ _ _ _ 32 (Nat.le_refl _) (Nat.mod_lt _ (by omega)) (rf_lt _ _ _ 32 rfl)]
    unfold bit
    rw [bits_putBits_disj _ _ _ _ _ _ (Nat.le_refl _) (by omega)]
  · rw [rf_wf_ne _ _ _ _ _ _ (nth_key_ne _ _ (by decide) hw)]

theorem setterGet_setterPut_same (s : State) (g n v : Nat) : setterGet (setterPut s g n v) g n = v % 16 := by
  unfold setterGet setterPut
  simp only []
  rw [rf_wf_word _ _ _ _ rfl rfl, putBits_lt _ _ _ _ 32 (by omega) (by omega) (rf_lt _ _ _ 32 rfl)]
  rw [bits_putBits_same _ _ _ _ (by omega), show 4 * (n % 8) + 3 + 1 - 4 * (n % 8) = 4 by omega, show (2 : Nat) ^ 4 = 16 from rfl]

theorem setterGet_setterPut_ne (s : State) (g n k v : Nat) (h : k ≠ n) : setterGet (setterPut s g n v) g k = setterGet s g k := by
  unfold setterGet setterPut
  simp only []
  by_cases hw : k / 8 = n / 8
  · rw [hw, rf_wf_word _ _ _ _ rfl rfl, putBits_lt _ _ _ _ 32 (by omega) (by omega) (rf_lt _ _ _ 32 rfl)]
    rw [bits_putBits_disj _ _ _ _ _ _ (by omega) (by omega)]
  · rw [rf_wf_ne _ _ _ _ _ _ (nth_key_ne _ _ (by decide) hw)]

/-- Keys of the flags, of the declarations and of the counters of a core. -/
def flagKey (g n : Nat) : Nat := (F.SEQ_FLAGS_FLAG.nth (n / 32)).key g
def setterKey (g n : Nat) : Nat := (F.SEQ_FLAG_DECL_SETTER.nth (n / 8)).key g
def cntKey (g n : Nat) : Nat := (F.SEQ_CNT_VALUE.nth n).key g

theorem flagGet_congr {s t : State} {g n : Nat} (h : regLive t (flagKey g n) = regLive s (flagKey g n)) : flagGet t g n = flagGet s g n := by
  unfold flagGet rf; rw [show (F.SEQ_FLAGS_FLAG.nth (n / 32)).key g = flagKey g n from rfl, h]

theorem setterGet_congr {s t : State} {g n : Nat} (h : regLive t (setterKey g n) = regLive s (setterKey g n)) : setterGet t g n = setterGet s g n := by
  unfold setterGet rf; rw [show (F.SEQ_FLAG_DECL_SETTER.nth (n / 8)).key g = setterKey g n from rfl, h]

theorem cntGet_congr {s t : State} {g n : Nat} (h : regLive t (cntKey g n) = regLive s (cntKey g n)) : cntGet t g n = cntGet s g n := by
  unfold cntGet rf; rw [show (F.SEQ_CNT_VALUE.nth n).key g = cntKey g n from rfl, h]

theorem flagPut_rel (s : State) (g n : Nat) (v : Bool) : onlyRegs [flagKey g n] s (flagPut s g n v) := by
  unfold flagPut
  simp only []
  refine ⟨fun k hk => ?_, ?_⟩
  · exact regLive_wf_ne _ _ _ _ _ fun e => hk (List.mem_singleton.mpr e)
  · obtain ⟨r, m, e⟩ := wf_parts s (F.SEQ_FLAGS_FLAG.nth (n / 32)) g (putBits (n % 32) (n % 32) (b2n v) (rf s (F.SEQ_FLAGS_FLAG.nth (n / 32)) g))
    rw [e]

theorem setterPut_rel (s : State) (g n v : Nat) : onlyRegs [setterKey g n] s (setterPut s g n v) := by
  unfold setterPut
  simp only []
  refine ⟨fun k hk => ?_, ?_⟩
  · exact regLive_wf_ne _ _ _ _ _ fun e => hk (List.mem_singleton.mpr e)
  · obtain ⟨r, m, e⟩ := wf_parts s (F.SEQ_FLAG_DECL_SETTER.nth (n / 8)) g (putBits (4 * (n % 8) + 3) (4 * (n % 8)) v (rf s (F.SEQ_FLAG_DECL_SETTER.nth (n / 8)) g))
    rw [e]

theorem cntPut_rel (s : State) (g n v : Nat) : onlyRegs [cntKey g n] s (cntPut s g n v) := by
  unfold cntPut
  refine ⟨fun k hk => ?_, ?_⟩
  · exact regLive_wf_ne _ _ _ _ _ fun e => hk (List.mem_singleton.mpr e)
  · obtain ⟨r, m, e⟩ := wf_parts s (F.SEQ_CNT_VALUE.nth n) g (v % 2 ^ 32)
    rw [e]

theorem cntGet_cntPut_same (s : State) (g n v : Nat) : cntGet (cntPut s g n v) g n = v % 2 ^ 32 := by
  unfold cntGet cntPut
  rw [rf_wf_word _ _ _ _ rfl rfl, Nat.mod_mod]

/-- The words of flags and of setters lie apart. -/
theorem flagKey_ne_setterKey (g : Nat) {n k : Nat} (hn : n < 256) : flagKey g n ≠ setterKey g k := by
  unfold flagKey setterKey Fld.key Fld.nth F.SEQ_FLAGS_FLAG F.SEQ_FLAG_DECL_SETTER
  apply regKey_off_ne; dsimp only; omega

/-! ### Queues -/

theorem getCore_setCore_same (s : State) (g : Nat) (c : CoreSt) : getCore (setCore s g c) g = c := sget_sput_same _ _ _ _

theorem getCore_setCore_ne (s : State) (c : CoreSt) {g h : Nat} (e : h ≠ g) : getCore (setCore s g c) h = getCore s h := sget_sput_ne _ _ _ e

theorem queueOf_setQueue_same (s : State) (g q : Nat) (v : QueueSt) (h : q < (getCore s g).queues.length) : queueOf (setQueue s g q v) g q = v := by
  unfold queueOf setQueue
  simp only []
  rw [getCore_setCore_same]
  show ((getCore s g).queues.set q v).getD q QueueSt.reset = v
  rw [List.getD_eq_getElem?_getD, List.getElem?_set_self h]; rfl

theorem getCore_with {s t : State} (h : t.cores = s.cores) (g : Nat) : getCore t g = getCore s g := by unfold getCore; rw [h]

theorem queueOf_with {s t : State} (h : t.cores = s.cores) (g q : Nat) : queueOf t g q = queueOf s g q := by
  unfold queueOf; rw [getCore_with h]

/-! ### Firing signals -/

/-- Registers that firing a signal of a core may write: those of a dropped signal, and those of its trace record. -/
def fireKeys (g : Nat) : List Nat :=
  [F.SEQ_SIG_DROP_COUNT_COUNT.key g, F.SEQ_SIG_INFO_EVENT.key g, F.SEQ_EVENT_SIG_DROP.key g] ++ raiseKeys

/-- A state that differs from another in what firing a signal may change. -/
def FireRel (ks : List Nat) (s t : State) : Prop :=
  (∃ r m q l sr ck sg fb, t = { s with regs := r, tmr := m, seqTicked := q, ledger := l, sr := sr, ckp := ck, signals := sg, fab := fb }) ∧
  (∀ k, k ∉ ks → regLive t k = regLive s k)

theorem FireRel.refl (ks : List Nat) (s : State) : FireRel ks s s := ⟨⟨_, _, _, _, _, _, _, _, rfl⟩, fun _ _ => rfl⟩

theorem FireRel.trans {ks : List Nat} {a b c : State} (h : FireRel ks a b) (g : FireRel ks b c) : FireRel ks a c := by
  obtain ⟨⟨r, m, q, l, sr, ck, sg, fb, e⟩, h2⟩ := h
  obtain ⟨⟨r', m', q', l', sr', ck', sg', fb', e'⟩, g2⟩ := g
  refine ⟨⟨r', m', q', l', sr', ck', sg', fb', ?_⟩, fun k hk => (g2 k hk).trans (h2 k hk)⟩
  rw [e', e]

theorem FireRel.wf {ks : List Nat} {s : State} {f : Fld} {i v : Nat} (h : f.key i ∈ ks) : FireRel ks s (Machine.wf s f i v) := by
  obtain ⟨r, m, e⟩ := wf_parts s f i v
  refine ⟨⟨r, m, s.seqTicked, s.ledger, s.sr, s.ckp, s.signals, s.fab, by rw [e]⟩, fun k hk => regLive_wf_ne _ _ _ _ _ fun e => hk (e ▸ h)⟩

theorem FireRel.ev {ks : List Nat} {s : State} {f : Fld} {i : Nat} (h : f.key i ∈ ks) : FireRel ks s (Machine.ev s f i) := by
  obtain ⟨r, m, q, e⟩ := ev_eq s f i
  refine ⟨⟨r, m, q, s.ledger, s.sr, s.ckp, s.signals, s.fab, by rw [e]⟩, fun k hk => regLive_ev_ne _ _ _ fun e => hk (e ▸ h)⟩

theorem FireRel.of_raise {ks : List Nat} {s t : State} (h : RaiseRel s t) (hk : ∀ k ∈ raiseKeys, k ∈ ks) : FireRel ks s t := by
  obtain ⟨⟨r, m, q, l, sr, ck, e⟩, h2⟩ := h
  exact ⟨⟨r, m, q, l, sr, ck, s.signals, s.fab, by rw [e]⟩, fun k hn => h2 k fun hx => hn (hk k hx)⟩

theorem sigDrop_rel (s : State) (g c a i : Nat) : FireRel (fireKeys g) s (sigDrop s g c a i) := by
  unfold sigDrop
  split
  · simp only []
    have k1 : F.SEQ_SIG_INFO_CAUSE.key g = F.SEQ_SIG_INFO_EVENT.key g := rfl
    have k2 : F.SEQ_SIG_INFO_SOURCE.key g = F.SEQ_SIG_INFO_EVENT.key g := rfl
    have k3 : F.SEQ_SIG_INFO_INDEX.key g = F.SEQ_SIG_INFO_EVENT.key g := rfl
    have m1 : F.SEQ_SIG_INFO_EVENT.key g ∈ fireKeys g := by simp [fireKeys]
    unfold bumpSat
    have m0 : F.SEQ_SIG_DROP_COUNT_COUNT.key g ∈ fireKeys g := by simp [fireKeys]
    have m2 : F.SEQ_EVENT_SIG_DROP.key g ∈ fireKeys g := by simp [fireKeys]
    exact (((((FireRel.wf m0).trans (FireRel.wf m1)).trans (FireRel.wf (k1 ▸ m1))).trans (FireRel.wf (k2 ▸ m1))).trans
      (FireRel.wf (k3 ▸ m1))).trans (FireRel.ev m2)
  · exact FireRel.refl _ _

theorem fire_rel (s : State) (w a g t : Nat) : FireRel (fireKeys g) s (fire s w a g t) := by
  unfold fire
  split
  · exact FireRel.refl _ _
  · exact ⟨⟨_, _, _, _, _, _, _, _, rfl⟩, fun _ _ => rfl⟩
  · exact ⟨⟨_, _, _, _, _, _, _, _, rfl⟩, fun _ _ => rfl⟩
  · exact ⟨⟨_, _, _, _, _, _, _, _, rfl⟩, fun _ _ => rfl⟩
  · exact ⟨⟨_, _, _, _, _, _, _, _, rfl⟩, fun _ _ => rfl⟩
  · split
    · exact sigDrop_rel _ _ _ _ _
    · split
      · exact ⟨⟨_, _, _, _, _, _, _, _, rfl⟩, fun _ _ => rfl⟩
      · exact ⟨⟨_, _, _, _, _, _, _, _, rfl⟩, fun _ _ => rfl⟩
  · split
    · exact sigDrop_rel _ _ _ _ _
    · split
      · exact ⟨⟨_, _, _, _, _, _, _, _, rfl⟩, fun _ _ => rfl⟩
      · exact ⟨⟨_, _, _, _, _, _, _, _, rfl⟩, fun _ _ => rfl⟩
  · exact FireRel.refl _ _

theorem raise_in_fire (g : Nat) : ∀ k ∈ raiseKeys, k ∈ fireKeys g := by
  intro k hk; unfold fireKeys; exact List.mem_append_right _ hk

theorem trace_fire (s : State) (kind queue core opcode tag event part g : Nat) :
    FireRel (fireKeys g) s (trace s kind queue core opcode tag event part) :=
  FireRel.of_raise (RaiseRel.trace _ _ _ _ _ _ _ _) (raise_in_fire g)

/-- Firing the two signals of a descriptor changes nothing but signals, packets, and the registers of dropped signals and of the
trace. -/
theorem fireSigs_rel (s : State) (g q op tag a b : Nat) : FireRel (fireKeys g) s (fireSigs s g q op tag a b) := by
  have one : ∀ (s : State) (w : Nat), FireRel (fireKeys g) s
      (if sigKind w = 0 then s else fire (trace s 3 q g op tag 0 (partOf g)) w q g (tileOf (partOf g))) := by
    intro s w
    split
    · exact FireRel.refl _ _
    · exact (trace_fire _ _ _ _ _ _ _ _ _).trans (fire_rel _ _ _ _ _)
  exact (one s a).trans (one _ b)

end Sys2Proof.Laws
end

