-- ==== Sys2Proof/Laws/Window.lean ====
section
/-! SUPPORT. The register window: what an access answers and stores, the event registers and their tables. -/

namespace Sys2Proof.Laws

open Sys2Proof.Machine Sys2Proof.Safety

theorem exec_regWrite (req off size v s) : exec (.regWrite req off size v) s = regWriteAny s req off size v := rfl
theorem exec_regRead (req off size s) : exec (.regRead req off size) s = .next (windowRead s req off size) := rfl

theorem accFault_facts (s : State) (a r o : Nat) (ha : a < 256) (hr : r < 4) :
    rf (accFault s a r o) F.HUB_ACC_FAULT_REASON 0 = a ∧ rf (accFault s a r o) F.HUB_ACC_FAULT_REQUESTER 0 = r ∧
    onlyEvents [F.HUB_ACC_FAULT_REASON.key 0, F.HUB_ACC_ADDR_OFFSET.key 0] s (accFault s a r o) := by
  have k1 : F.HUB_ACC_FAULT_REQUESTER.key 0 = F.HUB_ACC_FAULT_REASON.key 0 := by decide
  have k2 : F.HUB_ACC_FAULT_REASON.key 0 ≠ F.HUB_ACC_ADDR_OFFSET.key 0 := by decide
  refine ⟨?_, ?_, ?_, ?_⟩
  · unfold accFault
    rw [rf_wf_ne _ _ _ _ _ _ k2]
    unfold rf
    rw [wbits_seqAdvance _ _ _ _ (by decide)]
    have e := rf_wf_disj (wf s F.HUB_ACC_FAULT_REASON 0 a) F.HUB_ACC_FAULT_REQUESTER F.HUB_ACC_FAULT_REASON 0 0 r k1.symm (by decide) (by decide) (by decide)
    unfold rf at e
    rw [e]
    have e2 := rf_wf_same s F.HUB_ACC_FAULT_REASON 0 a (by decide) (by decide)
    unfold rf at e2
    rw [e2]
    exact Nat.mod_eq_of_lt ha
  · unfold accFault
    rw [rf_wf_ne _ _ _ _ _ _ (by decide)]
    unfold rf
    rw [k1, wbits_seqAdvance _ _ _ _ (by decide), ← k1]
    have e2 := rf_wf_same (wf s F.HUB_ACC_FAULT_REASON 0 a) F.HUB_ACC_FAULT_REQUESTER 0 r (by decide) (by decide)
    unfold rf at e2
    rw [e2]
    exact Nat.mod_eq_of_lt hr
  · intro k hk
    simp only [List.mem_cons, List.not_mem_nil, or_false, not_or] at hk
    unfold accFault
    rw [regLive_wf_ne _ _ _ _ _ hk.2, regLive_seqAdvance_ne _ hk.1, regLive_wf_ne _ _ _ _ _ (by rw [k1]; exact hk.1), regLive_wf_ne _ _ _ _ _ hk.1]
  · unfold accFault
    obtain ⟨r1, m1, e1⟩ := wf_parts s F.HUB_ACC_FAULT_REASON 0 a
    rw [e1]
    obtain ⟨r2, m2, e2⟩ := wf_parts { s with regs := r1, tmr := m1 } F.HUB_ACC_FAULT_REQUESTER 0 r
    dsimp only; rw [e2]
    obtain ⟨r3, m3, q3, e3⟩ := seqAdvance_parts { s with regs := r2, tmr := m2 } (F.HUB_ACC_FAULT_REASON.key 0)
    dsimp only; rw [e3]
    obtain ⟨r4, m4, e4⟩ := wf_parts { s with regs := r3, tmr := m3, seqTicked := q3 } F.HUB_ACC_ADDR_OFFSET 0 o
    dsimp only; rw [e4]

theorem req_id_lt (r : Requester) : r.id < 4 := by cases r <;> decide

theorem place_waybill {off : Nat} (h : off < 0x10000) : place off = .waybill off := by
  unfold place; rw [if_neg (by omega), if_pos h]

theorem regLive_answer (s : State) (req off e w k) : regLive (answer s req off e w) k = regLive s k := rfl
theorem rf_answer (s : State) (req off e w f i) : rf (answer s req off e w) f i = rf s f i := rfl

theorem onlyEvents_answer {ks s t} (h : onlyEvents ks s t) (req off e w) :
    onlyEvents ks s { answer t req off e w with answers := s.answers } := by
  refine ⟨fun k hk => ?_, ?_⟩
  · exact h.1 k hk
  · have e2 := h.2
    unfold answer
    rw [e2]


/-- The page offsets of the LO halves are those of plain 64-bit registers. -/
theorem lo_table : ∀ b : Blk, ∀ o ∈ loOffsets b, ((findReg b o).any RegDef.isSeq = false ∧ o ≠ 0x3FC) ∧
    (shadowed b o = true → (findReg b (o + 0x100)).any RegDef.isSeq = false ∧ o + 0x100 ≠ 0x3FC) := by
  intro b; cases b <;> decide +kernel

theorem isLo_plain {b : Blk} {o : Nat} (h : isLo b o = true) : (findReg b o).any RegDef.isSeq = false ∧ o ≠ 0x3FC := by
  unfold isLo at h
  simp only [Bool.or_eq_true, Bool.and_eq_true, decide_eq_true_eq, List.contains_iff_mem] at h
  rcases h with h | ⟨⟨h1, h2⟩, h3⟩
  · exact (lo_table b o h).1
  · have := (lo_table b _ h2).2 h3
    rwa [show o - 0x100 + 0x100 = o by omega] at this

theorem not_rst_of_lo {b : Blk} {o : Nat} (h : isLo b o = true) : b ≠ .rst ∨ o ≠ 8 := by
  left; rintro rfl; simp [isLo, loOffsets] at h

theorem not_rst_of_hi {b : Blk} {o : Nat} (h : isHi b o = true) : b ≠ .rst ∨ o ≠ 8 := by
  left; rintro rfl; simp [isHi, isLo, loOffsets] at h

/-- A plain write that lands on the state that the lower half leaves. -/
theorem plainWrite_lands {s : State} {req : Requester} {b : Blk} {i o : Nat} {v : Word} {l : List Nat} (h : lands s req b i o v l) :
    plainWrite s req b i o 0 v =
      .next (l.foldl (fun s j => regEffect req b o 0 v j (regLive s (regKey b j o)) (storeFields s b j o 0 v)) s) :=
  regCmd_lands h (regEffect req b o 0 v)


theorem pendPut_parts (s : State) (b : Blk) (j k : Nat) (w : Word) : ∃ p h, pendPut s b j k w = { s with pend := p, heldWrites := h } := by
  unfold pendPut
  split
  · exact ⟨_, _, rfl⟩
  · simp only []
    split
    · exact ⟨_, _, rfl⟩
    · exact ⟨_, _, rfl⟩

theorem regLive_pendPut (s : State) (b : Blk) (j k n : Nat) (w : Word) : regLive (pendPut s b j k w) n = regLive s n := by
  obtain ⟨p, h, e⟩ := pendPut_parts s b j k w
  rw [e]; rfl

theorem word_and_zero (w v : Word) : (w &&& ~~~ (0#32)) ||| (v &&& 0#32) = w := by
  rw [show ~~~(0#32) = BitVec.allOnes 32 by decide, BitVec.and_allOnes, BitVec.and_zero, BitVec.or_zero]

theorem find_none {l : List Held} {k : Nat} (h : l.all (fun h => h.key != k) = true) : l.reverse.find? (fun h => h.key == k) = none := by
  rw [List.find?_eq_none]
  intro x hx
  rw [List.mem_reverse] at hx
  have := (List.all_eq_true.mp h) x hx
  simpa using this

theorem pendWord_pend {s : State} {k : Nat} (h : s.heldWrites.all (fun h => h.key != k) = true) : pendWord s k = (aget s.pend k).getD (regLive s k) := by
  unfold pendWord; rw [find_none h]

theorem ugrp_table : ∀ b : Blk, (findReg b 0x3FC).isSome = true → b ≠ .rtEntry → b ≠ .seqF →
    (findReg b 0x3FC).any RegDef.isSeq = false ∧
    (findReg b 0x3FC).any (fun r => (r.maskOf (fun a => a == .rw || a == .tmr) &&& 15) == 15 && r.maskOf Acc.buffered == 0) = true ∧
    b ≠ .hqRing ∧ b ≠ .hqCq ∧ b ≠ .ptnCore ∧ b ≠ .memCh ∧ b ≠ .ptn ∧ b ≠ .seqF := by
  intro b; cases b <;> decide +kernel

theorem frozen_ugrp (s : State) (b : Blk) (j : Nat) (h : (findReg b 0x3FC).isSome = true) (h1 : b ≠ .rtEntry) (h2 : b ≠ .seqF) : frozen s b j 0x3FC = 0 := by
  have t := ugrp_table b h h1 h2
  unfold frozen
  split
  all_goals first
    | rfl
    | exact absurd rfl t.2.2.1
    | exact absurd rfl t.2.2.2.1
    | exact absurd rfl t.2.2.2.2.1
    | (rw [if_neg (by omega)])
    | (rw [if_neg (by simp)])

theorem storeFields_live {s : State} {b : Blk} {j o : Nat} {r : RegDef} (hr : findReg b o = some r) (hf : frozen s b j o = 0)
    (hb : r.maskOf Acc.buffered = 0) (v : Word) :
    onlyRegs [regKey b j o] s (storeFields s b j o 0 v) ∧
    regLive (storeFields s b j o 0 v) (regKey b j o) =
      (regLive s (regKey b j o) &&& ~~~ r.maskOf (fun a => a == .rw || a == .tmr)) ||| (v &&& r.maskOf (fun a => a == .rw || a == .tmr)) := by
  have e : storeFields s b j o 0 v = if r.maskOf (fun a => a == .rw || a == .tmr) = 0 then s else
      regPut s (regKey b j o) ((regLive s (regKey b j o) &&& ~~~ r.maskOf (fun a => a == .rw || a == .tmr)) ||| (v &&& r.maskOf (fun a => a == .rw || a == .tmr))) := by
    unfold storeFields
    rw [hr]
    have e0 : ∀ m : Word, m &&& ~~~ (0 : Word) = m := by
      intro m; rw [show ~~~(0 : Word) = BitVec.allOnes 32 by decide, BitVec.and_allOnes]
    simp only [hf, hb, viewWord, e0, if_true]
  rw [e]
  split
  · rename_i h
    refine ⟨⟨fun _ _ => rfl, rfl⟩, ?_⟩
    rw [h]; exact (word_and_zero _ _).symm
  · refine ⟨⟨fun k hk => regLive_regPut_ne _ _ (by simpa using hk), rfl⟩, regLive_regPut_same _ _ _⟩

theorem wbits_mask4 (w v m : Word) (h : m &&& 15 = 15) : wbits 3 0 ((w &&& ~~~ m) ||| (v &&& m)) = wbits 3 0 v := by
  unfold wbits bits
  simp only [Nat.shiftRight_zero, Nat.reduceAdd, Nat.reducePow, Nat.sub_zero]
  have e : ∀ x : Word, x.toNat % 16 = (x &&& 15#32).toNat := by
    intro x
    rw [BitVec.toNat_and]
    exact (Nat.and_two_pow_sub_one_eq_mod x.toNat 4).symm
  rw [e, e]
  congr 1
  have h' : ∀ i (hi : i < 32), (m.getLsbD i && (15#32).getLsbD i) = (15#32).getLsbD i := by
    intro i hi
    rw [← BitVec.getLsbD_and]; exact congrArg (·.getLsbD i) h
  apply BitVec.eq_of_getLsbD_eq
  intro i hi
  have := h' i hi
  simp only [BitVec.getLsbD_and, BitVec.getLsbD_or, BitVec.getLsbD_not]
  cases hw : w.getLsbD i <;> cases hv : v.getLsbD i <;> cases hm : m.getLsbD i <;> cases h15 : (15#32).getLsbD i <;> simp_all

theorem pulse_hub10 (s : State) (v : Word) : storeFields s .hub 0 0x10 0 v = s :=
  storeFields_pulse (by
    have : frozen s .hub 0 0x10 = 0 := by unfold frozen; simp
    rw [this]; decide +kernel) 0 v
theorem pulse_hub14 (s : State) (v : Word) : storeFields s .hub 0 0x14 0 v = s :=
  storeFields_pulse (by
    have : frozen s .hub 0 0x14 = 0 := by unfold frozen; simp
    rw [this]; decide +kernel) 0 v

theorem hub_window {s : State} {req : Requester} {o : Nat} {v : Word} (h : lands s req .hub 0 o v [0]) (h4 : o % 4 = 0) (ho : o < 0x3FC)
    (hp : plainReg .hub o) (hlo : isLo .hub o = false) (hhi : isHi .hub o = false) :
    windowWrite s req (winOff .hub 0 o) 4 v =
      .next (regEffect req .hub o 0 v 0 (regLive s (regKey .hub 0 o)) (storeFields s .hub 0 o 0 v)) := by
  have ha : regAt (winOff .hub 0 o) .hub 0 o 0 := by
    refine ⟨by unfold winOff Blk.base; dsimp only; omega, by omega, .hub, ?_, rfl⟩
    unfold winOff Blk.base place
    dsimp only
    rw [if_neg (by omega), if_neg (by omega), if_pos (by omega), if_pos (by omega), Nat.add_sub_cancel_left, Nat.mul_zero, Nat.zero_add]
  rw [windowWrite_regAt ha h.1.1, pageWrite_plain h.1 h.2.1 hp (by simp [hlo])]
  have e : landHolding s req .hub 0 o 0 = s := by unfold landHolding; rw [if_neg (by simp [hhi])]
  rw [e, plainWrite_lands h]; rfl
theorem ofCode_code (b : Blk) : Blk.ofCode b.code = some b := by cases b <;> rfl

theorem code_lt (b : Blk) : b.code < 32 := by cases b <;> decide

theorem keyOff_regKey (b : Blk) (i o : Nat) (ho : o < 65536) : keyOff (regKey b i o) = o := by
  unfold keyOff regKey; omega
theorem keyInst_regKey (b : Blk) (i o : Nat) (hi : i < 4096) (ho : o < 65536) : keyInst (regKey b i o) = i := by
  unfold keyInst regKey; omega
theorem keyBlk_regKey (b : Blk) (i o : Nat) (hi : i < 4096) (ho : o < 65536) : keyBlk (regKey b i o) = some b := by
  have e : regKey b i o / 65536 / 4096 = b.code := by unfold regKey; omega
  unfold keyBlk
  rw [e, ofCode_code]

theorem aget_none {α : Type} {l : List (Nat × α)} {k : Nat} (h : ∀ x ∈ l, x.1 ≠ k) : aget l k = none := by
  induction l with
  | nil => rfl
  | cons a t ih =>
    have h1 : k ≠ a.1 := fun e => h a (List.mem_cons_self ..) e.symm
    rw [show aget (a :: t) k = if k = a.1 then some a.2 else aget t k from rfl, if_neg h1]
    exact ih fun x hx => h x (List.mem_cons_of_mem _ hx)

theorem foldl_pend (l : List Held) (s : State) :
    l.foldl (fun s h => { s with pend := aput s.pend h.key h.value }) s = { s with pend := l.foldl (fun p h => aput p h.key h.value) s.pend } := by
  induction l generalizing s with
  | nil => rfl
  | cons a t ih => exact ih _

theorem seq_table : ∀ b : Blk, ∀ r ∈ b.regs, r.isSeq = true → r.fields.all (fun f => f.rst == 0) = true ∧ r.count = 1 ∧ 0 < r.stride ∧
    r.off < 0x3FC ∧ (b = .fabP → r.off ≠ 8 ∧ (r.off < 0x20 ∨ 0x38 ≤ r.off)) ∧ (b = .hub → r.off ≠ 0) ∧ (b = .fh → r.off < 0x40 ∨ 0x60 ≤ r.off) ∧
    (b = .ptnCore → r.off ≠ 0x24) := by
  intro b; cases b <;> decide +kernel

theorem seqClear_parts (s : State) (k : Nat) : regLive (seqClear s k) k = regLive s k &&& fmask 31 16 ∧
    (∀ j, j ≠ k → regLive (seqClear s k) j = regLive s j) ∧ (seqClear s k).seqTicked = s.seqTicked.filter (· != k) ∧
    ∃ r m q, seqClear s k = { s with regs := r, tmr := m, seqTicked := q } := by
  have e : seqClear s k = { regPut s k (regLive s k &&& fmask 31 16) with seqTicked := s.seqTicked.filter (· != k) } := rfl
  rw [e]
  generalize regLive s k &&& fmask 31 16 = w
  refine ⟨?_, fun j hj => ?_, rfl, _, _, _, rfl⟩
  · dsimp only
    exact (regLive_ticked (regPut s k w) _ k).trans (regLive_regPut_same s k w)
  · exact (regLive_ticked (regPut s k w) _ j).trans (regLive_regPut_ne s w hj)

theorem defReset_zero (b : Blk) (i o : Nat) (r : RegDef) (h : ∀ f ∈ r.fields, fieldReset b i o f = 0) : defReset b i o r = 0 := by
  unfold defReset
  have key : ∀ (l : List FDef) (hl : ∀ f ∈ l, fieldReset b i o f = 0) , l.foldl (fun w f => wput f.hi f.lo (fieldReset b i o f) w) 0 = 0 := by
    intro l
    induction l with
    | nil => intro _; rfl
    | cons f t ih =>
      intro hl
      rw [List.foldl_cons, hl f (List.mem_cons_self ..)]
      have : wput f.hi f.lo 0 (0 : Word) = 0 := by
        unfold wput putBits; simp
      rw [this]; exact ih fun g hg => hl g (List.mem_cons_of_mem _ hg)
  exact key _ h

theorem seq_reset {b : Blk} {o i : Nat} (h : (findReg b o).any RegDef.isSeq = true) (hi : i < 4096) (ho : o < 65536) :
    regReset (regKey b i o) = 0 := by
  unfold regReset
  rw [keyBlk_regKey b i o hi ho, keyOff_regKey b i o ho, keyInst_regKey b i o hi ho]
  dsimp only
  cases hr : findReg b o with
  | none => rfl
  | some r =>
    rw [hr] at h
    have hm : r ∈ b.regs := List.mem_of_find?_eq_some hr
    have hp := List.find?_some hr
    obtain ⟨t1, t2, t3, t4, t5, t6, t7, t8⟩ := seq_table b r hm h
    simp only [Bool.and_eq_true, decide_eq_true_eq, beq_iff_eq, t2] at hp
    have eo : o = r.off := by
      obtain ⟨⟨p1, p2⟩, p3⟩ := hp
      have := Nat.div_add_mod (o - r.off) r.stride
      have p4 : (o - r.off) / r.stride = 0 := Nat.lt_one_iff.mp p3
      rw [p4, p2] at this
      simp at this; omega
    apply defReset_zero
    intro f hf
    have f0 : f.rst = 0 := by simpa using (List.all_eq_true.mp t1) f hf
    unfold fieldReset
    subst eo
    split
    all_goals first
      | (rw [if_neg (by omega)]; split <;> simp [f0])
      | (have := t5 rfl; rw [if_neg (by omega), if_neg (by omega)]; exact f0)
      | (have := t6 rfl; rw [if_neg (by omega)]; exact f0)
      | (have := t7 rfl; rw [if_neg (by omega)]; exact f0)
      | (have := t8 rfl; rw [if_neg (by omega)]; exact f0)
      | exact f0

theorem regLive_reset (k : Nat) : regLive State.reset k = regReset k := rfl

end Sys2Proof.Laws
end

