-- ==== Sys2Proof/Laws/Frames.lean ====
section
/-! SUPPORT. What the operations of a core leave alone, and what a descriptor does as it issues and completes. -/

namespace Sys2Proof.Laws

open Sys2Proof.Machine Sys2Proof.Safety

theorem bit_eq (n x : Nat) : bit n x = (x.testBit n) := by
  unfold bit bits
  rw [show n + 1 - n = 1 by omega]
  rw [Nat.testBit_eq_decide_div_mod_eq, Nat.shiftRight_eq_div_pow, Nat.pow_one]
  by_cases h : x / 2 ^ n % 2 = 1 <;> simp [h]

theorem foldl_flags_off (s : State) (g : Nat) (l : List Nat) (n : Nat) :
    flagGet (l.foldl (fun s n => flagPut s g n false) s) g n = (if n ∈ l then false else flagGet s g n) := by
  induction l generalizing s with
  | nil => simp
  | cons a t ih =>
    rw [List.foldl_cons, ih]
    by_cases h : n ∈ t
    · simp [h]
    · by_cases e : n = a
      · subst e; simp [h, flagGet_flagPut_same]
      · simp [h, e, flagGet_flagPut_ne _ _ _ _ _ e]

theorem foldl_flags_rel (s : State) (g : Nat) (l : List Nat) :
    onlyRegs (l.map (flagKey g)) s (l.foldl (fun s n => flagPut s g n false) s) := by
  induction l generalizing s with
  | nil => exact ⟨fun _ _ => rfl, rfl⟩
  | cons a t ih =>
    rw [List.foldl_cons]
    have h1 := flagPut_rel s g a false
    have h2 := ih (flagPut s g a false)
    refine ⟨fun k hk => ?_, ?_⟩
    · rw [List.map_cons, List.mem_cons, not_or] at hk
      rw [h2.1 k hk.2, h1.1 k (by simpa using hk.1)]
    · rw [h2.2, h1.2]

/-- What every issue leaves of the registers: only the flags of its consuming waits, and the registers of the trace, may change. -/
theorem issueCommon_regs (s : State) (g q : Nat) (d : List Byte) (k : Nat) (h1 : k ∉ (consumed d).map (flagKey g)) (h2 : k ∉ raiseKeys) :
    regLive (issueCommon s g q d) k = regLive s k := by
  unfold issueCommon
  dsimp only
  rw [(RaiseRel.trace _ _ _ _ _ _ _ _).2 k h2]
  have := (foldl_flags_rel s g (consumed d)).1 k h1
  rw [← this]
  exact regLive_with rfl rfl k

/-- The pages of a core come after those that recording an event may write. -/
theorem seqF_raise (g o : Nat) : regKey .seqF g o ∉ raiseKeys := by
  unfold raiseKeys
  simp only [List.mem_cons, List.not_mem_nil, or_false, not_or]
  refine ⟨?_, ?_, ?_, ?_, ?_⟩ <;>
    (simp only [Fld.key, F.HUB_SR_EVENT_FAILED, F.LEDGER_TRACE_DROP_COUNT, F.CKP_WARN_STATUS_TRIGGER, F.CKP_EVENT_WARN, F.CKP_STATUS_PENDING,
      regKey, Blk.code]; omega)

theorem seqQ_raise (g o : Nat) : regKey .seqQ g o ∉ raiseKeys := by
  unfold raiseKeys
  simp only [List.mem_cons, List.not_mem_nil, or_false, not_or]
  refine ⟨?_, ?_, ?_, ?_, ?_⟩ <;>
    (simp only [Fld.key, F.HUB_SR_EVENT_FAILED, F.LEDGER_TRACE_DROP_COUNT, F.CKP_WARN_STATUS_TRIGGER, F.CKP_EVENT_WARN, F.CKP_STATUS_PENDING,
      regKey, Blk.code]; omega)

theorem core_raise (g o : Nat) : regKey .core g o ∉ raiseKeys := by
  unfold raiseKeys
  simp only [List.mem_cons, List.not_mem_nil, or_false, not_or]
  refine ⟨?_, ?_, ?_, ?_, ?_⟩ <;>
    (simp only [Fld.key, F.HUB_SR_EVENT_FAILED, F.LEDGER_TRACE_DROP_COUNT, F.CKP_WARN_STATUS_TRIGGER, F.CKP_EVENT_WARN, F.CKP_STATUS_PENDING,
      regKey, Blk.code]; omega)

/-- A consuming wait's flag is clear once its descriptor has issued. -/
theorem issueCommon_flag (s : State) (g q : Nat) (d : List Byte) (n : Nat) :
    flagGet (issueCommon s g q d) g n = (if n ∈ consumed d then false else flagGet s g n) := by
  rw [← foldl_flags_off]
  apply flagGet_congr
  unfold issueCommon
  dsimp only
  rw [(RaiseRel.trace _ _ _ _ _ _ _ _).2 (flagKey g n) (seqF_raise _ _)]
  exact regLive_with rfl rfl _

theorem issues_issuable {s : State} {g q op : Nat} {d : List Byte} (h : issues s g q op d) : issuable s g q = some d := by
  obtain ⟨-, h2, h3, h4, h5⟩ := h
  unfold issuable
  rw [h2]
  simp only [HeadSt.desc?, h4, h3, h5, Bool.not_false, Bool.and_self, if_true]

/-- The event of an issue hands a head that issues to its operation. -/
theorem issueWith_issues {s : State} {g q op : Nat} {d : List Byte} (h : issues s g q op d) (act : State → List Byte → State) :
    issueWith s g q op act = act s d := by
  have hi := issues_issuable h
  obtain ⟨h1, h2, h3, -, -⟩ := h
  unfold issueWith
  rw [h1, h2]
  simp [h3, hi]

theorem issueOp_issues {s : State} {g q op : Nat} {d : List Byte} (h : issues s g q op d) : issueOp s g q op = launch s g q d :=
  issueWith_issues h _

/-- The only descriptor in flight runs where it awaits no host data. -/
theorem runReady_single (s : State) (g : Nat) (f : Flight) (hf : (getCore s g).flights = [f]) (h1 : f.done = false) (h2 : f.reads = []) :
    runReady s g = setFlight (flightEffect s g f).1 g { f with done := true, acks := (flightEffect s g f).2 } := by
  unfold runReady
  rw [hf]
  show runFlights 1 s g = _
  unfold runFlights
  simp only [hf]
  have : List.find? (flightReady [f]) [f] = some f := by
    rw [List.find?_cons]
    have : flightReady [f] f = true := by unfold flightReady; simp [h1, h2]
    rw [this]
  rw [this]
  rfl

theorem RaiseRel.cores {s t : State} (h : RaiseRel s t) : t.cores = s.cores := by
  obtain ⟨⟨r, m, q, l, sr, ck, e⟩, -⟩ := h; rw [e]

theorem issueCommon_queue (s : State) (g q : Nat) (d : List Byte) : (getCore (issueCommon s g q d) g).queues = (getCore s g).queues := by
  unfold issueCommon
  dsimp only
  rw [getCore_with (RaiseRel.cores (RaiseRel.trace _ _ _ _ _ _ _ _)), getCore_setCore_same]
  dsimp only
  rw [getCore_with (s := s) (by rw [(foldl_flags_rel s g (consumed d)).2])]

theorem frozen_qbrsel (s : State) (g q : Nat) (hq : q < 8) : frozen s .seqQ g (0x98 + 0x20 * q) = BitVec.allOnes 32 := by
  unfold frozen
  dsimp only
  rw [if_pos (by omega)]

theorem pulse_qbrsel (s : State) (g q : Nat) (hq : q < 8) (v : Word) : storeFields s .seqQ g (0x98 + 0x20 * q) 0 v = s := by
  apply storeFields_pulse
  rw [frozen_qbrsel s g q hq]
  unfold pulseOnly
  split
  · rfl
  · rw [show ~~~ (BitVec.allOnes 32) = (0#32 : Word) by decide, BitVec.and_zero, BitVec.and_zero]; rfl

theorem setQueue_len (s : State) (g q : Nat) (v : QueueSt) : (getCore (setQueue s g q v) g).queues.length = (getCore s g).queues.length := by
  unfold setQueue
  dsimp only
  rw [getCore_setCore_same]
  simp

theorem wf_cores (s : State) (f : Fld) (i v : Nat) : (wf s f i v).cores = s.cores := by
  obtain ⟨r, m, e⟩ := wf_parts s f i v; rw [e]

theorem FireRel.cores {ks : List Nat} {s t : State} (h : FireRel ks s t) : t.cores = s.cores := by
  obtain ⟨⟨r, m, q, l, sr, ck, sg, fb, e⟩, -⟩ := h; rw [e]

theorem FireRel.parts {ks : List Nat} {s t : State} (h : FireRel ks s t) : t.parts = s.parts := by
  obtain ⟨⟨r, m, q, l, sr, ck, sg, fb, e⟩, -⟩ := h; rw [e]

/-- A descriptor retires: two counts. -/
theorem retire_rel (s : State) (g q : Nat) : onlyRegs [(F.SEQ_QRETIRED_COUNT.nth q).key g, F.CORE_PROG_RETIRED_COUNT.key g] s (retire s g q) := by
  unfold retire
  dsimp only
  have h1 : (F.SEQ_QRETIRED_COUNT.nth q).key g ∈ [(F.SEQ_QRETIRED_COUNT.nth q).key g, F.CORE_PROG_RETIRED_COUNT.key g] := List.mem_cons_self ..
  have h2 : F.CORE_PROG_RETIRED_COUNT.key g ∈ [(F.SEQ_QRETIRED_COUNT.nth q).key g, F.CORE_PROG_RETIRED_COUNT.key g] :=
    List.mem_cons_of_mem _ (List.mem_cons_self ..)
  split
  · exact onlyRegs_trans (onlyRegs_wf s _ h1) (onlyRegs_wf _ _ h2)
  · exact onlyRegs_wf _ _ h2

theorem onlyRegs_cores {ks s t} (h : onlyRegs ks s t) : t.cores = s.cores := by rw [h.2]
theorem onlyRegs_parts {ks s t} (h : onlyRegs ks s t) : t.parts = s.parts := by rw [h.2]

theorem fireKeys_seqQ (g o : Nat) (ho : o < 65536) : regKey .seqQ g o ∉ fireKeys g := by
  unfold fireKeys
  rw [List.mem_append, not_or]
  refine ⟨?_, seqQ_raise g o⟩
  simp only [List.mem_cons, List.not_mem_nil, or_false, not_or]
  refine ⟨?_, ?_, ?_⟩ <;>
    (simp only [Fld.key, F.SEQ_SIG_DROP_COUNT_COUNT, F.SEQ_SIG_INFO_EVENT, F.SEQ_EVENT_SIG_DROP, regKey, Blk.code]; omega)

theorem FireRel.rf {ks : List Nat} {s t : State} (h : FireRel ks s t) {f : Fld} {i : Nat} (hk : f.key i ∉ ks) : Machine.rf t f i = Machine.rf s f i := by
  unfold Machine.rf; rw [h.2 _ hk]

theorem onlyRegs_rf {ks : List Nat} {s t : State} (h : onlyRegs ks s t) {f : Fld} {i : Nat} (hk : f.key i ∉ ks) : rf t f i = rf s f i := by
  unfold rf; rw [h.1 _ hk]

theorem seqQ_key_ne_core (g o p : Nat) (ho : o < 65536) (hp : p < 65536) : regKey .seqQ g o ≠ regKey .core g p := by
  simp only [regKey, Blk.code]; omega

theorem qctrl_table : ∀ q < 8, (findReg .seqQ (0x80 + 0x20 * q)).any (fun r => r.maskOf (fun a => a == .rw || a == .tmr) == 0) = true := by
  decide +kernel

theorem storeFields_pendOnly {s : State} {b : Blk} {j o : Nat} (h : (findReg b o).any (fun r => r.maskOf (fun a => a == .rw || a == .tmr) == 0) = true)
    (view : Nat) (v : Word) : storeFields s b j o view v = { s with
      pend := (storeFields s b j o view v).pend, heldWrites := (storeFields s b j o view v).heldWrites } := by
  cases hr : findReg b o with
  | none => rw [hr] at h; cases h
  | some r =>
    rw [hr] at h
    have hm : r.maskOf (fun a => a == .rw || a == .tmr) = 0 := by simpa using h
    obtain ⟨p, hw, e⟩ : ∃ p hw, storeFields s b j o view v = { s with pend := p, heldWrites := hw } := by
      unfold storeFields
      rw [hr]
      have h0 : ∀ x : Word, (0 : Word) &&& x = 0 := fun x => BitVec.zero_and
      simp only [hm, h0, if_true]
      split
      · exact ⟨_, _, rfl⟩
      · exact pendPut_parts _ _ _ _ _
    rw [e]

theorem lc_table : ∀ n < 16, (findReg .seqQ (0x40 + 4 * n)).any (fun r => r.maskOf (fun a => a == .rw || a == .tmr) == BitVec.allOnes 32 && r.maskOf Acc.buffered == 0) = true := by
  decide +kernel

/-- A register whose fields all take a write at once holds the word written by the base page. -/
theorem storeFields_whole {s : State} {b : Blk} {j o : Nat} (h : (findReg b o).any (fun r => r.maskOf (fun a => a == .rw || a == .tmr) == BitVec.allOnes 32 &&
    r.maskOf Acc.buffered == 0) = true) (hf : frozen s b j o = 0) (v : Word) : storeFields s b j o 0 v = regPut s (regKey b j o) v := by
  cases hr : findReg b o with
  | none => rw [hr] at h; cases h
  | some r =>
    rw [hr] at h
    have hm : r.maskOf (fun a => a == .rw || a == .tmr) = BitVec.allOnes 32 ∧ r.maskOf Acc.buffered = 0 := by simpa using h
    unfold storeFields
    rw [hr]
    simp only [hm.1, hm.2, hf]
    generalize regLive s (regKey b j o) = w
    have e1 : BitVec.allOnes 32 &&& ~~~(0 : Word) = BitVec.allOnes 32 := by decide
    have e2 : (0 : Word) &&& ~~~(0 : Word) = 0 := by decide
    have e3 : BitVec.allOnes 32 ≠ (0 : Word) := by decide
    have e4 : w &&& ~~~(BitVec.allOnes 32) ||| viewWord 0 w v &&& BitVec.allOnes 32 = v := by
      show w &&& ~~~(BitVec.allOnes 32) ||| v &&& BitVec.allOnes 32 = v
      rw [BitVec.not_allOnes, BitVec.and_zero, BitVec.zero_or, BitVec.and_allOnes]
    simp only [e1, e2, if_true, if_neg e3, e4]

theorem frozen_lc (s : State) (g n : Nat) (hn : n < 16) : frozen s .seqQ g (0x40 + 4 * n) = 0 := by
  unfold frozen
  dsimp only
  rw [if_neg (by omega)]

theorem onlyRegs_ledger {ks s t} (h : onlyRegs ks s t) : t.ledger = s.ledger := by rw [h.2]
theorem onlyRegs_signals {ks s t} (h : onlyRegs ks s t) : t.signals = s.signals := by rw [h.2]
theorem onlyEvents_cores {ks s t} (h : onlyEvents ks s t) : t.cores = s.cores := by rw [h.2]
theorem onlyEvents_parts {ks s t} (h : onlyEvents ks s t) : t.parts = s.parts := by rw [h.2]
theorem onlyEvents_signals {ks s t} (h : onlyEvents ks s t) : t.signals = s.signals := by rw [h.2]
theorem onlyEvents_ledger {ks s t} (h : onlyEvents ks s t) : t.ledger = s.ledger := by rw [h.2]
theorem onlyEvents_rf {ks : List Nat} {s t : State} (h : onlyEvents ks s t) {f : Fld} {i : Nat} (hk : f.key i ∉ ks) : rf t f i = rf s f i := by
  unfold rf; rw [h.1 _ hk]
theorem onlyEvents_wf {ks : List Nat} (s : State) {f : Fld} {i : Nat} (v : Nat) (h : f.key i ∈ ks) : onlyEvents ks s (wf s f i v) :=
  onlyEvents_of_regs (onlyRegs_wf s v h)

theorem raise_flag (s : State) (e : Nat) (u : EvUnit) (t a g n : Nat) : flagGet (raise s e u t a) g n = flagGet s g n :=
  flagGet_congr ((raise_rel s e u t a).2 _ (seqF_raise _ _))

theorem RaiseRel.parts {s t : State} (h : RaiseRel s t) : t.parts = s.parts := by
  obtain ⟨⟨r, m, q, l, sr, ck, e⟩, -⟩ := h; rw [e]
theorem RaiseRel.signals {s t : State} (h : RaiseRel s t) : t.signals = s.signals := by
  obtain ⟨⟨r, m, q, l, sr, ck, e⟩, -⟩ := h; rw [e]
theorem RaiseRel.rf {s t : State} (h : RaiseRel s t) {f : Fld} {i : Nat} (hk : f.key i ∉ raiseKeys) : Machine.rf t f i = Machine.rf s f i := by
  unfold Machine.rf; rw [h.2 _ hk]

theorem foldl_wf_rel {α : Type} (ks : List Nat) (F : α → Fld) (v : α → Nat) (i : Nat) (l : List α) (s : State) (h : ∀ x ∈ l, (F x).key i ∈ ks) :
    onlyRegs ks s (l.foldl (fun s x => wf s (F x) i (v x)) s) := by
  induction l generalizing s with
  | nil => exact onlyRegs_refl _ _
  | cons a t ih =>
    rw [List.foldl_cons]
    exact onlyRegs_trans (onlyRegs_wf _ _ (h a (List.mem_cons_self ..))) (ih _ fun x hx => h x (List.mem_cons_of_mem _ hx))


theorem bumpIf_rel (s : State) (en lo : Fld) (i n : Nat) : onlyRegs [lo.key i, ({ lo with off := lo.off + 4 } : Fld).key i] s (bumpIf s en lo i n) := by
  unfold bumpIf
  split
  · unfold bump
    dsimp only
    unfold wf2
    exact onlyRegs_trans (onlyRegs_wf _ _ (List.mem_cons_self ..)) (onlyRegs_wf _ _ (List.mem_cons_of_mem _ (List.mem_cons_self ..)))
  · exact onlyRegs_refl _ _

theorem retire_prog (s : State) (g q : Nat) : rf (retire s g q) F.CORE_PROG_RETIRED_COUNT g = (rf s F.CORE_PROG_RETIRED_COUNT g + 1) % 2 ^ 32 := by
  unfold retire
  dsimp only
  rw [rf_wf_word _ _ _ _ rfl rfl]
  split
  · rw [onlyRegs_rf (onlyRegs_wf _ (ks := [(F.SEQ_QRETIRED_COUNT.nth q).key g]) _ (List.mem_singleton.mpr rfl)) (by
      simp only [List.mem_cons, List.not_mem_nil, or_false, not_or]
      simp only [Fld.key, Fld.nth, F.SEQ_QRETIRED_COUNT, F.CORE_PROG_RETIRED_COUNT, regKey, Blk.code]; omega)]
  · rfl

theorem sigDrop_facts (s : State) (g c a i : Nat) (hg : g < 260) :
    onlyEvents [F.SEQ_SIG_DROP_COUNT_COUNT.key g, F.SEQ_SIG_INFO_EVENT.key g, F.SEQ_EVENT_SIG_DROP.key g] s (sigDrop s g c a i) ∧
    rf (sigDrop s g c a i) F.SEQ_EVENT_SIG_DROP g = 1 ∧
    rf (sigDrop s g c a i) F.SEQ_SIG_DROP_COUNT_COUNT g = satAdd (rf s F.SEQ_SIG_DROP_COUNT_COUNT g) 1 % 2 ^ 32 := by
  unfold sigDrop
  rw [if_pos hg]
  dsimp only
  unfold bumpSat
  have n1 : F.SEQ_SIG_DROP_COUNT_COUNT.key g ≠ F.SEQ_EVENT_SIG_DROP.key g := regKey_off_ne _ _ (by decide)
  have n2 : F.SEQ_SIG_DROP_COUNT_COUNT.key g ∉ [F.SEQ_SIG_INFO_EVENT.key g] := by
    rw [List.mem_singleton]; exact regKey_off_ne _ _ (by decide)
  have m1 : F.SEQ_SIG_DROP_COUNT_COUNT.key g ∈ [F.SEQ_SIG_DROP_COUNT_COUNT.key g, F.SEQ_SIG_INFO_EVENT.key g, F.SEQ_EVENT_SIG_DROP.key g] := List.mem_cons_self ..
  have m2 : F.SEQ_SIG_INFO_EVENT.key g ∈ [F.SEQ_SIG_DROP_COUNT_COUNT.key g, F.SEQ_SIG_INFO_EVENT.key g, F.SEQ_EVENT_SIG_DROP.key g] := List.mem_cons_of_mem _ (List.mem_cons_self ..)
  refine ⟨?_, rf_ev_same _ _ _ (by decide) (by decide), ?_⟩
  · refine onlyEvents_trans ?_ (onlyEvents_ev _ (List.mem_cons_of_mem _ (List.mem_cons_of_mem _ (List.mem_cons_self ..))))
    refine onlyEvents_trans ?_ (onlyEvents_wf _ _ m2)
    refine onlyEvents_trans ?_ (onlyEvents_wf _ _ m2)
    refine onlyEvents_trans ?_ (onlyEvents_wf _ _ m2)
    refine onlyEvents_trans ?_ (onlyEvents_wf _ _ m2)
    exact onlyEvents_wf _ _ m1
  · rw [rf_ev_ne _ _ _ _ _ n1]
    rw [onlyRegs_rf (onlyRegs_wf _ (f := F.SEQ_SIG_INFO_INDEX) _ (List.mem_singleton.mpr rfl)) n2]
    rw [onlyRegs_rf (onlyRegs_wf _ (f := F.SEQ_SIG_INFO_SOURCE) _ (List.mem_singleton.mpr rfl)) n2]
    rw [onlyRegs_rf (onlyRegs_wf _ (f := F.SEQ_SIG_INFO_CAUSE) _ (List.mem_singleton.mpr rfl)) n2]
    rw [onlyRegs_rf (onlyRegs_wf _ (f := F.SEQ_SIG_INFO_EVENT) _ (List.mem_singleton.mpr rfl)) n2]
    rw [rf_wf_word _ _ _ _ rfl rfl]

theorem sigSetFlag_facts (s : State) (g n a : Nat) (hn : n < 256) :
    onlyEvents [flagKey g n, F.SEQ_SIG_INFO_EVENT.key g, F.SEQ_EVENT_OVERSET.key g] s (sigSetFlag s g n a) ∧ flagGet (sigSetFlag s g n a) g n = true := by
  have k1 : flagKey g n ≠ F.SEQ_SIG_INFO_EVENT.key g := by
    unfold flagKey; simp only [Fld.key, Fld.nth, F.SEQ_FLAGS_FLAG, F.SEQ_SIG_INFO_EVENT, regKey, Blk.code]; omega
  have k2 : flagKey g n ≠ F.SEQ_EVENT_OVERSET.key g := by
    unfold flagKey; simp only [Fld.key, Fld.nth, F.SEQ_FLAGS_FLAG, F.SEQ_EVENT_OVERSET, regKey, Blk.code]; omega
  have m2 : F.SEQ_SIG_INFO_EVENT.key g ∈ [F.SEQ_SIG_INFO_EVENT.key g, F.SEQ_EVENT_OVERSET.key g] := List.mem_cons_self ..
  have m3 : F.SEQ_EVENT_OVERSET.key g ∈ [F.SEQ_SIG_INFO_EVENT.key g, F.SEQ_EVENT_OVERSET.key g] := List.mem_cons_of_mem _ (List.mem_cons_self ..)
  have hnote : ∀ (u : State) (e : Nat) (f : Fld), f.key g = F.SEQ_EVENT_OVERSET.key g →
      onlyEvents [F.SEQ_SIG_INFO_EVENT.key g, F.SEQ_EVENT_OVERSET.key g] u
        (ev (wf (wf (wf (wf u F.SEQ_SIG_INFO_EVENT g e) F.SEQ_SIG_INFO_CAUSE g 0) F.SEQ_SIG_INFO_SOURCE g a) F.SEQ_SIG_INFO_INDEX g n) f g) := by
    intro u e f hf
    refine onlyEvents_trans ?_ (onlyEvents_ev _ (by rw [hf]; exact m3))
    refine onlyEvents_trans ?_ (onlyEvents_wf _ _ m2)
    refine onlyEvents_trans ?_ (onlyEvents_wf _ _ m2)
    refine onlyEvents_trans ?_ (onlyEvents_wf _ _ m2)
    exact onlyEvents_wf _ _ m2
  have hrel : onlyEvents [F.SEQ_SIG_INFO_EVENT.key g, F.SEQ_EVENT_OVERSET.key g] (flagPut s g n true) (sigSetFlag s g n a) := by
    unfold sigSetFlag
    dsimp only
    split
    · refine onlyEvents_trans ?_ (hnote _ _ _ rfl)
      split
      · exact hnote _ _ _ rfl
      · exact onlyEvents_refl _ _
    · split
      · exact hnote _ _ _ rfl
      · exact onlyEvents_refl _ _
  refine ⟨onlyEvents_trans (onlyEvents_mono (onlyEvents_of_regs (flagPut_rel s g n true)) ?_) (onlyEvents_mono hrel ?_), ?_⟩
  · intro k hk; rw [List.mem_singleton] at hk; rw [hk]; exact List.mem_cons_self ..
  · intro k hk; exact List.mem_cons_of_mem _ hk
  · rw [flagGet_congr (hrel.1 _ (by simp only [List.mem_cons, List.not_mem_nil, or_false, not_or]; exact ⟨k1, k2⟩)), flagGet_flagPut_same]

end Sys2Proof.Laws
end

