-- ==== Sys2Proof/Laws/Slice.lean ====
section
/-! SUPPORT. What the accesses, atomics and commands of a slice do, and bit fields of a masked write. -/

namespace Sys2Proof.Laws

open Sys2Proof.Machine Sys2Proof.Safety

theorem pulse_any {s : State} {b : Blk} {j o : Nat} (h : pulseOnly b o (~~~ (0 : Word)) = true) (hf : frozen s b j o = 0) (view : Nat) (v : Word) :
    storeFields s b j o view v = s := storeFields_pulse (by rw [hf]; exact h) view v

theorem zeroRegs_rel (s : State) (b : Blk) (i : Nat) (offs : List Nat) : onlyRegs (offs.map (regKey b i)) s (zeroRegs s b i offs) := by
  unfold zeroRegs
  induction offs generalizing s with
  | nil => exact onlyRegs_refl _ _
  | cons a t ih =>
    rw [List.foldl_cons]
    exact onlyRegs_trans (onlyRegs_regPut _ _ (List.mem_cons_self ..)) (onlyRegs_mono (ih _) fun k hk => List.mem_cons_of_mem _ hk)

theorem zeroRegs_zero (s : State) (b : Blk) (i : Nat) (offs : List Nat) (k : Nat) (h : k ∈ offs.map (regKey b i) ∨ regLive s k = 0) :
    regLive (zeroRegs s b i offs) k = 0 := by
  unfold zeroRegs
  induction offs generalizing s with
  | nil => rcases h with h | h; · cases h
           · exact h
  | cons a t ih =>
    rw [List.foldl_cons]
    apply ih
    by_cases e : k = regKey b i a
    · right; rw [e, regLive_regPut_same]
    · rcases h with h | h
      · left; rw [List.map_cons, List.mem_cons] at h; exact h.resolve_left e
      · right; rw [regLive_regPut_ne _ _ e]; exact h

theorem inj_table : (findReg .mx 0x20).any (fun r => r.maskOf (fun a => a == .rw || a == .tmr) == 0x7F && r.maskOf Acc.buffered == 0) = true ∧
    (findReg .vx 0x20).any (fun r => r.maskOf (fun a => a == .rw || a == .tmr) == 0xF07F && r.maskOf Acc.buffered == 0) = true := by
  decide +kernel

/-- What a base-page write leaves in a register whose fields of mask `m` take it at once. -/
theorem storeFields_mask {s : State} {b : Blk} {j o : Nat} {m : Word} (h : (findReg b o).any (fun r =>
    r.maskOf (fun a => a == .rw || a == .tmr) == m && r.maskOf Acc.buffered == 0) = true) (hf : frozen s b j o = 0) (v : Word) :
    onlyRegs [regKey b j o] s (storeFields s b j o 0 v) ∧
    regLive (storeFields s b j o 0 v) (regKey b j o) = (regLive s (regKey b j o) &&& ~~~ m) ||| (v &&& m) := by
  cases hr : findReg b o with
  | none => rw [hr] at h; cases h
  | some r =>
    rw [hr] at h
    have hm : r.maskOf (fun a => a == .rw || a == .tmr) = m ∧ r.maskOf Acc.buffered = 0 := by simpa using h
    have := storeFields_live hr hf hm.2 v
    rw [hm.1] at this
    exact this

theorem wbits_congr (hi lo : Nat) (a b : Word) (h : ∀ i < hi + 1, lo ≤ i → a.getLsbD i = b.getLsbD i) : wbits hi lo a = wbits hi lo b := by
  unfold wbits bits
  apply Nat.eq_of_testBit_eq
  intro i
  rw [Nat.testBit_mod_two_pow, Nat.testBit_mod_two_pow, Nat.testBit_shiftRight, Nat.testBit_shiftRight]
  by_cases hi' : i < hi + 1 - lo
  · have := h (lo + i) (by omega) (by omega)
    simp only [BitVec.getLsbD] at this
    rw [this]
  · simp [hi']

theorem wbits_keep (hi lo : Nat) (w v m : Word) (h : ∀ i < hi + 1, lo ≤ i → m.getLsbD i = false) (h32 : hi < 32) :
    wbits hi lo ((w &&& ~~~ m) ||| (v &&& m)) = wbits hi lo w := by
  apply wbits_congr
  intro i hi' hl
  have := h i hi' hl
  rw [BitVec.getLsbD_or, BitVec.getLsbD_and, BitVec.getLsbD_and, BitVec.getLsbD_not, this]
  have : decide (i < 32) = true := decide_eq_true (by omega)
  rw [this]; simp

theorem wbits_take (hi lo : Nat) (w v m : Word) (h : ∀ i < hi + 1, lo ≤ i → m.getLsbD i = true) :
    wbits hi lo ((w &&& ~~~ m) ||| (v &&& m)) = wbits hi lo v := by
  apply wbits_congr
  intro i hi' hl
  have := h i hi' hl
  rw [BitVec.getLsbD_or, BitVec.getLsbD_and, BitVec.getLsbD_and, BitVec.getLsbD_not, this]
  simp

theorem rf2_wf2 (s : State) (lo hi : Fld) (i v : Nat) (h1 : lo.hi = 31) (h2 : lo.lo = 0) (h3 : hi.hi = 31) (h4 : hi.lo = 0) (hk : lo.key i ≠ hi.key i)
    (hv : v < 2 ^ 64) : rf2 (wf2 s lo hi i v) lo hi i = v := by
  unfold rf2 wf2
  rw [rf_wf_word _ hi _ _ h3 h4]
  rw [onlyRegs_rf (onlyRegs_wf (ks := [hi.key i]) _ (f := hi) _ (List.mem_singleton.mpr rfl)) (by rw [List.mem_singleton]; exact hk)]
  rw [rf_wf_word _ lo _ _ h1 h2]
  omega

theorem rf2_bump (s : State) (lo : Fld) (i n : Nat) (h1 : lo.hi = 31) (h2 : lo.lo = 0) :
    rf2 (bump s lo i n) lo { lo with off := lo.off + 4 } i = (rf2 s lo { lo with off := lo.off + 4 } i + n) % 2 ^ 64 := by
  unfold bump
  exact rf2_wf2 _ _ _ _ _ h1 h2 h1 h2 (regKey_off_ne _ _ (by show lo.off ≠ lo.off + 4; omega)) (Nat.mod_lt _ (by decide))

theorem getPart_setPart_same (s : State) (p : Nat) (d : PartSt) : getPart (setPart s p d) p = d := sget_sput_same _ _ _ _
theorem getPart_with {s t : State} (h : t.parts = s.parts) (p : Nat) : getPart t p = getPart s p := by unfold getPart; rw [h]
theorem ptnDown_with {s t : State} (h1 : t.regs = s.regs) (h2 : t.tmr = s.tmr) (p : Nat) : ptnDown t p = ptnDown s p := by
  unfold ptnDown inReset pstate
  simp only [rf_with h1 h2]

theorem scHit (p : Nat) : F.SC_HIT_SECTORS_LO_COUNT.key p ∈ scCounts p ∧
    ({ F.SC_HIT_SECTORS_LO_COUNT with off := F.SC_HIT_SECTORS_LO_COUNT.off + 4 } : Fld).key p ∈ scCounts p :=
  ⟨List.mem_map.mpr ⟨0, by decide, rfl⟩, List.mem_map.mpr ⟨1, by decide, rfl⟩⟩
theorem scAtomic (p : Nat) : F.SC_ATOMIC_OPS_LO_COUNT.key p ∈ scCounts p ∧
    ({ F.SC_ATOMIC_OPS_LO_COUNT with off := F.SC_ATOMIC_OPS_LO_COUNT.off + 4 } : Fld).key p ∈ scCounts p :=
  ⟨List.mem_map.mpr ⟨6, by decide, rfl⟩, List.mem_map.mpr ⟨7, by decide, rfl⟩⟩

theorem bumpIf_in {ks : List Nat} (s : State) (en lo : Fld) (i n : Nat)
    (h : lo.key i ∈ ks ∧ ({ lo with off := lo.off + 4 } : Fld).key i ∈ ks) : onlyRegs ks s (bumpIf s en lo i n) :=
  onlyRegs_mono (bumpIf_rel s en lo i n) fun k hk => by
    simp only [List.mem_cons, List.not_mem_nil, or_false] at hk
    rcases hk with rfl | rfl
    · exact h.1
    · exact h.2

/-- What an access of the pinned region does that the slice serves at once. -/
theorem perform_pin {s : State} {r : LineReq} {p off : Nat} (h1 : target r.addr = .pin p off) (h2 : ptnDown s p = false)
    (h3 : rb s F.SC_STATUS_PIN_CHANGING p = false) (h4 : off < pinLive s p * 2 ^ 20) (wire : List (Nat × Byte)) :
    (r.write = true → ∃ u, onlyRegs (scCounts p) s u ∧ perform s r wire = (pinnedPut u p off r.data, [])) ∧
    (r.write = false → ∃ u, onlyRegs (scCounts p) s u ∧ perform s r wire = (u, mrdN (getPart s p).pinned off r.len)) := by
  have hs : pinSettle s p = s := by unfold pinSettle; rw [h3]; rfl
  have ho : outOfRange s (.pin p off) = false := by unfold outOfRange; exact decide_eq_false (by omega)
  have hr : onlyRegs (scCounts p) s (bumpIf s F.SC_CTRL_CNT_EN F.SC_HIT_SECTORS_LO_COUNT p (sectorsOf off r.len).length) := bumpIf_in _ _ _ _ _ (scHit p)
  constructor
  · intro hw
    refine ⟨_, hr, ?_⟩
    unfold perform
    rw [h1]
    dsimp only
    rw [h2, hs, ho, hw]
    simp only [Bool.false_eq_true, if_false, if_true]
    rfl
  · intro hw
    refine ⟨_, hr, ?_⟩
    unfold perform
    rw [h1]
    dsimp only
    rw [h2, hs, ho, hw]
    simp only [Bool.false_eq_true, if_false]
    rw [getPart_with (onlyRegs_parts hr)]

/-- Changes of registers alone stay changes of registers alone after a change elsewhere. -/
theorem onlyRegs_lift {ks : List Nat} {s u : State} (h : onlyRegs ks s u) (F : State → State)
    (hF : ∀ v : State, (F v).regs = v.regs ∧ (F v).tmr = v.tmr)
    (hG : ∀ (v : State) r m, F { v with regs := r, tmr := m } = { F v with regs := r, tmr := m }) : onlyRegs ks (F s) (F u) := by
  obtain ⟨r, m, e⟩ : ∃ r m, u = { s with regs := r, tmr := m } := ⟨_, _, h.2⟩
  refine onlyRegs_of (r := r) (m := m) (fun k hk => ?_) ?_
  · rw [regLive_with (hF u).1 (hF u).2, regLive_with (hF s).1 (hF s).2]; exact h.1 k hk
  · rw [e, hG]

theorem onlyRegs_pinnedPut {ks : List Nat} {s u : State} (h : onlyRegs ks s u) (p off : Nat) (d : List Byte) :
    onlyRegs ks (pinnedPut s p off d) (pinnedPut u p off d) :=
  onlyRegs_lift h (fun v => pinnedPut v p off d) (fun _ => ⟨rfl, rfl⟩) (fun _ _ _ => rfl)

theorem foldl_range_repeat {α : Type} (f : α → α) (n : Nat) (a : α) : (List.range n).foldl (fun s _ => f s) a = Nat.repeat f n a := by
  induction n with
  | zero => rfl
  | succ n ih => rw [List.range_succ, List.foldl_append, ih]; rfl

/-- A property that each step of a fold keeps. -/
theorem foldl_keep {α β : Type} (P : β → Prop) (f : β → α → β) (l : List α) (b : β) (h0 : P b) (h : ∀ x ∈ l, ∀ c, P c → P (f c x)) : P (l.foldl f b) := by
  induction l generalizing b with
  | nil => exact h0
  | cons a t ih => exact ih _ (h a (List.mem_cons_self ..) b h0) fun x hx => h x (List.mem_cons_of_mem _ hx)

theorem bumpIf_parts (s : State) (en lo : Fld) (i n : Nat) : (bumpIf s en lo i n).parts = s.parts := onlyRegs_parts (bumpIf_rel s en lo i n)

/-- Sectors written back change the stack and its check bytes alone. -/
theorem writeBackLine_part (s : State) (p : Nat) (l : Line) :
    ∃ st ck, getPart (writeBackLine s p l) p = { getPart s p with stack := st, check := ck } := by
  unfold writeBackLine
  refine foldl_keep (fun u => ∃ st ck, getPart u p = { getPart s p with stack := st, check := ck }) _ _ _ ⟨_, _, rfl⟩ ?_
  intro k _ c ⟨st, ck, h⟩
  dsimp only
  split
  · rw [getPart_with (bumpIf_parts _ _ _ _ _)]
    unfold stackWrite
    dsimp only
    rw [getPart_with (bumpIf_parts _ _ _ _ _), getPart_setPart_same, h]
    exact ⟨_, _, rfl⟩
  · exact ⟨st, ck, h⟩

theorem flushSlice_part (s : State) (p : Nat) :
    (getPart (flushSlice s p) p).pinned = (getPart s p).pinned ∧ ∀ l ∈ (getPart (flushSlice s p) p).lines, l.dirty = 0 := by
  unfold flushSlice
  have key : ∀ (ls : List Line) (u : State), (getPart u p).pinned = (getPart s p).pinned →
      (∀ l ∈ (getPart u p).lines, l.dirty = 0 ∨ ∃ m ∈ ls, m.off = l.off) →
      let t := ls.foldl (fun s l => putLine (writeBackLine s p l) p { l with dirty := 0 }) u
      (getPart t p).pinned = (getPart s p).pinned ∧ ∀ l ∈ (getPart t p).lines, l.dirty = 0 := by
    intro ls
    induction ls with
    | nil =>
      intro u h1 h2
      refine ⟨h1, fun l hl => ?_⟩
      rcases h2 l hl with h | ⟨m, hm, -⟩
      · exact h
      · cases hm
    | cons a t ih =>
      intro u h1 h2
      rw [List.foldl_cons]
      obtain ⟨st, ck, hw⟩ := writeBackLine_part u p a
      apply ih
      · unfold putLine; dsimp only; rw [getPart_setPart_same, hw]; exact h1
      · intro l hl
        unfold putLine at hl
        dsimp only at hl
        rw [getPart_setPart_same, hw] at hl
        rw [List.mem_map] at hl
        obtain ⟨m, hm, rfl⟩ := hl
        split
        · left; rfl
        · rename_i hne
          rcases h2 m hm with h | ⟨x, hx, hxm⟩
          · exact .inl h
          · rw [List.mem_cons] at hx
            rcases hx with rfl | hx
            · exact absurd hxm.symm hne
            · exact .inr ⟨x, hx, hxm⟩
  exact key _ s rfl fun l hl => .inr ⟨l, hl, rfl⟩

theorem piecesOf_one (a n : Nat) (h0 : 0 < n) (h : a % 128 + n ≤ 128) : piecesOf a n = [(a, n)] := by
  unfold piecesOf
  unfold linePieces
  rw [if_neg (by omega), show min n (128 - a % 128) = n by omega]
  dsimp only
  rw [Nat.sub_self]
  unfold linePieces
  simp

theorem settleFor_none {s : State} {a p off : Nat} (h : target a = .pin p off) (hm : (getPart s p).misses = []) : settleFor s a = s := by
  unfold settleFor ownerOf
  rw [h]
  simp [hm]

theorem target_pin_lt {a p off : Nat} (h : target a = .pin p off) : p < 20 := by
  unfold target at h
  split at h
  · cases h
  · split at h
    · injection h with h1 h2; omega
    · cases h

theorem sc_key_ne {p : Nat} (hp : p < 20) (b : Blk) (i o : Nat) (h : b.code ≠ Blk.sc.code) (hi : i < 4096) (ho : o < 65536) : regKey b i o ∉ scCounts p := by
  unfold scCounts
  intro hk
  rw [List.mem_map] at hk
  obtain ⟨n, hn, e⟩ := hk
  have := List.mem_range.mp hn
  exact h (regKey_inj (by omega) hi (by omega) ho e).1.symm

theorem sc_off_ne (p o : Nat) (ho : o < 0x40) : regKey .sc p o ∉ scCounts p := by
  unfold scCounts
  intro hk
  rw [List.mem_map] at hk
  obtain ⟨n, -, e⟩ := hk
  exact regKey_off_ne .sc p (show 0x40 + 4 * n ≠ o by omega) e

theorem pinServed_with {s t : State} {a n p off : Nat} (h : pinServed s a n p off) (hr : onlyRegs (scCounts p) s t) : pinServed t a n p off := by
  have nk : ∀ (f : Fld) (i : Nat), f.key i ∉ scCounts p → rf t f i = rf s f i := fun f i hf => onlyRegs_rf hr hf
  obtain ⟨h1, h2, h3, h4, h5, h6, h7⟩ := h
  have hp := target_pin_lt h1
  refine ⟨h1, ?_, ?_, ?_, h5, h6, ?_⟩
  · have e1 : inReset t p = inReset s p := by unfold inReset; rw [nk _ _ (sc_key_ne hp _ _ _ (by decide) (by decide) (by decide))]
    have e2 : pstate t p = pstate s p := by
      unfold pstate
      rw [nk F.PWR_PTN_STATE0_STATE 0 (sc_key_ne hp _ _ _ (by decide) (by decide) (by decide)), nk F.PWR_PTN_STATE1_STATE 0 (sc_key_ne hp _ _ _ (by decide) (by decide) (by decide))]
    unfold ptnDown at h2 ⊢
    rw [e1, e2]; exact h2
  · unfold rb at h3 ⊢; rw [nk F.SC_STATUS_PIN_CHANGING p (sc_off_ne _ _ (by decide))]; exact h3
  · unfold pinLive at h4 ⊢; rw [nk F.SC_STATUS_PIN_LIVE p (sc_off_ne _ _ (by decide))]; exact h4
  · rw [getPart_with (onlyRegs_parts hr)]; exact h7

/-- Reading and writing a piece of the pinned region that is served at once. -/
theorem memRead_pin {s : State} {a n p off : Nat} (h : pinServed s a n p off) (src : Source) (tag hint : Nat) :
    ∃ u, onlyRegs (scCounts p) s u ∧ memRead s src tag hint a n = (u, mrdN (getPart s p).pinned off n) := by
  obtain ⟨h1, h2, h3, h4, h5, h6, h7⟩ := h
  obtain ⟨u, hu, e⟩ := (perform_pin (r := ⟨src, false, a, n, [], hint, tag⟩) h1 h2 h3 h4 []).2 rfl
  refine ⟨u, hu, ?_⟩
  unfold memRead
  rw [piecesOf_one a n h5 h6, List.foldl_cons, List.foldl_nil, settleFor_none h1 h7]
  simp only [e, List.nil_append]

theorem memWrite_pin {s : State} {a p off : Nat} {data : List Byte} (h : pinServed s a data.length p off) (src : Source) (tag hint : Nat) :
    ∃ u, onlyRegs (scCounts p) s u ∧ memWrite s src tag hint a data = pinnedPut u p off data := by
  obtain ⟨h1, h2, h3, h4, h5, h6, h7⟩ := h
  obtain ⟨u, hu, e⟩ := (perform_pin (r := ⟨src, true, a, data.length, slice (a - a) data.length data, hint, tag⟩) h1 h2 h3 h4 []).1 rfl
  refine ⟨u, hu, ?_⟩
  unfold memWrite
  rw [piecesOf_one a _ h5 h6, List.foldl_cons, List.foldl_nil, settleFor_none h1 h7]
  simp only [e]
  congr 1
  unfold slice
  simp

theorem atomicEnter_pin {s : State} {a n p off align : Nat} (h : pinServed s a n p off) (ha : a % align = 0) (src : Source) (tag : Nat) (slot : Bool) :
    atomicEnter s src a align tag slot = .inr (s, p) := by
  obtain ⟨h1, h2, h3, h4, h5, h6, h7⟩ := h
  have hs : pinSettle s p = s := by unfold pinSettle; rw [h3]; rfl
  have ho : outOfRange s (.pin p off) = false := by unfold outOfRange; exact decide_eq_false (by omega)
  unfold atomicEnter
  rw [h1]
  simp only [h2, hs, ho, ha, Bool.false_eq_true, if_false, ne_eq, not_true_eq_false]

theorem toLE_length (n v : Nat) : (toLE n v).length = n := by
  induction n generalizing v with
  | zero => rfl
  | succ n ih => unfold toLE; rw [List.length_cons, ih]
theorem slice_length (o n : Nat) (l : List Byte) : (slice o n l).length = n := by
  unfold slice
  simp only [List.length_append, List.length_replicate, List.length_take]
  omega
theorem mrdN_length (m : List (Nat × Byte)) (a n : Nat) : (mrdN m a n).length = n := by
  unfold mrdN span; simp
theorem patch_length (o : Nat) (n l : List Byte) (h : o + n.length ≤ l.length) : (patch o n l).length = l.length := by
  unfold patch
  rw [List.length_append, List.length_append, slice_length, List.length_drop]; omega
theorem patch_toLE {k : Nat} (o n v : Nat) (l : List Byte) (hl : l.length = k) (h : o + n ≤ k) : (patch o (toLE n v) l).length = k := by
  rw [patch_length _ _ _ (by rw [toLE_length, hl]; exact h), hl]
theorem stageLine_length (l : List Byte) (h : l.length = 128) (a b c : Nat) (d : Bool) (e f : Nat) : (stageLine l a b c d e f).length = 128 := by
  unfold stageLine
  exact patch_toLE _ _ _ _ (patch_toLE _ _ _ _ (patch_toLE _ _ _ _ (patch_toLE _ _ _ _ (patch_toLE _ _ _ _ h (by decide)) (by decide)) (by decide)) (by decide)) (by decide)
theorem flatMap_toLE_length (l : List Nat) : (l.flatMap (toLE 4)).length = 4 * l.length := by
  induction l with
  | nil => rfl
  | cons a t ih => rw [List.flatMap_cons, List.length_append, toLE_length, ih, List.length_cons]; omega
theorem rollLine_length (l : List Byte) (h : l.length = 128) (fm : FV) (a b : Nat) : (rollLine l fm a b).length = 128 := by
  unfold rollLine
  dsimp only
  refine patch_toLE _ _ _ _ (patch_toLE _ _ _ _ (patch_toLE _ _ _ _ ?_ (by decide)) (by decide)) (by decide)
  rw [patch_length _ _ _ (by rw [flatMap_toLE_length, h]; simp), h]

end Sys2Proof.Laws
end

