-- ==== Sys2Proof/Laws/Commands.lean ====
section
/-! SUPPORT. What the commands of the memory, the host link and the hub store and answer. -/

namespace Sys2Proof.Laws

open Sys2Proof.Machine Sys2Proof.Safety

theorem hdrFlags_length (l : List Byte) (h : l.length = 64) (a b c : Bool) : (hdrFlags l a b c).length = 64 := by
  unfold hdrFlags
  exact patch_toLE _ _ _ _ h (by decide)

theorem slotAddrOk_with {s t : State} {p : Nat} (hp : p < 20) (h : onlyRegs (scCounts p) s t) (a : Nat) : slotAddrOk t p a = slotAddrOk s p a := by
  unfold slotAddrOk
  by_cases ho : ownerOf a = some p
  · have e : outOfRange t (target a) = outOfRange s (target a) := by
      unfold ownerOf at ho
      unfold outOfRange
      cases ht : target a with
      | none => rfl
      | stack q off =>
        rw [ht] at ho
        injection ho with ho; subst ho
        dsimp only
        unfold userMib
        rw [onlyRegs_rf h (f := F.MEM_STATUS_CH_OUT) (sc_key_ne hp _ _ _ (by decide) (by omega) (by decide))]
      | pin q off =>
        rw [ht] at ho
        injection ho with ho; subst ho
        dsimp only
        unfold pinLive
        rw [onlyRegs_rf h (f := F.SC_STATUS_PIN_LIVE) (sc_off_ne _ _ (by decide))]
    rw [e]
  · have : (ownerOf a == some p) = false := beq_eq_false_iff_ne.mpr ho
    rw [this]; simp

theorem redHdrOk_with {s t : State} {p : Nat} (hp : p < 20) (h : onlyRegs (scCounts p) s t) (r : RedHdr) : redHdrOk t p r = redHdrOk s p r := by
  unfold redHdrOk
  rw [slotAddrOk_with hp h, slotAddrOk_with hp h, slotAddrOk_with hp h]

theorem chan_table : (findReg .memCh 4).any (fun r => r.maskOf (fun a => a == .rw || a == .tmr) == 0x1F00 && r.maskOf Acc.buffered == 0) = true := by
  decide +kernel

theorem storeFields_open {s : State} {b : Blk} {j o : Nat} {m : Word} (h : (findReg b o).any (fun r =>
    r.maskOf (fun a => a == .rw || a == .tmr) == m && r.maskOf Acc.buffered == 0) = true) (v : Word) :
    onlyRegs [regKey b j o] s (storeFields s b j o 0 v) ∧
    regLive (storeFields s b j o 0 v) (regKey b j o) = (regLive s (regKey b j o) &&& ~~~ (m &&& ~~~ frozen s b j o)) ||| (v &&& (m &&& ~~~ frozen s b j o)) := by
  cases hr : findReg b o with
  | none => rw [hr] at h; cases h
  | some r =>
    rw [hr] at h
    have hm : r.maskOf (fun a => a == .rw || a == .tmr) = m ∧ r.maskOf Acc.buffered = 0 := by simpa using h
    have e : storeFields s b j o 0 v = (if m &&& ~~~ frozen s b j o = 0 then s else regPut s (regKey b j o)
        ((regLive s (regKey b j o) &&& ~~~ (m &&& ~~~ frozen s b j o)) ||| (v &&& (m &&& ~~~ frozen s b j o)))) := by
      unfold storeFields
      rw [hr]
      have h0 : ∀ x : Word, (0 : Word) &&& x = 0 := fun x => BitVec.zero_and
      simp only [hm.1, hm.2, h0, if_true]
      rfl
    generalize m &&& ~~~ frozen s b j o = n at e ⊢
    rw [e]
    split
    · rename_i h0
      subst h0
      refine ⟨onlyRegs_refl _ _, ?_⟩
      rw [show ~~~ (0 : Word) = BitVec.allOnes 32 by decide, BitVec.and_allOnes, show v &&& (0 : Word) = 0 from BitVec.and_zero, show ∀ x : Word, x ||| 0 = x from fun x => BitVec.or_zero]
    · exact ⟨onlyRegs_regPut _ _ (List.mem_singleton.mpr rfl), regLive_regPut_same _ _ _⟩

theorem host_table : (findReg .hqRing 0).any (fun r => r.maskOf (fun a => a == .rw || a == .tmr) == 0x1F3FFF00 && r.maskOf Acc.buffered == 0) = true ∧
    (findReg .hqRing 0x18).any (fun r => r.maskOf (fun a => a == .rw || a == .tmr) == BitVec.allOnes 32 && r.maskOf Acc.buffered == 0) = true ∧
    (findReg .hqCq 0).any (fun r => r.maskOf (fun a => a == .rw || a == .tmr) == 0x1FFFFF03 && r.maskOf Acc.buffered == 0) = true ∧
    (findReg .hqCq 0x0C).any (fun r => r.maskOf (fun a => a == .rw || a == .tmr) == BitVec.allOnes 32 && r.maskOf Acc.buffered == 0) = true ∧
    (findReg .hq 0x14).any (fun r => r.maskOf (fun a => a == .rw || a == .tmr) == 0x1FFF && r.maskOf Acc.buffered == 0) = true := by
  decide +kernel

theorem wbits_full (v : Word) : wbits 31 0 v = v.toNat := by
  unfold wbits bits
  rw [Nat.shiftRight_zero]
  exact Nat.mod_eq_of_lt v.isLt

end Sys2Proof.Laws
end

