-- ==== Sys2Proof/Laws/Links.lean ====
section
/-! SUPPORT. What the fabric ports store of a link. -/

namespace Sys2Proof.Laws

open Sys2Proof.Machine Sys2Proof.Safety

theorem getPort_setPort_same (s : State) (n : Nat) (p : PortSt) : getPort (setPort s n p) n = p := sget_sput_same _ _ _ _
theorem onlyRegs_fab {ks s t} (h : onlyRegs ks s t) : t.fab = s.fab := by rw [h.2]
theorem getPort_with {s t : State} (h : t.fab = s.fab) (n : Nat) : getPort t n = getPort s n := by unfold getPort; rw [h]

theorem setLstate_rel (s : State) (n v : Nat) : onlyRegs [F.FAB_P_STATE_LSTATE.key n, F.FAB_STATUS_UP.key 0] s (setLstate s n v) := by
  unfold setLstate
  exact onlyRegs_trans (onlyRegs_wf _ _ (List.mem_cons_self ..)) (onlyRegs_wf _ _ (List.mem_cons_of_mem _ (List.mem_cons_self ..)))

theorem fabP_ne_fab {n : Nat} (hn : n < 24) (o p : Nat) (ho : o < 65536) (hp : p < 65536) : regKey .fabP n o ≠ regKey .fab 0 p :=
  regKey_ne_code (by omega) (by decide) ho hp (by decide)

theorem lstate_setLstate (s : State) {n : Nat} (hn : n < 24) (v : Nat) (hv : v < 8) : lstate (setLstate s n v) n = v := by
  unfold lstate setLstate
  dsimp only
  rw [onlyRegs_rf (onlyRegs_wf _ (ks := [F.FAB_STATUS_UP.key 0]) _ (List.mem_singleton.mpr rfl)) (by rw [List.mem_singleton]; exact fabP_ne_fab hn _ _ (by decide) (by decide))]
  rw [rf_wf_same _ _ _ _ (by decide) (by decide)]
  exact Nat.mod_eq_of_lt hv

theorem rf_setLstate (s : State) {n : Nat} (hn : n < 24) (v : Nat) (f : Fld) (hb : f.key n = F.FAB_P_STATE_LSTATE.key n) (h2 : f.hi < 32)
    (hd : f.hi < F.FAB_P_STATE_LSTATE.lo ∨ F.FAB_P_STATE_LSTATE.hi < f.lo) : rf (setLstate s n v) f n = rf s f n := by
  unfold setLstate
  dsimp only
  rw [onlyRegs_rf (onlyRegs_wf _ (ks := [F.FAB_STATUS_UP.key 0]) _ (List.mem_singleton.mpr rfl)) (by rw [List.mem_singleton, hb]; exact fabP_ne_fab hn _ _ (by decide) (by decide))]
  exact rf_wf_disj _ F.FAB_P_STATE_LSTATE f n n v hb (by decide) h2 hd
theorem fabCmd_retrain (n : Nat) (s : State) : fabCmdEffect n 1 s = fabRetrainEffect n s := by
  unfold fabCmdEffect
  have h0 : wbits 0 0 (1 : Word) = 1 := by decide
  have h1 : ¬ wbits 1 1 (1 : Word) = 1 := by decide
  simp only [h0, h1, if_true, if_false]

end Sys2Proof.Laws
end

