-- ==== Sys2Proof/Laws/Steps.lean ====
section
/-! SUPPORT. What the job, the steps and the commit flags of the hub do. -/

namespace Sys2Proof.Laws

open Sys2Proof.Machine Sys2Proof.Safety

theorem onlyEvents_sr {ks s t} (h : onlyEvents ks s t) : t.sr = s.sr := by rw [h.2]
theorem onlyRegs_sr {ks s t} (h : onlyRegs ks s t) : t.sr = s.sr := by rw [h.2]

theorem viewWord_set_keep (w v m : Word) (h : v &&& m = 0) : (w &&& ~~~ m) ||| (viewWord 1 w v &&& m) = w := by
  show (w &&& ~~~ m) ||| ((w ||| v) &&& m) = w
  apply BitVec.eq_of_getLsbD_eq
  intro i hi
  have := congrArg (·.getLsbD i) h
  simp only [BitVec.getLsbD_and] at this
  simp only [BitVec.getLsbD_or, BitVec.getLsbD_and, BitVec.getLsbD_not, hi, decide_true, Bool.true_and]
  cases hw : w.getLsbD i <;> cases hv : v.getLsbD i <;> cases hm : m.getLsbD i <;> simp_all

/-- What a write leaves in the live registers, whatever it leaves pending. -/
theorem storeFields_word {s : State} {b : Blk} {j o : Nat} {m : Word} (h : (findReg b o).any (fun r =>
    r.maskOf (fun a => a == .rw || a == .tmr) == m) = true) (view : Nat) (v : Word) :
    (∀ k, k ≠ regKey b j o → regLive (storeFields s b j o view v) k = regLive s k) ∧
    regLive (storeFields s b j o view v) (regKey b j o) = (regLive s (regKey b j o) &&& ~~~ (m &&& ~~~ frozen s b j o)) |||
      (viewWord view (regLive s (regKey b j o)) v &&& (m &&& ~~~ frozen s b j o)) := by
  cases hr : findReg b o with
  | none => rw [hr] at h; cases h
  | some r =>
    rw [hr] at h
    have hm : r.maskOf (fun a => a == .rw || a == .tmr) = m := by simpa using h
    obtain ⟨t, ht⟩ : ∃ t, t = (if m &&& ~~~ frozen s b j o = 0 then s else regPut s (regKey b j o)
        ((regLive s (regKey b j o) &&& ~~~ (m &&& ~~~ frozen s b j o)) ||| (viewWord view (regLive s (regKey b j o)) v &&& (m &&& ~~~ frozen s b j o)))) := ⟨_, rfl⟩
    have e : ∀ k, regLive (storeFields s b j o view v) k = regLive t k := by
      intro k
      unfold storeFields
      rw [hr]
      dsimp only
      rw [hm, ← ht]
      split
      · rfl
      · rw [regLive_pendPut]
    have ht2 : (∀ k, k ≠ regKey b j o → regLive t k = regLive s k) ∧ regLive t (regKey b j o) = (regLive s (regKey b j o) &&& ~~~ (m &&& ~~~ frozen s b j o)) |||
      (viewWord view (regLive s (regKey b j o)) v &&& (m &&& ~~~ frozen s b j o)) := by
      rw [ht]
      generalize m &&& ~~~ frozen s b j o = n
      split
      · rename_i h0
        subst h0
        refine ⟨fun _ _ => rfl, ?_⟩
        rw [show ~~~ (0 : Word) = BitVec.allOnes 32 by decide, BitVec.and_allOnes, show ∀ x : Word, x &&& (0 : Word) = 0 from fun x => BitVec.and_zero, show ∀ x : Word, x ||| 0 = x from fun x => BitVec.or_zero]
      · exact ⟨fun k hk => regLive_regPut_ne _ _ hk, regLive_regPut_same _ _ _⟩
    exact ⟨fun k hk => (e k).trans (ht2.1 k hk), (e _).trans ht2.2⟩

/-- A write through the set alias that sets no bit of a field that takes it at once changes no register. -/
theorem storeFields_setNone {s : State} {b : Blk} {j o : Nat} {m : Word} (h : (findReg b o).any (fun r =>
    r.maskOf (fun a => a == .rw || a == .tmr) == m) = true) (v : Word) (hv : v &&& (m &&& ~~~ frozen s b j o) = 0) :
    ∀ k, regLive (storeFields s b j o 1 v) k = regLive s k := by
  intro k
  obtain ⟨h1, h2⟩ := storeFields_word (s := s) (j := j) h 1 v
  by_cases e : k = regKey b j o
  · rw [e, h2, viewWord_set_keep _ _ _ hv]
  · exact h1 k e

theorem frozen_job (s : State) : frozen s .hub 0 0x40 = 0 := by
  unfold frozen
  exact if_neg (by omega)

theorem jobCtrl_start (s : State) : jobCtrlEffect 1 none s = jobStart s := by
  unfold jobCtrlEffect
  dsimp only
  rw [if_neg (by decide), if_pos (by decide)]

theorem jobCtrl_end (s : State) : jobCtrlEffect 2 none s = jobEnd s := by
  unfold jobCtrlEffect
  dsimp only
  rw [if_neg (show ¬ wbits 0 0 (2 : Word) = 1 by decide), if_pos (show wbits 1 1 (2 : Word) = 1 by decide)]

theorem jobCtrl_inter (b : Bool) (s : State) : jobCtrlEffect 0 (some b) s = interludeWrite s b := by
  unfold jobCtrlEffect
  dsimp only
  rw [if_neg (show ¬ wbits 0 0 (0 : Word) = 1 by decide), if_neg (show ¬ wbits 1 1 (0 : Word) = 1 by decide)]

theorem clearCommitFlags_live (s : State) {o : Nat} (ho : o < 65536) : regLive (clearCommitFlags s) (regKey .hubSr 0 o) = regLive s (regKey .hubSr 0 o) := by
  unfold clearCommitFlags
  refine foldl_keep (fun u : State => regLive u (regKey .hubSr 0 o) = regLive s (regKey .hubSr 0 o)) _ _ _ rfl fun x hx c hc => ?_
  have hx2 : x < 260 := List.mem_range.mp (List.mem_filter.mp hx).1
  have hb : rf c F.HUB_SR_CTRL_COMMIT_FLAG 0 < 256 := bits_lt 7 0 _
  revert hb
  generalize rf c F.HUB_SR_CTRL_COMMIT_FLAG 0 = n
  intro hb
  rw [(flagPut_rel c x n false).1 _ (by
    rw [List.mem_singleton]
    refine regKey_ne_code (b := .hubSr) (c := .seqF) (j := x) (y := (F.SEQ_FLAGS_FLAG.nth (n / 32)).off) (by omega) (by omega) ho ?_ (by decide)
    show F.SEQ_FLAGS_FLAG.off + n / 32 * F.SEQ_FLAGS_FLAG.stride < 65536
    have h1 : F.SEQ_FLAGS_FLAG.off < 1000 := by decide
    have h2 : F.SEQ_FLAGS_FLAG.stride = 4 := by decide
    rw [h2]; omega)]
  exact hc

theorem job_table : (findReg .hub 0x40).any (fun r => r.maskOf (fun a => a == .rw || a == .tmr) == 4) = true := by decide +kernel

theorem flagPut_sr (s : State) (g n : Nat) (v : Bool) : (flagPut s g n v).sr = s.sr := by rw [(flagPut_rel s g n v).2]

theorem clearCommitFlags_sr (s : State) : (clearCommitFlags s).sr = s.sr := by
  unfold clearCommitFlags
  exact foldl_keep (fun u : State => u.sr = s.sr) _ _ _ rfl fun x _ c h => by rw [flagPut_sr]; exact h

theorem sigDeliver_sr (s : State) (m : Signal) : (sigDeliver s m).sr = s.sr := by
  unfold sigDeliver
  dsimp only
  split
  · rfl
  · rename_i hg
    split
    · exact onlyEvents_sr (sigDrop_facts s (sigTarget m) 1 _ _ (by omega)).1
    · split
      · exact onlyEvents_sr (sigDrop_facts s (sigTarget m) 0 _ _ (by omega)).1
      · split
        · exact onlyRegs_sr (cntPut_rel _ _ _ _)
        · exact onlyEvents_sr (sigSetFlag_facts _ _ _ _ (bits_lt 7 0 _)).1

theorem releaseFlag_steps (s : State) : (releaseFlag s).sr.steps = s.sr.steps := by
  unfold releaseFlag
  split
  · unfold setCommitFlags
    dsimp only
    rw [foldl_keep (fun u : State => u.sr = { s.sr with heldFlag := false }) _ _ _ rfl fun x _ c h => by rw [sigDeliver_sr]; exact h]
  · rfl

/-- The bits of HUB_SR_CMD, one at a time. -/
theorem srCmd_one (s : State) (b : Nat) (v : Word) (h : (span 1 7).filter (fun b => bit b v.toNat) = [b]) :
    srCmdEffect v s = if rb s F.HUB_SR_CTRL_EN 0 then srCommand s b else srRefuse s 1 := by
  unfold srCmdEffect
  have key : ∀ (l : List Nat) (s : State), l.foldl (fun s b => if bit b v.toNat then (if rb s F.HUB_SR_CTRL_EN 0 then srCommand s b else srRefuse s 1) else s) s =
      (l.filter (fun b => bit b v.toNat)).foldl (fun s b => if rb s F.HUB_SR_CTRL_EN 0 then srCommand s b else srRefuse s 1) s := by
    intro l
    induction l with
    | nil => intro s; rfl
    | cons a t ih =>
      intro s
      rw [List.foldl_cons, ih, List.filter_cons]
      split
      · rfl
      · rfl
  rw [key, h]
  rfl

theorem core_pulse {s : State} {j : Nat} : pulseOnly .ptnCore 0x20 (~~~ frozen s .ptnCore j 0x20) = true := by
  rw [show frozen s .ptnCore j 0x20 = BitVec.allOnes 32 from rfl]
  decide +kernel

theorem hubSr_lands {req : Requester} {v : Word} {s : State} (hl : lands s req .hubSr 0 4 v [0]) :
    regCmd s req .hubSr 0 4 v (fun _ _ s => srCmdEffect v s) = .next (srCmdEffect v s) := by
  rw [regCmd_lands hl, List.foldl_cons, List.foldl_nil, pulse_any (by decide) rfl]

end Sys2Proof.Laws
end

