-- ==== Sys2Proof/Laws/Checkpoints.lean ====
section
/-! SUPPORT. What the checkpoint engine does, and what a signal leaves alone. -/

namespace Sys2Proof.Laws

open Sys2Proof.Machine Sys2Proof.Safety

theorem ckp_lands {req : Requester} {v : Word} {s : State} (hl : lands s req .ckp 0 4 v [0]) :
    regCmd s req .ckp 0 4 v (fun _ _ s => ckpCmdEffect v s) = .next (ckpCmdEffect v s) := by
  rw [regCmd_lands hl, List.foldl_cons, List.foldl_nil, pulse_any (by decide) rfl]

theorem padTo_length (l : List Byte) : padTo l.length l = l := by
  unfold padTo slice
  simp

theorem ckpCmd_go (s : State) : ckpCmdEffect 1 s = ckpGo s := by
  unfold ckpCmdEffect
  dsimp only
  rw [if_pos (show wbits 0 0 (1 : Word) = 1 by decide), if_neg (show ¬ wbits 1 1 (1 : Word) = 1 by decide), if_neg (show ¬ wbits 2 2 (1 : Word) = 1 by decide)]

theorem ckpCmd_abort (s : State) : ckpCmdEffect 2 s = ckpAbort s 10 := by
  unfold ckpCmdEffect
  dsimp only
  rw [if_neg (show ¬ wbits 0 0 (2 : Word) = 1 by decide), if_pos (show wbits 1 1 (2 : Word) = 1 by decide), if_neg (show ¬ wbits 2 2 (2 : Word) = 1 by decide)]

theorem ckpCmd_reset (s : State) : ckpCmdEffect 4 s = moduleResetEffect s := by
  unfold ckpCmdEffect
  dsimp only
  rw [if_neg (show ¬ wbits 0 0 (4 : Word) = 1 by decide), if_neg (show ¬ wbits 1 1 (4 : Word) = 1 by decide), if_pos (show wbits 2 2 (4 : Word) = 1 by decide)]

/-- The delivery of a signal changes nothing but registers of the flag page. -/
theorem sigDeliver_rel (s : State) (m : Signal) :
    ∃ ks, onlyEvents ks s (sigDeliver s m) ∧ ∀ k ∈ ks, ∃ g o, k = regKey .seqF g o ∧ g < 512 ∧ o < 65536 := by
  have drop : ∀ (g c a i : Nat), g < 260 → ∃ ks, onlyEvents ks s (sigDrop s g c a i) ∧ ∀ k ∈ ks, ∃ g o, k = regKey .seqF g o ∧ g < 512 ∧ o < 65536 := by
    intro g c a i hg
    refine ⟨_, (sigDrop_facts s g c a i hg).1, fun k hk => ?_⟩
    simp only [List.mem_cons, List.not_mem_nil, or_false] at hk
    rcases hk with h | h | h
    · exact ⟨g, F.SEQ_SIG_DROP_COUNT_COUNT.off, h, by omega, by decide⟩
    · exact ⟨g, F.SEQ_SIG_INFO_EVENT.off, h, by omega, by decide⟩
    · exact ⟨g, F.SEQ_EVENT_SIG_DROP.off, h, by omega, by decide⟩
  unfold sigDeliver
  dsimp only
  split
  · exact ⟨[], onlyEvents_refl _ _, fun _ h => nomatch h⟩
  · rename_i hg
    split
    · exact drop _ _ _ _ (by omega)
    · split
      · exact drop _ _ _ _ (by omega)
      · rename_i r hr
        have hr2 : r < 512 := by
          unfold runner at hr
          split at hr
          · cases hr; omega
          · unfold standIn at hr
            dsimp only at hr
            split at hr
            · cases hr
            · cases hr; exact bits_lt 8 0 _
          · cases hr
        split
        · refine ⟨_, onlyEvents_of_regs (cntPut_rel s r _ _), fun k hk => ?_⟩
          rw [List.mem_singleton.mp hk]
          refine ⟨r, _, rfl, hr2, ?_⟩
          show F.SEQ_CNT_VALUE.off + _ % 64 * F.SEQ_CNT_VALUE.stride < 65536
          rw [show F.SEQ_CNT_VALUE.off = 0x200 from rfl, show F.SEQ_CNT_VALUE.stride = 4 from rfl]; omega
        · have hi : sigIndex m.word < 256 := bits_lt 7 0 _
          refine ⟨_, (sigSetFlag_facts s r _ _ hi).1, fun k hk => ?_⟩
          simp only [List.mem_cons, List.not_mem_nil, or_false] at hk
          rcases hk with h | h | h
          · refine ⟨r, (F.SEQ_FLAGS_FLAG.nth (sigIndex m.word / 32)).off, h, hr2, ?_⟩
            show F.SEQ_FLAGS_FLAG.off + _ * F.SEQ_FLAGS_FLAG.stride < 65536
            rw [show F.SEQ_FLAGS_FLAG.off = 0 from rfl, show F.SEQ_FLAGS_FLAG.stride = 4 from rfl]; omega
          · exact ⟨r, F.SEQ_SIG_INFO_EVENT.off, h, hr2, by decide⟩
          · exact ⟨r, F.SEQ_EVENT_OVERSET.off, h, hr2, by decide⟩

/-- Setting the commit flags changes nothing but registers of the flag page, and the note that a flag was held. -/
theorem releaseFlag_facts (s : State) : (releaseFlag s).ckp = s.ckp ∧
    ∀ (b : Blk) (i o : Nat), b.code ≠ Blk.code .seqF → i < 4096 → o < 65536 → regLive (releaseFlag s) (regKey b i o) = regLive s (regKey b i o) := by
  unfold releaseFlag
  split
  · unfold setCommitFlags
    dsimp only
    refine foldl_keep (fun u : State => u.ckp = s.ckp ∧ ∀ (b : Blk) (i o : Nat), b.code ≠ Blk.code .seqF → i < 4096 → o < 65536 →
      regLive u (regKey b i o) = regLive s (regKey b i o)) _ _ _ ⟨rfl, fun _ _ _ _ _ _ => rfl⟩ fun x _ c h => ?_
    obtain ⟨ks, h1, h2⟩ := sigDeliver_rel c ⟨3 * 2 ^ 29 + x * 2 ^ 8 + rf { s with sr := { s.sr with heldFlag := false } } F.HUB_SR_CTRL_COMMIT_FLAG 0, 9, 260, none⟩
    refine ⟨(congrArg State.ckp h1.2).trans h.1, fun b i o hb hi ho => ?_⟩
    refine (h1.1 _ fun hk => ?_).trans (h.2 b i o hb hi ho)
    obtain ⟨g, o2, e, hg, ho2⟩ := h2 _ hk
    exact regKey_ne_code hi (by omega) ho ho2 hb e
  · exact ⟨rfl, fun _ _ _ _ _ _ => rfl⟩

end Sys2Proof.Laws
end

