-- ==== Sys2Proof/Laws/Faults.lean ====
section
/-! SUPPORT. What fault history and in-service test do, and the size of a field. -/

namespace Sys2Proof.Laws

open Sys2Proof.Machine Sys2Proof.Safety

theorem ofLE_lt (l : List Byte) : ofLE l < 2 ^ (8 * l.length) := by
  induction l with
  | nil => decide
  | cons a t ih =>
    have ha := a.isLt
    show a.toNat + 256 * ofLE t < 2 ^ (8 * (t.length + 1))
    rw [show 8 * (t.length + 1) = 8 * t.length + 8 by omega, Nat.pow_add]
    omega

theorem fieldLE_lt (o n : Nat) (l : List Byte) : fieldLE o n l < 2 ^ (8 * n) := by
  have := ofLE_lt (slice o n l)
  rw [slice_length] at this
  exact this

theorem fhCmd_lands {req : Requester} {v : Word} {s : State} (hl : lands s req .fh 0 0x1C v [0]) (hv : wbits 2 2 v ≠ 1) :
    fhCmdWrite req 0 v s = .next (fhCmdEffect v s) := by
  unfold fhCmdWrite
  refine (if_neg ?_).trans ?_
  · rintro ⟨_, h, _⟩
    exact hv h
  · show regCmd s req .fh 0 0x1C v (fun _ _ s => fhCmdEffect v s) = _
    rw [regCmd_lands hl, List.foldl_cons, List.foldl_nil, pulse_any (by decide) rfl]

theorem ist_lands {req : Requester} {v : Word} {s : State} (hl : lands s req .ist 0 4 v [0]) :
    regCmd s req .ist 0 4 v (fun _ _ s => istCmdEffect v s) = .next (istCmdEffect v s) := by
  rw [regCmd_lands hl, List.foldl_cons, List.foldl_nil, pulse_any (by decide) rfl]

theorem onlyRegs_fh {ks s t} (h : onlyRegs ks s t) : t.fh = s.fh := by rw [h.2]
theorem onlyEvents_fh {ks s t} (h : onlyEvents ks s t) : t.fh = s.fh := by rw [h.2]
theorem onlyRegs_ist {ks s t} (h : onlyRegs ks s t) : t.ist = s.ist := by rw [h.2]
theorem onlyEvents_ist {ks s t} (h : onlyEvents ks s t) : t.ist = s.ist := by rw [h.2]
theorem sweepStop_facts (s : State) : (sweepStop s).ist.sweep = [] ∧ rf (sweepStop s) F.IST_STATUS_SWEEPING 0 = 0 ∧ (sweepStop s).parts = s.parts ∧
    (sweepStop s).cores = s.cores := by
  obtain ⟨x, hx⟩ : ∃ x : State, x = { s with ist := { s.ist with sweep := [], passed := [] } } := ⟨_, rfl⟩
  have e : sweepStop s = wf x F.IST_STATUS_SWEEPING 0 0 := by rw [hx]; rfl
  have hr := onlyRegs_wf (ks := [F.IST_STATUS_SWEEPING.key 0]) x (f := F.IST_STATUS_SWEEPING) (i := 0) 0 (List.mem_singleton.mpr rfl)
  rw [e]
  refine ⟨?_, ?_, ?_, ?_⟩
  · rw [onlyRegs_ist hr, hx]
  · rw [rf_wf_same _ _ _ _ (by decide) (by decide)]; rfl
  · rw [onlyRegs_parts hr, hx]
  · rw [onlyRegs_cores hr, hx]

end Sys2Proof.Laws
end

