-- ==== Sys2Proof/Laws/KeepOps.lean ====
section
/-! SUPPORT. What no operation changes: the fuses and counters that only rise, and the queue of commands; registers, faults and partition memory. One lemma for each
operation that takes a state to a state. -/

namespace Sys2Proof.Laws

open Sys2Proof.Machine

set_option maxRecDepth 4000

/-- Two states agree in the security state and in the queue. -/
def Keep (a b : State) : Prop := a.sec.floors = b.sec.floors ∧ a.pending = b.pending

@[simp] theorem keep_iff (a b : State) : Keep a b ↔ a.sec.floors = b.sec.floors ∧ a.pending = b.pending := Iff.rfl

@[simp] theorem keep_foldl {α : Type} (f : State → α → State) (h : ∀ s a, Keep (f s a) s) (l : List α) (s : State) :
    (l.foldl f s).sec.floors = s.sec.floors ∧ (l.foldl f s).pending = s.pending := by
  induction l generalizing s with
  | nil => exact ⟨rfl, rfl⟩
  | cons a t ih => exact ⟨(ih _).1.trans (h s a).1, (ih _).2.trans (h s a).2⟩

@[simp] theorem keep_foldl1 {α β : Type} (f : State × β → α → State × β)
    (h : ∀ s a, Keep (f s a).1 s.1) (l : List α) (s : State × β) :
    (l.foldl f s).1.sec.floors = s.1.sec.floors ∧ (l.foldl f s).1.pending = s.1.pending := by
  induction l generalizing s with
  | nil => exact ⟨rfl, rfl⟩
  | cons a t ih => exact ⟨(ih _).1.trans (h s a).1, (ih _).2.trans (h s a).2⟩


/-! ### Ops -/

@[simp] theorem keep_regPut (s : State) (k : Nat) (w : Word) : (regPut s k w).sec.floors = s.sec.floors ∧ (regPut s k w).pending = s.pending := by
  unfold regPut; simp

@[simp] theorem keep_wf (s : State) (f : Fld) (i v : Nat) : (wf s f i v).sec.floors = s.sec.floors ∧ (wf s f i v).pending = s.pending := by
  unfold wf; simp

@[simp] theorem keep_wf2 (s : State) (lo hi : Fld) (i v : Nat) : (wf2 s lo hi i v).sec.floors = s.sec.floors ∧ (wf2 s lo hi i v).pending = s.pending := by
  unfold wf2; simp

@[simp] theorem keep_bump (s : State) (lo : Fld) (i n : Nat) : (bump s lo i n).sec.floors = s.sec.floors ∧ (bump s lo i n).pending = s.pending := by
  unfold bump; simp

@[simp] theorem keep_bumpIf (s : State) (en lo : Fld) (i n : Nat) : (bumpIf s en lo i n).sec.floors = s.sec.floors ∧ (bumpIf s en lo i n).pending = s.pending := by
  unfold bumpIf; split <;> simp

@[simp] theorem keep_bumpSat (s : State) (f : Fld) (i n : Nat) : (bumpSat s f i n).sec.floors = s.sec.floors ∧ (bumpSat s f i n).pending = s.pending := by
  unfold bumpSat; simp

@[simp] theorem keep_seqAdvance (s : State) (k : Nat) : (seqAdvance s k).sec.floors = s.sec.floors ∧ (seqAdvance s k).pending = s.pending := by
  unfold seqAdvance; split <;> simp

@[simp] theorem keep_ev (s : State) (f : Fld) (i : Nat) : (ev s f i).sec.floors = s.sec.floors ∧ (ev s f i).pending = s.pending := by
  unfold ev; simp

@[simp] theorem keep_seqClear (s : State) (k : Nat) : (seqClear s k).sec.floors = s.sec.floors ∧ (seqClear s k).pending = s.pending := by
  unfold seqClear; simp

@[simp] theorem keep_accFault (s : State) (reason req off : Nat) : (accFault s reason req off).sec.floors = s.sec.floors ∧ (accFault s reason req off).pending = s.pending := by
  unfold accFault; simp

@[simp] theorem keep_fresh (s : State) : (fresh s).2.sec.floors = s.sec.floors ∧ (fresh s).2.pending = s.pending := by
  unfold fresh; simp

@[simp] theorem keep_setCore (s : State) (g : Nat) (c : CoreSt) : (setCore s g c).sec.floors = s.sec.floors ∧ (setCore s g c).pending = s.pending := by
  unfold setCore; simp

@[simp] theorem keep_setPart (s : State) (p : Nat) (c : PartSt) : (setPart s p c).sec.floors = s.sec.floors ∧ (setPart s p c).pending = s.pending := by
  unfold setPart; simp

@[simp] theorem keep_setPort (s : State) (n : Nat) (p : PortSt) : (setPort s n p).sec.floors = s.sec.floors ∧ (setPort s n p).pending = s.pending := by
  unfold setPort; simp

@[simp] theorem keep_setPstate (s : State) (p v : Nat) : (setPstate s p v).sec.floors = s.sec.floors ∧ (setPstate s p v).pending = s.pending := by
  unfold setPstate; split <;> simp

@[simp] theorem keep_waybillDue (s : State) : (waybillDue s).sec.floors = s.sec.floors ∧ (waybillDue s).pending = s.pending := by
  unfold waybillDue; simp

@[simp] theorem keep_putStep (s : State) (t : Step) : (putStep s t).sec.floors = s.sec.floors ∧ (putStep s t).pending = s.pending := by
  unfold putStep; simp

@[simp] theorem keep_markStep (s : State) (cause : Nat) : (markStep s cause).sec.floors = s.sec.floors ∧ (markStep s cause).pending = s.pending := by
  unfold markStep; dsimp only; (repeat' split) <;> simp

@[simp] theorem keep_trace (s : State) (kind queue core opcode tag event part : Nat) : (trace s kind queue core opcode tag event part).sec.floors = s.sec.floors ∧ (trace s kind queue core opcode tag event part).pending = s.pending := by
  unfold trace; dsimp only; (repeat' split) <;> simp

@[simp] theorem keep_warnTrigger (s : State) (b : Nat) : (warnTrigger s b).sec.floors = s.sec.floors ∧ (warnTrigger s b).pending = s.pending := by
  unfold warnTrigger; dsimp only; (repeat' split) <;> simp

@[simp] theorem keep_warnCount (s : State) (b limit : Nat) : (warnCount s b limit).sec.floors = s.sec.floors ∧ (warnCount s b limit).pending = s.pending := by
  unfold warnCount; dsimp only; (repeat' split) <;> simp

@[simp] theorem keep_warnEvent (s : State) (e : Nat) : (warnEvent s e).sec.floors = s.sec.floors ∧ (warnEvent s e).pending = s.pending := by
  unfold warnEvent; (repeat' split) <;> simp

@[simp] theorem keep_raise (s : State) (e : Nat) (u : EvUnit) (tag aux : Nat) : (raise s e u tag aux).sec.floors = s.sec.floors ∧ (raise s e u tag aux).pending = s.pending := by
  unfold raise; dsimp only; (repeat' split) <;> simp

@[simp] theorem keep_raiseOnce (s : State) (e : Nat) (u : EvUnit) (tag aux : Nat) : (raiseOnce s e u tag aux).sec.floors = s.sec.floors ∧ (raiseOnce s e u tag aux).pending = s.pending := by
  unfold raiseOnce; split <;> simp

@[simp] theorem keep_runClock (s : State) (n : Nat) : (runClock s n).sec.floors = s.sec.floors ∧ (runClock s n).pending = s.pending := by
  unfold runClock; simp

@[simp] theorem keep_timeUnlock (s : State) : (timeUnlock s).sec.floors = s.sec.floors ∧ (timeUnlock s).pending = s.pending := by
  unfold timeUnlock; split <;> simp

@[simp] theorem keep_timePortDown (s : State) (n : Nat) : (timePortDown s n).sec.floors = s.sec.floors ∧ (timePortDown s n).pending = s.pending := by
  unfold timePortDown; split <;> simp

/-! ### Access -/

@[simp] theorem keep_pendPut (s : State) (b : Blk) (j k : Nat) (w : Word) : (pendPut s b j k w).sec.floors = s.sec.floors ∧ (pendPut s b j k w).pending = s.pending := by
  unfold pendPut; dsimp only; (repeat' split) <;> simp

@[simp] theorem keep_copyConfig (s : State) (src dst : Nat) : (copyConfig s src dst).sec.floors = s.sec.floors ∧ (copyConfig s src dst).pending = s.pending := by
  unfold copyConfig; apply keep_foldl; intro s a; simp only [keep_iff]; (repeat' split) <;> simp

@[simp] theorem keep_storeFields (s : State) (b : Blk) (j off view : Nat) (v : Word) : (storeFields s b j off view v).sec.floors = s.sec.floors ∧ (storeFields s b j off view v).pending = s.pending := by
  unfold storeFields; dsimp only; (repeat' split) <;> simp

theorem keep_regWriteTo (s : State) (req : Requester) (b : Blk) (i off view : Nat) (v : Word) (eff : Nat → Word → State → State) (h : ∀ j w s, Keep (eff j w s) s) : ∀ t, regWriteTo s req b i off view v eff = .next t → t.sec.floors = s.sec.floors ∧ t.pending = s.pending := by
  unfold regWriteTo; intro t ht; grind [keep_foldl, keep_iff, keep_accFault, keep_storeFields]

theorem keep_regCmd (s : State) (req : Requester) (b : Blk) (i off : Nat) (v : Word) (eff : Nat → Word → State → State) (h : ∀ j w s, Keep (eff j w s) s) : ∀ t, regCmd s req b i off v eff = .next t → t.sec.floors = s.sec.floors ∧ t.pending = s.pending := by
  unfold regCmd; exact keep_regWriteTo s req b i off 0 v eff h

@[simp] theorem keep_withHolding (s : State) (req : Requester) (b : Blk) (i off : Nat) : (withHolding s req b i off).sec.floors = s.sec.floors ∧ (withHolding s req b i off).pending = s.pending := by
  unfold withHolding; grind [keep_storeFields, keep_foldl, keep_iff]

@[simp] theorem keep_noEffect (j : Nat) (w : Word) (s : State) : (noEffect j w s).sec.floors = s.sec.floors ∧ (noEffect j w s).pending = s.pending := ⟨rfl, rfl⟩

/-! ### Faults -/

@[simp] theorem keep_ringPauseWith (s : State) (r reason : Nat) : (ringPauseWith s r reason).sec.floors = s.sec.floors ∧ (ringPauseWith s r reason).pending = s.pending := by
  unfold ringPauseWith; split <;> simp

@[simp] theorem keep_pauseRingsOf (s : State) (g reason : Nat) : (pauseRingsOf s g reason).sec.floors = s.sec.floors ∧ (pauseRingsOf s g reason).pending = s.pending := by
  unfold pauseRingsOf; apply keep_foldl; intro s a; simp only [keep_iff]; (repeat' split) <;> simp

@[simp] theorem keep_cperPush (s : State) (kind index sig verdict : Nat) (i : CperInfo) : (cperPush s kind index sig verdict i).sec.floors = s.sec.floors ∧ (cperPush s kind index sig verdict i).pending = s.pending := by
  unfold cperPush; dsimp only; (repeat' split) <;> simp

@[simp] theorem keep_dropWork (s : State) (g : Nat) : (dropWork s g).sec.floors = s.sec.floors ∧ (dropWork s g).pending = s.pending := by
  unfold dropWork; simp

@[simp] theorem keep_pageReset (s : State) (b : Blk) (i : Nat) : (pageReset s b i).sec.floors = s.sec.floors ∧ (pageReset s b i).pending = s.pending := by
  unfold pageReset; simp

@[simp] theorem keep_coreReset (s : State) (g : Nat) : (coreReset s g).sec.floors = s.sec.floors ∧ (coreReset s g).pending = s.pending := by
  unfold coreReset; simp

@[simp] theorem keep_degraded (s : State) (p : Nat) : (degraded s p).sec.floors = s.sec.floors ∧ (degraded s p).pending = s.pending := by
  unfold degraded; simp

@[simp] theorem keep_remountCore (s : State) (g : Nat) : (remountCore s g).sec.floors = s.sec.floors ∧ (remountCore s g).pending = s.pending := by
  unfold remountCore; dsimp only; (repeat' split) <;> simp

@[simp] theorem keep_fenceCore (s : State) (g : Nat) : (fenceCore s g).sec.floors = s.sec.floors ∧ (fenceCore s g).pending = s.pending := by
  unfold fenceCore; dsimp only; (repeat' split) <;> simp

@[simp] theorem keep_chanPending (s : State) (p k : Nat) : (chanPending s p k).sec.floors = s.sec.floors ∧ (chanPending s p k).pending = s.pending := by
  unfold chanPending; dsimp only; (repeat' split) <;> simp

@[simp] theorem keep_evBit (s : State) (f : Fld) (i b : Nat) : (evBit s f i b).sec.floors = s.sec.floors ∧ (evBit s f i b).pending = s.pending := by
  unfold evBit; simp

@[simp] theorem keep_portEv (s : State) (n : Nat) (f : Fld) (any : Nat) : (portEv s n f any).sec.floors = s.sec.floors ∧ (portEv s n f any).pending = s.pending := by
  unfold portEv; simp

@[simp] theorem keep_portDrop (s : State) (n cause k : Nat) : (portDrop s n cause k).sec.floors = s.sec.floors ∧ (portDrop s n cause k).pending = s.pending := by
  unfold portDrop; split <;> simp

@[simp] theorem keep_portRetire (s : State) (n : Nat) : (portRetire s n).sec.floors = s.sec.floors ∧ (portRetire s n).pending = s.pending := by
  unfold portRetire; dsimp only; (repeat' split) <;> simp

@[simp] theorem keep_verdictAct (s : State) (kind index : Nat) : (verdictAct s kind index).sec.floors = s.sec.floors ∧ (verdictAct s kind index).pending = s.pending := by
  unfold verdictAct; (repeat' split) <;> simp

@[simp] theorem keep_enterVerdict (s : State) (kind index sig code : Nat) (i : CperInfo) : (enterVerdict s kind index sig code i).1.sec.floors = s.sec.floors ∧ (enterVerdict s kind index sig code i).1.pending = s.pending := by
  unfold enterVerdict; dsimp only; (repeat' split) <;> simp

@[simp] theorem keep_recordVerdict (s : State) (kind index sig code : Nat) (i : CperInfo) : (recordVerdict s kind index sig code i).sec.floors = s.sec.floors ∧ (recordVerdict s kind index sig code i).pending = s.pending := by
  unfold recordVerdict; dsimp only; (repeat' split) <;> simp

@[simp] theorem keep_queueRetest (s : State) (kind index sig : Nat) : (queueRetest s kind index sig).sec.floors = s.sec.floors ∧ (queueRetest s kind index sig).pending = s.pending := by
  unfold queueRetest; split <;> simp

@[simp] theorem keep_newEvent (s : State) (kind index sig : Nat) (counts : Bool) (i : CperInfo) : (newEvent s kind index sig counts i).sec.floors = s.sec.floors ∧ (newEvent s kind index sig counts i).pending = s.pending := by
  unfold newEvent; dsimp only; (repeat' split) <;> simp

@[simp] theorem keep_fhReport (s : State) (kind index sig : Nat) (counts : Bool) (i : CperInfo) : (fhReport s kind index sig counts i).sec.floors = s.sec.floors ∧ (fhReport s kind index sig counts i).pending = s.pending := by
  unfold fhReport; dsimp only; (repeat' split) <;> simp

@[simp] theorem keep_retestEnd (s : State) (kind index sig : Nat) (pass : Bool) : (retestEnd s kind index sig pass).sec.floors = s.sec.floors ∧ (retestEnd s kind index sig pass).pending = s.pending := by
  unfold retestEnd; split <;> simp

@[simp] theorem keep_residueMismatch (s : State) (vector : Bool) (g tag : Nat) (detail : List Nat) : (residueMismatch s vector g tag detail).sec.floors = s.sec.floors ∧ (residueMismatch s vector g tag detail).pending = s.pending := by
  unfold residueMismatch; simp

/-! ### Memory -/

@[simp] theorem keep_noteUe (s : State) (p off : Nat) (src : Source) (tag : Nat) (part scrub : Bool) : (noteUe s p off src tag part scrub).sec.floors = s.sec.floors ∧ (noteUe s p off src tag part scrub).pending = s.pending := by
  unfold noteUe; dsimp only; (repeat' split) <;> simp

@[simp] theorem keep_noteCe (s : State) (p off : Nat) (fixed : List Nat) : (noteCe s p off fixed).sec.floors = s.sec.floors ∧ (noteCe s p off fixed).pending = s.pending := by
  unfold noteCe; grind [keep_wf, keep_bumpIf, keep_bumpSat, keep_ev, keep_raise, keep_fhReport, keep_foldl, keep_iff]

@[simp] theorem keep_stackWrite (s : State) (p off : Nat) (data : List Byte) : (stackWrite s p off data).sec.floors = s.sec.floors ∧ (stackWrite s p off data).pending = s.pending := by
  unfold stackWrite; simp

@[simp] theorem keep_stackRead (s : State) (p off : Nat) (src : Source) (tag : Nat) (part scrub : Bool) (wire : List (Nat × Byte)) : (stackRead s p off src tag part scrub wire).1.sec.floors = s.sec.floors ∧ (stackRead s p off src tag part scrub wire).1.pending = s.pending := by
  unfold stackRead; dsimp only; (repeat' split) <;> simp

@[simp] theorem keep_putLine (s : State) (p : Nat) (l : Line) : (putLine s p l).sec.floors = s.sec.floors ∧ (putLine s p l).pending = s.pending := by
  unfold putLine; simp

@[simp] theorem keep_dropLine (s : State) (p lo : Nat) : (dropLine s p lo).sec.floors = s.sec.floors ∧ (dropLine s p lo).pending = s.pending := by
  unfold dropLine; simp

@[simp] theorem keep_frontLine (s : State) (p : Nat) (l : Line) : (frontLine s p l).sec.floors = s.sec.floors ∧ (frontLine s p l).pending = s.pending := by
  unfold frontLine; simp

@[simp] theorem keep_backLine (s : State) (p : Nat) (l : Line) : (backLine s p l).sec.floors = s.sec.floors ∧ (backLine s p l).pending = s.pending := by
  unfold backLine; simp

@[simp] theorem keep_writeBackLine (s : State) (p : Nat) (l : Line) : (writeBackLine s p l).sec.floors = s.sec.floors ∧ (writeBackLine s p l).pending = s.pending := by
  unfold writeBackLine; apply keep_foldl; intro s a; simp only [keep_iff]; (repeat' split) <;> simp

@[simp] theorem keep_demoteKeep (s : State) (p set : Nat) : (demoteKeep s p set).sec.floors = s.sec.floors ∧ (demoteKeep s p set).pending = s.pending := by
  unfold demoteKeep; dsimp only; (repeat' split) <;> simp

@[simp] theorem keep_allocate (s : State) (p lo hint : Nat) : (allocate s p lo hint).1.sec.floors = s.sec.floors ∧ (allocate s p lo hint).1.pending = s.pending := by
  unfold allocate; dsimp only; (repeat' split) <;> simp

@[simp] theorem keep_touch (s : State) (p : Nat) (l : Line) (hint : Nat) : (touch s p l hint).sec.floors = s.sec.floors ∧ (touch s p l hint).pending = s.pending := by
  unfold touch; (repeat' split) <;> simp

@[simp] theorem keep_reach (s : State) (p lo hint : Nat) : (reach s p lo hint).1.sec.floors = s.sec.floors ∧ (reach s p lo hint).1.pending = s.pending := by
  unfold reach; split <;> simp

@[simp] theorem keep_sectorData (s : State) (p lo k : Nat) (src : Source) (tag : Nat) (part : Bool) (wire : List (Nat × Byte)) : (sectorData s p lo k src tag part wire).1.sec.floors = s.sec.floors ∧ (sectorData s p lo k src tag part wire).1.pending = s.pending := by
  unfold sectorData; (repeat' split) <;> simp

@[simp] theorem keep_sectorHold (s : State) (p lo k : Nat) (d : List Byte) (dirty : Bool) : (sectorHold s p lo k d dirty).sec.floors = s.sec.floors ∧ (sectorHold s p lo k d dirty).pending = s.pending := by
  unfold sectorHold; (repeat' split) <;> simp

@[simp] theorem keep_sectorsDrop (s : State) (p lo : Nat) (ks : List Nat) : (sectorsDrop s p lo ks).sec.floors = s.sec.floors ∧ (sectorsDrop s p lo ks).pending = s.pending := by
  unfold sectorsDrop; dsimp only; (repeat' split) <;> simp

@[simp] theorem keep_lineRead (s : State) (p off len hint : Nat) (src : Source) (tag : Nat) (wire : List (Nat × Byte)) : (lineRead s p off len hint src tag wire).1.sec.floors = s.sec.floors ∧ (lineRead s p off len hint src tag wire).1.pending = s.pending := by
  unfold lineRead; simp; grind [keep_reach, keep_sectorData, keep_sectorHold, keep_sectorsDrop, keep_foldl, keep_foldl1, keep_iff]

@[simp] theorem keep_lineWrite (s : State) (p off : Nat) (data : List Byte) (hint : Nat) (src : Source) (tag : Nat) (wire : List (Nat × Byte)) : (lineWrite s p off data hint src tag wire).sec.floors = s.sec.floors ∧ (lineWrite s p off data hint src tag wire).pending = s.pending := by
  unfold lineWrite; grind [keep_bumpIf, keep_reach, keep_sectorData, keep_sectorHold, keep_foldl, keep_iff]

@[simp] theorem keep_scLatch (s : State) (p reason source addr : Nat) : (scLatch s p reason source addr).sec.floors = s.sec.floors ∧ (scLatch s p reason source addr).pending = s.pending := by
  unfold scLatch; split <;> simp

@[simp] theorem keep_requesterIndex (s : State) (src : Source) : ((requesterIndex s src).2).sec.floors = s.sec.floors ∧ ((requesterIndex s src).2).pending = s.pending := by
  cases src <;> simp [requesterIndex]

@[simp] theorem keep_rangeFault (s : State) (p addr : Nat) (src : Source) (tag : Nat) : (rangeFault s p addr src tag).sec.floors = s.sec.floors ∧ (rangeFault s p addr src tag).pending = s.pending := by
  unfold rangeFault; simp

@[simp] theorem keep_pinChangeStart (s : State) (p : Nat) : (pinChangeStart s p).sec.floors = s.sec.floors ∧ (pinChangeStart s p).pending = s.pending := by
  unfold pinChangeStart; split <;> simp

@[simp] theorem keep_pinRework (s : State) (p : Nat) : (pinRework s p).sec.floors = s.sec.floors ∧ (pinRework s p).pending = s.pending := by
  unfold pinRework; grind [keep_wf, keep_setPart, keep_dropLine, keep_writeBackLine, keep_foldl, keep_iff]

@[simp] theorem keep_pinSettle (s : State) (p : Nat) : (pinSettle s p).sec.floors = s.sec.floors ∧ (pinSettle s p).pending = s.pending := by
  unfold pinSettle; split <;> simp

@[simp] theorem keep_freshBytes (s : State) (n : Nat) : (freshBytes s n).2.sec.floors = s.sec.floors ∧ (freshBytes s n).2.pending = s.pending := by
  unfold freshBytes; simp

@[simp] theorem keep_perform (s : State) (r : LineReq) (wire : List (Nat × Byte)) : (perform s r wire).1.sec.floors = s.sec.floors ∧ (perform s r wire).1.pending = s.pending := by
  unfold perform; dsimp only; (repeat' split) <;> simp

@[simp] theorem keep_reply (s : State) (src : Source) (tag : Nat) (d : List Byte) : (reply s src tag d).sec.floors = s.sec.floors ∧ (reply s src tag d).pending = s.pending := by
  unfold reply; simp

@[simp] theorem keep_performReply (s : State) (r : LineReq) (wire : List (Nat × Byte)) : (performReply s r wire).sec.floors = s.sec.floors ∧ (performReply s r wire).pending = s.pending := by
  unfold performReply; dsimp only; (repeat' split) <;> simp

@[simp] theorem keep_drainReady (s : State) (p : Nat) : (drainReady s p).sec.floors = s.sec.floors ∧ (drainReady s p).pending = s.pending := by
  unfold drainReady; apply keep_foldl; intro s a; simp only [keep_iff]; (repeat' split) <;> simp

@[simp] theorem keep_fillOldest (s : State) (p : Nat) (wire : List (Nat × Byte)) : (fillOldest s p wire).sec.floors = s.sec.floors ∧ (fillOldest s p wire).pending = s.pending := by
  unfold fillOldest; dsimp only; (repeat' split) <;> simp

@[simp] theorem keep_settleMisses (s : State) (p : Nat) : (settleMisses s p).sec.floors = s.sec.floors ∧ (settleMisses s p).pending = s.pending := by
  unfold settleMisses; apply keep_foldl; intro s a; simp only [keep_iff]; (repeat' split) <;> simp

@[simp] theorem keep_settleFor (s : State) (a : Nat) : (settleFor s a).sec.floors = s.sec.floors ∧ (settleFor s a).pending = s.pending := by
  unfold settleFor; (repeat' split) <;> simp

@[simp] theorem keep_memRead (s : State) (src : Source) (tag hint a n : Nat) : (memRead s src tag hint a n).1.sec.floors = s.sec.floors ∧ (memRead s src tag hint a n).1.pending = s.pending := by
  unfold memRead; refine keep_foldl1 _ ?_ _ (_, _); intro s a; simp

@[simp] theorem keep_memWrite (s : State) (src : Source) (tag hint a : Nat) (data : List Byte) : (memWrite s src tag hint a data).sec.floors = s.sec.floors ∧ (memWrite s src tag hint a data).pending = s.pending := by
  unfold memWrite; apply keep_foldl; intro s a; simp only [keep_iff]; (repeat' split) <;> simp

@[simp] theorem keep_hubRead (s : State) (a n : Nat) : (hubRead s a n).1.sec.floors = s.sec.floors ∧ (hubRead s a n).1.pending = s.pending := by
  unfold hubRead; simp

@[simp] theorem keep_hubWrite (s : State) (a : Nat) (data : List Byte) : (hubWrite s a data).sec.floors = s.sec.floors ∧ (hubWrite s a data).pending = s.pending := by
  unfold hubWrite; simp

@[simp] theorem keep_flushSlice (s : State) (p : Nat) : (flushSlice s p).sec.floors = s.sec.floors ∧ (flushSlice s p).pending = s.pending := by
  unfold flushSlice; apply keep_foldl; intro s a; simp only [keep_iff]; (repeat' split) <;> simp

@[simp] theorem keep_invalidateSlice (s : State) (p : Nat) : (invalidateSlice s p).sec.floors = s.sec.floors ∧ (invalidateSlice s p).pending = s.pending := by
  unfold invalidateSlice; simp

theorem keep_execSliceAccess (r : LineReq) (s : State) : ∀ t, execSliceAccess r s = .next t → t.sec.floors = s.sec.floors ∧ t.pending = s.pending := by
  unfold execSliceAccess; grind [keep_setPart, keep_performReply]

theorem keep_execLineFill (partition : Nat) (wire : List (Nat × Byte)) (s : State) : ∀ t, execLineFill partition wire s = .next t → t.sec.floors = s.sec.floors ∧ t.pending = s.pending := by
  unfold execLineFill; grind [keep_fillOldest]

@[simp] theorem keep_scrubSector (s : State) (p : Nat) : (scrubSector s p).sec.floors = s.sec.floors ∧ (scrubSector s p).pending = s.pending := by
  unfold scrubSector; grind [keep_setPart, keep_retestEnd, keep_stackWrite, keep_stackRead]

theorem keep_execPatrolScrub (partition sectors : Nat) (s : State) : ∀ t, execPatrolScrub partition sectors s = .next t → t.sec.floors = s.sec.floors ∧ t.pending = s.pending := by
  unfold execPatrolScrub; intro t h; (repeat' split at h) <;> simp at h <;> subst h <;> simp

theorem keep_execPinChangeComplete (partition : Nat) (s : State) : ∀ t, execPinChangeComplete partition s = .next t → t.sec.floors = s.sec.floors ∧ t.pending = s.pending := by
  unfold execPinChangeComplete; intro t h; (repeat' split at h) <;> simp at h <;> subst h <;> simp

end Sys2Proof.Laws
end

