-- ==== Sys2Proof/Laws/KeepSlice.lean ====
section
/-! SUPPORT. What no operation changes: the fuses and counters that only rise, and the queue of commands; signals, atomics, the host link and operands. One lemma for each
operation that takes a state to a state. -/

namespace Sys2Proof.Laws

open Sys2Proof.Machine

set_option maxRecDepth 4000

/-! ### Signals -/

@[simp] theorem keep_flagPut (s : State) (g n : Nat) (v : Bool) : (flagPut s g n v).sec.floors = s.sec.floors ∧ (flagPut s g n v).pending = s.pending := by
  unfold flagPut; simp

@[simp] theorem keep_setterPut (s : State) (g n v : Nat) : (setterPut s g n v).sec.floors = s.sec.floors ∧ (setterPut s g n v).pending = s.pending := by
  unfold setterPut; simp

@[simp] theorem keep_cntPut (s : State) (g n v : Nat) : (cntPut s g n v).sec.floors = s.sec.floors ∧ (cntPut s g n v).pending = s.pending := by
  unfold cntPut; simp

@[simp] theorem keep_inject (s : State) (tile : Nat) (p : Packet) : (inject s tile p).sec.floors = s.sec.floors ∧ (inject s tile p).pending = s.pending := by
  unfold inject; simp

@[simp] theorem keep_sigDrop (s : State) (g cause source idx : Nat) : (sigDrop s g cause source idx).sec.floors = s.sec.floors ∧ (sigDrop s g cause source idx).pending = s.pending := by
  unfold sigDrop; split <;> simp

@[simp] theorem keep_fire (s : State) (w source core tile : Nat) : (fire s w source core tile).sec.floors = s.sec.floors ∧ (fire s w source core tile).pending = s.pending := by
  unfold fire; (repeat' split) <;> simp

@[simp] theorem keep_sigSetFlag (s : State) (g n source : Nat) : (sigSetFlag s g n source).sec.floors = s.sec.floors ∧ (sigSetFlag s g n source).pending = s.pending := by
  unfold sigSetFlag; dsimp only; (repeat' split) <;> simp

@[simp] theorem keep_sigDeliver (s : State) (m : Signal) : (sigDeliver s m).sec.floors = s.sec.floors ∧ (sigDeliver s m).pending = s.pending := by
  unfold sigDeliver; dsimp only; (repeat' split) <;> simp

theorem keep_execSignalArrive (s : State) : ∀ t, execSignalArrive s = .next t → t.sec.floors = s.sec.floors ∧ t.pending = s.pending := by
  unfold execSignalArrive; grind [keep_sigDeliver]

/-! ### Atomic -/

@[simp] theorem keep_downRefuse (s : State) (p tag : Nat) : (downRefuse s p tag).sec.floors = s.sec.floors ∧ (downRefuse s p tag).pending = s.pending := by
  unfold downRefuse; simp

@[simp] theorem keep_redRefuse (s : State) (p reason source addr tag : Nat) (hdr : Option Nat) : (redRefuse s p reason source addr tag hdr).sec.floors = s.sec.floors ∧ (redRefuse s p reason source addr tag hdr).pending = s.pending := by
  unfold redRefuse; (repeat' split) <;> simp

@[simp] theorem keep_refuseFrom (s : State) (p reason : Nat) (src : Source) (addr tag : Nat) (hdr : Option Nat) : (refuseFrom s p reason src addr tag hdr).sec.floors = s.sec.floors ∧ (refuseFrom s p reason src addr tag hdr).pending = s.pending := by
  unfold refuseFrom; simp

theorem keep_atomicEnter_inl (s : State) (src : Source) (addr align tag : Nat) (slot : Bool) (t : State) (h : atomicEnter s src addr align tag slot = .inl t) : t.sec.floors = s.sec.floors ∧ t.pending = s.pending := by
  unfold atomicEnter at h; (repeat' (first | split at h | dsimp only at h)) <;> first | (simp at h; done) | (injection h with h; subst h; simp)

theorem keep_atomicEnter_inr (s : State) (src : Source) (addr align tag : Nat) (slot : Bool) (t : State) (p : Nat) (h : atomicEnter s src addr align tag slot = .inr (t, p)) : t.sec.floors = s.sec.floors ∧ t.pending = s.pending := by
  unfold atomicEnter at h; (repeat' (first | split at h | dsimp only at h)) <;> first | (simp at h; done) | (injection h with h; injection h with h; subst h; simp)

@[simp] theorem keep_atomicCount (s : State) (p : Nat) : (atomicCount s p).sec.floors = s.sec.floors ∧ (atomicCount s p).pending = s.pending := by
  unfold atomicCount; simp

@[simp] theorem keep_atomicDo (s : State) (r : AtomicReq) : (atomicDo s r).1.sec.floors = s.sec.floors ∧ (atomicDo s r).1.pending = s.pending := by
  unfold atomicDo; grind [keep_memRead, keep_memWrite, keep_atomicEnter_inl, keep_atomicEnter_inr, keep_atomicCount]

theorem keep_execSliceAtomic (r : AtomicReq) (s : State) : ∀ t, execSliceAtomic r s = .next t → t.sec.floors = s.sec.floors ∧ t.pending = s.pending := by
  unfold execSliceAtomic; grind [keep_reply, keep_atomicDo]

@[simp] theorem keep_stageDo (s : State) (core addr amax : Nat) (under : Bool) (sat recomp tag : Nat) : (stageDo s core addr amax under sat recomp tag).sec.floors = s.sec.floors ∧ (stageDo s core addr amax under sat recomp tag).pending = s.pending := by
  unfold stageDo; grind [keep_memRead, keep_memWrite, keep_atomicEnter_inl, keep_atomicEnter_inr, keep_atomicCount]

theorem keep_execScaleStage (core addr amax : Nat) (under : Bool) (s : State) : ∀ t, execScaleStage core addr amax under s = .next t → t.sec.floors = s.sec.floors ∧ t.pending = s.pending := by
  unfold execScaleStage; grind [keep_stageDo]

@[simp] theorem keep_rollDo (s : State) (src : Source) (addr step tag : Nat) : (rollDo s src addr step tag).sec.floors = s.sec.floors ∧ (rollDo s src addr step tag).pending = s.pending := by
  unfold rollDo; grind [keep_fresh, keep_memRead, keep_memWrite, keep_refuseFrom, keep_atomicEnter_inl, keep_atomicEnter_inr, keep_atomicCount]

theorem keep_execSliceScaleRoll (src : Source) (addr step : Nat) (s : State) : ∀ t, execSliceScaleRoll src addr step s = .next t → t.sec.floors = s.sec.floors ∧ t.pending = s.pending := by
  unfold execSliceScaleRoll; grind [keep_rollDo]

@[simp] theorem keep_armDo (s : State) (src : Source) (addr tag : Nat) : (armDo s src addr tag).sec.floors = s.sec.floors ∧ (armDo s src addr tag).pending = s.pending := by
  unfold armDo; grind [keep_memRead, keep_memWrite, keep_refuseFrom, keep_atomicEnter_inl, keep_atomicEnter_inr, keep_atomicCount, keep_foldl, keep_iff]

theorem keep_execSliceArm (src : Source) (addr : Nat) (s : State) : ∀ t, execSliceArm src addr s = .next t → t.sec.floors = s.sec.floors ∧ t.pending = s.pending := by
  unfold execSliceArm; grind [keep_armDo]

@[simp] theorem keep_contribDo (s : State) (src : Source) (addr idx line : Nat) (data : List Byte) (tag : Nat) : (contribDo s src addr idx line data tag).1.sec.floors = s.sec.floors ∧ (contribDo s src addr idx line data tag).1.pending = s.pending := by
  unfold contribDo; grind [keep_memRead, keep_memWrite, keep_redRefuse, keep_atomicEnter_inl, keep_atomicEnter_inr, keep_atomicCount]

theorem keep_execSliceContrib (src : Source) (addr srcIdx line : Nat) (data : List Byte) (s : State) : ∀ t, execSliceContrib src addr srcIdx line data s = .next t → t.sec.floors = s.sec.floors ∧ t.pending = s.pending := by
  unfold execSliceContrib; grind [keep_contribDo]

@[simp] theorem keep_orderedLine (s : State) (h : RedHdr) (line : Nat) : (orderedLine s h line).sec.floors = s.sec.floors ∧ (orderedLine s h line).pending = s.pending := by
  unfold orderedLine; dsimp only; simp only [keep_memWrite]; constructor
  · rw [(keep_foldl1 _ (by intros; simp) _ _).1]; simp
  · rw [(keep_foldl1 _ (by intros; simp) _ _).2]; simp

theorem keep_execReductionDone (addr : Nat) (s : State) : ∀ t, execReductionDone addr s = .next t → t.sec.floors = s.sec.floors ∧ t.pending = s.pending := by
  unfold execReductionDone; intro t h; (repeat' (first | split at h | dsimp only at h)) <;> (simp at h; subst h; simp)

/-! ### HostLink -/

@[simp] theorem keep_hostSend (s : State) (p : HostOut) : (hostSend s p).sec.floors = s.sec.floors ∧ (hostSend s p).pending = s.pending := by
  unfold hostSend; simp

@[simp] theorem keep_hostWrDrop (s : State) : (hostWrDrop s).sec.floors = s.sec.floors ∧ (hostWrDrop s).pending = s.pending := by
  unfold hostWrDrop; simp

@[simp] theorem keep_hostWrite (s : State) (addr : Nat) (data : List Byte) : (hostWrite s addr data).sec.floors = s.sec.floors ∧ (hostWrite s addr data).pending = s.pending := by
  unfold hostWrite; apply keep_foldl; intro s a; simp only [keep_iff]; (repeat' split) <;> simp

theorem keep_sendNext (s t : State) (h : sendNext s = some t) : t.sec.floors = s.sec.floors ∧ t.pending = s.pending := by
  unfold sendNext at h; grind [keep_hostSend]

@[simp] theorem keep_sendReads (n : Nat) (s : State) : (sendReads n s).sec.floors = s.sec.floors ∧ (sendReads n s).pending = s.pending := by
  induction n generalizing s with
  | zero => exact ⟨rfl, rfl⟩
  | succ n ih => unfold sendReads; grind [keep_sendNext]

@[simp] theorem keep_hostRead (s : State) (addr len : Nat) (use : ReadFor) : (hostRead s addr len use).1.sec.floors = s.sec.floors ∧ (hostRead s addr len use).1.pending = s.pending := by
  unfold hostRead; exact keep_sendReads _ _

@[simp] theorem keep_hostReads (s : State) (addr len : Nat) (use : ReadFor) : (hostReads s addr len use).1.sec.floors = s.sec.floors ∧ (hostReads s addr len use).1.pending = s.pending := by
  unfold hostReads; simp

@[simp] theorem keep_cqMsg (s : State) (q : Nat) : (cqMsg s q).sec.floors = s.sec.floors ∧ (cqMsg s q).pending = s.pending := by
  unfold cqMsg; split <;> simp

@[simp] theorem keep_cqNote (s : State) (q : Nat) : (cqNote s q).sec.floors = s.sec.floors ∧ (cqNote s q).pending = s.pending := by
  unfold cqNote; dsimp only; (repeat' split) <;> simp

@[simp] theorem keep_cqPost (s : State) (q tag core queue typ value : Nat) (remounted : Bool) : (cqPost s q tag core queue typ value remounted).sec.floors = s.sec.floors ∧ (cqPost s q tag core queue typ value remounted).pending = s.pending := by
  unfold cqPost; dsimp only; (repeat' split) <;> simp

theorem keep_execInterruptHoldoff (cq : Nat) (s : State) : ∀ t, execInterruptHoldoff cq s = .next t → t.sec.floors = s.sec.floors ∧ t.pending = s.pending := by
  unfold execInterruptHoldoff; grind [keep_cqNote]

@[simp] theorem keep_hostGot (s : State) (g fl addr n : Nat) : (hostGot s g fl addr n).1.sec.floors = s.sec.floors ∧ (hostGot s g fl addr n).1.pending = s.pending := by
  unfold hostGot; dsimp only; (repeat' split) <;> simp

/-! ### Operands -/

@[simp] theorem keep_csWrite (s : State) (g a : Nat) (d : List Byte) : (csWrite s g a d).sec.floors = s.sec.floors ∧ (csWrite s g a d).pending = s.pending := by
  unfold csWrite; simp

@[simp] theorem keep_spRead (s : State) (g fl tag space hint a n : Nat) : (spRead s g fl tag space hint a n).1.sec.floors = s.sec.floors ∧ (spRead s g fl tag space hint a n).1.pending = s.pending := by
  unfold spRead; split <;> simp

@[simp] theorem keep_spWrite (s : State) (g tag space hint a : Nat) (d : List Byte) : (spWrite s g tag space hint a d).sec.floors = s.sec.floors ∧ (spWrite s g tag space hint a d).pending = s.pending := by
  unfold spWrite; split <;> simp

@[simp] theorem keep_readCodes (s : State) (g fl tag : Nat) (e : TEnt) (r c n : Nat) : (readCodes s g fl tag e r c n).1.sec.floors = s.sec.floors ∧ (readCodes s g fl tag e r c n).1.pending = s.pending := by
  unfold readCodes; dsimp only; (repeat' split) <;> simp

@[simp] theorem keep_writeCodes (s : State) (g fl tag : Nat) (e : TEnt) (r c : Nat) (codes : List Nat) : (writeCodes s g fl tag e r c codes).sec.floors = s.sec.floors ∧ (writeCodes s g fl tag e r c codes).pending = s.pending := by
  unfold writeCodes; dsimp only; (repeat' split) <;> simp

@[simp] theorem keep_readScales (s : State) (g fl tag : Nat) (e : TEnt) (r c n : Nat) : (readScales s g fl tag e r c n).1.sec.floors = s.sec.floors ∧ (readScales s g fl tag e r c n).1.pending = s.pending := by
  unfold readScales; dsimp only; (repeat' split) <;> simp

@[simp] theorem keep_rowVals (s : State) (g fl tag : Nat) (o : Oper) (r c n : Nat) : (rowVals s g fl tag o r c n).1.sec.floors = s.sec.floors ∧ (rowVals s g fl tag o r c n).1.pending = s.pending := by
  unfold rowVals; simp

@[simp] theorem keep_rowDeq (s : State) (g fl tag : Nat) (o : Oper) (r c n : Nat) : (rowDeq s g fl tag o r c n).1.sec.floors = s.sec.floors ∧ (rowDeq s g fl tag o r c n).1.pending = s.pending := by
  unfold rowDeq; dsimp only; (repeat' split) <;> simp

@[simp] theorem keep_stampCheck (s : State) (g fl tag : Nat) (e : TEnt) : (stampCheck s g fl tag e).1.sec.floors = s.sec.floors ∧ (stampCheck s g fl tag e).1.pending = s.pending := by
  unfold stampCheck; split <;> simp

@[simp] theorem keep_stampChecks (s : State) (g fl tag : Nat) (es : List TEnt) : (stampChecks s g fl tag es).sec.floors = s.sec.floors ∧ (stampChecks s g fl tag es).pending = s.pending := by
  unfold stampChecks; dsimp only; (repeat' split) <;> simp

end Sys2Proof.Laws
end

