-- ==== Sys2Proof/Laws/KeepCore.lean ====
section
/-! SUPPORT. What no operation changes: the fuses and counters that only rise, and the queue of commands; the quantiser, the vector engine, the array, copies and the sequencer. One lemma for each
operation that takes a state to a state. -/

namespace Sys2Proof.Laws

open Sys2Proof.Machine

set_option maxRecDepth 4000

/-! ### Quant -/

@[simp] theorem keep_rotRow (s : State) (q : QRec) (l : List FV) : (rotRow s q l).1.sec.floors = s.sec.floors ∧ (rotRow s q l).1.pending = s.pending := by
  unfold rotRow; simp; grind [keep_fresh, keep_foldl, keep_foldl1, keep_iff]

@[simp] theorem keep_prepare (s : State) (g : Nat) (q : QRec) (c0 : Nat) (m : List (List FV)) : (prepare s g q c0 m).1.sec.floors = s.sec.floors ∧ (prepare s g q c0 m).1.pending = s.pending := by
  unfold prepare; simp

@[simp] theorem keep_qntEvent (s : State) (f : Fld) (g tag : Nat) : (qntEvent s f g tag).sec.floors = s.sec.floors ∧ (qntEvent s f g tag).pending = s.pending := by
  unfold qntEvent; simp

@[simp] theorem keep_qntCount (s : State) (f : Fld) (g n : Nat) : (qntCount s f g n).sec.floors = s.sec.floors ∧ (qntCount s f g n).pending = s.pending := by
  unfold qntCount; split <;> simp

@[simp] theorem keep_qrecStatus (s : State) (g : Nat) (o : Oper) (b : Nat) : (qrecStatus s g o b).sec.floors = s.sec.floors ∧ (qrecStatus s g o b).pending = s.pending := by
  unfold qrecStatus; split <;> simp

@[simp] theorem keep_quantChans (s : State) (j : QJob) (ex : Int) (delayed : Bool) (base : Nat) (chans : List (List (Nat × FV))) : (quantChans s j ex delayed base chans).1.sec.floors = s.sec.floors ∧ (quantChans s j ex delayed base chans).1.pending = s.pending := by
  unfold quantChans; dsimp only; (repeat' split) <;> simp

@[simp] theorem keep_quantEls (s : State) (j : QJob) (ex : Int) (delayed : Bool) (m : List (List FV)) : (quantEls s j ex delayed m).1.sec.floors = s.sec.floors ∧ (quantEls s j ex delayed m).1.pending = s.pending := by
  unfold quantEls; (repeat' split) <;> simp

@[simp] theorem keep_addColSums (s : State) (j : QJob) (els : List (List QEl)) : (addColSums s j els).sec.floors = s.sec.floors ∧ (addColSums s j els).pending = s.pending := by
  unfold addColSums; simp

@[simp] theorem keep_delayedEvents (s : State) (j : QJob) (rows : Nat) (satTile recompSat recomp : Bool) (adj : Int) (under : Bool) : (delayedEvents s j rows satTile recompSat recomp adj under).sec.floors = s.sec.floors ∧ (delayedEvents s j rows satTile recompSat recomp adj under).pending = s.pending := by
  unfold delayedEvents; (repeat' split) <;> simp

@[simp] theorem keep_quantise (s : State) (j : QJob) (m : List (List FV)) : (quantise s j m).1.sec.floors = s.sec.floors ∧ (quantise s j m).1.pending = s.pending := by
  unfold quantise; grind [keep_memRead, keep_stageDo, keep_csWrite, keep_prepare, keep_qntEvent, keep_qntCount, keep_qrecStatus, keep_quantEls, keep_addColSums, keep_delayedEvents]

@[simp] theorem keep_writeScales (s : State) (g tag : Nat) (o : Oper) (els : List (List QEl)) : (writeScales s g tag o els).sec.floors = s.sec.floors ∧ (writeScales s g tag o els).pending = s.pending := by
  unfold writeScales; apply keep_foldl; intro s a; simp only [keep_iff]; (repeat' split) <;> simp

@[simp] theorem keep_writeTileCodes (s : State) (g fl tag : Nat) (o : Oper) (els : List (List QEl)) : (writeTileCodes s g fl tag o els).sec.floors = s.sec.floors ∧ (writeTileCodes s g fl tag o els).pending = s.pending := by
  unfold writeTileCodes; simp

@[simp] theorem keep_writeTile (s : State) (g fl tag : Nat) (o : Oper) (els : List (List QEl)) : (writeTile s g fl tag o els).sec.floors = s.sec.floors ∧ (writeTile s g fl tag o els).pending = s.pending := by
  unfold writeTile; split <;> simp

@[simp] theorem keep_histWrite (s : State) (g line tag fmt base : Nat) (acc : Bool) (m : List (List FV)) (els : List (List QEl)) : (histWrite s g line tag fmt base acc m els).sec.floors = s.sec.floors ∧ (histWrite s g line tag fmt base acc m els).pending = s.pending := by
  unfold histWrite; simp

/-! ### Vector -/

@[simp] theorem keep_vxFail (s : State) (g tag stage row lane : Nat) : (vxFail s g tag stage row lane).sec.floors = s.sec.floors ∧ (vxFail s g tag stage row lane).pending = s.pending := by
  unfold vxFail; dsimp only; (repeat' split) <;> simp

@[simp] theorem keep_vxSkips (s : State) (g n : Nat) : (vxSkips s g n).sec.floors = s.sec.floors ∧ (vxSkips s g n).pending = s.pending := by
  unfold vxSkips; split <;> simp

@[simp] theorem keep_vxSweep (s : State) (g tag stage : Nat) (fin : List (List Bool)) : (vxSweep s g tag stage fin).sec.floors = s.sec.floors ∧ (vxSweep s g tag stage fin).pending = s.pending := by
  unfold vxSweep; dsimp only; (repeat' split) <;> simp

@[simp] theorem keep_vxFlags (s : State) (g fl : Nat) : (vxFlags s g fl).sec.floors = s.sec.floors ∧ (vxFlags s g fl).pending = s.pending := by
  unfold vxFlags; simp

@[simp] theorem keep_summWrite (s : State) (g line slot : Nat) (b : List Byte) : (summWrite s g line slot b).sec.floors = s.sec.floors ∧ (summWrite s g line slot b).pending = s.pending := by
  unfold summWrite; simp

@[simp] theorem keep_outputTile (s : State) (g fl : Nat) (o : Oper) (set : QSet) (redrain : Bool) (cfg : OutCfg) (acc : Bool) (vals : List (List FV)) (satMask : List (List Bool)) : (outputTile s g fl o set redrain cfg acc vals satMask).1.sec.floors = s.sec.floors ∧ (outputTile s g fl o set redrain cfg acc vals satMask).1.pending = s.pending := by
  unfold outputTile; simp

@[simp] theorem keep_writePlain (s : State) (g fl : Nat) (o : Oper) (set : QSet) (m : List (List FV)) : (writePlain s g fl o set m).1.sec.floors = s.sec.floors ∧ (writePlain s g fl o set m).1.pending = s.pending := by
  unfold writePlain; split <;> simp

@[simp] theorem keep_chainAfter (s : State) (g fl : Nat) (v : View) (cfg : OutCfg) (set : QSet) (e : ChainEnv) (st : ChainSt) (tapOf : List (List FV) → List (List FV)) : (chainAfter s g fl v cfg set e st tapOf).1.sec.floors = s.sec.floors ∧ (chainAfter s g fl v cfg set e st tapOf).1.pending = s.pending := by
  unfold chainAfter; grind [keep_bumpIf, keep_csWrite, keep_vxFail, keep_vxSkips, keep_writePlain, keep_foldl, keep_iff]

@[simp] theorem keep_chainEnd (s : State) (g : Nat) (v : View) (cfg : OutCfg) (tag : Nat) (e : ChainEnv) (st : ChainSt) (fl : Flags) : (chainEnd s g v cfg tag e st fl).sec.floors = s.sec.floors ∧ (chainEnd s g v cfg tag e st fl).pending = s.pending := by
  unfold chainEnd; split <;> simp

@[simp] theorem keep_chainRows (s : State) (g fl tag : Nat) (v : View) (in0 : Oper) (in1 : Nat) (w : Bool) : (chainRows s g fl tag v in0 in1 w).1.sec.floors = s.sec.floors ∧ (chainRows s g fl tag v in0 in1 w).1.pending = s.pending := by
  unfold chainRows; split <;> simp

@[simp] theorem keep_coreChain (s : State) (g fl : Nat) (v : View) (d : List Byte) (cfg : OutCfg) (outFmt : Nat) : (coreChain s g fl v d cfg outFmt).1.sec.floors = s.sec.floors ∧ (coreChain s g fl v d cfg outFmt).1.pending = s.pending := by
  unfold coreChain; simp

@[simp] theorem keep_doVchain (s : State) (g fl : Nat) (v : View) (d : List Byte) : (doVchain s g fl v d).sec.floors = s.sec.floors ∧ (doVchain s g fl v d).pending = s.pending := by
  unfold doVchain; simp

@[simp] theorem keep_doOptim (s : State) (g fl : Nat) (v : View) (d : List Byte) : (doOptim s g fl v d).sec.floors = s.sec.floors ∧ (doOptim s g fl v d).pending = s.pending := by
  unfold doOptim; dsimp only; (repeat' split) <;> simp

/-! ### Matrix -/

@[simp] theorem keep_passRow (s : State) (g fl tag : Nat) (o : Oper) (az azn : Bool) (r c n : Nat) : (passRow s g fl tag o az azn r c n).1.sec.floors = s.sec.floors ∧ (passRow s g fl tag o az azn r c n).1.pending = s.pending := by
  unfold passRow; split <;> simp

@[simp] theorem keep_wloadIssue (s : State) (g : Nat) (ref fmt height : Nat) (azn : Bool) : (wloadIssue s g ref fmt height azn).1.sec.floors = s.sec.floors ∧ (wloadIssue s g ref fmt height azn).1.pending = s.pending := by
  unfold wloadIssue; simp

@[simp] theorem keep_doWload (s : State) (g fl : Nat) (v : View) (d : List Byte) (b : Nat) : (doWload s g fl v d b).sec.floors = s.sec.floors ∧ (doWload s g fl v d b).pending = s.pending := by
  unfold doWload; dsimp only; (repeat' split) <;> simp

@[simp] theorem keep_streamIssue (s : State) (g : Nat) (release : Bool) : (streamIssue s g release).1.sec.floors = s.sec.floors ∧ (streamIssue s g release).1.pending = s.pending := by
  unfold streamIssue; split <;> simp

@[simp] theorem keep_seedOf (s : State) (g : Nat) (int : Bool) (key : Nat) : (seedOf s g int key).1.sec.floors = s.sec.floors ∧ (seedOf s g int key).1.pending = s.pending := by
  unfold seedOf; dsimp only; (repeat' split) <;> simp

@[simp] theorem keep_mxFail (s : State) (g tag m n : Nat) (injected : Bool) : (mxFail s g tag m n injected).sec.floors = s.sec.floors ∧ (mxFail s g tag m n injected).pending = s.pending := by
  unfold mxFail; dsimp only; (repeat' split) <;> simp

@[simp] theorem keep_footCheck (s : State) (g tag m n : Nat) (a : Acc0) : (footCheck s g tag m n a).sec.floors = s.sec.floors ∧ (footCheck s g tag m n a).pending = s.pending := by
  unfold footCheck; dsimp only; (repeat' split) <;> simp

@[simp] theorem keep_colSums (s : State) (g tag : Nat) (o : Oper) (n : Nat) : (colSums s g tag o n).1.sec.floors = s.sec.floors ∧ (colSums s g tag o n).1.pending = s.pending := by
  unfold colSums; split <;> simp

@[simp] theorem keep_feed (s : State) (g fl : Nat) (d : List Byte) (x : Oper) (pf : Nat) : (feed s g fl d x pf).1.sec.floors = s.sec.floors ∧ (feed s g fl d x pf).1.pending = s.pending := by
  unfold feed; split <;> simp

@[simp] theorem keep_passSums (s : State) (g : Nat) (d : List Byte) (pf : Nat) (rows : List (List (FV × Nat))) (xs : List (List (FV × Nat))) : (passSums s g d pf rows xs).1.sec.floors = s.sec.floors ∧ (passSums s g d pf rows xs).1.pending = s.pending := by
  unfold passSums; dsimp only; (repeat' split) <;> simp

@[simp] theorem keep_storeAcc (s : State) (g base : Nat) (l : List (List Acc0)) : (storeAcc s g base l).sec.floors = s.sec.floors ∧ (storeAcc s g base l).pending = s.pending := by
  unfold storeAcc; simp

@[simp] theorem keep_storeRowSums (s : State) (g base : Nat) (l : List RowSum) : (storeRowSums s g base l).sec.floors = s.sec.floors ∧ (storeRowSums s g base l).pending = s.pending := by
  unfold storeRowSums; simp

@[simp] theorem keep_fusedIns (s : State) (g fl : Nat) (v : View) (d : List Byte) (e : ChainEnv) (hs : List (List FV)) : (fusedIns s g fl v d e hs).1.sec.floors = s.sec.floors ∧ (fusedIns s g fl v d e hs).1.pending = s.pending := by
  unfold fusedIns; dsimp only; (repeat' split) <;> simp

@[simp] theorem keep_fusedDrain (s : State) (g fl : Nat) (v : View) (d : List Byte) (ys : List (List FV)) (mask : List (List Bool)) : (fusedDrain s g fl v d ys mask).sec.floors = s.sec.floors ∧ (fusedDrain s g fl v d ys mask).pending = s.pending := by
  unfold fusedDrain; simp

@[simp] theorem keep_doStream (s : State) (g fl : Nat) (v : View) (d : List Byte) (b : Nat) : (doStream s g fl v d b).sec.floors = s.sec.floors ∧ (doStream s g fl v d b).pending = s.pending := by
  unfold doStream; dsimp only; (repeat' split) <;> simp

theorem keep_execLongFreeze (core cycles : Nat) (s : State) : ∀ t, execLongFreeze core cycles s = .next t → t.sec.floors = s.sec.floors ∧ t.pending = s.pending := by
  unfold execLongFreeze; grind [keep_bumpIf, keep_ev]

/-! ### Copy -/

@[simp] theorem keep_copyTile (s : State) (g fl tag : Nat) (a b : Oper) : (copyTile s g fl tag a b).sec.floors = s.sec.floors ∧ (copyTile s g fl tag a b).pending = s.pending := by
  unfold copyTile; simp

@[simp] theorem keep_copyRaw (s : State) (g fl : Nat) (d : List Byte) : (copyRaw s g fl d).sec.floors = s.sec.floors ∧ (copyRaw s g fl d).pending = s.pending := by
  unfold copyRaw; simp

@[simp] theorem keep_doCopy (s : State) (g fl : Nat) (v : View) (d : List Byte) : (doCopy s g fl v d).sec.floors = s.sec.floors ∧ (doCopy s g fl v d).pending = s.pending := by
  unfold doCopy; split <;> simp

@[simp] theorem keep_doAtomic (s : State) (g : Nat) (d : List Byte) : (doAtomic s g d).sec.floors = s.sec.floors ∧ (doAtomic s g d).pending = s.pending := by
  have h := keep_atomicDo s (atomicReqOf g d)
  unfold doAtomic; extract_lets r; rw [show r = atomicDo s (atomicReqOf g d) from rfl]; generalize atomicDo s (atomicReqOf g d) = p at h ⊢; split <;> simp [h]

@[simp] theorem keep_doLineOp (s : State) (g : Nat) (d : List Byte) : (doLineOp s g d).sec.floors = s.sec.floors ∧ (doLineOp s g d).pending = s.pending := by
  unfold doLineOp; simp

@[simp] theorem keep_doRedArm (s : State) (g : Nat) (d : List Byte) : (doRedArm s g d).sec.floors = s.sec.floors ∧ (doRedArm s g d).pending = s.pending := by
  unfold doRedArm; simp

@[simp] theorem keep_contribLines (s : State) (g hdr idx src first count tag : Nat) : (contribLines s g hdr idx src first count tag).sec.floors = s.sec.floors ∧ (contribLines s g hdr idx src first count tag).pending = s.pending := by
  unfold contribLines; simp

@[simp] theorem keep_doRedContrib (s : State) (g : Nat) (d : List Byte) : (doRedContrib s g d).sec.floors = s.sec.floors ∧ (doRedContrib s g d).pending = s.pending := by
  unfold doRedContrib; simp

@[simp] theorem keep_doScaleRoll (s : State) (g : Nat) (d : List Byte) : (doScaleRoll s g d).sec.floors = s.sec.floors ∧ (doScaleRoll s g d).pending = s.pending := by
  unfold doScaleRoll; simp

@[simp] theorem keep_sendPackets (s : State) (g : Nat) (ps : List Packet) : (sendPackets s g ps).1.sec.floors = s.sec.floors ∧ (sendPackets s g ps).1.pending = s.pending := by
  unfold sendPackets; split <;> simp

@[simp] theorem keep_doPut (s : State) (g : Nat) (d : List Byte) : (doPut s g d).1.sec.floors = s.sec.floors ∧ (doPut s g d).1.pending = s.pending := by
  unfold doPut; split <;> simp

@[simp] theorem keep_doRcontrib (s : State) (g : Nat) (d : List Byte) : (doRcontrib s g d).1.sec.floors = s.sec.floors ∧ (doRcontrib s g d).1.pending = s.pending := by
  unfold doRcontrib; split <;> simp

@[simp] theorem keep_doFlagDecl (s : State) (g : Nat) (d : List Byte) : (doFlagDecl s g d).sec.floors = s.sec.floors ∧ (doFlagDecl s g d).pending = s.pending := by
  unfold doFlagDecl; simp

@[simp] theorem keep_doCounterSet (s : State) (g : Nat) (d : List Byte) : (doCounterSet s g d).sec.floors = s.sec.floors ∧ (doCounterSet s g d).pending = s.pending := by
  unfold doCounterSet; simp

@[simp] theorem keep_doNotify (s : State) (g q : Nat) (d : List Byte) : (doNotify s g q d).sec.floors = s.sec.floors ∧ (doNotify s g q d).pending = s.pending := by
  unfold doNotify; split <;> simp

/-! ### Sequencer -/

@[simp] theorem keep_setQueue (s : State) (g q : Nat) (v : QueueSt) : (setQueue s g q v).sec.floors = s.sec.floors ∧ (setQueue s g q v).pending = s.pending := by
  unfold setQueue; simp

@[simp] theorem keep_retire (s : State) (g q : Nat) : (retire s g q).sec.floors = s.sec.floors ∧ (retire s g q).pending = s.pending := by
  unfold retire; split <;> simp

@[simp] theorem keep_haltQueue (s : State) (g q : Nat) (h : Halt) : (haltQueue s g q h).sec.floors = s.sec.floors ∧ (haltQueue s g q h).pending = s.pending := by
  unfold haltQueue; simp

@[simp] theorem keep_skipIllegal (s : State) (g q : Nat) (b : Bad) (d : List Byte) : (skipIllegal s g q b d).sec.floors = s.sec.floors ∧ (skipIllegal s g q b d).pending = s.pending := by
  unfold skipIllegal; dsimp only; (repeat' split) <;> simp

@[simp] theorem keep_setFlight (s : State) (g : Nat) (f : Flight) : (setFlight s g f).sec.floors = s.sec.floors ∧ (setFlight s g f).pending = s.pending := by
  unfold setFlight; simp

@[simp] theorem keep_flightEffect (s : State) (g : Nat) (f : Flight) : (flightEffect s g f).1.sec.floors = s.sec.floors ∧ (flightEffect s g f).1.pending = s.pending := by
  unfold flightEffect; dsimp only; (repeat' split) <;> simp

@[simp] theorem keep_runFlights (n : Nat) (s : State) (g : Nat) : (runFlights n s g).sec.floors = s.sec.floors ∧ (runFlights n s g).pending = s.pending := by
  induction n generalizing s with
  | zero => simp [runFlights]
  | succ n ih => unfold runFlights; grind [keep_flightEffect, keep_setFlight]

@[simp] theorem keep_runReady (s : State) (g : Nat) : (runReady s g).sec.floors = s.sec.floors ∧ (runReady s g).pending = s.pending := by
  unfold runReady; simp

@[simp] theorem keep_fireSigs (s : State) (g q : Nat) (op tag s0 s1 : Nat) : (fireSigs s g q op tag s0 s1).sec.floors = s.sec.floors ∧ (fireSigs s g q op tag s0 s1).pending = s.pending := by
  unfold fireSigs; dsimp only; (repeat' split) <;> simp

@[simp] theorem keep_issueCommon (s : State) (g q : Nat) (d : List Byte) : (issueCommon s g q d).sec.floors = s.sec.floors ∧ (issueCommon s g q d).pending = s.pending := by
  unfold issueCommon; simp

@[simp] theorem keep_launch (s : State) (g q : Nat) (d : List Byte) : (launch s g q d).sec.floors = s.sec.floors ∧ (launch s g q d).pending = s.pending := by
  unfold launch; (repeat' split) <;> simp

theorem keep_issueWith (s : State) (g q op : Nat) (act : State → List Byte → State) (h : ∀ s d, (act s d).sec.floors = s.sec.floors ∧ (act s d).pending = s.pending) : (issueWith s g q op act).sec.floors = s.sec.floors ∧ (issueWith s g q op act).pending = s.pending := by
  unfold issueWith; grind [keep_skipIllegal]

@[simp] theorem keep_issueOp (s : State) (g q op : Nat) : (issueOp s g q op).sec.floors = s.sec.floors ∧ (issueOp s g q op).pending = s.pending := by
  unfold issueOp; grind [keep_launch, keep_issueWith]

@[simp] theorem keep_complete (s : State) (g : Nat) (f : Flight) : (complete s g f).sec.floors = s.sec.floors ∧ (complete s g f).pending = s.pending := by
  unfold complete; split <;> simp

theorem keep_execWload (core queue : Nat) (s : State) : ∀ t, execWload core queue s = .next t → t.sec.floors = s.sec.floors ∧ t.pending = s.pending := by
  unfold execWload; grind [keep_issueOp]

theorem keep_execStream (core queue : Nat) (s : State) : ∀ t, execStream core queue s = .next t → t.sec.floors = s.sec.floors ∧ t.pending = s.pending := by
  unfold execStream; grind [keep_issueOp]

theorem keep_execVchain (core queue : Nat) (s : State) : ∀ t, execVchain core queue s = .next t → t.sec.floors = s.sec.floors ∧ t.pending = s.pending := by
  unfold execVchain; grind [keep_issueOp]

theorem keep_execOptim (core queue : Nat) (s : State) : ∀ t, execOptim core queue s = .next t → t.sec.floors = s.sec.floors ∧ t.pending = s.pending := by
  unfold execOptim; grind [keep_issueOp]

theorem keep_execNop (core queue : Nat) (s : State) : ∀ t, execNop core queue s = .next t → t.sec.floors = s.sec.floors ∧ t.pending = s.pending := by
  unfold execNop; grind [keep_issueOp]

theorem keep_execFlagDecl (core queue : Nat) (s : State) : ∀ t, execFlagDecl core queue s = .next t → t.sec.floors = s.sec.floors ∧ t.pending = s.pending := by
  unfold execFlagDecl; grind [keep_issueOp]

theorem keep_execCounterSet (core queue : Nat) (s : State) : ∀ t, execCounterSet core queue s = .next t → t.sec.floors = s.sec.floors ∧ t.pending = s.pending := by
  unfold execCounterSet; grind [keep_issueOp]

theorem keep_execCopy (core queue : Nat) (s : State) : ∀ t, execCopy core queue s = .next t → t.sec.floors = s.sec.floors ∧ t.pending = s.pending := by
  unfold execCopy; grind [keep_issueOp]

theorem keep_execAtomic (core queue : Nat) (s : State) : ∀ t, execAtomic core queue s = .next t → t.sec.floors = s.sec.floors ∧ t.pending = s.pending := by
  unfold execAtomic; grind [keep_issueOp]

theorem keep_execLineOp (core queue : Nat) (s : State) : ∀ t, execLineOp core queue s = .next t → t.sec.floors = s.sec.floors ∧ t.pending = s.pending := by
  unfold execLineOp; grind [keep_issueOp]

theorem keep_execRedArm (core queue : Nat) (s : State) : ∀ t, execRedArm core queue s = .next t → t.sec.floors = s.sec.floors ∧ t.pending = s.pending := by
  unfold execRedArm; grind [keep_issueOp]

theorem keep_execRedContrib (core queue : Nat) (s : State) : ∀ t, execRedContrib core queue s = .next t → t.sec.floors = s.sec.floors ∧ t.pending = s.pending := by
  unfold execRedContrib; grind [keep_issueOp]

theorem keep_execScaleRoll (core queue : Nat) (s : State) : ∀ t, execScaleRoll core queue s = .next t → t.sec.floors = s.sec.floors ∧ t.pending = s.pending := by
  unfold execScaleRoll; grind [keep_issueOp]

theorem keep_execPut (core queue : Nat) (s : State) : ∀ t, execPut core queue s = .next t → t.sec.floors = s.sec.floors ∧ t.pending = s.pending := by
  unfold execPut; grind [keep_issueOp]

theorem keep_execRcontrib (core queue : Nat) (s : State) : ∀ t, execRcontrib core queue s = .next t → t.sec.floors = s.sec.floors ∧ t.pending = s.pending := by
  unfold execRcontrib; grind [keep_issueOp]

theorem keep_execNotify (core queue : Nat) (s : State) : ∀ t, execNotify core queue s = .next t → t.sec.floors = s.sec.floors ∧ t.pending = s.pending := by
  unfold execNotify; grind [keep_issueOp]

theorem keep_execDescriptorComplete (core queue : Nat) (s : State) : ∀ t, execDescriptorComplete core queue s = .next t → t.sec.floors = s.sec.floors ∧ t.pending = s.pending := by
  unfold execDescriptorComplete; grind [keep_complete]

theorem keep_execDeferredPromotion (core queue : Nat) (s : State) : ∀ t, execDeferredPromotion core queue s = .next t → t.sec.floors = s.sec.floors ∧ t.pending = s.pending := by
  unfold execDeferredPromotion; grind [keep_setQueue]

/-! ### Control -/

@[simp] theorem keep_finishAtIssue (s : State) (g q : Nat) (d : List Byte) : (finishAtIssue s g q d).sec.floors = s.sec.floors ∧ (finishAtIssue s g q d).pending = s.pending := by
  unfold finishAtIssue; simp

@[simp] theorem keep_doLoopBegin (s : State) (g q : Nat) (d : List Byte) : (doLoopBegin s g q d).sec.floors = s.sec.floors ∧ (doLoopBegin s g q d).pending = s.pending := by
  unfold doLoopBegin; dsimp only; (repeat' split) <;> simp

@[simp] theorem keep_doLoopEnd (s : State) (g q : Nat) (d : List Byte) : (doLoopEnd s g q d).sec.floors = s.sec.floors ∧ (doLoopEnd s g q d).pending = s.pending := by
  unfold doLoopEnd; dsimp only; (repeat' split) <;> simp

theorem keep_execLoopBegin (core queue : Nat) (s : State) : ∀ t, execLoopBegin core queue s = .next t → t.sec.floors = s.sec.floors ∧ t.pending = s.pending := by
  unfold execLoopBegin; grind [keep_issueWith, keep_doLoopBegin]

theorem keep_execLoopEnd (core queue : Nat) (s : State) : ∀ t, execLoopEnd core queue s = .next t → t.sec.floors = s.sec.floors ∧ t.pending = s.pending := by
  unfold execLoopEnd; grind [keep_issueWith, keep_doLoopEnd]

@[simp] theorem keep_doBranch (s : State) (g q : Nat) (d : List Byte) : (doBranch s g q d).sec.floors = s.sec.floors ∧ (doBranch s g q d).pending = s.pending := by
  unfold doBranch; simp

@[simp] theorem keep_doSegment (s : State) (g q : Nat) (d : List Byte) : (doSegment s g q d).sec.floors = s.sec.floors ∧ (doSegment s g q d).pending = s.pending := by
  unfold doSegment; simp

@[simp] theorem keep_selectSeg (s : State) (g q : Nat) (b : BranchSt) (seg : Nat) (byHost : Bool) : (selectSeg s g q b seg byHost).sec.floors = s.sec.floors ∧ (selectSeg s g q b seg byHost).pending = s.pending := by
  unfold selectSeg; simp

theorem keep_execBranch (core queue : Nat) (s : State) : ∀ t, execBranch core queue s = .next t → t.sec.floors = s.sec.floors ∧ t.pending = s.pending := by
  unfold execBranch; grind [keep_issueWith, keep_doBranch]

theorem keep_execSegment (core queue : Nat) (s : State) : ∀ t, execSegment core queue s = .next t → t.sec.floors = s.sec.floors ∧ t.pending = s.pending := by
  unfold execSegment; grind [keep_issueWith, keep_doSegment]

theorem keep_execBranchSelect (core queue : Nat) (s : State) : ∀ t, execBranchSelect core queue s = .next t → t.sec.floors = s.sec.floors ∧ t.pending = s.pending := by
  unfold execBranchSelect; grind [keep_selectSeg]

@[simp] theorem keep_qbrselEffect (s : State) (req : Requester) (g q : Nat) (value : Word) : (qbrselEffect s req g q value).sec.floors = s.sec.floors ∧ (qbrselEffect s req g q value).pending = s.pending := by
  unfold qbrselEffect; dsimp only; (repeat' split) <;> simp

@[simp] theorem keep_queueDiscard (s : State) (g q : Nat) : (queueDiscard s g q).sec.floors = s.sec.floors ∧ (queueDiscard s g q).pending = s.pending := by
  unfold queueDiscard; simp

@[simp] theorem keep_queueResume (s : State) (g q : Nat) : (queueResume s g q).sec.floors = s.sec.floors ∧ (queueResume s g q).pending = s.pending := by
  unfold queueResume; simp

@[simp] theorem keep_loopCountEffect (s : State) (g n : Nat) (value : Word) : (loopCountEffect s g n value).sec.floors = s.sec.floors ∧ (loopCountEffect s g n value).pending = s.pending := by
  unfold loopCountEffect; dsimp only; (repeat' split) <;> simp

theorem keep_execDeadlock (core : Nat) (s : State) : ∀ t, execDeadlock core s = .next t → t.sec.floors = s.sec.floors ∧ t.pending = s.pending := by
  unfold execDeadlock; intro t h; (repeat' (first | split at h | dsimp only at h)) <;> (simp at h; subst h; simp)

end Sys2Proof.Laws
end

