-- ==== Sys2Proof/Laws/KeepHub.lean ====
section
/-! SUPPORT. What no operation changes: the fuses and counters that only rise, and the queue of commands; steps, host queues, fabric links, jobs, checkpoints and step replay. One lemma for each
operation that takes a state to a state. -/

namespace Sys2Proof.Laws

open Sys2Proof.Machine

set_option maxRecDepth 4000

/-! ### Steps -/

@[simp] theorem keep_loadSeeds (s : State) (seeds : List Nat) : (loadSeeds s seeds).sec.floors = s.sec.floors ∧ (loadSeeds s seeds).pending = s.pending := by
  unfold loadSeeds; simp

@[simp] theorem keep_stepOpenAtFetch (s : State) : (stepOpenAtFetch s).sec.floors = s.sec.floors ∧ (stepOpenAtFetch s).pending = s.pending := by
  unfold stepOpenAtFetch; grind [keep_wf, keep_wf2, keep_putStep, keep_hubWrite, keep_hostRead, keep_loadSeeds, keep_foldl, keep_iff]

@[simp] theorem keep_pannierCopied (s : State) (t : Step) : (pannierCopied s t).sec.floors = s.sec.floors ∧ (pannierCopied s t).pending = s.pending := by
  unfold pannierCopied; apply keep_foldl; intro s a; simp only [keep_iff]; (repeat' split) <;> simp

@[simp] theorem keep_setCommitFlags (s : State) : (setCommitFlags s).sec.floors = s.sec.floors ∧ (setCommitFlags s).pending = s.pending := by
  unfold setCommitFlags; simp

@[simp] theorem keep_clearCommitFlags (s : State) : (clearCommitFlags s).sec.floors = s.sec.floors ∧ (clearCommitFlags s).pending = s.pending := by
  unfold clearCommitFlags; simp

@[simp] theorem keep_releaseFlag (s : State) : (releaseFlag s).sec.floors = s.sec.floors ∧ (releaseFlag s).pending = s.pending := by
  unfold releaseFlag; split <;> simp

@[simp] theorem keep_foldDesc (s : State) (r pos : Nat) (d : List Byte) : (foldDesc s r pos d).sec.floors = s.sec.floors ∧ (foldDesc s r pos d).pending = s.pending := by
  unfold foldDesc; dsimp only; (repeat' split) <;> simp

/-! ### HostQueue -/

@[simp] theorem keep_ringErrRecord (s : State) (r reason : Nat) : (ringErrRecord s r reason).sec.floors = s.sec.floors ∧ (ringErrRecord s r reason).pending = s.pending := by
  unfold ringErrRecord; dsimp only; (repeat' split) <;> simp

@[simp] theorem keep_ringError (s : State) (r reason : Nat) : (ringError s r reason).sec.floors = s.sec.floors ∧ (ringError s r reason).pending = s.pending := by
  unfold ringError; simp

@[simp] theorem keep_readRecord (s : State) (r : Nat) : (readRecord s r).sec.floors = s.sec.floors ∧ (readRecord s r).pending = s.pending := by
  unfold readRecord; (repeat' split) <;> simp

@[simp] theorem keep_wakeRing (s : State) (r : Nat) : (wakeRing s r).sec.floors = s.sec.floors ∧ (wakeRing s r).pending = s.pending := by
  unfold wakeRing; split <;> simp

@[simp] theorem keep_hqWakeEffect (v : Word) (s : State) : (hqWakeEffect v s).sec.floors = s.sec.floors ∧ (hqWakeEffect v s).pending = s.pending := by
  unfold hqWakeEffect; split <;> simp

@[simp] theorem keep_runRing (s : State) (r : Nat) : (runRing s r).sec.floors = s.sec.floors ∧ (runRing s r).pending = s.pending := by
  unfold runRing; dsimp only; (repeat' split) <;> simp

@[simp] theorem keep_ringCtrlEffect (r : Nat) (pulse : Word) (s : State) : (ringCtrlEffect r pulse s).sec.floors = s.sec.floors ∧ (ringCtrlEffect r pulse s).pending = s.pending := by
  unfold ringCtrlEffect; (repeat' split) <;> simp

@[simp] theorem keep_fetchRing (s : State) (r : Nat) : (fetchRing s r).sec.floors = s.sec.floors ∧ (fetchRing s r).pending = s.pending := by
  unfold fetchRing; dsimp only; (repeat' split) <;> simp

@[simp] theorem keep_advanceCidx (s : State) (r n : Nat) : (advanceCidx s r n).sec.floors = s.sec.floors ∧ (advanceCidx s r n).pending = s.pending := by
  unfold advanceCidx; simp

@[simp] theorem keep_deliverDescs (s : State) (r pos : Nat) (data : List Byte) : (deliverDescs s r pos data).sec.floors = s.sec.floors ∧ (deliverDescs s r pos data).pending = s.pending := by
  unfold deliverDescs; split <;> simp

@[simp] theorem keep_descsArrive (s : State) (r id pos : Nat) (data : List Byte) : (descsArrive s r id pos data).sec.floors = s.sec.floors ∧ (descsArrive s r id pos data).pending = s.pending := by
  unfold descsArrive; dsimp only; (repeat' split) <;> simp

@[simp] theorem keep_recordArrive (s : State) (r : Nat) (data : List Byte) : (recordArrive s r data).sec.floors = s.sec.floors ∧ (recordArrive s r data).pending = s.pending := by
  unfold recordArrive; dsimp only; (repeat' split) <;> simp

@[simp] theorem keep_readFailed (s : State) (h : HostRead) (reason : Nat) : (readFailed s h reason).sec.floors = s.sec.floors ∧ (readFailed s h reason).pending = s.pending := by
  unfold readFailed; dsimp only; (repeat' split) <;> simp

@[simp] theorem keep_readDone (s : State) (h : HostRead) (data : List Byte) : (readDone s h data).sec.floors = s.sec.floors ∧ (readDone s h data).pending = s.pending := by
  unfold readDone; dsimp only; (repeat' split) <;> simp

theorem keep_takeRead (s : State) (tag : Nat) (h : HostRead) (t : State) (e : takeRead s tag = some (h, t)) : t.sec.floors = s.sec.floors ∧ t.pending = s.pending := by
  unfold takeRead at e; simp only [Option.map_eq_some_iff] at e; obtain ⟨x, -, e⟩ := e; injection e with _ e; subst e; exact ⟨rfl, rfl⟩

theorem keep_execHmemRdCompletion (tag status : Nat) (data : List Byte) (s : State) : ∀ t, execHmemRdCompletion tag status data s = .next t → t.sec.floors = s.sec.floors ∧ t.pending = s.pending := by
  unfold execHmemRdCompletion; intro t h; (repeat' (first | split at h | dsimp only at h)) <;> (simp at h; subst h; simp) <;> grind [keep_bumpSat, keep_readFailed, keep_readDone, keep_takeRead]

theorem keep_execHmemRdTimeout (tag : Nat) (s : State) : ∀ t, execHmemRdTimeout tag s = .next t → t.sec.floors = s.sec.floors ∧ t.pending = s.pending := by
  unfold execHmemRdTimeout; intro t h; (repeat' (first | split at h | dsimp only at h)) <;> (simp at h; subst h; simp) <;> grind [keep_readFailed, keep_takeRead]

@[simp] theorem keep_linkStatus (s : State) (modules rate : Nat) : (linkStatus s modules rate).sec.floors = s.sec.floors ∧ (linkStatus s modules rate).pending = s.pending := by
  unfold linkStatus; simp

@[simp] theorem keep_endReads (s : State) : (endReads s).sec.floors = s.sec.floors ∧ (endReads s).pending = s.pending := by
  unfold endReads; simp

@[simp] theorem keep_hostLinkLost (s : State) (trainings : Nat) : (hostLinkLost s trainings).sec.floors = s.sec.floors ∧ (hostLinkLost s trainings).pending = s.pending := by
  unfold hostLinkLost; simp

theorem keep_execHostLinkDown (s : State) : ∀ t, execHostLinkDown s = .next t → t.sec.floors = s.sec.floors ∧ t.pending = s.pending := by
  unfold execHostLinkDown; grind [keep_hostLinkLost]

@[simp] theorem keep_hqRetrainEffect (s : State) : (hqRetrainEffect s).sec.floors = s.sec.floors ∧ (hqRetrainEffect s).pending = s.pending := by
  unfold hqRetrainEffect; split <;> simp

theorem keep_execHqLinkRetrain (req : Requester) (s : State) : ∀ t, execHqLinkRetrain req s = .next t → t.sec.floors = s.sec.floors ∧ t.pending = s.pending := by
  unfold execHqLinkRetrain; exact keep_regCmd _ _ _ _ _ _ _ (fun _ _ _ => by simp)

@[simp] theorem keep_moduleTrained (s : State) (m : Nat) (ok : Bool) : (moduleTrained s m ok).sec.floors = s.sec.floors ∧ (moduleTrained s m ok).pending = s.pending := by
  unfold moduleTrained; (repeat' split) <;> simp

theorem keep_execUcieTrainEnd (modules32 modules16 : Nat) (s : State) : ∀ t, execUcieTrainEnd modules32 modules16 s = .next t → t.sec.floors = s.sec.floors ∧ t.pending = s.pending := by
  unfold execUcieTrainEnd; intro t h; (repeat' (first | split at h | dsimp only at h)) <;> (simp at h; subst h; simp)

theorem keep_execDmemRd (tag addr units : Nat) (s : State) : ∀ t, execDmemRd tag addr units s = .next t → t.sec.floors = s.sec.floors ∧ t.pending = s.pending := by
  unfold execDmemRd; grind [keep_hubRead, keep_hostSend]

theorem keep_execDmemWr (addr : Nat) (data : List Byte) (s : State) : ∀ t, execDmemWr addr data s = .next t → t.sec.floors = s.sec.floors ∧ t.pending = s.pending := by
  unfold execDmemWr; grind [keep_hubWrite]

theorem keep_execHostPacketReserved (ptype tag : Nat) (nonPosted : Bool) (s : State) : ∀ t, execHostPacketReserved ptype tag nonPosted s = .next t → t.sec.floors = s.sec.floors ∧ t.pending = s.pending := by
  unfold execHostPacketReserved; grind [keep_hostSend]

theorem keep_execHqWake (req : Requester) (value : Word) (s : State) : ∀ t, execHqWake req value s = .next t → t.sec.floors = s.sec.floors ∧ t.pending = s.pending := by
  unfold execHqWake; exact keep_regCmd _ _ _ _ _ _ _ (fun _ _ _ => by simp)

theorem keep_execRingPoll (ring : Nat) (s : State) : ∀ t, execRingPoll ring s = .next t → t.sec.floors = s.sec.floors ∧ t.pending = s.pending := by
  unfold execRingPoll; grind [keep_ev, keep_readRecord]

theorem keep_execRingFetch (ring : Nat) (s : State) : ∀ t, execRingFetch ring s = .next t → t.sec.floors = s.sec.floors ∧ t.pending = s.pending := by
  unfold execRingFetch; grind [keep_fetchRing]

theorem keep_execRingRun (req : Requester) (value : Word) (s : State) : ∀ t, execRingRun req value s = .next t → t.sec.floors = s.sec.floors ∧ t.pending = s.pending := by
  unfold execRingRun; exact keep_regCmd _ _ _ _ _ _ _ (fun _ _ _ => by simp)

theorem keep_execRingPause (req : Requester) (value : Word) (s : State) : ∀ t, execRingPause req value s = .next t → t.sec.floors = s.sec.floors ∧ t.pending = s.pending := by
  unfold execRingPause; exact keep_regCmd _ _ _ _ _ _ _ (fun _ _ _ => by simp)

theorem keep_execHqRingCidxWrite (req : Requester) (value : Word) (s : State) : ∀ t, execHqRingCidxWrite req value s = .next t → t.sec.floors = s.sec.floors ∧ t.pending = s.pending := by
  unfold execHqRingCidxWrite; exact keep_regCmd _ _ _ _ _ _ _ (fun _ _ _ => by simp)

theorem keep_execHqCqHeadWrite (req : Requester) (value : Word) (s : State) : ∀ t, execHqCqHeadWrite req value s = .next t → t.sec.floors = s.sec.floors ∧ t.pending = s.pending := by
  unfold execHqCqHeadWrite; exact keep_regCmd _ _ _ _ _ _ _ (fun _ _ _ => by simp)

@[simp] theorem keep_cqCtrlEffect (q : Nat) (old : Word) (s : State) : (cqCtrlEffect q old s).sec.floors = s.sec.floors ∧ (cqCtrlEffect q old s).pending = s.pending := by
  unfold cqCtrlEffect; dsimp only; (repeat' split) <;> simp

theorem keep_execCqEnable (req : Requester) (value : Word) (s : State) : ∀ t, execCqEnable req value s = .next t → t.sec.floors = s.sec.floors ∧ t.pending = s.pending := by
  unfold execCqEnable; exact keep_regCmd _ _ _ _ _ _ _ (fun _ _ _ => by simp)

/-! ### FabricLink -/

@[simp] theorem keep_setLstate (s : State) (n v : Nat) : (setLstate s n v).sec.floors = s.sec.floors ∧ (setLstate s n v).pending = s.pending := by
  unfold setLstate; simp

@[simp] theorem keep_sendPacket (s : State) (n vc : Nat) (pkt : Packet) : (sendPacket s n vc pkt).sec.floors = s.sec.floors ∧ (sendPacket s n vc pkt).pending = s.pending := by
  unfold sendPacket; split <;> simp

@[simp] theorem keep_portDown (s : State) (n : Nat) (counts : Bool) (next : Nat) : (portDown s n counts next).sec.floors = s.sec.floors ∧ (portDown s n counts next).pending = s.pending := by
  unfold portDown; dsimp only; (repeat' split) <;> simp

theorem keep_execFabLinkDown (port : Nat) (s : State) : ∀ t, execFabLinkDown port s = .next t → t.sec.floors = s.sec.floors ∧ t.pending = s.pending := by
  unfold execFabLinkDown; grind [keep_portDown]

@[simp] theorem keep_fabRetrainEffect (n : Nat) (s : State) : (fabRetrainEffect n s).sec.floors = s.sec.floors ∧ (fabRetrainEffect n s).pending = s.pending := by
  unfold fabRetrainEffect; (repeat' split) <;> simp

@[simp] theorem keep_fabCntClrEffect (n : Nat) (s : State) : (fabCntClrEffect n s).sec.floors = s.sec.floors ∧ (fabCntClrEffect n s).pending = s.pending := by
  unfold fabCntClrEffect; simp

@[simp] theorem keep_fabCmdEffect (n : Nat) (pulse : Word) (s : State) : (fabCmdEffect n pulse s).sec.floors = s.sec.floors ∧ (fabCmdEffect n pulse s).pending = s.pending := by
  unfold fabCmdEffect; (repeat' split) <;> simp

theorem keep_execFabRetrain (req : Requester) (s : State) : ∀ t, execFabRetrain req s = .next t → t.sec.floors = s.sec.floors ∧ t.pending = s.pending := by
  unfold execFabRetrain; exact keep_regCmd _ _ _ _ _ _ _ (fun _ _ _ => by simp)

theorem keep_execFabCntClr (req : Requester) (s : State) : ∀ t, execFabCntClr req s = .next t → t.sec.floors = s.sec.floors ∧ t.pending = s.pending := by
  unfold execFabCntClr; exact keep_regCmd _ _ _ _ _ _ _ (fun _ _ _ => by simp)

@[simp] theorem keep_cableResult (s : State) (n cable : Nat) : (cableResult s n cable).sec.floors = s.sec.floors ∧ (cableResult s n cable).pending = s.pending := by
  unfold cableResult; dsimp only; (repeat' split) <;> simp

@[simp] theorem keep_sendIdent (s : State) (n : Nat) (recheck : Bool) : (sendIdent s n recheck).sec.floors = s.sec.floors ∧ (sendIdent s n recheck).pending = s.pending := by
  unfold sendIdent; simp

@[simp] theorem keep_swapField (a b : Nat) (s : State) (f : Fld) : (swapField a b s f).sec.floors = s.sec.floors ∧ (swapField a b s f).pending = s.pending := by
  unfold swapField; simp

@[simp] theorem keep_remapPorts (s : State) (a b : Nat) : (remapPorts s a b).sec.floors = s.sec.floors ∧ (remapPorts s a b).pending = s.pending := by
  unfold remapPorts; simp

@[simp] theorem keep_checkPort (s : State) (n : Nat) : (checkPort s n).sec.floors = s.sec.floors ∧ (checkPort s n).pending = s.pending := by
  unfold checkPort; (repeat' split) <;> simp

@[simp] theorem keep_recheckPorts (s : State) : (recheckPorts s).sec.floors = s.sec.floors ∧ (recheckPorts s).pending = s.pending := by
  unfold recheckPorts; apply keep_foldl; intro s a; simp only [keep_iff]; (repeat' split) <;> simp

@[simp] theorem keep_cableMissing (s : State) (n : Nat) : (cableMissing s n).sec.floors = s.sec.floors ∧ (cableMissing s n).pending = s.pending := by
  unfold cableMissing; split <;> simp

@[simp] theorem keep_portRetests (s : State) (n : Nat) (sigs : List Nat) (pass : Bool) : (portRetests s n sigs pass).sec.floors = s.sec.floors ∧ (portRetests s n sigs pass).pending = s.pending := by
  unfold portRetests; apply keep_foldl; intro s a; simp only [keep_iff]; (repeat' split) <;> simp

theorem keep_execPhyTrainEnd (port : Nat) (ok : Bool) (s : State) : ∀ t, execPhyTrainEnd port ok s = .next t → t.sec.floors = s.sec.floors ∧ t.pending = s.pending := by
  unfold execPhyTrainEnd; grind [keep_wf, keep_ev, keep_setPort, keep_raise, keep_fhReport, keep_setLstate, keep_cableMissing, keep_portRetests]

theorem keep_execIdentSend (port : Nat) (s : State) : ∀ t, execIdentSend port s = .next t → t.sec.floors = s.sec.floors ∧ t.pending = s.pending := by
  unfold execIdentSend; grind [keep_sendIdent]

theorem keep_execIdentTimeout (port : Nat) (s : State) : ∀ t, execIdentTimeout port s = .next t → t.sec.floors = s.sec.floors ∧ t.pending = s.pending := by
  unfold execIdentTimeout; grind [keep_setLstate, keep_cableMissing]

theorem keep_execIdentReceive (port : Nat) (ident : Ident) (s : State) : ∀ t, execIdentReceive port ident s = .next t → t.sec.floors = s.sec.floors ∧ t.pending = s.pending := by
  unfold execIdentReceive; grind [keep_wf, keep_wf2, keep_setPort, keep_checkPort]

theorem keep_execRecheckTimeout (port : Nat) (s : State) : ∀ t, execRecheckTimeout port s = .next t → t.sec.floors = s.sec.floors ∧ t.pending = s.pending := by
  unfold execRecheckTimeout; grind [keep_cableResult]

@[simp] theorem keep_startReplay (s : State) (n : Nat) : (startReplay s n).sec.floors = s.sec.floors ∧ (startReplay s n).pending = s.pending := by
  unfold startReplay; dsimp only; (repeat' split) <;> simp

theorem keep_execReplayTimeout (port : Nat) (s : State) : ∀ t, execReplayTimeout port s = .next t → t.sec.floors = s.sec.floors ∧ t.pending = s.pending := by
  unfold execReplayTimeout; grind [keep_startReplay]

@[simp] theorem keep_malformed (s : State) (n vc : Nat) (l : List (List Byte × Bool)) : (malformed s n vc l).sec.floors = s.sec.floors ∧ (malformed s n vc l).pending = s.pending := by
  unfold malformed; simp

@[simp] theorem keep_takeFlit (s : State) (n : Nat) (flit : List Byte) (info : Nat) : (takeFlit s n flit info).sec.floors = s.sec.floors ∧ (takeFlit s n flit info).pending = s.pending := by
  unfold takeFlit; dsimp only; (repeat' split) <;> simp

@[simp] theorem keep_blockError (s : State) (n : Nat) : (blockError s n).sec.floors = s.sec.floors ∧ (blockError s n).pending = s.pending := by
  unfold blockError; dsimp only; (repeat' split) <;> simp

@[simp] theorem keep_blockRefused (s : State) (n : Nat) (nak : Bool) : (blockRefused s n nak).sec.floors = s.sec.floors ∧ (blockRefused s n nak).pending = s.pending := by
  unfold blockRefused; dsimp only; (repeat' split) <;> simp

theorem keep_execLinkBlockReceive (port : Nat) (fecOk : Bool) (corrected : Nat) (block : LinkBlock) (s : State) : ∀ t, execLinkBlockReceive port fecOk corrected block s = .next t → t.sec.floors = s.sec.floors ∧ t.pending = s.pending := by
  unfold execLinkBlockReceive; intro t h; (repeat' (first | split at h | dsimp only at h)) <;> (simp at h; subst h; simp)

/-! ### Job -/

@[simp] theorem keep_jobTake (r : State × List Byte) : (jobTake r).sec.floors = r.1.sec.floors ∧ (jobTake r).pending = r.1.pending := by
  unfold jobTake; split <;> simp

@[simp] theorem keep_jobStart (s : State) : (jobStart s).sec.floors = s.sec.floors ∧ (jobStart s).pending = s.pending := by
  unfold jobStart; dsimp only; (repeat' split) <;> simp

@[simp] theorem keep_jobEnd (s : State) : (jobEnd s).sec.floors = s.sec.floors ∧ (jobEnd s).pending = s.pending := by
  unfold jobEnd; simp

@[simp] theorem keep_interludeWrite (s : State) (on : Bool) : (interludeWrite s on).sec.floors = s.sec.floors ∧ (interludeWrite s on).pending = s.pending := by
  unfold interludeWrite; (repeat' split) <;> simp

@[simp] theorem keep_jobCtrlEffect (pulse : Word) (inter : Option Bool) (s : State) : (jobCtrlEffect pulse inter s).sec.floors = s.sec.floors ∧ (jobCtrlEffect pulse inter s).pending = s.pending := by
  unfold jobCtrlEffect; (repeat' split) <;> simp

theorem keep_execJobStart (req : Requester) (s : State) : ∀ t, execJobStart req s = .next t → t.sec.floors = s.sec.floors ∧ t.pending = s.pending := by
  unfold execJobStart; exact keep_regWriteTo _ _ _ _ _ _ _ _ (fun _ _ _ => by simp)

theorem keep_execJobEnd (req : Requester) (s : State) : ∀ t, execJobEnd req s = .next t → t.sec.floors = s.sec.floors ∧ t.pending = s.pending := by
  unfold execJobEnd; exact keep_regWriteTo _ _ _ _ _ _ _ _ (fun _ _ _ => by simp)

theorem keep_execInterlude (req : Requester) (on : Bool) (s : State) : ∀ t, execInterlude req on s = .next t → t.sec.floors = s.sec.floors ∧ t.pending = s.pending := by
  unfold execInterlude; exact keep_regWriteTo _ _ _ _ _ _ _ _ (fun _ _ _ => by simp)

/-! ### Checkpoint -/

@[simp] theorem keep_setSlotStatus (s : State) (k v : Nat) : (setSlotStatus s k v).sec.floors = s.sec.floors ∧ (setSlotStatus s k v).pending = s.pending := by
  unfold setSlotStatus; split <;> simp

@[simp] theorem keep_ckpPhase (s : State) (p : Nat) : (ckpPhase s p).sec.floors = s.sec.floors ∧ (ckpPhase s p).pending = s.pending := by
  unfold ckpPhase; simp

@[simp] theorem keep_ckpHold (s : State) (on : Bool) : (ckpHold s on).sec.floors = s.sec.floors ∧ (ckpHold s on).pending = s.pending := by
  unfold ckpHold; simp

@[simp] theorem keep_ckpIdle (s : State) : (ckpIdle s).sec.floors = s.sec.floors ∧ (ckpIdle s).pending = s.pending := by
  unfold ckpIdle; simp

@[simp] theorem keep_ckpRefuse (s : State) (reason : Nat) : (ckpRefuse s reason).sec.floors = s.sec.floors ∧ (ckpRefuse s reason).pending = s.pending := by
  unfold ckpRefuse; simp

@[simp] theorem keep_ckpAbort (s : State) (reason : Nat) : (ckpAbort s reason).sec.floors = s.sec.floors ∧ (ckpAbort s reason).pending = s.pending := by
  unfold ckpAbort; dsimp only; (repeat' split) <;> simp

@[simp] theorem keep_moduleError (s : State) (status : Nat) : (moduleError s status).sec.floors = s.sec.floors ∧ (moduleError s status).pending = s.pending := by
  unfold moduleError; split <;> simp

@[simp] theorem keep_nvmeIssue (s : State) (kind : Nat) (fua : Bool) (lba : Nat) (sram : Bool) (addr len : Nat) : (nvmeIssue s kind fua lba sram addr len).sec.floors = s.sec.floors ∧ (nvmeIssue s kind fua lba sram addr len).pending = s.pending := by
  unfold nvmeIssue; simp

@[simp] theorem keep_nvmeWriteSram (s : State) (fua : Bool) (lba : Nat) (d : List Byte) : (nvmeWriteSram s fua lba d).sec.floors = s.sec.floors ∧ (nvmeWriteSram s fua lba d).pending = s.pending := by
  unfold nvmeWriteSram; simp

@[simp] theorem keep_nvmeReadSram (s : State) (lba n : Nat) : (nvmeReadSram s lba n).sec.floors = s.sec.floors ∧ (nvmeReadSram s lba n).pending = s.pending := by
  unfold nvmeReadSram; simp

@[simp] theorem keep_ckpPop (s : State) : (ckpPop s).sec.floors = s.sec.floors ∧ (ckpPop s).pending = s.pending := by
  unfold ckpPop; simp

@[simp] theorem keep_ckpPush (s : State) (l : List CkpAct) : (ckpPush s l).sec.floors = s.sec.floors ∧ (ckpPush s l).pending = s.pending := by
  unfold ckpPush; simp

@[simp] theorem keep_captureStart (s : State) : (captureStart s).sec.floors = s.sec.floors ∧ (captureStart s).pending = s.pending := by
  unfold captureStart; simp

@[simp] theorem keep_captureEnd (s : State) : (captureEnd s).sec.floors = s.sec.floors ∧ (captureEnd s).pending = s.pending := by
  unfold captureEnd; simp

@[simp] theorem keep_writeReport (s : State) : (writeReport s).sec.floors = s.sec.floors ∧ (writeReport s).pending = s.pending := by
  unfold writeReport; simp

@[simp] theorem keep_adoptStep (s : State) (epoch step gen : Nat) : (adoptStep s epoch step gen).sec.floors = s.sec.floors ∧ (adoptStep s epoch step gen).pending = s.pending := by
  unfold adoptStep; simp

@[simp] theorem keep_ckpDone (s : State) : (ckpDone s).sec.floors = s.sec.floors ∧ (ckpDone s).pending = s.pending := by
  unfold ckpDone; simp

@[simp] theorem keep_ckpAct (s : State) (a : CkpAct) : (ckpAct s a).1.sec.floors = s.sec.floors ∧ (ckpAct s a).1.pending = s.pending := by
  unfold ckpAct; grind [keep_wf, keep_bumpIf, keep_ev, keep_hubRead, keep_setSlotStatus, keep_ckpPhase, keep_ckpIdle, keep_ckpRefuse, keep_ckpAbort, keep_nvmeIssue, keep_nvmeWriteSram, keep_nvmeReadSram, keep_ckpPop, keep_ckpPush, keep_captureStart, keep_captureEnd, keep_writeReport, keep_adoptStep, keep_ckpDone]

@[simp] theorem keep_ckpRun (n : Nat) (s : State) : (ckpRun n s).sec.floors = s.sec.floors ∧ (ckpRun n s).pending = s.pending := by
  induction n generalizing s with
  | zero => exact ⟨rfl, rfl⟩
  | succ n ih => unfold ckpRun; grind [keep_ckpAct]

@[simp] theorem keep_ckpGoOn (s : State) : (ckpGoOn s).sec.floors = s.sec.floors ∧ (ckpGoOn s).pending = s.pending := by
  unfold ckpGoOn; simp

@[simp] theorem keep_ckpBegin (s : State) (blk : List Byte) (op : Nat) (script : List CkpAct) : (ckpBegin s blk op script).sec.floors = s.sec.floors ∧ (ckpBegin s blk op script).pending = s.pending := by
  unfold ckpBegin; simp

@[simp] theorem keep_ckpSavePlan (r : State × List Byte) (blk : List Byte) : (ckpSavePlan r blk).sec.floors = r.1.sec.floors ∧ (ckpSavePlan r blk).pending = r.1.pending := by
  unfold ckpSavePlan; dsimp only; (repeat' split) <;> simp

@[simp] theorem keep_ckpSave (s : State) (blk : List Byte) (a : Nat) : (ckpSave s blk a).sec.floors = s.sec.floors ∧ (ckpSave s blk a).pending = s.pending := by
  unfold ckpSave; (repeat' split) <;> simp

@[simp] theorem keep_ckpMove (s : State) (blk : List Byte) (op : Nat) : (ckpMove s blk op).sec.floors = s.sec.floors ∧ (ckpMove s blk op).pending = s.pending := by
  unfold ckpMove; dsimp only; (repeat' split) <;> simp

@[simp] theorem keep_ckpGoBlock (r : State × List Byte) : (ckpGoBlock r).sec.floors = r.1.sec.floors ∧ (ckpGoBlock r).pending = r.1.pending := by
  unfold ckpGoBlock; dsimp only; (repeat' split) <;> simp

@[simp] theorem keep_ckpGo (s : State) : (ckpGo s).sec.floors = s.sec.floors ∧ (ckpGo s).pending = s.pending := by
  unfold ckpGo; dsimp only; (repeat' split) <;> simp

@[simp] theorem keep_moduleResetEffect (s : State) : (moduleResetEffect s).sec.floors = s.sec.floors ∧ (moduleResetEffect s).pending = s.pending := by
  unfold moduleResetEffect; simp

@[simp] theorem keep_ckpCmdEffect (pulse : Word) (s : State) : (ckpCmdEffect pulse s).sec.floors = s.sec.floors ∧ (ckpCmdEffect pulse s).pending = s.pending := by
  unfold ckpCmdEffect; (repeat' split) <;> simp

theorem keep_ckpRow (req : Requester) (op : Nat) (s : State) : ∀ t, ckpRow req op s = .next t → t.sec.floors = s.sec.floors ∧ t.pending = s.pending := by
  unfold ckpRow; intro t h; split at h
  · exact keep_regCmd _ _ _ _ _ _ _ (fun _ _ _ => keep_ckpCmdEffect _ _) t h
  · injection h with h; subst h; exact ⟨rfl, rfl⟩

theorem keep_execSave (req : Requester) (s : State) : ∀ t, execSave req s = .next t → t.sec.floors = s.sec.floors ∧ t.pending = s.pending := by
  unfold execSave; grind [keep_ckpRow]

theorem keep_execRestore (req : Requester) (s : State) : ∀ t, execRestore req s = .next t → t.sec.floors = s.sec.floors ∧ t.pending = s.pending := by
  unfold execRestore; grind [keep_ckpRow]

theorem keep_execAdopt (req : Requester) (s : State) : ∀ t, execAdopt req s = .next t → t.sec.floors = s.sec.floors ∧ t.pending = s.pending := by
  unfold execAdopt; grind [keep_ckpRow]

theorem keep_execQuery (req : Requester) (s : State) : ∀ t, execQuery req s = .next t → t.sec.floors = s.sec.floors ∧ t.pending = s.pending := by
  unfold execQuery; grind [keep_ckpRow]

theorem keep_execCkpExport (req : Requester) (s : State) : ∀ t, execCkpExport req s = .next t → t.sec.floors = s.sec.floors ∧ t.pending = s.pending := by
  unfold execCkpExport; grind [keep_ckpRow]

theorem keep_execCkpImport (req : Requester) (s : State) : ∀ t, execCkpImport req s = .next t → t.sec.floors = s.sec.floors ∧ t.pending = s.pending := by
  unfold execCkpImport; grind [keep_ckpRow]

theorem keep_execImportCommit (req : Requester) (s : State) : ∀ t, execImportCommit req s = .next t → t.sec.floors = s.sec.floors ∧ t.pending = s.pending := by
  unfold execImportCommit; grind [keep_ckpRow]

theorem keep_execFormat (req : Requester) (s : State) : ∀ t, execFormat req s = .next t → t.sec.floors = s.sec.floors ∧ t.pending = s.pending := by
  unfold execFormat; grind [keep_ckpRow]

theorem keep_execCkpAbort (req : Requester) (s : State) : ∀ t, execCkpAbort req s = .next t → t.sec.floors = s.sec.floors ∧ t.pending = s.pending := by
  unfold execCkpAbort; exact keep_regCmd _ _ _ _ _ _ _ (fun _ _ _ => by simp)

theorem keep_execModuleReset (req : Requester) (s : State) : ∀ t, execModuleReset req s = .next t → t.sec.floors = s.sec.floors ∧ t.pending = s.pending := by
  unfold execModuleReset; exact keep_regCmd _ _ _ _ _ _ _ (fun _ _ _ => by simp)

@[simp] theorem keep_copyExtent (s : State) (i : Nat) : (copyExtent s i).sec.floors = s.sec.floors ∧ (copyExtent s i).pending = s.pending := by
  unfold copyExtent; simp

theorem keep_execCaptureEnd (s : State) : ∀ t, execCaptureEnd s = .next t → t.sec.floors = s.sec.floors ∧ t.pending = s.pending := by
  unfold execCaptureEnd; intro t h
  split at h
  · injection h with h; subst h; simp
  · split at h
    · have k := keep_foldl copyExtent (fun s i => keep_copyExtent s i) (List.range s.ckp.exts.length) s
      dsimp only at h
      generalize List.foldl copyExtent s (List.range s.ckp.exts.length) = u at h k
      split at h <;> (injection h with h; subst h; simp [k])
    · split at h <;> (injection h with h; subst h; simp)

@[simp] theorem keep_nvmeLand (s : State) (c : NvmeCmd) (data : List Byte) : (nvmeLand s c data).sec.floors = s.sec.floors ∧ (nvmeLand s c data).pending = s.pending := by
  unfold nvmeLand; dsimp only; (repeat' split) <;> simp

@[simp] theorem keep_nvmeFollow (s : State) (a : CkpAct) (got : List Byte) : (nvmeFollow s a got).sec.floors = s.sec.floors ∧ (nvmeFollow s a got).pending = s.pending := by
  unfold nvmeFollow; (repeat' split) <;> simp

@[simp] theorem keep_nvmeDone (s : State) (c : NvmeCmd) (data : List Byte) : (nvmeDone s c data).sec.floors = s.sec.floors ∧ (nvmeDone s c data).pending = s.pending := by
  unfold nvmeDone; dsimp only; (repeat' split) <;> simp

theorem keep_execNvmeCompletion (id status : Nat) (data : List Byte) (s : State) : ∀ t, execNvmeCompletion id status data s = .next t → t.sec.floors = s.sec.floors ∧ t.pending = s.pending := by
  unfold execNvmeCompletion; grind [keep_moduleError, keep_nvmeDone]

theorem keep_execNvmeTimeout (id : Nat) (s : State) : ∀ t, execNvmeTimeout id s = .next t → t.sec.floors = s.sec.floors ∧ t.pending = s.pending := by
  unfold execNvmeTimeout; grind [keep_moduleError]

theorem keep_execStagingLinkDown (s : State) : ∀ t, execStagingLinkDown s = .next t → t.sec.floors = s.sec.floors ∧ t.pending = s.pending := by
  unfold execStagingLinkDown; grind [keep_wf, keep_ckpAbort]

theorem keep_execStagingLinkTrainEnd (facts : ModuleFacts) (s : State) : ∀ t, execStagingLinkTrainEnd facts s = .next t → t.sec.floors = s.sec.floors ∧ t.pending = s.pending := by
  unfold execStagingLinkTrainEnd; grind [keep_wf, keep_ev, keep_retestEnd]

theorem keep_execStagingInbound (write : Bool) (addr : Nat) (len : Nat) (data : List Byte) (s : State) : ∀ t, execStagingInbound write addr len data s = .next t → t.sec.floors = s.sec.floors ∧ t.pending = s.pending := by
  unfold execStagingInbound; grind [keep_freshBytes, keep_hubRead, keep_hubWrite, keep_ckpAbort, keep_moduleError]

theorem keep_execAutoSaveStart (s : State) : ∀ t, execAutoSaveStart s = .next t → t.sec.floors = s.sec.floors ∧ t.pending = s.pending := by
  unfold execAutoSaveStart; grind [keep_wf, keep_ckpRefuse, keep_ckpSave]

@[simp] theorem keep_captureAtClose (s : State) : (captureAtClose s).sec.floors = s.sec.floors ∧ (captureAtClose s).pending = s.pending := by
  unfold captureAtClose; split <;> simp

/-! ### StepReplay -/

@[simp] theorem keep_srRefuse (s : State) (reason : Nat) : (srRefuse s reason).sec.floors = s.sec.floors ∧ (srRefuse s reason).pending = s.pending := by
  unfold srRefuse; simp

@[simp] theorem keep_srAccept (r : State × List Byte) : (srAccept r).sec.floors = r.1.sec.floors ∧ (srAccept r).pending = r.1.pending := by
  unfold srAccept; dsimp only; (repeat' split) <;> simp

@[simp] theorem keep_srOpen (s : State) : (srOpen s).sec.floors = s.sec.floors ∧ (srOpen s).pending = s.pending := by
  unfold srOpen; dsimp only; (repeat' split) <;> simp

theorem keep_execPannierCopyDone (s : State) : ∀ t, execPannierCopyDone s = .next t → t.sec.floors = s.sec.floors ∧ t.pending = s.pending := by
  unfold execPannierCopyDone; grind [keep_pannierCopied]

@[simp] theorem keep_sendLine (s : State) (peer k : Nat) (line : List Byte) : (sendLine s peer k line).sec.floors = s.sec.floors ∧ (sendLine s peer k line).pending = s.pending := by
  unfold sendLine; split <;> simp

@[simp] theorem keep_applyResult (s : State) (commit : Bool) (causes : Nat) (first : Option Nat) : (applyResult s commit causes first).sec.floors = s.sec.floors ∧ (applyResult s commit causes first).pending = s.pending := by
  unfold applyResult; (repeat' split) <;> simp

@[simp] theorem keep_rootResult (s : State) (l : List Byte) : (rootResult s l).sec.floors = s.sec.floors ∧ (rootResult s l).pending = s.pending := by
  unfold rootResult; simp

@[simp] theorem keep_voteRun (n : Nat) (s : State) : (voteRun n s).sec.floors = s.sec.floors ∧ (voteRun n s).pending = s.pending := by
  induction n generalizing s with
  | zero => simp [voteRun]
  | succ n ih => unfold voteRun; (repeat' (first | split | dsimp only)) <;> simp [ih]

@[simp] theorem keep_voteGo (s : State) : (voteGo s).sec.floors = s.sec.floors ∧ (voteGo s).pending = s.pending := by
  unfold voteGo; simp

@[simp] theorem keep_takeReport (s : State) (t : Step) : (takeReport s t).sec.floors = s.sec.floors ∧ (takeReport s t).pending = s.pending := by
  unfold takeReport; split <;> simp

@[simp] theorem keep_sealReports (s : State) : (sealReports s).sec.floors = s.sec.floors ∧ (sealReports s).pending = s.pending := by
  unfold sealReports; split <;> simp

@[simp] theorem keep_lineArrive (s : State) (k : Nat) (l : List Byte) : (lineArrive s k l).sec.floors = s.sec.floors ∧ (lineArrive s k l).pending = s.pending := by
  unfold lineArrive; simp

@[simp] theorem keep_resultArrive (s : State) (l : List Byte) : (resultArrive s l).sec.floors = s.sec.floors ∧ (resultArrive s l).pending = s.pending := by
  unfold resultArrive; dsimp only; (repeat' split) <;> simp

@[simp] theorem keep_voteArrive (s : State) (k : Nat) (l : List Byte) : (voteArrive s k l).sec.floors = s.sec.floors ∧ (voteArrive s k l).pending = s.pending := by
  unfold voteArrive; (repeat' split) <;> simp

theorem keep_execVoteLine (level : Nat) (line : List Byte) (s : State) : ∀ t, execVoteLine level line s = .next t → t.sec.floors = s.sec.floors ∧ t.pending = s.pending := by
  unfold execVoteLine; grind [keep_hubWrite, keep_lineArrive]

theorem keep_execVoteResult (line : List Byte) (s : State) : ∀ t, execVoteResult line s = .next t → t.sec.floors = s.sec.floors ∧ t.pending = s.pending := by
  unfold execVoteResult; grind [keep_hubWrite, keep_resultArrive]

theorem keep_execVoteTimeout (s : State) : ∀ t, execVoteTimeout s = .next t → t.sec.floors = s.sec.floors ∧ t.pending = s.pending := by
  unfold execVoteTimeout; grind [keep_ev]

@[simp] theorem keep_slotCheck (s : State) (t : Step) : (slotCheck s t).1.sec.floors = s.sec.floors ∧ (slotCheck s t).1.pending = s.pending := by
  unfold slotCheck; simp

@[simp] theorem keep_stampStream (s : State) (t : Step) : (stampStream s t).1.sec.floors = s.sec.floors ∧ (stampStream s t).1.pending = s.pending := by
  unfold stampStream; simp

@[simp] theorem keep_putCheck (c : State × List Byte) (t : Step) : (putCheck c t).sec.floors = c.1.sec.floors ∧ (putCheck c t).pending = c.1.pending := by
  unfold putCheck; simp

@[simp] theorem keep_sealStep (r : State × Bool) (t : Step) : (sealStep r t).sec.floors = r.1.sec.floors ∧ (sealStep r t).pending = r.1.pending := by
  unfold sealStep; dsimp only; (repeat' split) <;> simp

@[simp] theorem keep_srSeal (s : State) : (srSeal s).sec.floors = s.sec.floors ∧ (srSeal s).pending = s.pending := by
  unfold srSeal; (repeat' (first | split | dsimp only)) <;> simp

@[simp] theorem keep_srResolve (s : State) (commit : Bool) : (srResolve s commit).sec.floors = s.sec.floors ∧ (srResolve s commit).pending = s.pending := by
  unfold srResolve; split <;> simp

@[simp] theorem keep_srClose (s : State) : (srClose s).sec.floors = s.sec.floors ∧ (srClose s).pending = s.pending := by
  unfold srClose; (repeat' split) <;> simp

@[simp] theorem keep_inputsBack (s : State) (t : Step) : (inputsBack s t).sec.floors = s.sec.floors ∧ (inputsBack s t).pending = s.pending := by
  unfold inputsBack; apply keep_foldl; intro s a; simp only [keep_iff]; (repeat' split) <;> simp

@[simp] theorem keep_replayOpen (r : State × List Byte) (t : Step) : (replayOpen r t).sec.floors = r.1.sec.floors ∧ (replayOpen r t).pending = r.1.pending := by
  unfold replayOpen; simp

@[simp] theorem keep_replayLoad (s : State) (t : Step) : (replayLoad s t).sec.floors = s.sec.floors ∧ (replayLoad s t).pending = s.pending := by
  unfold replayLoad; simp

@[simp] theorem keep_replayWith (c r : State × List Byte) (t : Step) : (replayWith c r t).sec.floors = r.1.sec.floors ∧ (replayWith c r t).pending = r.1.pending := by
  unfold replayWith; split <;> simp

@[simp] theorem keep_replayCheck (c : State × List Byte) (t : Step) : (replayCheck c t).sec.floors = c.1.sec.floors ∧ (replayCheck c t).pending = c.1.pending := by
  unfold replayCheck; simp

@[simp] theorem keep_srReplay (s : State) : (srReplay s).sec.floors = s.sec.floors ∧ (srReplay s).pending = s.pending := by
  unfold srReplay; (repeat' split) <;> simp

@[simp] theorem keep_extentBytes (s : State) (list : List Byte) (first n : Nat) : (extentBytes s list first n).1.sec.floors = s.sec.floors ∧ (extentBytes s list first n).1.pending = s.pending := by
  unfold extentBytes; simp

@[simp] theorem keep_formDigest (r : State × List Byte) (plan : List Byte) (step gen : Nat) : (formDigest r plan step gen).sec.floors = r.1.sec.floors ∧ (formDigest r plan step gen).pending = r.1.pending := by
  unfold formDigest; simp

theorem keep_execDigDone (s : State) : ∀ t, execDigDone s = .next t → t.sec.floors = s.sec.floors ∧ t.pending = s.pending := by
  unfold execDigDone; intro t h; split at h <;> (injection h with h; subst h; simp)

@[simp] theorem keep_compareBox (r : State × List Byte) (own : List Byte) (n : Nat) : (compareBox r own n).sec.floors = r.1.sec.floors ∧ (compareBox r own n).pending = r.1.pending := by
  unfold compareBox; dsimp only; split <;> simp

@[simp] theorem keep_srDigCompare (s : State) : (srDigCompare s).sec.floors = s.sec.floors ∧ (srDigCompare s).pending = s.pending := by
  unfold srDigCompare; dsimp only; (repeat' split) <;> simp

@[simp] theorem keep_srCommand (s : State) (b : Nat) : (srCommand s b).sec.floors = s.sec.floors ∧ (srCommand s b).pending = s.pending := by
  unfold srCommand; split <;> simp

@[simp] theorem keep_srCmdEffect (pulse : Word) (s : State) : (srCmdEffect pulse s).sec.floors = s.sec.floors ∧ (srCmdEffect pulse s).pending = s.pending := by
  unfold srCmdEffect; apply keep_foldl; intro s a; simp only [keep_iff]; (repeat' split) <;> simp

theorem keep_execStepOpen (req : Requester) (s : State) : ∀ t, execStepOpen req s = .next t → t.sec.floors = s.sec.floors ∧ t.pending = s.pending := by
  unfold execStepOpen; exact keep_regCmd _ _ _ _ _ _ _ (fun _ _ _ => by simp)

theorem keep_execSeal (req : Requester) (s : State) : ∀ t, execSeal req s = .next t → t.sec.floors = s.sec.floors ∧ t.pending = s.pending := by
  unfold execSeal; exact keep_regCmd _ _ _ _ _ _ _ (fun _ _ _ => by simp)

theorem keep_execClose (req : Requester) (s : State) : ∀ t, execClose req s = .next t → t.sec.floors = s.sec.floors ∧ t.pending = s.pending := by
  unfold execClose; exact keep_regCmd _ _ _ _ _ _ _ (fun _ _ _ => by simp)

theorem keep_execReplay (req : Requester) (s : State) : ∀ t, execReplay req s = .next t → t.sec.floors = s.sec.floors ∧ t.pending = s.pending := by
  unfold execReplay; exact keep_regCmd _ _ _ _ _ _ _ (fun _ _ _ => by simp)

theorem keep_execResolveCommit (req : Requester) (s : State) : ∀ t, execResolveCommit req s = .next t → t.sec.floors = s.sec.floors ∧ t.pending = s.pending := by
  unfold execResolveCommit; exact keep_regCmd _ _ _ _ _ _ _ (fun _ _ _ => by simp)

theorem keep_execResolveFail (req : Requester) (s : State) : ∀ t, execResolveFail req s = .next t → t.sec.floors = s.sec.floors ∧ t.pending = s.pending := by
  unfold execResolveFail; exact keep_regCmd _ _ _ _ _ _ _ (fun _ _ _ => by simp)

theorem keep_execDigCompare (req : Requester) (s : State) : ∀ t, execDigCompare req s = .next t → t.sec.floors = s.sec.floors ∧ t.pending = s.pending := by
  unfold execDigCompare; exact keep_regCmd _ _ _ _ _ _ _ (fun _ _ _ => by simp)

end Sys2Proof.Laws
end

