-- ==== Sys2Proof/Laws/KeepSystem.lean ====
section
/-! SUPPORT. What no operation changes: the fuses and counters that only rise, and the queue of commands; time, routing, roles, memory control, the Waybill, grants and fault history. One lemma for each
operation that takes a state to a state. -/

namespace Sys2Proof.Laws

open Sys2Proof.Machine

set_option maxRecDepth 4000

/-! ### TimeLedger -/

@[simp] theorem keep_traceWrite (s : State) (r : List Byte) : (traceWrite s r).sec.floors = s.sec.floors ∧ (traceWrite s r).pending = s.pending := by
  show Keep _ _; unfold traceWrite; dsimp only; split <;> simp

@[simp] theorem keep_traceFlush (s : State) : (traceFlush s).sec.floors = s.sec.floors ∧ (traceFlush s).pending = s.pending := by
  show Keep _ _; unfold traceFlush; (repeat' (first | split | dsimp only)) <;> simp

@[simp] theorem keep_ledgerPut (s : State) (r : LedgerRec) : (ledgerPut s r).sec.floors = s.sec.floors ∧ (ledgerPut s r).pending = s.pending := by
  show Keep _ _; unfold ledgerPut; dsimp only; split <;> simp

@[simp] theorem keep_tickEnd (s : State) : (tickEnd s).sec.floors = s.sec.floors ∧ (tickEnd s).pending = s.pending := by
  show Keep _ _; unfold tickEnd; (repeat' (first | split | dsimp only)) <;> simp

theorem keep_execLedgerTick (s : State) : ∀ t, execLedgerTick s = .next t → t.sec.floors = s.sec.floors ∧ t.pending = s.pending := by
  unfold execLedgerTick; intro t h; (repeat' (first | split at h | dsimp only at h)) <;> (injection h with h; subst h; show Keep _ _; simp)

@[simp] theorem keep_stepTime (s : State) (now acc : Nat) : (stepTime s now acc).sec.floors = s.sec.floors ∧ (stepTime s now acc).pending = s.pending := by
  show Keep _ _; unfold stepTime; (repeat' (first | split | dsimp only)) <;> simp

@[simp] theorem keep_timeSetEffect (s : State) : (timeSetEffect s).sec.floors = s.sec.floors ∧ (timeSetEffect s).pending = s.pending := by
  show Keep _ _; unfold timeSetEffect; (repeat' (first | split | dsimp only)) <;> simp

theorem keep_execTimeSet (req : Requester) (value : Word) (s : State) : ∀ t, execTimeSet req value s = .next t → t.sec.floors = s.sec.floors ∧ t.pending = s.pending := by
  unfold execTimeSet; intro t h; have := keep_regCmd _ _ _ _ _ _ _ (fun _ _ _ => by simp) t h; simpa using this

@[simp] theorem keep_roundFree (s : State) (num : Int) (den : Nat) : (roundFree s num den).1.sec.floors = s.sec.floors ∧ (roundFree s num den).1.pending = s.pending := by
  show Keep _ _; unfold roundFree; dsimp only; split <;> simp

@[simp] theorem keep_setAdj (s : State) (r : Frac) : (setAdj s r).sec.floors = s.sec.floors ∧ (setAdj s r).pending = s.pending := by
  show Keep _ _; unfold setAdj; grind [keep_wf, keep_roundFree, keep_iff]

@[simp] theorem keep_applyOffset (s : State) (o2 : Int) : (applyOffset s o2).sec.floors = s.sec.floors ∧ (applyOffset s o2).pending = s.pending := by
  show Keep _ _; unfold applyOffset; (repeat' (first | split | dsimp only)) <;> simp

@[simp] theorem keep_countExchange (s : State) (o2 : Int) : (countExchange s o2).sec.floors = s.sec.floors ∧ (countExchange s o2).pending = s.pending := by
  show Keep _ _; unfold countExchange; (repeat' (first | split | dsimp only)) <;> simp

@[simp] theorem keep_sendTime (s : State) (n dest : Nat) (payload : List Byte) : (sendTime s n dest payload).sec.floors = s.sec.floors ∧ (sendTime s n dest payload).pending = s.pending := by
  show Keep _ _; unfold sendTime; dsimp only; split <;> simp

theorem keep_execTimeExchange (s : State) : ∀ t, execTimeExchange s = .next t → t.sec.floors = s.sec.floors ∧ t.pending = s.pending := by
  unfold execTimeExchange; intro t h; (repeat' (first | split at h | dsimp only at h)) <;> (injection h with h; subst h; show Keep _ _; simp)

@[simp] theorem keep_timeRequestArrive (s : State) (p : Packet) : (timeRequestArrive s p).sec.floors = s.sec.floors ∧ (timeRequestArrive s p).pending = s.pending := by
  show Keep _ _; unfold timeRequestArrive; (repeat' (first | split | dsimp only)) <;> simp

@[simp] theorem keep_timeResponseArrive (s : State) (p : Packet) : (timeResponseArrive s p).sec.floors = s.sec.floors ∧ (timeResponseArrive s p).pending = s.pending := by
  show Keep _ _; unfold timeResponseArrive; dsimp only; split <;> simp

@[simp] theorem keep_timeArrive (s : State) (p : Packet) : (timeArrive s p).sec.floors = s.sec.floors ∧ (timeArrive s p).pending = s.pending := by
  show Keep _ _; unfold timeArrive; (repeat' (first | split | dsimp only)) <;> simp

theorem keep_execTimeRequest (p : Packet) (s : State) : ∀ t, execTimeRequest p s = .next t → t.sec.floors = s.sec.floors ∧ t.pending = s.pending := by
  unfold execTimeRequest; intro t h; (repeat' (first | split at h | dsimp only at h)) <;> (injection h with h; subst h; show Keep _ _; simp)

theorem keep_execTimeResponse (p : Packet) (s : State) : ∀ t, execTimeResponse p s = .next t → t.sec.floors = s.sec.floors ∧ t.pending = s.pending := by
  unfold execTimeResponse; intro t h; (repeat' (first | split at h | dsimp only at h)) <;> (injection h with h; subst h; show Keep _ _; simp)

theorem keep_execNoResp (s : State) : ∀ t, execNoResp s = .next t → t.sec.floors = s.sec.floors ∧ t.pending = s.pending := by
  unfold execNoResp; intro t h; (repeat' (first | split at h | dsimp only at h)) <;> (injection h with h; subst h; show Keep _ _; simp)

@[simp] theorem keep_timeRoleLive (s : State) : (timeRoleLive s).sec.floors = s.sec.floors ∧ (timeRoleLive s).pending = s.pending := by
  show Keep _ _; unfold timeRoleLive; dsimp only; split <;> simp

@[simp] theorem keep_copyShadows (s : State) (skip : Nat) : (copyShadows s skip).sec.floors = s.sec.floors ∧ (copyShadows s skip).pending = s.pending := by
  show Keep _ _; unfold copyShadows; (repeat' (first | split | dsimp only)) <;> simp

theorem keep_execSnapshotTaken (s : State) : ∀ t, execSnapshotTaken s = .next t → t.sec.floors = s.sec.floors ∧ t.pending = s.pending := by
  unfold execSnapshotTaken; intro t h; (repeat' (first | split at h | dsimp only at h)) <;> (injection h with h; subst h; show Keep _ _; simp)

@[simp] theorem keep_snapForward (s : State) (target : Nat) (from_ : Option Nat) : (snapForward s target from_).sec.floors = s.sec.floors ∧ (snapForward s target from_).pending = s.pending := by
  unfold snapForward; grind [keep_inject, keep_foldl, keep_iff]

@[simp] theorem keep_snapArmEffect (s : State) : (snapArmEffect s).sec.floors = s.sec.floors ∧ (snapArmEffect s).pending = s.pending := by
  show Keep _ _; unfold snapArmEffect; (repeat' (first | split | dsimp only)) <;> simp

@[simp] theorem keep_ledgerAckEffect (s : State) : (ledgerAckEffect s).sec.floors = s.sec.floors ∧ (ledgerAckEffect s).pending = s.pending := by
  show Keep _ _; unfold ledgerAckEffect; dsimp only; split <;> simp

@[simp] theorem keep_ledgerCmdEffect (pulse : Word) (s : State) : (ledgerCmdEffect pulse s).sec.floors = s.sec.floors ∧ (ledgerCmdEffect pulse s).pending = s.pending := by
  show Keep _ _; unfold ledgerCmdEffect; (repeat' (first | split | dsimp only)) <;> simp

theorem keep_execSnapArm (req : Requester) (s : State) : ∀ t, execSnapArm req s = .next t → t.sec.floors = s.sec.floors ∧ t.pending = s.pending := by
  unfold execSnapArm; exact keep_regWriteTo _ _ _ _ _ _ _ _ (fun _ _ _ => by simp)

theorem keep_execLedgerAck (req : Requester) (s : State) : ∀ t, execLedgerAck req s = .next t → t.sec.floors = s.sec.floors ∧ t.pending = s.pending := by
  unfold execLedgerAck; exact keep_regWriteTo _ _ _ _ _ _ _ _ (fun _ _ _ => by simp)

theorem keep_execSnapBcastReceive (p : Packet) (s : State) : ∀ t, execSnapBcastReceive p s = .next t → t.sec.floors = s.sec.floors ∧ t.pending = s.pending := by
  unfold execSnapBcastReceive; intro t h; (repeat' (first | split at h | dsimp only at h)) <;> (injection h with h; subst h; show Keep _ _; simp)

/-! ### Routing -/

@[simp] theorem keep_sendAck (s : State) (p : Packet) (refused : Bool) : (sendAck s p refused).sec.floors = s.sec.floors ∧ (sendAck s p refused).pending = s.pending := by
  show Keep _ _; unfold sendAck; (repeat' (first | split | dsimp only)) <;> simp

@[simp] theorem keep_ackArrive (s : State) (p : Packet) : (ackArrive s p).sec.floors = s.sec.floors ∧ (ackArrive s p).pending = s.pending := by
  show Keep _ _; unfold ackArrive; (repeat' (first | split | dsimp only)) <;> simp

@[simp] theorem keep_deliverWrite (s : State) (p : Packet) : (deliverWrite s p).sec.floors = s.sec.floors ∧ (deliverWrite s p).pending = s.pending := by
  show Keep _ _; unfold deliverWrite; dsimp only; split <;> simp

@[simp] theorem keep_deliverContrib (s : State) (p : Packet) : (deliverContrib s p).sec.floors = s.sec.floors ∧ (deliverContrib s p).pending = s.pending := by
  unfold deliverContrib; simp

@[simp] theorem keep_deliverSignal (s : State) (p : Packet) : (deliverSignal s p).sec.floors = s.sec.floors ∧ (deliverSignal s p).pending = s.pending := by
  show Keep _ _; unfold deliverSignal; dsimp only; split <;> simp

@[simp] theorem keep_deliver (s : State) (p : Packet) : (deliver s p).sec.floors = s.sec.floors ∧ (deliver s p).pending = s.pending := by
  show Keep _ _; unfold deliver; dsimp only; split <;> simp

@[simp] theorem keep_dropPacket (s : State) (input cause : Nat) (p : Packet) : (dropPacket s input cause p).sec.floors = s.sec.floors ∧ (dropPacket s input cause p).pending = s.pending := by
  show Keep _ _; unfold dropPacket; (repeat' (first | split | dsimp only)) <;> simp

@[simp] theorem keep_forward (s : State) (n vc : Nat) (p : Packet) : (forward s n vc p).sec.floors = s.sec.floors ∧ (forward s n vc p).pending = s.pending := by
  show Keep _ _; unfold forward; (repeat' (first | split | dsimp only)) <;> simp

@[simp] theorem keep_routeDo (s : State) (input : Nat) (r : Route) (p : Packet) : (routeDo s input r p).sec.floors = s.sec.floors ∧ (routeDo s input r p).pending = s.pending := by
  show Keep _ _; unfold routeDo; (repeat' (first | split | dsimp only)) <;> simp

@[simp] theorem keep_takeInput (s : State) (input i : Nat) : (takeInput s input i).sec.floors = s.sec.floors ∧ (takeInput s input i).pending = s.pending := by
  show Keep _ _; unfold takeInput; (repeat' (first | split | dsimp only)) <;> simp

theorem keep_execPacketRoute (input : Nat) (s : State) : ∀ t, execPacketRoute input s = .next t → t.sec.floors = s.sec.floors ∧ t.pending = s.pending := by
  unfold execPacketRoute; intro t h; (repeat' (first | split at h | dsimp only at h)) <;> (injection h with h; subst h; show Keep _ _; simp)

theorem keep_execAckReceive (p : Packet) (s : State) : ∀ t, execAckReceive p s = .next t → t.sec.floors = s.sec.floors ∧ t.pending = s.pending := by
  unfold execAckReceive; intro t h; (repeat' (first | split at h | dsimp only at h)) <;> (injection h with h; subst h; show Keep _ _; simp)

@[simp] theorem keep_settingsPut (s : State) (key : Nat) (data : List Byte) : (settingsPut s key data).sec.floors = s.sec.floors ∧ (settingsPut s key data).pending = s.pending := by
  show Keep _ _; unfold settingsPut; (repeat' (first | split | dsimp only)) <;> simp

@[simp] theorem keep_planApply (s : State) (code : Nat) (r : List Byte) : (planApply s code r).sec.floors = s.sec.floors ∧ (planApply s code r).pending = s.pending := by
  show Keep _ _; unfold planApply; dsimp only; split <;> simp

theorem keep_execRoutePlan (plan : List Byte) (s : State) : ∀ t, execRoutePlan plan s = .next t → t.sec.floors = s.sec.floors ∧ t.pending = s.pending := by
  unfold execRoutePlan; intro t h; (repeat' (first | split at h | dsimp only at h)) <;> (injection h with h; subst h; show Keep _ _; simp)

/-! ### Roles -/

@[simp] theorem keep_runtimeFence (s : State) (g : Nat) : (runtimeFence s g).sec.floors = s.sec.floors ∧ (runtimeFence s g).pending = s.pending := by
  show Keep _ _; unfold runtimeFence; dsimp only; split <;> simp

@[simp] theorem keep_remountEffect (s : State) (g : Nat) : (remountEffect s g).sec.floors = s.sec.floors ∧ (remountEffect s g).pending = s.pending := by
  show Keep _ _; unfold remountEffect; (repeat' (first | split | dsimp only)) <;> simp

@[simp] theorem keep_coreCtrlEffect (g : Nat) (v : Word) (s : State) : (coreCtrlEffect g v s).sec.floors = s.sec.floors ∧ (coreCtrlEffect g v s).pending = s.pending := by
  show Keep _ _; unfold coreCtrlEffect; (repeat' (first | split | dsimp only)) <;> simp

theorem keep_execFence (req : Requester) (partition : Nat) (s : State) : ∀ t, execFence req partition s = .next t → t.sec.floors = s.sec.floors ∧ t.pending = s.pending := by
  unfold execFence; exact keep_regCmd _ _ _ _ _ _ _ (fun _ _ _ => by simp)

theorem keep_execRemount (req : Requester) (partition : Nat) (s : State) : ∀ t, execRemount req partition s = .next t → t.sec.floors = s.sec.floors ∧ t.pending = s.pending := by
  unfold execRemount; exact keep_regWriteTo _ _ _ _ _ _ _ _ (fun _ _ _ => by simp)

@[simp] theorem keep_queueCtrlEffect (q g : Nat) (pulse : Word) (s : State) : (queueCtrlEffect q g pulse s).sec.floors = s.sec.floors ∧ (queueCtrlEffect q g pulse s).pending = s.pending := by
  show Keep _ _; unfold queueCtrlEffect; (repeat' (first | split | dsimp only)) <;> simp

theorem keep_execQbrselWrite (req : Requester) (core queue : Nat) (value : Word) (s : State) : ∀ t, execQbrselWrite req core queue value s = .next t → t.sec.floors = s.sec.floors ∧ t.pending = s.pending := by
  unfold execQbrselWrite; exact keep_regCmd _ _ _ _ _ _ _ (fun _ _ _ => by simp)

theorem keep_execQueueDiscard (req : Requester) (core queue : Nat) (s : State) : ∀ t, execQueueDiscard req core queue s = .next t → t.sec.floors = s.sec.floors ∧ t.pending = s.pending := by
  unfold execQueueDiscard; exact keep_regWriteTo _ _ _ _ _ _ _ _ (fun _ _ _ => by simp)

theorem keep_execQueueResume (req : Requester) (core queue : Nat) (s : State) : ∀ t, execQueueResume req core queue s = .next t → t.sec.floors = s.sec.floors ∧ t.pending = s.pending := by
  unfold execQueueResume; exact keep_regWriteTo _ _ _ _ _ _ _ _ (fun _ _ _ => by simp)

theorem keep_execLoopCountWrite (req : Requester) (core reg : Nat) (value : Word) (s : State) : ∀ t, execLoopCountWrite req core reg value s = .next t → t.sec.floors = s.sec.floors ∧ t.pending = s.pending := by
  unfold execLoopCountWrite; exact keep_regCmd _ _ _ _ _ _ _ (fun _ _ _ => by simp)

@[simp] theorem keep_zeroRegs (s : State) (b : Blk) (i : Nat) (offs : List Nat) : (zeroRegs s b i offs).sec.floors = s.sec.floors ∧ (zeroRegs s b i offs).pending = s.pending := by
  show Keep _ _; unfold zeroRegs; (repeat' (first | split | dsimp only)) <;> simp

@[simp] theorem keep_mxCntClrEffect (g : Nat) (s : State) : (mxCntClrEffect g s).sec.floors = s.sec.floors ∧ (mxCntClrEffect g s).pending = s.pending := by
  show Keep _ _; unfold mxCntClrEffect; (repeat' (first | split | dsimp only)) <;> simp

@[simp] theorem keep_vxCntClrEffect (g : Nat) (s : State) : (vxCntClrEffect g s).sec.floors = s.sec.floors ∧ (vxCntClrEffect g s).pending = s.pending := by
  show Keep _ _; unfold vxCntClrEffect; (repeat' (first | split | dsimp only)) <;> simp

@[simp] theorem keep_qntCntClrEffect (g : Nat) (s : State) : (qntCntClrEffect g s).sec.floors = s.sec.floors ∧ (qntCntClrEffect g s).pending = s.pending := by
  show Keep _ _; unfold qntCntClrEffect; (repeat' (first | split | dsimp only)) <;> simp

@[simp] theorem keep_mxArmEffect (g : Nat) (v : Word) (s : State) : (mxArmEffect g v s).sec.floors = s.sec.floors ∧ (mxArmEffect g v s).pending = s.pending := by
  show Keep _ _; unfold mxArmEffect; (repeat' (first | split | dsimp only)) <;> simp

@[simp] theorem keep_vxArmEffect (g : Nat) (v : Word) (s : State) : (vxArmEffect g v s).sec.floors = s.sec.floors ∧ (vxArmEffect g v s).pending = s.pending := by
  show Keep _ _; unfold vxArmEffect; (repeat' (first | split | dsimp only)) <;> simp

theorem keep_execMxCntClr (req : Requester) (core : Nat) (s : State) : ∀ t, execMxCntClr req core s = .next t → t.sec.floors = s.sec.floors ∧ t.pending = s.pending := by
  unfold execMxCntClr; exact keep_regCmd _ _ _ _ _ _ _ (fun _ _ _ => by simp)

theorem keep_execQntCntClr (req : Requester) (core : Nat) (s : State) : ∀ t, execQntCntClr req core s = .next t → t.sec.floors = s.sec.floors ∧ t.pending = s.pending := by
  unfold execQntCntClr; exact keep_regCmd _ _ _ _ _ _ _ (fun _ _ _ => by simp)

theorem keep_execVxCntClr (req : Requester) (core : Nat) (s : State) : ∀ t, execVxCntClr req core s = .next t → t.sec.floors = s.sec.floors ∧ t.pending = s.pending := by
  unfold execVxCntClr; exact keep_regCmd _ _ _ _ _ _ _ (fun _ _ _ => by simp)

theorem keep_execMxBrambleInjArm (req : Requester) (core : Nat) (value : Word) (s : State) : ∀ t, execMxBrambleInjArm req core value s = .next t → t.sec.floors = s.sec.floors ∧ t.pending = s.pending := by
  unfold execMxBrambleInjArm; exact keep_regCmd _ _ _ _ _ _ _ (fun _ _ _ => by simp)

theorem keep_execVxBrambleInjArm (req : Requester) (core : Nat) (value : Word) (s : State) : ∀ t, execVxBrambleInjArm req core value s = .next t → t.sec.floors = s.sec.floors ∧ t.pending = s.pending := by
  unfold execVxBrambleInjArm; exact keep_regCmd _ _ _ _ _ _ _ (fun _ _ _ => by simp)

/-! ### MemControl -/

@[simp] theorem keep_keepRelease (s : State) (p : Nat) : (keepRelease s p).sec.floors = s.sec.floors ∧ (keepRelease s p).pending = s.pending := by
  show Keep _ _; unfold keepRelease; (repeat' (first | split | dsimp only)) <;> simp

@[simp] theorem keep_scCntClr (s : State) (p : Nat) : (scCntClr s p).sec.floors = s.sec.floors ∧ (scCntClr s p).pending = s.pending := by
  show Keep _ _; unfold scCntClr; (repeat' (first | split | dsimp only)) <;> simp

@[simp] theorem keep_scCmdEffect (p : Nat) (pulse : Word) (s : State) : (scCmdEffect p pulse s).sec.floors = s.sec.floors ∧ (scCmdEffect p pulse s).pending = s.pending := by
  show Keep _ _; unfold scCmdEffect; (repeat' (first | split | dsimp only)) <;> simp

theorem keep_execFlush (req : Requester) (partition : Nat) (s : State) : ∀ t, execFlush req partition s = .next t → t.sec.floors = s.sec.floors ∧ t.pending = s.pending := by
  unfold execFlush; exact keep_regCmd _ _ _ _ _ _ _ (fun _ _ _ => by simp)

theorem keep_execInvalidate (req : Requester) (partition : Nat) (s : State) : ∀ t, execInvalidate req partition s = .next t → t.sec.floors = s.sec.floors ∧ t.pending = s.pending := by
  unfold execInvalidate; exact keep_regCmd _ _ _ _ _ _ _ (fun _ _ _ => by simp)

theorem keep_execKeepRelease (req : Requester) (partition : Nat) (s : State) : ∀ t, execKeepRelease req partition s = .next t → t.sec.floors = s.sec.floors ∧ t.pending = s.pending := by
  unfold execKeepRelease; exact keep_regCmd _ _ _ _ _ _ _ (fun _ _ _ => by simp)

theorem keep_execScCntClr (req : Requester) (partition : Nat) (s : State) : ∀ t, execScCntClr req partition s = .next t → t.sec.floors = s.sec.floors ∧ t.pending = s.pending := by
  unfold execScCntClr; exact keep_regCmd _ _ _ _ _ _ _ (fun _ _ _ => by simp)

@[simp] theorem keep_chCtrlEffect (c : Nat) (pulse : Word) (s : State) : (chCtrlEffect c pulse s).sec.floors = s.sec.floors ∧ (chCtrlEffect c pulse s).pending = s.pending := by
  show Keep _ _; unfold chCtrlEffect; (repeat' (first | split | dsimp only)) <;> simp

theorem keep_chCtrlWrite (s : State) (req : Requester) (p view : Nat) (v : Word) : ∀ t, chCtrlWrite s req p view v = .next t → t.sec.floors = s.sec.floors ∧ t.pending = s.pending := by
  unfold chCtrlWrite; intro t h; extract_lets bad at h; clear_value bad; split at h
  · injection h with h; subst h; simp
  · exact keep_regWriteTo _ _ _ _ _ _ _ _ (fun _ _ _ => by simp) t h

theorem keep_execRetireLane (req : Requester) (partition : Nat) (value : Word) (s : State) : ∀ t, execRetireLane req partition value s = .next t → t.sec.floors = s.sec.floors ∧ t.pending = s.pending := by
  unfold execRetireLane; grind [keep_chCtrlWrite]

theorem keep_execReqOut (req : Requester) (partition : Nat) (value : Word) (s : State) : ∀ t, execReqOut req partition value s = .next t → t.sec.floors = s.sec.floors ∧ t.pending = s.pending := by
  unfold execReqOut; grind [keep_chCtrlWrite]

@[simp] theorem keep_chClrEffect (c : Nat) (s : State) : (chClrEffect c s).sec.floors = s.sec.floors ∧ (chClrEffect c s).pending = s.pending := by
  show Keep _ _; unfold chClrEffect; (repeat' (first | split | dsimp only)) <;> simp

theorem keep_execMemChClr (req : Requester) (partition : Nat) (s : State) : ∀ t, execMemChClr req partition s = .next t → t.sec.floors = s.sec.floors ∧ t.pending = s.pending := by
  unfold execMemChClr; exact keep_regCmd _ _ _ _ _ _ _ (fun _ _ _ => by simp)

@[simp] theorem keep_memCntClrEffect (p : Nat) (s : State) : (memCntClrEffect p s).sec.floors = s.sec.floors ∧ (memCntClrEffect p s).pending = s.pending := by
  show Keep _ _; unfold memCntClrEffect; (repeat' (first | split | dsimp only)) <;> simp

theorem keep_execMemCntClr (req : Requester) (partition : Nat) (s : State) : ∀ t, execMemCntClr req partition s = .next t → t.sec.floors = s.sec.floors ∧ t.pending = s.pending := by
  unfold execMemCntClr; exact keep_regCmd _ _ _ _ _ _ _ (fun _ _ _ => by simp)

/-! ### Waybill -/

@[simp] theorem keep_waybillBuild (s : State) : (waybillBuild s).sec.floors = s.sec.floors ∧ (waybillBuild s).pending = s.pending := by
  show Keep _ _; unfold waybillBuild; (repeat' (first | split | dsimp only)) <;> simp

@[simp] theorem keep_attestCapture (s : State) : (attestCapture s).sec.floors = s.sec.floors ∧ (attestCapture s).pending = s.pending := by
  show Keep _ _; unfold attestCapture; (repeat' (first | split | dsimp only)) <;> simp

theorem keep_execWaybillRegenerate (s : State) : ∀ t, execWaybillRegenerate s = .next t → t.sec.floors = s.sec.floors ∧ t.pending = s.pending := by
  unfold execWaybillRegenerate; intro t h; (repeat' (first | split at h | dsimp only at h)) <;> (injection h with h; subst h; show Keep _ _; simp)

@[simp] theorem keep_copiesFix (s : State) (e : Nat × Copies) (v : Nat) : (copiesFix s e v).sec.floors = s.sec.floors ∧ (copiesFix s e v).pending = s.pending := by
  show Keep _ _; unfold copiesFix; dsimp only; split <;> simp

@[simp] theorem keep_tmrSplit (s : State) (e : Nat × Copies) : (tmrSplit s e).sec.floors = s.sec.floors ∧ (tmrSplit s e).pending = s.pending := by
  show Keep _ _; unfold tmrSplit; dsimp only; split <;> simp

@[simp] theorem keep_scrubField (s : State) (e : Nat × Copies) : (scrubField s e).sec.floors = s.sec.floors ∧ (scrubField s e).pending = s.pending := by
  show Keep _ _; unfold scrubField; (repeat' (first | split | dsimp only)) <;> simp

theorem keep_execTmrScrub (s : State) : ∀ t, execTmrScrub s = .next t → t.sec.floors = s.sec.floors ∧ t.pending = s.pending := by
  unfold execTmrScrub; intro t h; (repeat' (first | split at h | dsimp only at h)) <;> (injection h with h; subst h; show Keep _ _; simp)

theorem keep_execMeshFlitReceive (bridge : Nat) (crcOk : Bool) (s : State) : ∀ t, execMeshFlitReceive bridge crcOk s = .next t → t.sec.floors = s.sec.floors ∧ t.pending = s.pending := by
  unfold execMeshFlitReceive; intro t h; (repeat' (first | split at h | dsimp only at h)) <;> (injection h with h; subst h; show Keep _ _; simp)

/-! ### Grants -/

@[simp] theorem keep_grantUse (s : State) : (grantUse s).sec.floors = s.sec.floors ∧ (grantUse s).pending = s.pending := by
  show Keep _ _; unfold grantUse; (repeat' (first | split | dsimp only)) <;> simp

theorem keep_execGrantExpiry (s : State) : ∀ t, execGrantExpiry s = .next t → t.sec.floors = s.sec.floors ∧ t.pending = s.pending := by
  unfold execGrantExpiry; intro t h; (repeat' (first | split at h | dsimp only at h)) <;> (injection h with h; subst h; show Keep _ _; simp)

/-! ### FaultTest -/

@[simp] theorem keep_hungSet (s : State) (kind index mark : Nat) : (hungSet s kind index mark).sec.floors = s.sec.floors ∧ (hungSet s kind index mark).pending = s.pending := by
  show Keep _ _; unfold hungSet; (repeat' (first | split | dsimp only)) <;> simp

@[simp] theorem keep_hangNote (s : State) (kind unit index tag : Nat) : (hangNote s kind unit index tag).sec.floors = s.sec.floors ∧ (hangNote s kind unit index tag).pending = s.pending := by
  show Keep _ _; unfold hangNote; (repeat' (first | split | dsimp only)) <;> simp

@[simp] theorem keep_coreHang (s : State) (g win : Nat) : (coreHang s g win).sec.floors = s.sec.floors ∧ (coreHang s g win).pending = s.pending := by
  show Keep _ _; unfold coreHang; dsimp only; split <;> simp

@[simp] theorem keep_groupHang (s : State) (p grp mark : Nat) : (groupHang s p grp mark).sec.floors = s.sec.floors ∧ (groupHang s p grp mark).pending = s.pending := by
  show Keep _ _; unfold groupHang; (repeat' (first | split | dsimp only)) <;> simp

@[simp] theorem keep_portHang (s : State) (n mark : Nat) : (portHang s n mark).sec.floors = s.sec.floors ∧ (portHang s n mark).pending = s.pending := by
  show Keep _ _; unfold portHang; (repeat' (first | split | dsimp only)) <;> simp

theorem keep_execHang (kind index : Nat) (s : State) : ∀ t, execHang kind index s = .next t → t.sec.floors = s.sec.floors ∧ t.pending = s.pending := by
  unfold execHang; intro t h; (repeat' (first | split at h | dsimp only at h)) <;> (injection h with h; subst h; show Keep _ _; simp)

theorem keep_execEventAgeOut (kind index sig : Nat) (s : State) : ∀ t, execEventAgeOut kind index sig s = .next t → t.sec.floors = s.sec.floors ∧ t.pending = s.pending := by
  unfold execEventAgeOut; intro t h; (repeat' (first | split at h | dsimp only at h)) <;> (injection h with h; subst h; show Keep _ _; simp)

@[simp] theorem keep_retestUnit (s : State) (u : Nat × Nat) : (retestUnit s u).sec.floors = s.sec.floors ∧ (retestUnit s u).pending = s.pending := by
  show Keep _ _; unfold retestUnit; (repeat' (first | split | dsimp only)) <;> simp

@[simp] theorem keep_applyUnit (s : State) (u : Nat × Nat) : (applyUnit s u).sec.floors = s.sec.floors ∧ (applyUnit s u).pending = s.pending := by
  show Keep _ _; unfold applyUnit; dsimp only; split <;> simp

@[simp] theorem keep_clearUnit (s : State) (u : Nat × Nat) : (clearUnit s u).sec.floors = s.sec.floors ∧ (clearUnit s u).pending = s.pending := by
  show Keep _ _; unfold clearUnit; dsimp only; split <;> simp

@[simp] theorem keep_exportAck (s : State) : (exportAck s).sec.floors = s.sec.floors ∧ (exportAck s).pending = s.pending := by
  show Keep _ _; unfold exportAck; dsimp only; split <;> simp

@[simp] theorem keep_fhCmdEffect (pulse : Word) (s : State) : (fhCmdEffect pulse s).sec.floors = s.sec.floors ∧ (fhCmdEffect pulse s).pending = s.pending := by
  show Keep _ _; unfold fhCmdEffect; (repeat' (first | split | dsimp only)) <;> simp

theorem keep_fhCmdWrite (req : Requester) (view : Nat) (v : Word) (s : State) : ∀ t, fhCmdWrite req view v s = .next t → t.sec.floors = s.sec.floors ∧ t.pending = s.pending := by
  unfold fhCmdWrite; intro t h; (repeat' (first | split at h | dsimp only at h)) <;> first | (injection h with h; subst h; show Keep _ _; simp; done) | exact keep_regWriteTo _ _ _ _ _ _ _ _ (fun _ _ _ => by simp) t h | exact keep_regCmd _ _ _ _ _ _ _ (fun _ _ _ => by simp) t h | grind [keep_accFault, keep_regWriteTo, keep_fhCmdEffect, keep_iff]

theorem keep_execExportAck (req : Requester) (s : State) : ∀ t, execExportAck req s = .next t → t.sec.floors = s.sec.floors ∧ t.pending = s.pending := by
  unfold execExportAck; grind [keep_fhCmdWrite]

theorem keep_execClearVerdict (req : Requester) (s : State) : ∀ t, execClearVerdict req s = .next t → t.sec.floors = s.sec.floors ∧ t.pending = s.pending := by
  unfold execClearVerdict; grind [keep_fhCmdWrite]

theorem keep_execApply (req : Requester) (s : State) : ∀ t, execApply req s = .next t → t.sec.floors = s.sec.floors ∧ t.pending = s.pending := by
  unfold execApply; grind [keep_fhCmdWrite]

theorem keep_execRetest (req : Requester) (s : State) : ∀ t, execRetest req s = .next t → t.sec.floors = s.sec.floors ∧ t.pending = s.pending := by
  unfold execRetest; grind [keep_fhCmdWrite]

theorem keep_execCperSend (s : State) : ∀ t, execCperSend s = .next t → t.sec.floors = s.sec.floors ∧ t.pending = s.pending := by
  unfold execCperSend; intro t h; (repeat' (first | split at h | dsimp only at h)) <;> (injection h with h; subst h; show Keep _ _; simp)

theorem keep_execFhDigestRecompute (s : State) : ∀ t, execFhDigestRecompute s = .next t → t.sec.floors = s.sec.floors ∧ t.pending = s.pending := by
  unfold execFhDigestRecompute; intro t h; (repeat' (first | split at h | dsimp only at h)) <;> (injection h with h; subst h; show Keep _ _; simp)

theorem keep_execOperatingSecond (s : State) : ∀ t, execOperatingSecond s = .next t → t.sec.floors = s.sec.floors ∧ t.pending = s.pending := by
  unfold execOperatingSecond; intro t h; (repeat' (first | split at h | dsimp only at h)) <;> (injection h with h; subst h; show Keep _ _; simp)

@[simp] theorem keep_packageTurn (s : State) : (packageTurn s).sec.floors = s.sec.floors ∧ (packageTurn s).pending = s.pending := by
  show Keep _ _; unfold packageTurn; (repeat' (first | split | dsimp only)) <;> simp

theorem keep_execIstWindowOpen (core : Nat) (s : State) : ∀ t, execIstWindowOpen core s = .next t → t.sec.floors = s.sec.floors ∧ t.pending = s.pending := by
  unfold execIstWindowOpen; intro t h; (repeat' (first | split at h | dsimp only at h)) <;> (injection h with h; subst h; show Keep _ _; simp)

@[simp] theorem keep_windowClose (s : State) (g : Nat) : (windowClose s g).sec.floors = s.sec.floors ∧ (windowClose s g).pending = s.pending := by
  show Keep _ _; unfold windowClose; (repeat' (first | split | dsimp only)) <;> simp

theorem keep_execIstPreempt (core delay : Nat) (s : State) : ∀ t, execIstPreempt core delay s = .next t → t.sec.floors = s.sec.floors ∧ t.pending = s.pending := by
  unfold execIstPreempt; intro t h; (repeat' (first | split at h | dsimp only at h)) <;> (injection h with h; subst h; show Keep _ _; simp)

@[simp] theorem keep_patternPass (s : State) (g pattern : Nat) : (patternPass s g pattern).sec.floors = s.sec.floors ∧ (patternPass s g pattern).pending = s.pending := by
  show Keep _ _; unfold patternPass; (repeat' (first | split | dsimp only)) <;> simp

@[simp] theorem keep_istFail (s : State) (g pattern expected got : Nat) (act : Bool) : (istFail s g pattern expected got act).sec.floors = s.sec.floors ∧ (istFail s g pattern expected got act).pending = s.pending := by
  show Keep _ _; unfold istFail; dsimp only; split <;> simp

theorem keep_execIstPatternDone (core pattern cycles expected got : Nat) (s : State) : ∀ t, execIstPatternDone core pattern cycles expected got s = .next t → t.sec.floors = s.sec.floors ∧ t.pending = s.pending := by
  unfold execIstPatternDone; intro t h; (repeat' (first | split at h | dsimp only at h)) <;> (injection h with h; subst h; show Keep _ _; simp)

@[simp] theorem keep_sweepStart (s : State) : (sweepStart s).sec.floors = s.sec.floors ∧ (sweepStart s).pending = s.pending := by
  show Keep _ _; unfold sweepStart; dsimp only; split <;> simp

@[simp] theorem keep_sweepStop (s : State) : (sweepStop s).sec.floors = s.sec.floors ∧ (sweepStop s).pending = s.pending := by
  show Keep _ _; unfold sweepStop; (repeat' (first | split | dsimp only)) <;> simp

@[simp] theorem keep_istCmdEffect (pulse : Word) (s : State) : (istCmdEffect pulse s).sec.floors = s.sec.floors ∧ (istCmdEffect pulse s).pending = s.pending := by
  show Keep _ _; unfold istCmdEffect; (repeat' (first | split | dsimp only)) <;> simp

theorem keep_execSweep (req : Requester) (s : State) : ∀ t, execSweep req s = .next t → t.sec.floors = s.sec.floors ∧ t.pending = s.pending := by
  unfold execSweep; exact keep_regCmd _ _ _ _ _ _ _ (fun _ _ _ => by simp)

theorem keep_execAbortSweep (req : Requester) (s : State) : ∀ t, execAbortSweep req s = .next t → t.sec.floors = s.sec.floors ∧ t.pending = s.pending := by
  unfold execAbortSweep; exact keep_regCmd _ _ _ _ _ _ _ (fun _ _ _ => by simp)

theorem keep_execSweepDone (s : State) : ∀ t, execSweepDone s = .next t → t.sec.floors = s.sec.floors ∧ t.pending = s.pending := by
  unfold execSweepDone; intro t h; (repeat' (first | split at h | dsimp only at h)) <;> (injection h with h; subst h; show Keep _ _; simp)

theorem keep_execTestPackage (pkg : List Byte) (s : State) : ∀ t, execTestPackage pkg s = .next t → t.sec.floors = s.sec.floors ∧ t.pending = s.pending := by
  unfold execTestPackage; intro t h; (repeat' (first | split at h | dsimp only at h)) <;> (injection h with h; subst h; show Keep _ _; simp)

end Sys2Proof.Laws
end

