-- ==== Sys2Proof/Laws/KeepPower.lean ====
section
/-! SUPPORT. What no operation changes: the fuses and counters that only rise, and the queue of commands; power states, settings, security, the register window and resets. One lemma for each
operation that takes a state to a state. -/

namespace Sys2Proof.Laws

open Sys2Proof.Machine

set_option maxRecDepth 4000

/-! ### Partition -/

@[simp] theorem keep_trainChan (s : State) (m : Measured) (p k : Nat) : (trainChan s m p k).sec.floors = s.sec.floors ∧ (trainChan s m p k).pending = s.pending := by
  show Keep _ _; unfold trainChan; dsimp only; split <;> simp

@[simp] theorem keep_retestClose (s : State) (r : Nat × Nat × Nat) (pass act : Bool) : (retestClose s r pass act).sec.floors = s.sec.floors ∧ (retestClose s r pass act).pending = s.pending := by
  show Keep _ _; unfold retestClose; (repeat' (first | split | dsimp only)) <;> simp

@[simp] theorem keep_trainStack (s : State) (p : Nat) (m : Measured) : (trainStack s p m).sec.floors = s.sec.floors ∧ (trainStack s p m).pending = s.pending := by
  show Keep _ _; unfold trainStack; (repeat' (first | split | dsimp only)) <;> simp

@[simp] theorem keep_relayout (s : State) (p : Nat) (old : List Nat) : (relayout s p old).sec.floors = s.sec.floors ∧ (relayout s p old).pending = s.pending := by
  show Keep _ _; unfold relayout; dsimp only; split <;> simp

@[simp] theorem keep_checkCore (s : State) (m : Measured) (act : Bool) (g : Nat) : (checkCore s m act g).sec.floors = s.sec.floors ∧ (checkCore s m act g).pending = s.pending := by
  show Keep _ _; unfold checkCore; (repeat' (first | split | dsimp only)) <;> simp

@[simp] theorem keep_checkCores (s : State) (p : Nat) (m : Measured) (act : Bool) : (checkCores s p m act).sec.floors = s.sec.floors ∧ (checkCores s p m act).pending = s.pending := by
  show Keep _ _; unfold checkCores; (repeat' (first | split | dsimp only)) <;> simp

@[simp] theorem keep_quiesce (s : State) (p : Nat) : (quiesce s p).sec.floors = s.sec.floors ∧ (quiesce s p).pending = s.pending := by
  show Keep _ _; unfold quiesce; dsimp only; split <;> simp

@[simp] theorem keep_writeBack (s : State) (p : Nat) (kept : Bool) : (writeBack s p kept).sec.floors = s.sec.floors ∧ (writeBack s p kept).pending = s.pending := by
  show Keep _ _; unfold writeBack; (repeat' (first | split | dsimp only)) <;> simp

@[simp] theorem keep_forget (s : State) (out : Nat → Bool) : (forget s out).sec.floors = s.sec.floors ∧ (forget s out).pending = s.pending := by
  show Keep _ _; unfold forget; (repeat' (first | split | dsimp only)) <;> simp

@[simp] theorem keep_powerLoss (s : State) (p : Nat) (kept : Bool) : (powerLoss s p kept).sec.floors = s.sec.floors ∧ (powerLoss s p kept).pending = s.pending := by
  show Keep _ _; unfold powerLoss; dsimp only; split <;> simp

@[simp] theorem keep_logicReset (s : State) (p : Nat) (kept : Bool) : (logicReset s p kept).sec.floors = s.sec.floors ∧ (logicReset s p kept).pending = s.pending := by
  show Keep _ _; unfold logicReset; (repeat' (first | split | dsimp only)) <;> simp

@[simp] theorem keep_settleFailed (s : State) (p : Nat) : (settleFailed s p).sec.floors = s.sec.floors ∧ (settleFailed s p).pending = s.pending := by
  show Keep _ _; unfold settleFailed; (repeat' (first | split | dsimp only)) <;> simp

@[simp] theorem keep_bringBack (s : State) (p : Nat) (m : Measured) (old : List Nat) (facts : List Nat) : (bringBack s p m old facts).sec.floors = s.sec.floors ∧ (bringBack s p m old facts).pending = s.pending := by
  show Keep _ _; unfold bringBack; dsimp only; split <;> simp

@[simp] theorem keep_resetPartition (s : State) (p : Nat) (m : Measured) : (resetPartition s p m).sec.floors = s.sec.floors ∧ (resetPartition s p m).pending = s.pending := by
  show Keep _ _; unfold resetPartition; (repeat' (first | split | dsimp only)) <;> simp

@[simp] theorem keep_rstRefuse (s : State) (reason p : Nat) : (rstRefuse s reason p).sec.floors = s.sec.floors ∧ (rstRefuse s reason p).pending = s.pending := by
  show Keep _ _; unfold rstRefuse; (repeat' (first | split | dsimp only)) <;> simp

@[simp] theorem keep_ptnResetEffect (m : Measured) (v : Word) (s : State) : (ptnResetEffect m v s).sec.floors = s.sec.floors ∧ (ptnResetEffect m v s).pending = s.pending := by
  show Keep _ _; unfold ptnResetEffect; (repeat' (first | split | dsimp only)) <;> simp

theorem keep_execPartitionReset (req : Requester) (value : Word) (m : Measured) (s : State) : ∀ t, execPartitionReset req value m s = .next t → t.sec.floors = s.sec.floors ∧ t.pending = s.pending := by
  unfold execPartitionReset; exact keep_regCmd _ _ _ _ _ _ _ (fun _ _ _ => by simp)

theorem keep_execP1Enter (partition : Nat) (s : State) : ∀ t, execP1Enter partition s = .next t → t.sec.floors = s.sec.floors ∧ t.pending = s.pending := by
  unfold execP1Enter; intro t h; (repeat' (first | split at h | dsimp only at h)) <;> (injection h with h; subst h; show Keep _ _; simp)

theorem keep_execP1Exit (partition : Nat) (s : State) : ∀ t, execP1Exit partition s = .next t → t.sec.floors = s.sec.floors ∧ t.pending = s.pending := by
  unfold execP1Exit; intro t h; (repeat' (first | split at h | dsimp only at h)) <;> (injection h with h; subst h; show Keep _ _; simp)

@[simp] theorem keep_p2Refuse (s : State) (reason p : Nat) : (p2Refuse s reason p).sec.floors = s.sec.floors ∧ (p2Refuse s reason p).pending = s.pending := by
  show Keep _ _; unfold p2Refuse; (repeat' (first | split | dsimp only)) <;> simp

@[simp] theorem keep_keepOne (s : State) (e : Nat × Word) : (keepOne s e).sec.floors = s.sec.floors ∧ (keepOne s e).pending = s.pending := by
  show Keep _ _; unfold keepOne; dsimp only; split <;> simp

@[simp] theorem keep_keepConfig (s : State) (p : Nat) : (keepConfig s p).sec.floors = s.sec.floors ∧ (keepConfig s p).pending = s.pending := by
  show Keep _ _; unfold keepConfig; dsimp only; simp

@[simp] theorem keep_p2Enter (s : State) (p : Nat) (kept : Bool) : (p2Enter s p kept).sec.floors = s.sec.floors ∧ (p2Enter s p kept).pending = s.pending := by
  show Keep _ _; unfold p2Enter; (repeat' (first | split | dsimp only)) <;> simp

@[simp] theorem keep_p2Exit (s : State) (p : Nat) (m : Measured) : (p2Exit s p m).sec.floors = s.sec.floors ∧ (p2Exit s p m).pending = s.pending := by
  show Keep _ _; unfold p2Exit; (repeat' (first | split | dsimp only)) <;> simp

@[simp] theorem keep_ptnPowerEffect (kept : Bool) (m : Measured) (v : Word) (s : State) : (ptnPowerEffect kept m v s).sec.floors = s.sec.floors ∧ (ptnPowerEffect kept m v s).pending = s.pending := by
  show Keep _ _; unfold ptnPowerEffect; (repeat' (first | split | dsimp only)) <;> simp

theorem keep_execP2Enter (req : Requester) (value : Word) (kept : Bool) (s : State) : ∀ t, execP2Enter req value kept s = .next t → t.sec.floors = s.sec.floors ∧ t.pending = s.pending := by
  unfold execP2Enter; exact keep_regCmd _ _ _ _ _ _ _ (fun _ _ _ => by simp)

theorem keep_execP2Exit (req : Requester) (value : Word) (m : Measured) (s : State) : ∀ t, execP2Exit req value m s = .next t → t.sec.floors = s.sec.floors ∧ t.pending = s.pending := by
  unfold execP2Exit; exact keep_regCmd _ _ _ _ _ _ _ (fun _ _ _ => by simp)

/-! ### Settings -/

@[simp] theorem keep_setFail (s : State) (result : Nat) : (setFail s result).sec.floors = s.sec.floors ∧ (setFail s result).pending = s.pending := by
  show Keep _ _; unfold setFail; (repeat' (first | split | dsimp only)) <;> simp

@[simp] theorem keep_setRun (s : State) (op : Nat) (data : List Byte) : (setRun s op data).sec.floors = s.sec.floors ∧ (setRun s op data).pending = s.pending := by
  show Keep _ _; unfold setRun; (repeat' (first | split | dsimp only)) <;> simp

@[simp] theorem keep_setStore (s : State) (req : Requester) : (setStore s req).sec.floors = s.sec.floors ∧ (setStore s req).pending = s.pending := by
  show Keep _ _; unfold setStore; (repeat' (first | split | dsimp only)) <;> simp

@[simp] theorem keep_setRead (s : State) : (setRead s).sec.floors = s.sec.floors ∧ (setRead s).pending = s.pending := by
  show Keep _ _; unfold setRead; (repeat' (first | split | dsimp only)) <;> simp

@[simp] theorem keep_setErase (s : State) (req : Requester) : (setErase s req).sec.floors = s.sec.floors ∧ (setErase s req).pending = s.pending := by
  show Keep _ _; unfold setErase; (repeat' (first | split | dsimp only)) <;> simp

@[simp] theorem keep_setCmdEffect (req : Requester) (pulse : Word) (s : State) : (setCmdEffect req pulse s).sec.floors = s.sec.floors ∧ (setCmdEffect req pulse s).pending = s.pending := by
  show Keep _ _; unfold setCmdEffect; (repeat' (first | split | dsimp only)) <;> simp

theorem keep_setCmdWrite (req : Requester) (view : Nat) (v : Word) (s : State) : ∀ t, setCmdWrite req view v s = .next t → t.sec.floors = s.sec.floors ∧ t.pending = s.pending := by
  unfold setCmdWrite; intro t h; (repeat' (first | split at h | dsimp only at h)) <;> first | (injection h with h; subst h; show Keep _ _; simp; done) | exact keep_regWriteTo _ _ _ _ _ _ _ _ (fun _ _ _ => by simp) t h | exact keep_regCmd _ _ _ _ _ _ _ (fun _ _ _ => by simp) t h | grind [keep_accFault, keep_regWriteTo, keep_setFail, keep_setCmdEffect, keep_iff]

theorem keep_execSettingsStore (req : Requester) (s : State) : ∀ t, execSettingsStore req s = .next t → t.sec.floors = s.sec.floors ∧ t.pending = s.pending := by
  unfold execSettingsStore; grind [keep_setCmdWrite]

theorem keep_execSettingsRead (req : Requester) (s : State) : ∀ t, execSettingsRead req s = .next t → t.sec.floors = s.sec.floors ∧ t.pending = s.pending := by
  unfold execSettingsRead; grind [keep_setCmdWrite]

theorem keep_execSettingsErase (req : Requester) (s : State) : ∀ t, execSettingsErase req s = .next t → t.sec.floors = s.sec.floors ∧ t.pending = s.pending := by
  unfold execSettingsErase; grind [keep_setCmdWrite]

@[simp] theorem keep_settingsFinish (s : State) : (settingsFinish s).sec.floors = s.sec.floors ∧ (settingsFinish s).pending = s.pending := by
  show Keep _ _; unfold settingsFinish; dsimp only; split <;> simp

theorem keep_execSettingsDone (s : State) : ∀ t, execSettingsDone s = .next t → t.sec.floors = s.sec.floors ∧ t.pending = s.pending := by
  unfold execSettingsDone; intro t h; (repeat' (first | split at h | dsimp only at h)) <;> (injection h with h; subst h; show Keep _ _; simp)

@[simp] theorem keep_setBufWrite (s : State) (off : Nat) (v : Word) : (setBufWrite s off v).sec.floors = s.sec.floors ∧ (setBufWrite s off v).pending = s.pending := by
  show Keep _ _; unfold setBufWrite; dsimp only; split <;> simp

theorem keep_execRoutingRecordStore (s : State) : ∀ t, execRoutingRecordStore s = .next t → t.sec.floors = s.sec.floors ∧ t.pending = s.pending := by
  unfold execRoutingRecordStore; intro t h; (repeat' (first | split at h | dsimp only at h)) <;> (injection h with h; subst h; show Keep _ _; simp)

/-! ### Power -/

@[simp] theorem keep_setLevel (s : State) (l : Nat) : (setLevel s l).sec.floors = s.sec.floors ∧ (setLevel s l).pending = s.pending := by
  show Keep _ _; unfold setLevel; dsimp only; split <;> simp

@[simp] theorem keep_setSums (s : State) (low top cool : Nat) : (setSums s low top cool).sec.floors = s.sec.floors ∧ (setSums s low top cool).pending = s.pending := by
  show Keep _ _; unfold setSums; (repeat' (first | split | dsimp only)) <;> simp

@[simp] theorem keep_sumStep (s : State) (watts : Nat) : (sumStep s watts).sec.floors = s.sec.floors ∧ (sumStep s watts).pending = s.pending := by
  show Keep _ _; unfold sumStep; (repeat' (first | split | dsimp only)) <;> simp

theorem keep_execPowerSum (watts : Nat) (s : State) : ∀ t, execPowerSum watts s = .next t → t.sec.floors = s.sec.floors ∧ t.pending = s.pending := by
  unfold execPowerSum; intro t h; (repeat' (first | split at h | dsimp only at h)) <;> (injection h with h; subst h; show Keep _ _; simp)

theorem keep_execPwrAlert (asserted : Bool) (s : State) : ∀ t, execPwrAlert asserted s = .next t → t.sec.floors = s.sec.floors ∧ t.pending = s.pending := by
  unfold execPwrAlert; intro t h; (repeat' (first | split at h | dsimp only at h)) <;> (injection h with h; subst h; show Keep _ _; simp)

@[simp] theorem keep_setTemps (s : State) (compute stack hub host : Nat) : (setTemps s compute stack hub host).sec.floors = s.sec.floors ∧ (setTemps s compute stack hub host).pending = s.pending := by
  show Keep _ _; unfold setTemps; (repeat' (first | split | dsimp only)) <;> simp

theorem keep_execThermalThrottle (compute stack hub host : Nat) (s : State) : ∀ t, execThermalThrottle compute stack hub host s = .next t → t.sec.floors = s.sec.floors ∧ t.pending = s.pending := by
  unfold execThermalThrottle; intro t h; (repeat' (first | split at h | dsimp only at h)) <;> (injection h with h; subst h; show Keep _ _; simp)

@[simp] theorem keep_islandBase (s : State) : (islandBase s).sec.floors = s.sec.floors ∧ (islandBase s).pending = s.pending := by
  show Keep _ _; unfold islandBase; (repeat' (first | split | dsimp only)) <;> simp

@[simp] theorem keep_allInReset (s : State) : (allInReset s).sec.floors = s.sec.floors ∧ (allInReset s).pending = s.pending := by
  show Keep _ _; unfold allInReset; (repeat' (first | split | dsimp only)) <;> simp

@[simp] theorem keep_bstat (s : State) (f : Fld) (b : Bool) : (bstat s f b).sec.floors = s.sec.floors ∧ (bstat s f b).pending = s.pending := by
  show Keep _ _; unfold bstat; dsimp only; split <;> simp

@[simp] theorem keep_mainOn (s : State) : (mainOn s).sec.floors = s.sec.floors ∧ (mainOn s).pending = s.pending := by
  show Keep _ _; unfold mainOn; (repeat' (first | split | dsimp only)) <;> simp

@[simp] theorem keep_holdPackage (s : State) : (holdPackage s).sec.floors = s.sec.floors ∧ (holdPackage s).pending = s.pending := by
  show Keep _ _; unfold holdPackage; (repeat' (first | split | dsimp only)) <;> simp

theorem keep_execRootUnlock (refStopped : Bool) (s : State) : ∀ t, execRootUnlock refStopped s = .next t → t.sec.floors = s.sec.floors ∧ t.pending = s.pending := by
  unfold execRootUnlock; intro t h; (repeat' (first | split at h | dsimp only at h)) <;> (injection h with h; subst h; show Keep _ _; simp)

@[simp] theorem keep_railLoss (s : State) (f : Fld) : (railLoss s f).sec.floors = s.sec.floors ∧ (railLoss s f).pending = s.pending := by
  show Keep _ _; unfold railLoss; (repeat' (first | split | dsimp only)) <;> simp

theorem keep_execRailFail (s : State) : ∀ t, execRailFail s = .next t → t.sec.floors = s.sec.floors ∧ t.pending = s.pending := by
  unfold execRailFail; intro t h; (repeat' (first | split at h | dsimp only at h)) <;> (injection h with h; subst h; show Keep _ _; simp)

theorem keep_execAvsAckTimeout (regulator : Nat) (s : State) : ∀ t, execAvsAckTimeout regulator s = .next t → t.sec.floors = s.sec.floors ∧ t.pending = s.pending := by
  unfold execAvsAckTimeout; intro t h; (repeat' (first | split at h | dsimp only at h)) <;> (injection h with h; subst h; show Keep _ _; simp)

theorem keep_execThermtrip (compute stack hub host : Nat) (s : State) : ∀ t, execThermtrip compute stack hub host s = .next t → t.sec.floors = s.sec.floors ∧ t.pending = s.pending := by
  unfold execThermtrip; intro t h; (repeat' (first | split at h | dsimp only at h)) <;> (injection h with h; subst h; show Keep _ _; simp)

@[simp] theorem keep_coldBase (s : State) : (coldBase s).sec.floors = s.sec.floors ∧ (coldBase s).pending = s.pending := by
  show Keep _ _; unfold coldBase; (repeat' (first | split | dsimp only)) <;> simp

theorem keep_execVmiLoss (s : State) : ∀ t, execVmiLoss s = .next t → t.sec.floors = s.sec.floors ∧ t.pending = s.pending := by
  unfold execVmiLoss; intro t h; (repeat' (first | split at h | dsimp only at h)) <;> (injection h with h; subst h; show Keep _ _; simp)

theorem keep_execColdPowerOn (s : State) : ∀ t, execColdPowerOn s = .next t → t.sec.floors = s.sec.floors ∧ t.pending = s.pending := by
  unfold execColdPowerOn; intro t h; (repeat' (first | split at h | dsimp only at h)) <;> (injection h with h; subst h; show Keep _ _; simp)

@[simp] theorem keep_p3Enter (s : State) : (p3Enter s).sec.floors = s.sec.floors ∧ (p3Enter s).pending = s.pending := by
  show Keep _ _; unfold p3Enter; (repeat' (first | split | dsimp only)) <;> simp

@[simp] theorem keep_p3Effect (req : Requester) (pulse : Word) (s : State) : (p3Effect req pulse s).sec.floors = s.sec.floors ∧ (p3Effect req pulse s).pending = s.pending := by
  show Keep _ _; unfold p3Effect; (repeat' (first | split | dsimp only)) <;> simp

theorem keep_execP3Enter (req : Requester) (s : State) : ∀ t, execP3Enter req s = .next t → t.sec.floors = s.sec.floors ∧ t.pending = s.pending := by
  unfold execP3Enter; exact keep_regCmd _ _ _ _ _ _ _ (fun _ _ _ => by simp)

@[simp] theorem keep_p3Leave (s : State) : (p3Leave s).sec.floors = s.sec.floors ∧ (p3Leave s).pending = s.pending := by
  show Keep _ _; unfold p3Leave; dsimp only; split <;> simp

theorem keep_execP3Wake (s : State) : ∀ t, execP3Wake s = .next t → t.sec.floors = s.sec.floors ∧ t.pending = s.pending := by
  unfold execP3Wake; intro t h; (repeat' (first | split at h | dsimp only at h)) <;> (injection h with h; subst h; show Keep _ _; simp)

theorem keep_execI3cWake (s : State) : ∀ t, execI3cWake s = .next t → t.sec.floors = s.sec.floors ∧ t.pending = s.pending := by
  unfold execI3cWake; intro t h; (repeat' (first | split at h | dsimp only at h)) <;> (injection h with h; subst h; show Keep _ _; simp)

theorem keep_execI3cDynamicAddress (addr : Nat) (s : State) : ∀ t, execI3cDynamicAddress addr s = .next t → t.sec.floors = s.sec.floors ∧ t.pending = s.pending := by
  unfold execI3cDynamicAddress; intro t h; (repeat' (first | split at h | dsimp only at h)) <;> (injection h with h; subst h; show Keep _ _; simp)

/-! ### Security -/

@[simp] theorem keep_secEvent (s : State) (f : Fld) (reason : Nat) : (secEvent s f reason).sec.floors = s.sec.floors ∧ (secEvent s f reason).pending = s.pending := by
  show Keep _ _; unfold secEvent; (repeat' (first | split | dsimp only)) <;> simp

theorem keep_execImageLoad (image : List Byte) (s : State) : ∀ t, execImageLoad image s = .next t → t.sec.floors = s.sec.floors ∧ t.pending = s.pending := by
  unfold execImageLoad; intro t h; (repeat' (first | split at h | dsimp only at h)) <;> (injection h with h; subst h; show Keep _ _; simp)

@[simp] theorem keep_keyInstall (s : State) (slot : Nat) (key : List Byte) : (keyInstall s slot key).sec.floors = s.sec.floors ∧ (keyInstall s slot key).pending = s.pending := by
  show Keep _ _; unfold keyInstall; (repeat' (first | split | dsimp only)) <;> simp

theorem keep_execOperatorKeyEnvelope (envelope : List Byte) (s : State) : ∀ t, execOperatorKeyEnvelope envelope s = .next t → t.sec.floors = s.sec.floors ∧ t.pending = s.pending := by
  unfold execOperatorKeyEnvelope; intro t h; (repeat' (first | split at h | dsimp only at h)) <;> (injection h with h; subst h; show Keep _ _; simp)

@[simp] theorem keep_attestStart (s : State) (addr : Option Nat) (nonce : List Byte) : (attestStart s addr nonce).sec.floors = s.sec.floors ∧ (attestStart s addr nonce).pending = s.pending := by
  show Keep _ _; unfold attestStart; dsimp only; split <;> simp

theorem keep_execAttestRequest (nonce : List Byte) (s : State) : ∀ t, execAttestRequest nonce s = .next t → t.sec.floors = s.sec.floors ∧ t.pending = s.pending := by
  unfold execAttestRequest; intro t h; (repeat' (first | split at h | dsimp only at h)) <;> (injection h with h; subst h; show Keep _ _; simp)

@[simp] theorem keep_attestGo (pulse : Word) (s : State) : (attestGo pulse s).sec.floors = s.sec.floors ∧ (attestGo pulse s).pending = s.pending := by
  show Keep _ _; unfold attestGo; (repeat' (first | split | dsimp only)) <;> simp

theorem keep_execSecAttestGo (req : Requester) (s : State) : ∀ t, execSecAttestGo req s = .next t → t.sec.floors = s.sec.floors ∧ t.pending = s.pending := by
  unfold execSecAttestGo; exact keep_regCmd _ _ _ _ _ _ _ (fun _ _ _ => by simp)

theorem keep_execAttestDone (s : State) : ∀ t, execAttestDone s = .next t → t.sec.floors = s.sec.floors ∧ t.pending = s.pending := by
  unfold execAttestDone; intro t h; (repeat' (first | split at h | dsimp only at h)) <;> (injection h with h; subst h; show Keep _ _; simp)

/-! ### Registers -/

@[simp] theorem keep_strobeEffect (pulse : Word) (s : State) : (strobeEffect pulse s).sec.floors = s.sec.floors ∧ (strobeEffect pulse s).pending = s.pending := by
  show Keep _ _; unfold strobeEffect; dsimp only; split <;> simp

@[simp] theorem keep_discardEffect (pulse : Word) (s : State) : (discardEffect pulse s).sec.floors = s.sec.floors ∧ (discardEffect pulse s).pending = s.pending := by
  show Keep _ _; unfold discardEffect; (repeat' (first | split | dsimp only)) <;> simp

@[simp] theorem keep_pendLive (s : State) (k : Nat) (w : Word) : (pendLive s k w).sec.floors = s.sec.floors ∧ (pendLive s k w).pending = s.pending := by
  show Keep _ _; unfold pendLive; dsimp only; split <;> simp

@[simp] theorem keep_heldRelease (s : State) : (heldRelease s).sec.floors = s.sec.floors ∧ (heldRelease s).pending = s.pending := by
  show Keep _ _; unfold heldRelease; (repeat' (first | split | dsimp only)) <;> simp

@[simp] theorem keep_skipReport (s : State) (mask : Nat) : (skipReport s mask).sec.floors = s.sec.floors ∧ (skipReport s mask).pending = s.pending := by
  unfold skipReport; apply keep_foldl; intro s a; simp only [keep_iff]; (repeat' split) <;> simp

@[simp] theorem keep_portEnable (s : State) (n : Nat) : (portEnable s n).sec.floors = s.sec.floors ∧ (portEnable s n).pending = s.pending := by
  show Keep _ _; unfold portEnable; (repeat' (first | split | dsimp only)) <;> simp

@[simp] theorem keep_putBack (a s : State) (l : List Nat) : (putBack a s l).sec.floors = s.sec.floors ∧ (putBack a s l).pending = s.pending := by
  unfold putBack; simp

@[simp] theorem keep_credCheck (a s : State) (n : Nat) : (credCheck a s n).sec.floors = s.sec.floors ∧ (credCheck a s n).pending = s.pending := by
  show Keep _ _; unfold credCheck; split <;> simp

@[simp] theorem keep_boxCheck (s : State) : (boxCheck s).sec.floors = s.sec.floors ∧ (boxCheck s).pending = s.pending := by
  show Keep _ _; unfold boxCheck; (repeat' (first | split | dsimp only)) <;> simp

@[simp] theorem keep_traceEnable (s : State) : (traceEnable s).sec.floors = s.sec.floors ∧ (traceEnable s).pending = s.pending := by
  show Keep _ _; unfold traceEnable; (repeat' (first | split | dsimp only)) <;> simp

@[simp] theorem keep_liveEffect (a s : State) (k : Nat) : (liveEffect a s k).sec.floors = s.sec.floors ∧ (liveEffect a s k).pending = s.pending := by
  unfold liveEffect; grind [keep_pinChangeStart, keep_waybillDue, keep_wf, keep_foldl, keep_iff, keep_portEnable, keep_credCheck, keep_timeRoleLive, keep_traceEnable]

@[simp] theorem keep_transfer (s : State) (mask : Nat) : (transfer s mask).sec.floors = s.sec.floors ∧ (transfer s mask).pending = s.pending := by
  show Keep _ _; unfold transfer; dsimp only; split <;> simp

theorem keep_execUpdateTransfer (s : State) : ∀ t, execUpdateTransfer s = .next t → t.sec.floors = s.sec.floors ∧ t.pending = s.pending := by
  unfold execUpdateTransfer; intro t h; (repeat' (first | split at h | dsimp only at h)) <;> (injection h with h; subst h; show Keep _ _; simp)

@[simp] theorem keep_regEffect (req : Requester) (b : Blk) (off view : Nat) (v : Word) (j : Nat) (old : Word) (s : State) : (regEffect req b off view v j old s).sec.floors = s.sec.floors ∧ (regEffect req b off view v j old s).pending = s.pending := by
  show Keep _ _; unfold regEffect; (repeat' (first | split | dsimp only)) <;> simp

theorem keep_plainWrite (s : State) (req : Requester) (b : Blk) (i off view : Nat) (v : Word) : ∀ t, plainWrite s req b i off view v = .next t → t.sec.floors = s.sec.floors ∧ t.pending = s.pending := by
  unfold plainWrite; exact keep_regWriteTo _ _ _ _ _ _ _ _ (fun _ _ _ => by simp)

@[simp] theorem keep_ugrpPut (s : State) (req : Requester) (b : Blk) (i view : Nat) (v : Word) (j : Nat) : (ugrpPut s req b i view v j).sec.floors = s.sec.floors ∧ (ugrpPut s req b i view v j).pending = s.pending := by
  show Keep _ _; unfold ugrpPut; (repeat' (first | split | dsimp only)) <;> simp

@[simp] theorem keep_seqWrite (s : State) (b : Blk) (off : Nat) (v : Word) (j : Nat) : (seqWrite s b off v j).sec.floors = s.sec.floors ∧ (seqWrite s b off v j).pending = s.pending := by
  show Keep _ _; unfold seqWrite; (repeat' (first | split | dsimp only)) <;> simp

@[simp] theorem keep_landHolding (s : State) (req : Requester) (b : Blk) (i off view : Nat) : (landHolding s req b i off view).sec.floors = s.sec.floors ∧ (landHolding s req b i off view).pending = s.pending := by
  show Keep _ _; unfold landHolding; (repeat' (first | split | dsimp only)) <;> simp

theorem keep_srPageWrite (s : State) (req : Requester) (i off view : Nat) (v : Word) : ∀ t, srPageWrite s req i off view v = .next t → t.sec.floors = s.sec.floors ∧ t.pending = s.pending := by
  unfold srPageWrite; intro t h; extract_lets g r at h; have hr : ∀ s, Keep (r s) s := by intro s; unfold r; split <;> simp
  clear_value r g; split at h
  · have := keep_plainWrite _ _ _ _ _ _ _ t h; simpa [hr _ |>.1, hr _ |>.2] using this
  · injection h with h; subst h; exact hr _

theorem keep_checkedWrite (s : State) (req : Requester) (b : Blk) (i off view : Nat) (v : Word) : ∀ t, checkedWrite s req b i off view v = .next t → t.sec.floors = s.sec.floors ∧ t.pending = s.pending := by
  unfold checkedWrite; intro t h; split at h <;> first | exact keep_chCtrlWrite _ _ _ _ _ t h | exact keep_fhCmdWrite _ _ _ _ t h | exact keep_setCmdWrite _ _ _ _ t h | exact keep_srPageWrite _ _ _ _ _ _ t h | (have := keep_plainWrite _ _ _ _ _ _ _ t h; simpa using this)

theorem keep_pageWrite (s : State) (req : Requester) (b : Blk) (i off view : Nat) (v : Word) : ∀ t, pageWrite s req b i off view v = .next t → t.sec.floors = s.sec.floors ∧ t.pending = s.pending := by
  unfold pageWrite; intro t h
  split at h
  · injection h with h; subst h; show Keep _ _; simp
  split at h
  · injection h with h; subst h; show Keep _ _; simp
  split at h
  · injection h with h; subst h; show Keep _ _; simp
  extract_lets r at h
  split at h
  · split at h <;> (injection h with h; subst h; show Keep _ _; simp)
  split at h
  · split at h
    · cases h
    · injection h with h; subst h; show Keep _ _; simp
  split at h
  · injection h with h; subst h; show Keep _ _; simp
  · exact keep_checkedWrite _ _ _ _ _ _ _ t h

theorem keep_windowWrite (s : State) (req : Requester) (off size : Nat) (v : Word) : ∀ t, windowWrite s req off size v = .next t → t.sec.floors = s.sec.floors ∧ t.pending = s.pending := by
  unfold windowWrite; grind [keep_accFault, keep_setBufWrite, keep_pageWrite]

@[simp] theorem keep_answer (s : State) (req : Requester) (off : Nat) (err : Bool) (w : Word) : (answer s req off err w).sec.floors = s.sec.floors ∧ (answer s req off err w).pending = s.pending := by
  show Keep _ _; unfold answer; (repeat' (first | split | dsimp only)) <;> simp

@[simp] theorem keep_pageRead (s : State) (req : Requester) (b : Blk) (i off at_ : Nat) : (pageRead s req b i off at_).sec.floors = s.sec.floors ∧ (pageRead s req b i off at_).pending = s.pending := by
  show Keep _ _; unfold pageRead; (repeat' (first | split | dsimp only)) <;> simp

@[simp] theorem keep_windowRead (s : State) (req : Requester) (off size : Nat) : (windowRead s req off size).sec.floors = s.sec.floors ∧ (windowRead s req off size).pending = s.pending := by
  show Keep _ _; unfold windowRead; (repeat' (first | split | dsimp only)) <;> simp

/-! ### Resets -/

@[simp] theorem keep_bootState (s : State) (code : Nat) (fallback : Bool) : (bootState s code fallback).sec.floors = s.sec.floors ∧ (bootState s code fallback).pending = s.pending := by
  show Keep _ _; unfold bootState; dsimp only; split <;> simp

@[simp] theorem keep_bootPackages (s : State) : (bootPackages s).sec.floors = s.sec.floors ∧ (bootPackages s).pending = s.pending := by
  show Keep _ _; unfold bootPackages; dsimp only; split <;> simp

@[simp] theorem keep_bootCore (s : State) (fell : Bool) : (bootCore s fell).sec.floors = s.sec.floors ∧ (bootCore s fell).pending = s.pending := by
  show Keep _ _; unfold bootCore; dsimp only; split <;> simp

@[simp] theorem keep_bootChain (s : State) : (bootChain s).sec.floors = s.sec.floors ∧ (bootChain s).pending = s.pending := by
  show Keep _ _; unfold bootChain; dsimp only; split <;> simp

@[simp] theorem keep_clearVerdicts (s : State) : (clearVerdicts s).sec.floors = s.sec.floors ∧ (clearVerdicts s).pending = s.pending := by
  show Keep _ _; unfold clearVerdicts; dsimp only; split <;> simp

@[simp] theorem keep_routeApply (s : State) (r : List Byte) : (routeApply s r).sec.floors = s.sec.floors ∧ (routeApply s r).pending = s.pending := by
  unfold routeApply; apply keep_foldl; intro s a; simp only [keep_iff]; (repeat' split) <;> simp

@[simp] theorem keep_recordsApply (s : State) : (recordsApply s).sec.floors = s.sec.floors ∧ (recordsApply s).pending = s.pending := by
  show Keep _ _; unfold recordsApply; (repeat' (first | split | dsimp only)) <;> simp

@[simp] theorem keep_portsKept (s : State) : (portsKept s).sec.floors = s.sec.floors ∧ (portsKept s).pending = s.pending := by
  unfold portsKept; apply keep_foldl; intro s a; simp only [keep_iff]; (repeat' split) <;> simp

@[simp] theorem keep_fencesRetest (s : State) (ms : List (Nat × Measured)) : (fencesRetest s ms).sec.floors = s.sec.floors ∧ (fencesRetest s ms).pending = s.pending := by
  unfold fencesRetest; apply keep_foldl; intro s a; simp only [keep_iff]; (repeat' split) <;> simp

@[simp] theorem keep_spareGive (s : State) (l : List Nat) : (spareGive s l).sec.floors = s.sec.floors ∧ (spareGive s l).pending = s.pending := by
  unfold spareGive; apply keep_foldl; intro s a; simp only [keep_iff]; (repeat' split) <;> simp

@[simp] theorem keep_rolesRebuild (s : State) : (rolesRebuild s).sec.floors = s.sec.floors ∧ (rolesRebuild s).pending = s.pending := by
  unfold rolesRebuild; grind [keep_wf, keep_degraded, keep_spareGive, keep_foldl, keep_iff]

theorem keep_presetEntry (s : State) (off : Nat) (v : Word) (t : State) (b : Bool) (h : presetEntry s off v = .next (t, b)) : t.sec.floors = s.sec.floors ∧ t.pending = s.pending := by
  unfold presetEntry at h; split at h
  · injection h with h; injection h with h; subst h; exact ⟨rfl, rfl⟩
  · extract_lets old at h; split at h
    · next u hu =>
      have k := keep_windowWrite _ _ _ _ _ u hu
      rw [(keep_wf _ _ _ _).1, (keep_wf _ _ _ _).2] at k
      split at h <;> (injection h with h; injection h with h; subst h; simp [k])
    · cases h
    · cases h

theorem keep_presetRun (l : List (Nat × Word)) (n k : Nat) (s t : State) (h : presetRun l n k s = .next t) : t.sec.floors = s.sec.floors ∧ t.pending = s.pending := by
  induction l generalizing n k s with
  | nil => unfold presetRun at h; injection h with h; subst h; simp
  | cons e l ih =>
    unfold presetRun at h; split at h
    · next u hu => have a := ih _ _ _ h; have b := keep_presetEntry _ _ _ _ _ hu; exact ⟨a.1.trans b.1, a.2.trans b.2⟩
    · next u hu => have a := ih _ _ _ h; have b := keep_presetEntry _ _ _ _ _ hu; exact ⟨a.1.trans b.1, a.2.trans b.2⟩
    · cases h
    · cases h

theorem keep_presetApply (s : State) (rest : State → State) (hr : ∀ s, Keep (rest s) s) (t : State) (h : presetApply s rest = .next t) : t.sec.floors = s.sec.floors ∧ t.pending = s.pending := by
  unfold presetApply at h; split at h
  · next u hu =>
    injection h with h; subst h
    have a := keep_presetRun _ _ _ _ _ hu
    have b := hr (transfer u 0xFFFF)
    simp only [keep_iff, keep_transfer] at b
    exact ⟨b.1.trans a.1, b.2.trans a.2⟩
  · cases h
  · cases h

@[simp] theorem keep_alertAgain (s : State) : (alertAgain s).sec.floors = s.sec.floors ∧ (alertAgain s).pending = s.pending := by
  show Keep _ _; unfold alertAgain; (repeat' (first | split | dsimp only)) <;> simp

@[simp] theorem keep_hostRelease (s : State) : (hostRelease s).sec.floors = s.sec.floors ∧ (hostRelease s).pending = s.pending := by
  show Keep _ _; unfold hostRelease; (repeat' (first | split | dsimp only)) <;> simp

@[simp] theorem keep_partsCheck (s : State) (ms : List (Nat × Measured)) (ps : List Nat) : (partsCheck s ms ps).sec.floors = s.sec.floors ∧ (partsCheck s ms ps).pending = s.pending := by
  show Keep _ _; unfold partsCheck; (repeat' (first | split | dsimp only)) <;> simp

@[simp] theorem keep_bootStart (s : State) (cause : Nat) : (bootStart s cause).sec.floors = s.sec.floors ∧ (bootStart s cause).pending = s.pending := by
  show Keep _ _; unfold bootStart; (repeat' (first | split | dsimp only)) <;> simp

@[simp] theorem keep_bootParts (s : State) (ms : List (Nat × Measured)) : (bootParts s ms).sec.floors = s.sec.floors ∧ (bootParts s ms).pending = s.pending := by
  show Keep _ _; unfold bootParts; (repeat' (first | split | dsimp only)) <;> simp

theorem keep_boot (s : State) (cause : Nat) (ms : List (Nat × Measured)) : ∀ t, boot s cause ms = .next t → t.sec.floors = s.sec.floors ∧ t.pending = s.pending := by
  unfold boot; intro t h
  dsimp only at h
  split at h
  · injection h with h; subst h; show Keep _ _; simp
  · have k := keep_presetApply _ _ (fun s => by simp) t h; simpa using k

@[simp] theorem keep_hubBase (s : State) (ps : List Nat) : (hubBase s ps).sec.floors = s.sec.floors ∧ (hubBase s ps).pending = s.pending := by
  show Keep _ _; unfold hubBase; (repeat' (first | split | dsimp only)) <;> simp

@[simp] theorem keep_hubQuiesce (s : State) (ms : List (Nat × Measured)) (ps : List Nat) : (hubQuiesce s ms ps).sec.floors = s.sec.floors ∧ (hubQuiesce s ms ps).pending = s.pending := by
  show Keep _ _; unfold hubQuiesce; (repeat' (first | split | dsimp only)) <;> simp

@[simp] theorem keep_hubStart (s : State) (ms : List (Nat × Measured)) (ps : List Nat) : (hubStart s ms ps).sec.floors = s.sec.floors ∧ (hubStart s ms ps).pending = s.pending := by
  show Keep _ _; unfold hubStart; (repeat' (first | split | dsimp only)) <;> simp

@[simp] theorem keep_hubBring (s : State) (ms : List (Nat × Measured)) (ps : List Nat) (was : State) : (hubBring s ms ps was).sec.floors = s.sec.floors ∧ (hubBring s ms ps was).pending = s.pending := by
  show Keep _ _; unfold hubBring; dsimp only; split <;> simp

@[simp] theorem keep_hubDone (s : State) : (hubDone s).sec.floors = s.sec.floors ∧ (hubDone s).pending = s.pending := by
  show Keep _ _; unfold hubDone; (repeat' (first | split | dsimp only)) <;> simp

theorem keep_hubReset (was : State) (ms : List (Nat × Measured)) : ∀ t, hubReset was ms = .next t → t.sec.floors = was.sec.floors ∧ t.pending = was.pending := by
  unfold hubReset; intro t h
  dsimp only at h
  split at h
  · injection h with h; subst h; show Keep _ _; simp
  · have k := keep_presetApply _ _ (fun s => by simp) t h; simpa using k

theorem keep_pkgEffect (view : Nat) (v : Word) (ms : List (Nat × Measured)) (s : State) : ∀ t, pkgEffect view v ms s = .next t → t.sec.floors = s.sec.floors ∧ t.pending = s.pending := by
  unfold pkgEffect; grind [keep_rstRefuse, keep_boot, keep_hubReset]

theorem keep_pkgCmdWrite (req : Requester) (view : Nat) (v : Word) (ms : List (Nat × Measured)) (s : State) : ∀ t, pkgCmdWrite req view v ms s = .next t → t.sec.floors = s.sec.floors ∧ t.pending = s.pending := by
  unfold pkgCmdWrite; intro t h
  split at h
  · injection h with h; subst h; show Keep _ _; simp
  split at h
  · injection h with h; subst h; show Keep _ _; simp
  split at h
  · next u hu =>
    have a := keep_regWriteTo _ _ _ _ _ _ _ _ (fun _ _ _ => by simp) u hu
    have b := keep_pkgEffect _ _ _ _ t h
    split at b <;> simp_all
  · cases h
  · cases h

theorem keep_execPackageReset (req : Requester) (value : Word) (ms : List (Nat × Measured)) (s : State) : ∀ t, execPackageReset req value ms s = .next t → t.sec.floors = s.sec.floors ∧ t.pending = s.pending := by
  unfold execPackageReset; grind [keep_pkgCmdWrite]

theorem keep_execHubReset (req : Requester) (value : Word) (ms : List (Nat × Measured)) (s : State) : ∀ t, execHubReset req value ms s = .next t → t.sec.floors = s.sec.floors ∧ t.pending = s.pending := by
  unfold execHubReset; grind [keep_pkgCmdWrite]

theorem keep_execResetNAssert (ms : List (Nat × Measured)) (s : State) : ∀ t, execResetNAssert ms s = .next t → t.sec.floors = s.sec.floors ∧ t.pending = s.pending := by
  unfold execResetNAssert; intro t h
  dsimp only at h
  split at h
  · have k := keep_boot _ _ _ t h; simpa using k
  · injection h with h; subst h; show Keep _ _; simp

theorem keep_execResetNRelease (s : State) : ∀ t, execResetNRelease s = .next t → t.sec.floors = s.sec.floors ∧ t.pending = s.pending := by
  unfold execResetNRelease; intro t h; (repeat' (first | split at h | dsimp only at h)) <;> (injection h with h; subst h; show Keep _ _; simp)

theorem keep_execPgMainAssert (ms : List (Nat × Measured)) (s : State) : ∀ t, execPgMainAssert ms s = .next t → t.sec.floors = s.sec.floors ∧ t.pending = s.pending := by
  unfold execPgMainAssert; grind [keep_mainOn, keep_boot]

theorem keep_execRootLock (ms : List (Nat × Measured)) (s : State) : ∀ t, execRootLock ms s = .next t → t.sec.floors = s.sec.floors ∧ t.pending = s.pending := by
  unfold execRootLock; grind [keep_boot]

theorem keep_regWriteAny (s : State) (req : Requester) (off size : Nat) (v : Word) : ∀ t, regWriteAny s req off size v = .next t → t.sec.floors = s.sec.floors ∧ t.pending = s.pending := by
  unfold regWriteAny; grind [keep_windowWrite, keep_pkgCmdWrite]

theorem keep_kindWrite (s : State) (req : Requester) (off : Nat) (v : Word) (kind : Blk → Nat → Nat → Bool) : ∀ t, kindWrite s req off v kind = .next t → t.sec.floors = s.sec.floors ∧ t.pending = s.pending := by
  unfold kindWrite; grind [keep_regWriteAny]

theorem keep_execRegWrite (req : Requester) (off size : Nat) (value : Word) (s : State) : ∀ t, execRegWrite req off size value s = .next t → t.sec.floors = s.sec.floors ∧ t.pending = s.pending := by
  unfold execRegWrite; grind [keep_regWriteAny]

theorem keep_execRegRead (req : Requester) (off size : Nat) (s : State) : ∀ t, execRegRead req off size s = .next t → t.sec.floors = s.sec.floors ∧ t.pending = s.pending := by
  unfold execRegRead; intro t h; (repeat' (first | split at h | dsimp only at h)) <;> (injection h with h; subst h; show Keep _ _; simp)

theorem keep_execReadLo (req : Requester) (off : Nat) (s : State) : ∀ t, execReadLo req off s = .next t → t.sec.floors = s.sec.floors ∧ t.pending = s.pending := by
  unfold execReadLo; intro t h; (repeat' (first | split at h | dsimp only at h)) <;> (injection h with h; subst h; show Keep _ _; simp)

theorem keep_execWriteLo (req : Requester) (off : Nat) (value : Word) (s : State) : ∀ t, execWriteLo req off value s = .next t → t.sec.floors = s.sec.floors ∧ t.pending = s.pending := by
  unfold execWriteLo; grind [keep_kindWrite]

theorem keep_execWriteHi (req : Requester) (off : Nat) (value : Word) (s : State) : ∀ t, execWriteHi req off value s = .next t → t.sec.floors = s.sec.floors ∧ t.pending = s.pending := by
  unfold execWriteHi; grind [keep_kindWrite]

theorem keep_execSetAliasWrite (req : Requester) (off : Nat) (value : Word) (s : State) : ∀ t, execSetAliasWrite req off value s = .next t → t.sec.floors = s.sec.floors ∧ t.pending = s.pending := by
  unfold execSetAliasWrite; grind [keep_kindWrite]

theorem keep_execClearAliasWrite (req : Requester) (off : Nat) (value : Word) (s : State) : ∀ t, execClearAliasWrite req off value s = .next t → t.sec.floors = s.sec.floors ∧ t.pending = s.pending := by
  unfold execClearAliasWrite; grind [keep_kindWrite]

theorem keep_execToggleAliasWrite (req : Requester) (off : Nat) (value : Word) (s : State) : ∀ t, execToggleAliasWrite req off value s = .next t → t.sec.floors = s.sec.floors ∧ t.pending = s.pending := by
  unfold execToggleAliasWrite; grind [keep_kindWrite]

theorem keep_execUgrpWrite (req : Requester) (off : Nat) (value : Word) (s : State) : ∀ t, execUgrpWrite req off value s = .next t → t.sec.floors = s.sec.floors ∧ t.pending = s.pending := by
  unfold execUgrpWrite; grind [keep_kindWrite]

theorem keep_execHubUpdStrobe (req : Requester) (value : Word) (s : State) : ∀ t, execHubUpdStrobe req value s = .next t → t.sec.floors = s.sec.floors ∧ t.pending = s.pending := by
  unfold execHubUpdStrobe; grind [keep_windowWrite]

theorem keep_execHubUpdDiscard (req : Requester) (value : Word) (s : State) : ∀ t, execHubUpdDiscard req value s = .next t → t.sec.floors = s.sec.floors ∧ t.pending = s.pending := by
  unfold execHubUpdDiscard; grind [keep_windowWrite]

theorem keep_execSeqWriteBack (req : Requester) (off : Nat) (value : Word) (s : State) : ∀ t, execSeqWriteBack req off value s = .next t → t.sec.floors = s.sec.floors ∧ t.pending = s.pending := by
  unfold execSeqWriteBack; grind [keep_kindWrite]

end Sys2Proof.Laws
end

