-- ==== Sys2Proof/Laws/Times.lean ====
section
/-! SUPPORT. What the time base, the ledger and snapshots leave alone. -/

namespace Sys2Proof.Laws

open Sys2Proof.Machine Sys2Proof.Safety

theorem onlyRegs_time {ks s t} (h : onlyRegs ks s t) : t.time = s.time := by rw [h.2]
theorem onlyEvents_time {ks s t} (h : onlyEvents ks s t) : t.time = s.time := by rw [h.2]

theorem rf2_ledger (s : State) (l : LedgerSt) (f g : Fld) (i : Nat) : rf2 { s with ledger := l } f g i = rf2 s f g i := rfl

theorem wf2_rel (s : State) (lo hi : Fld) (i v : Nat) : onlyRegs [lo.key i, hi.key i] s (wf2 s lo hi i v) := by
  unfold wf2
  exact onlyRegs_trans (onlyRegs_wf _ _ (List.mem_cons_self ..)) (onlyRegs_wf _ _ (List.mem_cons_of_mem _ (List.mem_cons_self ..)))

theorem fresh_regs (s : State) : (fresh s).2 = { s with free := (fresh s).2.free } := rfl

/-- The integer taken for a quotient is within a half of twice it. -/
theorem roundFree_facts (s : State) (num : Int) : ∃ m : Nat, (roundFree s num 2).1 = { s with free := m } ∧
    2 * (roundFree s num 2).2 - num ≤ 1 ∧ num - 2 * (roundFree s num 2).2 ≤ 1 := by
  unfold roundFree
  dsimp only
  split
  · rename_i h
    exact ⟨s.free, rfl, by omega, by omega⟩
  · refine ⟨_, fresh_regs s, ?_, ?_⟩
    · show 2 * (num / 2 + (((fresh s).1 % 2 : Nat) : Int)) - num ≤ 1
      generalize (fresh s).1 = v
      omega
    · show num - 2 * (num / 2 + (((fresh s).1 % 2 : Nat) : Int)) ≤ 1
      generalize (fresh s).1 = v
      omega

theorem cmd_table : (findReg .ledger 4).any (fun r => r.maskOf (fun a => a == .rw || a == .tmr) == 4) = true := by decide +kernel

end Sys2Proof.Laws
end

