-- ==== Sys2Proof/Laws/Powers.lean ====
section
/-! SUPPORT. What the power island, the resets and the power states leave alone. -/

namespace Sys2Proof.Laws

open Sys2Proof.Machine Sys2Proof.Safety

theorem onlyRegs_power {ks s t} (h : onlyRegs ks s t) : t.power = s.power := by rw [h.2]
theorem onlyEvents_power {ks s t} (h : onlyEvents ks s t) : t.power = s.power := by rw [h.2]

/-- The throttle level is set, and nothing but its field and the event's register changes. -/
theorem setLevel_facts (s : State) (l : Nat) (hl : l < 16) : rf (setLevel s l) F.PWR_STATUS_LEVEL 0 = l ∧ (setLevel s l).power = s.power ∧
    ∀ g : Fld, g.key 0 = F.PWR_STATUS_LEVEL.key 0 → g.hi < 32 → (g.hi < 0 ∨ 3 < g.lo) → rf (setLevel s l) g 0 = rf s g 0 := by
  obtain ⟨u, hu⟩ : ∃ u, u = wf s F.PWR_STATUS_LEVEL 0 l := ⟨_, rfl⟩
  have h1 : rf u F.PWR_STATUS_LEVEL 0 = l := by rw [hu, rf_wf_same _ _ _ _ (by decide) (by decide)]; exact Nat.mod_eq_of_lt hl
  have h2 : u.power = s.power := by rw [hu]; exact onlyRegs_power (onlyRegs_wf (ks := [F.PWR_STATUS_LEVEL.key 0]) s (f := F.PWR_STATUS_LEVEL) (i := 0) l (List.mem_singleton.mpr rfl))
  have h3 : ∀ g : Fld, g.key 0 = F.PWR_STATUS_LEVEL.key 0 → g.hi < 32 → (g.hi < 0 ∨ 3 < g.lo) → rf u g 0 = rf s g 0 := by
    intro g hk h32 hd
    rw [hu]
    exact rf_wf_disj s F.PWR_STATUS_LEVEL g 0 0 l hk (by decide) h32 hd
  unfold setLevel
  rw [← hu]
  dsimp only
  split
  · refine ⟨?_, ?_, fun g hk h32 hd => ?_⟩
    · rw [rf_ev_ne _ F.PWR_EVENT_THROTTLE F.PWR_STATUS_LEVEL 0 0 (by decide)]; exact h1
    · rw [onlyEvents_power (onlyEvents_ev (ks := [F.PWR_EVENT_THROTTLE.key 0]) u (f := F.PWR_EVENT_THROTTLE) (i := 0) (List.mem_singleton.mpr rfl))]; exact h2
    · rw [rf_ev_ne _ F.PWR_EVENT_THROTTLE g 0 0 (by rw [hk]; decide)]; exact h3 g hk h32 hd
  · exact ⟨h1, h2, h3⟩

theorem rf_power (s : State) (p : PowerSt) (f : Fld) (i : Nat) : rf { s with power := p } f i = rf s f i := rfl

theorem rf_setSums (s : State) (a b c : Nat) (f : Fld) (i : Nat) : rf (setSums s a b c) f i = rf s f i := rfl

/-- An in-band interrupt changes I3C_BSTAT and the count of interrupts, and nothing else. -/
theorem bstat_facts (s : State) (f : Fld) (b : Bool) : (bstat s f b).cores = s.cores ∧ (bstat s f b).parts = s.parts ∧ (bstat s f b).time = s.time ∧
    ∃ n, (bstat s f b).power = { s.power with ibis := n } := by
  have h := onlyRegs_wf (ks := [f.key 0]) s (f := f) (i := 0) (b2n b) (List.mem_singleton.mpr rfl)
  unfold bstat
  dsimp only
  split
  · refine ⟨(onlyRegs_cores h : (wf s f 0 (b2n b)).cores = s.cores), (onlyRegs_parts h : (wf s f 0 (b2n b)).parts = s.parts), (onlyRegs_time h : (wf s f 0 (b2n b)).time = s.time), (wf s f 0 (b2n b)).power.ibis + 1, ?_⟩
    show { (wf s f 0 (b2n b)).power with ibis := (wf s f 0 (b2n b)).power.ibis + 1 } = _
    rw [onlyRegs_power h]
  · refine ⟨onlyRegs_cores h, onlyRegs_parts h, onlyRegs_time h, s.power.ibis, ?_⟩
    rw [onlyRegs_power h]

theorem mainOn_facts (s : State) : (mainOn s).cores = s.cores ∧ (mainOn s).parts = s.parts ∧ (mainOn s).time = s.time ∧
    ∃ n, (mainOn s).power = { s.power with ibis := n } := bstat_facts _ _ _

theorem settingsFinish_facts (s : State) : (settingsFinish s).power = s.power ∧ (settingsFinish s).time = s.time ∧ (settingsFinish s).sec = s.sec := by
  have hw : ∀ (u : State) (f : Fld) (n : Nat), (wf u f 0 n).power = u.power ∧ (wf u f 0 n).time = u.time ∧ (wf u f 0 n).sec = u.sec := fun u f n => by
    obtain ⟨r, m, e⟩ := wf_parts u f 0 n
    rw [e]; exact ⟨rfl, rfl, rfl⟩
  have hE : ∀ (u : State) (f : Fld), (ev u f 0).power = u.power ∧ (ev u f 0).time = u.time ∧ (ev u f 0).sec = u.sec := fun u f => by
    have h := (onlyEvents_ev (ks := [f.key 0]) u (f := f) (i := 0) (List.mem_singleton.mpr rfl)).2
    rw [h]; exact ⟨rfl, rfl, rfl⟩
  unfold settingsFinish setFail
  dsimp only
  split
  · exact ⟨rfl, rfl, rfl⟩
  all_goals
    refine ⟨?_, ?_, ?_⟩ <;> simp only [hw, hE]

/-- The package held in reset: nothing outside the island lasts, and time and the MRAM do. -/
theorem holdPackage_facts (s : State) : (holdPackage s).power = { s.power with lowSums := 0, topSums := 0, coolSums := 0, failed := [], root := false, held := true, hostResetN := false, perstN := false } ∧
    (holdPackage s).time.now = s.time.now ∧ (holdPackage s).cores = [] ∧ (holdPackage s).parts = [] ∧ rf (holdPackage s) F.RST_STATUS_IN_RESET 0 = 0xFFFFF := by
  obtain ⟨u, hu⟩ : ∃ u, u = islandBase s := ⟨_, rfl⟩
  have hp : u.power = { s.power with lowSums := 0, topSums := 0, coolSums := 0, failed := [] } := by
    rw [hu]
    show { (settingsFinish s).power with lowSums := 0, topSums := 0, coolSums := 0, failed := [] } = _
    rw [(settingsFinish_facts s).1]
  have ht : u.time.now = s.time.now := by
    rw [hu]
    show (settingsFinish s).time.now = _
    rw [(settingsFinish_facts s).2.1]
  have hr := onlyRegs_wf (ks := [F.RST_STATUS_IN_RESET.key 0]) u (f := F.RST_STATUS_IN_RESET) (i := 0) 0xFFFFF (List.mem_singleton.mpr rfl)
  unfold holdPackage allInReset
  rw [← hu]
  dsimp only
  refine ⟨?_, ?_, ?_, ?_, ?_⟩
  · rw [onlyRegs_power hr, hp]
  · rw [onlyRegs_time hr, ht]
  · rw [onlyRegs_cores hr, hu]; rfl
  · rw [onlyRegs_parts hr, hu]; rfl
  · refine (rf_power _ _ _ _).trans ((rf_wf_same u F.RST_STATUS_IN_RESET 0 0xFFFFF (by decide) (by decide)).trans ?_)
    decide

/-- A failed rail or a trip stops the root and the main rails. -/
theorem railLoss_facts (s : State) (f : Fld) : (railLoss s f).power.root = false ∧ (railLoss s f).power.enMain = false ∧ (railLoss s f).power.railFail = true ∧
    (railLoss s f).cores = [] ∧ (railLoss s f).parts = [] := by
  obtain ⟨x, hx⟩ : ∃ x : State, x = { s with settings := { s.settings with busy := 0, data := [] } } := ⟨_, rfl⟩
  obtain ⟨h1, h2, h3, h4, h5⟩ := holdPackage_facts x
  obtain ⟨y, hy⟩ : ∃ y : State, y = { holdPackage x with power := { (holdPackage x).power with enMain := false, pgMain := false, railFail := true, cause := 1, inP3 := false } } := ⟨_, rfl⟩
  obtain ⟨a1, a2, a3, n, a4⟩ := bstat_facts y F.I3C_BSTAT_IN_P3 false
  obtain ⟨b1, b2, b3, m, b4⟩ := bstat_facts (bstat y F.I3C_BSTAT_IN_P3 false) f true
  obtain ⟨c1, c2, c3, k, c4⟩ := mainOn_facts (bstat (bstat y F.I3C_BSTAT_IN_P3 false) f true)
  have e : railLoss s f = mainOn (bstat (bstat y F.I3C_BSTAT_IN_P3 false) f true) := by rw [hy, hx]; rfl
  rw [e, c1, c2, c4, b1, b2, b4, a1, a2, a4, hy]
  exact ⟨congrArg PowerSt.root h1, rfl, rfl, h3, h4⟩

theorem coldBase_facts (s : State) : (coldBase s).time.now = 0 ∧ (coldBase s).cores = [] ∧ (coldBase s).parts = [] ∧ (coldBase s).settings.records = s.settings.records ∧
    (coldBase s).sec.floors = s.sec.floors ∧ (coldBase s).sec.images = s.sec.images := by
  obtain ⟨x, hx⟩ : ∃ x : State, x = { s with settings := { s.settings with busy := 0, data := [] } } := ⟨_, rfl⟩
  have e : settingsFinish x = x := by
    have : x.settings.busy = 0 := by rw [hx]
    unfold settingsFinish
    dsimp only
    rw [this]
    rfl
  refine ⟨rfl, rfl, rfl, ?_, ?_, ?_⟩
  · show (settingsFinish { s with settings := { s.settings with busy := 0, data := [] } }).settings.records = _
    rw [← hx, e, hx]
  · show (settingsFinish { s with settings := { s.settings with busy := 0, data := [] } }).sec.floors = _
    rw [← hx, e, hx]
  · show (settingsFinish { s with settings := { s.settings with busy := 0, data := [] } }).sec.images = _
    rw [← hx, e, hx]
theorem rst_table : (findReg .rst 8).any (fun r => r.maskOf (fun a => a == .rw || a == .tmr) == 0xFFFF0000) = true := by decide +kernel

/-- A write to RST_PKG_CMD leaves the enables as they are. -/
theorem pkg_enables (s : State) (v : Word) (f : Fld) (h : f.key 0 ≠ regKey .rst 0 8) : rb (storeFields s .rst 0 8 0 v) f 0 = rb s f 0 := by
  unfold rb rf
  rw [(storeFields_word (s := s) (j := 0) rst_table 0 v).1 _ h]

/-- A write to RST_PKG_CMD that is admitted does what its value names. -/
theorem pkg_lands {req : Requester} {v : Word} {s : State} (hm : req ≠ .mgmt) (hl : lands s req .rst 0 8 v [0]) (ms : List (Nat × Measured)) :
    pkgCmdWrite req 0 v ms s = pkgEffect 0 v ms (storeFields s .rst 0 8 0 v) := by
  have hu : hubUp s = true := hl.1.1
  have e : regWriteTo s req .rst 0 8 0 v noEffect = .next (storeFields s .rst 0 8 0 v) := by
    have := regCmd_lands hl noEffect
    rw [List.foldl_cons, List.foldl_nil] at this
    exact this
  unfold pkgCmdWrite
  rw [hu, if_neg (by decide), if_neg (fun h => hm h.1), e]
  dsimp only
  rw [if_neg hm]

theorem pkg_effect (v : Word) (ms : List (Nat × Measured)) (s : State) (n : Nat) (h0 : n ≠ 0) (ha : pkgArg 0 v = n) :
    pkgEffect 0 v ms s = if ¬ rb s (if n = 2 then F.RST_EN_PKG_EN else F.RST_EN_HUB_EN) 0 then .next (rstRefuse s 1 0)
      else if wbits 31 16 v ≠ 0x5253 then .next (rstRefuse s 3 0) else if n = 2 then boot s 2 ms else hubReset s ms := by
  unfold pkgEffect
  dsimp only
  rw [ha, if_neg h0]

theorem boot_recovery {s : State} {c : Nat} (ms : List (Nat × Measured)) (h : inRecovery (bootStart s c) = true) : boot s c ms = .next (allInReset (bootStart s c)) := by
  unfold boot
  dsimp only
  rw [h, if_pos rfl]

theorem presetApply_next {s t : State} {rest : State → State} (hp : presetRun (presetEntries s) 0 0 s = .next t) :
    presetApply s rest = .next (rest (transfer t 0xFFFF)) := by
  unfold presetApply
  rw [hp]

theorem boot_presets {s t : State} {c : Nat} {ms : List (Nat × Measured)} (h : inRecovery (bootStart s c) = false)
    (hp : presetRun (presetEntries (bootParts (bootStart s c) ms)) 0 0 (bootParts (bootStart s c) ms) = .next t) :
    boot s c ms = .next (hostRelease (transfer t 0xFFFF)) := by
  unfold boot
  dsimp only
  rw [h, if_neg (by decide)]
  exact presetApply_next hp

theorem p2Refuse_facts (s : State) (r p : Nat) : rf (p2Refuse s r p) F.PWR_INFO_REASON 0 = r % 16 ∧ rf (p2Refuse s r p) F.PWR_EVENT_P2_REFUSED 0 = 1 := by
  unfold p2Refuse
  refine ⟨?_, rf_ev_same _ _ _ (by decide) (by decide)⟩
  rw [rf_ev_ne _ F.PWR_EVENT_P2_REFUSED F.PWR_INFO_REASON 0 0 (by decide),
    rf_wf_disj _ F.PWR_INFO_PARTITION F.PWR_INFO_REASON 0 0 p rfl (by decide) (by decide) (by decide), rf_wf_same _ _ _ _ (by decide) (by decide)]
  rfl

end Sys2Proof.Laws
end

