-- ==== Sys2Proof/Laws/Secrets.lean ====
section
/-! SUPPORT. What the settings area and the security island leave alone. -/

namespace Sys2Proof.Laws

open Sys2Proof.Machine Sys2Proof.Safety

theorem onlyRegs_settings {ks s t} (h : onlyRegs ks s t) : t.settings = s.settings := by rw [h.2]
theorem onlyEvents_settings {ks s t} (h : onlyEvents ks s t) : t.settings = s.settings := by rw [h.2]
theorem onlyRegs_sec {ks s t} (h : onlyRegs ks s t) : t.sec = s.sec := by rw [h.2]
theorem onlyEvents_sec {ks s t} (h : onlyEvents ks s t) : t.sec = s.sec := by rw [h.2]

theorem set_lands {req : Requester} {v : Word} {s : State} (hl : lands s req .set 0 0 v [0]) (ha : setAllowed s req v = true) :
    setCmdWrite req 0 v s = .next (setCmdEffect req v s) := by
  unfold setCmdWrite
  refine (if_neg ?_).trans ?_
  · rintro ⟨_, h⟩
    exact h ha
  · show regCmd s req .set 0 0 v (fun _ _ s => setCmdEffect req v s) = _
    rw [regCmd_lands hl, List.foldl_cons, List.foldl_nil, pulse_any (by decide) rfl]

/-- A record is put, or the like, and its event sets. -/
theorem setDone_facts (x : State) : (ev (wf x F.SET_STATUS_RESULT 0 0) F.SET_EVENT_DONE 0).settings = x.settings ∧
    rf (ev (wf x F.SET_STATUS_RESULT 0 0) F.SET_EVENT_DONE 0) F.SET_EVENT_DONE 0 = 1 := by
  refine ⟨?_, rf_ev_same _ _ _ (by decide) (by decide)⟩
  rw [onlyEvents_settings (onlyEvents_ev (ks := [F.SET_EVENT_DONE.key 0]) _ (f := F.SET_EVENT_DONE) (i := 0) (List.mem_singleton.mpr rfl)),
    onlyRegs_settings (onlyRegs_wf (ks := [F.SET_STATUS_RESULT.key 0]) x (f := F.SET_STATUS_RESULT) (i := 0) 0 (List.mem_singleton.mpr rfl))]

theorem setFail_facts (x : State) (n : Nat) : (setFail x n).settings = x.settings ∧ rf (setFail x n) F.SET_EVENT_FAIL 0 = 1 ∧
    rf (setFail x n) F.SET_STATUS_RESULT 0 = n % 2 ^ (F.SET_STATUS_RESULT.hi + 1 - F.SET_STATUS_RESULT.lo) := by
  unfold setFail
  refine ⟨?_, rf_ev_same _ _ _ (by decide) (by decide), ?_⟩
  · rw [onlyEvents_settings (onlyEvents_ev (ks := [F.SET_EVENT_FAIL.key 0]) _ (f := F.SET_EVENT_FAIL) (i := 0) (List.mem_singleton.mpr rfl)),
      onlyRegs_settings (onlyRegs_wf (ks := [F.SET_STATUS_RESULT.key 0]) x (f := F.SET_STATUS_RESULT) (i := 0) n (List.mem_singleton.mpr rfl))]
  · rw [rf_ev_ne _ F.SET_EVENT_FAIL F.SET_STATUS_RESULT 0 0 (by decide), rf_wf_same _ _ _ _ (by decide) (by decide)]

theorem secEvent_facts (s : State) (f : Fld) (n : Nat) (h : f.lo ≤ f.hi) (h16 : f.hi < 16) : (secEvent s f n).sec = s.sec ∧ rf (secEvent s f n) f 0 = 1 := by
  unfold secEvent
  refine ⟨?_, rf_ev_same _ _ _ h h16⟩
  rw [onlyEvents_sec (onlyEvents_ev (ks := [f.key 0]) _ (f := f) (i := 0) (List.mem_singleton.mpr rfl)),
    onlyRegs_sec (onlyRegs_wf (ks := [F.SEC_INFO_REASON.key 0]) s (f := F.SEC_INFO_REASON) (i := 0) n (List.mem_singleton.mpr rfl))]

end Sys2Proof.Laws
end

