-- ==== Sys2Proof/Laws/Numbers.lean ====
section
/-! SUPPORT. What rounding a magnitude does, and the fields of the codes of the number formats. -/

namespace Sys2Proof.Laws

open Sys2Proof.Machine Sys2Proof.Safety

theorem bitLen_lt (m : Nat) : m < 2 ^ bitLen m := by
  unfold bitLen
  split
  · omega
  · exact Nat.lt_log2_self

/-- What a rounding of a magnitude does, by the exponent of its quantum. -/
theorem roundMag_quantum (p : Nat) (qmin : Option Int) (mode : Nat) (neg : Bool) (r m : Nat) (e : Int) : ∃ q : Int,
    (bitLen m : Int) + e - p ≤ q ∧ (∀ k, qmin = some k → k ≤ q) ∧ (q = (bitLen m : Int) + e - p ∨ qmin = some q) ∧
    (q ≤ e → roundMag p qmin mode neg r m e false = (m * 2 ^ (e - q).toNat, q, false)) ∧
    (e < q → let w := 2 ^ (q - e).toNat
      ∃ up : Bool, roundMag p qmin mode neg r m e false = (if up then m / w + 1 else m / w, q, decide (m % w ≠ 0)) ∧
        (mode = 0 → up = (decide (2 ^ ((q - e).toNat - 1) < m % w) || (m % w == 2 ^ ((q - e).toNat - 1) && (m / w % 2 == 1)))) ∧
        (mode = 1 → up = false) ∧ (mode = 2 → up = (decide (m % w ≠ 0) && !neg)) ∧ (mode = 3 → up = (decide (m % w ≠ 0) && neg)) ∧
        (mode = 4 → up = decide (65536 ≤ m % w * 65536 / w + r)) ∧ (5 ≤ mode → up = (decide (m % w ≠ 0) && m / w % 2 == 0))) := by
  have key : ∀ q : Int, (qmin = none → q = (bitLen m : Int) + e - p) → (∀ k, qmin = some k → q = max ((bitLen m : Int) + e - p) k) →
      (q ≤ e → roundMag p qmin mode neg r m e false = (m * 2 ^ (e - q).toNat, q, false)) ∧
      (e < q → let w := 2 ^ (q - e).toNat
        ∃ up : Bool, roundMag p qmin mode neg r m e false = (if up then m / w + 1 else m / w, q, decide (m % w ≠ 0)) ∧
          (mode = 0 → up = (decide (2 ^ ((q - e).toNat - 1) < m % w) || (m % w == 2 ^ ((q - e).toNat - 1) && (m / w % 2 == 1)))) ∧
          (mode = 1 → up = false) ∧ (mode = 2 → up = (decide (m % w ≠ 0) && !neg)) ∧ (mode = 3 → up = (decide (m % w ≠ 0) && neg)) ∧
          (mode = 4 → up = decide (65536 ≤ m % w * 65536 / w + r)) ∧ (5 ≤ mode → up = (decide (m % w ≠ 0) && m / w % 2 == 0))) := by
    intro q hn hs
    have body : roundMag p qmin mode neg r m e false = if q - e ≤ 0 then (m * 2 ^ (-(q - e)).toNat, q, false) else
        (if (match mode with
          | 0 => decide (2 ^ ((q - e).toNat - 1) < m % 2 ^ (q - e).toNat) || (m % 2 ^ (q - e).toNat == 2 ^ ((q - e).toNat - 1) && (false || m / 2 ^ (q - e).toNat % 2 == 1))
          | 1 => false
          | 2 => (decide (m % 2 ^ (q - e).toNat ≠ 0) || false) && !neg
          | 3 => (decide (m % 2 ^ (q - e).toNat ≠ 0) || false) && neg
          | 4 => decide (65536 ≤ m % 2 ^ (q - e).toNat * 65536 / 2 ^ (q - e).toNat + r)
          | _ => (decide (m % 2 ^ (q - e).toNat ≠ 0) || false) && m / 2 ^ (q - e).toNat % 2 == 0) then m / 2 ^ (q - e).toNat + 1
          else m / 2 ^ (q - e).toNat, q, decide (m % 2 ^ (q - e).toNat ≠ 0) || false) := by
      cases qmin with
      | none => rw [hn rfl]; rfl
      | some k => rw [hs k rfl]; rfl
    refine ⟨fun h => ?_, fun h => ?_⟩
    · rw [body, if_pos (by omega), show -(q - e) = e - q by omega]
    · intro w
      rw [if_neg (show ¬ q - e ≤ 0 by omega), Bool.or_false] at body
      refine ⟨_, body, ?_, ?_, ?_, ?_, ?_, ?_⟩
      · rintro rfl; rfl
      · rintro rfl; rfl
      · rintro rfl; rfl
      · rintro rfl; rfl
      · rintro rfl; rfl
      · intro h5
        obtain ⟨k, rfl⟩ : ∃ k, mode = k + 5 := ⟨mode - 5, by omega⟩
        rfl
  cases qmin with
  | none => exact ⟨_, Int.le_refl _, (fun _ h => by cases h), .inl rfl, key _ (fun _ => rfl) (fun _ h => by cases h)⟩
  | some k =>
    refine ⟨max ((bitLen m : Int) + e - p) k, by omega, fun j h => by cases h; omega, ?_, key _ (fun h => by cases h) (fun j h => by cases h; rfl)⟩
    rcases Int.le_total ((bitLen m : Int) + e - p) k with h | h
    · exact .inr (by rw [Int.max_eq_right h])
    · exact .inl (Int.max_eq_left h)

theorem bitLen_of (k n : Nat) (h : 2 ^ k ≤ n) (h2 : n < 2 ^ (k + 1)) : bitLen n = k + 1 := by
  have : n ≠ 0 := by have := Nat.two_pow_pos k; omega
  unfold bitLen
  rw [if_neg this, (Nat.log2_eq_iff this).mpr ⟨h, h2⟩]

theorem bitLen_le (k n : Nat) (h : n < 2 ^ k) : bitLen n ≤ k := by
  unfold bitLen
  split
  · omega
  · rename_i h0
    have := (Nat.log2_lt h0).mpr h
    omega

/-- The fields of a code. -/
theorem code_fields (f : FFmt) (neg : Bool) (E F : Nat) (he : 1 ≤ f.eb) (hE : E < 2 ^ f.eb) (hF : F < 2 ^ f.fb) :
    let v := ((b2n neg * 2 ^ f.eb + E) * 2 ^ f.fb + F) * 2 ^ f.pad / 2 ^ f.pad
    bit (f.eb + f.fb) v = neg ∧ bits (f.eb + f.fb - 1) f.fb v = E ∧ v % 2 ^ f.fb = F := by
  intro v
  have hv : v = (b2n neg * 2 ^ f.eb + E) * 2 ^ f.fb + F := Nat.mul_div_cancel _ (Nat.two_pow_pos _)
  have h1 : v / 2 ^ f.fb = b2n neg * 2 ^ f.eb + E := by
    rw [hv, Nat.add_comm, Nat.add_mul_div_right _ _ (Nat.two_pow_pos _), Nat.div_eq_of_lt hF, Nat.zero_add]
  refine ⟨?_, ?_, ?_⟩
  · unfold bit bits
    rw [Nat.shiftRight_eq_div_pow, Nat.add_comm f.eb, Nat.pow_add, ← Nat.div_div_eq_div_mul, h1, Nat.add_comm (_ * _) E, Nat.add_mul_div_right _ _ (Nat.two_pow_pos _),
      Nat.div_eq_of_lt hE, Nat.zero_add, show f.fb + f.eb + 1 - (f.fb + f.eb) = 1 by omega]
    cases neg <;> rfl
  · unfold bits
    rw [Nat.shiftRight_eq_div_pow, h1, show f.eb + f.fb - 1 + 1 - f.fb = f.eb by omega, Nat.add_comm, Nat.add_mul_mod_self_right, Nat.mod_eq_of_lt hE]
  · rw [hv, Nat.add_comm, Nat.add_mul_mod_self_right, Nat.mod_eq_of_lt hF]

/-- The encoding of a value on a format's grid. -/
theorem encFin_code (f : FFmt) (neg : Bool) (E F : Nat) (hF : F < 2 ^ f.fb) :
    f.encFin neg (if E = 0 then F else 2 ^ f.fb + F) (if E = 0 then 1 - f.bias - f.fb else (E : Int) - f.bias - f.fb) =
      ((b2n neg * 2 ^ f.eb + E) * 2 ^ f.fb + F) * 2 ^ f.pad := by
  have hs : b2n neg * 2 ^ (f.eb + f.fb) = b2n neg * 2 ^ f.eb * 2 ^ f.fb := by rw [Nat.pow_add, Nat.mul_assoc]
  have h2 := Nat.two_pow_pos f.fb
  unfold FFmt.encFin
  simp only [FFmt.emin, hs]
  by_cases hE : E = 0
  · subst hE
    simp only [if_true, Nat.add_zero]
    by_cases h0 : F = 0
    · rw [if_pos h0, h0, Nat.add_zero]
    · have := bitLen_le f.fb F hF
      rw [if_neg h0, if_pos (by omega), show (1 - f.bias - ↑f.fb - (1 - f.bias - ↑f.fb)).toNat = 0 by omega, Nat.pow_zero, Nat.mul_one]
  · simp only [if_neg hE]
    have hl : bitLen (2 ^ f.fb + F) = f.fb + 1 := bitLen_of _ _ (by omega) (by rw [Nat.pow_succ]; omega)
    rw [hl, if_neg (by omega), if_neg (by omega), if_pos (by omega),
      show ((f.fb + 1 : Nat) - 1 + ((E : Int) - f.bias - f.fb) - f.fb - ((E : Int) - f.bias - f.fb)).toNat = 0 by omega,
      show ((f.fb + 1 : Nat) - 1 + ((E : Int) - f.bias - f.fb) + f.bias).toNat = E by omega, Nat.pow_zero, Nat.div_one,
      show 2 ^ f.fb + F - 2 ^ f.fb = F by omega, Nat.add_mul (b2n neg * 2 ^ f.eb)]

end Sys2Proof.Laws
end

