-- ==== Sys2Proof/WellFormed.lean ====
section
/-! DEFINITION. Well-formed commands: every index names a unit that the package has, and every field fits its width. -/

namespace Sys2Proof

/-- A global core index (R13). -/
def okCore (g : Nat) : Bool := decide (g < 260)
/-- A queue of a core (R217). -/
def okQueue (q : Nat) : Bool := decide (q < 8)
/-- A partition (R10). -/
def okPart (p : Nat) : Bool := decide (p < 20)
/-- A fabric port (R263). -/
def okPort (n : Nat) : Bool := decide (n < 24)
/-- A window offset; the host's is taken in full, 48 bits (R43, R245). -/
def okOff (o : Nat) : Bool := decide (o < 2 ^ 48)
/-- A device address: 48 bits (R164). -/
def okAddr (a : Nat) : Bool := decide (a < 2 ^ 48)

/-- A source names a core that exists. -/
def Source.wf : Source → Bool
  | .core g => okCore g
  | .hub => true
  | .maint => true

/-- A line access stays inside its 128-byte line, and a write carries its bytes (R181). -/
def LineReq.wf (r : LineReq) : Bool :=
  r.src.wf && okAddr r.addr && decide (1 ≤ r.len) && decide (r.addr % 128 + r.len ≤ 128) &&
    decide (r.data.length = if r.write then r.len else 0) && decide (r.hint < 4) && decide (r.tag < 2 ^ 32)

/-- An atomic request has an operation of R182 and carries its line when it is a line operation. -/
def AtomicReq.wf (r : AtomicReq) : Bool :=
  r.src.wf && okAddr r.addr && decide (r.op < 8) && decide (r.etype < 8) &&
    decide (r.data.length = if r.lineOp then 128 else 0) && decide (r.operand < 2 ^ 64) && decide (r.comparand < 2 ^ 64)

/-- A packet's fields fit the header of R285. -/
def Packet.wf (p : Packet) : Bool :=
  decide (p.dest < 4096) && decide (p.src < 4096) && decide (p.cls < 8) && decide (p.kind < 16) && decide (p.slice < 4096) &&
    okAddr p.addr && decide (p.payload.length ≤ 4096) && decide (p.hops < 64) && decide (p.tag < 2 ^ 32)

/-- A link block: eight slots of 128 bytes and a trailer of 32 (R264, R265). -/
def LinkBlock.wf (b : LinkBlock) : Bool :=
  decide (b.slots.length = 8) && b.slots.all (fun f => f.length == 128) && decide (b.trailer.length = 32)

/-- What training measures names channels 0 to 127, lanes 0 to 18 and cores 0 to 12. -/
def Measured.wf (m : Measured) : Bool :=
  m.laneFails.all (fun e => decide (e.1 < 128) && decide (e.2 < 19)) && m.chanFails.all (fun k => decide (k < 128)) &&
    m.coreFails.all (fun c => decide (c < 13))

/-- Measurements of several partitions. -/
def okMeasures (ms : List (Nat × Measured)) : Bool := ms.all (fun e => okPart e.1 && e.2.wf)

/-- Well-formed commands. -/
def Instr.wf : Instr → Bool
  | .regWrite _ off _ _ => okOff off
  | .readLo _ off => okOff off && off % 4 == 0
  | .writeLo _ off _ => okOff off && off % 4 == 0
  | .writeHi _ off _ => okOff off && off % 4 == 0
  | .setAliasWrite _ off _ => okOff off && off % 4 == 0 && off % 4096 / 1024 == 1
  | .clearAliasWrite _ off _ => okOff off && off % 4 == 0 && off % 4096 / 1024 == 2
  | .toggleAliasWrite _ off _ => okOff off && off % 4 == 0 && off % 4096 / 1024 == 3
  | .ugrpWrite _ off _ => okOff off && off % 4096 == 0x3FC
  | .hubUpdStrobe _ _ => true
  | .updateTransfer => true
  | .hubUpdDiscard _ _ => true
  | .seqWriteBack _ off _ => okOff off && off % 4 == 0
  | .tmrScrub => true
  | .waybillRegenerate => true
  | .meshFlitReceive b _ => decide (b < 10)
  | .wload g q => okCore g && okQueue q
  | .stream g q => okCore g && okQueue q
  | .longFreeze g _ => okCore g
  | .mxBrambleInjArm _ g _ => okCore g
  | .mxCntClr _ g => okCore g
  | .qntCntClr _ g => okCore g
  | .vchain g q => okCore g && okQueue q
  | .optim g q => okCore g && okQueue q
  | .vxBrambleInjArm _ g _ => okCore g
  | .vxCntClr _ g => okCore g
  | .sliceAccess r => r.wf
  | .lineFill p wire => okPart p && wire.all (fun e => decide (e.1 < 144))
  | .patrolScrub p n => okPart p && decide (1 ≤ n)
  | .pinChangeComplete p => okPart p
  | .flush _ p => okPart p
  | .invalidate _ p => okPart p
  | .keepRelease _ p => okPart p
  | .scCntClr _ p => okPart p
  | .sliceAtomic r => r.wf
  | .scaleStage g a m _ => okCore g && okAddr a && decide (m < 2 ^ 32)
  | .sliceScaleRoll src a st => src.wf && okAddr a && decide (st < 2 ^ 48)
  | .sliceArm src a => src.wf && okAddr a
  | .sliceContrib src a _ _ d => src.wf && okAddr a && decide (d.length = 128)
  | .reductionDone a => okAddr a
  | .retireLane _ p _ => okPart p
  | .reqOut _ p _ => okPart p
  | .memChClr _ p => okPart p
  | .memCntClr _ p => okPart p
  | .nop g q => okCore g && okQueue q
  | .flagDecl g q => okCore g && okQueue q
  | .counterSet g q => okCore g && okQueue q
  | .loopBegin g q => okCore g && okQueue q
  | .loopEnd g q => okCore g && okQueue q
  | .branch g q => okCore g && okQueue q
  | .segment g q => okCore g && okQueue q
  | .copy g q => okCore g && okQueue q
  | .atomic g q => okCore g && okQueue q
  | .lineOp g q => okCore g && okQueue q
  | .redArm g q => okCore g && okQueue q
  | .redContrib g q => okCore g && okQueue q
  | .scaleRoll g q => okCore g && okQueue q
  | .put g q => okCore g && okQueue q
  | .rcontrib g q => okCore g && okQueue q
  | .notify g q => okCore g && okQueue q
  | .descriptorComplete g q => okCore g && okQueue q
  | .signalArrive => true
  | .deferredPromotion g q => okCore g && okQueue q
  | .branchSelect g q => okCore g && okQueue q
  | .qbrselWrite _ g q _ => okCore g && okQueue q
  | .queueDiscard _ g q => okCore g && okQueue q
  | .queueResume _ g q => okCore g && okQueue q
  | .loopCountWrite _ g r _ => okCore g && decide (r < 16)
  | .deadlock g => okCore g
  | .hostLinkDown => true
  | .hqLinkRetrain _ => true
  | .dmemRd t a u => decide (t < 2 ^ 16) && okAddr a && a % 32 == 0 && decide (1 ≤ u) && decide (u ≤ 128)
  | .dmemWr a d => okAddr a && a % 32 == 0 && d.length % 32 == 0 && decide (d.length ≤ 4096)
  | .hostPacketReserved _ _ _ => true
  | .hmemRdCompletion _ st d => decide (st < 8) && decide (d.length ≤ 4096)
  | .hmemRdTimeout _ => true
  | .hqWake _ _ => true
  | .ringPoll r => decide (r < 2080)
  | .ringFetch r => decide (r < 2080)
  | .ringRun _ _ => true
  | .ringPause _ _ => true
  | .hqRingCidxWrite _ _ => true
  | .hqCqHeadWrite _ _ => true
  | .cqEnable _ _ => true
  | .interruptHoldoff c => decide (c < 64)
  | .phyTrainEnd n _ => okPort n
  | .identSend n => okPort n
  | .identTimeout n => okPort n
  | .identReceive n i => okPort n && decide (i.port < 32) && decide (i.coord < 4096)
  | .recheckTimeout n => okPort n
  | .linkBlockReceive n _ _ b => okPort n && b.wf
  | .replayTimeout n => okPort n
  | .fabLinkDown n => okPort n
  | .fabRetrain _ => true
  | .fabCntClr _ => true
  | .packetRoute i => decide (i < 28)
  | .ackReceive p => p.wf
  | .routePlan pl => decide (pl.length < 2 ^ 24)
  | .jobStart _ => true
  | .jobEnd _ => true
  | .interlude _ _ => true
  | .stepOpen _ => true
  | .pannierCopyDone => true
  | .seal _ => true
  | .close _ => true
  | .replay _ => true
  | .resolveCommit _ => true
  | .resolveFail _ => true
  | .digCompare _ => true
  | .voteLine l d => decide (l < 12) && decide (d.length = 128)
  | .voteResult d => decide (d.length = 128)
  | .voteTimeout => true
  | .digDone => true
  | .fence _ p => okPart p
  | .remount _ p => okPart p
  | .save _ => true
  | .restore _ => true
  | .adopt _ => true
  | .query _ => true
  | .ckpExport _ => true
  | .ckpImport _ => true
  | .importCommit _ => true
  | .format _ => true
  | .ckpAbort _ => true
  | .moduleReset _ => true
  | .captureEnd => true
  | .nvmeCompletion _ _ _ => true
  | .nvmeTimeout _ => true
  | .stagingLinkDown => true
  | .stagingInbound w a l d => okAddr a && decide (d.length = if w then l else 0)
  | .autoSaveStart => true
  | .hang k _ => decide (k = 1 ∨ k = 4 ∨ k = 5)
  | .partitionReset _ _ m => m.wf
  | .eventAgeOut k _ g => decide (k < 16) && decide (g < 256)
  | .exportAck _ => true
  | .clearVerdict _ => true
  | .apply _ => true
  | .retest _ => true
  | .cperSend => true
  | .fhDigestRecompute => true
  | .operatingSecond => true
  | .istWindowOpen g => okCore g
  | .istPreempt g _ => okCore g
  | .istPatternDone g p _ _ _ => okCore g && decide (p < 256)
  | .sweep _ => true
  | .abortSweep _ => true
  | .sweepDone => true
  | .testPackage _ => true
  | .ledgerTick => true
  | .timeExchange => true
  | .timeRequest p => p.wf
  | .timeResponse p => p.wf
  | .noResp => true
  | .timeSet _ _ => true
  | .snapArm _ => true
  | .snapshotTaken => true
  | .snapBcastReceive p => p.wf
  | .ledgerAck _ => true
  | .rootUnlock _ => true
  | .rootLock ms => okMeasures ms
  | .powerSum w => decide (w < 2 ^ 16)
  | .pwrAlert _ => true
  | .thermalThrottle a b c d => [a, b, c, d].all (fun t => decide (t < 256))
  | .thermtrip a b c d => [a, b, c, d].all (fun t => decide (t < 256))
  | .coldPowerOn => true
  | .resetNAssert ms => okMeasures ms
  | .packageReset _ _ ms => okMeasures ms
  | .hubReset _ _ ms => okMeasures ms
  | .railFail => true
  | .avsAckTimeout _ => true
  | .vmiLoss => true
  | .p1Enter p => okPart p
  | .p1Exit p => okPart p
  | .p2Enter _ _ _ => true
  | .p2Exit _ _ m => m.wf
  | .p3Enter _ => true
  | .p3Wake => true
  | .i3cWake => true
  | .settingsStore _ => true
  | .settingsRead _ => true
  | .settingsErase _ => true
  | .settingsDone => true
  | .routingRecordStore => true
  | .imageLoad _ => true
  | .operatorKeyEnvelope _ => true
  | .grant _ => true
  | .grantExpiry => true
  | .attestRequest n => decide (n.length = 32)
  | .secAttestGo _ => true
  | .attestDone => true
  | .regRead _ off _ => okOff off
  | .ucieTrainEnd a b => decide (a < 16) && decide (b < 16)
  | .stagingLinkTrainEnd _ => true
  | .pgMainAssert ms => okMeasures ms
  | .resetNRelease => true
  | .i3cDynamicAddress a => decide (a < 128)

end Sys2Proof
end

