-- ==== Sys2Proof/Tests/Slice0.lean ====
section
/-! SUPPORT. Witnesses of the statements' hypotheses, tests from the spec's worked examples and tables, and ill-formed terms. -/

namespace Sys2Proof.Tests

set_option Elab.async false

open Sys2Proof Sys2Proof.Machine Sys2Proof.Safety

/-! ### Witnesses: for each statement with hypotheses, states and operands that meet them, clause by clause -/

/-- `lands`, as a Bool. -/
def landsB (s : State) (req : Requester) (b : Blk) (i off : Nat) (v : Word) (l : List Nat) : Bool :=
  hubUp s && !pageDown s b i && !pageInert s b i && reached s req b i off true == some l && l.all fun j => !breaksReserved s b j off v

theorem lands_of {s : State} {req : Requester} {b : Blk} {i off : Nat} {v : Word} {l : List Nat} (h : landsB s req b i off v l = true) :
    lands s req b i off v l := by
  simp only [landsB, Bool.and_eq_true, Bool.not_eq_true', beq_iff_eq, List.all_eq_true] at h
  exact ⟨⟨h.1.1.1.1, h.1.1.1.2, h.1.1.2⟩, h.1.2, h.2⟩

theorem landsSet_of {s : State} {req : Requester} {b : Blk} {i off : Nat} {v : Word} {l : List Nat} (h : landsB s req b i off v l = true) :
    landsSet s req b i off l := ⟨(lands_of h).1, (lands_of h).2.1⟩

/-- Reset with a field set. -/
def withF (f : Fld) (i v : Nat) : State := wf State.reset f i v

theorem witness_CommandsKeepQueue : ∃ t, exec .updateTransfer State.reset = .next t := ⟨_, rfl⟩

theorem witness_FrontCommandRuns : (State.reset.withPending [.updateTransfer]).pending = .updateTransfer :: [] := rfl

theorem witness_EmptyQueueIdles : State.reset.pending = [] := rfl

theorem witness_WaybillReadOnly : hubUp State.reset = true ∧ 0xFFFC < 0x10000 ∧ 0xFFFC % 4 = 0 ∧ ∃ off, (waybillImage State.reset).length ≤ off :=
  ⟨by decide +kernel, by decide, by decide, _, Nat.le_refl _⟩

/-- Three copies: equal, each of them alone wrong, all different. -/
theorem witness_ScrubsMend : hubUp State.reset = true ∧ ([(0, 0, 0), (1, 0, 0), (0, 0, 1), (0, 1, 0), (0, 1, 2)].map fun ((a, b, c) : Nat × Nat × Nat) =>
    (decide (a = b ∧ b = c), decide (a ≠ b ∧ b = c), decide (a = b ∧ b ≠ c), decide (a ≠ b ∧ a = c), decide (a ≠ b ∧ b ≠ c ∧ a ≠ c))) =
    [(true, false, false, false, false), (false, true, false, false, false), (false, false, true, false, false), (false, false, false, true, false),
      (false, false, false, false, true)] := by decide +kernel

/-- A step that FusesStayBlown and GrantCounterNeverWraps speak of. -/
theorem witness_steps : ∃ t, step (State.reset.withPending [.grantExpiry]) = .next t := ⟨_, rfl⟩

/-- A grant of operation 1 for the key 0x100, with counter 0. -/
def aGrant : List Byte :=
  [(4, 0x544E5247), (1, 1), (1, 0), (1, 1), (1, 0), (8, Config.serial), (4, 0), (4, 0x100), (8, 10)].flatMap (fun e => toLE e.1 e.2) ++
    List.replicate (32 + 3309) 0

/-- A state with an operator key. -/
def withKey : State := { State.reset with sec := { State.reset.sec with opKeys := [List.replicate 1952 1, []] } }

theorem witness_GrantAdvancesCounter : hubUp withKey = true ∧ grantReason State.reset [] ≠ 0 ∧
    ((∀ k m g, Config.mldsaVerify k m g = true) → grantReason withKey aGrant = 0) := by
  refine ⟨by decide +kernel, by decide +kernel, fun h => ?_⟩
  unfold grantReason
  rw [if_neg (by decide +kernel), show opKey withKey (bits 0 0 (fieldLE 7 1 aGrant)) = some (List.replicate 1952 1) by decide +kernel]
  simp only [h]
  decide +kernel

theorem witness_BadAccessRefused : hubUp State.reset = true ∧ ((2 : Nat) ≠ 4 ∨ 0x20000 % 4 ≠ 0) ∧ ((4 : Nat) ≠ 4 ∨ 0x20002 % 4 ≠ 0) := by decide +kernel

/-- An offset names a register; the frame of its page is open, and the access reaches it. -/
theorem witness_register_pages : regAt 0x24008 .rst 0 8 0 ∧ regAt 0x2C004 .rst 0 4 0 = regAt 0x2C004 .rst 0 4 0 ∧
    frameOpen State.reset .rst 0 ∧ reached State.reset .host .rst 0 8 true = some [0] :=
  ⟨⟨by decide, by decide, .rst, by decide +kernel, by decide +kernel⟩, rfl, ⟨by decide +kernel, by decide +kernel, by decide +kernel⟩, by decide +kernel⟩

/-- A page offset names a register. -/
theorem regAt_of {off : Nat} {b : Blk} {i o view : Nat} (f : Blk) (h : place off = .frame f i (1024 * view + o)) (h2 : off % 4 = 0) (h3 : o < 1024)
    (h4 : b = pageOf f o) : regAt off b i o view := ⟨h2, h3, f, h, h4⟩

/-- The pair HUB_MAP_ADDR at page offsets 0x50 and 0x54. -/
theorem witness_HalvesReadAsOne : regAt 0x10050 .hub 0 0x50 0 ∧ regAt 0x10054 .hub 0 0x54 0 ∧ frameOpen State.reset .hub 0 ∧
    reached State.reset .host .hub 0 0x50 false = some [0] ∧ reached State.reset .host .hub 0 0x54 false = some [0] ∧
    isLo .hub 0x50 = true ∧ isHi .hub 0x54 = true ∧ isLo .hub 0x54 = false ∧
    (∀ hi, aget State.reset.shadow Requester.host.id ≠ some (winOff .hub 0 0x50, hi)) ∧
    aget (aput State.reset.shadow Requester.host.id (winOff .hub 0 0x50, 5)) Requester.host.id = some (winOff .hub 0 (0x54 - 4), 5) :=
  ⟨regAt_of .hub (by decide +kernel) (by decide) (by decide) (by decide), regAt_of .hub (by decide +kernel) (by decide) (by decide) (by decide),
    ⟨by decide +kernel, by decide +kernel, by decide +kernel⟩, by decide +kernel, by decide +kernel, by decide +kernel, by decide +kernel, by decide +kernel,
    (fun _ h => nomatch h), by decide +kernel⟩

theorem witness_HalvesWriteAsOne : plainReg .hub 0x54 ∧ lands State.reset .host .hub 0 0x54 0xFFFF [0] ∧
    (∀ lo, aget State.reset.holding Requester.host.id ≠ some (winOff .hub 0 0x50, lo)) ∧
    reached State.reset .host .hub 0 0x50 true = some [0] :=
  ⟨by unfold plainReg; decide +kernel, lands_of (by decide +kernel), (fun _ h => nomatch h), by decide +kernel⟩

/-- The host has written the lower half. -/
def halfHeld : State := { State.reset with holding := [(Requester.host.id, (winOff .hub 0 0x50, 7))] }

theorem witness_HalvesWriteAsOne_held : aget halfHeld.holding Requester.host.id = some (winOff .hub 0 0x50, 7) ∧
    lands { halfHeld with holding := adel halfHeld.holding Requester.host.id } .host .hub 0 0x54 0xFFFF [0] :=
  ⟨by decide +kernel, lands_of (by decide +kernel)⟩

theorem witness_WritesReachTheirBits : (findReg .sc 0).isSome = true ∧ ((findReg .sc 0).map fun r => (r.maskOf Acc.buffered, r.maskOf fun a => a == .rw || a == .tmr)) = some (0x001F1F01, 0) ∧
    strobeDepth State.reset ((groupOf State.reset .sc 0).getD 16) = 0 := by decide +kernel

theorem witness_PlainWritesLand : regAt 0x1020004 .sc 0 4 0 ∧ regAt 0x1020404 .sc 0 4 1 ∧ regAt 0x1020804 .sc 0 4 2 ∧ regAt 0x1020C04 .sc 0 4 3 ∧ plainReg .sc 4 ∧
    isLo .sc 4 = false ∧ isHi .sc 4 = false ∧ lands State.reset .host .sc 0 4 0xFFFFFFFF [0] ∧ reached State.reset .host .sc 0 4 false = some [0] :=
  ⟨regAt_of .sc (by decide +kernel) (by decide) (by decide) (by decide), regAt_of .sc (by decide +kernel) (by decide) (by decide) (by decide),
    regAt_of .sc (by decide +kernel) (by decide) (by decide) (by decide), regAt_of .sc (by decide +kernel) (by decide) (by decide) (by decide),
    by unfold plainReg; decide +kernel, by decide +kernel, by decide +kernel, lands_of (by decide +kernel), by decide +kernel⟩

theorem witness_GroupChangesOnlyWhenNothingPends : regAt 0x10203FC .sc 0 0x3FC 0 ∧ (findReg .sc 0x3FC).isSome = true ∧ lands State.reset .host .sc 0 0x3FC 3 [0] ∧
    blockPending State.reset (regKey .sc 0 0x3FC) = false ∧ blockPending { State.reset with pend := [(regKey .sc 0 0, 5)] } (regKey .sc 0 0x3FC) = true :=
  ⟨regAt_of .sc (by decide +kernel) (by decide) (by decide) (by decide), by decide +kernel, lands_of (by decide +kernel), by decide +kernel, by decide +kernel⟩

theorem witness_StrobesTransfer : lands State.reset .host .hub 0 0x10 0xFFFF [0] ∧ lands State.reset .host .hub 0 0x14 0xFFFF [0] ∧
    ({ State.reset with strobes := [3] } : State).strobes = 3 :: [] ∧ inGroups State.reset (wbits 15 0 0x100) (regKey .sc 0 0) = true :=
  ⟨lands_of (by decide +kernel), lands_of (by decide +kernel), rfl, by decide +kernel⟩

theorem witness_EventsClearBySequence : regAt 0x102000C .sc 0 0x0C 0 ∧ reached State.reset .host .sc 0 0x0C true = some [0] ∧
    (findReg .sc 0x0C).any RegDef.isSeq = true ∧ wbits 31 16 (0 : Word) = wbits 31 16 (regLive State.reset (regKey .sc 0 0x0C)) ∧
    wbits 31 16 (0x10000 : Word) ≠ wbits 31 16 (regLive State.reset (regKey .sc 0 0x0C)) ∧
    State.reset.seqTicked.contains (F.SC_EVENT_RANGE.key 0) = false ∧ (ev State.reset F.SC_EVENT_RANGE 0).seqTicked.contains (F.SC_EVENT_RANGE.key 0) = true :=
  ⟨regAt_of .sc (by decide +kernel) (by decide) (by decide) (by decide), by decide +kernel, by decide +kernel, by decide +kernel, by decide +kernel, by decide +kernel, by decide +kernel⟩

/-! Descriptors -/

/-- A descriptor: tag, opcode, wait words, signal words, body words (R193). -/
def desc (tag op : Nat) (waits sigs body : List Nat) : List Byte :=
  toLE 4 tag ++ toLE 4 op ++ (waits ++ List.replicate (4 - waits.length) 0).flatMap (toLE 4) ++ (sigs ++ List.replicate (2 - sigs.length) 0).flatMap (toLE 4) ++
    (body ++ List.replicate (8 - body.length) 0).flatMap (toLE 4)

/-- Reset with queue 0 of core 0 as given. -/
def withQueue (k : QueueSt) : State := setCore State.reset 0 { CoreSt.reset with queues := CoreSt.reset.queues.set 0 k }

/-- Reset with the buffer of queue 0 of core 0 holding descriptors. -/
def queued (l : List (List Byte)) : State := withQueue { QueueSt.reset with buf := l }

/-- `issues`, as a Bool. -/
def issuesB (s : State) (g q op : Nat) (d : List Byte) : Bool :=
  !issueHeld s g && headState s g q == .ready d && dOp d == op && !flagTaken s g q d && granted s g q (unitOf op)

theorem issues_of {s : State} {g q op : Nat} {d : List Byte} (h : issuesB s g q op d = true) : issues s g q op d := by
  simp only [issuesB, Bool.and_eq_true, Bool.not_eq_true', beq_iff_eq] at h
  exact ⟨h.1.1.1.1, h.1.1.1.2, h.1.1.2, h.1.2, h.2⟩

/-- A counter wait holds up to 2^23 − 1 above its threshold, and one below it does not. -/
theorem witness_WaitsHold : bits 31 30 (dWait (desc 1 0 [0, 0x40000001, 0x80000001, 0xC0000001] [] []) 3) = 3 ∧
    waitHolds (wf State.reset (F.SEQ_CNT_VALUE.nth 0) 0 1) 0 0 (desc 1 0 [0xC0000001] [] []) 0 = true ∧
    waitHolds (wf State.reset (F.SEQ_CNT_VALUE.nth 0) 0 (2 ^ 23)) 0 0 (desc 1 0 [0xC0000001] [] []) 0 = true ∧
    waitHolds (wf State.reset (F.SEQ_CNT_VALUE.nth 0) 0 (2 ^ 23 + 1)) 0 0 (desc 1 0 [0xC0000001] [] []) 0 = false ∧
    waitHolds State.reset 0 0 (desc 1 0 [0xC0000001] [] []) 0 = false ∧
    headState (queued [desc 1 0 [] [] []]) 0 0 = .ready (desc 1 0 [] [] []) ∧
    bits 31 30 (dWait (desc 1 0 [0, 0x40000001, 0x80000001] [] []) 2) = 2 := by decide +kernel

theorem witness_CountersAndFlagsAreSet : dW (desc 1 2 [] [] [0x103, 7]) 1 < 2 ^ 32 ∧
    bits 7 0 (dW (desc 1 1 [] [] [255, 1, 3]) 0) + bits 8 0 (dW (desc 1 1 [] [] [255, 1, 3]) 1) ≤ 256 := by decide +kernel

theorem witness_DescriptorsIssue : issues (queued [desc 1 0 [] [] []]) 0 0 0x00 (desc 1 0 [] [] []) ∧
    issues (queued [desc 1 1 [] [] [0, 4, 3]]) 0 0 0x01 (desc 1 1 [] [] [0, 4, 3]) ∧ issues (queued [desc 1 2 [] [] [0x103, 7]]) 0 0 0x02 (desc 1 2 [] [] [0x103, 7]) :=
  ⟨issues_of (by decide +kernel), issues_of (by decide +kernel), issues_of (by decide +kernel)⟩

/-- A loop of one NOP over loop-count register 0. -/
def aLoop : List (List Byte) := [desc 1 3 [] [] [0x100], desc 2 0 [] [] [], desc 3 4 [] [] [0x100]]

theorem witness_EmptyLoopsPass : issues (queued aLoop) 0 0 0x03 (desc 1 3 [] [] [0x100]) ∧ rf (queued aLoop) (F.SEQ_LC_COUNT.nth 0) 0 = 0 ∧
    issues (wf (queued aLoop) (F.SEQ_LC_COUNT.nth 0) 0 2) 0 0 0x03 (desc 1 3 [] [] [0x100]) :=
  ⟨issues_of (by decide +kernel), by decide +kernel, issues_of (by decide +kernel)⟩

/-- The loop's end, in an iteration of two. -/
def inLoop (i : Nat) : State := withQueue { QueueSt.reset with buf := aLoop, pos := 2, loops := [⟨2, i, 0, 1, 1⟩] }

theorem witness_LoopsRun : issues (inLoop 0) 0 0 0x04 (desc 3 4 [] [] [0x100]) ∧ issues (inLoop 1) 0 0 0x04 (desc 3 4 [] [] [0x100]) ∧
    (queueOf (inLoop 0) 0 0).loops.getLast? = some ⟨2, 0, 0, 1, 1⟩ ∧ 0 + 1 < 2 ∧ 2 ≤ 1 + 1 :=
  ⟨issues_of (by decide +kernel), issues_of (by decide +kernel), by decide +kernel, by decide, by decide⟩

/-- A branch of two segments chosen by the host, and a queue that waits under it. -/
def aBranch : List (List Byte) := [desc 1 5 [] [] [0x210], desc 2 6 [] [] [0], desc 3 6 [] [] [0x100]]
def waitsBranch (mode : Nat) : State := withQueue { QueueSt.reset with branch := some ⟨1, mode, 2, 0, [], [], 0, 0⟩ }

theorem witness_BranchesSelect : issues (queued aBranch) 0 0 0x05 (desc 1 5 [] [] [0x210]) ∧ issues (queued [desc 2 6 [] [] [0]]) 0 0 0x06 (desc 2 6 [] [] [0]) ∧
    (queueOf (waitsBranch 0) 0 0).branch = some ⟨1, 0, 2, 0, [], [], 0, 0⟩ ∧ coreRuns (waitsBranch 0) 0 = true ∧
    lands (waitsBranch 1) .host .seqQ 0 0x98 0x10001 [0] ∧ wbits 31 16 (0x10001 : Word) = 1 % 2 ^ 16 ∧ wbits 3 0 (0x10001 : Word) < 2 ∧
    lands State.reset .host .seqQ 0 0x98 0x10001 [0] ∧ (getCore (waitsBranch 1) 0).queues.length = 8 :=
  ⟨issues_of (by decide +kernel), issues_of (by decide +kernel), by decide +kernel, by decide +kernel, lands_of (by decide +kernel), by decide, by decide,
    lands_of (by decide +kernel), by decide +kernel⟩

theorem witness_QueuesDiscardAndResume : landsSet State.reset .host .seqQ 0 0x80 [0] := landsSet_of (v := 0) (by decide +kernel)

theorem witness_LoopCountsAreWritten : lands State.reset .host .seqQ 259 0x7C 9 [259] ∧
    (∀ q, q < 8 → (queueOf State.reset 0 q).loops.any (fun l => l.lc == 15) = false) ∧
    (List.range 8).find? (fun q => (queueOf (inLoop 0) 0 q).loops.any fun l => l.lc == 0) = some 0 :=
  ⟨lands_of (by decide +kernel), by decide +kernel, by decide +kernel⟩

/-- A queue that waits on a flag which only it sets. -/
def stuck : State := doFlagDecl (queued [desc 1 0 [0x40000005] [] []]) 0 (desc 0 1 [] [] [5, 1, 0])

theorem witness_DeadlocksAreRaised : hubUp stuck = true ∧ rb stuck F.SEQ_CTRL_DL_EN 0 = true ∧ (getCore stuck 0).armed = true ∧ coreRuns stuck 0 = true ∧
    deadlocked stuck 0 = true := by decide +kernel

theorem witness_DescriptorsComplete : completable [⟨0, 0, 4, desc 1 0 [] [] [], [], [], true, 0, []⟩] 0 = some ⟨0, 0, 4, desc 1 0 [] [] [], [], [], true, 0, []⟩ ∧
    rf State.reset F.SEQ_CTRL_AGE_LOG2 0 ≠ 0 := by decide +kernel

theorem witness_SignalsArrive : sigTarget ⟨0x40000000, 0, 0, none⟩ < 260 ∧ ptnDown State.reset 0 = false ∧ runner State.reset 0 = some 0 ∧
    ptnDown (setPstate State.reset 0 2) 0 = true := by decide +kernel

/-! The memory and the links -/

theorem witness_RoundingFollowsItsMode : (0 : Nat) < 24 ∧ (0 : Nat) < 65536 ∧ roundMag 24 none 0 false 0 (2 ^ 24 + 1) 0 false = (2 ^ 23, 1, true) ∧
    roundMag 24 none 0 false 0 (2 ^ 24 + 3) 0 false = (2 ^ 23 + 2, 1, true) := by decide +kernel

theorem witness_CodesNameTheirValues : ffmt 0x06 = some ⟨4, 3, 7, false, true, 0⟩ ∧ ffmt 0x07 = some ⟨5, 2, 15, true, false, 0⟩ ∧ 15 < 2 ^ 4 ∧ 7 < 2 ^ 3 ∧ 31 < 2 ^ 5 := by
  decide +kernel

theorem witness_CountersClear : lands State.reset .host .mx 259 0x24 1 [259] ∧ lands State.reset .host .vx 0 0x24 1 [0] ∧ lands State.reset .host .qnt 0 0x20 1 [0] ∧
    lands State.reset .host .sc 19 0x1C 8 [19] ∧ lands State.reset .host .mem 0 0x1C 1 [0] ∧ lands State.reset .host .memCh 5 0x14 1 [640] :=
  ⟨lands_of (by decide +kernel), lands_of (by decide +kernel), lands_of (by decide +kernel), lands_of (by decide +kernel), lands_of (by decide +kernel), lands_of (by decide +kernel)⟩

/-- Core 0 with a STREAM in flight. -/
def streaming : State := setCore State.reset 0 { CoreSt.reset with flights := [⟨0, 0, 0, desc 1 0x11 [] [] [], [], [], false, 0, []⟩] }

theorem witness_FreezesAreCounted : (getCore streaming 0).flights.any (fun f => dOp f.desc == 0x11) = true ∧ hubUp streaming = true ∧
    lands State.reset .host .mx 0 0x20 0x100 [0] ∧ lands State.reset .host .vx 0 0x20 0x100 [0] :=
  ⟨by decide +kernel, by decide +kernel, lands_of (by decide +kernel), lands_of (by decide +kernel)⟩

/-- Reset with bytes in the pinned region of partition 0. -/
def pinned (l : List Byte) : State := pinnedPut State.reset 0 0 l

theorem witness_PinnedAccessesAnswer : target 0x20000000000 = .pin 0 0 ∧ ptnDown State.reset 0 = false ∧ rb State.reset F.SC_STATUS_PIN_CHANGING 0 = false ∧
    0 < pinLive State.reset 0 * 2 ^ 20 ∧ rb (withF F.SC_STATUS_PIN_CHANGING 0 1) F.SC_STATUS_PIN_CHANGING 0 = true := by decide +kernel

def aRead : LineReq := ⟨.core 0, false, 0, 32, [], 0, 7⟩

theorem witness_StackAccessesWait : target aRead.addr = .stack 0 0 ∧ mustWait State.reset aRead = true ∧
    (getPart (setPart State.reset 0 { PartSt.reset with misses := [aRead] }) 0).misses = aRead :: [] ∧ ptnDown (setPstate State.reset 0 2) 0 = true ∧
    hubUp (setPstate State.reset 0 2) = true := by decide +kernel

theorem witness_SlicesFlush : lands State.reset .host .sc 3 0x1C 1 [3] ∧ lands State.reset .host .sc 3 0x1C 2 [3] ∧ lands State.reset .host .sc 3 0x1C 4 [3] ∧
    rf State.reset F.MEM_CTRL_SCRUB_HOURS 0 ≠ 0 ∧ rf (withF F.MEM_CTRL_SCRUB_HOURS 0 0) F.MEM_CTRL_SCRUB_HOURS 0 = 0 :=
  ⟨lands_of (by decide +kernel), lands_of (by decide +kernel), lands_of (by decide +kernel), by decide +kernel, by decide +kernel⟩

/-- `pinServed` at offset 0 of partition 0, as a Bool. -/
def servedB (s : State) (a n : Nat) (off : Nat) : Bool :=
  target a == .pin 0 off && !ptnDown s 0 && !rb s F.SC_STATUS_PIN_CHANGING 0 && decide (off < pinLive s 0 * 2 ^ 20) && decide (0 < n) &&
    decide (a % 128 + n ≤ 128) && (getPart s 0).misses.isEmpty

theorem served_of {s : State} {a n off : Nat} (h : servedB s a n off = true) : pinServed s a n 0 off := by
  simp only [servedB, Bool.and_eq_true, Bool.not_eq_true', beq_iff_eq, decide_eq_true_iff, List.isEmpty_iff] at h
  exact ⟨h.1.1.1.1.1.1, h.1.1.1.1.1.2, h.1.1.1.1.2, h.1.1.1.2, h.1.1.2, h.1.2, h.2⟩

/-- A scale slot of E4M3 (R140). -/
def aSlot : List Byte := List.replicate 0x52 0 ++ [6] ++ List.replicate 45 0

theorem witness_AtomicsAreOneOperation : pinServed State.reset 0x20000000000 4 0 0 ∧ pinServed (pinned aSlot) 0x20000000000 128 0 0 ∧
    (fmaxOf (fieldLE 0x52 1 (mrdN (getPart (pinned aSlot) 0).pinned 0 128))).isSome = true ∧ rb (withF F.QNT_CTRL_STAGE_EN 0 1) F.QNT_CTRL_STAGE_EN 0 = true ∧
    pinServed (withF F.QNT_CTRL_STAGE_EN 0 1) 0x20000000000 128 0 0 :=
  ⟨served_of (by decide +kernel), served_of (by decide +kernel), by decide +kernel, by decide +kernel, served_of (by decide +kernel)⟩

/-- A reduction of one source and one line: flags, count of lines that have arrived (R183). -/
def aRed (flags arrived : Nat) : List Byte :=
  [(4, flags), (4, 1), (4, 1), (4, 0), (8, 0x20000000080), (8, 0x20000000100), (8, 0x20000000180), (8, arrived), (8, 0), (8, 0)].flatMap fun e => toLE e.1 e.2

theorem witness_ReductionsRun : pinServed (pinned (aRed 0 0)) 0x20000000000 64 0 0 ∧
    redHdrOk (pinned (aRed 0 0)) 0 (redHdr (mrdN (getPart (pinned (aRed 0 0)) 0).pinned 0 64)) = true ∧
    (redHdr (mrdN (getPart (pinned (aRed 0 0)) 0).pinned 0 64)).armed = false ∧
    redHdrOk (pinned (aRed 9 0)) 0 (redHdr (mrdN (getPart (pinned (aRed 9 0)) 0).pinned 0 64)) = false ∧
    (redHdr (mrdN (getPart (pinned (aRed 0x10000 0)) 0).pinned 0 64)).armed = true ∧ pinServed (pinned (aRed 0x10000 0)) (0x20000000180 + 0 / 8) 1 0 0x180 ∧
    bit (0 % 8) (ofLE (mrdN (getPart (pinned (aRed 0x10000 0)) 0).pinned 0x180 1)) = false ∧
    (redHdr (mrdN (getPart (pinned (aRed 0x10000 1)) 0).pinned 0 64)).arrived = 1 * 1 :=
  ⟨served_of (by decide +kernel), by decide +kernel, by decide +kernel, by decide +kernel, by decide +kernel, served_of (by decide +kernel), by decide +kernel, by decide +kernel⟩

theorem witness_ChannelsAreRetired : lands State.reset .host .memCh 0 4 0x1202 [0] ∧ wbits 12 8 (0x1202 : Word) ≤ 18 ∧ lands State.reset .host .memCh 0 4 0x1302 [0] ∧
    18 < wbits 12 8 (0x1302 : Word) ∧ wbits 1 1 (0x0001 : Word) = 0 :=
  ⟨lands_of (by decide +kernel), by decide, lands_of (by decide +kernel), by decide, by decide⟩

theorem witness_WaybillsAreBuilt : (waybillDue State.reset).waybill.due = true ∧ (waybillDue State.reset).sec.attest = none ∧ State.reset.waybill.due = false := by
  decide +kernel

theorem witness_BridgesReplay : hubUp State.reset = true ∧ (aget State.reset.mesh.fails 9).getD 0 + 1 ≠ 8 ∧ (aget [(9, 7)] 9).getD 0 + 1 = 8 := by decide +kernel

/-- The host link is up. -/
def linkedHost : State := withF F.HQ_STATUS_LINK_UP 0 1

theorem witness_HostLinkTrains : linkUp linkedHost = true ∧ hubUp linkedHost = true ∧ linkUp State.reset = false ∧ State.reset.host.training ≠ 0 ∧
    State.reset.power.inP3 = false ∧ State.reset.power.held = false ∧ lands State.reset .host .hq 0 0x20 1 [0] ∧ lands linkedHost .host .hq 0 0x20 1 [0] ∧
    moduleSet 15 ≠ 0 ∧ moduleSet 0 = 0 ∧ moduleSet 1 ≠ 0 :=
  ⟨by decide +kernel, by decide +kernel, by decide +kernel, by decide +kernel, by decide +kernel, by decide +kernel, lands_of (by decide +kernel), lands_of (by decide +kernel),
    by decide +kernel, by decide +kernel, by decide +kernel⟩

/-- A read that the host has not answered. -/
def aHostRead : HostRead := ⟨0, 7, 0x1000, 64, .record 0⟩

theorem witness_HostPacketsAreServed : pinServed linkedHost 0x20000000000 (32 * 4) 0 0 ∧ ownerOf 0x20000000000 = some 0 ∧ ptnDown (setPstate linkedHost 0 2) 0 = true ∧
    linkUp (setPstate linkedHost 0 2) = true ∧ ((9 : Nat) = 0 ∨ 8 < 9) ∧ linkedHost.host.reads.any (fun h => h.tag == 7) = false ∧
    ({ linkedHost.host with reads := [aHostRead] } : HostSt).reads.find? (fun h => h.tag == 7) = some aHostRead :=
  ⟨served_of (by decide +kernel), by decide +kernel, by decide +kernel, by decide +kernel, by decide, by decide +kernel, by decide +kernel⟩

/-- Ring 0 runs, with two descriptors to fetch. -/
def ringing : State := wf (wf (wf linkedHost F.HQ_RING_STATE_STATE 0 1) F.HQ_RING_PIDX_PIDX 0 2) F.HQ_CTRL_ENABLE 0 1

theorem witness_RingsRun : lands State.reset .host .hqRing 0 0 0x06000002 [0] ∧ ringState State.reset 0 ≠ 1 ∧ wbits 2 1 (0x06000002 : Word) = 1 ∧
    6 ≤ wbits 28 24 (0x06000002 : Word) ∧ wbits 28 24 (0x10000002 : Word) ≤ 16 ∧ 16 < wbits 28 24 (0x11000002 : Word) ∧
    rf (storeFields State.reset .hqRing 0 0 0 0x06000002) F.HQ_RING_BASE_LO_BASE 0 % 4096 = 0 ∧
    lands ringing .host .hqRing 0 0 4 [0] ∧ ringState ringing 0 = 1 ∧ wbits 2 1 (4 : Word) = 2 ∧ lands ringing .host .hqRing 0 0x18 5 [0] ∧
    lands State.reset .host .hqRing 0 0x18 5 [0] ∧ lands ringing .host .hq 0 0x14 0x1000 [0] ∧
    fetchCount ringing 0 ≠ 0 ∧ rf (stepOpenAtFetch ringing) F.HQ_RING_CIDX_CIDX 0 % 2 ^ rf (stepOpenAtFetch ringing) F.HQ_RING_CTRL_LOG2_SIZE 0 + fetchCount ringing 0 ≤
      2 ^ rf (stepOpenAtFetch ringing) F.HQ_RING_CTRL_LOG2_SIZE 0 :=
  ⟨lands_of (by decide +kernel), by decide +kernel, by decide, by decide, by decide, by decide, by decide +kernel, lands_of (by decide +kernel), by decide +kernel, by decide,
    lands_of (by decide +kernel), lands_of (by decide +kernel), lands_of (by decide +kernel), by decide +kernel, by decide +kernel⟩

/-- The ring polls every microsecond, ten of which have passed. -/
def polling : State := { wf ringing F.HQ_RING_CTRL_POLL_US 0 1 with time := { ringing.time with now := 10000 } }

theorem witness_RingsRun_poll : ringState polling 0 = 1 ∧ rf polling F.HQ_RING_CTRL_POLL_US 0 ≠ 0 ∧
    (aget polling.host.lastRead 0).getD 0 + rf polling F.HQ_RING_CTRL_POLL_US 0 ≤ tick polling ∧ recordOut polling 0 = false ∧
    polling.host.polls < max 1 (rf polling F.HQ_CTRL_POLL_BUDGET 0) := by decide +kernel

theorem witness_CompletionQueuesNotify : lands State.reset .host .hqCq 0 0 1 [0] ∧ lands State.reset .host .hqCq 0 0 0 [0] ∧ rb State.reset F.HQ_CQ_CTRL_EN 0 = false ∧
    lands State.reset .host .hqCq 0 0x0C 5 [0] ∧ [((3 : Nat), true)].find? (fun e => e.1 == 3) = some (3, true) ∧
    rb (wf linkedHost F.HQ_CQ_CTRL_IRQ_EN 0 1) F.HQ_CQ_CTRL_IRQ_EN 0 = true :=
  ⟨lands_of (by decide +kernel), lands_of (by decide +kernel), by decide +kernel, lands_of (by decide +kernel), by decide, by decide +kernel⟩

/-- Port 23 enabled, in a link state. -/
def port (l : Nat) : State := wf (wf (withF F.FAB_CTRL_EN 0 1) F.FAB_P_CTRL_EN 23 1) F.FAB_P_STATE_LSTATE 23 l

theorem witness_LinksTrain : hubUp (port 1) = true ∧ lstate (port 1) 23 ≤ 1 ∧ rf (port 1) F.FAB_P_STATE_FAILS 23 < 3 ∧ portEnabled (port 1) 23 = true ∧
    lstate (port 2) 23 = 2 ∧ (getPort (port 2) 23).waiting = false ∧ linked (port 3) 23 = true ∧
    (getPort (setPort State.reset 23 { PortSt.reset with waiting := true }) 23).waiting = true ∧ lands State.reset .host .fabP 0 4 1 [0] ∧
    lands State.reset .host .fabP 0 4 2 [0] ∧ lstate State.reset 0 ≤ 1 :=
  ⟨by decide +kernel, by decide +kernel, by decide +kernel, by decide +kernel, by decide +kernel, by decide +kernel, by decide +kernel, by decide +kernel,
    lands_of (by decide +kernel), lands_of (by decide +kernel), by decide +kernel⟩

/-- A packet for device 5, and the local input 24 that holds it. -/
def aPacket : Packet := ⟨5, 1, 0, 0, 0, 0, 0, 0, 0, 9, 0, 0, 0, 0, []⟩
def holdsPacket : State := inject State.reset 0 aPacket

/-- A block with the trailer's first word given, and its CRC; without slots, which keeps the checksum short. -/
def aBlock (w : Nat) : LinkBlock := ⟨[], toLE 2 w ++ List.replicate 26 0 ++ toLE 4 (crc32 (toLE 2 w ++ List.replicate 26 0))⟩

theorem witness_LinksCarryPackets : linked (port 2) 23 = true ∧ hubUp (port 2) = true ∧ headPlaces (inputPackets holdsPacket 24) = [0] ∧
    (inputPackets holdsPacket 24)[0]? = some (0, aPacket) ∧ routeOf holdsPacket 24 0 aPacket ≠ .wait ∧
    findIdx? (fun (f : Flight) => f.done && dTag f.desc == 1 && f.acks.contains 0) [⟨0, 0, 4, desc 1 0x40 [] [] [], [], [0], true, 0, []⟩] = some 0 ∧
    planSigned State.reset [] = false ∧
    fieldLE 0x1C 4 (aBlock 0x1000).trailer = crc32 ((aBlock 0x1000).slots.flatten ++ (aBlock 0x1000).trailer.take 0x1C) ∧
    bits 11 0 (fieldLE 0 2 (aBlock 0x1000).trailer) = (getPort (port 2) 23).rxSeq ∧ bit 12 (fieldLE 0 2 (aBlock 0x1000).trailer) = true ∧
    bit 14 (fieldLE 0 2 (aBlock 0x1000).trailer) = false ∧ bits 11 0 (fieldLE 0 2 (aBlock 0x0001).trailer) ≠ (getPort (port 2) 23).rxSeq := by decide +kernel

/-- A Route Plan with no entry, for the key `withKey` holds. -/
def aPlan : List Byte :=
  let body := List.replicate 16 0
  [(4, 0x544E5247), (1, 1), (1, 0), (1, 0), (1, 0), (8, 0), (4, 0), (4, 0), (8, 0)].flatMap (fun e => toLE e.1 e.2) ++ sha3 body ++ body ++ List.replicate 3309 0

theorem witness_LinksCarryPackets_plan : (∀ k m g, Config.mldsaVerify k m g = true) → planSigned withKey aPlan = true := by
  intro h
  unfold planSigned
  rw [show opKey withKey (bits 0 0 (fieldLE 7 1 aPlan)) = some (List.replicate 1952 1) by decide +kernel]
  simp only [h]
  decide +kernel

/-! Jobs, steps, checkpoints -/

/-- Bytes of 256 with 16-bit words at the places given. -/
def words (n : Nat) (l : List (Nat × Nat)) : List Byte := l.foldl (fun b e => patch e.1 (toLE 2 e.2) b) (List.replicate n 0)

/-- A mapping descriptor of one device (R303). -/
def aMap : List Byte := words 256 [(0, 1), (0x0C, 0x101), (0x0E, 1), (0x10, 1), (0x12, 1), (0x14, 1), (0x16, 1), (0x18, 1), (0x1A, 1)]

/-- The mapping in the pinned region, at the address that HUB_MAP_ADDR names. -/
def mapped (m : List Byte) : State := wf (pinned m) F.HUB_MAP_ADDR_HI_ADDR 0 0x200

/-- A job runs. -/
def job : State := withF F.HUB_JOB_STATUS_ACTIVE 0 1

theorem witness_JobsStartAndEnd : landsSet (mapped aMap) .host .hub 0 0x40 [0] ∧ jobActive (mapped aMap) = false ∧
    rf2 (mapped aMap) F.HUB_MAP_ADDR_LO_ADDR F.HUB_MAP_ADDR_HI_ADDR 0 % 64 = 0 ∧ inMemory (storeFields (mapped aMap) .hub 0 0x40 1 1) 0x20000000000 256 = true ∧
    rf2 (mapped aMap) F.HUB_MAP_ADDR_LO_ADDR F.HUB_MAP_ADDR_HI_ADDR 0 = 0x20000000000 ∧
    mappingOk (hubRead (storeFields (mapped aMap) .hub 0 0x40 1 1) 0x20000000000 256).1 (hubRead (storeFields (mapped aMap) .hub 0 0x40 1 1) 0x20000000000 256).2 = true ∧
    mappingOk (hubRead (mapped []) 0x20000000000 256).1 (hubRead (mapped []) 0x20000000000 256).2 = false ∧
    landsSet job .host .hub 0 0x40 [0] ∧ jobActive job = true ∧ rf (wf job F.HUB_JOB_CTRL_EVAL_MODE 0 2) F.HUB_JOB_CTRL_EVAL_MODE 0 = 2 ∧ job.sr.steps = [] :=
  ⟨landsSet_of (v := 0) (by decide +kernel), by decide +kernel, by decide +kernel, by decide +kernel, by decide +kernel, by decide +kernel, by decide +kernel,
    landsSet_of (v := 0) (by decide +kernel), by decide +kernel, by decide +kernel, by decide +kernel⟩

/-- A step in a state. -/
def aStep (state : Nat) (plan : List Byte) : Step := ⟨5, state, 0, 0, 0, none, some 0, true, state == 2, 0, plan, [], false⟩

/-- The step-replay engine is on, a job runs, and a step is there. -/
def stepping (state : Nat) : State := { wf job F.HUB_SR_CTRL_EN 0 1 with sr := { StepSt.reset with steps := [aStep state []], opened := true, last := 5 } }

/-- The same with no step, the Pannier laid out, and a plan of step 6 in the pinned region. -/
def planning : State :=
  wf (wf (wf (wf (wf (pinnedPut State.reset 0 0 (words 256 [(0, 1), (8, 6)])) F.HUB_JOB_STATUS_ACTIVE 0 1) F.HUB_SR_CTRL_EN 0 1) F.HUB_SR_PLAN_HI_ADDR 0 0x200)
    F.HUB_PAN_CFG_SLOTS 0 2) F.HUB_PAN_CFG_SIZE_MIB 0 4

theorem witness_StepsOpenAndClose : lands (withF F.HUB_SR_CTRL_EN 0 0) .host .hubSr 0 4 0x80 [0] ∧ rb (withF F.HUB_SR_CTRL_EN 0 0) F.HUB_SR_CTRL_EN 0 = false ∧
    lands planning .host .hubSr 0 4 0x02 [0] ∧ rb planning F.HUB_SR_CTRL_EN 0 = true ∧ jobActive planning = true ∧ planning.sr.steps = [] ∧
    rf2 planning F.HUB_SR_PLAN_LO_ADDR F.HUB_SR_PLAN_HI_ADDR 0 = 0x20000000000 ∧ inMemory planning 0x20000000000 256 = true ∧
    planOk planning (words 256 [(0, 1), (8, 6)]) = true ∧ planStep (words 256 [(0, 1), (8, 6)]) < 2 ^ 48 - 1 ∧
    0x4000 + packedLen (words 256 [(0, 1), (8, 6)]) ≤ panSlotSize planning :=
  ⟨lands_of (by decide +kernel), by decide +kernel, lands_of (by decide +kernel), by decide +kernel, by decide +kernel, by decide +kernel, by decide +kernel, by decide +kernel,
    by decide +kernel, by decide +kernel, by decide +kernel⟩

theorem witness_StepsOpenAndClose_steps : lands (stepping 1) .host .hubSr 0 4 0x04 [0] ∧ (stepping 1).sr.steps = aStep 1 [] :: [] ∧
    rf (stepping 1) F.HUB_SR_CTRL_VOTE_PTN 0 ≤ 19 ∧ pinLive (stepping 1) (rf (stepping 1) F.HUB_SR_CTRL_VOTE_PTN 0) ≠ 0 ∧
    lands (stepping 3) .host .hubSr 0 4 0x08 [0] ∧ (aStep 3 []).state = 3 ∧ rf (wf (stepping 3) F.HUB_SR_CTRL_DIGEST_INTERVAL 0 0) F.HUB_SR_CTRL_DIGEST_INTERVAL 0 = 0 ∧
    lands (stepping 5) .host .hubSr 0 4 0x10 [0] ∧ (aStep 5 []).awaits = false ∧ (aStep 5 []).sealTick ≠ none ∧ (aStep 5 []).attempt < rf (stepping 5) F.HUB_SR_CTRL_REPLAY_LIMIT 0 ∧
    ({ StepSt.reset with steps := [{ aStep 1 [] with copying := true }] } : StepSt).steps.find? (fun t => t.copying) = some { aStep 1 [] with copying := true } :=
  ⟨lands_of (by decide +kernel), by decide +kernel, by decide +kernel, by decide +kernel, lands_of (by decide +kernel), by decide, by decide +kernel,
    lands_of (by decide +kernel), by decide, by decide, by decide +kernel, by decide +kernel⟩

theorem witness_VotesResolveSteps : (stepping 2).sr.steps.find? (fun t => t.awaits) = some (aStep 2 []) ∧ lands (stepping 2) .host .hubSr 0 4 0x20 [0] ∧
    lands (stepping 2) .host .hubSr 0 4 0x40 [0] ∧ (aStep 2 []).awaits = true ∧ (14 : Nat) < 15 ∧ (aStep 2 []).sealTick = some 0 ∧
    0 + voteTicks (stepping 2) ≤ tick { stepping 2 with time := { (stepping 2).time with now := 10000000 } } ∧
    ({ StepSt.reset with digest := some ([], 5, 0) } : StepSt).digest = some ([], 5, 0) ∧ lands (stepping 2) .host .hubSr 0 4 0x80 [0] ∧
    lands State.reset .host .ptnCore 19 0x20 1 [247] ∧ landsSet State.reset .host .ptnCore 19 0x20 [247] :=
  ⟨by decide +kernel, lands_of (by decide +kernel), lands_of (by decide +kernel), by decide, by decide, by decide, by decide +kernel, rfl, lands_of (by decide +kernel),
    lands_of (by decide +kernel), landsSet_of (v := 1) (by decide +kernel)⟩

/-- A command block of an operation in the pinned region, with the engine on and the module in a state. -/
def ckpState (op module : Nat) : State :=
  wf (wf (wf (pinned (words 64 [(0, op), (0x10, 1)])) F.CKP_CMDBLK_HI_ADDR 0 0x200) F.CKP_CTRL_EN 0 1) F.CKP_STATUS_MODULE 0 module

theorem witness_CheckpointCommandsRun : lands (ckpState 3 1) .host .ckp 0 4 1 [0] ∧ ckpBlockOp (ckpState 3 1) = 3 ∧ ckpBusy (ckpState 3 1) = false ∧
    rb (ckpState 3 1) F.CKP_CTRL_EN 0 = true ∧ rb (withF F.CKP_CTRL_EN 0 0) F.CKP_CTRL_EN 0 = false ∧ ckpBusy (withF F.CKP_STATUS_BUSY 0 1) = true ∧
    1 ≤ fieldLE 0 1 (words 64 [(0, 3)]) ∧ fieldLE 0 1 (words 64 [(0, 8)]) ≤ 8 ∧ bits 9 8 (fieldLE 0 4 (words 64 [(0, 3)])) ≠ 3 ∧
    moduleState (ckpState 3 0) = 0 ∧ moduleState (ckpState 3 1) = 1 ∧ moduleState (ckpState 3 2) = 2 ∧ moduleState (ckpState 3 4) = 4 ∧
    rf job F.HUB_SR_EPOCH_EPOCH 0 < fieldLE 0x10 4 (words 64 [(0, 3), (0x10, 1)]) ∧ fieldLE 0x10 4 (words 64 [(0, 3), (0x10, 1)]) ≠ 0xFFFFFFFF ∧
    inMemory State.reset 0x20000000000 0x4000 = true :=
  ⟨lands_of (by decide +kernel), by decide +kernel, by decide +kernel, by decide +kernel, by decide +kernel, by decide +kernel, by decide +kernel, by decide +kernel,
    by decide +kernel, by decide +kernel, by decide +kernel, by decide +kernel, by decide +kernel, by decide +kernel, by decide +kernel, by decide +kernel⟩

/-- The checkpoint engine with a read of the staging module under way. -/
def aCmd : NvmeCmd := ⟨3, 0, false, 256, true, 0, 4096⟩
def waitsNvme : State := { State.reset with ckp := { CkpSt.reset with nvme := some aCmd, pendingAuto := true } }

theorem witness_CheckpointEngineRuns : lands State.reset .host .ckp 0 4 2 [0] ∧ lands State.reset .host .ckp 0 4 4 [0] ∧ waitsNvme.ckp.nvme = some aCmd ∧ aCmd.sram = true ∧
    aCmd.addr ≤ 0 ∧ 0 + 4096 ≤ aCmd.addr + aCmd.len ∧ hubUp waitsNvme = true ∧ waitsNvme.ckp.pendingAuto = true ∧ ckpBusy waitsNvme = false ∧
    rb (ckpState 1 1) F.CKP_CTRL_EN 0 = true ∧ State.reset.ckp.bring = true ∧ State.reset.fh.retests.contains (4, 28, 0x24) = false ∧
    labelForeign [] = false ∧ ckpOp (withF F.CKP_STATUS_OP 0 1) = 1 ∧
    ({ CkpSt.reset with capturing := true } : CkpSt).captured = false ∧ CkpSt.reset.digests.length = CkpSt.reset.exts.length :=
  ⟨lands_of (by decide +kernel), lands_of (by decide +kernel), rfl, rfl, by decide, by decide, by decide +kernel, rfl, by decide +kernel, by decide +kernel, rfl, by decide +kernel,
    by decide +kernel, by decide +kernel, rfl, rfl⟩

/-! Faults and tests, time, power, resets, settings, security -/

/-- A port with a packet to send through it: device 5 lies in direction +X over ports 0 to 3, of which 0 is UP. -/
def sending : State := inject (regPut (withF F.FAB_P_STATE_LSTATE 0 3) (regKey .rtEntry 0 20) 0x87800000) 0 aPacket

/-- An event of core 0's signature 4 that was counted, and has aged out. -/
def agedOut : State := { withF F.FH_OPER_S_SECONDS 0 604800 with fh := { State.reset.fh with events := [⟨1, 0, 4, 0, 0, 0, true⟩] } }

theorem witness_FaultHistoryActs : coreWindow State.reset 0 ≠ none ∧ coreWatched (queued [desc 1 0 [0x40000001] [] []]) 0 = true ∧
    corePending (queued [desc 1 0 [0x40000001] [] []]) 0 = true ∧ coreHung (queued [desc 1 0 [0x40000001] [] []]) 0 = false ∧ corePending State.reset 0 = false ∧
    rf sending F.FH_WIN_PORT_MS 0 ≠ 0 ∧ lstate sending 0 = 3 ∧ portWaits sending 0 = true ∧ hungAt sending 4 0 = none ∧
    groupMisses (setPart State.reset 0 { PartSt.reset with misses := [aRead] }) 0 0 = aRead :: [] ∧ rf State.reset F.FH_WIN_CHGRP_MS 0 ≠ 0 ∧
    pstate State.reset 0 = 0 ∧ inReset State.reset 0 = false ∧ 0 + 604800 ≤ operS agedOut ∧
    rf State.reset F.FH_CPER_HEAD_HEAD 0 = rf State.reset F.FH_CPER_TAIL_TAIL 0 ∧ rf (withF F.FH_CPER_TAIL_TAIL 0 1) F.FH_CPER_HEAD_HEAD 0 ≠ rf (withF F.FH_CPER_TAIL_TAIL 0 1) F.FH_CPER_TAIL_TAIL 0 := by
  decide +kernel

/-- A grant to clear the verdict that FH_UNIT names. -/
def grantedClear : State := { State.reset with sec := { State.reset.sec with grant := some ⟨3, (regLive State.reset (F.FH_UNIT_KIND.key 0)).toNat, [], 10 ^ 9⟩ } }

theorem witness_FaultHistoryActs_commands : lands State.reset .host .fh 0 0x1C 8 [0] ∧ lands State.reset .host .fh 0 0x1C 2 [0] ∧ lands State.reset .host .fh 0 0x1C 1 [0] ∧
    lands grantedClear .mgmt .fh 0 0x1C 4 [0] ∧ clearAllowed grantedClear .mgmt = true ∧ clearAllowed State.reset .mgmt = false ∧
    ([((0 : Nat), (⟨[], false⟩ : Cper))].find? fun e => !e.2.sent) = some (0, ⟨[], false⟩) :=
  ⟨lands_of (by decide +kernel), lands_of (by decide +kernel), lands_of (by decide +kernel), lands_of (by decide +kernel), by decide +kernel, by decide +kernel, by decide +kernel⟩

/-- A package of one pattern in use, and core 0 in a window or a sweep. -/
def testing (w p : List Nat) : State := { State.reset with ist := ⟨p, w, [], [], [some ⟨1, 1, 1, 0, []⟩, none], some 0, false⟩ }

theorem witness_TestsRun : windowOpens State.reset 0 = true ∧ windowOpens (testing [0] []) 0 = false ∧ (0 : Nat) ∈ (testing [0] []).ist.windows ∧
    (0 : Nat) ∉ (testing [] [0]).ist.windows ∧ (0 : Nat) ∈ (testing [] [0]).ist.sweep ∧ 0 < patternCount (testing [] [0]) ∧
    lands State.reset .host .ist 0 4 1 [0] ∧ lands State.reset .host .ist 0 4 2 [0] ∧ rb State.reset F.IST_CTRL_EN 0 = true ∧ rb (withF F.IST_CTRL_EN 0 0) F.IST_CTRL_EN 0 = false ∧
    rb (withF F.IST_STATUS_SWEEPING 0 1) F.IST_STATUS_SWEEPING 0 = true ∧ packageOf [] = none :=
  ⟨by decide +kernel, by decide +kernel, by decide +kernel, by decide +kernel, by decide +kernel, by decide +kernel, lands_of (by decide +kernel), lands_of (by decide +kernel),
    by decide +kernel, by decide +kernel, by decide +kernel, by decide +kernel⟩

/-- A test package of one pattern; it verifies where the signature does. -/
def aPackage : List Byte :=
  [(4, 0x4B505349), (2, 1), (2, 0), (4, 1), (4, 2), (4, 3373), (2, 1), (2, 0), (1, 0x20), (7, 0)].flatMap (fun e => toLE e.1 e.2) ++ sha3 [] ++ List.replicate 3309 0

theorem witness_TestsRun_package : (∀ k m g, Config.mldsaVerify k m g = true) → packageOf aPackage = some ⟨1, 2, 1, 0, slice 0x20 32 aPackage⟩ := by
  intro h
  unfold packageOf
  simp only [h, and_true]
  decide +kernel

/-- A follower with a request out. -/
def following (t : Nat) : State := { withF F.TIME_CTRL_ROLE 0 2 with time := { State.reset.time with now := 1000, asked := some t, good := 7, silent := 8 } }

theorem witness_TimeIsKept : State.reset.power.inP3 = false ∧ State.reset.power.root = true ∧ State.reset.time.acc < 14 * 10 ^ 9 ∧ State.reset.time.now < 2 ^ 64 - 2000 ∧
    -100000 ≤ sext 32 (rf State.reset F.TIME_ADJ_ADJ 0) ∧ sext 32 (rf State.reset F.TIME_ADJ_ADJ 0) ≤ 100000 ∧
    lands (withHolding State.reset .host .time 0 0x4C) .host .time 0 0x4C 0 [0] ∧ rf State.reset F.TIME_CTRL_ROLE 0 ≤ 1 ∧ rf (following 0) F.TIME_CTRL_ROLE 0 = 2 ∧
    (following 0).time.asked = some (fieldLE 8 8 aPacket.payload) ∧ (following 0).time.good = 7 ∧ 8 ≤ (following 0).time.silent ∧ hubUp (following 0) = true ∧
    portToward (wf (wf (withF F.FAB_P_STATE_LSTATE 0 3) F.FAB_P_NBR_INFO_ASSIGNED 0 1) F.FAB_P_NBR_INFO_COORD 0 1) 1 = some 0 ∧
    locked (withF F.TIME_STATUS_LOCKED 0 1) = true ∧ 2 * (max 1 (rf (withF F.TIME_STATUS_LOCKED 0 1) F.TIME_CTRL_STEP_NS 0) : Int) < (-200000 : Int).natAbs ∧ (40 : Int).natAbs ≤ 40 :=
  ⟨rfl, rfl, by decide, by decide, by decide +kernel, by decide +kernel, lands_of (by decide +kernel), by decide +kernel, by decide +kernel, by decide +kernel, by decide +kernel,
    by decide +kernel, by decide +kernel, by decide +kernel, by decide +kernel, by decide +kernel, by decide⟩

/-- A snapshot armed for a tick. -/
def armed (t : Nat) : State := { State.reset with ledger := { State.reset.ledger with snap := some t } }

theorem witness_SnapshotsAreTaken : landsSet State.reset .host .ledger 0 4 [0] ∧ rf State.reset F.LEDGER_HEAD_COUNT 0 = rf State.reset F.LEDGER_TAIL_COUNT 0 ∧
    rf (withF F.LEDGER_TAIL_COUNT 0 1) F.LEDGER_HEAD_COUNT 0 ≠ rf (withF F.LEDGER_TAIL_COUNT 0 1) F.LEDGER_TAIL_COUNT 0 ∧
    rf2 State.reset F.LEDGER_SNAP_AT_LO_TICK F.LEDGER_SNAP_AT_HI_TICK 0 < tick State.reset + 2 ∧
    tick State.reset + 2 ≤ rf2 (withF F.LEDGER_SNAP_AT_LO_TICK 0 2) F.LEDGER_SNAP_AT_LO_TICK F.LEDGER_SNAP_AT_HI_TICK 0 ∧
    rb State.reset F.LEDGER_CMD_SNAP_BCAST 0 = false ∧ rb (withF F.LEDGER_CMD_SNAP_BCAST 0 1) F.LEDGER_CMD_SNAP_BCAST 0 = true ∧
    (armed 1).ledger.snap = some 1 ∧ tick (armed 1) < 1 ∧ 0 ≤ tick (armed 0) ∧ (armed 0).time.now < 2 ^ 64 :=
  ⟨landsSet_of (v := 0) (by decide +kernel), by decide +kernel, by decide +kernel, by decide +kernel, by decide +kernel, by decide +kernel, by decide +kernel, rfl, by decide +kernel,
    by decide +kernel, by decide⟩

theorem witness_PowerIsLimited : levelForced State.reset = false ∧ levelForced (withF F.PWR_STATUS_ALERT 0 1) = true ∧ State.reset.power.coolSums = 0 ∧
    rf State.reset F.PWR_STATUS_LEVEL 0 < 8 ∧ powerLimit State.reset < 2401 ∧ 0 < rf (withF F.PWR_STATUS_LEVEL 0 1) F.PWR_STATUS_LEVEL 0 ∧
    0 + rf State.reset F.PWR_CTRL_HYST_W 0 ≤ powerLimit State.reset ∧ State.reset.power.enMain = true ∧ State.reset.power.root = true ∧ State.reset.power.resetN = true := by
  decide +kernel

/-- The root stopped, or the main rails off. -/
def stopped : State := { State.reset with power := { State.reset.power with root := false } }
def offMain : State := { State.reset with power := { State.reset.power with pgMain := false } }
/-- A package with no image. -/
def bare : State := { stopped with sec := { State.reset.sec with images := [none, none, none, none] } }

theorem witness_ResetsBoot : (stopped.power.enMain = true ∧ stopped.power.pgMain = true ∧ stopped.power.root = false) ∧ (offMain.power.enMain = true ∧ offMain.power.pgMain = false) ∧
    islandUp { State.reset with power := { State.reset.power with resetN := false } } = true ∧ inRecovery (bootStart stopped 4) = false ∧
    (bootStart stopped 4).settings.records = [] ∧ inRecovery (bootStart bare 4) = true :=
  ⟨by decide, by decide, by decide +kernel, by decide +kernel, by decide +kernel, by decide +kernel⟩

theorem witness_ResetsBoot_commands : lands State.reset .host .rst 0 8 0x52530001 [0] ∧ rb State.reset F.RST_EN_PKG_EN 0 = true ∧ lands State.reset .host .rst 0 8 0x52530002 [0] ∧
    rb State.reset F.RST_EN_HUB_EN 0 = true ∧ lands State.reset .host .rst 0 8 1 [0] ∧ rb (withF F.RST_EN_HUB_EN 0 0) F.RST_EN_HUB_EN 0 = false ∧
    lands State.reset .host .rst 0 4 0x113 [0] ∧ wbits 8 8 (0x113 : Word) = 1 ∧ wbits 4 0 (0x113 : Word) < 20 ∧
    ptnDown (storeFields State.reset .rst 0 4 0 0x113) 19 = false ∧ 20 ≤ wbits 4 0 (0x114 : Word) :=
  ⟨lands_of (by decide +kernel), by decide +kernel, lands_of (by decide +kernel), by decide +kernel, lands_of (by decide +kernel), by decide +kernel, lands_of (by decide +kernel),
    by decide, by decide, by decide +kernel, by decide⟩

theorem witness_ResetsBoot_hub : inRecovery (hubStart State.reset [] (hubParts State.reset)) = false ∧ (hubStart State.reset [] (hubParts State.reset)).settings.records = [] := by
  decide +kernel

theorem witness_PartitionsSleep : rb (withF F.PWR_CTRL_P1_AUTO 0 1) F.PWR_CTRL_P1_AUTO 0 = true ∧ inReset State.reset 19 = false ∧ pstate State.reset 19 = 0 ∧
    (∀ g ∈ span (13 * 19) 13, 2 ≤ role State.reset g ∨ (corePending State.reset g = false ∧ g ∉ State.reset.ist.windows)) ∧ retestIn State.reset 19 = false ∧
    pstate (setPstate State.reset 19 1) 19 = 1 ∧ pstate (setPstate State.reset 19 2) 19 = 2 ∧ partQuiet State.reset 19 = true ∧ ringsQuiet State.reset 19 = true ∧
    partQuiet (queued [desc 1 0 [0x40000001] [] []]) 0 = false ∧ ringsQuiet ringing 0 = false ∧ holdsSteps State.reset 5 = false ∧ holdsSteps State.reset 0 = true ∧
    rb job F.HUB_JOB_STATUS_ACTIVE 0 = true := by
  decide +kernel

theorem witness_PartitionsSleep_commands : lands State.reset .host .pwr 0 0x0C 0x113 [0] ∧ lands State.reset .host .pwr 0 0x0C 0x213 [0] ∧ wbits 8 8 (0x113 : Word) = 1 ∧
    wbits 9 9 (0x113 : Word) = 0 ∧ wbits 9 9 (0x213 : Word) = 1 ∧ lands State.reset .mgmt .pwr 0 0x18 1 [0] ∧ State.reset.power.supplied = true ∧ (127 : Nat) < 128 :=
  ⟨lands_of (by decide +kernel), lands_of (by decide +kernel), by decide, by decide, by decide, lands_of (by decide +kernel), rfl, by decide⟩

/-- The settings area with key 0x100 named and a length of 8. -/
def storing : State := wf (withF F.SET_KEY_KEY 0 0x100) F.SET_KEY_LEN 0 8
def holdsRecord (busy : Nat) : State := { State.reset with settings := ⟨[(0x100, [1])], [], [], busy, 0x100, [1], true⟩ }

theorem witness_SettingsAreKept : lands storing .host .set 0 0 1 [0] ∧ setAllowed storing .host 1 = true ∧ storing.settings.busy = 0 ∧ keyWritable .host (setKey storing) = true ∧
    0 < setLen storing ∧ setLen storing ≤ 16384 ∧ setLen storing % 8 = 0 ∧ setLen storing + 64 ≤ settingsFree storing ∧ keyWritable .host (setKey State.reset) = false ∧
    setLen State.reset = 0 ∧ lands storing .fw .set 0 0 2 [0] ∧ lands storing .host .set 0 0 4 [0] ∧ setAllowed State.reset .mgmt 1 = false ∧ setAllowed State.reset .mgmt 4 = false ∧
    aget (holdsRecord 2).settings.records (holdsRecord 2).settings.key = some [1] ∧ (holdsRecord 3).settings.busy = 3 ∧ (holdsRecord 1).settings.routeDue = true ∧ hubUp (holdsRecord 1) = true ∧
    (aget State.reset.settings.wear 0x100).getD 0 < 10 ^ 6 :=
  ⟨lands_of (by decide +kernel), by decide +kernel, by decide +kernel, by decide +kernel, by decide +kernel, by decide +kernel, by decide +kernel, by decide +kernel, by decide +kernel,
    by decide +kernel, lands_of (by decide +kernel), lands_of (by decide +kernel), by decide +kernel, by decide +kernel, by decide +kernel, rfl, rfl, by decide +kernel, by decide +kernel⟩

/-- A hub image without a body, under key slot 0. -/
def anImage (type : Nat) : List Byte :=
  [(4, 0x4D495746), (1, type), (1, 0), (1, 0), (1, 0), (4, 1), (4, 0), (1, 0x20), (15, 0)].flatMap (fun e => toLE e.1 e.2) ++ sha3 [] ++ List.replicate (1952 + 3309) 0

theorem witness_SecurityActs : imageReason State.reset [1, 2] [] ≠ 0 ∧ imageReason State.reset [3] [] ≠ 0 ∧ (imageOf (anImage 1)).type = 1 ∧ (imageOf (anImage 2)).type ≠ 1 ∧
    (∃ k ∈ withKey.sec.opKeys, k ≠ []) ∧ (∀ k ∈ State.reset.sec.opKeys, k = []) ∧ State.reset.sec.attest = none ∧ lands State.reset .host .sec 0 0x10 1 [0] ∧
    reportFits State.reset (rf2 State.reset F.SEC_ATTEST_ADDR_LO_ADDR F.SEC_ATTEST_ADDR_HI_ADDR 0) = true ∧ reportFits State.reset (2 ^ 48 - 1) = false :=
  ⟨by decide +kernel, by decide +kernel, by decide +kernel, by decide +kernel, ⟨List.replicate 1952 1, List.mem_cons_self .., by decide +kernel⟩, by decide +kernel, rfl,
    lands_of (by decide +kernel), by decide +kernel, by decide +kernel⟩

theorem witness_SecurityActs_image (h : ∀ k m g, Config.mldsaVerify k m g = true) (h2 : sha3 (imageKey (anImage 1)) = Config.rootKeyHash 0) :
    imageReason State.reset [1, 2] (anImage 1) = 0 := by
  unfold imageReason
  rw [if_neg (by decide +kernel), if_neg (by decide +kernel), if_neg (by decide +kernel), if_neg, if_neg (by decide +kernel)]
  rintro (g | g | g)
  · exact g h2
  · exact g (by decide +kernel)
  · rw [h] at g; cases g

/-! ### Tests from the worked examples and tables of the spec -/

/-- R63's example: core P9.C3, its MX_ frame, and the set alias of MX_ offset 0x040. -/
theorem test_core_window : winOff .mx 120 0 = 0x0199B000 ∧ place 0x0199B440 = .frame .mx 120 0x440 ∧ 13 * 9 + 3 = 120 := by decide +kernel

/-- The largest finite values of R92: FP16 65,504, E4M3 448, E5M2 57,344, E3M2 28, E2M3 7.5, E2M1 6. -/
theorem test_largest_finite : [(5, 0x7BFF, 65504, 0), (6, 0x7E, 448, 0), (7, 0x7B, 57344, 0), (0xA, 0x1F, 28, 0), (0xB, 0x1F, 15, -1), (0xC, 7, 6, 0)].all
    (fun ((c, w, m, e) : Nat × Nat × Nat × Int) => (ffmt c).any fun f => f.maxFin false == f.dec w && (f.dec w).eqv (.fin false m e)) = true := by decide +kernel

/-- The canonical NaNs of R93. -/
theorem test_canonical_nans : [1, 2, 4, 5, 6, 7].map (fun c => (ffmt c).map FFmt.canonNan) =
    [some 0x7FF8000000000000, some 0x7FC00000, some 0x7FC0, some 0x7E00, some 0x7F, some 0x7F] := by decide +kernel

/-- R94: magnitudes of (2 − 2^−11) · 2^127 and above become infinity at nearest-even, and truncation never overflows. -/
theorem test_az_narrow : azNarrow false 0x7F7FF000 = .inf false ∧ azNarrow false 0x7F7FEFFF = azNarrow true 0x7F7FF000 ∧ (azNarrow true 0x7F7FFFFF).isInf = false := by decide +kernel

/-- The example of R111: v = 0x3F880800 through an odd BF16 gives 0x3F89 and E4M3 0x39; through nearest-even 0x38. -/
theorem test_odd_narrowing : (bf16.narrow 5 0 0 (fp32.dec 0x3F880800)).code = 0x3F89 ∧ (bf16.narrow 0 0 0 (fp32.dec 0x3F880800)).code = 0x3F88 ∧
    ((ffmt 6).map fun f => ((f.narrow 0 0 0 (fp32.dec 0x3F880800)).code, (f.narrow 0 0 0 (bf16.dec 0x3F89)).code, (f.narrow 0 0 0 (bf16.dec 0x3F88)).code)) =
      some (0x39, 0x39, 0x38) := by decide +kernel

/-- The example of R113: 600 saturates to 448 in E4M3 under OVF 0; its exponent 9 is bin 29 of a histogram of base −20. -/
theorem test_saturation : ((ffmt 6).map fun f => ((f.narrow 0 0 0 (.fin false 600 0)).code, (f.narrow 0 0 0 (.fin false 600 0)).sat)) = some (0x7E, true) ∧
    histBin (-20) (.fin false 600 0) = some 29 := by decide +kernel

/-- The residue chain of R81 to R83: 4,096 · 4,096, 3 · 0.5, −5 · 2. -/
def footExample (k : Nat) : Acc0 :=
  let rows : List (FV × FV) := [(.fin false 4096 0, .fin false 4096 0), (.fin false 3 0, .fin false 1 (-1)), (.fin true 5 0, .fin false 2 0)]
  columnChain 4 ⟨fzero false, 0, false, false, false⟩ ((rows.take k).map fun e => (e.1, rho e.1)) ((rows.take k).map fun e => (e.2, rho e.2))

theorem test_residue_rounds : (footExample 2).val.eqv (.fin false 16777218 0) = true ∧ (footExample 2).res = 3 ∧ rho (footExample 2).val = 3 := by decide +kernel

theorem test_residue_exact : (footExample 3).val.eqv (.fin false 16777208 0) = true ∧ (footExample 3).res = 0 ∧ rho (footExample 3).val = 0 := by decide +kernel

/-- The example of R131: P = −6, RA = 47, CW = 11 and K = 4 give I = −91; here with the scales 1 and 0.5, which FP32 holds. -/
theorem test_int8_terms : (int8Terms ⟨.fin false 1 0, fzero false, -3⟩ ⟨.fin false 1 (-1), fzero false, 2⟩ (-6) 47 11 4).eqv (.fin true 91 (-1)) = true := by decide +kernel

/-- The example of R143: history maximum 3.1 over 448 gives −7, and 9.5 gives −5. -/
theorem test_delayed_scale : ceilLog2Div (.fin false 31 0) (.fin false 4480 0) = -7 ∧ ceilLog2Div (.fin false 19 (-1)) (.fin false 448 0) = -5 := by decide +kernel

/-- The example of R172: offset 0x205BC0 of stack 9, before and after channel 77 is mapped out. -/
theorem test_map_out : ownerOf 0x900000205BC0 = none ∧ interleave [] 0x205BC0 = (77, 526) ∧ interleave [77] 0x205BC0 = (32, 0xFE000E) ∧
    (interleave [77] (0x205BC0 + 512)).1 = 78 := by decide +kernel

/-- The example of R297: the entry for coordinate 629, and a KMASK whose ports are down with ALT on port 3. -/
theorem test_route_entry : winOff .rtEntry 2 (4 * 117) = 0x1521D4 ∧ candidates (withF F.FAB_P_STATE_LSTATE 3 3) 0x83C00000 = [3] ∧
    candidates State.reset 0x83C00000 = [] := by decide +kernel

/-- The example of R334: step 12,345 of the reset Pannier lies at 0x0130_9000_0000. -/
theorem test_pannier_slot : panSlot State.reset 12345 = 0x013090000000 := by decide +kernel

/-- The example of R404: T1 to T4 give a delay of 156 and an offset of +456, by which the unlocked follower steps. -/
def syncExample : State :=
  let s := following 5000000000
  timeResponseArrive { s with time := { s.time with now := 5000000400 } }
    { aPacket with payload := timePayload true 5000000000 5000000612 5000000700 }

theorem test_time_step : rf syncExample F.TIME_DELAY_DELAY 0 = 156 ∧ rf syncExample F.TIME_OFFSET_O 0 = 456 ∧ syncExample.time.now = 5000000856 := by decide +kernel

/-- The example of R417: LIMIT_W 1,800 and HYST_W 50. -/
theorem test_power_levels : rf ([2000, 1956, 1913, 1869, 1825, 1781].foldl sumStep (wf (withF F.PWR_CTRL_LIMIT_W 0 1800) F.PWR_CTRL_HYST_W 0 50)) F.PWR_STATUS_LEVEL 0 = 5 := by
  decide +kernel

/-- The example of R447: FH_UNIT of kind 1 and index 59 is the grant argument 0x0001003B. -/
theorem test_grant_argument : regLive (wf (withF F.FH_UNIT_KIND 0 1) F.FH_UNIT_INDEX 0 59) (F.FH_UNIT_KIND.key 0) = 0x1003B := by decide +kernel

/-- The published values of the functions the spec names: CRC-32 of nine digits, SHA3-256 and SHAKE128 of nothing. -/
theorem test_crc32 : crc32 ([0x31, 0x32, 0x33, 0x34, 0x35, 0x36, 0x37, 0x38, 0x39] : List Byte) = 0xCBF43926 := by decide +kernel

theorem test_hashes : (sha3 []).take 4 = [0xA7, 0xFF, 0xC6, 0xF8] ∧ shake [] 4 = [0x7F, 0x9C, 0x2B, 0xA4] := by decide +kernel

/-- The memories of the reset state have their canonical form. -/
theorem test_reset_memories (p g : Nat) : Memory.wf (getPart State.reset p).stack = true ∧ Memory.wf (getPart State.reset p).pinned = true ∧
    Memory.wf (getCore State.reset g).store = true := ⟨rfl, rfl, rfl⟩

/-- No row of the table gives its command bits. -/
theorem test_no_table_words : decodeTableWord 32 0 = none := rfl

/-! ### Ill-formed terms, one for each check -/

theorem test_wf_units : [Instr.wload 260 0, .wload 0 8, .lineFill 20 [], .fabLinkDown 24, .ringPoll 2080, .interruptHoldoff 64, .packetRoute 28,
    .meshFlitReceive 10 true, .loopCountWrite .host 0 16 0].all (fun i => !i.wf) = true := by decide +kernel

theorem test_wf_offsets : [Instr.regWrite .host (2 ^ 48) 4 0, .readLo .host 2, .writeLo .host 2 0, .writeHi .host 2 0, .setAliasWrite .host 0 0,
    .clearAliasWrite .host 0x400 0, .toggleAliasWrite .host 0x800 0, .ugrpWrite .host 0 0, .seqWriteBack .host 1 0].all (fun i => !i.wf) = true := by decide +kernel

theorem test_wf_requests : [Instr.sliceAccess ⟨.core 260, false, 0, 1, [], 0, 0⟩, .sliceAccess ⟨.hub, false, 2 ^ 48, 1, [], 0, 0⟩, .sliceAccess ⟨.hub, false, 0, 0, [], 0, 0⟩,
    .sliceAccess ⟨.hub, false, 127, 2, [], 0, 0⟩, .sliceAccess ⟨.hub, true, 0, 1, [], 0, 0⟩, .sliceAccess ⟨.hub, false, 0, 1, [], 4, 0⟩, .sliceAccess ⟨.hub, false, 0, 1, [], 0, 2 ^ 32⟩,
    .sliceAtomic ⟨.hub, 0, 8, 0, false, 0, 0, [], 0⟩, .sliceAtomic ⟨.hub, 0, 0, 8, false, 0, 0, [], 0⟩, .sliceAtomic ⟨.hub, 0, 0, 0, true, 0, 0, [], 0⟩,
    .sliceAtomic ⟨.hub, 0, 0, 0, false, 2 ^ 64, 0, [], 0⟩, .sliceAtomic ⟨.hub, 0, 0, 0, false, 0, 2 ^ 64, [], 0⟩, .lineFill 0 [(144, 0)], .patrolScrub 0 0,
    .scaleStage 0 0 (2 ^ 32) false, .sliceScaleRoll .hub 0 (2 ^ 48), .sliceContrib .hub 0 0 0 []].all (fun i => !i.wf) = true := by decide +kernel

theorem test_wf_host : [Instr.dmemRd (2 ^ 16) 0 1, .dmemRd 0 1 1, .dmemRd 0 0 0, .dmemRd 0 0 129, .dmemWr 0 [0], .dmemWr 16 [], .hmemRdCompletion 0 8 []].all
    (fun i => !i.wf) = true := by decide +kernel

theorem test_wf_fabric : [Instr.ackReceive { aPacket with dest := 4096 }, .ackReceive { aPacket with src := 4096 }, .ackReceive { aPacket with cls := 8 },
    .ackReceive { aPacket with kind := 16 }, .ackReceive { aPacket with slice := 4096 }, .ackReceive { aPacket with addr := 2 ^ 48 }, .ackReceive { aPacket with hops := 64 },
    .ackReceive { aPacket with tag := 2 ^ 32 }, .identReceive 0 ⟨1, 32, 0, false, false, 0, 0, []⟩, .identReceive 0 ⟨1, 0, 0, false, false, 4096, 0, []⟩,
    .linkBlockReceive 0 true 0 (aBlock 0), .linkBlockReceive 0 true 0 ⟨List.replicate 8 [], List.replicate 32 0⟩,
    .linkBlockReceive 0 true 0 ⟨List.replicate 8 (List.replicate 128 0), []⟩].all (fun i => !i.wf) = true := by decide +kernel

theorem test_wf_measures : [Instr.partitionReset .host 0 ⟨[(128, 0)], [], [], true⟩, .partitionReset .host 0 ⟨[(0, 19)], [], [], true⟩, .partitionReset .host 0 ⟨[], [128], [], true⟩,
    .partitionReset .host 0 ⟨[], [], [13], true⟩, .rootLock [(20, ⟨[], [], [], true⟩)], .powerSum (2 ^ 16), .thermtrip 256 0 0 0, .thermalThrottle 0 0 0 256,
    .ucieTrainEnd 16 0, .ucieTrainEnd 0 16].all (fun i => !i.wf) = true := by decide +kernel

theorem test_wf_others : [Instr.voteLine 12 (List.replicate 128 0), .voteLine 0 [], .voteResult [], .stagingInbound true 0 1 [], .stagingInbound false 0 0 [0], .hang 2 0,
    .eventAgeOut 16 0 0, .eventAgeOut 0 0 256, .istPatternDone 0 256 0 0 0, .attestRequest [], .i3cDynamicAddress 128].all (fun i => !i.wf) = true := by decide +kernel

/-- A well-formed command of each shape passes. -/
theorem test_wf_passes : [Instr.wload 259 7, .regWrite .host 0x10004 4 1, .setAliasWrite .fw 0x10404 1, .ugrpWrite .mgmt 0x103FC 0, .hang 4 23, .voteResult (List.replicate 128 0),
    .sliceAccess ⟨.core 0, true, 128, 2, [0, 1], 3, 7⟩, .ackReceive aPacket, .rootLock [(0, ⟨[], [], [], true⟩)]].all Instr.wf = true := by decide +kernel

end Sys2Proof.Tests
end

section
/-! PROOFS. The statements of chapter 01, "The package at a glance". -/

namespace Sys2Proof.Proofs

open Sys2Proof Sys2Proof.Machine

/-! ### Mesh bridges (R17): what MESH_FLIT_RECEIVE does, one equation per branch -/

section MeshFlit

variable {n : Nat} {s : State}

theorem exec_meshFlitReceive (n : Nat) (crcOk : Bool) (s : State) :
    exec (.meshFlitReceive n crcOk) s = execMeshFlitReceive n crcOk s := rfl

/-- Bridge `n` counts one more replay, and its flit in progress one more failure. -/
def flitReplayed (n : Nat) (s : State) : State :=
  { s with mesh := { replays := aput s.mesh.replays n ((aget s.mesh.replays n).getD 0 + 1),
                     fails := aput s.mesh.fails n ((aget s.mesh.fails n).getD 0 + 1) } }

/-- The command reaches its bridge: the first guard of `execMeshFlitReceive` does not hold. -/
theorem flit_reaches_bridge (up : hubUp s = true) (bridge : n < 10) : ¬((!hubUp s) = true ∨ 10 ≤ n) := by
  rintro (down | beyond)
  · simp [up] at down
  · omega

theorem execMeshFlitReceive_good (up : hubUp s = true) (bridge : n < 10) :
    execMeshFlitReceive n true s = .next { s with mesh := { s.mesh with fails := adel s.mesh.fails n } } := by
  rw [execMeshFlitReceive, if_neg (flit_reaches_bridge up bridge), if_pos rfl]

theorem execMeshFlitReceive_bad (up : hubUp s = true) (bridge : n < 10)
    (run : (aget s.mesh.fails n).getD 0 + 1 ≠ 8) :
    execMeshFlitReceive n false s = .next (flitReplayed n s) := by
  rw [execMeshFlitReceive, if_neg (flit_reaches_bridge up bridge), if_neg Bool.false_ne_true]
  exact if_neg run

theorem execMeshFlitReceive_eighth (up : hubUp s = true) (bridge : n < 10)
    (run : (aget s.mesh.fails n).getD 0 + 1 = 8) :
    execMeshFlitReceive n false s =
      .next (fhReport (raise (flitReplayed n s) E.MESH_FATAL (U.port (29 + n)) 0 0) 4 (29 + n) 0x25 false
        { CperInfo.plain with detail := [(aget s.mesh.replays n).getD 0 + 1] }) := by
  rw [execMeshFlitReceive, if_neg (flit_reaches_bridge up bridge), if_neg Bool.false_ne_true]
  exact if_pos run

end MeshFlit

/-- Settles O40, by the three branches of MESH_FLIT_RECEIVE on a bridge of a hub that is up. -/
theorem bridgesReplay : Obligations.BridgesReplay := by
  unfold Obligations.BridgesReplay
  intro n s up bridge
  simp only [exec_meshFlitReceive]
  exact ⟨execMeshFlitReceive_good up bridge, execMeshFlitReceive_bad up bridge, execMeshFlitReceive_eighth up bridge⟩

end Sys2Proof.Proofs
end

section
/-! PROOFS. The statements of chapter 02, "The Waybill": its window in the register map, and its regeneration. -/

namespace Sys2Proof.Proofs

open Sys2Proof Sys2Proof.Machine Sys2Proof.Laws

/-! ### The Waybill's window (R27) -/

section WaybillWindow

variable {s : State} {off : Nat}

theorem accReason_waybill (low : off < 0x10000) (aligned : off % 4 = 0) (req : Requester) : accReason req off 4 = 0 := by
  unfold accReason
  rw [if_neg (by omega), place_waybill low]

theorem windowWrite_waybill (up : hubUp s = true) (low : off < 0x10000) (aligned : off % 4 = 0) (req : Requester) (v : Word) :
    windowWrite s req off 4 v = .next s := by
  simp [windowWrite, up, accReason_waybill low aligned, place_waybill low]

theorem windowRead_waybill (up : hubUp s = true) (low : off < 0x10000) (aligned : off % 4 = 0) (req : Requester) :
    windowRead s req off 4 = answer s req off false (wordAt (waybillImage s) off) := by
  simp [windowRead, up, accReason_waybill low aligned, place_waybill low]

/-- RST_PKG_CMD, the one register outside `windowWrite`, does not lie in the Waybill. -/
theorem regWriteAny_waybill (low : off < 0x10000) (req : Requester) (v : Word) :
    regWriteAny s req off 4 v = windowWrite s req off 4 v :=
  if_neg fun ⟨_, page, _⟩ => by omega

end WaybillWindow

/-! ### Bytes beyond the end of a list read as zero -/

theorem slice_beyond {l : List Byte} {off : Nat} (beyond : l.length ≤ off) (n : Nat) : slice off n l = List.replicate n 0 := by
  simp [slice, List.drop_eq_nil_of_le beyond]

theorem ofLE_replicate_zero (n : Nat) : ofLE (List.replicate n 0) = 0 := by
  induction n with
  | zero => rfl
  | succ n ih =>
    rw [List.replicate_succ, ofLE, ih]
    rfl

theorem wordAt_beyond {l : List Byte} {off : Nat} (beyond : l.length ≤ off) : wordAt l off = 0 := by
  rw [wordAt, fieldLE, slice_beyond beyond, ofLE_replicate_zero]
  rfl

/-- Settles O9, by the Waybill's place in the window and by what a read beyond the end of a list of bytes returns. -/
theorem waybillReadOnly : Obligations.WaybillReadOnly := by
  unfold Obligations.WaybillReadOnly
  refine ⟨fun req off v s up low aligned => ⟨?_, ?_⟩, fun s off beyond => wordAt_beyond beyond⟩
  · rw [exec_regWrite, regWriteAny_waybill low, windowWrite_waybill up low aligned]
  · rw [exec_regRead, windowRead_waybill up low aligned, answer]

/-! ### Regeneration (R36 to R38): what WAYBILL_REGENERATE does, one equation per branch -/

theorem exec_waybillRegenerate (s : State) : exec .waybillRegenerate s = execWaybillRegenerate s := rfl

theorem execWaybillRegenerate_due {s : State} (due : s.waybill.due = true) :
    execWaybillRegenerate s = .next (attestCapture (waybillBuild s)) :=
  if_pos due

theorem execWaybillRegenerate_settled {s : State} (settled : s.waybill.due = false) : execWaybillRegenerate s = .next s :=
  if_neg (by simp [settled])

theorem attestCapture_idle {s : State} (idle : s.sec.attest = none) : attestCapture s = s := by
  rw [attestCapture, idle]

/-! ### What a build of the Waybill leaves behind -/

/-- The state after the switch of the window to the new image, before the switch is recorded (R37, R38). -/
def waybillSwitched (s : State) : State :=
  wf { s with waybill :=
        { rev := s.waybill.rev + 1, shown := (s.regs.filter fun e => wbShows e.1).map fun e => (e.1, regLive s e.1)
          failed := s.power.failed, grade := grade s, due := false } }
    F.HUB_WAYBILL_REV_REV 0 (s.waybill.rev + 1)

theorem waybillBuild_eq_raise (s : State) :
    waybillBuild s = raise (waybillSwitched s) E.WAYBILL_CHANGED U.none 0 (s.waybill.rev + 1) := rfl

theorem waybillBuild_due (s : State) : (waybillBuild s).waybill.due = false := by
  simp [waybillBuild_eq_raise, waybillSwitched]

theorem waybillBuild_rev (s : State) : (waybillBuild s).waybill.rev = s.waybill.rev + 1 := by
  simp [waybillBuild_eq_raise, waybillSwitched]

theorem waybillBuild_sec (s : State) : (waybillBuild s).sec = s.sec := by
  simp [waybillBuild_eq_raise, waybillSwitched]

/-- HUB_WAYBILL_REV mirrors REVISION: it is none of the registers that recording the switch may write. -/
theorem rf_waybillBuild_rev (s : State) : rf (waybillBuild s) F.HUB_WAYBILL_REV_REV 0 = (s.waybill.rev + 1) % 2 ^ 32 := by
  have kept : regLive (waybillBuild s) (F.HUB_WAYBILL_REV_REV.key 0) = regLive (waybillSwitched s) (F.HUB_WAYBILL_REV_REV.key 0) :=
    (raise_rel (waybillSwitched s) E.WAYBILL_CHANGED U.none 0 (s.waybill.rev + 1)).2 _ (by decide)
  rw [rf, kept]
  exact rf_wf_word _ F.HUB_WAYBILL_REV_REV 0 _ rfl rfl

theorem waybillBuild_cur (s : State) : (waybillBuild s).ledger.cur =
    s.ledger.cur ++ [raiseRec (waybillSwitched s) E.WAYBILL_CHANGED U.none 0 (s.waybill.rev + 1)] := by
  rw [waybillBuild_eq_raise, raise_cur, waybillSwitched, wf_ledger]

/-- Settles O39, by the two branches of WAYBILL_REGENERATE and what a build leaves behind; with no attestation in progress the
build is the whole of the command. -/
theorem waybillsAreBuilt : Obligations.WaybillsAreBuilt := by
  unfold Obligations.WaybillsAreBuilt
  refine ⟨fun s due idle => ⟨waybillBuild s, ?_, waybillBuild_due s, waybillBuild_rev s, rf_waybillBuild_rev s,
    _, waybillBuild_cur s, rfl, rfl⟩, fun s settled => ?_⟩
  · rw [exec_waybillRegenerate, execWaybillRegenerate_due due, attestCapture_idle (by rw [waybillBuild_sec, idle])]
  · rw [exec_waybillRegenerate, execWaybillRegenerate_settled settled]

end Sys2Proof.Proofs
end

section
/-! PROOFS. The statements of chapter 03, "Register conventions": accesses, halves, update groups, event registers and the TMR scrub. -/

namespace Sys2Proof.Proofs

open Sys2Proof Sys2Proof.Machine Sys2Proof.Safety Sys2Proof.Laws

/-! ### Accesses of another size or alignment (R40) -/

section BadAccess

variable {s : State} {off size : Nat}

theorem accReason_bad (bad : size ≠ 4 ∨ off % 4 ≠ 0) (req : Requester) : accReason req off size = 1 := if_pos bad

theorem regWriteAny_bad (up : hubUp s = true) (bad : size ≠ 4 ∨ off % 4 ≠ 0) (req : Requester) (v : Word) :
    regWriteAny s req off size v = .next (accFault s 1 req.id (off % 2 ^ 26)) := by
  simp [regWriteAny, windowWrite, up, accReason_bad bad req]

theorem windowRead_bad (up : hubUp s = true) (bad : size ≠ 4 ∨ off % 4 ≠ 0) (req : Requester) :
    windowRead s req off size = answer (accFault s 1 req.id (off % 2 ^ 26)) req off true 0 := by
  simp [windowRead, up, accReason_bad bad req]

end BadAccess

/-- Settles O8: both accesses end in the access fault of reason 1, and the read besides it in an error answer. -/
theorem badAccessRefused : Obligations.BadAccessRefused := by
  unfold Obligations.BadAccessRefused
  intro req off size v s up bad
  obtain ⟨reason, requester, frame⟩ := accFault_facts s 1 req.id (off % 2 ^ 26) (by omega) (req_id_lt req)
  refine ⟨⟨_, regWriteAny_bad up bad req v, reason, requester, frame⟩,
    ⟨answer (accFault s 1 req.id (off % 2 ^ 26)) req off true 0, ?_, ?_, ?_, ?_, onlyEvents_answer frame req off true 0⟩⟩
  · rw [exec_regRead, windowRead_bad up bad]
  · rw [rf_answer, reason]
  · rw [rf_answer, requester]
  · simp [answer]

/-! ### Reads of a page (R45, R47), one equation per branch -/

section PageRead

variable {s : State} {req : Requester} {b : Blk} {i o j off : Nat} {l : List Nat}

theorem pageRead_lo (opened : frameOpen s b i) (hit : reached s req b i o false = some (j :: l)) (lo : isLo b o = true) :
    pageRead s req b i o off =
      answer { s with shadow := aput s.shadow req.id (winOff b i o, readWord s req b j (o + 4)) } req off false (readWord s req b j o) := by
  obtain ⟨-, served, live⟩ := opened
  simp [pageRead, served, live, hit, lo]

theorem pageRead_hi_latched (opened : frameOpen s b i) (hit : reached s req b i o false = some (j :: l)) (hi : isHi b o = true)
    (notLo : isLo b o = false) {upper : Word} (latched : aget s.shadow req.id = some (winOff b i (o - 4), upper)) :
    pageRead s req b i o off = answer { s with shadow := adel s.shadow req.id } req off false upper := by
  obtain ⟨-, served, live⟩ := opened
  simp [pageRead, served, live, hit, hi, notLo, latched]

/-- A register that is no lower half and takes no shadow answers with what it shows. -/
theorem pageRead_shown (opened : frameOpen s b i) (hit : reached s req b i o false = some (j :: l)) (notLo : isLo b o = false)
    (unlatched : isHi b o = true → ∀ upper, aget s.shadow req.id ≠ some (winOff b i (o - 4), upper)) :
    pageRead s req b i o off = answer s req off false (readWord s req b j o) := by
  obtain ⟨-, served, live⟩ := opened
  simp only [pageRead, served, live, hit, notLo, Bool.false_eq_true, if_false]
  cases shadow : aget s.shadow req.id with
  | none => rfl
  | some entry =>
    obtain ⟨tag, upper⟩ := entry
    refine if_neg fun taken => ?_
    obtain ⟨hi, rfl⟩ : isHi b o = true ∧ tag = winOff b i (o - 4) := by simpa using taken
    exact unlatched hi upper shadow

end PageRead

theorem exec_readLo {s : State} {off i o view : Nat} {b : Blk} (reg : regAt off b i o view) (lo : isLo b o = true) (req : Requester) :
    exec (.readLo req off) s = .next (windowRead s req off 4) := by
  show execReadLo req off s = _
  simp [execReadLo, named_regAt reg, lo]

/-- Settles O10, by the three branches of a read of a half: the lower one, and the upper one with and without its shadow. -/
theorem halvesReadAsOne : Obligations.HalvesReadAsOne := by
  unfold Obligations.HalvesReadAsOne
  intro req off b i o view j l s reg opened hit
  have read : windowRead s req off 4 = pageRead s req b i o off := windowRead_regAt reg opened.1 req
  refine ⟨fun lo => ?_, fun hi notLo => ⟨fun upper latched => ?_, fun unlatched => ?_⟩⟩
  · rw [exec_readLo reg lo, read, pageRead_lo opened hit lo, answer]
  · rw [exec_regRead, read, pageRead_hi_latched opened hit hi notLo latched, answer]
  · rw [exec_regRead, read, pageRead_shown opened hit notLo fun _ => unlatched, answer]

/-! ### Writes of a page (R46, R50, R56), one equation per branch -/

/-- A command for one kind of register, at a register of that kind other than RST_PKG_CMD, is the write of the register's page. -/
theorem kindWrite_regAt {s : State} {off i o view : Nat} {b : Blk} {kind : Blk → Nat → Nat → Bool} (reg : regAt off b i o view)
    (ofKind : kind b o view = true) (notPkg : b ≠ .rst ∨ o ≠ 8) (up : hubUp s = true) (req : Requester) (v : Word) :
    kindWrite s req off v kind = pageWrite s req b i o view v := by
  simp only [kindWrite, named_regAt reg, ofKind, if_true, regWriteAny_regAt reg notPkg up]

section PageWrite

variable {s : State} {req : Requester} {b : Blk} {i o : Nat} {l : List Nat}

theorem pageWrite_lo (opened : frameOpen s b i) (hit : reached s req b i o true = some l) (lo : isLo b o = true) (v : Word) :
    pageWrite s req b i o 0 v = .next { s with holding := aput s.holding req.id (winOff b i o, v) } := by
  obtain ⟨-, served, live⟩ := opened
  obtain ⟨noEvent, notUgrp⟩ := isLo_plain lo
  simp [pageWrite, served, live, hit, noEvent, notUgrp, lo]

theorem pageWrite_event (opened : frameOpen s b i) (hit : reached s req b i o true = some l)
    (event : (findReg b o).any RegDef.isSeq = true) (v : Word) :
    pageWrite s req b i o 0 v = .next (l.foldl (fun s j => seqWrite s b o v j) s) := by
  obtain ⟨-, served, live⟩ := opened
  simp only [pageWrite, served, live, hit, event, Bool.false_eq_true, if_false, if_true]

theorem pageWrite_ugrp {v : Word} (landing : lands s req b i 0x3FC v l) (ugrp : (findReg b 0x3FC).isSome = true)
    (noEvent : (findReg b 0x3FC).any RegDef.isSeq = false) :
    pageWrite s req b i 0x3FC 0 v = .next (l.foldl (fun s j => ugrpPut s req b i 0 v j) s) := by
  obtain ⟨⟨-, served, live⟩, hit, kept⟩ := landing
  have unbroken : l.any (fun j => breaksReserved s b j 0x3FC v) = false :=
    List.any_eq_false.mpr fun j here => by simp [kept j here]
  simp only [pageWrite, served, live, hit, noEvent, ugrp, unbroken, Bool.false_eq_true, if_false, and_self, if_true, and_false]

end PageWrite

/-! ### The write holding (R46) -/

section Holding

variable {s : State} {req : Requester} {b : Blk} {i o : Nat}

/-- The state in which a lower half taken from the requester's holding is stored, at each place of `k`. -/
def lowerHalfLanded (s : State) (req : Requester) (b : Blk) (o : Nat) (lo : Word) (k : List Nat) : State :=
  k.foldl (fun s j => storeFields s b j (o - 4) 0 lo) { s with holding := adel s.holding req.id }

theorem withHolding_unmatched (unmatched : ∀ lo, aget s.holding req.id ≠ some (winOff b i (o - 4), lo)) : withHolding s req b i o = s := by
  unfold withHolding
  cases holding : aget s.holding req.id with
  | none => rfl
  | some entry =>
    obtain ⟨tag, lo⟩ := entry
    exact if_neg fun matched => unmatched lo (by rw [holding, matched])

theorem withHolding_matched (opened : frameOpen s b i) {lo : Word} {k : List Nat}
    (matched : aget s.holding req.id = some (winOff b i (o - 4), lo)) (hit : reached s req b i (o - 4) true = some k) :
    withHolding s req b i o = lowerHalfLanded s req b o lo k := by
  obtain ⟨-, served, live⟩ := opened
  have served' : pageDown { s with holding := adel s.holding req.id } b i = false := served
  have live' : pageInert { s with holding := adel s.holding req.id } b i = false := live
  have hit' : reached { s with holding := adel s.holding req.id } req b i (o - 4) true = some k := hit
  simp [withHolding, matched, served', live', hit', lowerHalfLanded]

theorem landHolding_hi (hi : isHi b o = true) : landHolding s req b i o 0 = withHolding s req b i o := if_pos ⟨rfl, hi⟩

theorem landHolding_notHi (notHi : isHi b o = false) (view : Nat) : landHolding s req b i o view = s := if_neg (by simp [notHi])

theorem landHolding_alias {view : Nat} (notBase : view ≠ 0) : landHolding s req b i o view = s := if_neg (by simp [notBase])

end Holding

theorem exec_writeLo {s : State} {off i o : Nat} {b : Blk} (reg : regAt off b i o 0) (lo : isLo b o = true) (up : hubUp s = true)
    (req : Requester) (v : Word) : exec (.writeLo req off v) s = pageWrite s req b i o 0 v :=
  kindWrite_regAt (kind := fun b o view => isLo b o && view == 0) reg (by simp [lo]) (not_rst_of_lo lo) up req v

theorem exec_writeHi {s : State} {off i o : Nat} {b : Blk} (reg : regAt off b i o 0) (hi : isHi b o = true) (up : hubUp s = true)
    (req : Requester) (v : Word) : exec (.writeHi req off v) s = pageWrite s req b i o 0 v :=
  kindWrite_regAt (kind := fun b o view => isHi b o && view == 0) reg (by simp [hi]) (not_rst_of_hi hi) up req v

/-- Settles O11: a lower half goes to the holding, and an upper one is a plain write on the state that the holding leaves. -/
theorem halvesWriteAsOne : Obligations.HalvesWriteAsOne := by
  unfold Obligations.HalvesWriteAsOne
  intro req off b i o l v s reg opened hit
  refine ⟨fun lo => ?_, fun hi notLo plain m u lower landing => ?_⟩
  · rw [exec_writeLo reg lo opened.1, pageWrite_lo opened hit lo]
  · have landed : withHolding s req b i o = u := by
      obtain ⟨rfl, unmatched⟩ | ⟨lo, k, matched, lowerHit, rfl⟩ := lower
      · exact withHolding_unmatched unmatched
      · exact withHolding_matched opened matched lowerHit
    rw [exec_writeHi reg hi opened.1, pageWrite_plain opened hit plain (by simp [notLo]), landHolding_hi hi, landed,
      plainWrite_lands landing]

/-! ### What a write stores (R47 to R49, R59) -/

section Store

variable {s : State} {b : Blk} {j o view : Nat} {v : Word} {r : RegDef}

/-- The bits of a register that a write stores in the live copy. -/
def liveMask (s : State) (b : Blk) (j o : Nat) (r : RegDef) : Word := r.maskOf (fun a => a == .rw || a == .tmr) &&& ~~~ frozen s b j o

/-- The bits of a register that a write stores in the pending copy. -/
def pendMask (s : State) (b : Blk) (j o : Nat) (r : RegDef) : Word := r.maskOf Acc.buffered &&& ~~~ frozen s b j o

/-- The bits of a mask taken from the view's value, the others kept. -/
def masked (mask : Word) (view : Nat) (old v : Word) : Word := (old &&& ~~~ mask) ||| (viewWord view old v &&& mask)

theorem masked_zero (view : Nat) (old v : Word) : masked 0 view old v = old := word_and_zero old (viewWord view old v)

/-- The state after the live part of a write. -/
def liveStored (s : State) (b : Blk) (j o view : Nat) (v : Word) (r : RegDef) : State :=
  if liveMask s b j o r = 0 then s
  else regPut s (regKey b j o) (masked (liveMask s b j o r) view (regLive s (regKey b j o)) v)

/-- A write stores the live part, and then the pending part where the register has one. -/
theorem storeFields_eq (found : findReg b o = some r) :
    storeFields s b j o view v =
      if pendMask s b j o r = 0 then liveStored s b j o view v r
      else pendPut (liveStored s b j o view v r) b j (regKey b j o)
        (legalWord b o (masked (pendMask s b j o r) view (pendWord (liveStored s b j o view v r) (regKey b j o)) v)) := by
  unfold storeFields
  rw [found]
  rfl

theorem liveStored_of_zero (none_ : liveMask s b j o r = 0) : liveStored s b j o view v r = s := if_pos none_

theorem regLive_liveStored_same :
    regLive (liveStored s b j o view v r) (regKey b j o) = masked (liveMask s b j o r) view (regLive s (regKey b j o)) v := by
  unfold liveStored
  split
  case isTrue none_ => rw [none_, masked_zero]
  case isFalse => exact regLive_regPut_same _ _ _

theorem regLive_liveStored_ne {n : Nat} (other : n ≠ regKey b j o) : regLive (liveStored s b j o view v r) n = regLive s n := by
  unfold liveStored
  split
  · rfl
  · exact regLive_regPut_ne _ _ other

/-- The pending part of a write leaves every live copy alone. -/
theorem regLive_storeFields (found : findReg b o = some r) (n : Nat) :
    regLive (storeFields s b j o view v) n = regLive (liveStored s b j o view v r) n := by
  rw [storeFields_eq found]
  split
  · rfl
  · exact regLive_pendPut _ _ _ _ _ _

/-- With no strobe of its group scheduled, a pending copy is entered at once. -/
theorem pendPut_direct (direct : strobeDepth s ((groupOf s b j).getD 16) = 0) (k : Nat) (w : Word) :
    pendPut s b j k w = { s with pend := aput s.pend k w } := by
  unfold pendPut
  cases group : groupOf s b j with
  | none => rfl
  | some g =>
    rw [group] at direct
    exact if_pos direct

theorem pendWord_pendPut {k : Nat} (direct : strobeDepth s ((groupOf s b j).getD 16) = 0)
    (unheld : s.heldWrites.all (fun h => h.key != k) = true) (w : Word) : pendWord (pendPut s b j k w) k = w := by
  have entered := pendWord_pend (s := { s with pend := aput s.pend k w }) unheld
  rw [pendPut_direct direct, entered, aget_aput_same, Option.getD_some]

end Store

/-- Settles O12: the live part of a write is one write of the register file, and the pending part one entry of the pending copies. -/
theorem writesReachTheirBits : Obligations.WritesReachTheirBits := by
  unfold Obligations.WritesReachTheirBits
  intro b j o view v s r found k m x t
  refine ⟨(regLive_storeFields found k).trans regLive_liveStored_same, fun buffered direct unheld noLive => ?_,
    fun n other => (regLive_storeFields found n).trans (regLive_liveStored_ne other), ?_⟩
  · have stored : t = pendPut s b j k (legalWord b o (masked x view (pendWord s k) v)) := by
      have unchanged : liveStored s b j o view v r = s := liveStored_of_zero noLive
      have entered := storeFields_eq (s := s) (j := j) (view := view) (v := v) found
      rw [unchanged, if_neg (show pendMask s b j o r ≠ 0 from buffered)] at entered
      exact entered
    rw [stored]
    exact pendWord_pendPut direct unheld _
  · obtain ⟨regs, tmr, pend, heldWrites, stored⟩ := storeFields_rest s b j o view v
    simp only [t, stored]

/-! ### Writes to plain registers (R47) -/

section PlainWrite

variable {s : State} {req : Requester} {off i o view : Nat} {b : Blk} {l : List Nat}

/-- A plain register's write through a view other than the base page reaches every place selected. -/
theorem pageWrite_alias (plain : plainReg b o) (notBase : view ≠ 0) (opened : frameOpen s b i)
    (hit : reached s req b i o true = some l) (v : Word) :
    pageWrite s req b i o view v =
      .next (l.foldl (fun u j => regEffect req b o view v j (regLive u (regKey b j o)) (storeFields u b j o view v)) s) := by
  rw [pageWrite_plain opened hit plain fun base => notBase base.1, landHolding_alias notBase]
  exact regWriteTo_alias ⟨opened, hit⟩ notBase v _

theorem plainReg_notPkg (plain : plainReg b o) : b ≠ .rst ∨ o ≠ 8 := by
  obtain ⟨-, -, -, -, -, -, notPkg⟩ := plain
  exact notPkg

/-- A command of one view other than the base page, at a plain register named through that view. -/
theorem kindWrite_alias (reg : regAt off b i o view) (plain : plainReg b o) (notBase : view ≠ 0) (opened : frameOpen s b i)
    (hit : reached s req b i o true = some l) (v : Word) :
    kindWrite s req off v (fun _ _ w => w == view) =
      .next (l.foldl (fun u j => regEffect req b o view v j (regLive u (regKey b j o)) (storeFields u b j o view v)) s) := by
  rw [kindWrite_regAt reg (beq_self_eq_true view) (plainReg_notPkg plain) opened.1, pageWrite_alias plain notBase opened hit]

end PlainWrite

/-- Settles O13: the base page's write has no holding to land, the other three views share one argument, and a register that is no
half answers a read with what it shows. -/
theorem plainWritesLand : Obligations.PlainWritesLand := by
  unfold Obligations.PlainWritesLand
  refine ⟨?writes, ?read⟩
  case writes =>
    intro req off b i o view l v s reg plain t
    refine ⟨?base, ?set, ?clear, ?toggle⟩
    case base =>
      rintro rfl notLo notHi landing
      rw [exec_regWrite, regWriteAny_regAt reg (plainReg_notPkg plain) landing.1.1,
        pageWrite_plain landing.1 landing.2.1 plain (by simp [notLo]), landHolding_notHi notHi, plainWrite_lands landing]
    all_goals
      rintro rfl opened hit
      exact kindWrite_alias reg plain (by decide) opened hit v
  case read =>
    intro req off b i o view j l s reg opened hit notLo notHi
    rw [exec_regRead, windowRead_regAt reg opened.1, pageRead_shown opened hit notLo (by simp [notHi]), answer]

/-! ### UGRP registers (R50) -/

section Ugrp

variable {s : State} {b : Blk} {j : Nat}

theorem ugrpPut_pending (pending : blockPending s (regKey b j 0x3FC) = true) (req : Requester) (i : Nat) (v : Word) :
    ugrpPut s req b i 0 v j = accFault s 5 req.id (winOff b i 0x3FC) := if_pos pending

theorem ugrpPut_free (free : blockPending s (regKey b j 0x3FC) = false) (req : Requester) (i : Nat) (v : Word) :
    ugrpPut s req b i 0 v j = storeFields s b j 0x3FC 0 v := if_neg (by simp [free])

/-- The group field of a UGRP register is its four lowest bits, stored at once. -/
theorem storeFields_ugrp (ugrp : (findReg b 0x3FC).isSome = true) (notEntry : b ≠ .rtEntry) (notFlags : b ≠ .seqF) (v : Word) :
    onlyRegs [regKey b j 0x3FC] s (storeFields s b j 0x3FC 0 v) ∧
      wbits 3 0 (regLive (storeFields s b j 0x3FC 0 v) (regKey b j 0x3FC)) = wbits 3 0 v := by
  obtain ⟨-, masks, -⟩ := ugrp_table b ugrp notEntry notFlags
  obtain ⟨r, found⟩ := Option.isSome_iff_exists.mp ugrp
  simp only [found, Option.any_some, Bool.and_eq_true, beq_iff_eq] at masks
  obtain ⟨group, unbuffered⟩ := masks
  obtain ⟨frame, stored⟩ := storeFields_live (s := s) (j := j) found (frozen_ugrp s b j ugrp notEntry notFlags) unbuffered v
  exact ⟨frame, by rw [stored, wbits_mask4 _ _ _ group]⟩

end Ugrp

/-- Settles O14: at each place reached the write is refused or stored, as the block there has a pending write or none. -/
theorem groupChangesOnlyWhenNothingPends : Obligations.GroupChangesOnlyWhenNothingPends := by
  unfold Obligations.GroupChangesOnlyWhenNothingPends
  intro req off b i l v s reg ugrp notEntry notFlags landing
  obtain ⟨noEvent, -⟩ := ugrp_table b ugrp notEntry notFlags
  refine ⟨?_, fun u j => ⟨fun pending => ugrpPut_pending pending req i v, fun free => ?_⟩⟩
  · have write : exec (.ugrpWrite req off v) s = pageWrite s req b i 0x3FC 0 v :=
      kindWrite_regAt (kind := fun b o view => o == 0x3FC && view == 0 && (findReg b o).isSome) reg (by simp [ugrp]) (.inr (by decide))
        landing.1.1 req v
    rw [write, pageWrite_ugrp landing ugrp noEvent]
  · rw [ugrpPut_free free]
    exact storeFields_ugrp ugrp notEntry notFlags v

/-! ### Event registers (R56) -/

section Events

variable {s : State} {b : Blk} {o j : Nat} {v : Word}

theorem seqTicked_seqAdvance (s : State) (k : Nat) : (seqAdvance s k).seqTicked.contains k = true := by
  rw [seqAdvance_eq]
  split
  case isTrue ticked => exact ticked
  case isFalse => simp

/-- Recording an event advances SEQ where this is the register's first event of the tick or since a clear. -/
theorem seq_ev (s : State) (f : Fld) (i : Nat) (ordered : f.lo ≤ f.hi) (low : f.hi < 16) :
    wbits 31 16 (regLive (ev s f i) (f.key i)) =
      if s.seqTicked.contains (f.key i) then wbits 31 16 (regLive s (f.key i)) else (wbits 31 16 (regLive s (f.key i)) + 1) % 65536 := by
  have kept : wbits 31 16 (regLive (wf s f i 1) (f.key i)) = wbits 31 16 (regLive s (f.key i)) := by
    rw [wf, regLive_regPut_same, wbits_wput_disj _ _ _ _ _ _ ordered (by decide) (.inr low)]
  have ticked : (wf s f i 1).seqTicked = s.seqTicked := by simp
  rw [ev, seq_seqAdvance, kept, ticked]

theorem onlyEvents_seqClear (s : State) (k : Nat) : onlyEvents [k] s (seqClear s k) := by
  obtain ⟨-, others, -, regs, tmr, ticked, cleared⟩ := seqClear_parts s k
  exact onlyEvents_of (fun n other => others n (by simpa using other)) cleared

theorem seqWrite_stale (stale : wbits 31 16 v ≠ wbits 31 16 (regLive s (regKey b j o))) : seqWrite s b o v j = s := if_pos stale

theorem seqWrite_current (current : wbits 31 16 v = wbits 31 16 (regLive s (regKey b j o))) :
    seqWrite s b o v j = if b = .hub ∧ o = 0x1C then wf (seqClear s (regKey b j o)) F.HUB_UPD_SKIPPED_PARTITIONS 0 0
      else seqClear s (regKey b j o) := if_neg fun stale => stale current

theorem updStatus_ne_updSkipped (j : Nat) : regKey .hub j 0x1C ≠ F.HUB_UPD_SKIPPED_PARTITIONS.key 0 := by
  simp only [Fld.key, F.HUB_UPD_SKIPPED_PARTITIONS, regKey]
  omega

/-- The registers that a write-back of an event register may clear: HUB_UPD_SKIPPED goes with HUB_UPD_STATUS. -/
def clearedKeys (b : Blk) (j o : Nat) : List Nat :=
  if b = .hub ∧ o = 0x1C then [regKey b j o, F.HUB_UPD_SKIPPED_PARTITIONS.key 0] else [regKey b j o]

/-- A write-back of the current SEQ clears the event fields, keeps SEQ, and lets the next event advance it. -/
theorem seqWrite_clears (current : wbits 31 16 v = wbits 31 16 (regLive s (regKey b j o))) :
    regLive (seqWrite s b o v j) (regKey b j o) = regLive s (regKey b j o) &&& fmask 31 16 ∧
      (seqWrite s b o v j).seqTicked = s.seqTicked.filter (· != regKey b j o) ∧
      onlyEvents (clearedKeys b j o) s (seqWrite s b o v j) := by
  obtain ⟨word, -, ticked, -⟩ := seqClear_parts s (regKey b j o)
  have frame := onlyEvents_seqClear s (regKey b j o)
  rw [seqWrite_current current, clearedKeys]
  split
  case isTrue updStatus =>
    obtain ⟨rfl, rfl⟩ := updStatus
    refine ⟨?_, ?_, ?_⟩
    · rw [regLive_wf_ne _ _ _ _ _ (updStatus_ne_updSkipped j), word]
    · simpa using ticked
    · exact onlyEvents_trans (onlyEvents_mono frame (by simp)) (onlyEvents_of_regs (onlyRegs_wf _ 0 (by simp)))
  case isFalse => exact ⟨word, ticked, frame⟩

/-- No event register lies at the place of RST_PKG_CMD. -/
theorem event_notPkg (event : (findReg b o).any RegDef.isSeq = true) : b ≠ .rst ∨ o ≠ 8 := by
  by_cases page : b = .rst
  · refine .inr fun place => ?_
    subst page place
    exact absurd event (by decide +kernel)
  · exact .inl page

theorem exec_seqWriteBack {off i : Nat} {req : Requester} (reg : regAt off b i o 0) (opened : frameOpen s b i)
    (hit : reached s req b i o true = some [j]) (event : (findReg b o).any RegDef.isSeq = true) :
    exec (.seqWriteBack req off v) s = .next (seqWrite s b o v j) := by
  have write : exec (.seqWriteBack req off v) s = pageWrite s req b i o 0 v :=
    kindWrite_regAt (kind := fun b o view => view == 0 && (findReg b o).any RegDef.isSeq) reg (by simp [event]) (event_notPkg event)
      opened.1 req v
  rw [write, pageWrite_event opened hit event, List.foldl_cons, List.foldl_nil]

end Events

/-- Settles O16: what recording an event leaves, the two branches of a write-back, and the tables' reset values. -/
theorem eventsClearBySequence : Obligations.EventsClearBySequence := by
  unfold Obligations.EventsClearBySequence
  refine ⟨fun s f i ordered low => ⟨rf_ev_same s f i ordered low, seqTicked_seqAdvance _ _, seq_ev s f i ordered low⟩,
    fun req off b i o j v s reg opened hit event => ⟨fun stale => ?_, fun current => ⟨seqWrite s b o v j, ?_, seqWrite_clears current⟩⟩,
    fun b o i event inst page => (regLive_reset _).trans (seq_reset event inst page)⟩
  · rw [exec_seqWriteBack reg opened hit event, seqWrite_stale stale]
  · exact exec_seqWriteBack reg opened hit event

/-! ### The TMR scrub (R59, R60), by how many copies agree -/

section Scrub

variable {a b c : Nat}

theorem exec_tmrScrub {s : State} (up : hubUp s = true) : exec .tmrScrub s = .next (s.tmr.foldl scrubField s) :=
  if_neg (by simp [up])

theorem scrubField_equal (s : State) (k : Nat) (first : a = b) (second : b = c) : scrubField s (k, ⟨a, b, c⟩) = s :=
  if_pos ⟨first, second⟩

/-- A field with two copies that agree and one that does not takes the voted value, and one correction is counted. -/
theorem scrubField_odd (s : State) (k : Nat) (odd : ¬(a = b ∧ b = c)) (agree : a = b ∨ a = c ∨ b = c) :
    scrubField s (k, ⟨a, b, c⟩) = bump (copiesFix s (k, ⟨a, b, c⟩) (Copies.vote ⟨a, b, c⟩ 0)) F.HUB_TMR_CORR_LO_CORR 0 1 := by
  have two : Copies.agree ⟨a, b, c⟩ = true := by simpa [Copies.agree, or_assoc] using agree
  exact (if_neg odd).trans (if_pos two)

theorem scrubField_split (s : State) (k : Nat) (ab : a ≠ b) (bc : b ≠ c) (ac : a ≠ c) :
    scrubField s (k, ⟨a, b, c⟩) = tmrSplit s (k, ⟨a, b, c⟩) := by
  have none_ : Copies.agree ⟨a, b, c⟩ = false := by simp [Copies.agree, ab, bc, ac]
  rw [scrubField, if_neg fun equal => ab equal.1, if_neg (by simp [none_])]

theorem vote_first (safe : Nat) (agree : a = b ∨ a = c) : Copies.vote ⟨a, b, c⟩ safe = a := if_pos agree

theorem vote_rest (safe : Nat) (ab : a ≠ b) (bc : b = c) : Copies.vote ⟨a, b, c⟩ safe = b := by
  subst bc
  exact (if_neg (by simp [ab])).trans (if_pos rfl)

end Scrub

/-- Settles O38, by the cases of three copies: all equal, one of them odd, all different. -/
theorem scrubsMend : Obligations.ScrubsMend := by
  unfold Obligations.ScrubsMend
  refine ⟨fun s up => exec_tmrScrub up, fun s k a b c => ⟨scrubField_equal s k, fun ab bc => ?_, fun ab bc => ?_, fun ab ac => ?_,
    scrubField_split s k⟩⟩
  · rw [scrubField_odd s k (fun equal => ab equal.1) (.inr (.inr bc)), vote_rest 0 ab bc]
  · rw [scrubField_odd s k (fun equal => bc equal.2) (.inl ab), vote_first 0 (.inl ab)]
  · rw [scrubField_odd s k (fun equal => ab equal.1) (.inr (.inl ac)), vote_first 0 (.inr ac)]

end Sys2Proof.Proofs
end

section
/-! PROOFS. The statements of chapter 04, "The matrix array": its counters' CLEAR with those of the other blocks, freezes, and injections. -/

namespace Sys2Proof.Proofs

open Sys2Proof Sys2Proof.Machine Sys2Proof.Safety Sys2Proof.Laws

/-! ### CLEAR commands (R90, R148, R163, R191, R192): a pulse that stores nothing, and registers set to zero -/

section Clear

variable {s : State} {req : Requester} {b : Blk} {i j off : Nat} {v : Word}

theorem exec_mxCntClr (req : Requester) (g : Nat) (s : State) :
    exec (.mxCntClr req g) s = regCmd s req .mx g 0x24 1 fun g _ u => mxCntClrEffect g u := rfl

theorem exec_vxCntClr (req : Requester) (g : Nat) (s : State) :
    exec (.vxCntClr req g) s = regCmd s req .vx g 0x24 1 fun g _ u => vxCntClrEffect g u := rfl

theorem exec_qntCntClr (req : Requester) (g : Nat) (s : State) :
    exec (.qntCntClr req g) s = regCmd s req .qnt g 0x20 1 fun g _ u => qntCntClrEffect g u := rfl

theorem exec_scCntClr (req : Requester) (p : Nat) (s : State) :
    exec (.scCntClr req p) s = regCmd s req .sc p 0x1C 8 fun p _ u => scCmdEffect p 8 u := rfl

theorem exec_memCntClr (req : Requester) (p : Nat) (s : State) :
    exec (.memCntClr req p) s = regCmd s req .mem p 0x1C 1 fun p _ u => memCntClrEffect p u := rfl

theorem exec_memChClr (req : Requester) (p : Nat) (s : State) :
    exec (.memChClr req p) s = regCmd s req .memCh p 0x14 1 fun c _ u => chClrEffect c u := rfl

/-- Of the four pulses of SC_CMD, the word 8 sets CNT_CLR alone. -/
theorem scCmdEffect_cntClr (p : Nat) (u : State) : scCmdEffect p 8 u = scCntClr u p := by
  rw [scCmdEffect, if_pos (by decide), if_neg (by decide), if_neg (by decide), if_neg (by decide)]

/-- None of the CLEAR registers has a field that a write stores. -/
theorem clear_table : ∀ e ∈ [(Blk.mx, 0x24), (.vx, 0x24), (.qnt, 0x20), (.sc, 0x1C), (.mem, 0x1C), (.memCh, 0x14)],
    pulseOnly e.1 e.2 (~~~ 0) = true := by decide +kernel

/-- A command that is a pulse, whose effect is to zero registers of its page, zeroes them and changes nothing else. -/
theorem clearCmd_zeroes {c : Instr} {eff : Nat → Word → State → State} {offs : List Nat} (landing : lands s req b i off v [j])
    (command : exec c s = regCmd s req b i off v eff) (pulse : pulseOnly b off (~~~ 0) = true) (thawed : frozen s b j off = 0)
    (zeroes : ∀ w u, eff j w u = zeroRegs u b j offs) :
    ∃ t, exec c s = .next t ∧ (∀ o ∈ offs, regLive t (regKey b j o) = 0) ∧ onlyRegs (offs.map (regKey b j)) s t := by
  refine ⟨zeroRegs s b j offs, ?_, fun o listed => zeroRegs_zero _ _ _ _ _ (.inl (List.mem_map_of_mem listed)), zeroRegs_rel _ _ _ _⟩
  rw [command, regCmd_lands landing, List.foldl_cons, List.foldl_nil, zeroes, pulse_any pulse thawed]

end Clear

/-- Settles O30, row by row of its table: each command is a pulse whose effect zeroes the registers listed. -/
theorem countersClear : Obligations.CountersClear := by
  unfold Obligations.CountersClear
  intro req b i off v c offs row s j landing
  simp only [List.mem_cons, List.not_mem_nil, or_false, Prod.mk.injEq] at row
  rcases row with ⟨rfl, rfl, rfl, rfl, rfl⟩ | ⟨rfl, rfl, rfl, rfl, rfl⟩ | ⟨rfl, rfl, rfl, rfl, rfl⟩ | ⟨rfl, rfl, rfl, rfl, rfl⟩ |
    ⟨rfl, rfl, rfl, rfl, rfl⟩ | ⟨rfl, rfl, rfl, rfl, rfl⟩
  · exact clearCmd_zeroes landing (exec_mxCntClr req i s) (clear_table (.mx, 0x24) (by decide)) rfl fun _ _ => rfl
  · exact clearCmd_zeroes landing (exec_vxCntClr req i s) (clear_table (.vx, 0x24) (by decide)) rfl fun _ _ => rfl
  · exact clearCmd_zeroes landing (exec_qntCntClr req i s) (clear_table (.qnt, 0x20) (by decide)) rfl fun _ _ => rfl
  · exact clearCmd_zeroes landing (exec_scCntClr req i s) (clear_table (.sc, 0x1C) (by decide)) rfl fun _ u => scCmdEffect_cntClr j u
  · exact clearCmd_zeroes landing (exec_memCntClr req i s) (clear_table (.mem, 0x1C) (by decide)) rfl fun _ _ => rfl
  · exact clearCmd_zeroes landing (exec_memChClr req i s) (clear_table (.memCh, 0x14) (by decide)) rfl fun _ _ => rfl

/-! ### Freezes (R79, R80): the cycles are counted, and then a long freeze is noted -/

section Freeze

variable {s : State} {g n e : Nat}

/-- The state with the cycles of a freeze counted. -/
def freezeCounted (s : State) (g n : Nat) : State := bumpIf s F.MX_CTRL_CNT_EN F.MX_CYC_FREEZE_LO_COUNT g n

/-- The state with a freeze of `n` cycles noted where it is longer than 2^e and `e` is not 0. -/
def freezeNoted (s : State) (g e n : Nat) : State := if e ≠ 0 ∧ 2 ^ e < n then ev s F.MX_EVENT_LONG_FREEZE g else s

theorem onlyRegs_freezeCounted (s : State) (g n : Nat) :
    onlyRegs [F.MX_CYC_FREEZE_LO_COUNT.key g, F.MX_CYC_FREEZE_HI_COUNT.key g] s (freezeCounted s g n) := bumpIf_rel _ _ _ _ _

theorem onlyEvents_freezeNoted (s : State) (g e n : Nat) : onlyEvents [F.MX_EVENT_LONG_FREEZE.key g] s (freezeNoted s g e n) := by
  unfold freezeNoted
  split
  · exact onlyEvents_ev _ (List.mem_singleton.mpr rfl)
  · exact onlyEvents_refl _ _

/-- The counter lies in two registers of its own. -/
theorem rf_freezeCounted {f : Fld} (page : f.blk = .mx) (notLo : f.off ≠ 0x48) (notHi : f.off ≠ 0x4C) :
    rf (freezeCounted s g n) f g = rf s f g := by
  refine onlyRegs_rf (onlyRegs_freezeCounted s g n) ?_
  have lo : f.key g ≠ F.MX_CYC_FREEZE_LO_COUNT.key g := by rw [Fld.key, page]; exact regKey_off_ne .mx g notLo
  have hi : f.key g ≠ F.MX_CYC_FREEZE_HI_COUNT.key g := by rw [Fld.key, page]; exact regKey_off_ne .mx g notHi
  simp [lo, hi]

theorem rf_freezeNoted {f : Fld} (page : f.blk = .mx) (other : f.off ≠ 8) : rf (freezeNoted s g e n) f g = rf s f g := by
  refine onlyEvents_rf (onlyEvents_freezeNoted s g e n) ?_
  rw [List.mem_singleton, Fld.key, page]
  exact regKey_off_ne .mx g other

theorem rf2_freezeCounted (s : State) (g n : Nat) :
    rf2 (freezeCounted s g n) F.MX_CYC_FREEZE_LO_COUNT F.MX_CYC_FREEZE_HI_COUNT g =
      if rb s F.MX_CTRL_CNT_EN g then (rf2 s F.MX_CYC_FREEZE_LO_COUNT F.MX_CYC_FREEZE_HI_COUNT g + n) % 2 ^ 64
      else rf2 s F.MX_CYC_FREEZE_LO_COUNT F.MX_CYC_FREEZE_HI_COUNT g := by
  unfold freezeCounted bumpIf
  split
  · exact rf2_bump s F.MX_CYC_FREEZE_LO_COUNT g n rfl rfl
  · rfl

theorem longFreeze_freezeNoted (s : State) (g e n : Nat) :
    rf (freezeNoted s g e n) F.MX_EVENT_LONG_FREEZE g = if e ≠ 0 ∧ 2 ^ e < n then 1 else rf s F.MX_EVENT_LONG_FREEZE g := by
  unfold freezeNoted
  split
  · exact rf_ev_same s _ g (by decide) (by decide)
  · rfl

/-- Counting leaves LONG_FREEZE_LOG2 alone, so the length is measured by the value before the freeze. -/
theorem exec_longFreeze (up : hubUp s = true) (inFlight : (getCore s g).flights.any (fun f => dOp f.desc == 0x11) = true) (n : Nat) :
    exec (.longFreeze g n) s = .next (freezeNoted (freezeCounted s g n) g (rf s F.MX_CTRL_LONG_FREEZE_LOG2 g) n) := by
  have command : exec (.longFreeze g n) s =
      .next (freezeNoted (freezeCounted s g n) g (rf (freezeCounted s g n) F.MX_CTRL_LONG_FREEZE_LOG2 g) n) :=
    (if_neg (by simp [up])).trans (if_pos inFlight)
  rw [command, rf_freezeCounted rfl (by decide) (by decide)]

end Freeze

/-! ### Residue injections (R86, R161): the place is stored, and ARM sets ARMED -/

section Injection

variable {s : State} {req : Requester} {b : Blk} {i j hi lo : Nat} {m v : Word}

/-- A field of the injection register of a page. -/
def injField (b : Blk) (hi lo : Nat) : Fld := ⟨b, 0x20, 4, hi, lo⟩

/-- What a write to an injection register does beyond its fields. -/
def injArm (b : Blk) (j : Nat) (v : Word) (s : State) : State := if wbits 8 8 v = 1 then wf s (injField b 16 16) j 1 else s

theorem exec_mxBrambleInjArm (req : Requester) (g : Nat) (v : Word) (s : State) :
    exec (.mxBrambleInjArm req g v) s = regCmd s req .mx g 0x20 v fun g _ u => injArm .mx g v u := rfl

theorem exec_vxBrambleInjArm (req : Requester) (g : Nat) (v : Word) (s : State) :
    exec (.vxBrambleInjArm req g v) s = regCmd s req .vx g 0x20 v fun g _ u => injArm .vx g v u := rfl

theorem onlyRegs_injArm (b : Blk) (j : Nat) (v : Word) (s : State) : onlyRegs [regKey b j 0x20] s (injArm b j v s) := by
  unfold injArm
  split
  · exact onlyRegs_wf _ _ (List.mem_singleton.mpr rfl)
  · exact onlyRegs_refl _ _

theorem armed_injArm (b : Blk) (j : Nat) (v : Word) (s : State) :
    rf (injArm b j v s) (injField b 16 16) j = if wbits 8 8 v = 1 then 1 else rf s (injField b 16 16) j := by
  unfold injArm
  split
  · exact rf_wf_same s (injField b 16 16) j 1 (Nat.le_refl 16) (show 16 < 32 by decide)
  · rfl

theorem place_injArm (b : Blk) (j : Nat) (v : Word) (s : State) (low : hi < 16) :
    rf (injArm b j v s) (injField b hi lo) j = rf s (injField b hi lo) j := by
  unfold injArm
  split
  · exact rf_wf_disj s (injField b 16 16) (injField b hi lo) j j 1 rfl (Nat.le_refl 16) (show hi < 32 by omega) (.inl low)
  · rfl

/-- A write that lands at one injection register stores the place by the mask of its fields, keeps ARMED, and arms. -/
theorem injCmd_arms (landing : lands s req b i 0x20 v [j])
    (stored : (findReg b 0x20).any (fun r => r.maskOf (fun a => a == .rw || a == .tmr) == m && r.maskOf Acc.buffered == 0) = true)
    (thawed : frozen s b j 0x20 = 0) (notArmed : m.getLsbD 16 = false) :
    ∃ t, regCmd s req b i 0x20 v (fun j _ u => injArm b j v u) = .next t ∧ onlyRegs [regKey b j 0x20] s t ∧
      (∀ hi lo, hi < 16 → (∀ k < hi + 1, lo ≤ k → m.getLsbD k = true) → rf t (injField b hi lo) j = wbits hi lo v) ∧
      rf t (injField b 16 16) j = (if wbits 8 8 v = 1 then 1 else rf s (injField b 16 16) j) := by
  obtain ⟨frame, word⟩ := storeFields_mask (s := s) (j := j) stored thawed v
  have kept : rf (storeFields s b j 0x20 0 v) (injField b 16 16) j = rf s (injField b 16 16) j :=
    (congrArg (wbits 16 16) word).trans
      (wbits_keep 16 16 _ v m (fun k below above => by rwa [show k = 16 by omega]) (by decide))
  refine ⟨injArm b j v (storeFields s b j 0x20 0 v), regCmd_lands landing _, onlyRegs_trans frame (onlyRegs_injArm b j v _),
    fun hi lo low covered => ?_, ?_⟩
  · rw [place_injArm b j v _ low]
    exact (congrArg (wbits hi lo) word).trans (wbits_take hi lo _ v m covered)
  · rw [armed_injArm, kept]

end Injection

/-- Settles O31: a freeze is counted and then noted, in registers apart; both injection registers store their places and arm alike. -/
theorem freezesAreCounted : Obligations.FreezesAreCounted := by
  unfold Obligations.FreezesAreCounted
  obtain ⟨mxStored, vxStored⟩ := inj_table
  refine ⟨fun g n s up inFlight => ?freeze, fun req g v s landing => ?mx, fun req g v s landing => ?vx⟩
  case freeze =>
    refine ⟨_, exec_longFreeze up inFlight n, ?frame, ?count, ?event⟩
    case frame =>
      exact onlyEvents_trans (onlyEvents_of_regs (onlyRegs_mono (onlyRegs_freezeCounted s g n) (by simp)))
        (onlyEvents_mono (onlyEvents_freezeNoted _ _ _ _) (by simp))
    case count =>
      rw [rf2, rf_freezeNoted rfl (by decide), rf_freezeNoted rfl (by decide)]
      exact rf2_freezeCounted s g n
    case event => rw [longFreeze_freezeNoted, rf_freezeCounted rfl (by decide) (by decide)]
  case mx =>
    obtain ⟨t, command, frame, place, armed⟩ := injCmd_arms landing mxStored rfl (by decide)
    exact ⟨t, (exec_mxBrambleInjArm req g v s).trans command, frame, place 6 0 (by decide) (by decide), armed⟩
  case vx =>
    obtain ⟨t, command, frame, place, armed⟩ := injCmd_arms landing vxStored rfl (by decide)
    exact ⟨t, (exec_vxBrambleInjArm req g v s).trans command, frame, place 6 0 (by decide) (by decide), place 15 12 (by decide) (by decide), armed⟩

end Sys2Proof.Proofs
end

section
/-! PROOFS. The statements of chapter 05, "Number formats": what a rounding makes of a magnitude, and the codes of the floating-point formats. -/

namespace Sys2Proof.Proofs

open Sys2Proof Sys2Proof.Machine Sys2Proof.Safety Sys2Proof.Laws

/-! ### Rounding (R108, R109, R111): a magnitude `m` off its grid goes to one of the two multiples of `w` beside it -/

section Neighbours

variable {m w : Nat} {up : Bool}

/-- How many times `w` goes into the neighbour of `m` on the grid of `w`: the neighbour away from zero where `up`, else the one towards zero. -/
def neighbour (m w : Nat) (up : Bool) : Nat := if up then m / w + 1 else m / w

theorem neighbour_above (m w : Nat) : neighbour m w true * w + m % w = m + w := by
  have whole := Nat.div_add_mod' m w
  have next : neighbour m w true * w = m / w * w + w := Nat.succ_mul _ _
  omega

theorem neighbour_below (m w : Nat) : neighbour m w false * w + m % w = m := Nat.div_add_mod' m w

theorem neighbour_false_le (m w : Nat) : neighbour m w false * w ≤ m := Nat.div_mul_le_self m w

theorem lt_neighbour_iff (positive : 0 < w) : m < neighbour m w up * w ↔ up = true := by
  cases up with
  | false => exact iff_of_false (Nat.not_lt.mpr (neighbour_false_le m w)) Bool.false_ne_true
  | true =>
    have rest := Nat.mod_lt m positive
    have above := neighbour_above m w
    exact iff_of_true (by omega) rfl

/-- Where only a discarded rest rounds up, the neighbour is less than one step away on either side. -/
theorem neighbour_near (positive : 0 < w) (offGrid : up = true → m % w ≠ 0) :
    m < neighbour m w up * w + w ∧ neighbour m w up * w < m + w := by
  have rest := Nat.mod_lt m positive
  cases up with
  | false => have := neighbour_below m w; omega
  | true => have := neighbour_above m w; have := offGrid rfl; omega

theorem neighbour_exact (offGrid : up = true → m % w ≠ 0) (exact : m % w = 0) : neighbour m w up * w = m := by
  cases up with
  | false => have := neighbour_below m w; omega
  | true => exact absurd exact (offGrid rfl)

/-- Rounding up past the half, and at the half from an odd number of steps, takes the nearer neighbour, and an even one of two as near (R108). -/
theorem neighbour_nearest {half : Nat} (halves : w = 2 * half) (positive : 0 < half)
    (nearest : up = (decide (half < m % w) || (m % w == half && (m / w % 2 == 1)))) :
    2 * (neighbour m w up * w) ≤ 2 * m + w ∧ 2 * m ≤ 2 * (neighbour m w up * w) + w ∧
      (2 * (neighbour m w up * w) = 2 * m + w ∨ 2 * m = 2 * (neighbour m w up * w) + w → neighbour m w up % 2 = 0) := by
  have rest := Nat.mod_lt m (show 0 < w by omega)
  cases up with
  | false =>
    have below := neighbour_below m w
    have count : neighbour m w false = m / w := rfl
    simp only [Bool.false_eq, Bool.or_eq_false_iff, decide_eq_false_iff_not, Bool.and_eq_false_iff, beq_eq_false_iff_ne] at nearest
    omega
  | true =>
    have above := neighbour_above m w
    have count : neighbour m w true = m / w + 1 := rfl
    simp only [Bool.true_eq, Bool.or_eq_true, decide_eq_true_iff, Bool.and_eq_true, beq_iff_eq] at nearest
    omega

/-- A directed mode that rounds a discarded rest up never goes below the magnitude (R108). -/
theorem le_neighbour_of_away (positive : 0 < w) (away : up = decide (m % w ≠ 0)) : m ≤ neighbour m w up * w := by
  cases up with
  | false => have := neighbour_below m w; have := of_decide_eq_false away.symm; omega
  | true => exact Nat.le_of_lt ((lt_neighbour_iff positive).mpr rfl)

/-- Rounding a discarded rest up from an even number of steps makes the number odd (R111). -/
theorem neighbour_odd (offGrid : m % w ≠ 0) (odd : up = (decide (m % w ≠ 0) && m / w % 2 == 0)) : neighbour m w up % 2 = 1 := by
  rw [decide_eq_true offGrid, Bool.true_and] at odd
  rw [odd, neighbour]
  split
  next even => have := beq_iff_eq.mp even; omega
  next notEven => have := mt beq_iff_eq.mpr notEven; omega

/-! No mode rounds up where nothing is discarded. -/

theorem rest_of_nearest {half : Nat} (positive : 0 < half)
    (nearest : up = (decide (half < m % w) || (m % w == half && (m / w % 2 == 1)))) (raised : up = true) : m % w ≠ 0 := by
  rw [nearest, Bool.or_eq_true, decide_eq_true_iff, Bool.and_eq_true, beq_iff_eq] at raised
  omega

theorem rest_of_carry {r : Nat} (random : r < 65536) (carry : up = decide (65536 ≤ m % w * 65536 / w + r)) (raised : up = true) : m % w ≠ 0 := by
  intro exact
  rw [carry, exact, Nat.zero_mul, Nat.zero_div, Nat.zero_add, decide_eq_true_iff] at raised
  exact absurd random (Nat.not_lt.mpr raised)

theorem rest_of_inexact {b : Bool} (directed : up = (decide (m % w ≠ 0) && b)) (raised : up = true) : m % w ≠ 0 := by
  rw [directed, Bool.and_eq_true, decide_eq_true_iff] at raised
  exact raised.1

end Neighbours

section Precision

variable {p m : Nat} {e q : Int}

/-- A quantum that leaves the precision leaves at most `p` bits of a magnitude that is shifted to it. -/
theorem shifted_le (quantum : (bitLen m : Int) + e - p ≤ q) (onGrid : q ≤ e) : m * 2 ^ (e - q).toNat ≤ 2 ^ p := by
  calc m * 2 ^ (e - q).toNat ≤ 2 ^ bitLen m * 2 ^ (e - q).toNat := Nat.mul_le_mul_right _ (Nat.le_of_lt (bitLen_lt m))
    _ = 2 ^ (bitLen m + (e - q).toNat) := (Nat.pow_add _ _ _).symm
    _ ≤ 2 ^ p := Nat.pow_le_pow_right (by decide) (by omega)

theorem neighbour_le (quantum : (bitLen m : Int) + e - p ≤ q) (offGrid : e < q) (up : Bool) : neighbour m (2 ^ (q - e).toNat) up ≤ 2 ^ p := by
  have towardsZero : m / 2 ^ (q - e).toNat < 2 ^ p := by
    refine Nat.div_lt_of_lt_mul ?_
    calc m < 2 ^ bitLen m := bitLen_lt m
      _ ≤ 2 ^ ((q - e).toNat + p) := Nat.pow_le_pow_right (by decide) (by omega)
      _ = 2 ^ (q - e).toNat * 2 ^ p := Nat.pow_add _ _ _
  unfold neighbour
  split <;> omega

end Precision

/-- Settles O28: on the grid the magnitude is shifted; off it, each mode says of its discarded rest which neighbour it takes. -/
theorem roundingFollowsItsMode : Obligations.RoundingFollowsItsMode := by
  unfold Obligations.RoundingFollowsItsMode
  intro p qmin mode neg r m e _ random
  obtain ⟨q, precise, atLeast, least, onGrid, offGrid⟩ := roundMag_quantum p qmin mode neg r m e
  by_cases fits : q ≤ e
  · exact ⟨_, q, _, onGrid fits, precise, atLeast, least, shifted_le precise fits, fun _ => ⟨rfl, rfl⟩, fun drops => absurd fits (Int.not_le.mpr drops)⟩
  have drops : e < q := Int.not_le.mp fits
  obtain ⟨up, rounded, nearest, zero, above, below, stochastic, odd⟩ := offGrid drops
  refine ⟨neighbour m _ up, q, _, rounded, precise, atLeast, least, neighbour_le precise drops up, fun holds => absurd holds fits, fun _ => ?_⟩
  intro w
  have positive : 0 < w := Nat.two_pow_pos _
  have half : 0 < 2 ^ ((q - e).toNat - 1) := Nat.two_pow_pos _
  have halves : w = 2 * 2 ^ ((q - e).toNat - 1) := by rw [← Nat.pow_add_one', Nat.sub_add_cancel (by omega)]
  have discards : up = true → m % w ≠ 0 := by
    rcases (by omega : mode = 0 ∨ mode = 1 ∨ mode = 2 ∨ mode = 3 ∨ mode = 4 ∨ 5 ≤ mode) with is | is | is | is | is | is
    · exact rest_of_nearest half (nearest is)
    · exact fun raised => absurd (raised.symm.trans (zero is)) (by decide)
    · exact rest_of_inexact (above is)
    · exact rest_of_inexact (below is)
    · exact rest_of_carry random (stochastic is)
    · exact rest_of_inexact (odd is)
  refine ⟨decide_eq_true_iff, neighbour_exact discards, neighbour_near positive discards, fun is => neighbour_nearest halves half (nearest is), ?down, ?up,
    fun is => ?random, fun is rest => neighbour_odd rest (odd (Nat.le_of_eq is.symm))⟩
  case down =>
    rintro (is | ⟨is, rfl⟩ | ⟨is, rfl⟩)
    · rw [zero is]; exact neighbour_false_le m w
    · rw [above is, Bool.not_true, Bool.and_false]; exact neighbour_false_le m w
    · rw [below is, Bool.and_false]; exact neighbour_false_le m w
  case up =>
    rintro (⟨is, rfl⟩ | ⟨is, rfl⟩)
    · exact le_neighbour_of_away positive ((above is).trans (Bool.and_true _))
    · exact le_neighbour_of_away positive ((below is).trans (Bool.and_true _))
  case random => rw [lt_neighbour_iff positive, stochastic is, decide_eq_true_iff]

/-! ### Codes (R92 to R94): a sign, a stored exponent and a fraction above the padding -/

section Codes

variable {f : FFmt} {neg : Bool} {E F : Nat}

/-- The code of the three fields of a format. -/
def codeOf (f : FFmt) (neg : Bool) (E F : Nat) : Nat := ((b2n neg * 2 ^ f.eb + E) * 2 ^ f.fb + F) * 2 ^ f.pad

/-- The table of R92 and R93: a format has exponent bits, and infinities or E4M3's NaN, not both. -/
theorem ffmt_shape {c : Nat} (listed : ffmt c = some f) : 1 ≤ f.eb ∧ (f.topNan = true → f.hasInf = false) := by
  unfold ffmt at listed
  split at listed <;> cases listed <;> decide

theorem canonNan_isNan {c : Nat} (listed : ffmt c = some f) : f.hasInf = true ∨ f.topNan = true → (f.dec f.canonNan).isNan = true := by
  unfold ffmt at listed
  split at listed <;> cases listed <;> decide +kernel

theorem dec_codeOf (bits : 1 ≤ f.eb) (hE : E < 2 ^ f.eb) (hF : F < 2 ^ f.fb) : f.dec (codeOf f neg E F) =
    if f.hasInf && E == 2 ^ f.eb - 1 then (if F = 0 then .inf neg else .nan (decide (F < 2 ^ (f.fb - 1))))
    else if f.topNan && E == 2 ^ f.eb - 1 && F == 2 ^ f.fb - 1 then .nan false
    else if E = 0 then .fin neg F (f.emin - f.fb)
    else .fin neg (2 ^ f.fb + F) (E - f.bias - f.fb) := by
  obtain ⟨sign, exponent, fraction⟩ := code_fields f neg E F bits hE hF
  simp only [FFmt.dec, codeOf, sign, exponent, fraction]

/-- A format with infinities keeps its greatest exponent for them and the NaNs (R93). -/
theorem dec_infinite (bits : 1 ≤ f.eb) (infinite : f.hasInf = true) (hF : F < 2 ^ f.fb) :
    f.dec (codeOf f neg (2 ^ f.eb - 1) F) = if F = 0 then .inf neg else .nan (decide (F < 2 ^ (f.fb - 1))) := by
  rw [dec_codeOf bits (Nat.sub_one_lt (Nat.ne_of_gt (Nat.two_pow_pos _))) hF, if_pos (by rw [infinite, beq_self_eq_true]; rfl)]

theorem enc_inf (infinite : f.hasInf = true) : f.enc (.inf neg) = codeOf f neg (2 ^ f.eb - 1) 0 := if_pos infinite

/-- E4M3's NaN (R93). -/
theorem dec_topNan (bits : 1 ≤ f.eb) (finite : f.hasInf = false) (top : f.topNan = true) :
    f.dec (codeOf f neg (2 ^ f.eb - 1) (2 ^ f.fb - 1)) = .nan false := by
  rw [dec_codeOf bits (Nat.sub_one_lt (Nat.ne_of_gt (Nat.two_pow_pos _))) (Nat.sub_one_lt (Nat.ne_of_gt (Nat.two_pow_pos _))), if_neg (by rw [finite]; exact Bool.false_ne_true),
    if_pos (by rw [top, beq_self_eq_true, beq_self_eq_true]; rfl)]

/-- Every other code names a number (R92). -/
theorem dec_number (bits : 1 ≤ f.eb) (hE : E < 2 ^ f.eb) (hF : F < 2 ^ f.fb) (notInf : ¬ (f.hasInf = true ∧ E = 2 ^ f.eb - 1))
    (notTop : ¬ (f.topNan = true ∧ E = 2 ^ f.eb - 1 ∧ F = 2 ^ f.fb - 1)) :
    f.dec (codeOf f neg E F) = if E = 0 then .fin neg F (1 - f.bias - f.fb) else .fin neg (2 ^ f.fb + F) (E - f.bias - f.fb) := by
  rw [dec_codeOf bits hE hF, if_neg (by simpa only [Bool.and_eq_true, beq_iff_eq] using notInf), if_neg (by simpa only [Bool.and_eq_true, beq_iff_eq, and_assoc] using notTop), FFmt.emin]

theorem enc_number (hF : F < 2 ^ f.fb) :
    f.enc (if E = 0 then .fin neg F (1 - f.bias - f.fb) else .fin neg (2 ^ f.fb + F) (E - f.bias - f.fb)) = codeOf f neg E F := by
  refine Eq.trans ?_ (encFin_code f neg E F hF)
  split <;> rfl

end Codes

/-- Settles O29: the fields of a code come back when it is decoded, and the encoder puts them together again; the canonical NaNs stand in a table. -/
theorem codesNameTheirValues : Obligations.CodesNameTheirValues := by
  unfold Obligations.CodesNameTheirValues
  intro c f listed
  obtain ⟨bits, oneNan⟩ := ffmt_shape listed
  refine ⟨fun neg E F hE hF => ⟨?infinite, ?top, ?number⟩, canonNan_isNan listed⟩
  case infinite =>
    rintro infinite rfl
    have decoded := dec_infinite (neg := neg) bits infinite hF
    refine ⟨?_, fun isNan => ?_⟩
    · rintro rfl
      exact ⟨decoded, enc_inf infinite⟩
    · rw [if_neg isNan] at decoded
      exact congrArg FV.isNan decoded
  case top =>
    rintro top rfl rfl
    exact dec_topNan bits (oneNan top) top
  case number =>
    intro notInf notTop
    have decoded := dec_number (neg := neg) bits hE hF notInf notTop
    exact ⟨decoded, (congrArg f.enc decoded).trans (enc_number hF)⟩

end Sys2Proof.Proofs
end

section
/-! PROOFS. The statements of chapter 06, "Quantisation": the atomic unit's operations on the pinned region. -/

namespace Sys2Proof.Proofs

open Sys2Proof Sys2Proof.Machine Sys2Proof.Safety Sys2Proof.Laws

/-! ### One operation of the atomic unit (R182): it is counted, its target read and then written -/

section PinnedTarget

variable {s u : State} {a n p off : Nat}

/-- The read of an operation that has been counted answers the target's bytes, and only the slice's counters have changed. -/
theorem memRead_atomicCount (served : pinServed s a n p off) (src : Source) (tag : Nat) :
    ∃ u, onlyRegs (scCounts p) s u ∧ memRead (atomicCount s p) src tag 0 a n = (u, mrdN (getPart s p).pinned off n) := by
  have counted : onlyRegs (scCounts p) s (atomicCount s p) := bumpIf_in s _ _ p 1 (scAtomic p)
  obtain ⟨u, frame, read⟩ := memRead_pin (pinServed_with served counted) src tag 0
  rw [getPart_with (onlyRegs_parts counted)] at read
  exact ⟨u, onlyRegs_trans counted frame, read⟩

/-- The write behind such a read replaces the target, and again only the slice's counters change. -/
theorem onlyRegs_memWrite {data : List Byte} (served : pinServed s a n p off) (frame : onlyRegs (scCounts p) s u)
    (size : data.length = n) (src : Source) (tag hint : Nat) :
    onlyRegs (scCounts p) (pinnedPut s p off data) (memWrite u src tag hint a data) := by
  subst size
  obtain ⟨t, counted, write⟩ := memWrite_pin (pinServed_with served frame) src tag hint
  rw [write]
  exact onlyRegs_pinnedPut (onlyRegs_trans frame counted) p off data

end PinnedTarget

/-! ### The operations: a scalar atomic, the stage and the roll of a scale slot -/

section Operations

variable {s : State} {p off : Nat}

/-- What a scalar atomic leaves in its target, by the old value. -/
def atomicBytes (r : AtomicReq) (old : Nat) : List Byte :=
  let n := etBytes r.etype
  toLE n (scalarOp r.etype r.op old (r.operand % 2 ^ (8 * n)) (r.comparand % 2 ^ (8 * n)))

theorem atomicDo_pin {r : AtomicReq} (scalar : r.lineOp = false) (aligned : r.addr % etBytes r.etype = 0)
    (served : pinServed s r.addr (etBytes r.etype) p off) :
    let old := ofLE (mrdN (getPart s p).pinned off (etBytes r.etype))
    ∃ t, atomicDo s r = (t, old, true) ∧ onlyRegs (scCounts p) (pinnedPut s p off (atomicBytes r old)) t := by
  obtain ⟨u, frame, read⟩ := memRead_atomicCount served r.src r.tag
  refine ⟨_, ?_, onlyRegs_memWrite served frame (toLE_length _ _) r.src r.tag 0⟩
  have size : max (etBytes r.etype) 1 = etBytes r.etype := by
    obtain ⟨-, -, -, -, positive, -⟩ := served
    omega
  have enter := atomicEnter_pin served aligned r.src r.tag false
  simp [atomicDo, scalar, size, enter, read]

theorem stageDo_pin {addr : Nat} (aligned : addr % 128 = 0) (served : pinServed s addr 128 p off) (g amax : Nat) (under : Bool)
    (sat recomp tag : Nat) :
    onlyRegs (scCounts p) (pinnedPut s p off
      (stageLine (mrdN (getPart s p).pinned off 128) (currentStep s).1 (currentStep s).2 amax under sat recomp))
      (stageDo s g addr amax under sat recomp tag) := by
  obtain ⟨u, frame, read⟩ := memRead_atomicCount served (.core g) tag
  have enter := atomicEnter_pin served aligned (.core g) tag false
  have step : currentStep u = currentStep s := by rw [currentStep, onlyRegs_sr frame, ← currentStep]
  simp only [stageDo, enter, read, step]
  exact onlyRegs_memWrite served frame (stageLine_length _ (mrdN_length _ _ _) _ _ _ _ _ _) (.core g) tag 0

/-- The roll draws its free value (log 7) between its read and its write. -/
theorem rollDo_pin {addr : Nat} {fm : FV} (aligned : addr % 128 = 0) (served : pinServed s addr 128 p off)
    (delayed : fmaxOf (fieldLE 0x52 1 (mrdN (getPart s p).pinned off 128)) = some fm) (src : Source) (step tag : Nat) :
    onlyRegs (scCounts p) { pinnedPut s p off (rollLine (mrdN (getPart s p).pinned off 128) fm step (fresh s).1) with free := s.free + 1 }
      (rollDo s src addr step tag) := by
  obtain ⟨u, frame, read⟩ := memRead_atomicCount served src tag
  have enter := atomicEnter_pin served aligned src tag false
  have drawn : onlyRegs (scCounts p) (fresh s).2 (fresh u).2 := onlyRegs_lift frame (fun v => (fresh v).2) (fun _ => ⟨rfl, rfl⟩) (fun _ _ _ => rfl)
  have value : (fresh u).1 = (fresh s).1 := by rw [frame.2]; rfl
  simp only [rollDo, enter, read, delayed, value]
  exact onlyRegs_memWrite (s := (fresh s).2) served drawn (rollLine_length _ (mrdN_length _ _ _) _ _ _) src tag 0

theorem exec_sliceAtomic {r : AtomicReq} (up : hubUp s = true) (scalar : r.lineOp = false) {t : State} {old : Nat}
    (done : atomicDo s r = (t, old, true)) : exec (.sliceAtomic r) s = .next (reply t r.src r.tag (toLE (etBytes r.etype) old)) := by
  have run : exec (.sliceAtomic r) s = .next (if (atomicDo s r).2.2 && !r.lineOp then
      reply (atomicDo s r).1 r.src r.tag (toLE (etBytes r.etype) (atomicDo s r).2.1) else (atomicDo s r).1) := if_neg (by simp [up])
  rw [run, done, scalar]
  rfl

theorem exec_scaleStage {g : Nat} (up : hubUp s = true) (enabled : rb s F.QNT_CTRL_STAGE_EN g = true) (addr amax : Nat) (under : Bool) :
    exec (.scaleStage g addr amax under) s = .next (stageDo s g addr amax under 0 0 0) :=
  (if_neg (by simp [up])).trans (congrArg _ (if_pos enabled))

theorem exec_sliceScaleRoll (up : hubUp s = true) (src : Source) (addr step : Nat) :
    exec (.sliceScaleRoll src addr step) s = .next (rollDo s src addr step 0) :=
  if_neg (by simp [up])

end Operations

/-- Settles O35: each of the three is a counted read and write of its target; an atomic's answer is one reply more. -/
theorem atomicsAreOneOperation : Obligations.AtomicsAreOneOperation := by
  unfold Obligations.AtomicsAreOneOperation
  refine ⟨fun r s p off up scalar aligned served => ?atomic, fun g addr amax under s p off up enabled aligned served => ?stage,
    fun src addr step s p off fm up aligned served delayed => ?roll⟩
  case atomic =>
    obtain ⟨t, done, frame⟩ := atomicDo_pin scalar aligned served
    refine ⟨_, exec_sliceAtomic up scalar done, ?_⟩
    exact onlyRegs_lift frame (reply · r.src r.tag _) (fun _ => ⟨rfl, rfl⟩) (fun _ _ _ => rfl)
  case stage =>
    exact ⟨_, exec_scaleStage up enabled addr amax under, stageDo_pin aligned served g amax under 0 0 0⟩
  case roll =>
    exact ⟨_, exec_sliceScaleRoll up src addr step, rollDo_pin aligned served delayed src step 0⟩

end Sys2Proof.Proofs
end

section
/-! PROOFS. The statements of chapter 08, "The memory system": accesses to pinned bytes and to stacks, reduction slots, and channels retired by request. -/

namespace Sys2Proof.Proofs

open Sys2Proof Sys2Proof.Machine Sys2Proof.Safety Sys2Proof.Laws

/-! ### A stand-alone access (R165, R178, R179, R181): what SLICE_ACCESS and LINE_FILL do, one equation per branch -/

section Access

variable {s : State} {r : LineReq} {p off : Nat}

theorem exec_sliceAccess_pinChanging (up : hubUp s = true) (pin : target r.addr = .pin p off) (isUp : ptnDown s p = false)
    (changing : rb s F.SC_STATUS_PIN_CHANGING p = true) :
    exec (.sliceAccess r) s = .next (setPart s p { getPart s p with waiting := (getPart s p).waiting ++ [r] }) := by
  show execSliceAccess r s = _
  simp [execSliceAccess, up, pin, isUp, changing]

theorem exec_sliceAccess_pinSettled (up : hubUp s = true) (pin : target r.addr = .pin p off)
    (settled : rb s F.SC_STATUS_PIN_CHANGING p = false) : exec (.sliceAccess r) s = .next (performReply s r []) := by
  show execSliceAccess r s = _
  simp [execSliceAccess, up, pin, settled]

theorem exec_sliceAccess_stackMiss (up : hubUp s = true) (stack : target r.addr = .stack p off) (waits : mustWait s r = true) :
    exec (.sliceAccess r) s = .next (setPart s p { getPart s p with misses := (getPart s p).misses ++ [r] }) := by
  show execSliceAccess r s = _
  simp [execSliceAccess, up, stack, waits]

theorem exec_sliceAccess_stackServed (up : hubUp s = true) (stack : target r.addr = .stack p off) (served : mustWait s r = false) :
    exec (.sliceAccess r) s = .next (performReply s r []) := by
  show execSliceAccess r s = _
  simp [execSliceAccess, up, stack, served]

theorem exec_lineFill (up : hubUp s = true) (p : Nat) (wire : List (Nat × Byte)) :
    exec (.lineFill p wire) s = .next (fillOldest s p wire) :=
  if_neg (by simp [up])

theorem fillOldest_cons {rest : List LineReq} (oldest : (getPart s p).misses = r :: rest) (wire : List (Nat × Byte)) :
    fillOldest s p wire = drainReady (performReply (setPart s p { getPart s p with misses := rest }) r wire) p := by
  simp only [fillOldest, oldest]

theorem performReply_write {wire : List (Nat × Byte)} {t : State} {d : List Byte} (write : r.write = true)
    (done : perform s r wire = (t, d)) : performReply s r wire = t := by
  rw [performReply, done]
  exact if_pos write

theorem performReply_read {wire : List (Nat × Byte)} {t : State} {d : List Byte} (read : r.write = false)
    (done : perform s r wire = (t, d)) : performReply s r wire = reply t r.src r.tag d := by
  rw [performReply, done]
  exact if_neg (by simp [read])

/-- A partition that is down has nothing to wait for: no sector will come. -/
theorem mustWait_down (stack : target r.addr = .stack p off) (down : ptnDown s p = true) : mustWait s r = false := by
  simp [mustWait, stack, down]

/-- The record of an access to a partition that is down. -/
def downRecord (s : State) (p tag : Nat) : State := raise s E.UE_MEMORY (U.part p) tag 0

theorem perform_stackDown (stack : target r.addr = .stack p off) (down : ptnDown s p = true) (wire : List (Nat × Byte)) :
    (r.write = true → perform s r wire = (downRecord s p r.tag, [])) ∧
    (r.write = false → perform s r wire =
      ((fresh (downRecord s p r.tag)).2, toLE r.len (fresh (downRecord s p r.tag)).1)) := by
  refine ⟨fun write => ?_, fun read => ?_⟩
  · simp [perform, stack, down, write, downRecord]
  · simp [perform, stack, down, read, downRecord, freshBytes]

/-- The record is all that the ledger gains, and it touches neither memory nor answers nor the next free value. -/
theorem downRecord_frame (s : State) (p tag : Nat) :
    (downRecord s p tag).parts = s.parts ∧ (downRecord s p tag).replies = s.replies ∧ (fresh (downRecord s p tag)).1 = (fresh s).1 := by
  obtain ⟨⟨regs, tmr, ticked, ledger, sr, ckp, same⟩, -⟩ := raise_rel s E.UE_MEMORY (U.part p) tag 0
  rw [downRecord, same]
  exact ⟨rfl, rfl, rfl⟩

theorem downRecord_cur (s : State) (p tag : Nat) :
    (downRecord s p tag).ledger.cur = s.ledger.cur ++ [raiseRec s E.UE_MEMORY (U.part p) tag 0] := raise_cur _ _ _ _ _

end Access

/-- Settles O32: while PIN_WAYS changes the access joins those that wait; otherwise it is served at once, a read with one reply more. -/
theorem pinnedAccessesAnswer : Obligations.PinnedAccessesAnswer := by
  unfold Obligations.PinnedAccessesAnswer
  intro r s p off up pin isUp
  refine ⟨exec_sliceAccess_pinChanging up pin isUp, fun settled inRange => ?_⟩
  obtain ⟨writes, reads⟩ := perform_pin pin isUp settled inRange []
  refine ⟨_, exec_sliceAccess_pinSettled up pin settled, fun write => ?write, fun read => ?read⟩
  case write =>
    obtain ⟨u, counted, done⟩ := writes write
    rw [performReply_write write done]
    exact onlyRegs_pinnedPut counted p off r.data
  case read =>
    obtain ⟨u, counted, done⟩ := reads read
    rw [performReply_read read done]
    exact onlyRegs_lift counted (reply · r.src r.tag _) (fun _ => ⟨rfl, rfl⟩) (fun _ _ _ => rfl)

/-- Settles O33: a miss waits, a fill serves the oldest, and an access to a partition that is down leaves its record. -/
theorem stackAccessesWait : Obligations.StackAccessesWait := by
  unfold Obligations.StackAccessesWait
  refine ⟨fun r s p off up stack waits => exec_sliceAccess_stackMiss up stack waits, fun p wire s r rest up oldest => ?fill,
    fun r s p off up stack down => ?down⟩
  case fill => rw [exec_lineFill up, fillOldest_cons oldest]
  case down =>
    have run := exec_sliceAccess_stackServed up stack (mustWait_down stack down)
    obtain ⟨writes, reads⟩ := perform_stackDown stack down []
    obtain ⟨parts, replies, free⟩ := downRecord_frame s p r.tag
    have recorded := downRecord_cur s p r.tag
    generalize downRecord s p r.tag = noted at *
    cases kind : r.write
    case true =>
      rw [performReply_write kind (writes kind)] at run
      exact ⟨_, run, parts, fun _ => replies, nofun, _, recorded, rfl, rfl, rfl, rfl⟩
    case false =>
      rw [performReply_read kind (reads kind), free] at run
      exact ⟨_, run, parts, nofun, fun _ => congrArg (· ++ _) replies, _, recorded, rfl, rfl, rfl, rfl⟩

/-! ### Reduction slots (R183, R184, R186): ARM, CONTRIB and REDUCTION_DONE on a header in the pinned region -/

section Reduction

variable {s : State} {addr p off : Nat}

theorem exec_sliceArm (up : hubUp s = true) (src : Source) (addr : Nat) : exec (.sliceArm src addr) s = .next (armDo s src addr 0) :=
  if_neg (by simp [up])

theorem exec_sliceContrib (up : hubUp s = true) (src : Source) (addr idx line : Nat) (data : List Byte) :
    exec (.sliceContrib src addr idx line data) s = .next (contribDo s src addr idx line data 0).1 :=
  if_neg (by simp [up])

/-- The state with the arrival map of a header zeroed, line by line. -/
def mapZeroed (s : State) (src : Source) (h : RedHdr) (tag : Nat) : State :=
  (List.range (ceilDiv (h.n * h.lines) 1024)).foldl (fun s i => memWrite s src tag 0 (h.map + 128 * i) (List.replicate 128 0)) s

/-- ARM counts and reads the header at `addr`, and answers by what the header holds. -/
theorem armDo_pin (aligned : addr % 64 = 0) (served : pinServed s addr 64 p off) (src : Source) (tag : Nat) :
    let l := mrdN (getPart s p).pinned off 64
    let h := redHdr l
    ∃ u, onlyRegs (scCounts p) s u ∧
      (redHdrOk s p h = true → (h.armed = true → h.done = true) → armDo s src addr tag =
        memWrite (mapZeroed u src h tag) src tag 0 addr (patch 0x28 (toLE 8 0) (hdrFlags l true false false))) ∧
      (redHdrOk s p h = false → armDo s src addr tag = refuseFrom u p 5 src addr tag (some addr)) := by
  intro l h
  obtain ⟨u, frame, read⟩ := memRead_atomicCount served src tag
  have enter := atomicEnter_pin served aligned src tag true
  have checked : redHdrOk u p h = redHdrOk s p h := redHdrOk_with (target_pin_lt served.1) frame h
  refine ⟨u, frame, fun good notOpen => ?armed, fun bad => ?refused⟩
  case armed =>
    have free : (h.armed && !h.done) = false := by
      cases armed : h.armed
      · rfl
      · simp [notOpen armed]
    simp only [armDo, enter, read]
    rw [checked, good, free]
    rfl
  case refused =>
    simp only [armDo, enter, read]
    rw [checked, bad]
    rfl

/-- A line is taken in the slot's mode: stored in its place of the buffer, or combined with the line of the result. -/
def lineTaken (s : State) (src : Source) (h : RedHdr) (j line : Nat) (data : List Byte) (tag : Nat) : State :=
  if h.ordered then memWrite s src tag 0 (h.buf + 128 * j) data
  else
    let d := memRead s src tag 0 (h.data + 128 * line) 128
    memWrite d.1 src tag 0 (h.data + 128 * line) (lineElems h.etype h.op d.2 data)

/-- CONTRIB of a line that has not arrived: header and map are read, and then the map, the line and the count are written. -/
theorem contribDo_pin {idx line moff : Nat} (aligned : addr % 64 = 0) (served : pinServed s addr 64 p off) :
    let h := redHdr (mrdN (getPart s p).pinned off 64)
    let j := (idx - h.base) * h.lines + line
    let m := mrdN (getPart s p).pinned moff 1
    h.armed = true → h.done = false → h.base ≤ idx → idx < h.base + h.n → line < h.lines → pinServed s (h.map + j / 8) 1 p moff →
    bit (j % 8) (ofLE m) = false → ∀ (src : Source) (data : List Byte) (tag : Nat), ∃ u, onlyRegs (scCounts p) s u ∧
      (contribDo s src addr idx line data tag).1 = memWrite
        (lineTaken (memWrite u src tag 0 (h.map + j / 8) (toLE 1 (putBits (j % 8) (j % 8) 1 (ofLE m)))) src h j line data tag)
        src tag 0 (addr + 0x28) (toLE 8 (h.arrived + 1)) := by
  intro h j m armed notDone above below within mapServed absent src data tag
  obtain ⟨v, frame, readHdr⟩ := memRead_atomicCount served src tag
  obtain ⟨u, more, readMap⟩ := memRead_pin (pinServed_with mapServed frame) src tag 0
  rw [getPart_with (onlyRegs_parts frame)] at readMap
  refine ⟨u, onlyRegs_trans frame more, ?_⟩
  have enter := atomicEnter_pin served aligned src tag true
  have isOpen : ¬ ((!h.armed || h.done) = true) := by simp [armed, notDone]
  have source : ¬ (idx < h.base ∨ h.base + h.n ≤ idx) := by omega
  have fits : ¬ h.lines ≤ line := by omega
  have missing : ¬ bit (j % 8) (ofLE m) = true := by simp [absent]
  simp only [contribDo, enter, readHdr]
  rw [if_neg isOpen, if_neg source, if_neg fits, readMap, if_neg missing]
  rfl

/-- The state with an ordered slot summed, line by line; a slot that is not ordered has its sums already. -/
def slotSummed (s : State) (h : RedHdr) : State :=
  if h.ordered then (List.range h.lines).foldl (fun s i => orderedLine s h i) s else s

theorem exec_reductionDone (up : hubUp s = true) (aligned : addr % 64 = 0) (pin : target addr = .pin p off) (isUp : ptnDown s p = false)
    (inRange : off < pinLive s p * 2 ^ 20) :
    let l := mrdN (getPart s p).pinned off 64
    let h := redHdr l
    h.armed = true → h.done = false → h.arrived = h.n * h.lines →
    exec (.reductionDone addr) s = .next (fire (memWrite (slotSummed s h) .hub 0 0 addr
      (hdrFlags l false true (bit 18 (fieldLE 0 4 l)))) h.signal 8 260 (tileOf p)) := by
  intro l h armed notDone arrived
  have within : outOfRange s (.pin p off) = false := decide_eq_false (by omega)
  show execReductionDone addr s = _
  have ready : ¬ ((ptnDown s p || outOfRange s (.pin p off) || addr % 64 != 0 || !h.armed || h.done || h.arrived != h.n * h.lines) = true) := by
    simp [isUp, within, aligned, armed, notDone, arrived]
  simp only [execReductionDone, up, pin]
  rw [if_neg (by decide), if_neg ready]
  rfl

end Reduction

/-- Settles O36: ARM and CONTRIB each read the header once and act on what it held; DONE runs on a slot whose lines have arrived. -/
theorem reductionsRun : Obligations.ReductionsRun := by
  unfold Obligations.ReductionsRun
  refine ⟨fun src addr p off s up aligned served => ?arm, fun src addr idx line p off moff data s up aligned served => ?contrib,
    fun addr p off s up aligned pin isUp inRange => exec_reductionDone up aligned pin isUp inRange⟩
  case arm =>
    obtain ⟨u, frame, arms, refuses⟩ := armDo_pin aligned served src 0
    rw [exec_sliceArm up]
    exact ⟨fun good notOpen => ⟨u, frame, congrArg _ (arms good notOpen)⟩, fun bad => ⟨u, frame, congrArg _ (refuses bad)⟩⟩
  case contrib =>
    intro h j m armed notDone above below within mapServed absent
    obtain ⟨u, frame, takes⟩ := contribDo_pin aligned served armed notDone above below within mapServed absent src data 0
    exact ⟨u, frame, (exec_sliceContrib up src addr idx line data).trans (congrArg _ takes)⟩

/-! ### Channels (R191, R387): a write to MEM_CH_CTRL stores LANE, and its pulses ask for verdicts -/

section Channel

variable {s : State} {req : Requester} {i c : Nat} {v : Word}

theorem exec_reqOut (req : Requester) (i : Nat) (v : Word) (s : State) : exec (.reqOut req i v) s = chCtrlWrite s req i 0 v := rfl

theorem exec_retireLane (req : Requester) (i : Nat) (v : Word) (s : State) : exec (.retireLane req i v) s = chCtrlWrite s req i 0 v := rfl

/-- A write that lands is refused where it retires a lane above 18, and otherwise is stored and has its pulses' effect. -/
theorem chCtrlWrite_lands (landing : lands s req .memCh i 4 v [c]) :
    chCtrlWrite s req i 0 v =
      if wbits 1 1 v = 1 ∧ 18 < wbits 12 8 v then .next (accFault s 6 req.id (winOff .memCh i 4))
      else .next (chCtrlEffect c v (storeFields s .memCh c 4 0 v)) := by
  have store : regWriteTo s req .memCh i 4 0 v (fun c _ u => chCtrlEffect c v u) = .next (chCtrlEffect c v (storeFields s .memCh c 4 0 v)) :=
    regCmd_lands landing _
  obtain ⟨⟨up, there, -⟩, reach, -⟩ := landing
  rw [← store]
  simp [chCtrlWrite, up, there, reach, viewWord]

theorem lane_storeFields (s : State) (c : Nat) (v : Word) :
    onlyRegs [F.MEM_CH_CTRL_LANE.key c] s (storeFields s .memCh c 4 0 v) ∧
      rf (storeFields s .memCh c 4 0 v) F.MEM_CH_CTRL_LANE c = wbits 12 8 v := by
  obtain ⟨frame, word⟩ := storeFields_mask (s := s) (j := c) chan_table rfl v
  exact ⟨frame, (congrArg (wbits 12 8) word).trans (wbits_take 12 8 _ v _ (by decide))⟩

end Channel

/-- Settles O37: both commands are the one write; its pulses act in order, REQ_OUT first, and a lane above 18 is refused before either. -/
theorem channelsAreRetired : Obligations.ChannelsAreRetired := by
  unfold Obligations.ChannelsAreRetired
  intro req i c v s x command landing u w
  obtain ⟨frame, lane⟩ := lane_storeFields s c v
  have run : exec x s = chCtrlWrite s req i 0 v := by
    rcases command with rfl | rfl
    · exact exec_reqOut req i v s
    · exact exec_retireLane req i v s
  rw [chCtrlWrite_lands landing] at run
  refine ⟨lane, frame, fun noRetire => ?reqOut, fun retire known => ?retire, fun retire beyond => ?refused⟩
  case reqOut =>
    rw [run, if_neg (by omega)]
    exact congrArg _ (if_neg (by omega))
  case retire =>
    rw [run, if_neg (by omega)]
    exact congrArg _ (if_pos retire)
  case refused => rw [run, if_pos ⟨retire, beyond⟩]

end Sys2Proof.Proofs
end

section
/-! PROOFS. The statements of chapter 09, "Descriptors": waits, the flags and counters of a core, and the issue of a descriptor. -/

namespace Sys2Proof.Proofs

open Sys2Proof Sys2Proof.Machine Sys2Proof.Safety Sys2Proof.Laws

/-! ### Waits (R203, R205): what each kind asks, what a ready head has met, and the flags that an issue consumes -/

section Waits

variable {s : State} {g q iter i : Nat} {d : List Byte}

theorem waitHolds_none (kind : bits 31 30 (dWait d i) = 0) : waitHolds s g iter d i = true := by
  simp only [waitHolds, kind]

theorem waitHolds_flag (kind : bits 31 30 (dWait d i) = 1 ∨ bits 31 30 (dWait d i) = 2) :
    waitHolds s g iter d i = flagGet s g (bits 7 0 (dWait d i)) := by
  rcases kind with kind | kind <;> simp only [waitHolds, kind]

/-- The threshold of R205: THRESHOLD, or with WREL set THRESHOLD plus the completed iterations, modulo 2^24. -/
def waitThreshold (iter : Nat) (d : List Byte) (i : Nat) : Nat :=
  if dWrel d then (bits 23 0 (dWait d i) + iter) % 2 ^ 24 else bits 23 0 (dWait d i)

theorem waitThreshold_lt (iter : Nat) (d : List Byte) (i : Nat) : waitThreshold iter d i < 2 ^ 24 := by
  rw [waitThreshold]
  split
  · exact Nat.mod_lt _ (by decide)
  · exact bits_lt 23 0 _

theorem waitHolds_counter (kind : bits 31 30 (dWait d i) = 3) :
    waitHolds s g iter d i =
      decide ((cntGet s g (bits 29 24 (dWait d i)) + 2 ^ 24 - waitThreshold iter d i) % 2 ^ 24 < 2 ^ 23) := by
  simp only [waitHolds, kind]
  rfl

/-- The model's distance from a threshold, in naturals, is that of R203: the difference of the low 24 bits modulo 2^24. -/
theorem distance_eq {c t : Nat} (inRange : t < 2 ^ 24) :
    (((c + 2 ^ 24 - t) % 2 ^ 24 : Nat) : Int) = ((bits 23 0 c : Int) - t) % 2 ^ 24 := by
  rw [show bits 23 0 c = c % 2 ^ 24 from rfl]
  omega

theorem waitHolds_counter_iff (kind : bits 31 30 (dWait d i) = 3) :
    waitHolds s g iter d i = true ↔
      ((bits 23 0 (cntGet s g (bits 29 24 (dWait d i))) : Int) - waitThreshold iter d i) % 2 ^ 24 < 2 ^ 23 := by
  rw [waitHolds_counter kind, decide_eq_true_iff, ← distance_eq (waitThreshold_lt iter d i)]
  omega

theorem ite_pow_eq_zero (h : Bool) (i : Nat) : (if h then 0 else 2 ^ i) = 0 ↔ h = true := by
  cases h
  · exact ⟨fun zero => absurd zero (Nat.ne_of_gt (Nat.two_pow_pos i)), nofun⟩
  · exact ⟨fun _ => rfl, fun _ => rfl⟩

/-- The mask is a sum of one power of two for each wait that does not hold. -/
theorem waitMask_eq_zero : waitMask s g iter d = 0 ↔ ∀ i < 4, waitHolds s g iter d i = true := by
  rw [waitMask, ← List.foldl_map (f := fun i => if waitHolds s g iter d i then 0 else 2 ^ i) (g := (· + ·)), ← List.sum_eq_foldl,
    List.sum_eq_zero_iff_forall_eq_nat]
  simp only [List.forall_mem_map, List.mem_range, ite_pow_eq_zero]

theorem standingHead_waits (standing : standingHead s g q = some d) : waitMask s g (queueOf s g q).iter d = 0 := by
  simp only [standingHead] at standing
  split at standing
  · split at standing
    · split at standing
      · next masked => exact Option.some.inj standing ▸ masked
      · nomatch standing
    · nomatch standing
  · nomatch standing

theorem standingHead_of_ready (ready : headState s g q = .ready d) : standingHead s g q = some d := by
  unfold headState at ready
  split at ready
  · nomatch ready
  · next e standing =>
    rw [standing]
    split at ready
    · nomatch ready
    · split at ready
      · nomatch ready
      · exact congrArg some (HeadSt.ready.inj ready)

theorem mem_consumed (wait : i < 4) (kind : bits 31 30 (dWait d i) = 2) : bits 7 0 (dWait d i) ∈ consumed d :=
  List.mem_filterMap.mpr ⟨i, List.mem_range.mpr wait, if_pos kind⟩

end Waits

/-- Settles O17, by the kinds of a wait; a ready head stands, so its mask of failing waits is zero. -/
theorem waitsHold : Obligations.WaitsHold := by
  unfold Obligations.WaitsHold
  refine ⟨fun s g iter d i => ⟨waitHolds_none, waitHolds_flag, waitHolds_counter_iff⟩, fun s g q d ready => ?ready,
    fun s g q d i wait kind => ?consumes⟩
  case ready => exact waitMask_eq_zero.mp (standingHead_waits (standingHead_of_ready ready))
  case consumes => rw [issueCommon_flag, if_pos (mem_consumed wait kind)]

/-! ### Flags and counters (R211, R212): a flag is declared with its setter and cleared, and neither operation touches another -/

/-- FLAG_DECL on one flag: flag `n` takes setter `v` and is clear. -/
def declareFlag (g v : Nat) (s : State) (n : Nat) : State := flagPut (setterPut s g n v) g n false

theorem doFlagDecl_eq (s : State) (g : Nat) (d : List Byte) :
    doFlagDecl s g d = (span (bits 7 0 (dW d 0)) (bits 8 0 (dW d 1))).foldl (declareFlag g (bits 3 0 (dW d 2))) s := rfl

theorem mem_span {a n k : Nat} : k ∈ span a n ↔ a ≤ k ∧ k < a + n := by
  simp only [span, List.mem_map, List.mem_range]
  exact ⟨by rintro ⟨j, below, rfl⟩; omega, fun within => ⟨k - a, by omega, by omega⟩⟩

/-- The flags of a declaration read clear, and every other flag as before: words of setters lie apart from words of flags. -/
theorem flagGet_declareFlag (s : State) (g v n : Nat) {k : Nat} (isFlag : k < 256) :
    flagGet (declareFlag g v s n) g k = if k = n then false else flagGet s g k := by
  rw [declareFlag]
  split
  · next same => rw [same, flagGet_flagPut_same]
  · next other =>
    rw [flagGet_flagPut_ne _ _ _ _ _ other]
    exact flagGet_congr ((setterPut_rel s g n v).1 _ (mt List.mem_singleton.mp (flagKey_ne_setterKey g isFlag)))

theorem setterGet_declareFlag (s : State) (g v : Nat) {n : Nat} (isFlag : n < 256) (k : Nat) :
    setterGet (declareFlag g v s n) g k = if k = n then v % 16 else setterGet s g k := by
  have apart : setterGet (declareFlag g v s n) g k = setterGet (setterPut s g n v) g k :=
    setterGet_congr ((flagPut_rel _ g n false).1 _ (mt List.mem_singleton.mp (flagKey_ne_setterKey g isFlag).symm))
  rw [apart]
  split
  · next same => rw [same, setterGet_setterPut_same]
  · next other => rw [setterGet_setterPut_ne _ _ _ _ _ other]

theorem flagGet_declareFlags (g v : Nat) (l : List Nat) (s : State) {k : Nat} (isFlag : k < 256) :
    flagGet (l.foldl (declareFlag g v) s) g k = if k ∈ l then false else flagGet s g k := by
  induction l generalizing s with
  | nil => rfl
  | cons n l ih =>
    rw [List.foldl_cons, ih, flagGet_declareFlag s g v n isFlag]
    grind

theorem setterGet_declareFlags (g v : Nat) (l : List Nat) (s : State) (areFlags : ∀ n ∈ l, n < 256) (k : Nat) :
    setterGet (l.foldl (declareFlag g v) s) g k = if k ∈ l then v % 16 else setterGet s g k := by
  induction l generalizing s with
  | nil => rfl
  | cons n l ih =>
    obtain ⟨isFlag, areFlags⟩ := List.forall_mem_cons.mp areFlags
    rw [List.foldl_cons, ih _ areFlags, setterGet_declareFlag s g v isFlag]
    grind

theorem cntGet_doCounterSet (s : State) (g : Nat) (d : List Byte) :
    cntGet (doCounterSet s g d) g (bits 5 0 (dW d 0)) =
      (if bit 8 (dW d 0) then cntGet s g (bits 5 0 (dW d 0)) + dW d 1 else dW d 1) % 2 ^ 32 :=
  cntGet_cntPut_same _ _ _ _

/-- Settles O18: COUNTER_SET is one write of its counter, and FLAG_DECL a run of declarations, each of one flag and its setter. -/
theorem countersAndFlagsAreSet : Obligations.CountersAndFlagsAreSet := by
  unfold Obligations.CountersAndFlagsAreSet
  refine ⟨fun s g d word => ⟨?counter, cntPut_rel s g _ _⟩, fun s g d inside n isFlag => ?flags⟩
  case counter =>
    rw [cntGet_doCounterSet]
    split
    · rfl
    · exact Nat.mod_eq_of_lt word
  case flags =>
    have areFlags : ∀ k ∈ span (bits 7 0 (dW d 0)) (bits 8 0 (dW d 1)), k < 256 := fun k listed => by
      have := mem_span.mp listed
      omega
    have code : bits 3 0 (dW d 2) % 16 = bits 3 0 (dW d 2) := Nat.mod_eq_of_lt (bits_lt 3 0 _)
    rw [doFlagDecl_eq, flagGet_declareFlags g _ _ s isFlag, setterGet_declareFlags g _ _ s areFlags, code, ← mem_span]
    exact ⟨fun listed => ⟨if_pos listed, if_pos listed⟩, fun other => ⟨if_neg other, if_neg other⟩⟩

/-! ### Issue (R194, R195): the queue moves on, WLOAD and STREAM take their bank, and the descriptor joins those in flight -/

section Issue

/-- The commands that issue a descriptor which stays in flight, with their opcodes (R200). -/
def issueRows (g q : Nat) : List (Nat × Instr) :=
  [(0x00, .nop g q), (0x01, .flagDecl g q), (0x02, .counterSet g q), (0x10, .wload g q), (0x11, .stream g q),
    (0x20, .vchain g q), (0x21, .optim g q), (0x30, .copy g q), (0x31, .atomic g q), (0x32, .lineOp g q), (0x33, .redArm g q),
    (0x34, .redContrib g q), (0x35, .scaleRoll g q), (0x40, .put g q), (0x41, .rcontrib g q), (0x50, .notify g q)]

theorem exec_issueRows (g q : Nat) (s : State) : ∀ e ∈ issueRows g q, exec e.2 s = .next (issueOp s g q e.1) := by
  simp only [issueRows, List.forall_mem_cons]
  exact ⟨rfl, rfl, rfl, rfl, rfl, rfl, rfl, rfl, rfl, rfl, rfl, rfl, rfl, rfl, rfl, rfl, nofun⟩

variable {s : State} {g q : Nat} {d : List Byte}

/-- The queue moves on by one as its head issues. -/
def moveOn (s : State) (g q : Nat) (d : List Byte) : State :=
  setQueue (issueCommon s g q d) g q ((queueOf (issueCommon s g q d) g q).advance 1)

/-- What a descriptor does with the weight banks as it issues: WLOAD takes the next bank and STREAM the earliest loaded one (R68, R70).
`s` is the state that its legality check read. -/
def takeBank (s u : State) (g : Nat) (d : List Byte) : State × Nat :=
  let o := oper (viewOf s g (descSnap s g d)) (dW d 0)
  if dOp d = 0x10 then wloadIssue u g (dW d 0) o.e.fmt o.e.tileRows (dAzn d)
  else if dOp d = 0x11 then streamIssue u g (stRelease d) else (u, 0)

/-- The flight of a descriptor that needs no host data, with the bank that it took. -/
def newFlight (s : State) (g q : Nat) (d : List Byte) (u : State × Nat) : Flight :=
  ⟨(getCore u.1 g).nextId, q, unitOf (dOp d), d, [], [], false, u.2, descSnap s g d⟩

/-- A flight joins those of its core. -/
def joinFlights (s : State) (g : Nat) (f : Flight) : State :=
  setCore s g { getCore s g with flights := (getCore s g).flights ++ [f], nextId := f.id + 1 }

theorem launch_noHost (noHost : hostNeeds (viewOf s g (descSnap s g d)) d = []) :
    let u := takeBank s (moveOn s g q d) g d
    launch s g q d = runReady (joinFlights u.1 g (newFlight s g q d u)) g := by
  simp only [launch, noHost, List.foldl_nil]
  rfl

theorem joinFlights_alone {f : Flight} (alone : (getCore s g).flights = []) :
    joinFlights s g f = setCore s g { getCore s g with flights := [f], nextId := f.id + 1 } := by
  rw [joinFlights, alone]
  rfl

theorem flights_joinFlights {f : Flight} (alone : (getCore s g).flights = []) : (getCore (joinFlights s g f) g).flights = [f] := by
  rw [joinFlights_alone alone, getCore_setCore_same]

/-- A descriptor that is alone in flight and needs no host data has its effect as it issues. -/
theorem launch_alone (noHost : hostNeeds (viewOf s g (descSnap s g d)) d = [])
    (alone : (getCore (takeBank s (moveOn s g q d) g d).1 g).flights = []) :
    let u := takeBank s (moveOn s g q d) g d
    let f := newFlight s g q d u
    let r := flightEffect (joinFlights u.1 g f) g f
    launch s g q d = setFlight r.1 g { f with done := true, acks := r.2 } := by
  intro u f r
  rw [launch_noHost noHost]
  exact runReady_single _ g f (flights_joinFlights alone) rfl rfl

end Issue

/-- Settles O19: each command is the issue of its opcode, and the issue hands its head to `launch`. -/
theorem descriptorsIssue : Obligations.DescriptorsIssue := by
  unfold Obligations.DescriptorsIssue
  intro g q d s op c row head
  refine ⟨(exec_issueRows g q s (op, c) row).trans (congrArg _ (issueOp_issues head)), ?_⟩
  obtain ⟨-, -, rfl, -, -⟩ := head
  intro a b o u f w noHost alone
  have joined : w = joinFlights u.1 g f := (joinFlights_alone alone).symm
  rw [joined]
  exact launch_alone noHost alone

end Sys2Proof.Proofs
end

section
/-! PROOFS. The statements of chapter 10, "Sequencing and loops": loops, loop counts and the mutual-wait rule. -/

namespace Sys2Proof.Proofs

open Sys2Proof Sys2Proof.Machine Sys2Proof.Safety Sys2Proof.Laws

/-! ### Loops (R224, R225): what the issue of a LOOP_BEGIN and of a LOOP_END does, one equation per branch -/

section Loops

variable {s : State} {g q : Nat} {d : List Byte}

theorem exec_loopBegin (head : issues s g q 0x03 d) : exec (.loopBegin g q) s = .next (doLoopBegin s g q d) :=
  congrArg _ (issueWith_issues head _)

theorem exec_loopEnd (head : issues s g q 0x04 d) : exec (.loopEnd g q) s = .next (doLoopEnd s g q d) :=
  congrArg _ (issueWith_issues head _)

/-- An empty loop: the queue passes the LOOP_BEGIN, the body and the LOOP_END at once, and both ends fire. -/
theorem doLoopBegin_empty (empty : rf s (F.SEQ_LC_COUNT.nth (bits 3 0 (dW d 0))) g = 0) :
    let u := issueCommon s g q d
    let k := queueOf u g q
    let t := finishAtIssue (setQueue u g q (k.advance (bodyLen d + 2))) g q d
    doLoopBegin s g q d = match k.buf[k.pos + bodyLen d + 1]? with
      | some e => fireSigs t g q (dOp e) (dTag e) (dSig e 0) (dSig e 1)
      | none => t :=
  if_pos empty

/-- A loop with a count opens: the count is latched as its iterations, none of them done. -/
theorem doLoopBegin_opens {n : Nat} (count : rf s (F.SEQ_LC_COUNT.nth (bits 3 0 (dW d 0))) g = n) (nonzero : n ≠ 0) :
    let u := issueCommon s g q d
    let k := queueOf u g q
    doLoopBegin s g q d = finishAtIssue (setQueue u g q { k with
      pos := k.pos + 1, loops := k.loops ++ [⟨n, 0, bits 3 0 (dW d 0), k.pos + 1, bodyLen d⟩], promoted := false }) g q d := by
  subst count
  exact if_neg nonzero

/-- The end of a loop's body: back to its start while iterations remain, and otherwise the loop closes. -/
theorem doLoopEnd_inner {l : LoopSt} :
    let u := issueCommon s g q d
    let k := queueOf u g q
    k.loops.getLast? = some l →
    doLoopEnd s g q d =
      if l.i + 1 < l.n then
        retire (setQueue u g q { k with
          pos := l.start, loops := k.loops.dropLast ++ [{ l with i := l.i + 1 }], promoted := false }) g q
      else finishAtIssue (setQueue u g q ({ k with loops := k.loops.dropLast }.advance 1)) g q d := by
  intro u k inner
  have inner : (queueOf (issueCommon s g q d) g q).loops.getLast? = some l := inner
  simp only [doLoopEnd, inner]
  rfl

end Loops

/-- Settles O20: the issue reads the count as it stands, and a count of 0 takes the empty branch. -/
theorem emptyLoopsPass : Obligations.EmptyLoopsPass := by
  unfold Obligations.EmptyLoopsPass
  intro g q d s head empty u k t
  exact (exec_loopBegin head).trans (congrArg _ (doLoopBegin_empty empty))

/-- Settles O21: a LOOP_BEGIN with a count opens, and a LOOP_END acts on the innermost open loop. -/
theorem loopsRun : Obligations.LoopsRun := by
  unfold Obligations.LoopsRun
  refine ⟨fun g q d s head n count nonzero => ?begins, fun g q d s l head => ?ends⟩
  case begins => exact (exec_loopBegin head).trans (congrArg _ (doLoopBegin_opens count nonzero))
  case ends =>
    intro u k inner
    refine ⟨fun more => ?back, fun done => ?closes⟩
    case back => exact (exec_loopEnd head).trans (congrArg _ ((doLoopEnd_inner inner).trans (if_pos more)))
    case closes => exact (exec_loopEnd head).trans (congrArg _ ((doLoopEnd_inner inner).trans (if_neg (Nat.not_lt.mpr done))))

/-! ### Loop counts (R226): the count is stored, and then a running loop that had latched from its register is reported -/

section LoopCount

variable {s : State} {req : Requester} {g n q : Nat} {v : Word}

/-- The lowest queue with a running loop that latched its count from loop-count register `n`. -/
def latchedBy (s : State) (g n : Nat) : Option Nat := (List.range 8).find? fun q => (queueOf s g q).loops.any fun l => l.lc == n

/-- The state with a loop count stored. -/
def countStored (s : State) (g n : Nat) (v : Word) : State :=
  wf (storeFields s .seqQ g (0x40 + 4 * n) 0 v) (F.SEQ_LC_COUNT.nth n) g v.toNat

/-- The register and the queue of a count written in flight, latched where no earlier such write is reported. -/
def inFlightInfo (s : State) (g n q : Nat) : State :=
  if rb s F.SEQ_QEVENT_COUNT_WRITTEN_IN_FLIGHT g then s else wf (wf s F.SEQ_CWIF_INFO_QUEUE g q) F.SEQ_CWIF_INFO_LCREG g n

/-- The state with a count written in flight reported. -/
def inFlightReported (s : State) (g n q : Nat) : State := ev (inFlightInfo s g n q) F.SEQ_QEVENT_COUNT_WRITTEN_IN_FLIGHT g

theorem lcKey_eq (g n : Nat) : regKey .seqQ g (0x40 + 4 * n) = (F.SEQ_LC_COUNT.nth n).key g :=
  congrArg (fun o => regKey .seqQ g (0x40 + o)) (Nat.mul_comm 4 n)

theorem onlyRegs_countStored (register : n < 16) : onlyRegs [(F.SEQ_LC_COUNT.nth n).key g] s (countStored s g n v) := by
  rw [countStored, storeFields_whole (lc_table n register) (frozen_lc s g n register), lcKey_eq]
  exact onlyRegs_trans (onlyRegs_regPut _ _ (List.mem_singleton.mpr rfl)) (onlyRegs_wf _ _ (List.mem_singleton.mpr rfl))

theorem count_countStored (s : State) (g n : Nat) (v : Word) : rf (countStored s g n v) (F.SEQ_LC_COUNT.nth n) g = v.toNat := by
  rw [countStored, rf_wf_word _ _ _ _ rfl rfl]
  exact Nat.mod_eq_of_lt v.isLt

theorem latchedBy_congr {t : State} (same : t.cores = s.cores) : latchedBy t g n = latchedBy s g n := by
  simp only [latchedBy, queueOf_with same]

theorem loopCountEffect_eq (s : State) (g n : Nat) (v : Word) :
    let t := countStored s g n v
    loopCountEffect (storeFields s .seqQ g (0x40 + 4 * n) 0 v) g n v = (latchedBy t g n).elim t (inFlightReported t g n) := by
  intro t
  change (match latchedBy t g n with | none => t | some q => inFlightReported t g n q) = _
  cases latchedBy t g n with
  | none => rfl
  | some q => rfl

/-- The write changes no queue, so the loops that are looked through are those from before it. -/
theorem latchedBy_countStored (register : n < 16) : latchedBy (countStored s g n v) g n = latchedBy s g n :=
  latchedBy_congr (onlyRegs_cores (onlyRegs_countStored register))

theorem exec_loopCountWrite (register : n < 16) (landing : lands s req .seqQ g (0x40 + 4 * n) v [g]) :
    exec (.loopCountWrite req g n v) s =
      .next ((latchedBy s g n).elim (countStored s g n v) (inFlightReported (countStored s g n v) g n)) := by
  have effect : exec (.loopCountWrite req g n v) s = .next (loopCountEffect (storeFields s .seqQ g (0x40 + 4 * n) 0 v) g n v) :=
    regCmd_lands landing fun g _ u => loopCountEffect u g n v
  rw [effect, loopCountEffect_eq, latchedBy_countStored register]

theorem latchedBy_none : latchedBy s g n = none ↔ ∀ q < 8, (queueOf s g q).loops.any (fun l => l.lc == n) = false := by
  simp [latchedBy]

theorem onlyRegs_inFlightInfo (s : State) (g n q : Nat) : onlyRegs [F.SEQ_CWIF_INFO_LCREG.key g] s (inFlightInfo s g n q) := by
  unfold inFlightInfo
  split
  · exact onlyRegs_refl _ _
  · exact onlyRegs_trans (onlyRegs_wf _ (f := F.SEQ_CWIF_INFO_QUEUE) _ (List.mem_singleton.mpr rfl))
      (onlyRegs_wf _ (f := F.SEQ_CWIF_INFO_LCREG) _ (List.mem_singleton.mpr rfl))

theorem onlyEvents_inFlightReported (s : State) (g n q : Nat) :
    onlyEvents [F.SEQ_CWIF_INFO_LCREG.key g, F.SEQ_QEVENT_COUNT_WRITTEN_IN_FLIGHT.key g] s (inFlightReported s g n q) :=
  onlyEvents_trans (onlyEvents_mono (onlyEvents_of_regs (onlyRegs_inFlightInfo s g n q)) (List.forall_mem_singleton.mpr (List.mem_cons_self ..)))
    (onlyEvents_ev _ (List.mem_cons_of_mem _ (List.mem_singleton.mpr rfl)))

/-- The event and its record lie before the loop counts of their page. -/
theorem count_inFlightReported (s : State) (g n q : Nat) :
    rf (inFlightReported s g n q) (F.SEQ_LC_COUNT.nth n) g = rf s (F.SEQ_LC_COUNT.nth n) g := by
  have apart : ∀ o < 0x40, (F.SEQ_LC_COUNT.nth n).key g ≠ regKey .seqQ g o := fun o below =>
    regKey_off_ne .seqQ g (show 0x40 + n * 4 ≠ o by omega)
  refine onlyEvents_rf (onlyEvents_inFlightReported s g n q) fun listed => ?_
  rcases List.mem_cons.mp listed with info | event
  · exact apart 0xC (by decide) info
  · exact apart 4 (by decide) (List.mem_singleton.mp event)

/-- The first report latches the queue and the register, each within its field. -/
theorem info_inFlightReported (first : rb s F.SEQ_QEVENT_COUNT_WRITTEN_IN_FLIGHT g = false) (queue : q < 8) (register : n < 16) :
    rf (inFlightReported s g n q) F.SEQ_CWIF_INFO_QUEUE g = q ∧ rf (inFlightReported s g n q) F.SEQ_CWIF_INFO_LCREG g = n := by
  have info : inFlightInfo s g n q = wf (wf s F.SEQ_CWIF_INFO_QUEUE g q) F.SEQ_CWIF_INFO_LCREG g n := if_neg (by simp [first])
  have apart : F.SEQ_CWIF_INFO_LCREG.key g ≠ F.SEQ_QEVENT_COUNT_WRITTEN_IN_FLIGHT.key g := regKey_off_ne .seqQ g (by decide)
  rw [inFlightReported, rf_ev_ne _ _ F.SEQ_CWIF_INFO_QUEUE _ _ apart, rf_ev_ne _ _ F.SEQ_CWIF_INFO_LCREG _ _ apart, info]
  constructor
  · rw [rf_wf_disj _ F.SEQ_CWIF_INFO_LCREG F.SEQ_CWIF_INFO_QUEUE _ _ _ rfl (by decide) (by decide) (.inr (by decide)),
      rf_wf_same _ _ _ _ (by decide) (by decide)]
    exact Nat.mod_eq_of_lt queue
  · rw [rf_wf_same _ _ _ _ (by decide) (by decide)]
    exact Nat.mod_eq_of_lt register

end LoopCount

/-- Settles O24, by whether a running loop had latched from the register. -/
theorem loopCountsAreWritten : Obligations.LoopCountsAreWritten := by
  unfold Obligations.LoopCountsAreWritten
  intro req g n v s _ register landing
  have frame : onlyRegs [(F.SEQ_LC_COUNT.nth n).key g] s (countStored s g n v) := onlyRegs_countStored register
  refine ⟨_, exec_loopCountWrite register landing, ?_⟩
  cases latched : latchedBy s g n with
  | none =>
    exact ⟨onlyRegs_cores frame, count_countStored s g n v, fun _ => frame, fun q found => (nomatch latched.symm.trans found)⟩
  | some q =>
    dsimp only [Option.elim]
    have queue : q < 8 := List.mem_range.mp (List.mem_of_find?_eq_some latched)
    have event : rf (countStored s g n v) F.SEQ_QEVENT_COUNT_WRITTEN_IN_FLIGHT g = rf s F.SEQ_QEVENT_COUNT_WRITTEN_IN_FLIGHT g :=
      onlyRegs_rf frame (mt List.mem_singleton.mp (regKey_off_ne .seqQ g (show 4 ≠ 0x40 + n * 4 by omega)))
    refine ⟨(onlyEvents_cores (onlyEvents_inFlightReported _ g n q)).trans (onlyRegs_cores frame),
      (count_inFlightReported _ g n q).trans (count_countStored s g n v),
      fun idle => (nomatch latched.symm.trans (latchedBy_none.mpr idle)), fun p found => ?_⟩
    obtain rfl : q = p := Option.some.inj (latched.symm.trans found)
    exact ⟨rf_ev_same _ _ g (by decide) (by decide), fun first => info_inFlightReported (by rw [rb, event]; exact first) queue register⟩

/-! ### The mutual-wait rule (R236, R237): the detector disarms, and the stuck queues are recorded -/

section Deadlock

variable {s : State} {g : Nat}

/-- The mask of the stuck queues of a core. -/
def stuckMask (s : State) (g : Nat) : Nat := (stuckSet s g).foldl (fun m q => m + 2 ^ q) 0

/-- The tag that a queue's head waits with where the queue is stuck, and 0 elsewhere. -/
def stuckTag (s : State) (g q : Nat) : Nat := if (stuckSet s g).contains q then ((queueOf s g q).head.map dTag).getD 0 else 0

/-- The tag of the lowest stuck queue's head. -/
def lowestTag (s : State) (g : Nat) : Nat := stuckTag s g ((stuckSet s g).headD 0)

/-- The state with a core's detector disarmed. -/
def disarmed (s : State) (g : Nat) : State := setCore s g { getCore s g with armed := false }

/-- The mask and the tags of a mutual wait, latched where no earlier one is reported. -/
def deadlockInfo (s : State) (g mask : Nat) (tag : Nat → Nat) : State :=
  if rb s F.SEQ_QEVENT_DEADLOCK g then s
  else (List.range 8).foldl (fun s q => wf s (F.SEQ_DL_TAG_TAG.nth q) g (tag q)) (wf s F.SEQ_DL_INFO_QMASK g mask)

/-- The state with a mutual wait in the queue events, before its ledger record. -/
def deadlockReported (s : State) (g : Nat) : State :=
  ev (deadlockInfo (disarmed s g) g (stuckMask s g) (stuckTag s g)) F.SEQ_QEVENT_DEADLOCK g

/-- Registers that a mutual wait is reported in. -/
def deadlockKeys (g : Nat) : List Nat :=
  F.SEQ_QEVENT_DEADLOCK.key g :: F.SEQ_DL_INFO_QMASK.key g :: (List.range 8).map fun q => (F.SEQ_DL_TAG_TAG.nth q).key g

theorem exec_deadlock (up : hubUp s = true) (enabled : rb s F.SEQ_CTRL_DL_EN g = true) (armed : (getCore s g).armed = true)
    (runs : coreRuns s g = true) (waits : deadlocked s g = true) :
    exec (.deadlock g) s = .next (raise (deadlockReported s g) E.DEADLOCK (U.core g) (lowestTag s g) (stuckMask s g)) :=
  (if_neg (by simp [up])).trans (if_pos ⟨enabled, armed, runs, waits⟩)

theorem onlyRegs_deadlockInfo (s : State) (g mask : Nat) (tag : Nat → Nat) : onlyRegs (deadlockKeys g) s (deadlockInfo s g mask tag) := by
  unfold deadlockInfo
  split
  · exact onlyRegs_refl _ _
  · have tags : ∀ q ∈ List.range 8, (F.SEQ_DL_TAG_TAG.nth q).key g ∈ deadlockKeys g := fun q listed =>
      List.mem_cons_of_mem _ (List.mem_cons_of_mem _ (List.mem_map.mpr ⟨q, listed, rfl⟩))
    exact onlyRegs_trans (onlyRegs_wf _ _ (List.mem_cons_of_mem _ (List.mem_cons_self ..)))
      (foldl_wf_rel _ (fun q => F.SEQ_DL_TAG_TAG.nth q) tag g _ _ tags)

theorem onlyEvents_deadlockReported (s : State) (g : Nat) : onlyEvents (deadlockKeys g) (disarmed s g) (deadlockReported s g) :=
  onlyEvents_trans (onlyEvents_of_regs (onlyRegs_deadlockInfo _ _ _ _)) (onlyEvents_ev _ (List.mem_cons_self ..))

/-- The flags have a page of their own. -/
theorem flagKey_notMem_deadlockKeys (core : g < 260) {n : Nat} (isFlag : n < 256) : flagKey g n ∉ deadlockKeys g := by
  have apart : ∀ o < 65536, flagKey g n ≠ regKey .seqQ g o := fun o inPage =>
    regKey_ne_code (b := .seqF) (by omega) (by omega) (show 0 + n / 32 * 4 < 65536 by omega) inPage (by decide)
  simp only [deadlockKeys, List.mem_cons, List.mem_map, List.mem_range, not_or, not_exists, not_and]
  exact ⟨apart 4 (by decide), apart 8 (by decide), fun q queue same => apart (0x20 + q * 4) (by omega) same.symm⟩

theorem flagGet_deadlockReported (core : g < 260) {n : Nat} (isFlag : n < 256) :
    flagGet (deadlockReported s g) g n = flagGet s g n :=
  flagGet_congr ((onlyEvents_deadlockReported s g).1 _ (flagKey_notMem_deadlockKeys core isFlag))

theorem coreRuns_core (runs : coreRuns s g = true) : g < 260 := by
  simp only [coreRuns, Bool.and_eq_true, decide_eq_true_iff] at runs
  exact runs.1.1.1

end Deadlock

/-- Settles O25: the report writes registers of the sequencer's page alone, and the ledger record follows it. -/
theorem deadlocksAreRaised : Obligations.DeadlocksAreRaised := by
  unfold Obligations.DeadlocksAreRaised
  intro g s up enabled armed runs waits
  have report := onlyEvents_deadlockReported s g
  have record := raise_rel (deadlockReported s g) E.DEADLOCK (U.core g) (lowestTag s g) (stuckMask s g)
  refine ⟨_, exec_deadlock up enabled armed runs waits, ?event, ?core, record.parts.trans (onlyEvents_parts report :),
    record.signals.trans (onlyEvents_signals report :), fun n isFlag => ?flags,
    raiseRec (deadlockReported s g) E.DEADLOCK (U.core g) (lowestTag s g) (stuckMask s g), ?ledger, rfl, rfl, rfl, rfl⟩
  case event => exact (record.rf (f := F.SEQ_QEVENT_DEADLOCK) (seqQ_raise g 4)).trans (rf_ev_same _ _ g (by decide) (by decide))
  case core => exact (getCore_with (record.cores.trans (onlyEvents_cores report)) g).trans (getCore_setCore_same s g _)
  case flags => rw [raise_flag, flagGet_deadlockReported (coreRuns_core runs) isFlag]
  case ledger =>
    rw [raise_cur, onlyEvents_ledger report]
    rfl

end Sys2Proof.Proofs
end

section
/-! PROOFS. The statements of chapter 11, "The host interface": the host link and the packets on it. -/

namespace Sys2Proof.Proofs

open Sys2Proof Sys2Proof.Machine Sys2Proof.Safety Sys2Proof.Laws

/-! ### The link (R242 to R244): how it leaves L0, and what the end of a training leaves by the modules that trained -/

section HostLink

variable {s : State} {req : Requester} {a b : Nat}

theorem exec_hostLinkDown (link : linkUp s = true) : exec .hostLinkDown s = .next (hostLinkLost s 3) := if_pos link

/-- HQ_LINK_CMD holds no field but its pulse, so nothing is stored. -/
theorem exec_hqLinkRetrain (landing : lands s req .hq 0 0x20 1 [0]) : exec (.hqLinkRetrain req) s = .next (hqRetrainEffect s) := by
  have pulse : storeFields s .hq 0 0x20 0 1 = s := pulse_any (by decide +kernel) rfl 0 1
  rw [← congrArg hqRetrainEffect pulse]
  exact regCmd_lands landing fun _ _ u => hqRetrainEffect u

/-- The reads that wait for a tag follow one that has ended, or a link that has come up. -/
def readsFollow (s : State) : State := sendReads s.host.waiting.length s

/-- The modules of a training, each trained or failed at 32 GT/s. -/
def modulesTrained (s : State) (mask : Nat) : State := (List.range 4).foldl (fun s m => moduleTrained s m (bit m mask)) s

/-- The link comes up on a set of modules at a rate; no training is to come. -/
def linkTrained (s : State) (modules rate : Nat) : State := linkStatus { s with host := { s.host with training := 0 } } modules rate

/-- A training ends: one less is to come where no module is live, and a link on fewer than four modules or at the lower rate is
degraded. -/
def trainingEnded (s : State) (modules rate : Nat) : State :=
  if modules = 0 then { s with host := { s.host with training := s.host.training - 1 } }
  else readsFollow (if modules = 15 ∧ rate = 2 then linkTrained s modules rate
    else ev (linkTrained s modules rate) F.HQ_EVENT_MODULE_DEGRADE 0)

/-- The higher rate is taken where any set of modules trained there. -/
theorem exec_ucieTrainEnd (up : hubUp s = true) (down : linkUp s = false) (due : s.host.training ≠ 0) (notP3 : s.power.inP3 = false)
    (notHeld : s.power.held = false) :
    exec (.ucieTrainEnd a b) s = .next (if moduleSet a = 0 then trainingEnded (modulesTrained s a) (moduleSet b) 1
      else trainingEnded (modulesTrained s a) (moduleSet a) 2) := by
  have due' : (s.host.training == 0) = false := beq_eq_false_iff_ne.mpr due
  show execUcieTrainEnd a b s = _
  simp only [execUcieTrainEnd, up, down, due', notP3, notHeld]
  by_cases fast : moduleSet a = 0
  · by_cases slow : moduleSet b = 0
    · simp [fast, slow, trainingEnded, modulesTrained]
    · simp [fast, slow, trainingEnded, modulesTrained, linkTrained, readsFollow]
  · by_cases all : moduleSet a = 15
    · simp [all, trainingEnded, modulesTrained, linkTrained, readsFollow]
    · simp [fast, all, trainingEnded, modulesTrained, linkTrained, readsFollow]

end HostLink

/-- Settles O41: a link that fails or is told to retrain is lost by the one operation, and a training ends by the sets that trained. -/
theorem hostLinkTrains : Obligations.HostLinkTrains := by
  unfold Obligations.HostLinkTrains
  refine ⟨fun s link => exec_hostLinkDown link, fun req s landing => ⟨fun link => ?lost, fun down => ?again⟩, fun s n => rfl,
    fun a b s up down due notP3 notHeld => ?trained⟩
  case lost => rw [exec_hqLinkRetrain landing, hqRetrainEffect, if_pos link]
  case again => rw [exec_hqLinkRetrain landing, hqRetrainEffect, if_neg (by simp [down])]
  case trained =>
    rw [exec_ucieTrainEnd up down due notP3 notHeld]
    refine ⟨fun fast => ?fast, fun noFast slow => ?slow, fun noFast noSlow => ?failed⟩
    case fast =>
      rw [if_neg fast, trainingEnded, if_neg fast]
      simp only [and_true]
      rfl
    case slow =>
      rw [if_pos noFast, trainingEnded, if_neg slow, if_neg (by simp)]
      rfl
    case failed =>
      rw [if_pos noFast, trainingEnded, if_pos noSlow]
      rfl

/-! ### Packets of the host (R245, R246, R249): reads and writes of device memory, and the reads of the device that end -/

section HostPackets

variable {s : State} {tag a n : Nat}

theorem ownerOf_pin {p off : Nat} (pin : target a = .pin p off) : ownerOf a = some p := by
  rw [ownerOf, pin]

theorem exec_dmemRd_served (up : hubUp s = true) (link : linkUp s = true) {p : Nat} (owner : ownerOf a = some p)
    (there : ptnDown s p = false) :
    exec (.dmemRd tag a n) s = .next (hostSend (hubRead s a (32 * n)).1 (.cpl tag 0 (hubRead s a (32 * n)).2)) := by
  show execDmemRd tag a n s = _
  simp [execDmemRd, up, link, owner, there]

theorem exec_dmemRd_down (up : hubUp s = true) (link : linkUp s = true) {p : Nat} (owner : ownerOf a = some p)
    (down : ptnDown s p = true) : exec (.dmemRd tag a n) s = .next (hostSend s (.cpl tag 3 (List.replicate 32 0))) := by
  show execDmemRd tag a n s = _
  simp [execDmemRd, up, link, owner, down]

theorem exec_dmemWr (up : hubUp s = true) (link : linkUp s = true) (d : List Byte) :
    exec (.dmemWr a d) s = .next (hubWrite s a d) := by
  show execDmemWr a d s = _
  simp [execDmemWr, up, link]

theorem exec_hostPacketReserved (up : hubUp s = true) (link : linkUp s = true) {ptype : Nat} (reserved : ptype = 0 ∨ 8 < ptype) :
    exec (.hostPacketReserved ptype tag true) s = .next (hostSend s (.cpl tag 1 (List.replicate 32 0))) :=
  (if_neg (by simp [up])).trans (if_pos ⟨link, rfl, reserved⟩)

/-- A read of the device leaves the table of outstanding reads. -/
def readTaken (s : State) (h : HostRead) : State :=
  { s with host := { s.host with reads := s.host.reads.filter fun e => e.id != h.id } }

theorem takeRead_unknown (unknown : s.host.reads.any (fun h => h.tag == tag) = false) : takeRead s tag = none := by
  rw [takeRead, List.find?_eq_none.mpr fun h listed => List.any_eq_false.mp unknown h listed]
  rfl

theorem takeRead_known {h : HostRead} (known : s.host.reads.find? (fun h => h.tag == tag) = some h) :
    takeRead s tag = some (h, readTaken s h) := by
  rw [takeRead, known]
  rfl

theorem exec_hmemRdCompletion_unknown (link : linkUp s = true) (unknown : s.host.reads.any (fun h => h.tag == tag) = false)
    (status : Nat) (d : List Byte) : exec (.hmemRdCompletion tag status d) s = .next (bumpSat s F.HQ_WR_DROPS_COUNT 0 1) := by
  show execHmemRdCompletion tag status d s = _
  simp [execHmemRdCompletion, link, takeRead_unknown unknown]

theorem exec_hmemRdCompletion_known {h : HostRead} (link : linkUp s = true)
    (known : s.host.reads.find? (fun h => h.tag == tag) = some h) (status : Nat) (d : List Byte) :
    exec (.hmemRdCompletion tag status d) s =
      .next (readsFollow (if status = 0 then readDone (readTaken s h) h d else readFailed (readTaken s h) h 3)) := by
  show execHmemRdCompletion tag status d s = _
  simp only [execHmemRdCompletion, link, takeRead_known known]
  rfl

theorem exec_hmemRdTimeout_known {h : HostRead} (known : s.host.reads.find? (fun h => h.tag == tag) = some h) :
    exec (.hmemRdTimeout tag) s = .next (readsFollow (readFailed (readTaken s h) h 4)) := by
  show execHmemRdTimeout tag s = _
  simp only [execHmemRdTimeout, takeRead_known known]
  rfl

end HostPackets

/-- Settles O42: the hub reads and writes the pinned bytes for the host, and a completion or timeout ends the read of its tag. -/
theorem hostPacketsAreServed : Obligations.HostPacketsAreServed := by
  unfold Obligations.HostPacketsAreServed
  refine ⟨fun tag a n p off s up link served => ?read, fun tag a n p s up link owner down => exec_dmemRd_down up link owner down,
    fun a p off d s up link served => ?write, fun ptype tag s up link reserved => exec_hostPacketReserved up link reserved,
    fun tag status d s link unknown => ?unknown, fun tag status d s h known =>
      ⟨fun link => exec_hmemRdCompletion_known link known status d, exec_hmemRdTimeout_known known⟩⟩
  case read =>
    obtain ⟨u, counted, answer⟩ := memRead_pin served .hub 0 0
    obtain ⟨pin, isUp, -⟩ := served
    refine ⟨u, counted, ?_⟩
    rw [exec_dmemRd_served up link (ownerOf_pin pin) isUp, hubRead, answer]
  case write =>
    obtain ⟨u, counted, done⟩ := memWrite_pin served .hub 0 0
    exact ⟨u, counted, (exec_dmemWr up link d).trans (congrArg _ done)⟩
  case unknown =>
    exact ⟨_, exec_hmemRdCompletion_unknown link unknown status d, onlyRegs_wf s _ (List.mem_singleton.mpr rfl),
      rf_wf_word s _ 0 _ rfl rfl⟩

end Sys2Proof.Proofs
end

section
/-! PROOFS. The statements of chapter 11, "The host interface": rings and completion queues. -/

namespace Sys2Proof.Proofs

open Sys2Proof Sys2Proof.Machine Sys2Proof.Safety Sys2Proof.Laws

/-! ### What a write leaves in a field of a register without RWB fields -/

section StoredFields

variable {s : State} {b : Blk} {j o : Nat} {m : Word} {f : Fld}

/-- A field whose bits all take a write holds what was written. -/
theorem rf_storeFields_taken
    (plain : (findReg b o).any (fun r => r.maskOf (fun a => a == .rw || a == .tmr) == m && r.maskOf Acc.buffered == 0) = true)
    (v : Word) (place : f.key j = regKey b j o) (taken : ∀ k < f.hi + 1 - f.lo, (m &&& ~~~ frozen s b j o).getLsbD (f.lo + k) = true) :
    rf (storeFields s b j o 0 v) f j = wbits f.hi f.lo v := by
  rw [rf, place, (storeFields_open plain v).2]
  refine wbits_take _ _ _ v _ fun i below above => ?_
  have bit := taken (i - f.lo) (by omega)
  rwa [Nat.add_sub_cancel' above] at bit

/-- A register that is one plain field holds the word written. -/
theorem word_stored
    (whole : (findReg b o).any (fun r => r.maskOf (fun a => a == .rw || a == .tmr) == BitVec.allOnes 32 && r.maskOf Acc.buffered == 0) = true)
    (thawed : frozen s b j o = 0) (v : Word) (place : f.key j = regKey b j o) (word : (f.hi, f.lo) = (31, 0)) :
    onlyRegs [f.key j] s (storeFields s b j o 0 v) ∧ rf (storeFields s b j o 0 v) f j = v.toNat := by
  obtain ⟨hi, lo⟩ := Prod.mk.inj word
  rw [storeFields_whole whole thawed, rf, hi, lo, place, regLive_regPut_same, wbits_full]
  exact ⟨onlyRegs_regPut s v (List.mem_singleton.mpr rfl), rfl⟩

/-- A register that its unit keeps from every write stays. -/
theorem storeFields_frozen {view : Nat} (shut : frozen s b j o = BitVec.allOnes 32) (v : Word) : storeFields s b j o view v = s := by
  refine storeFields_pulse ?_ view v
  rw [shut, pulseOnly]
  split
  · rfl
  · simp

end StoredFields

/-- A frame of registers keeps the host link's state. -/
theorem onlyRegs_host {ks : List Nat} {s t : State} (frame : onlyRegs ks s t) : t.host = s.host := by rw [frame.2]

/-! ### Rings (R250 to R255): RUN and PAUSE, CIDX, wakes, polls and fetches -/

section Rings

variable {s : State} {req : Requester} {r : Nat} {v : Word}

theorem frozen_running (running : ringState s r = 1) (o : Nat) : frozen s .hqRing r o = BitVec.allOnes 32 := if_pos running

theorem frozen_notRunning (stopped : ringState s r ≠ 1) (o : Nat) : frozen s .hqRing r o = 0 := if_neg stopped

theorem exec_ringRun (landing : lands s req .hqRing 0 0 v [r]) :
    exec (.ringRun req v) s = .next (ringCtrlEffect r v (storeFields s .hqRing r 0 0 v)) :=
  regCmd_lands landing fun r _ u => ringCtrlEffect r v u

theorem exec_ringPause (landing : lands s req .hqRing 0 0 v [r]) :
    exec (.ringPause req v) s = .next (ringCtrlEffect r v (storeFields s .hqRing r 0 0 v)) :=
  regCmd_lands landing fun r _ u => ringCtrlEffect r v u

theorem exec_hqRingCidxWrite (landing : lands s req .hqRing 0 0x18 v [r]) :
    exec (.hqRingCidxWrite req v) s = .next (storeFields s .hqRing r 0x18 0 v) :=
  regCmd_lands landing noEffect

theorem exec_hqWake (landing : lands s req .hq 0 0x14 v [0]) :
    exec (.hqWake req v) s = .next (hqWakeEffect v (storeFields s .hq 0 0x14 0 v)) :=
  regCmd_lands landing fun _ _ u => hqWakeEffect v u

/-- The two pulses of HQ_RING_CTRL, PAUSE above RUN. -/
theorem pulses_wbits (v : Word) : wbits 1 1 v = wbits 2 1 v % 2 ∧ wbits 2 2 v = wbits 2 1 v / 2 := by
  simp only [wbits, bits, Nat.shiftRight_eq_div_pow]
  omega

theorem ringCtrlEffect_run (run : wbits 2 1 v = 1) (u : State) : ringCtrlEffect r v u = runRing u r := by
  obtain ⟨runBit, pauseBit⟩ := pulses_wbits v
  simp [ringCtrlEffect, runBit, pauseBit, run]

theorem ringCtrlEffect_pause (pause : wbits 2 1 v = 2) (u : State) : ringCtrlEffect r v u = ringPauseWith u r 19 := by
  obtain ⟨runBit, pauseBit⟩ := pulses_wbits v
  simp [ringCtrlEffect, runBit, pauseBit, pause]

/-- A write to HQ_RING_CTRL of a ring that does not run stores LOG2_SIZE, ERR_CQ and POLL_US. -/
theorem ringCtrl_stored (stopped : ringState s r ≠ 1) (v : Word) :
    let u := storeFields s .hqRing r 0 0 v
    rf u F.HQ_RING_CTRL_LOG2_SIZE r = wbits 28 24 v ∧ rf u F.HQ_RING_CTRL_ERR_CQ r = wbits 21 16 v ∧
      rf u F.HQ_RING_CTRL_POLL_US r = wbits 15 8 v ∧ onlyRegs [F.HQ_RING_CTRL_RUN.key r] s u := by
  obtain ⟨plain, -⟩ := host_table
  have thawed := frozen_notRunning stopped 0
  exact ⟨rf_storeFields_taken plain v rfl (by rw [thawed]; decide), rf_storeFields_taken plain v rfl (by rw [thawed]; decide),
    rf_storeFields_taken plain v rfl (by rw [thawed]; decide), (storeFields_open plain v).1⟩

/-- The state register of a ring shows PAUSED with a reason. -/
def pauseShown (s : State) (r reason : Nat) : State := wf (wf s F.HQ_RING_STATE_STATE r 2) F.HQ_RING_STATE_REASON r reason

theorem onlyRegs_pauseShown (s : State) (r reason : Nat) : onlyRegs [F.HQ_RING_STATE_STATE.key r] s (pauseShown s r reason) :=
  onlyRegs_trans (onlyRegs_wf _ _ (List.mem_singleton.mpr rfl)) (onlyRegs_wf _ _ (List.mem_singleton.mpr rfl))

theorem ringState_pauseShown (s : State) (r reason : Nat) : ringState (pauseShown s r reason) r = 2 :=
  (rf_wf_disj _ F.HQ_RING_STATE_REASON F.HQ_RING_STATE_STATE r r reason rfl (by decide) (by decide) (by decide)).trans
    (rf_wf_same s F.HQ_RING_STATE_STATE r 2 (by decide) (by decide))

theorem reason_pauseShown (s : State) (r : Nat) {reason : Nat} (byte : reason < 256) :
    rf (pauseShown s r reason) F.HQ_RING_STATE_REASON r = reason :=
  (rf_wf_same _ F.HQ_RING_STATE_REASON r reason (by decide) (by decide)).trans (Nat.mod_eq_of_lt byte)

/-- The reads whose descriptors will be dropped as they come (R255). -/
def withDropped (s : State) (l : List (Nat × Nat)) : State := { s with host := { s.host with dropped := l } }

theorem rf_withDropped (s : State) (l : List (Nat × Nat)) (f : Fld) (i : Nat) : rf (withDropped s l) f i = rf s f i := rf_with rfl rfl f i

theorem withDropped_reads (s : State) (l : List (Nat × Nat)) : (withDropped s l).host.reads = s.host.reads := rfl

theorem onlyRegs_withDropped {ks : List Nat} {u : State} (frame : onlyRegs ks s u) (l : List (Nat × Nat)) :
    onlyRegs ks { s with host := (withDropped u l).host } (withDropped u l) :=
  onlyRegs_lift frame (fun w => { w with host := (withDropped u l).host }) (fun _ => ⟨rfl, rfl⟩) (fun _ _ _ => rfl)

theorem ringPauseWith_running (running : ringState s r = 1) (reason : Nat) :
    ∃ l, ringPauseWith s r reason = withDropped (pauseShown s r reason) l := by
  rw [ringPauseWith, if_pos running]
  exact ⟨_, rfl⟩

/-- A write to CIDX of a ring that does not run stores the whole word. -/
theorem cidx_stored (stopped : ringState s r ≠ 1) (v : Word) :
    let t := storeFields s .hqRing r 0x18 0 v
    onlyRegs [F.HQ_RING_CIDX_CIDX.key r] s t ∧ rf t F.HQ_RING_CIDX_CIDX r = v.toNat := by
  obtain ⟨-, plain, -⟩ := host_table
  exact word_stored plain (frozen_notRunning stopped 0x18) v rfl rfl

theorem runRing_good (low : 6 ≤ rf s F.HQ_RING_CTRL_LOG2_SIZE r) (high : rf s F.HQ_RING_CTRL_LOG2_SIZE r ≤ 16)
    (base : rf s F.HQ_RING_BASE_LO_BASE r % 4096 = 0) (record : rf s F.HQ_RING_PREC_LO_PREC r % 16 = 0) :
    runRing s r = readRecord (wf (wf s F.HQ_RING_STATE_STATE r 1) F.HQ_RING_STATE_REASON r 0) r :=
  if_neg (by omega)

theorem runRing_badSize (bad : rf s F.HQ_RING_CTRL_LOG2_SIZE r < 6 ∨ 16 < rf s F.HQ_RING_CTRL_LOG2_SIZE r) :
    runRing s r = ringError s r 5 :=
  if_pos (by omega)

/-- A poll that is due reads the record within the budget of the microsecond, and is late beyond it. -/
theorem exec_ringPoll_due (running : ringState s r = 1) (polls : rf s F.HQ_RING_CTRL_POLL_US r ≠ 0)
    (due : (aget s.host.lastRead r).getD 0 + rf s F.HQ_RING_CTRL_POLL_US r ≤ tick s) (settled : recordOut s r = false) :
    exec (.ringPoll r) s = .next (if max 1 (rf s F.HQ_CTRL_POLL_BUDGET 0) ≤ s.host.polls then ev s F.HQ_EVENT_POLL_LATE 0
      else readRecord { s with host := { s.host with polls := s.host.polls + 1 } } r) := by
  have waits : ¬ (ringState s r ≠ 1 ∨ rf s F.HQ_RING_CTRL_POLL_US r = 0 ∨
      tick s < (aget s.host.lastRead r).getD 0 + rf s F.HQ_RING_CTRL_POLL_US r) := by omega
  show execRingPoll r s = _
  rw [execRingPoll, if_neg waits, if_neg (by simp [settled])]
  split <;> rfl

/-- A fetch that does not wrap is one read. -/
theorem fetchRing_straight (fetches : fetchCount s r ≠ 0) :
    let n := fetchCount s r
    let u := stepOpenAtFetch s
    let pos := rf u F.HQ_RING_CIDX_CIDX r
    let size := 2 ^ rf u F.HQ_RING_CTRL_LOG2_SIZE r
    pos % size + n ≤ size →
    fetchRing s r = (hostRead u (rf2 u F.HQ_RING_BASE_LO_BASE F.HQ_RING_BASE_HI_BASE r + 64 * (pos % size)) (64 * n) (.descs r pos n)).1 := by
  intro n u pos size straight
  have whole : min n (size - pos % size) = n := by omega
  simp only [fetchRing, if_neg fetches]
  rw [whole, if_pos rfl]

end Rings

/-- Settles O43: RUN and PAUSE act on a ring by its state, for a running ring takes no write; the rest is one equation per command. -/
theorem ringsRun : Obligations.RingsRun := by
  unfold Obligations.RingsRun
  refine ⟨fun req r v s landing stopped => ?run, fun req r v s landing running pause => ?pause,
    fun req r v s landing => ⟨fun running => ?kept, fun stopped => ?cidx⟩, fun req v s landing => ?wake,
    fun r s running polls due settled => ⟨fun within => ?poll, fun beyond => ?late⟩,
    fun r s fetches => ?fetch⟩
  case run =>
    obtain ⟨size, queue, period, frame⟩ := ringCtrl_stored stopped v
    refine ⟨size, queue, period, frame, fun run low high base record => ?good, fun run bad => ?bad⟩
    case good =>
      rw [← size] at low high
      rw [exec_ringRun landing, ringCtrlEffect_run run, runRing_good low high base record]
    case bad =>
      rw [← size] at bad
      rw [exec_ringRun landing, ringCtrlEffect_run run, runRing_badSize bad]
  case pause =>
    obtain ⟨dropped, paused⟩ := ringPauseWith_running running 19
    have run := exec_ringPause landing
    rw [ringCtrlEffect_pause pause, storeFields_frozen (frozen_running running 0), paused] at run
    have frame := onlyRegs_pauseShown s r 19
    exact ⟨_, run, (rf_withDropped _ dropped _ r).trans (ringState_pauseShown s r 19),
      (rf_withDropped _ dropped _ r).trans (reason_pauseShown s r (by decide)),
      (withDropped_reads _ dropped).trans (congrArg HostSt.reads (onlyRegs_host frame)), onlyRegs_withDropped frame dropped⟩
  case kept => rw [exec_hqRingCidxWrite landing, storeFields_frozen (frozen_running running 0x18)]
  case cidx => exact ⟨_, exec_hqRingCidxWrite landing, cidx_stored stopped v⟩
  case wake =>
    obtain ⟨-, -, -, -, plain⟩ := host_table
    exact ⟨_, (storeFields_open plain v).1, exec_hqWake landing⟩
  case poll => rw [exec_ringPoll_due running polls due settled, if_neg (by omega)]
  case late => rw [exec_ringPoll_due running polls due settled, if_pos beyond]
  case fetch => exact fun straight => congrArg _ (fetchRing_straight fetches straight)

/-! ### Completion queues (R257, R258, R260): CTRL and HEAD, and the end of a hold-off -/

section CompletionQueues

variable {s : State} {req : Requester} {q : Nat} {v : Word}

theorem exec_cqEnable (landing : lands s req .hqCq 0 0 v [q]) :
    exec (.cqEnable req v) s = .next (cqCtrlEffect q (regLive s (regKey .hqCq q 0)) (storeFields s .hqCq q 0 0 v)) :=
  regCmd_lands landing cqCtrlEffect

theorem exec_hqCqHeadWrite (landing : lands s req .hqCq 0 0x0C v [q]) :
    exec (.hqCqHeadWrite req v) s = .next (storeFields s .hqCq q 0x0C 0 v) :=
  regCmd_lands landing noEffect

/-- EN takes a write in every state of its queue. -/
theorem en_stored (s : State) (q : Nat) (v : Word) :
    onlyRegs [F.HQ_CQ_CTRL_EN.key q] s (storeFields s .hqCq q 0 0 v) ∧
      rf (storeFields s .hqCq q 0 0 v) F.HQ_CQ_CTRL_EN q = wbits 0 0 v := by
  obtain ⟨-, -, plain, -⟩ := host_table
  refine ⟨(storeFields_open plain v).1, rf_storeFields_taken plain v rfl ?_⟩
  simp only [frozen]
  split <;> decide

theorem frozen_head (s : State) (q : Nat) : frozen s .hqCq q 0x0C = 0 := if_neg (by simp)

theorem head_stored (s : State) (q : Nat) (v : Word) :
    onlyRegs [F.HQ_CQ_HEAD_HEAD.key q] s (storeFields s .hqCq q 0x0C 0 v) ∧
      rf (storeFields s .hqCq q 0x0C 0 v) F.HQ_CQ_HEAD_HEAD q = v.toNat := by
  obtain ⟨-, -, -, plain, -⟩ := host_table
  exact word_stored plain (frozen_head s q) v rfl rfl

/-- A queue starts afresh: record 0, phase 1. -/
def cqStarted (s : State) (q : Nat) : State :=
  wf { s with host := { s.host with phase0 := s.host.phase0.filter (· != q) } } F.HQ_CQ_TAIL_TAIL q 0

/-- The hold-off of a queue is gone, with the message that it kept. -/
def holdoffEnded (s : State) (q : Nat) : State :=
  { s with host := { s.host with holdoff := s.host.holdoff.filter fun e => e.1 != q } }

theorem cqCtrlEffect_enabled {old : Word} (enabled : rf s F.HQ_CQ_CTRL_EN q = 1) (before : wbits 0 0 old = 0) :
    cqCtrlEffect q old s = cqStarted s q :=
  if_pos ⟨by simp [rb, enabled], before⟩

theorem cqCtrlEffect_disabled {old : Word} (disabled : rf s F.HQ_CQ_CTRL_EN q = 0) : cqCtrlEffect q old s = holdoffEnded s q := by
  simp [cqCtrlEffect, rb, disabled, holdoffEnded]

theorem onlyRegs_cqStarted (s : State) (q : Nat) :
    onlyRegs [F.HQ_CQ_TAIL_TAIL.key q] { s with host := (cqStarted s q).host } (cqStarted s q) :=
  onlyRegs_wf _ _ (List.mem_singleton.mpr rfl)

theorem tail_cqStarted (s : State) (q : Nat) : rf (cqStarted s q) F.HQ_CQ_TAIL_TAIL q = 0 := rf_wf_word _ _ q 0 rfl rfl

theorem en_cqStarted (s : State) (q : Nat) : rf (cqStarted s q) F.HQ_CQ_CTRL_EN q = rf s F.HQ_CQ_CTRL_EN q :=
  rf_wf_ne _ _ _ q q 0 (regKey_off_ne .hqCq q (by decide))

theorem holdoffEnded_none (s : State) (q : Nat) : ∀ e ∈ (holdoffEnded s q).host.holdoff, e.1 ≠ q := fun _ listed =>
  bne_iff_ne.mp (List.mem_filter.mp listed).2

theorem exec_interruptHoldoff {kept : Bool} (held : s.host.holdoff.find? (fun e => e.1 == q) = some (q, kept)) :
    exec (.interruptHoldoff q) s = .next (if kept then cqNote (holdoffEnded s q) q else holdoffEnded s q) := by
  show execInterruptHoldoff q s = _
  rw [execInterruptHoldoff, held]
  rfl

theorem cqNote_silent (silent : rb s F.HQ_CQ_CTRL_IRQ_EN q = false) : cqNote s q = s := if_pos (by simp [silent])

/-- With no hold-off open a record is announced at once, and opens the next hold-off where the queue has one. -/
theorem cqNote_sends (enabled : rb s F.HQ_CQ_CTRL_IRQ_EN q = true) (link : linkUp s = true)
    (free : ∀ e ∈ s.host.holdoff, e.1 ≠ q) :
    let v := hostSend s (.msg (rf s F.HQ_CQ_CTRL_VECTOR q))
    cqNote s q = if rf s F.HQ_CQ_CTRL_HOLDOFF_US q = 0 then v
      else { v with host := { v.host with holdoff := s.host.holdoff ++ [(q, false)] } } := by
  have noHoldoff : s.host.holdoff.any (fun e => e.1 == q) = false :=
    List.any_eq_false.mpr fun e listed => by simp [free e listed]
  simp only [cqNote, cqMsg, enabled, noHoldoff, link]
  rfl

end CompletionQueues

/-- Settles O44: EN takes every write, its change starts the queue or ends its hold-off, and a hold-off that ends sends what it kept. -/
theorem completionQueuesNotify : Obligations.CompletionQueuesNotify := by
  unfold Obligations.CompletionQueuesNotify
  refine ⟨fun req q v s landing => ⟨fun was enable => ?enable, fun disable => ?disable⟩,
    fun req q v s landing => ⟨_, exec_hqCqHeadWrite landing, head_stored s q v⟩,
    fun q kept s held => ⟨fun quiet => ?quiet, fun keeps enabled link => ?sends⟩⟩
  case enable =>
    obtain ⟨frame, en⟩ := en_stored s q v
    have before : wbits 0 0 (regLive s (regKey .hqCq q 0)) = 0 := bne_eq_false_iff_eq.mp was
    have run := exec_cqEnable landing
    rw [cqCtrlEffect_enabled (en.trans enable) before] at run
    refine ⟨_, run, ?en, tail_cqStarted _ q, ?phase, ?frame⟩
    case en => simp [rb, en_cqStarted, en, enable]
    case phase => exact congrArg (fun h : HostSt => h.phase0.filter (· != q)) (onlyRegs_host frame)
    case frame =>
      refine onlyRegs_trans ?_ (onlyRegs_mono (onlyRegs_cqStarted _ q) (by simp))
      exact onlyRegs_mono (onlyRegs_lift frame (fun u => { u with host := (cqStarted (storeFields s .hqCq q 0 0 v) q).host })
        (fun _ => ⟨rfl, rfl⟩) (fun _ _ _ => rfl)) (by simp)
  case disable =>
    obtain ⟨frame, en⟩ := en_stored s q v
    have run := exec_cqEnable landing
    rw [cqCtrlEffect_disabled (en.trans disable)] at run
    have same : (storeFields s .hqCq q 0 0 v).host.out = s.host.out := congrArg HostSt.out (onlyRegs_host frame)
    exact ⟨_, run, bne_eq_false_iff_eq.mpr (en.trans disable), holdoffEnded_none _ q, same⟩
  case quiet =>
    rw [exec_interruptHoldoff held]
    rcases quiet with rfl | silent
    · rfl
    · rw [cqNote_silent (s := holdoffEnded s q) silent, ite_self]
      rfl
  case sends =>
    subst keeps
    rw [exec_interruptHoldoff held, if_pos rfl]
    exact congrArg _ (cqNote_sends (s := holdoffEnded s q) enabled link (holdoffEnded_none s q))

end Sys2Proof.Proofs
end

section
/-! PROOFS. The statements of chapter 12, "Fabric ports and links": how a port trains, identifies itself, goes down and retrains. -/

namespace Sys2Proof.Proofs

open Sys2Proof Sys2Proof.Machine Sys2Proof.Safety Sys2Proof.Laws

/-! ### The end of a training (R263, R270, R277) -/

section Training

variable {s : State} {n : Nat}

/-- All four lanes have trained: credits as the registers set them, sequence numbers from 0, the failures forgotten, and IDENT. -/
def portTrained (s : State) (n : Nat) : State :=
  setLstate (wf (setPort s n { getPort s n with own := credRegs s n, txSeq := 0, rxSeq := 0 }) F.FAB_P_STATE_FAILS n 0) n 2

/-- One more training has failed, and the port is DOWN. -/
def trainingFailed (s : State) (n : Nat) : State :=
  wf (setLstate s n 0) F.FAB_P_STATE_FAILS n (rf s F.FAB_P_STATE_FAILS n + 1)

/-- A failed training is recorded in the ledger and in fault history, and fails the retest that waited for it. -/
def failureReported (s : State) (n : Nat) : State :=
  portRetests (fhReport (cableMissing (raise s E.FAB_LINK_DOWN (U.port n) 0 0) n) 4 n 0x22 true CperInfo.plain) n [0x20] false

/-- LSTATE and FAILS lie beside each other in FAB_P_STATE. -/
theorem fails_setLstate (s : State) (port : n < 24) (v : Nat) :
    rf (setLstate s n v) F.FAB_P_STATE_FAILS n = rf s F.FAB_P_STATE_FAILS n :=
  rf_setLstate s port v F.FAB_P_STATE_FAILS rfl (by decide) (by decide)

theorem fails_wf (s : State) (n v : Nat) (few : v < 4) : rf (wf s F.FAB_P_STATE_FAILS n v) F.FAB_P_STATE_FAILS n = v :=
  (rf_wf_same s _ n v (by decide) (by decide)).trans (Nat.mod_eq_of_lt few)

theorem lstate_wf_fails (s : State) (n v : Nat) : lstate (wf s F.FAB_P_STATE_FAILS n v) n = lstate s n :=
  rf_wf_disj s _ _ n n v rfl (by decide) (by decide) (by decide)

theorem lstate_portTrained (s : State) (port : n < 24) : lstate (portTrained s n) n = 2 := lstate_setLstate _ port 2 (by decide)

theorem fails_portTrained (s : State) (port : n < 24) : rf (portTrained s n) F.FAB_P_STATE_FAILS n = 0 :=
  (fails_setLstate _ port 2).trans (fails_wf _ n 0 (by decide))

theorem lstate_trainingFailed (s : State) (port : n < 24) : lstate (trainingFailed s n) n = 0 :=
  (lstate_wf_fails _ n _).trans (lstate_setLstate s port 0 (by decide))

theorem fails_trainingFailed (n : Nat) (few : rf s F.FAB_P_STATE_FAILS n < 3) :
    rf (trainingFailed s n) F.FAB_P_STATE_FAILS n = rf s F.FAB_P_STATE_FAILS n + 1 :=
  fails_wf _ n _ (by omega)

/-- A port that trains is enabled, has not given up, and is in DOWN or PHY_TRAIN. -/
theorem trains_iff : ¬ (1 < lstate s n ∨ 3 ≤ rf s F.FAB_P_STATE_FAILS n ∨ (!portEnabled s n) = true) ↔
    lstate s n ≤ 1 ∧ rf s F.FAB_P_STATE_FAILS n < 3 ∧ portEnabled s n = true := by
  simp

theorem exec_phyTrainEnd_good (up : hubUp s = true) (state : lstate s n ≤ 1) (few : rf s F.FAB_P_STATE_FAILS n < 3)
    (enabled : portEnabled s n = true) :
    exec (.phyTrainEnd n true) s = .next (portRetests (portTrained s n) n [0x20, 0x21, 0x22] true) := by
  show execPhyTrainEnd n true s = _
  rw [execPhyTrainEnd, if_neg (by simp [up]), if_neg (trains_iff.mpr ⟨state, few, enabled⟩), if_pos rfl]
  rfl

/-- The third failure in a row sets RETRAIN_GIVEUP, and fails the retests that only a link can pass. -/
theorem exec_phyTrainEnd_bad (up : hubUp s = true) (state : lstate s n ≤ 1) (few : rf s F.FAB_P_STATE_FAILS n < 3)
    (enabled : portEnabled s n = true) :
    let v := failureReported (trainingFailed s n) n
    exec (.phyTrainEnd n false) s = .next (if rf s F.FAB_P_STATE_FAILS n + 1 = 3 then
      portRetests (ev v F.FAB_P_EVENT_RETRAIN_GIVEUP n) n [0x21, 0x22] false else v) := by
  show execPhyTrainEnd n false s = _
  rw [execPhyTrainEnd, if_neg (by simp [up]), if_neg (trains_iff.mpr ⟨state, few, enabled⟩), if_neg Bool.false_ne_true, apply_ite Host.Outcome.next]
  rfl

end Training

/-! ### IDENT, the cabling check and a link that goes down (R270, R277, R278, R280) -/

section Ident

variable {s : State} {n : Nat}

theorem exec_identSend (sends : lstate s n = 2 ∨ lstate s n = 4) : exec (.identSend n) s = .next (sendIdent s n false) := if_pos sends

theorem getPort_sendIdent (s : State) (n : Nat) (recheck : Bool) :
    getPort (sendIdent s n recheck) n = { getPort s n with idents := (getPort s n).idents ++ [identOf s n recheck] } :=
  getPort_setPort_same s n _

theorem exec_identTimeout (ident : lstate s n = 2) (settled : (getPort s n).waiting = false) :
    exec (.identTimeout n) s = .next (cableMissing (setLstate s n 0) n) :=
  if_pos ⟨ident, Bool.eq_false_iff.mp settled⟩

theorem exec_recheckTimeout (waiting : (getPort s n).waiting = true) : exec (.recheckTimeout n) s = .next (cableResult s n 3) :=
  if_pos waiting

theorem exec_fabLinkDown (link : linked s n = true) : exec (.fabLinkDown n) s = .next (portDown s n true (retrainState s n)) :=
  if_pos link

end Ident

/-! ### The commands of FAB_P_CMD (R270, R284): pulses that store nothing -/

section PortCommands

variable {s : State} {req : Requester} {n : Nat}

theorem fabCmd_pulse : pulseOnly .fabP 4 (~~~ 0) = true := by decide +kernel

theorem exec_fabRetrain (landing : lands s req .fabP 0 4 1 [n]) : exec (.fabRetrain req) s = .next (fabRetrainEffect n s) := by
  show regCmd s req .fabP 0 4 1 (fun n _ s => fabCmdEffect n 1 s) = _
  rw [regCmd_lands landing, List.foldl_cons, List.foldl_nil, pulse_any fabCmd_pulse rfl, fabCmd_retrain]

theorem fabRetrainEffect_idle (idle : lstate s n = 5 ∨ lstate s n = 6) : fabRetrainEffect n s = s := if_pos idle

/-- PHY_TRAIN, with neither failures nor RETRAIN_GIVEUP to remember. -/
def trainsAnew (s : State) (n : Nat) : State :=
  setLstate (wf (wf s F.FAB_P_STATE_FAILS n 0) F.FAB_P_EVENT_RETRAIN_GIVEUP n 0) n 1

/-- A port in DOWN or PHY_TRAIN has no link to take down first. -/
theorem fabRetrainEffect_unlinked (state : lstate s n ≤ 1) : fabRetrainEffect n s = trainsAnew s n := by
  have unlinked : ¬ linked s n = true := by
    simp only [linked, Bool.and_eq_true, decide_eq_true_eq]
    omega
  rw [fabRetrainEffect, if_neg (by omega), if_neg unlinked, trainsAnew]

theorem lstate_trainsAnew (s : State) (port : n < 24) : lstate (trainsAnew s n) n = 1 := lstate_setLstate _ port 1 (by decide)

theorem fails_trainsAnew (s : State) (port : n < 24) : rf (trainsAnew s n) F.FAB_P_STATE_FAILS n = 0 := by
  have register : F.FAB_P_STATE_FAILS.key n ≠ F.FAB_P_EVENT_RETRAIN_GIVEUP.key n := regKey_off_ne .fabP n (by decide)
  rw [trainsAnew, fails_setLstate _ port, rf_wf_ne _ _ _ n n 0 register, fails_wf s n 0 (by decide)]

theorem onlyRegs_trainsAnew (s : State) (n : Nat) :
    onlyRegs [F.FAB_P_STATE_LSTATE.key n, F.FAB_P_EVENT_RETRAIN_GIVEUP.key n, F.FAB_STATUS_UP.key 0] s (trainsAnew s n) := by
  have fails := onlyRegs_wf s (f := F.FAB_P_STATE_FAILS) (i := n) 0 (List.mem_singleton.mpr rfl)
  have giveUp := onlyRegs_wf (wf s F.FAB_P_STATE_FAILS n 0) (f := F.FAB_P_EVENT_RETRAIN_GIVEUP) (i := n) 0 (List.mem_singleton.mpr rfl)
  refine onlyRegs_trans (onlyRegs_trans (onlyRegs_mono fails ?_) (onlyRegs_mono giveUp ?_)) (onlyRegs_mono (setLstate_rel _ n 1) ?_)
  · exact List.forall_mem_singleton.mpr (List.mem_cons_self ..)
  · exact List.forall_mem_singleton.mpr (by simp)
  · simp

/-- The 64-bit counters of a port, by their halves (R284). -/
def portCounts : List Fld :=
  [F.FAB_P_TX_FLITS_LO_COUNT, F.FAB_P_TX_FLITS_HI_COUNT, F.FAB_P_RX_FLITS_LO_COUNT, F.FAB_P_RX_FLITS_HI_COUNT,
    F.FAB_P_FEC_CORR_LO_COUNT, F.FAB_P_FEC_CORR_HI_COUNT, F.FAB_P_BLOCK_ERR_LO_COUNT, F.FAB_P_BLOCK_ERR_HI_COUNT,
    F.FAB_P_REPLAYS_LO_COUNT, F.FAB_P_REPLAYS_HI_COUNT]

theorem portCounts_whole : ∀ f ∈ portCounts, f.blk = .fabP ∧ f.hi = 31 ∧ f.lo = 0 := by decide

/-- Zero put into a field that fills its register is the word zero. -/
theorem wput_whole_zero (w : Word) : wput 31 0 0 w = 0 := by
  have high : w.toNat >>> 32 = 0 := by
    rw [Nat.shiftRight_eq_div_pow]
    exact Nat.div_eq_of_lt w.isLt
  simp [wput, putBits, high, Nat.mod_one]

theorem wf_whole_zero {f : Fld} {b : Blk} (whole : f.blk = b ∧ f.hi = 31 ∧ f.lo = 0) (s : State) (i : Nat) :
    wf s f i 0 = regPut s (regKey b i f.off) 0 := by
  obtain ⟨page, hi, lo⟩ := whole
  rw [wf, hi, lo, wput_whole_zero, Fld.key, page]

/-- Fields that fill their registers are zeroed as registers. -/
theorem foldl_wf_zero {b : Blk} {l : List Fld} (whole : ∀ f ∈ l, f.blk = b ∧ f.hi = 31 ∧ f.lo = 0) (s : State) (i : Nat) :
    l.foldl (fun s f => wf s f i 0) s = zeroRegs s b i (l.map Fld.off) := by
  induction l generalizing s with
  | nil => rfl
  | cons f l ih =>
    obtain ⟨first, rest⟩ := List.forall_mem_cons.mp whole
    rw [List.foldl_cons, wf_whole_zero first, ih rest]
    rfl

/-- Of the pulses of FAB_P_CMD, the word 2 sets CNT_CLR alone. -/
theorem fabCmdEffect_cntClr (n : Nat) (s : State) : fabCmdEffect n 2 s = zeroRegs s .fabP n (portCounts.map Fld.off) := by
  obtain ⟨notRetrain, clear⟩ : wbits 0 0 (2 : Word) ≠ 1 ∧ wbits 1 1 (2 : Word) = 1 := by decide
  rw [fabCmdEffect, if_neg notRetrain, if_pos clear, ← foldl_wf_zero portCounts_whole]
  rfl

theorem exec_fabCntClr (req : Requester) (s : State) :
    exec (.fabCntClr req) s = regCmd s req .fabP 0 4 2 fun n _ u => fabCmdEffect n 2 u := rfl

theorem fabCntClr_zeroes (landing : lands s req .fabP 0 4 2 [n]) :
    ∃ t, exec (.fabCntClr req) s = .next t ∧ (∀ f ∈ portCounts, rf t f n = 0) ∧ onlyRegs (portCounts.map fun f => f.key n) s t := by
  obtain ⟨t, run, zero, frame⟩ := clearCmd_zeroes (eff := fun n _ s => fabCmdEffect n 2 s) landing (exec_fabCntClr req s) fabCmd_pulse rfl
    fun _ u => fabCmdEffect_cntClr n u
  refine ⟨t, run, fun f listed => ?_, frame⟩
  have word : regLive t (f.key n) = 0 := by
    rw [Fld.key, (portCounts_whole f listed).1]
    exact zero _ (List.mem_map_of_mem listed)
  simp [rf, word, wbits, bits]

end PortCommands

/-- Settles O45: each event of a port takes its own branch, and the two commands of FAB_P_CMD are pulses that leave the effect alone. -/
theorem linksTrain : Obligations.LinksTrain := by
  unfold Obligations.LinksTrain
  refine ⟨fun n s up port state few enabled => ⟨?trained, ?failed⟩, fun n s sends => ⟨_, exec_identSend sends, getPort_sendIdent s n false, rfl⟩,
    fun n s => exec_identTimeout, fun n s => exec_recheckTimeout, fun n s => exec_fabLinkDown,
    fun req n s landing => ⟨fun idle => ?idle, fun state port => ?retrain⟩, fun req n s => fabCntClr_zeroes⟩
  case trained => exact ⟨lstate_portTrained s port, fails_portTrained s port, exec_phyTrainEnd_good up state few enabled⟩
  case failed => exact ⟨lstate_trainingFailed s port, fails_trainingFailed n few, exec_phyTrainEnd_bad up state few enabled⟩
  case idle => rw [exec_fabRetrain landing, fabRetrainEffect_idle idle]
  case retrain =>
    rw [exec_fabRetrain landing, fabRetrainEffect_unlinked state]
    exact ⟨_, rfl, lstate_trainsAnew s port, fails_trainsAnew s port, onlyRegs_trainsAnew s n⟩

end Sys2Proof.Proofs
end

section
/-! PROOFS. What every step keeps: the queue of waiting commands, and the fuses and counters of the security island that only rise. -/

namespace Sys2Proof.Proofs

open Sys2Proof Sys2Proof.Machine Sys2Proof.Safety Sys2Proof.Laws

variable {c : Instr} {g : List Byte} {s t : State}

/-! ### The queue -/

/-- Settles O6: at reset the counter stands at 0. -/
theorem grantCounterAtReset : Obligations.GrantCounterAtReset := by
  unfold Obligations.GrantCounterAtReset
  exact Nat.zero_le _

theorem step_cons {rest : List Instr} (queue : s.pending = c :: rest) : step s = exec c (s.withPending rest) := by
  rw [step, queue]

theorem step_nil (queue : s.pending = []) : step s = .next s := by
  rw [step, queue]

/-- Settles O1, by the step's equation on a queue that holds a command. -/
theorem frontCommandRuns : Obligations.FrontCommandRuns := by
  unfold Obligations.FrontCommandRuns
  exact fun _ _ _ => step_cons

/-- Settles O2, by the step's equation on an empty queue. -/
theorem emptyQueueIdles : Obligations.EmptyQueueIdles := by
  unfold Obligations.EmptyQueueIdles
  exact fun _ => step_nil

/-! ### Commands other than a grant reach neither the queue nor the counters that only rise -/

theorem exec_keeps (other : ∀ g, c ≠ .grant g) (run : exec c s = .next t) : Keep t s := by
  cases c with
  | regWrite req off size value => exact keep_execRegWrite req off size value s t run
  | readLo req off => exact keep_execReadLo req off s t run
  | writeLo req off value => exact keep_execWriteLo req off value s t run
  | writeHi req off value => exact keep_execWriteHi req off value s t run
  | setAliasWrite req off value => exact keep_execSetAliasWrite req off value s t run
  | clearAliasWrite req off value => exact keep_execClearAliasWrite req off value s t run
  | toggleAliasWrite req off value => exact keep_execToggleAliasWrite req off value s t run
  | ugrpWrite req off value => exact keep_execUgrpWrite req off value s t run
  | hubUpdStrobe req value => exact keep_execHubUpdStrobe req value s t run
  | updateTransfer => exact keep_execUpdateTransfer s t run
  | hubUpdDiscard req value => exact keep_execHubUpdDiscard req value s t run
  | seqWriteBack req off value => exact keep_execSeqWriteBack req off value s t run
  | tmrScrub => exact keep_execTmrScrub s t run
  | waybillRegenerate => exact keep_execWaybillRegenerate s t run
  | meshFlitReceive bridge crcOk => exact keep_execMeshFlitReceive bridge crcOk s t run
  | wload core queue => exact keep_execWload core queue s t run
  | stream core queue => exact keep_execStream core queue s t run
  | longFreeze core cycles => exact keep_execLongFreeze core cycles s t run
  | mxBrambleInjArm req core value => exact keep_execMxBrambleInjArm req core value s t run
  | mxCntClr req core => exact keep_execMxCntClr req core s t run
  | qntCntClr req core => exact keep_execQntCntClr req core s t run
  | vchain core queue => exact keep_execVchain core queue s t run
  | optim core queue => exact keep_execOptim core queue s t run
  | vxBrambleInjArm req core value => exact keep_execVxBrambleInjArm req core value s t run
  | vxCntClr req core => exact keep_execVxCntClr req core s t run
  | sliceAccess r => exact keep_execSliceAccess r s t run
  | lineFill partition wire => exact keep_execLineFill partition wire s t run
  | patrolScrub partition sectors => exact keep_execPatrolScrub partition sectors s t run
  | pinChangeComplete partition => exact keep_execPinChangeComplete partition s t run
  | flush req partition => exact keep_execFlush req partition s t run
  | invalidate req partition => exact keep_execInvalidate req partition s t run
  | keepRelease req partition => exact keep_execKeepRelease req partition s t run
  | scCntClr req partition => exact keep_execScCntClr req partition s t run
  | sliceAtomic r => exact keep_execSliceAtomic r s t run
  | scaleStage core addr amax under => exact keep_execScaleStage core addr amax under s t run
  | sliceScaleRoll src addr step => exact keep_execSliceScaleRoll src addr step s t run
  | sliceArm src addr => exact keep_execSliceArm src addr s t run
  | sliceContrib src addr srcIdx line data => exact keep_execSliceContrib src addr srcIdx line data s t run
  | reductionDone addr => exact keep_execReductionDone addr s t run
  | retireLane req partition value => exact keep_execRetireLane req partition value s t run
  | reqOut req partition value => exact keep_execReqOut req partition value s t run
  | memChClr req partition => exact keep_execMemChClr req partition s t run
  | memCntClr req partition => exact keep_execMemCntClr req partition s t run
  | nop core queue => exact keep_execNop core queue s t run
  | flagDecl core queue => exact keep_execFlagDecl core queue s t run
  | counterSet core queue => exact keep_execCounterSet core queue s t run
  | loopBegin core queue => exact keep_execLoopBegin core queue s t run
  | loopEnd core queue => exact keep_execLoopEnd core queue s t run
  | branch core queue => exact keep_execBranch core queue s t run
  | segment core queue => exact keep_execSegment core queue s t run
  | copy core queue => exact keep_execCopy core queue s t run
  | atomic core queue => exact keep_execAtomic core queue s t run
  | lineOp core queue => exact keep_execLineOp core queue s t run
  | redArm core queue => exact keep_execRedArm core queue s t run
  | redContrib core queue => exact keep_execRedContrib core queue s t run
  | scaleRoll core queue => exact keep_execScaleRoll core queue s t run
  | put core queue => exact keep_execPut core queue s t run
  | rcontrib core queue => exact keep_execRcontrib core queue s t run
  | notify core queue => exact keep_execNotify core queue s t run
  | descriptorComplete core queue => exact keep_execDescriptorComplete core queue s t run
  | signalArrive => exact keep_execSignalArrive s t run
  | deferredPromotion core queue => exact keep_execDeferredPromotion core queue s t run
  | branchSelect core queue => exact keep_execBranchSelect core queue s t run
  | qbrselWrite req core queue value => exact keep_execQbrselWrite req core queue value s t run
  | queueDiscard req core queue => exact keep_execQueueDiscard req core queue s t run
  | queueResume req core queue => exact keep_execQueueResume req core queue s t run
  | loopCountWrite req core reg value => exact keep_execLoopCountWrite req core reg value s t run
  | deadlock core => exact keep_execDeadlock core s t run
  | hostLinkDown => exact keep_execHostLinkDown s t run
  | hqLinkRetrain req => exact keep_execHqLinkRetrain req s t run
  | dmemRd tag addr units => exact keep_execDmemRd tag addr units s t run
  | dmemWr addr data => exact keep_execDmemWr addr data s t run
  | hostPacketReserved ptype tag nonPosted => exact keep_execHostPacketReserved ptype tag nonPosted s t run
  | hmemRdCompletion tag status data => exact keep_execHmemRdCompletion tag status data s t run
  | hmemRdTimeout tag => exact keep_execHmemRdTimeout tag s t run
  | hqWake req value => exact keep_execHqWake req value s t run
  | ringPoll ring => exact keep_execRingPoll ring s t run
  | ringFetch ring => exact keep_execRingFetch ring s t run
  | ringRun req value => exact keep_execRingRun req value s t run
  | ringPause req value => exact keep_execRingPause req value s t run
  | hqRingCidxWrite req value => exact keep_execHqRingCidxWrite req value s t run
  | hqCqHeadWrite req value => exact keep_execHqCqHeadWrite req value s t run
  | cqEnable req value => exact keep_execCqEnable req value s t run
  | interruptHoldoff cq => exact keep_execInterruptHoldoff cq s t run
  | phyTrainEnd port ok => exact keep_execPhyTrainEnd port ok s t run
  | identSend port => exact keep_execIdentSend port s t run
  | identTimeout port => exact keep_execIdentTimeout port s t run
  | identReceive port ident => exact keep_execIdentReceive port ident s t run
  | recheckTimeout port => exact keep_execRecheckTimeout port s t run
  | linkBlockReceive port fecOk corrected block => exact keep_execLinkBlockReceive port fecOk corrected block s t run
  | replayTimeout port => exact keep_execReplayTimeout port s t run
  | fabLinkDown port => exact keep_execFabLinkDown port s t run
  | fabRetrain req => exact keep_execFabRetrain req s t run
  | fabCntClr req => exact keep_execFabCntClr req s t run
  | packetRoute input => exact keep_execPacketRoute input s t run
  | ackReceive p => exact keep_execAckReceive p s t run
  | routePlan plan => exact keep_execRoutePlan plan s t run
  | jobStart req => exact keep_execJobStart req s t run
  | jobEnd req => exact keep_execJobEnd req s t run
  | interlude req on => exact keep_execInterlude req on s t run
  | stepOpen req => exact keep_execStepOpen req s t run
  | pannierCopyDone => exact keep_execPannierCopyDone s t run
  | close req => exact keep_execClose req s t run
  | replay req => exact keep_execReplay req s t run
  | resolveCommit req => exact keep_execResolveCommit req s t run
  | resolveFail req => exact keep_execResolveFail req s t run
  | digCompare req => exact keep_execDigCompare req s t run
  | voteLine level line => exact keep_execVoteLine level line s t run
  | voteResult line => exact keep_execVoteResult line s t run
  | voteTimeout => exact keep_execVoteTimeout s t run
  | digDone => exact keep_execDigDone s t run
  | fence req partition => exact keep_execFence req partition s t run
  | remount req partition => exact keep_execRemount req partition s t run
  | save req => exact keep_execSave req s t run
  | restore req => exact keep_execRestore req s t run
  | adopt req => exact keep_execAdopt req s t run
  | query req => exact keep_execQuery req s t run
  | ckpExport req => exact keep_execCkpExport req s t run
  | ckpImport req => exact keep_execCkpImport req s t run
  | importCommit req => exact keep_execImportCommit req s t run
  | format req => exact keep_execFormat req s t run
  | ckpAbort req => exact keep_execCkpAbort req s t run
  | moduleReset req => exact keep_execModuleReset req s t run
  | captureEnd => exact keep_execCaptureEnd s t run
  | nvmeCompletion id status data => exact keep_execNvmeCompletion id status data s t run
  | nvmeTimeout id => exact keep_execNvmeTimeout id s t run
  | stagingLinkDown => exact keep_execStagingLinkDown s t run
  | stagingInbound write addr len data => exact keep_execStagingInbound write addr len data s t run
  | autoSaveStart => exact keep_execAutoSaveStart s t run
  | hang kind index => exact keep_execHang kind index s t run
  | partitionReset req value m => exact keep_execPartitionReset req value m s t run
  | eventAgeOut kind index sig => exact keep_execEventAgeOut kind index sig s t run
  | exportAck req => exact keep_execExportAck req s t run
  | clearVerdict req => exact keep_execClearVerdict req s t run
  | apply req => exact keep_execApply req s t run
  | retest req => exact keep_execRetest req s t run
  | cperSend => exact keep_execCperSend s t run
  | fhDigestRecompute => exact keep_execFhDigestRecompute s t run
  | operatingSecond => exact keep_execOperatingSecond s t run
  | istWindowOpen core => exact keep_execIstWindowOpen core s t run
  | istPreempt core delay => exact keep_execIstPreempt core delay s t run
  | istPatternDone core pattern cycles expected got => exact keep_execIstPatternDone core pattern cycles expected got s t run
  | sweep req => exact keep_execSweep req s t run
  | abortSweep req => exact keep_execAbortSweep req s t run
  | sweepDone => exact keep_execSweepDone s t run
  | testPackage pkg => exact keep_execTestPackage pkg s t run
  | ledgerTick => exact keep_execLedgerTick s t run
  | timeExchange => exact keep_execTimeExchange s t run
  | timeRequest p => exact keep_execTimeRequest p s t run
  | timeResponse p => exact keep_execTimeResponse p s t run
  | noResp => exact keep_execNoResp s t run
  | timeSet req value => exact keep_execTimeSet req value s t run
  | snapArm req => exact keep_execSnapArm req s t run
  | snapshotTaken => exact keep_execSnapshotTaken s t run
  | snapBcastReceive p => exact keep_execSnapBcastReceive p s t run
  | ledgerAck req => exact keep_execLedgerAck req s t run
  | rootUnlock refStopped => exact keep_execRootUnlock refStopped s t run
  | rootLock ms => exact keep_execRootLock ms s t run
  | powerSum watts => exact keep_execPowerSum watts s t run
  | pwrAlert asserted => exact keep_execPwrAlert asserted s t run
  | thermalThrottle compute stack hub host => exact keep_execThermalThrottle compute stack hub host s t run
  | thermtrip compute stack hub host => exact keep_execThermtrip compute stack hub host s t run
  | coldPowerOn => exact keep_execColdPowerOn s t run
  | resetNAssert ms => exact keep_execResetNAssert ms s t run
  | packageReset req value ms => exact keep_execPackageReset req value ms s t run
  | hubReset req value ms => exact keep_execHubReset req value ms s t run
  | railFail => exact keep_execRailFail s t run
  | avsAckTimeout regulator => exact keep_execAvsAckTimeout regulator s t run
  | vmiLoss => exact keep_execVmiLoss s t run
  | p1Enter partition => exact keep_execP1Enter partition s t run
  | p1Exit partition => exact keep_execP1Exit partition s t run
  | p2Enter req value kept => exact keep_execP2Enter req value kept s t run
  | p2Exit req value m => exact keep_execP2Exit req value m s t run
  | p3Enter req => exact keep_execP3Enter req s t run
  | p3Wake => exact keep_execP3Wake s t run
  | i3cWake => exact keep_execI3cWake s t run
  | settingsStore req => exact keep_execSettingsStore req s t run
  | settingsRead req => exact keep_execSettingsRead req s t run
  | settingsErase req => exact keep_execSettingsErase req s t run
  | settingsDone => exact keep_execSettingsDone s t run
  | routingRecordStore => exact keep_execRoutingRecordStore s t run
  | imageLoad image => exact keep_execImageLoad image s t run
  | operatorKeyEnvelope envelope => exact keep_execOperatorKeyEnvelope envelope s t run
  | grant g => exact absurd rfl (other g)
  | grantExpiry => exact keep_execGrantExpiry s t run
  | attestRequest nonce => exact keep_execAttestRequest nonce s t run
  | secAttestGo req => exact keep_execSecAttestGo req s t run
  | attestDone => exact keep_execAttestDone s t run
  | regRead req off size => exact keep_execRegRead req off size s t run
  | ucieTrainEnd modules32 modules16 => exact keep_execUcieTrainEnd modules32 modules16 s t run
  | stagingLinkTrainEnd facts => exact keep_execStagingLinkTrainEnd facts s t run
  | pgMainAssert ms => exact keep_execPgMainAssert ms s t run
  | resetNRelease => exact keep_execResetNRelease s t run
  | i3cDynamicAddress addr => exact keep_execI3cDynamicAddress addr s t run
  -- SEAL is left, whose name is a keyword and cannot stand here.
  | _ req => exact keep_execSeal req s t run

/-! ### Grants (R444, R447): they leave the queue, and move the counters upwards only -/

theorem rises_refl (a : Floors) : rises a a := ⟨Nat.le_refl _, Nat.le_refl _, fun _ set => set, Nat.le_refl _⟩

/-- A fuse that is blown stays blown when others are blown beside it. -/
theorem bit_or_left {n a : Nat} (b : Nat) (set : bit n a = true) : bit n (a ||| b) = true := by
  rw [bit_eq] at set ⊢
  rw [Nat.testBit_or, set, Bool.true_or]

theorem commitSvn_rises (s : State) : rises s.sec.floors (commitSvn s).sec.floors ∧
    (commitSvn s).sec.floors.authCtr = s.sec.floors.authCtr :=
  ⟨⟨Nat.le_max_left _ _, Nat.le_max_left _ _, fun _ set => bit_or_left _ (bit_or_left _ set), Nat.le_refl _⟩, rfl⟩

/-- The counter has advanced by one, and nothing else has changed. -/
def grantCounted (s : State) : State :=
  { s with sec := { s.sec with floors := { s.sec.floors with authCtr := s.sec.floors.authCtr + 1 } } }

/-- What an accepted grant does besides counting: it installs a key, commits the SVN fuses, or is held. -/
theorem grantTake_cases (g : List Byte) (s : State) :
    (∃ slot key, grantTake s g = keyInstall (grantCounted s) slot key) ∨ grantTake s g = commitSvn (grantCounted s) ∨
      ∃ held, grantTake s g = { grantCounted s with sec := { (grantCounted s).sec with grant := held } } := by
  unfold grantTake
  dsimp only
  split
  · exact .inl ⟨_, _, rfl⟩
  · exact .inr (.inl rfl)
  · exact .inr (.inr ⟨_, rfl⟩)

theorem grantTake_pending (g : List Byte) (s : State) : (grantTake s g).pending = s.pending := by
  rcases grantTake_cases g s with ⟨slot, key, taken⟩ | taken | ⟨held, taken⟩ <;> rw [taken] <;> rfl

theorem grantTake_counters (g : List Byte) (s : State) : rises s.sec.floors (grantTake s g).sec.floors ∧
    (grantTake s g).sec.floors.authCtr = s.sec.floors.authCtr + 1 := by
  have counted : rises s.sec.floors (grantCounted s).sec.floors :=
    ⟨Nat.le_refl _, Nat.le_refl _, fun _ set => set, Nat.le_succ _⟩
  rcases grantTake_cases g s with ⟨slot, key, taken⟩ | taken | ⟨held, taken⟩ <;> rw [taken]
  · exact ⟨counted, rfl⟩
  · obtain ⟨⟨hub, core, revoked, -⟩, counter⟩ := commitSvn_rises (grantCounted s)
    exact ⟨⟨hub, core, revoked, counter ▸ Nat.le_succ _⟩, counter⟩
  · exact ⟨counted, rfl⟩

/-- A grant is accepted only while the counter can still count it (reason 7 of R452). -/
theorem authCtr_ne_max (accepted : grantReason s g = 0) : s.sec.floors.authCtr ≠ 0xFFFFFFFF := by
  intro full
  unfold grantReason at accepted
  split at accepted
  · cases accepted
  · split at accepted <;> cases accepted

/-- What a grant can do: nothing to the queue and to what only rises, or it is taken. -/
theorem exec_grant_cases (run : exec (.grant g) s = .next t) : Keep t s ∨ (grantReason s g = 0 ∧ t = grantTake s g) := by
  replace run : execGrant g s = .next t := run
  unfold execGrant at run
  dsimp only at run
  split at run
  · cases run
    exact .inl ⟨rfl, rfl⟩
  · split at run <;> cases run
    · exact .inl (by simp [secEvent])
    · exact .inr ⟨Classical.not_not.mp ‹_›, rfl⟩

/-- What any command can do: it is a grant that is taken, or it leaves the queue and what only rises alone. -/
theorem exec_cases (run : exec c s = .next t) : Keep t s ∨ ∃ g, grantReason s g = 0 ∧ t = grantTake s g := by
  by_cases grants : ∃ g, c = .grant g
  · obtain ⟨g, rfl⟩ := grants
    exact (exec_grant_cases run).imp_right fun taken => ⟨g, taken⟩
  · exact .inl (exec_keeps (fun g same => grants ⟨g, same⟩) run)

/-- Settles O3: a grant that is taken leaves the queue as well. -/
theorem commandsKeepQueue : Obligations.CommandsKeepQueue := by
  unfold Obligations.CommandsKeepQueue
  intro c s t run
  rcases exec_cases run with ⟨-, queue⟩ | ⟨g, -, rfl⟩
  · exact queue
  · exact grantTake_pending g s

/-- What any step can do to what only rises: nothing, or a grant that is accepted advances it. -/
theorem step_floors (run : step s = .next t) : t.sec.floors = s.sec.floors ∨
    ∃ (g : List Byte) (u : State), u.sec = s.sec ∧ grantReason u g = 0 ∧ t = grantTake u g := by
  cases queue : s.pending with
  | nil =>
    rw [step_nil queue] at run
    cases run
    exact .inl rfl
  | cons c rest =>
    rw [step_cons queue] at run
    exact (exec_cases run).imp (fun kept => kept.1) fun ⟨g, accepted, taken⟩ => ⟨g, s.withPending rest, rfl, accepted, taken⟩

/-- Settles O4: only an accepted grant moves these counters, and it moves them upwards. -/
theorem fusesStayBlown : Obligations.FusesStayBlown := by
  unfold Obligations.FusesStayBlown
  intro s t run
  rcases step_floors run with same | ⟨g, u, sec, -, rfl⟩
  · exact same ▸ rises_refl _
  · exact sec ▸ (grantTake_counters g u).1

/-- Settles O5: a grant that would wrap the counter is refused. -/
theorem grantCounterNeverWraps : Obligations.GrantCounterNeverWraps := by
  unfold Obligations.GrantCounterNeverWraps
  intro s t within run
  rcases step_floors run with same | ⟨g, u, sec, accepted, rfl⟩
  · exact same ▸ within
  · have room := authCtr_ne_max accepted
    rw [← sec] at within
    rw [(grantTake_counters g u).2]
    omega

end Sys2Proof.Proofs
end

section
/-! PROOFS. The statements of chapter 14, "Training and the mapping": jobs and interludes. -/

namespace Sys2Proof.Proofs

open Sys2Proof Sys2Proof.Machine Sys2Proof.Safety Sys2Proof.Laws

/-! ### What a write and a field update leave of steps, cores and partitions -/

section Frames

variable {ks : List Nat} {s t : State}

theorem storeFields_keeps (s : State) (b : Blk) (j o view : Nat) (v : Word) :
    (storeFields s b j o view v).sr = s.sr ∧ memoryKept s (storeFields s b j o view v) := by
  obtain ⟨_, _, _, _, stored⟩ := storeFields_rest s b j o view v
  rw [stored]
  exact ⟨rfl, rfl, fun _ => rfl⟩

theorem memoryKept_onlyRegs (frame : onlyRegs ks s t) : memoryKept s t :=
  ⟨onlyRegs_parts frame, fun g => congrArg CoreSt.store (getCore_with (onlyRegs_cores frame) g)⟩

/-- A write of one field changes its register alone. -/
theorem onlyRegs_field (s : State) (f : Fld) (i v : Nat) : onlyRegs [f.key i] s (wf s f i v) :=
  onlyRegs_wf s v (List.mem_singleton.mpr rfl)

/-- An event changes its register and the tick's note of it alone. -/
theorem onlyEvents_field (s : State) (f : Fld) (i : Nat) : onlyEvents [f.key i] s (ev s f i) :=
  onlyEvents_ev s (List.mem_singleton.mpr rfl)

/-- A field reads the same where its register does. -/
theorem rf_same {f : Fld} {i : Nat} (same : regLive t (f.key i) = regLive s (f.key i)) : rf t f i = rf s f i := by
  rw [rf, rf, same]

end Frames

/-! ### START and END (R304, R324) -/

section Jobs

variable {s : State} {req : Requester}

/-- Of HUB_JOB_CTRL the set view stores INTERLUDE alone: START and END are pulses. -/
theorem jobPulse_regLive (s : State) {v : Word} (pulse : v &&& 4 = 0) (k : Nat) :
    regLive (storeFields s .hub 0 0x40 1 v) k = regLive s k :=
  storeFields_setNone job_table v (by rw [frozen_job]; exact pulse) k

/-- A write through another view that reaches one page. -/
theorem aliasWrite_lands {b : Blk} {i o j view : Nat} (landing : landsSet s req b i o [j]) (aliased : view ≠ 0) (v : Word)
    (eff : Nat → Word → State → State) :
    regWriteTo s req b i o view v eff = .next (eff j (regLive s (regKey b j o)) (storeFields s b j o view v)) :=
  regWriteTo_alias landing aliased v eff

theorem exec_jobStart (landing : landsSet s req .hub 0 0x40 [0]) :
    exec (.jobStart req) s = .next (jobStart (storeFields s .hub 0 0x40 1 1)) :=
  (aliasWrite_lands landing Nat.one_ne_zero 1 fun _ _ s => jobCtrlEffect 1 none s).trans (congrArg _ (jobCtrl_start _))

theorem exec_jobEnd (landing : landsSet s req .hub 0 0x40 [0]) :
    exec (.jobEnd req) s = .next (jobEnd (storeFields s .hub 0 0x40 1 2)) :=
  (aliasWrite_lands landing Nat.one_ne_zero 2 fun _ _ s => jobCtrlEffect 2 none s).trans (congrArg _ (jobCtrl_end _))

/-- Where HUB_MAP_ADDR points. -/
def mapAddr (s : State) : Nat := rf2 s F.HUB_MAP_ADDR_LO_ADDR F.HUB_MAP_ADDR_HI_ADDR 0

/-- The address is the one that the registers held before a write that changed none. -/
theorem mapAddr_same {t : State} (same : ∀ k, regLive t k = regLive s k) : mapAddr t = mapAddr s := by
  simp only [mapAddr, rf2, rf, same]

theorem jobStart_refused (bad : jobActive s = true ∨ mapAddr s % 64 ≠ 0) : jobStart s = ev s F.HUB_JOB_EVENT_MAP_REFUSED 0 :=
  if_pos (bad.imp_right .inl)

theorem jobStart_reads (idle : jobActive s = false) (aligned : mapAddr s % 64 = 0) (inside : inMemory s (mapAddr s) 256 = true) :
    jobStart s = jobTake (hubRead s (mapAddr s) 256) := by
  refine if_neg ?_
  rintro (active | odd | outside)
  · simp [idle] at active
  · exact odd aligned
  · exact absurd inside (by simpa [mapAddr] using outside)

theorem jobTake_bad {r : State × List Byte} (bad : mappingOk r.1 r.2 = false) : jobTake r = ev r.1 F.HUB_JOB_EVENT_MAP_REFUSED 0 :=
  if_neg (by simp [bad])

/-- The steps of a job that begins with a mapping. -/
def mappingTaken (s : State) (m : List Byte) : State :=
  { s with sr := { s.sr with mapping := m, opened := false, lastClosed := none } }

theorem jobTake_good {r : State × List Byte} (good : mappingOk r.1 r.2 = true) :
    jobTake r = wf (mappingTaken r.1 r.2) F.HUB_JOB_STATUS_ACTIVE 0 1 :=
  if_pos good

theorem jobActive_wf (s : State) (v : Nat) : jobActive (wf s F.HUB_JOB_STATUS_ACTIVE 0 v) = (v % 2 != 0) :=
  congrArg (· != 0) (rf_wf_same s F.HUB_JOB_STATUS_ACTIVE 0 v (by decide) (by decide))

theorem jobTaken_facts (s : State) (m : List Byte) : let t := wf (mappingTaken s m) F.HUB_JOB_STATUS_ACTIVE 0 1
    jobActive t = true ∧ t.sr.mapping = m ∧ t.sr.opened = false ∧ t.sr.lastClosed = none ∧ memoryKept s t ∧
      onlyRegs [F.HUB_JOB_STATUS_ACTIVE.key 0] { s with sr := t.sr } t := by
  intro t
  have frame : onlyRegs [F.HUB_JOB_STATUS_ACTIVE.key 0] (mappingTaken s m) t := onlyRegs_field _ _ 0 1
  have steps : t.sr = (mappingTaken s m).sr := onlyRegs_sr frame
  rw [steps]
  exact ⟨jobActive_wf _ 1, rfl, rfl, rfl, (memoryKept_onlyRegs frame :), frame⟩

end Jobs

/-! ### INTERLUDE (R322, R323) -/

section Interludes

variable {s : State} {req : Requester}

theorem exec_interlude_on (landing : landsSet s req .hub 0 0x40 [0]) :
    exec (.interlude req true) s = .next (interludeWrite (storeFields s .hub 0 0x40 1 4) true) :=
  (aliasWrite_lands landing (view := 1) (by decide) 4 fun _ _ s => jobCtrlEffect 0 (some true) s).trans (congrArg _ (jobCtrl_inter true _))

theorem exec_interlude_off (landing : landsSet s req .hub 0 0x40 [0]) :
    exec (.interlude req false) s = .next (interludeWrite (storeFields s .hub 0 0x40 2 4) false) :=
  (aliasWrite_lands landing (view := 2) (by decide) 4 fun _ _ s => jobCtrlEffect 0 (some false) s).trans (congrArg _ (jobCtrl_inter false _))

/-- The write stores INTERLUDE alone, and leaves EVAL_MODE and the other registers. -/
theorem interludeStored (s : State) : let u := storeFields s .hub 0 0x40 1 4
    rf u F.HUB_JOB_CTRL_EVAL_MODE 0 = rf s F.HUB_JOB_CTRL_EVAL_MODE 0 ∧ ∀ k, k ≠ regKey .hub 0 0x40 → regLive u k = regLive s k := by
  obtain ⟨others, word⟩ := storeFields_word (s := s) (j := 0) job_table 1 4
  refine ⟨?_, others⟩
  show wbits 5 4 (regLive (storeFields s .hub 0 0x40 1 4) (regKey .hub 0 0x40)) = wbits 5 4 (regLive s (regKey .hub 0 0x40))
  rw [word, frozen_job]
  exact wbits_keep 5 4 _ _ _ (by decide) (by decide)

/-- INTERLUDE and INTERLUDE_LIVE take a value together. -/
def interludeShown (s : State) (v : Nat) : State := wf (wf s F.HUB_JOB_CTRL_INTERLUDE 0 v) F.HUB_JOB_STATUS_INTERLUDE_LIVE 0 v

theorem interludeShown_facts (s : State) (v : Nat) : rf (interludeShown s v) F.HUB_JOB_CTRL_INTERLUDE 0 = v % 2 ∧
    rf (interludeShown s v) F.HUB_JOB_STATUS_INTERLUDE_LIVE 0 = v % 2 ∧ (interludeShown s v).sr = s.sr := by
  refine ⟨?_, rf_wf_same _ F.HUB_JOB_STATUS_INTERLUDE_LIVE 0 v (by decide) (by decide),
    (onlyRegs_sr (onlyRegs_field _ _ 0 v)).trans (onlyRegs_sr (onlyRegs_field s _ 0 v))⟩
  exact (rf_wf_ne _ F.HUB_JOB_STATUS_INTERLUDE_LIVE F.HUB_JOB_CTRL_INTERLUDE 0 0 v (regKey_off_ne .hub 0 (by decide))).trans
    (rf_wf_same s F.HUB_JOB_CTRL_INTERLUDE 0 v (by decide) (by decide))

theorem interludeWrite_off (s : State) : interludeWrite s false = interludeShown s 0 := if_pos rfl

theorem interludeWrite_taken (mode : rf s F.HUB_JOB_CTRL_EVAL_MODE 0 = 2) (active : jobActive s = true) (none : s.sr.steps = []) :
    interludeWrite s true = interludeShown s 1 := by
  rw [interludeWrite, if_neg (by decide), if_pos ⟨mode, active, by rw [none]; rfl⟩, interludeShown]

/-- A refused INTERLUDE shows what is in force, and is reported. -/
def interludeRefused (s : State) : State :=
  ev (wf s F.HUB_JOB_CTRL_INTERLUDE 0 (b2n (interludeLive s))) F.HUB_JOB_EVENT_INTERLUDE_REFUSED 0

theorem interludeWrite_idle (idle : jobActive s = false) : interludeWrite s true = interludeRefused s := by
  rw [interludeWrite, if_neg (by decide), if_neg (by simp [idle]), interludeRefused]

theorem interludeRefused_facts (s : State) : rf (interludeRefused s) F.HUB_JOB_EVENT_INTERLUDE_REFUSED 0 = 1 ∧
    rf (interludeRefused s) F.HUB_JOB_STATUS_INTERLUDE_LIVE 0 = rf s F.HUB_JOB_STATUS_INTERLUDE_LIVE 0 ∧ (interludeRefused s).sr = s.sr :=
  ⟨rf_ev_same _ _ 0 (by decide) (by decide),
    (rf_ev_ne _ F.HUB_JOB_EVENT_INTERLUDE_REFUSED F.HUB_JOB_STATUS_INTERLUDE_LIVE 0 0 (regKey_off_ne .hub 0 (by decide))).trans
      (rf_wf_ne s F.HUB_JOB_CTRL_INTERLUDE F.HUB_JOB_STATUS_INTERLUDE_LIVE 0 0 _ (regKey_off_ne .hub 0 (by decide))),
    (onlyEvents_sr (onlyEvents_field _ F.HUB_JOB_EVENT_INTERLUDE_REFUSED 0)).trans (onlyRegs_sr (onlyRegs_field s F.HUB_JOB_CTRL_INTERLUDE 0 _))⟩

end Interludes

/-- Settles O47: START, END and INTERLUDE are one bit each of a write that stores nothing else, and then take their own branch. -/
theorem jobsStartAndEnd : Obligations.JobsStartAndEnd := by
  unfold Obligations.JobsStartAndEnd
  refine ⟨fun req s landing => ?start, fun req s landing => ?ending, fun req s landing => ⟨?off, fun mode active none => ?on, fun idle => ?refused⟩⟩
  case start =>
    intro u a r
    have same : ∀ k, regLive u k = regLive s k := jobPulse_regLive s (by decide)
    have running : jobActive u = jobActive s := congrArg (· != 0) (rf_same (same _))
    have addr : mapAddr u = a := mapAddr_same same
    rw [exec_jobStart landing]
    refine ⟨same, fun bad => ?_, fun idle aligned inside => ?_⟩
    · rw [← running, ← addr] at bad
      rw [jobStart_refused bad]
    · have reads : jobStart u = jobTake r := by
        rw [← addr] at aligned inside
        rw [jobStart_reads (running.trans idle) aligned inside, addr]
      rw [reads]
      refine ⟨fun bad => by rw [jobTake_bad bad], fun good => ?_⟩
      rw [jobTake_good good]
      exact ⟨_, rfl, jobTaken_facts r.1 r.2⟩
  case ending =>
    obtain ⟨steps, parts, cores⟩ := storeFields_keeps s .hub 0 0x40 1 2
    have frame := onlyRegs_field { storeFields s .hub 0 0x40 1 2 with sr := { (storeFields s .hub 0 0x40 1 2).sr with mapping := [] } }
      F.HUB_JOB_STATUS_ACTIVE 0 0
    obtain ⟨parts', cores'⟩ := memoryKept_onlyRegs frame
    refine ⟨_, exec_jobEnd landing, jobActive_wf _ 0, ?_, ⟨parts'.trans parts, fun g => (cores' g).trans (cores g)⟩, fun k other => ?_⟩
    · exact (onlyRegs_sr frame).trans (by rw [steps])
    · exact (frame.1 k (by simpa using other)).trans (jobPulse_regLive s (by decide) k)
  case off =>
    obtain ⟨ctrl, live, steps⟩ := interludeShown_facts (storeFields s .hub 0 0x40 2 4) 0
    rw [exec_interlude_off landing, interludeWrite_off]
    exact ⟨_, rfl, ctrl, live, steps.trans (storeFields_keeps s .hub 0 0x40 2 4).1⟩
  case on =>
    obtain ⟨kept, same⟩ := interludeStored s
    obtain ⟨steps, -⟩ := storeFields_keeps s .hub 0 0x40 1 4
    have running : jobActive (storeFields s .hub 0 0x40 1 4) = true := (congrArg (· != 0) (rf_same (same _ (by decide)))).trans active
    obtain ⟨ctrl, live, rest⟩ := interludeShown_facts (storeFields s .hub 0 0x40 1 4) 1
    rw [exec_interlude_on landing, interludeWrite_taken (kept.trans mode) running ((congrArg StepSt.steps steps).trans none)]
    exact ⟨_, rfl, ctrl, live, rest.trans steps⟩
  case refused =>
    obtain ⟨-, same⟩ := interludeStored s
    have stopped : jobActive (storeFields s .hub 0 0x40 1 4) = false := (congrArg (· != 0) (rf_same (same _ (by decide)))).trans idle
    obtain ⟨reported, live, rest⟩ := interludeRefused_facts (storeFields s .hub 0 0x40 1 4)
    rw [exec_interlude_on landing, interludeWrite_idle stopped]
    exact ⟨_, rfl, reported, live.trans (rf_same (same _ (by decide))), rest.trans (storeFields_keeps s .hub 0 0x40 1 4).1⟩

end Sys2Proof.Proofs
end

section
/-! PROOFS. The statements of chapter 15, "Step replay": how a step is opened, sealed, closed and replayed. -/

namespace Sys2Proof.Proofs

open Sys2Proof Sys2Proof.Machine Sys2Proof.Safety Sys2Proof.Laws

/-! ### The commands of HUB_SR_CMD (R326): one bit each -/

section StepCommands

variable {s : State} {req : Requester}

theorem srCmd_disabled {b : Nat} {v : Word} (pulse : (span 1 7).filter (fun b => bit b v.toNat) = [b])
    (landing : lands s req .hubSr 0 4 v [0]) (off : rb s F.HUB_SR_CTRL_EN 0 = false) :
    regCmd s req .hubSr 0 4 v (fun _ _ s => srCmdEffect v s) = .next (srRefuse s 1) := by
  rw [hubSr_lands landing, srCmd_one s b v pulse, if_neg (by simp [off])]

theorem srCmd_enabled {b : Nat} {v : Word} (pulse : (span 1 7).filter (fun b => bit b v.toNat) = [b])
    (landing : lands s req .hubSr 0 4 v [0]) (on : rb s F.HUB_SR_CTRL_EN 0 = true) :
    regCmd s req .hubSr 0 4 v (fun _ _ s => srCmdEffect v s) = .next (srCommand s b) := by
  rw [hubSr_lands landing, srCmd_one s b v pulse, if_pos on]

theorem exec_stepOpen (landing : lands s req .hubSr 0 4 0x02 [0]) (on : rb s F.HUB_SR_CTRL_EN 0 = true) :
    exec (.stepOpen req) s = .next (srOpen s) := srCmd_enabled (b := 1) (by decide) landing on

theorem exec_seal (landing : lands s req .hubSr 0 4 0x04 [0]) (on : rb s F.HUB_SR_CTRL_EN 0 = true) :
    exec (.seal req) s = .next (srSeal s) := srCmd_enabled (b := 2) (by decide) landing on

theorem exec_close (landing : lands s req .hubSr 0 4 0x08 [0]) (on : rb s F.HUB_SR_CTRL_EN 0 = true) :
    exec (.close req) s = .next (srClose s) := srCmd_enabled (b := 3) (by decide) landing on

theorem exec_replay (landing : lands s req .hubSr 0 4 0x10 [0]) (on : rb s F.HUB_SR_CTRL_EN 0 = true) :
    exec (.replay req) s = .next (srReplay s) := srCmd_enabled (b := 4) (by decide) landing on

theorem srRefuse_facts (s : State) {reason : Nat} (code : reason < 16) :
    rf (srRefuse s reason) F.HUB_SR_INFO_REFUSE 0 = reason ∧ rf (srRefuse s reason) F.HUB_SR_EVENT_REFUSED 0 = 1 ∧
      onlyEvents [F.HUB_SR_INFO_REFUSE.key 0, F.HUB_SR_EVENT_REFUSED.key 0] s (srRefuse s reason) := by
  refine ⟨?_, rf_ev_same _ F.HUB_SR_EVENT_REFUSED 0 (by decide) (by decide),
    onlyEvents_trans (onlyEvents_wf s reason (List.mem_cons_self ..)) (onlyEvents_ev _ (by simp))⟩
  exact (rf_ev_ne _ F.HUB_SR_EVENT_REFUSED F.HUB_SR_INFO_REFUSE 0 0 (regKey_off_ne .hubSr 0 (by decide))).trans
    ((rf_wf_same s F.HUB_SR_INFO_REFUSE 0 reason (by decide) (by decide)).trans (Nat.mod_eq_of_lt code))

end StepCommands

/-! ### OPEN and the copy of the inputs (R327, R330, R333) -/

section Opening

variable {s : State}

theorem srOpen_reads (active : jobActive s = true) (alone : s.sr.steps = [])
    (aligned : rf2 s F.HUB_SR_PLAN_LO_ADDR F.HUB_SR_PLAN_HI_ADDR 0 % 64 = 0)
    (inside : inMemory s (rf2 s F.HUB_SR_PLAN_LO_ADDR F.HUB_SR_PLAN_HI_ADDR 0) 256 = true) :
    srOpen s = srAccept (hubRead s (rf2 s F.HUB_SR_PLAN_LO_ADDR F.HUB_SR_PLAN_HI_ADDR 0) 256) := by
  simp [srOpen, active, alone, aligned, inside]

/-- A step as OPEN accepts it. -/
def acceptedStep (plan : List Byte) : Step :=
  { step := planStep plan, state := 0, attempt := 0, gen := 0, causes := 0, failTick := none, sealTick := none, reported := false
    awaits := false, stream := 0, plan := plan, cidx := [], copying := false }

theorem srAccept_good {r : State × List Byte} (alone : r.1.sr.steps = []) (good : planOk r.1 r.2 = true)
    (next : r.1.sr.opened = true → planStep r.2 = r.1.sr.last + 1) (small : planStep r.2 < 2 ^ 48 - 1)
    (fits : 0x4000 + packedLen r.2 ≤ panSlotSize r.1) :
    srAccept r = { r.1 with sr := { r.1.sr with steps := [acceptedStep r.2], opened := true, last := planStep r.2 } } := by
  have number : ¬ ((r.1.sr.opened = true ∧ planStep r.2 ≠ r.1.sr.last + 1) ∨ 2 ^ 48 - 1 ≤ planStep r.2) := by
    rintro (⟨opened, other⟩ | big)
    · exact other (next opened)
    · omega
  have place : ¬ (r.1.sr.steps.any (fun t => panSlotNo r.1 t.step == panSlotNo r.1 (planStep r.2)) = true ∨
      panSlotSize r.1 < 0x4000 + packedLen r.2) := by
    rintro (taken | small)
    · simp [alone] at taken
    · omega
  rw [srAccept]
  dsimp only
  rw [if_neg (by simp [good]), if_neg number, if_neg place, alone]
  rfl

theorem exec_pannierCopyDone {t : Step} (copying : s.sr.steps.find? (fun t => t.copying) = some t)
    (settled : ((s.host.reads ++ s.host.waiting).all fun r => match r.use with | .pannier _ => false | _ => true) = true) :
    exec .pannierCopyDone s = .next (pannierCopied s t) := by
  show execPannierCopyDone s = _
  rw [execPannierCopyDone, copying]
  refine congrArg Host.Outcome.next (if_neg (Bool.eq_false_iff.mp (List.any_eq_false.mpr fun r listed => ?_)))
  have other := List.all_eq_true.mp settled r listed
  revert other
  cases r.use <;> simp

end Opening

/-! ### SEAL, CLOSE and REPLAY of the oldest step (R326, R329, R337, R339) -/

section Oldest

variable {s : State} {t : Step} {rest : List Step}

theorem oldestStep_cons (queue : s.sr.steps = t :: rest) : oldestStep s = some t := by rw [oldestStep, queue]; rfl

theorem srSeal_open (queue : s.sr.steps = t :: rest) (opened : t.state = 1) (partition : rf s F.HUB_SR_CTRL_VOTE_PTN 0 ≤ 19)
    (pinned : pinLive s (rf s F.HUB_SR_CTRL_VOTE_PTN 0) ≠ 0) :
    srSeal s = sealStep (stampStream (hubWrite s (panSlot s t.step + 0x0E) (toLE 2 t.attempt)) t) t := by
  rw [srSeal, oldestStep_cons queue]
  dsimp only
  rw [if_neg (by simp [sealable, opened]), if_neg (by omega)]

theorem srClose_refused (queue : s.sr.steps = t :: rest) (other : t.state ≠ 3) : srClose s = srRefuse s 1 := by
  rw [srClose, oldestStep_cons queue]
  exact if_pos other

/-- GEN has advanced, and the commit flags are clear (R326, R329). -/
def genAdvanced (s : State) : State := clearCommitFlags (wf s F.HUB_SR_GEN_GEN 0 ((rf s F.HUB_SR_GEN_GEN 0 + 1) % 2 ^ 16))

theorem genAdvanced_sr (s : State) : (genAdvanced s).sr = s.sr :=
  (clearCommitFlags_sr _).trans (onlyRegs_sr (onlyRegs_field s F.HUB_SR_GEN_GEN 0 _))

theorem genAdvanced_interval (s : State) : rf (genAdvanced s) F.HUB_SR_CTRL_DIGEST_INTERVAL 0 = rf s F.HUB_SR_CTRL_DIGEST_INTERVAL 0 := by
  rw [genAdvanced, ← rf_wf_ne s F.HUB_SR_GEN_GEN F.HUB_SR_CTRL_DIGEST_INTERVAL 0 0 _ (regKey_off_ne .hubSr 0 (by decide))]
  exact rf_same (clearCommitFlags_live _ (by decide))

/-- The oldest step is dropped as CLOSED. -/
def stepClosed (s : State) (t : Step) (rest : List Step) : State :=
  { s with sr := { s.sr with steps := rest, lastClosed := some t.step, heldFlag := false } }

theorem srClose_committed (queue : s.sr.steps = t :: rest) (committed : t.state = 3) (noDigest : rf s F.HUB_SR_CTRL_DIGEST_INTERVAL 0 = 0) :
    srClose s = captureAtClose (stepClosed (genAdvanced s) t rest) := by
  have interval := (genAdvanced_interval s).trans noDigest
  have steps : (genAdvanced s).sr.steps.drop 1 = rest := by rw [genAdvanced_sr, queue]; rfl
  rw [genAdvanced] at interval steps
  rw [srClose, oldestStep_cons queue]
  dsimp only
  rw [if_neg (not_not_intro committed), steps, if_neg (fun asked => asked.1 interval)]
  rfl

theorem srReplay_failed (queue : s.sr.steps = t :: rest) (failed : t.state = 5) (settled : t.awaits = false) (isSealed : t.sealTick ≠ none) :
    srReplay s = if !coresQuiet s then srRefuse s 6
      else if rf s F.HUB_SR_CTRL_REPLAY_LIMIT 0 ≤ t.attempt then srRefuse s 7 else replayCheck (slotCheck s t) t := by
  rw [srReplay, oldestStep_cons queue]
  exact if_neg (by simp [failed, settled, isSealed])

end Oldest

/-- Settles O48: each command of HUB_SR_CMD is one bit of the write, and takes the branch that the step's state opens. -/
theorem stepsOpenAndClose : Obligations.StepsOpenAndClose := by
  unfold Obligations.StepsOpenAndClose
  refine ⟨fun req v c s listed landing off => ?disabled, fun req s landing on active alone => ?opening,
    fun r alone good next small fits => ⟨_, srAccept_good alone good next small fits, rfl, rfl, rfl, rfl⟩,
    fun s t copying settled => exec_pannierCopyDone copying settled, fun req t rest s landing on queue opened partition pinned => ?sealing,
    fun req t rest s landing on queue => ⟨fun other => ?unclosed, fun committed noDigest => ?closing⟩,
    fun req t rest s landing on queue failed settled isSealed => ?replaying⟩
  case disabled =>
    have run : exec c s = .next (srRefuse s 1) := by
      simp only [List.mem_cons, List.not_mem_nil, or_false, Prod.mk.injEq] at listed
      rcases listed with ⟨rfl, rfl⟩ | ⟨rfl, rfl⟩ | ⟨rfl, rfl⟩ | ⟨rfl, rfl⟩ | ⟨rfl, rfl⟩ | ⟨rfl, rfl⟩ | ⟨rfl, rfl⟩
      · exact srCmd_disabled (b := 1) (by decide) landing off
      · exact srCmd_disabled (b := 2) (by decide) landing off
      · exact srCmd_disabled (b := 3) (by decide) landing off
      · exact srCmd_disabled (b := 4) (by decide) landing off
      · exact srCmd_disabled (b := 5) (by decide) landing off
      · exact srCmd_disabled (b := 6) (by decide) landing off
      · exact srCmd_disabled (b := 7) (by decide) landing off
    exact ⟨_, run, srRefuse_facts s (by decide)⟩
  case opening =>
    intro a r aligned inside
    rw [exec_stepOpen landing on, srOpen_reads active alone aligned inside]
  case sealing => rw [exec_seal landing on, srSeal_open queue opened partition pinned]
  case unclosed => rw [exec_close landing on, srClose_refused queue other]
  case closing =>
    intro g u
    refine ⟨genAdvanced_sr s, ?_⟩
    rw [exec_close landing on, srClose_committed queue committed noDigest]
    rfl
  case replaying =>
    rw [exec_replay landing on, srReplay_failed queue failed settled isSealed]
    refine ⟨fun busy => ?_, fun quiet used => ?_, fun quiet few => ?_⟩
    · rw [if_pos (by simp [busy])]
    · rw [if_neg (by simp [quiet]), if_pos used]
    · rw [if_neg (by simp [quiet]), if_neg (by omega)]

end Sys2Proof.Proofs
end

section
/-! PROOFS. The statements of chapter 16, "Checkpoint": the commands that a command block names. -/

namespace Sys2Proof.Proofs

open Sys2Proof Sys2Proof.Machine Sys2Proof.Safety Sys2Proof.Laws

/-! ### GO (R372): the block is read where a command may run -/

section Go

variable {s : State} {req : Requester} {op : Nat}

theorem ckpGo_refused (barred : ckpBusy s = true ∨ rb s F.CKP_CTRL_EN 0 = false) : ckpGo s = ckpRefuse s 1 :=
  if_pos (barred.imp_right Bool.eq_false_iff.mp)

/-- A block that names an operation lies in memory. -/
theorem ckpBlock_inMemory (named : ckpBlockOp s = op) (isOp : op ≠ 0) :
    inMemory s (rf2 s F.CKP_CMDBLK_LO_ADDR F.CKP_CMDBLK_HI_ADDR 0) 64 = true :=
  Decidable.byContradiction fun outside => isOp (named.symm.trans (if_neg outside))

theorem ckpGo_reads (idle : ckpBusy s = false) (on : rb s F.CKP_CTRL_EN 0 = true)
    (inside : inMemory s (rf2 s F.CKP_CMDBLK_LO_ADDR F.CKP_CMDBLK_HI_ADDR 0) 64 = true) :
    ckpGo s = ckpGoBlock (hubRead s (rf2 s F.CKP_CMDBLK_LO_ADDR F.CKP_CMDBLK_HI_ADDR 0) 64) := by
  rw [ckpGo, if_neg (by simp [idle, on]), if_neg (by simp [inside])]

theorem ckpRow_named (landing : lands s req .ckp 0 4 1 [0]) (named : ckpBlockOp s = op) : ckpRow req op s = .next (ckpGo s) := by
  rw [ckpRow, if_pos named, ckp_lands landing, ckpCmd_go]

end Go

/-! ### The operation that a block names (R361 to R373) -/

section Operations

variable {s : State} {blk : List Byte}

/-- Does a module in a state take an operation (R373)? -/
def opReady (m op : Nat) : Prop := m = 1 ∨ (op = 4 ∧ m = 2) ∨ (m = 4 ∧ (op = 4 ∨ op = 5 ∨ op = 8))

/-- What the command block names (R372): an operation, and no reserved slot. -/
def blockNames (blk : List Byte) (op : Nat) : Prop :=
  fieldLE 0 1 blk = op ∧ ¬ (op = 0 ∨ 8 < op ∨ bits 9 8 (fieldLE 0 4 blk) = 3)

theorem ckpGoBlock_unready {op : Nat} (names : blockNames blk op) (unready : ¬ opReady (moduleState s) op) :
    ckpGoBlock (s, blk) = ckpRefuse s 2 := by
  obtain ⟨code, valid⟩ := names
  rw [ckpGoBlock]
  dsimp only
  rw [code, if_neg valid]
  exact if_pos unready

theorem ckpGoBlock_save (names : blockNames blk 1) (ready : moduleState s = 1) :
    ckpGoBlock (s, blk) = ckpSave s blk (bits 47 0 (fieldLE 0x18 8 blk)) := by
  obtain ⟨code, valid⟩ := names
  rw [ckpGoBlock]
  dsimp only
  rw [code, if_neg valid]
  exact if_neg (not_not_intro (.inl ready))

theorem ckpGoBlock_restore (names : blockNames blk 2) (ready : moduleState s = 1) :
    ckpGoBlock (s, blk) = if restoreWhy s (fieldLE 0x10 4 blk) ≠ 0 then ckpRefuse s (restoreWhy s (fieldLE 0x10 4 blk))
      else if !inMemory s (bits 47 0 (fieldLE 0x30 8 blk)) 0x4000 then ckpRefuse s 4
      else ckpBegin s blk 2 (examScript s 0 ++ examScript s 1 ++ [.report, .select]) := by
  obtain ⟨code, valid⟩ := names
  rw [ckpGoBlock]
  dsimp only
  rw [code, if_neg valid]
  exact if_neg (not_not_intro (.inl ready))

theorem ckpGoBlock_adopt (names : blockNames blk 3) (ready : moduleState s = 1) :
    ckpGoBlock (s, blk) = if restoreWhy s (fieldLE 0x10 4 blk) ≠ 0 then ckpRefuse s (restoreWhy s (fieldLE 0x10 4 blk))
      else ev (adoptStep s (fieldLE 0x10 4 blk) (bits 47 0 (fieldLE 8 8 blk)) (fieldLE 0x14 2 blk)) F.CKP_EVENT_DONE 0 := by
  obtain ⟨code, valid⟩ := names
  rw [ckpGoBlock]
  dsimp only
  rw [code, if_neg valid]
  exact if_neg (not_not_intro (.inl ready))

theorem ckpGoBlock_query (names : blockNames blk 4) (ready : moduleState s = 1 ∨ moduleState s = 2 ∨ moduleState s = 4)
    (inside : inMemory s (bits 47 0 (fieldLE 0x18 8 blk)) 0x4000 = true) :
    ckpGoBlock (s, blk) = ckpBegin s blk 4 (examScript s 0 ++ examScript s 1 ++ [.report, .done]) := by
  obtain ⟨code, valid⟩ := names
  rw [ckpGoBlock]
  dsimp only
  rw [code, if_neg valid]
  exact (if_neg (not_not_intro (ready.imp_right (Or.imp (⟨rfl, ·⟩) (⟨·, .inl rfl⟩))))).trans (if_neg (by rw [inside]; exact Bool.false_ne_true))

theorem ckpGoBlock_export (names : blockNames blk 5) (ready : moduleState s = 1 ∨ moduleState s = 4) :
    ckpGoBlock (s, blk) = ckpMove s blk 5 := by
  obtain ⟨code, valid⟩ := names
  rw [ckpGoBlock]
  dsimp only
  rw [code, if_neg valid]
  exact if_neg (not_not_intro (ready.imp_right fun foreign => .inr ⟨foreign, .inr (.inl rfl)⟩))

theorem ckpGoBlock_import (names : blockNames blk 6) (ready : moduleState s = 1) : ckpGoBlock (s, blk) = ckpMove s blk 6 := by
  obtain ⟨code, valid⟩ := names
  rw [ckpGoBlock]
  dsimp only
  rw [code, if_neg valid]
  exact if_neg (not_not_intro (.inl ready))

/-- The slot that a command block names. -/
def blockSlot (blk : List Byte) : Nat := bits 9 8 (fieldLE 0 4 blk)

/-- The engine works on a slot. -/
def withTarget (s : State) (k : Nat) : State := { s with ckp := { s.ckp with target := k } }

theorem ckpGoBlock_importCommit (names : blockNames blk 7) (ready : moduleState s = 1) (slot : blockSlot blk < 2) :
    let k := blockSlot blk
    let u := withTarget s k
    ckpGoBlock (s, blk) = ckpBegin u blk 7 ((if slotStatus s (1 - k) = 0 then examScript s (1 - k) else []) ++
      [.look (slotLba s k + 1) 5 (2 * k + 1), .adoptManifest]) := by
  obtain ⟨code, valid⟩ := names
  have inRange : ¬ 1 < bits 9 8 (fieldLE 0 4 blk) := by
    rw [blockSlot] at slot
    omega
  simp only [ckpGoBlock, code, if_neg valid, ready, true_or, not_true_eq_false, if_false, if_neg inRange]
  rfl

theorem ckpGoBlock_format (names : blockNames blk 8) (ready : moduleState s = 1 ∨ moduleState s = 4) :
    ckpGoBlock (s, blk) =
      ckpBegin s blk 8 (knowSlots s ++ [.guard, .label, .zero 0, .zeroed 0, .zero 1, .zeroed 1, .labelled, .done]) := by
  obtain ⟨code, valid⟩ := names
  rw [ckpGoBlock]
  dsimp only
  rw [code, if_neg valid]
  exact if_neg (not_not_intro (ready.imp_right fun foreign => .inr ⟨foreign, .inr (.inr rfl)⟩))

end Operations

/-! ### What the operations check first -/

section Checks

variable {s : State} {blk : List Byte}

theorem ckpSave_refused {a : Nat} (unready : jobActive s = false ∨ s.sr.lastClosed = none) : ckpSave s blk a = ckpRefuse s 3 := by
  refine if_pos ?_
  rcases unready with idle | never
  · simp [idle]
  · simp [never]

theorem ckpSave_reads {a : Nat} (active : jobActive s = true) (closed : s.sr.lastClosed ≠ none) (aligned : a % 64 = 0)
    (inside : inMemory s a 4096 = true) : ckpSave s blk a = ckpSavePlan (hubRead s a 4096) blk := by
  obtain ⟨step, last⟩ := Option.ne_none_iff_exists'.mp closed
  rw [ckpSave, if_neg (by simp [active, last]), if_neg (by simp [aligned, inside])]

theorem restoreWhy_zero {e : Nat} (active : jobActive s = true) (none : s.sr.steps = []) (later : rf s F.HUB_SR_EPOCH_EPOCH 0 < e)
    (named : e ≠ 0xFFFFFFFF) : restoreWhy s e = 0 := by
  rw [restoreWhy, if_neg (by simp [active, none]), if_neg (by omega)]

theorem restoreWhy_busy {e : Nat} (busy : jobActive s = false ∨ s.sr.steps ≠ []) : restoreWhy s e = 3 :=
  if_pos (by rcases busy with idle | steps <;> simp [*])

theorem restoreWhy_epoch {e : Nat} (active : jobActive s = true) (none : s.sr.steps = [])
    (bad : e ≤ rf s F.HUB_SR_EPOCH_EPOCH 0 ∨ e = 0xFFFFFFFF) : restoreWhy s e = 8 := by
  rw [restoreWhy, if_neg (by simp [active, none]), if_pos bad]

/-- EXPORT and IMPORT of whole LBAs inside the slot and of a span of memory. -/
theorem ckpMove_whole {op : Nat} (slot : blockSlot blk < 2) (offset : fieldLE 0x20 8 blk % 4096 = 0) (length : fieldLE 0x28 8 blk % 4096 = 0)
    (some : 0 < fieldLE 0x28 8 blk) (inside : inMemory s (bits 47 0 (fieldLE 0x18 8 blk)) (fieldLE 0x28 8 blk) = true)
    (fits : fieldLE 0x20 8 blk + fieldLE 0x28 8 blk ≤ slotLbas s * 4096) :
    let lba := slotLba s (blockSlot blk) + fieldLE 0x20 8 blk / 4096
    let addr := bits 47 0 (fieldLE 0x18 8 blk)
    let len := fieldLE 0x28 8 blk
    ckpMove s blk op = if op = 5 then ckpBegin s blk 5 [.exportTo lba addr len]
      else ckpBegin s blk 6 (knowSlots s ++ [.guard, .importFrom lba addr len]) := by
  have span : ¬ (1 < bits 9 8 (fieldLE 0 4 blk) ∨ fieldLE 0x20 8 blk % 4096 ≠ 0 ∨ fieldLE 0x28 8 blk % 4096 ≠ 0 ∨ fieldLE 0x28 8 blk = 0 ∨
      (!inMemory s (bits 47 0 (fieldLE 0x18 8 blk)) (fieldLE 0x28 8 blk)) = true) := by
    rw [blockSlot] at slot
    simp only [inside, Bool.not_true, Bool.false_eq_true, or_false]
    omega
  rw [ckpMove, if_neg span, if_neg (by omega)]
  rfl

theorem rf_withSteps (s : State) (x : StepSt) (f : Fld) (i : Nat) : rf { s with sr := x } f i = rf s f i := rf_with rfl rfl f i

/-- The registers that RESTORE and ADOPT set. -/
def epochSet (s : State) (e g : Nat) : State := wf (wf s F.HUB_SR_EPOCH_EPOCH 0 e) F.HUB_SR_GEN_GEN 0 g

theorem epochSet_facts (s : State) (e g : Nat) : rf (epochSet s e g) F.HUB_SR_EPOCH_EPOCH 0 = e % 2 ^ 32 ∧
    rf (epochSet s e g) F.HUB_SR_GEN_GEN 0 = g % 2 ^ 16 ∧ (epochSet s e g).sr = s.sr := by
  refine ⟨?_, rf_wf_same _ F.HUB_SR_GEN_GEN 0 g (by decide) (by decide),
    (onlyRegs_sr (onlyRegs_field _ F.HUB_SR_GEN_GEN 0 g)).trans (onlyRegs_sr (onlyRegs_field s F.HUB_SR_EPOCH_EPOCH 0 e))⟩
  rw [epochSet, rf_wf_ne _ F.HUB_SR_GEN_GEN F.HUB_SR_EPOCH_EPOCH 0 0 g (regKey_off_ne .hubSr 0 (by decide)),
    rf_wf_word s F.HUB_SR_EPOCH_EPOCH 0 e rfl rfl]

theorem adoptStep_eq (s : State) (e n g : Nat) : adoptStep s e n g =
    { epochSet s e g with sr := { (epochSet s e g).sr with steps := [], opened := false, lastClosed := some n } } := rfl

theorem adoptStep_facts (s : State) (e n g : Nat) : rf (adoptStep s e n g) F.HUB_SR_EPOCH_EPOCH 0 = e % 2 ^ 32 ∧
    rf (adoptStep s e n g) F.HUB_SR_GEN_GEN 0 = g % 2 ^ 16 ∧
    (adoptStep s e n g).sr = { s.sr with steps := [], opened := false, lastClosed := some n } := by
  obtain ⟨epoch, gen, steps⟩ := epochSet_facts s e g
  rw [adoptStep_eq]
  exact ⟨(rf_withSteps (epochSet s e g) _ F.HUB_SR_EPOCH_EPOCH 0).trans epoch, (rf_withSteps (epochSet s e g) _ F.HUB_SR_GEN_GEN 0).trans gen,
    by rw [steps]⟩

/-- DONE is reported on a page of its own. -/
theorem doneReported_facts (s : State) : rf (ev s F.CKP_EVENT_DONE 0) F.CKP_EVENT_DONE 0 = 1 ∧ (ev s F.CKP_EVENT_DONE 0).sr = s.sr ∧
    ∀ f : Fld, f.blk = .hubSr → f.off < 65536 → rf (ev s F.CKP_EVENT_DONE 0) f 0 = rf s f 0 :=
  ⟨rf_ev_same s _ 0 (by decide) (by decide), onlyEvents_sr (onlyEvents_field s _ 0),
    fun f page offset => rf_ev_ne s _ f 0 0 (regKey_ne_code (by decide) (by decide) offset (by decide) (by rw [page]; decide))⟩

end Checks

/-- Settles O50: past the two checks that all operations share each operation takes its own branch of GO. -/
theorem checkpointCommandsRun : Obligations.CheckpointCommandsRun := by
  unfold Obligations.CheckpointCommandsRun
  refine ⟨fun req op c s listed landing named => ?go, fun blk s low high slot => ?block⟩
  case go =>
    have run : exec c s = .next (ckpGo s) ∧ op ≠ 0 := by
      simp only [List.mem_cons, List.not_mem_nil, or_false, Prod.mk.injEq] at listed
      rcases listed with ⟨rfl, rfl⟩ | ⟨rfl, rfl⟩ | ⟨rfl, rfl⟩ | ⟨rfl, rfl⟩ | ⟨rfl, rfl⟩ | ⟨rfl, rfl⟩ | ⟨rfl, rfl⟩ | ⟨rfl, rfl⟩ <;>
        exact ⟨ckpRow_named landing named, by decide⟩
    obtain ⟨run, isOp⟩ := run
    rw [run]
    exact ⟨fun barred => by rw [ckpGo_refused barred], fun idle on => by rw [ckpGo_reads idle on (ckpBlock_inMemory named isOp)]⟩
  case block =>
    intro op k addr off len epoch resting
    have valid : ∀ {n}, op = n → blockNames blk n := fun code => ⟨code, by
      subst code
      rintro (zero | beyond | reserved)
      · exact absurd zero (by omega)
      · exact absurd high (by omega)
      · exact slot reserved⟩
    refine ⟨fun m1 m2 m4 => ?unready, fun m2 n4 => ?failed, fun m4 n4 n5 n8 => ?foreign,
      fun ready => ⟨fun code active closed aligned inside => ?save, fun code unready => ?saveNot, fun code rests inside => ?restore,
        fun code busy => ?busy, fun code active none bad => ?epoch, fun code rests => ?adopt⟩,
      fun ready code inside => ?query, fun two offset length some inside fits => ⟨fun ready code => ?exports, fun ready code => ?imports⟩,
      fun ready code two => ?commit, fun ready code => ckpGoBlock_format (valid code) ready⟩
    case unready => exact ckpGoBlock_unready (valid rfl) (by simp [opReady, m1, m2, m4])
    case failed => exact ckpGoBlock_unready (valid rfl) (by simp [opReady, m2, show op ≠ 4 from n4])
    case foreign => exact ckpGoBlock_unready (valid rfl) (by simp [opReady, m4, show op ≠ 4 from n4, show op ≠ 5 from n5, show op ≠ 8 from n8])
    case save => rw [ckpGoBlock_save (valid code) ready, ckpSave_reads active closed aligned inside]
    case saveNot => rw [ckpGoBlock_save (valid code) ready, ckpSave_refused unready]
    case restore =>
      obtain ⟨active, none, later, named⟩ := rests
      rw [ckpGoBlock_restore (valid code) ready, restoreWhy_zero active none later named, if_neg (by decide), if_neg (by simp [inside])]
    case busy =>
      rcases code with code | code
      · rw [ckpGoBlock_restore (valid code) ready, restoreWhy_busy busy, if_pos (by decide)]
      · rw [ckpGoBlock_adopt (valid code) ready, restoreWhy_busy busy, if_pos (by decide)]
    case epoch =>
      rcases code with code | code
      · rw [ckpGoBlock_restore (valid code) ready, restoreWhy_epoch active none bad, if_pos (by decide)]
      · rw [ckpGoBlock_adopt (valid code) ready, restoreWhy_epoch active none bad, if_pos (by decide)]
    case adopt =>
      obtain ⟨active, none, later, named⟩ := rests
      rw [ckpGoBlock_adopt (valid code) ready, restoreWhy_zero active none later named, if_neg (by decide)]
      obtain ⟨epochSet, genSet, steps⟩ := adoptStep_facts s (fieldLE 0x10 4 blk) (bits 47 0 (fieldLE 8 8 blk)) (fieldLE 0x14 2 blk)
      obtain ⟨done, kept, same⟩ := doneReported_facts (adoptStep s (fieldLE 0x10 4 blk) (bits 47 0 (fieldLE 8 8 blk)) (fieldLE 0x14 2 blk))
      exact ⟨_, rfl, (same F.HUB_SR_EPOCH_EPOCH rfl (by decide)).trans epochSet, (same F.HUB_SR_GEN_GEN rfl (by decide)).trans genSet, kept.trans steps, done⟩
    case query => exact ckpGoBlock_query (valid code) ready inside
    case exports =>
      rw [ckpGoBlock_export (valid code) ready, ckpMove_whole two offset length some inside fits, if_pos rfl]
      rfl
    case imports =>
      rw [ckpGoBlock_import (valid code) ready, ckpMove_whole two offset length some inside fits, if_neg (by decide)]
      rfl
    case commit => exact ⟨_, rfl, ckpGoBlock_importCommit (valid code) ready two⟩

end Sys2Proof.Proofs
end

section
/-! PROOFS. The statements of chapter 16, "Checkpoint": aborts, captures, NVMe completions, inbound requests and automatic saves. -/

namespace Sys2Proof.Proofs

open Sys2Proof Sys2Proof.Machine Sys2Proof.Safety Sys2Proof.Laws

/-! ### Ending a command (R364): the engine idles, the commit flags go, and the reason is recorded -/

section Aborts

theorem onlyRegs_ckp {ks : List Nat} {s t : State} (frame : onlyRegs ks s t) : t.ckp = s.ckp := by rw [frame.2]
theorem onlyEvents_ckp {ks : List Nat} {s t : State} (frame : onlyEvents ks s t) : t.ckp = s.ckp := by rw [frame.2]

theorem rf_withCkp (s : State) (x : CkpSt) (f : Fld) (i : Nat) : rf { s with ckp := x } f i = rf s f i := rf_with rfl rfl f i

variable {s : State}

/-- CKP_STATUS shows no operation, no phase and no command. -/
def statusIdle (s : State) : State := wf (wf (ckpPhase s 0) F.CKP_STATUS_OP 0 0) F.CKP_STATUS_BUSY 0 0

theorem statusIdle_facts (s : State) : (statusIdle s).ckp = s.ckp ∧ rf (statusIdle s) F.CKP_STATUS_BUSY 0 = 0 :=
  ⟨(onlyRegs_ckp (onlyRegs_field _ F.CKP_STATUS_BUSY 0 0)).trans
    ((onlyRegs_ckp (onlyRegs_field _ F.CKP_STATUS_OP 0 0)).trans (onlyRegs_ckp (onlyRegs_field s F.CKP_STATUS_PHASE 0 0))),
    rf_wf_same _ F.CKP_STATUS_BUSY 0 0 (by decide) (by decide)⟩

theorem ckpIdle_eq (s : State) : ckpIdle s = { statusIdle s with ckp := { (statusIdle s).ckp with
    cmd := [], script := [], exts := [], digests := [], capturing := false, captured := false, nvme := none, acc := [] } } := rfl

theorem ckpIdle_facts (s : State) : (ckpIdle s).ckp.script = [] ∧ (ckpIdle s).ckp.nvme = none ∧ rf (ckpIdle s) F.CKP_STATUS_BUSY 0 = 0 := by
  rw [ckpIdle_eq]
  exact ⟨rfl, rfl, (rf_withCkp (statusIdle s) _ F.CKP_STATUS_BUSY 0).trans (statusIdle_facts s).2⟩

theorem ckpHold_off (s : State) : (ckpHold s false).ckp = { s.ckp with holding := false } ∧ rf (ckpHold s false) F.CKP_STATUS_HOLDING 0 = 0 ∧
    rf (ckpHold s false) F.CKP_STATUS_BUSY 0 = rf s F.CKP_STATUS_BUSY 0 :=
  ⟨onlyRegs_ckp (onlyRegs_field { s with ckp := { s.ckp with holding := false } } F.CKP_STATUS_HOLDING 0 _),
    rf_wf_same _ F.CKP_STATUS_HOLDING 0 0 (by decide) (by decide),
    (rf_wf_disj _ F.CKP_STATUS_HOLDING F.CKP_STATUS_BUSY 0 0 _ rfl (by decide) (by decide) (by decide)).trans (rf_withCkp s _ F.CKP_STATUS_BUSY 0)⟩

/-- The engine at rest, with no commit flag held. -/
def ckpReleased (s : State) : State := releaseFlag (ckpHold (ckpIdle s) false)

theorem ckpReleased_facts (s : State) : (ckpReleased s).ckp.script = [] ∧ (ckpReleased s).ckp.nvme = none ∧ (ckpReleased s).ckp.holding = false ∧
    rf (ckpReleased s) F.CKP_STATUS_BUSY 0 = 0 ∧ rf (ckpReleased s) F.CKP_STATUS_HOLDING 0 = 0 := by
  obtain ⟨engine, regs⟩ := releaseFlag_facts (ckpHold (ckpIdle s) false)
  obtain ⟨held, holding, busy⟩ := ckpHold_off (ckpIdle s)
  obtain ⟨script, nvme, idle⟩ := ckpIdle_facts s
  have status : ∀ f : Fld, f.blk = .ckp → f.off < 65536 → rf (ckpReleased s) f 0 = rf (ckpHold (ckpIdle s) false) f 0 := by
    intro f page offset
    exact rf_same (regs f.blk 0 f.off (by rw [page]; decide) (by decide) offset)
  have state : (ckpReleased s).ckp = { (ckpIdle s).ckp with holding := false } := engine.trans held
  rw [state]
  exact ⟨script, nvme, rfl, (status _ rfl (by decide)).trans (busy.trans idle), (status _ rfl (by decide)).trans holding⟩

/-- ABORTED is reported with its reason. -/
def abortReported (s : State) (reason : Nat) : State := ev (wf s F.CKP_INFO_REASON 0 reason) F.CKP_EVENT_ABORTED 0

theorem abortReported_facts (s : State) (reason : Nat) : (abortReported s reason).ckp = s.ckp ∧
    rf (abortReported s reason) F.CKP_STATUS_BUSY 0 = rf s F.CKP_STATUS_BUSY 0 ∧
    rf (abortReported s reason) F.CKP_STATUS_HOLDING 0 = rf s F.CKP_STATUS_HOLDING 0 ∧
    rf (abortReported s reason) F.CKP_EVENT_ABORTED 0 = 1 ∧ rf (abortReported s reason) F.CKP_INFO_REASON 0 = reason % 16 := by
  have status : ∀ f : Fld, f.key 0 = regKey .ckp 0 8 → rf (abortReported s reason) f 0 = rf s f 0 := fun f place =>
    (rf_ev_ne _ _ f 0 0 (by rw [place]; exact regKey_off_ne .ckp 0 (by decide))).trans
      (rf_wf_ne s _ f 0 0 reason (by rw [place]; exact regKey_off_ne .ckp 0 (by decide)))
  exact ⟨(onlyEvents_ckp (onlyEvents_field _ F.CKP_EVENT_ABORTED 0)).trans (onlyRegs_ckp (onlyRegs_field s F.CKP_INFO_REASON 0 reason)),
    status _ rfl, status _ rfl, rf_ev_same _ F.CKP_EVENT_ABORTED 0 (by decide) (by decide),
    (rf_ev_ne _ F.CKP_EVENT_ABORTED F.CKP_INFO_REASON 0 0 (regKey_off_ne .ckp 0 (by decide))).trans
      (rf_wf_same s F.CKP_INFO_REASON 0 reason (by decide) (by decide))⟩

theorem ckpAbort_idle (idle : ckpBusy s = false) (reason : Nat) : ckpAbort s reason = s := if_pos (by simp [idle])

/-- The time of the last save is noted where a save ends. -/
theorem ckpAbort_busy (busy : ckpBusy s = true) (reason : Nat) : ∃ u, ckpAbort s reason = abortReported (ckpReleased u) reason := by
  rw [ckpAbort, if_neg (by simp [busy])]
  exact ⟨_, rfl⟩

end Aborts

/-! ### Captures and NVMe completions (R362, R363, R367, R371) -/

section Completions

variable {s : State} {c : NvmeCmd}

theorem exec_captureEnd_hold (capturing : s.ckp.capturing = true) (open_ : s.ckp.captured = false) (save : ckpOp s = 1)
    (hold : s.ckp.snap = false) (read : s.ckp.digests.length = s.ckp.exts.length) : exec .captureEnd s = .next (captureEnd s) := by
  show execCaptureEnd s = _
  rw [execCaptureEnd, if_neg (by simp [capturing, open_, save]), if_neg (by simp [hold]), if_pos read]

theorem exec_captureEnd_snap (capturing : s.ckp.capturing = true) (open_ : s.ckp.captured = false) (save : ckpOp s = 1)
    (snap : s.ckp.snap = true) :
    let t := (List.range s.ckp.exts.length).foldl copyExtent s
    exec .captureEnd s = if faultedSince s t then .next (ckpAbort t 9) else .next (ckpGoOn (captureEnd t)) := by
  show execCaptureEnd s = _
  rw [execCaptureEnd, if_neg (by simp [capturing, open_, save]), if_pos snap]

theorem exec_nvmeCompletion (outstanding : s.ckp.nvme = some c) (id status : Nat) (data : List Byte) :
    exec (.nvmeCompletion id status data) s = if c.id ≠ id then .next s
      else if status ≠ 0 then .next (moduleError s status) else .next (nvmeDone s c data) := by
  show execNvmeCompletion id status data s = _
  rw [execNvmeCompletion, outstanding]

theorem exec_nvmeTimeout (outstanding : s.ckp.nvme = some c) (id : Nat) :
    exec (.nvmeTimeout id) s = if c.id = id then .next (moduleError s 0) else .next s := by
  show execNvmeTimeout id s = _
  rw [execNvmeTimeout, outstanding]

end Completions

/-! ### The staging link (R353, R355, R356, R364, R371) -/

section Staging

variable {s : State} {c : NvmeCmd}

/-- CKP_STATUS shows a width and a rate. -/
def linkShown (s : State) (width rate : Nat) : State := wf (wf s F.CKP_STATUS_WIDTH 0 width) F.CKP_STATUS_RATE 0 rate

theorem linkShown_facts (s : State) (width rate : Nat) : (linkShown s width rate).ckp = s.ckp ∧
    rf (linkShown s width rate) F.CKP_STATUS_WIDTH 0 = width % 4 ∧ rf (linkShown s width rate) F.CKP_STATUS_RATE 0 = rate % 4 :=
  ⟨(onlyRegs_ckp (onlyRegs_field _ F.CKP_STATUS_RATE 0 rate)).trans (onlyRegs_ckp (onlyRegs_field s F.CKP_STATUS_WIDTH 0 width)),
    (rf_wf_disj _ F.CKP_STATUS_RATE F.CKP_STATUS_WIDTH 0 0 rate rfl (by decide) (by decide) (by decide)).trans
      (rf_wf_same s F.CKP_STATUS_WIDTH 0 width (by decide) (by decide)),
    rf_wf_same _ F.CKP_STATUS_RATE 0 rate (by decide) (by decide)⟩

theorem exec_stagingLinkDown (s : State) : let u := linkShown (ckpAbort s 10) 0 0
    exec .stagingLinkDown s = .next { u with ckp := { u.ckp with bring := true } } := rfl

/-- The answer to an inbound request, beside those before it. -/
def inboundAnswered (s : State) (ok : Bool) (d : List Byte) : State :=
  { s with ckp := { s.ckp with inbound := s.ckp.inbound ++ [(ok, d)] } }

/-- An inbound write into hub SRAM inside the data range of a read. -/
theorem exec_stagingInbound_write {off : Nat} {data : List Byte} (up : hubUp s = true) (outstanding : s.ckp.nvme = some c) (sram : c.sram = true)
    (low : c.addr ≤ off) (high : off + data.length ≤ c.addr + c.len) (fits : off + data.length ≤ 0x1000000) (read : c.kind = 0) :
    exec (.stagingInbound true (0xF0000000 + off) data.length data) s =
      .next (inboundAnswered { s with ckp := { s.ckp with sram := mwrN s.ckp.sram off data } } true []) := by
  have window : 4026531840 + off + data.length ≤ 4043309056 := by omega
  show execStagingInbound true _ _ _ s = _
  simp [execStagingInbound, up, outstanding, sram, read, low, high, window, padTo_length, inboundAnswered]

/-- An inbound read from hub SRAM inside the data range of a write. -/
theorem exec_stagingInbound_read {off len : Nat} (up : hubUp s = true) (outstanding : s.ckp.nvme = some c) (sram : c.sram = true)
    (low : c.addr ≤ off) (high : off + len ≤ c.addr + c.len) (fits : off + len ≤ 0x1000000) (write : c.kind = 1) :
    exec (.stagingInbound false (0xF0000000 + off) len []) s = .next (inboundAnswered s true (mrdN s.ckp.sram off len)) := by
  have window : 4026531840 + off + len ≤ 4043309056 := by omega
  show execStagingInbound false _ _ _ s = _
  simp [execStagingInbound, up, outstanding, sram, write, low, high, window, inboundAnswered]

/-- Below the buffer window there is neither hub SRAM nor device memory. -/
theorem exec_stagingInbound_outside {addr : Nat} (up : hubUp s = true) (outside : addr < 0xF0000000) (write : Bool) (len : Nat) (data : List Byte) :
    exec (.stagingInbound write addr len data) s = .next (moduleError (inboundAnswered s false []) 0) := by
  have sram : ¬ 4026531840 ≤ addr := by omega
  have device : ¬ 281474976710656 ≤ addr := by omega
  show execStagingInbound write addr len data s = _
  cases outstanding : s.ckp.nvme with
  | none => simp [execStagingInbound, up, outstanding, sram, inboundAnswered]
  | some c => simp [execStagingInbound, up, outstanding, sram, device, inboundAnswered]

/-- CKP_STATUS.MODULE of a module that is there: unsupported, foreign or ready (R356, R357). -/
def moduleFoundAs (m : ModuleFacts) : Nat := if !m.lba4k then 3 else if labelForeign m.labelBytes then 4 else 1

/-- What bring-up leaves of a module that is there. -/
def moduleFound (s : State) (m : ModuleFacts) : State :=
  wf (linkShown { s with ckp := { s.ckp with bring := false, facts := m } } m.width m.rate) F.CKP_STATUS_MODULE 0 (moduleFoundAs m)

theorem moduleFound_facts (s : State) (m : ModuleFacts) : (moduleFound s m).ckp = { s.ckp with bring := false, facts := m } ∧
    rf (moduleFound s m) F.CKP_STATUS_MODULE 0 = moduleFoundAs m := by
  refine ⟨(onlyRegs_ckp (onlyRegs_field _ F.CKP_STATUS_MODULE 0 _)).trans (linkShown_facts _ _ _).1,
    (rf_wf_same _ F.CKP_STATUS_MODULE 0 _ (by decide) (by decide)).trans (Nat.mod_eq_of_lt ?_)⟩
  unfold moduleFoundAs
  split
  · decide
  · split <;> decide

theorem moduleFound_fh (s : State) (m : ModuleFacts) : (moduleFound s m).fh = s.fh := by
  simp [moduleFound, linkShown]

theorem exec_stagingLinkTrainEnd {m : ModuleFacts} (up : hubUp s = true) (bring : s.ckp.bring = true)
    (noRetest : s.fh.retests.contains (4, 28, 0x24) = false) (present : m.present = true) (width : m.width ≠ 0) :
    exec (.stagingLinkTrainEnd m) s =
      .next (if moduleFoundAs m = 4 then ev (moduleFound s m) F.CKP_EVENT_FOREIGN 0 else moduleFound s m) := by
  show execStagingLinkTrainEnd m s = _
  rw [execStagingLinkTrainEnd, if_neg (by simp [up]), if_neg (by simp [bring])]
  simp only [present, Bool.true_and, bne_iff_ne.mpr width, Bool.not_true, Bool.false_eq_true, if_false, if_true]
  have same : (if (moduleFound s m).fh.retests.contains (4, 28, 0x24) then
      retestEnd (moduleFound s m) 4 28 0x24 (moduleFoundAs m == 1) else moduleFound s m) = moduleFound s m :=
    if_neg (by rw [moduleFound_fh, noRetest]; decide)
  exact congrArg (fun u => Host.Outcome.next (if moduleFoundAs m = 4 then ev u F.CKP_EVENT_FOREIGN 0 else u)) same

end Staging

/-! ### Automatic saves (R365) -/

section AutoSaves

variable {s : State}

theorem exec_autoSaveStart_idle (idle : s.ckp.pendingAuto = false ∨ ckpBusy s = true) : exec .autoSaveStart s = .next s :=
  if_pos (by rcases idle with none | busy <;> simp [*])

/-- A pending automatic save is taken up. -/
def autoSaveTaken (s : State) : State := wf { s with ckp := { s.ckp with pendingAuto := false } } F.CKP_STATUS_PENDING 0 0

theorem autoSaveTaken_facts (s : State) : moduleState (autoSaveTaken s) = moduleState s ∧
    ∀ f : Fld, f.key 0 ≠ regKey .ckp 0 8 → rf (autoSaveTaken s) f 0 = rf s f 0 :=
  ⟨(rf_wf_disj _ F.CKP_STATUS_PENDING F.CKP_STATUS_MODULE 0 0 0 rfl (by decide) (by decide) (by decide)).trans (rf_withCkp s _ F.CKP_STATUS_MODULE 0),
    fun f other => (rf_wf_ne _ F.CKP_STATUS_PENDING f 0 0 0 other).trans (rf_withCkp s _ f 0)⟩

theorem exec_autoSaveStart (pending : s.ckp.pendingAuto = true) (idle : ckpBusy s = false) (on : rb s F.CKP_CTRL_EN 0 = true)
    (ready : moduleState s = 1) (first : s.ckp.lastSave = none) :
    exec .autoSaveStart s =
      .next (ckpSave (autoSaveTaken s) (List.replicate 64 0) (rf2 s F.CKP_PLAN_LO_ADDR F.CKP_PLAN_HI_ADDR 0)) := by
  obtain ⟨module, same⟩ := autoSaveTaken_facts s
  have enabled : rb (autoSaveTaken s) F.CKP_CTRL_EN 0 = true := by
    rw [rb, same F.CKP_CTRL_EN (regKey_off_ne .ckp 0 (by decide))]
    exact on
  have plan : rf2 (autoSaveTaken s) F.CKP_PLAN_LO_ADDR F.CKP_PLAN_HI_ADDR 0 = rf2 s F.CKP_PLAN_LO_ADDR F.CKP_PLAN_HI_ADDR 0 := by
    rw [rf2, same F.CKP_PLAN_LO_ADDR (regKey_off_ne .ckp 0 (by decide)), same F.CKP_PLAN_HI_ADDR (regKey_off_ne .ckp 0 (by decide)), ← rf2]
  rw [← plan]
  rw [autoSaveTaken] at *
  show execAutoSaveStart s = _
  rw [execAutoSaveStart, first, if_neg (by simp [pending, idle])]
  dsimp only
  rw [if_neg (by simp [enabled]), if_neg (by simp [module, ready])]

end AutoSaves

/-- Settles O51: one equation per event of the engine, and the fields that ending a command leaves. -/
theorem checkpointEngineRuns : Obligations.CheckpointEngineRuns := by
  unfold Obligations.CheckpointEngineRuns
  refine ⟨fun req s landing => (ckp_lands landing).trans (congrArg _ (ckpCmd_abort s)),
    fun req s landing => (ckp_lands landing).trans (congrArg _ (ckpCmd_reset s)),
    fun s idle => ckpAbort_idle idle 10, fun s reason busy => ?aborted,
    fun s capturing open_ save => ⟨exec_captureEnd_hold capturing open_ save, fun snap => ?snap⟩, fun c status data s outstanding => ?nvme,
    fun s => ?down, fun c off data s up outstanding sram low high fits =>
      ⟨exec_stagingInbound_write up outstanding sram low high fits, exec_stagingInbound_read up outstanding sram low high fits⟩,
    fun w addr len data s up outside => exec_stagingInbound_outside up outside w len data, fun s => exec_autoSaveStart_idle,
    fun s pending idle on ready first => ⟨_, rfl, exec_autoSaveStart pending idle on ready first⟩,
    fun m s up bring noRetest present width => ?trained⟩
  case aborted =>
    obtain ⟨u, aborted⟩ := ckpAbort_busy busy reason
    obtain ⟨script, nvme, holding, idle, released⟩ := ckpReleased_facts u
    obtain ⟨engine, sameBusy, sameHolding, reported, why⟩ := abortReported_facts (ckpReleased u) reason
    rw [aborted]
    refine ⟨_, rfl, ?_, ?_, ?_, sameBusy.trans idle, sameHolding.trans released, reported, why⟩ <;> rw [engine] <;> assumption
  case snap =>
    intro t
    rw [exec_captureEnd_snap capturing open_ save snap]
    exact ⟨fun faulted => if_pos faulted, fun clean => if_neg (by rw [clean]; decide)⟩
  case nvme =>
    refine ⟨fun error => ?_, ?_, ?_, fun id other => ⟨?_, ?_⟩⟩
    · rw [exec_nvmeCompletion outstanding, if_neg (not_not_intro rfl), if_pos error]
    · rw [exec_nvmeCompletion outstanding, if_neg (not_not_intro rfl), if_neg (not_not_intro rfl)]
    · rw [exec_nvmeTimeout outstanding, if_pos rfl]
    · rw [exec_nvmeCompletion outstanding, if_pos other.symm]
    · rw [exec_nvmeTimeout outstanding, if_neg other.symm]
  case down =>
    obtain ⟨engine, width, rate⟩ := linkShown_facts (ckpAbort s 10) 0 0
    refine ⟨_, exec_stagingLinkDown s, (rf_withCkp (linkShown _ 0 0) _ F.CKP_STATUS_WIDTH 0).trans width,
      (rf_withCkp (linkShown _ 0 0) _ F.CKP_STATUS_RATE 0).trans rate, rfl, ?_⟩
    rw [engine]
  case trained =>
    obtain ⟨engine, state⟩ := moduleFound_facts s m
    rw [exec_stagingLinkTrainEnd up bring noRetest present width]
    refine ⟨_, rfl, ?_, fun no4k => ?_, fun has4k own => ?_, fun has4k foreign => ?_⟩
    · split
      · exact (onlyEvents_ckp (onlyEvents_field _ F.CKP_EVENT_FOREIGN 0)).trans engine
      · exact engine
    · have as : moduleFoundAs m = 3 := by simp [moduleFoundAs, no4k]
      rw [if_neg (by omega), state, as]
    · have as : moduleFoundAs m = 1 := by simp [moduleFoundAs, has4k, own]
      rw [if_neg (by omega), state, as]
    · have as : moduleFoundAs m = 4 := by simp [moduleFoundAs, has4k, foreign]
      rw [if_pos as]
      refine ⟨?_, rf_ev_same _ F.CKP_EVENT_FOREIGN 0 (by decide) (by decide)⟩
      rw [rf_ev_ne _ F.CKP_EVENT_FOREIGN F.CKP_STATUS_MODULE 0 0 (regKey_off_ne .ckp 0 (by decide)), state, as]

end Sys2Proof.Proofs
end

section
/-! PROOFS. The statements of chapter 17, "Faults and test": hangs, fault history and its commands. -/

namespace Sys2Proof.Proofs

open Sys2Proof Sys2Proof.Machine Sys2Proof.Safety Sys2Proof.Laws

/-! ### The progress watch (R375 to R377) -/

theorem rf_withFh (s : State) (x : FaultSt) (f : Fld) (i : Nat) : rf { s with fh := x } f i = rf s f i := rf_with rfl rfl f i

theorem memoryKept_withFh {s t : State} (kept : memoryKept s t) (x : FaultSt) : memoryKept s { t with fh := x } := kept

section Hangs
variable {s : State}

theorem hang_core {g w : Nat} (up : hubUp s = true) (window : coreWindow s g = some w) :
    execHang 1 g s = if g < 260 ∧ coreWatched s g ∧ corePending s g ∧ ¬ coreHung s g then .next (coreHang s g w) else .next s := by
  unfold execHang
  simp only [up, window, Bool.not_true, Bool.false_eq_true, if_false, if_true]

theorem hang_core_raised {g w : Nat} (up : hubUp s = true) (window : coreWindow s g = some w) (core : g < 260) (watched : coreWatched s g = true)
    (waits : corePending s g = true) (fresh : coreHung s g = false) : execHang 1 g s = .next (coreHang s g w) :=
  (hang_core up window).trans (if_pos ⟨core, watched, waits, by rw [fresh]; exact Bool.false_ne_true⟩)

theorem hang_core_quiet {g w : Nat} (up : hubUp s = true) (window : coreWindow s g = some w) (quiet : corePending s g = false ∨ coreHung s g = true) :
    execHang 1 g s = .next s := by
  refine (hang_core up window).trans (if_neg fun ⟨_, _, waits, fresh⟩ => ?_)
  rcases quiet with idle | hung
  · exact absurd (idle.symm.trans waits) Bool.false_ne_true
  · exact fresh hung

/-- The counter that a port's watch compares (R375). -/
def portMark (s : State) (n : Nat) : Nat := rf2 s F.FAB_P_TX_FLITS_LO_COUNT F.FAB_P_TX_FLITS_HI_COUNT n

theorem hang_port {n : Nat} (up : hubUp s = true) :
    execHang 4 n s = if n < 24 ∧ rf s F.FH_WIN_PORT_MS 0 ≠ 0 ∧ lstate s n = 3 ∧ portWaits s n ∧ hungAt s 4 n ≠ some (portMark s n) then
      .next (portHang s n (portMark s n)) else .next s := by
  unfold execHang portMark
  simp only [up, Bool.not_true, Bool.false_eq_true, if_false, if_true, Nat.reduceEqDiff]

theorem hang_group {p g : Nat} {r : LineReq} {rest : List LineReq} (up : hubUp s = true) (part : p < 20) (group : g < 16)
    (waits : groupMisses s p g = r :: rest) (window : rf s F.FH_WIN_CHGRP_MS 0 ≠ 0) (awake : pstate s p = 0) (out : inReset s p = false)
    (fresh : hungAt s 5 (16 * p + g) ≠ some r.addr) : execHang 5 (16 * p + g) s = .next (groupHang s p g r.addr) := by
  have part_eq : (16 * p + g) / 16 = p := by omega
  have group_eq : (16 * p + g) % 16 = g := by omega
  unfold execHang
  simp only [up, part_eq, group_eq, waits, Bool.not_true, Bool.false_eq_true, if_false, if_true, Nat.reduceEqDiff]
  exact if_pos ⟨part, window, awake, by rw [out]; exact Bool.false_ne_true, fresh⟩

end Hangs

/-! ### Events that age out (R383) -/

section AgeOut
variable {s : State} {k i g : Nat}

/-- Is an event one of a signature on a unit? -/
def eventOf (k i g : Nat) (e : FhEvent) : Bool := e.kind == k && e.index == i && e.sig == g

/-- The events of a signature on a unit are forgotten, and counted as transient. -/
def agedOut (s : State) (k i g : Nat) : State :=
  wf { s with fh := { s.fh with events := s.fh.events.filter fun e => !eventOf k i g e } } F.FH_STATUS_TRANSIENTS 0
    (min 0xFFFF (rf s F.FH_STATUS_TRANSIENTS 0 + 1))

theorem eventAgeOut_reports (up : hubUp s = true) (counted : (s.fh.events.filter (eventOf k i g)).any (·.counted) = true)
    (old : (s.fh.events.filter (eventOf k i g)).all (fun e => decide (e.at_ + 604800 ≤ operS s)) = true)
    (open_ : s.fh.verdicts.any (fun v => v.kind == k && v.index == i && v.sig == g) = false) :
    execEventAgeOut k i g s = .next (cperPush (ev (agedOut s k i g) F.FH_EVENT_TRANSIENT 0) k i g 1 CperInfo.plain) :=
  if_pos ⟨up, counted, old, by rw [open_]; exact Bool.false_ne_true⟩

theorem events_counted (one : ∃ e ∈ s.fh.events, eventOf k i g e = true ∧ e.counted = true) :
    (s.fh.events.filter (eventOf k i g)).any (·.counted) = true := by
  obtain ⟨e, known, mine, counted⟩ := one
  exact List.any_eq_true.mpr ⟨e, List.mem_filter.mpr ⟨known, mine⟩, counted⟩

theorem events_old (each : ∀ e ∈ s.fh.events, eventOf k i g e = true → e.at_ + 604800 ≤ operS s) :
    (s.fh.events.filter (eventOf k i g)).all (fun e => decide (e.at_ + 604800 ≤ operS s)) = true := by
  refine List.all_eq_true.mpr fun e held => ?_
  obtain ⟨known, mine⟩ := List.mem_filter.mp held
  exact decide_eq_true (each e known mine)

theorem verdicts_none (none_ : ∀ v ∈ s.fh.verdicts, ¬ (v.kind = k ∧ v.index = i ∧ v.sig = g)) :
    s.fh.verdicts.any (fun v => v.kind == k && v.index == i && v.sig == g) = false := by
  refine List.any_eq_false.mpr fun v known mine => none_ v known ?_
  simpa [and_assoc] using mine

end AgeOut

/-! ### The commands of FH_CMD (R384, R385, R397, R399) -/

section Commands
variable {s : State} {req : Requester}

theorem exportAck_facts (s : State) :
    (rf s F.FH_CPER_HEAD_HEAD 0 = rf s F.FH_CPER_TAIL_TAIL 0 → rf (exportAck s) F.FH_CPER_HEAD_HEAD 0 = rf s F.FH_CPER_HEAD_HEAD 0) ∧
    (rf s F.FH_CPER_HEAD_HEAD 0 ≠ rf s F.FH_CPER_TAIL_TAIL 0 →
      rf (exportAck s) F.FH_CPER_HEAD_HEAD 0 = (rf s F.FH_CPER_HEAD_HEAD 0 + 1) % 2 ^ 32) ∧
    (exportAck s).fh.verdicts = s.fh.verdicts ∧ memoryKept s (exportAck s) := by
  unfold exportAck
  dsimp only
  split
  next empty => exact ⟨fun _ => rfl, fun waits => absurd empty waits, rfl, rfl, fun _ => rfl⟩
  next waits =>
    have frame := onlyRegs_field s F.FH_CPER_HEAD_HEAD 0 (rf s F.FH_CPER_HEAD_HEAD 0 + 1)
    refine ⟨fun empty => absurd empty waits, fun _ => ?_, congrArg FaultSt.verdicts (onlyRegs_fh frame), memoryKept_withFh (memoryKept_onlyRegs frame) _⟩
    exact (rf_withFh (wf s F.FH_CPER_HEAD_HEAD 0 _) _ F.FH_CPER_HEAD_HEAD 0).trans (rf_wf_same s F.FH_CPER_HEAD_HEAD 0 _ (by decide) (by decide))

theorem clearVerdict_lands (landing : lands s req .fh 0 0x1C 4 [0]) (allowed : clearAllowed s req = true) :
    fhCmdWrite req 0 4 s = .next (fhCmdEffect 4 s) := by
  refine (if_neg fun ⟨_, _, barred⟩ => barred allowed).trans ?_
  exact (regCmd_lands landing fun _ _ u => fhCmdEffect 4 u).trans (congrArg _ (congrArg _ (pulse_any (by decide) rfl 0 4)))

theorem clearVerdict_barred (up : hubUp s = true) (barred : clearAllowed s req = false) :
    fhCmdWrite req 0 4 s = .next (accFault s 7 req.id (winOff .fh 0 0x1C)) :=
  if_pos ⟨up, by decide, by rw [barred]; exact Bool.false_ne_true⟩

theorem clearUnit_facts (u : Nat × Nat) (s : State) : (clearUnit s u).fh.verdicts = s.fh.verdicts ∧ u ∈ (clearUnit s u).fh.clearing := by
  unfold clearUnit
  split
  next waits => exact ⟨rfl, List.contains_iff_mem.mp waits⟩
  next => exact ⟨rfl, List.mem_append_right _ (List.mem_singleton.mpr rfl)⟩

end Commands

/-! ### Records and the digest (R386, R397) -/

section Records
variable {s : State}

theorem cperSend_idle (all : ∀ e ∈ s.fh.cper, e.2.sent = true) : execCperSend s = .next s := by
  have none_ : s.fh.cper.find? (fun e => !e.2.sent) = none := List.find?_eq_none.mpr fun e known => by simp [all e known]
  unfold execCperSend
  rw [none_]

/-- The record numbered `n`, with its bytes `body`, has gone to the management layer. -/
def recordSent (s : State) (n : Nat) (body : List Byte) : State :=
  { s with
    fh := { s.fh with cper := s.fh.cper.map fun (e : Nat × Cper) => if e.1 = n then (e.1, e.2.asSent) else e }
    sec := { s.sec with reports := s.sec.reports ++ [body] } }

theorem cperSend_takes {r : Nat × Cper} (oldest : s.fh.cper.find? (fun e => !e.2.sent) = some r) :
    execCperSend s = .next { recordSent s r.1 r.2.body with
      fh := { (recordSent s r.1 r.2.body).fh with cper := cperKept (recordSent s r.1 r.2.body) } } := by
  unfold execCperSend
  rw [oldest]
  rfl

/-- FH_DIGEST shows the digest `d`. -/
def digestShown (s : State) (d : List Byte) : State := (List.range 8).foldl (fun s n => wf s (F.FH_DIGEST_DIGEST.nth n) 0 (fieldLE (4 * n) 4 d)) s

theorem digestShown_fh (s : State) (d : List Byte) : (digestShown s d).fh = s.fh :=
  onlyRegs_fh (foldl_wf_rel ((List.range 8).map fun n => (F.FH_DIGEST_DIGEST.nth n).key 0) F.FH_DIGEST_DIGEST.nth _ 0 _ s
    fun n known => List.mem_map.mpr ⟨n, known, rfl⟩)

/-- Words written one after the other to the registers of an array each read as the value they were given. -/
theorem foldl_nth_reads (f : Fld) (v : Nat → Nat) (i : Nat) (stride : 0 < f.stride) (order : f.lo ≤ f.hi) (width : f.hi < 32)
    {n : Nat} (l : List Nat) (s : State) (distinct : l.Nodup) (known : n ∈ l) :
    rf (l.foldl (fun s n => wf s (f.nth n) i (v n)) s) (f.nth n) i = v n % 2 ^ (f.hi + 1 - f.lo) := by
  induction l generalizing s with
  | nil => cases known
  | cons a l ih =>
    obtain ⟨fresh, rest⟩ := List.nodup_cons.mp distinct
    by_cases later : n ∈ l
    · exact ih _ rest later
    · obtain rfl : n = a := (List.mem_cons.mp known).resolve_right later
      have others := foldl_wf_rel (l.map fun m => (f.nth m).key i) f.nth v i l (wf s (f.nth n) i (v n)) fun m held => List.mem_map.mpr ⟨m, held, rfl⟩
      have apart : (f.nth n).key i ∉ l.map fun m => (f.nth m).key i := fun held => by
        obtain ⟨m, listed, same⟩ := List.mem_map.mp held
        exact nth_key_ne f i stride (fun e : m = n => fresh (e ▸ listed)) same
      exact (rf_same (others.1 _ apart)).trans (rf_wf_same s (f.nth n) i (v n) order width)

theorem digestShown_reads (s : State) (d : List Byte) {n : Nat} (word : n < 8) :
    rf (digestShown s d) (F.FH_DIGEST_DIGEST.nth n) 0 = fieldLE (4 * n) 4 d :=
  (foldl_nth_reads F.FH_DIGEST_DIGEST (fun n => fieldLE (4 * n) 4 d) 0 (by decide) (by decide) (by decide) (List.range 8) s List.nodup_range
    (List.mem_range.mpr word)).trans (Nat.mod_eq_of_lt (fieldLE_lt _ _ _))

/-- FH_DIGEST shows the digest `d`, which is no longer stale. -/
def digestFresh (s : State) (d : List Byte) : State := { digestShown s d with fh := { (digestShown s d).fh with digestStale := false } }

theorem digestFresh_facts (s : State) (d : List Byte) :
    (∀ {n}, n < 8 → rf (digestFresh s d) (F.FH_DIGEST_DIGEST.nth n) 0 = fieldLE (4 * n) 4 d) ∧
    (digestFresh s d).fh = { s.fh with digestStale := false } :=
  ⟨fun {n} word => (rf_withFh (digestShown s d) _ (F.FH_DIGEST_DIGEST.nth n) 0).trans (digestShown_reads s d word),
    congrArg (fun x : FaultSt => { x with digestStale := false }) (digestShown_fh s d)⟩

end Records

/-- Settles O52: the watch, the age-out and the commands of FH_CMD are followed branch by branch; the digest's words are read back from the
words written one after the other. -/
theorem faultHistoryActs : Obligations.FaultHistoryActs := by
  unfold Obligations.FaultHistoryActs
  refine ⟨fun g w s up window => ⟨hang_core_raised up window, hang_core_quiet up window⟩, ?port,
    fun p g r rest s up part group waits window awake out fresh => hang_group up part group waits window awake out fresh, ?aged, ?ack,
    fun req s landing => fhCmd_lands landing (by decide), fun req s landing => fhCmd_lands landing (by decide),
    fun req s => ⟨clearVerdict_lands, clearVerdict_barred⟩, clearUnit_facts, fun s => cperSend_idle, ?send,
    fun s fresh => if_neg (by rw [fresh]; exact Bool.false_ne_true), ?digest, ?second⟩
  case port =>
    intro n s up port window trained waits mark
    exact ⟨fun fresh => (hang_port up).trans (if_pos ⟨port, window, trained, waits, fresh⟩),
      fun hung => (hang_port up).trans (if_neg fun ⟨_, _, _, _, fresh⟩ => fresh hung)⟩
  case aged =>
    intro k i g s up mine counted old open_
    exact ⟨agedOut s k i g, rfl, eventAgeOut_reports up (events_counted counted) (events_old old) (verdicts_none open_)⟩
  case ack => exact fun req s landing => ⟨exportAck s, fhCmd_lands landing (by decide), exportAck_facts s⟩
  case send =>
    intro r s oldest
    exact ⟨_, cperSend_takes oldest, rfl, rfl, rfl, fun _ => rfl⟩
  case digest =>
    intro s stale
    exact ⟨digestFresh s (sha3 (verdictBytes s)), fun n word => (digestFresh_facts s _).1 word, (digestFresh_facts s _).2, if_pos stale⟩
  case second =>
    intro s up
    exact ⟨_, if_pos up, (rf_wf_same s F.FH_OPER_S_SECONDS 0 _ (by decide) (by decide)).trans (Nat.mod_mod _ _), onlyRegs_field s F.FH_OPER_S_SECONDS 0 _⟩

end Sys2Proof.Proofs
end

section
/-! PROOFS. The statements of chapter 17, "Faults and test": windows, patterns, sweeps and packages of in-service test. -/

namespace Sys2Proof.Proofs

open Sys2Proof Sys2Proof.Machine Sys2Proof.Safety Sys2Proof.Laws

/-! ### Test windows (R389) -/

section Windows
variable {s : State} {g : Nat}

theorem windowOpen_opens (up : hubUp s = true) (may : windowOpens s g = true) :
    execIstWindowOpen g s = .next { packageTurn s with ist := { (packageTurn s).ist with windows := (packageTurn s).ist.windows ++ [g] } } := by
  unfold execIstWindowOpen
  simp only [up, may, Bool.not_true, Bool.false_eq_true, if_false, if_true]

theorem windowOpen_stays (up : hubUp s = true) (barred : windowOpens s g = false) : execIstWindowOpen g s = .next s := by
  unfold execIstWindowOpen
  simp only [up, barred, Bool.not_true, Bool.false_eq_true, if_false]

theorem bumpIf_ist (s : State) (en lo : Fld) (i n : Nat) : (bumpIf s en lo i n).ist = s.ist := onlyRegs_ist (bumpIf_rel s en lo i n)

theorem memoryKept_bumpIf (s : State) (en lo : Fld) (i n : Nat) : memoryKept s (bumpIf s en lo i n) := memoryKept_onlyRegs (bumpIf_rel s en lo i n)

theorem preempt_closes {d : Nat} (window : g ∈ s.ist.windows) (work : corePending s g = true) (soon : d ≤ 128) :
    execIstPreempt g d s = .next (bumpIf (windowClose s g) F.IST_CTRL_CNT_EN F.IST_PREEMPT_CYC_LO_COUNT 0 d) :=
  if_pos ⟨List.contains_iff_mem.mpr window, work, soon⟩

theorem preempt_facts (s : State) (g d : Nat) :
    (bumpIf (windowClose s g) F.IST_CTRL_CNT_EN F.IST_PREEMPT_CYC_LO_COUNT 0 d).ist.windows = s.ist.windows.filter (· != g) ∧
    memoryKept s (bumpIf (windowClose s g) F.IST_CTRL_CNT_EN F.IST_PREEMPT_CYC_LO_COUNT 0 d) := by
  refine ⟨?_, ?_⟩
  · rw [bumpIf_ist]
    rfl
  · have closed : memoryKept s (windowClose s g) := ⟨rfl, fun _ => rfl⟩
    have counted := memoryKept_bumpIf (windowClose s g) F.IST_CTRL_CNT_EN F.IST_PREEMPT_CYC_LO_COUNT 0 d
    exact ⟨counted.1.trans closed.1, fun c => (counted.2 c).trans (closed.2 c)⟩

end Windows

/-! ### Patterns (R388 to R390) -/

section Patterns
variable {s : State} {g k n x y : Nat}

/-- The cycles of a pattern are counted. -/
def cyclesCounted (s : State) (n : Nat) : State := bumpIf s F.IST_CTRL_CNT_EN F.IST_CYC_LO_COUNT 0 n

/-- A window closes with its pattern, whose time counts against the core's budget. -/
def windowSpent (s : State) (g n : Nat) : State :=
  { windowClose s g with ist := { (windowClose s g).ist with
      spent := (s.ist.spent.filter fun e => decide (s.time.now < e.2.1 + 10 ^ 9)) ++ [(g, s.time.now, ceilDiv (n * 10) 7)] } }

/-- A core forgets the patterns that it has passed. -/
def passesGone (s : State) (g : Nat) : State := { s with ist := { s.ist with passed := adel s.ist.passed g } }

/-- Every queued pattern-set retest of a core fails, and with them the core's test. -/
def patternFail (s : State) (g k x y : Nat) : State :=
  istFail ((patternRetests (passesGone s g) g).foldl (fun s sig => retestEnd s 1 g sig false) (passesGone s g)) g k x y true

theorem patternDone_sweep (outside : g ∉ s.ist.windows) (swept : g ∈ s.ist.sweep) (known : k < patternCount s) :
    execIstPatternDone g k n x y s = if x = y then .next (patternPass (cyclesCounted s n) g k) else .next (patternFail (cyclesCounted s n) g k x y) := by
  have closed : s.ist.windows.contains g = false := by simpa using outside
  have sweeps : s.ist.sweep.contains g = true := List.contains_iff_mem.mpr swept
  unfold execIstPatternDone
  simp only [closed, sweeps, known, decide_true, Bool.false_or, Bool.and_true, if_true, Bool.false_eq_true, if_false]
  rfl

theorem patternDone_window (window : g ∈ s.ist.windows) (known : k < patternCount s) :
    execIstPatternDone g k n x x s = .next (patternPass (windowSpent (cyclesCounted s n) g n) g k) := by
  have opened : s.ist.windows.contains g = true := List.contains_iff_mem.mpr window
  unfold execIstPatternDone
  simp only [opened, known, decide_true, Bool.true_or, Bool.and_true, if_true]
  rfl

theorem windowSpent_facts (s : State) (g n : Nat) : (windowSpent (cyclesCounted s n) g n).ist.windows = s.ist.windows.filter (· != g) ∧
    (g, s.time.now, ceilDiv (n * 10) 7) ∈ (windowSpent (cyclesCounted s n) g n).ist.spent := by
  have tests : (cyclesCounted s n).ist = s.ist := bumpIf_ist s _ _ 0 n
  have clock : (cyclesCounted s n).time = s.time := onlyRegs_time (bumpIf_rel s F.IST_CTRL_CNT_EN F.IST_CYC_LO_COUNT 0 n)
  refine ⟨congrArg (fun t : TestSt => t.windows.filter (· != g)) tests, List.mem_append_right _ (List.mem_singleton.mpr ?_)⟩
  rw [clock]

end Patterns

/-! ### Sweeps (R391, R400) -/

section Sweeps
variable {s : State}

theorem sweepStart_refused (barred : (∃ t ∈ s.sr.steps, t.state = 1 ∨ t.state = 2) ∨ rb s F.IST_CTRL_EN 0 = false) :
    sweepStart s = ev s F.IST_EVENT_SWEEP_REFUSED 0 := by
  refine if_pos (barred.imp (fun ⟨t, known, busy⟩ => List.any_eq_true.mpr ⟨t, known, by simpa using busy⟩) fun off => ?_)
  rw [off]
  exact Bool.false_ne_true

/-- Every core that works or stands by is swept. -/
def sweepSet (s : State) : State := { s with ist := { s.ist with sweep := sweepCores s, windows := [], passed := [] } }

theorem sweepStart_runs (quiet : ∀ t ∈ s.sr.steps, t.state ≠ 1 ∧ t.state ≠ 2) (enabled : rb s F.IST_CTRL_EN 0 = true) :
    sweepStart s = wf (sweepSet (packageTurn s)) F.IST_STATUS_SWEEPING 0 1 := by
  refine if_neg fun barred => barred.elim (fun busy => ?_) fun off => off enabled
  obtain ⟨t, known, open_⟩ := List.any_eq_true.mp busy
  simp [quiet t known] at open_

theorem sweepShown_facts (s : State) : rf (wf (sweepSet s) F.IST_STATUS_SWEEPING 0 1) F.IST_STATUS_SWEEPING 0 = 1 ∧
    (wf (sweepSet s) F.IST_STATUS_SWEEPING 0 1).ist.sweep = sweepCores s ∧ (wf (sweepSet s) F.IST_STATUS_SWEEPING 0 1).ist.windows = [] := by
  have tests := onlyRegs_ist (onlyRegs_field (sweepSet s) F.IST_STATUS_SWEEPING 0 1)
  exact ⟨rf_wf_same _ F.IST_STATUS_SWEEPING 0 1 (by decide) (by decide), congrArg TestSt.sweep tests, congrArg TestSt.windows tests⟩

theorem memoryKept_sweepStop (s : State) : memoryKept s (sweepStop s) := by
  obtain ⟨_, _, parts, cores⟩ := sweepStop_facts s
  exact ⟨parts, fun g => by rw [getCore_with cores]⟩

theorem sweepEnded_facts (s : State) : (ev (sweepStop s) F.IST_EVENT_SWEEP_DONE 0).ist.sweep = [] ∧
    rf (ev (sweepStop s) F.IST_EVENT_SWEEP_DONE 0) F.IST_STATUS_SWEEPING 0 = 0 ∧
    rf (ev (sweepStop s) F.IST_EVENT_SWEEP_DONE 0) F.IST_EVENT_SWEEP_DONE 0 = 1 ∧ memoryKept s (ev (sweepStop s) F.IST_EVENT_SWEEP_DONE 0) := by
  obtain ⟨sweep, sweeping, _, _⟩ := sweepStop_facts s
  have kept := memoryKept_sweepStop s
  have frame := onlyEvents_field (sweepStop s) F.IST_EVENT_SWEEP_DONE 0
  refine ⟨(congrArg TestSt.sweep (onlyEvents_ist frame)).trans sweep, ?_, rf_ev_same _ F.IST_EVENT_SWEEP_DONE 0 (by decide) (by decide), ?_⟩
  · exact (rf_ev_ne _ F.IST_EVENT_SWEEP_DONE F.IST_STATUS_SWEEPING 0 0 (regKey_off_ne .ist 0 (by decide))).trans sweeping
  · exact ⟨(onlyEvents_parts frame).trans kept.1, fun g => by rw [getCore_with (onlyEvents_cores frame)]; exact kept.2 g⟩

end Sweeps

/-! ### Test packages (R392) -/

section Packages
variable {s : State} {l : List Byte}

/-- The version of the active package. -/
def activeVersion (s : State) : Nat := (((s.ist.active.bind fun i => s.ist.slots.getD i none)).map (·.ver)).getD 0

theorem testPackage_none (up : hubUp s = true) (bad : packageOf l = none) : execTestPackage l s = .next (ev s F.IST_EVENT_PKG_REFUSED 0) := by
  unfold execTestPackage
  simp only [up, bad, Bool.not_true, Bool.false_eq_true, if_false]

theorem testPackage_some {p : Package} (up : hubUp s = true) (good : packageOf l = some p) :
    execTestPackage l s = if activeVersion s < p.ver ∧ p.minFw ≤ coreVersion s then
      .next { s with ist := { s.ist with slots := s.ist.slots.set (if s.ist.active = some 0 then 1 else 0) (some p), staged := true } }
    else .next (ev s F.IST_EVENT_PKG_REFUSED 0) := by
  unfold execTestPackage
  simp only [up, good, Bool.not_true, Bool.false_eq_true, if_false]
  rfl

end Packages

/-- Settles O53: each command is followed branch by branch, and what it leaves is read off the state that it answers. -/
theorem testsRun : Obligations.TestsRun := by
  unfold Obligations.TestsRun
  refine ⟨fun g s up => ⟨fun may => ⟨packageTurn s, rfl, windowOpen_opens up may⟩, windowOpen_stays up⟩,
    fun g d s window work soon => ⟨_, preempt_closes window work soon, preempt_facts s g d⟩, ?sweep, ?window, ?start, ?abort, ?done, ?package⟩
  case sweep =>
    intro g k n x y s outside swept known u
    refine ⟨(patternDone_sweep outside swept known).trans (if_pos rfl), fun differ => ⟨passesGone u g, rfl, ?_⟩⟩
    exact (patternDone_sweep outside swept known).trans (if_neg differ)
  case window =>
    intro g k n x s window known
    exact ⟨_, patternDone_window window known, windowSpent_facts s g n⟩
  case start =>
    intro req s landing
    refine ⟨fun barred => (ist_lands landing).trans (congrArg _ (sweepStart_refused barred)), fun quiet enabled => ?_⟩
    exact ⟨_, (ist_lands landing).trans (congrArg _ (sweepStart_runs quiet enabled)), sweepShown_facts (packageTurn s)⟩
  case abort =>
    intro req s landing
    obtain ⟨sweep, sweeping, _, _⟩ := sweepStop_facts s
    exact ⟨sweepStop s, ist_lands landing, sweep, sweeping, memoryKept_sweepStop s⟩
  case done =>
    exact fun s => ⟨fun runs => ⟨_, if_pos runs, sweepEnded_facts s⟩, fun idle => if_neg (by rw [idle]; exact Bool.false_ne_true)⟩
  case package =>
    refine fun l s up => ⟨testPackage_none up, fun p good => ?_⟩
    intro now
    refine ⟨fun old => (testPackage_some up good).trans (if_neg fun ⟨newer, runs⟩ => ?_),
      fun newer runs => (testPackage_some up good).trans (if_pos ⟨newer, runs⟩)⟩
    rcases old with old | early
    · exact absurd newer (Nat.not_lt.mpr old)
    · exact absurd runs (Nat.not_le.mpr early)

end Sys2Proof.Proofs
end

section
/-! PROOFS. The statements of chapter 18, "Time and telemetry": the time base, its synchronisation, ledger records and snapshots. -/

namespace Sys2Proof.Proofs

open Sys2Proof Sys2Proof.Machine Sys2Proof.Safety Sys2Proof.Laws

/-! ### The tick (R401, R405) -/

section Ticks
variable {s : State}

/-- Steps of `per` that first reach `left` pass it by less than one step. -/
theorem steps_reach {left per : Int} (step : 0 < per) : left ≤ (left + per - 1) / per * per ∧ (left + per - 1) / per * per < left + per := by
  have below := Int.ediv_mul_le (left + per - 1) (Int.ne_of_gt step)
  have above := Int.lt_ediv_add_one_mul_self (left + per - 1) step
  rw [Int.add_mul, Int.one_mul] at above
  omega

/-- Time in parts of 14 · 10^9 of a nanosecond that a register cycle adds at the rate correction of TIME_ADJ. -/
def cycleStep (s : State) : Int := 40 * (10 ^ 9 + sext 32 (rf s F.TIME_ADJ_ADJ 0))

/-- Time that is left of the tick, in the same parts. -/
def tickLeft (s : State) : Int := ((tick s + 1) * 1000 - s.time.now : Nat) * (14 * 10 ^ 9) - s.time.acc

theorem cyclesToTick_eq (s : State) : cyclesToTick s = ((tickLeft s + cycleStep s - 1) / cycleStep s).toNat := rfl

theorem runClock_now (s : State) (n : Nat) : (runClock s n).time.now =
    (s.time.now + (((s.time.acc : Int) + n * cycleStep s) / ((14 * 10 ^ 9 : Nat) : Int)).toNat) % 2 ^ 64 := by
  rw [cycleStep, ← Int.mul_assoc]
  rfl

theorem tick_reached (part : s.time.acc < 14 * 10 ^ 9) (far : s.time.now < 2 ^ 64 - 2000) (least : -100000 ≤ sext 32 (rf s F.TIME_ADJ_ADJ 0))
    (most : sext 32 (rf s F.TIME_ADJ_ADJ 0) ≤ 100000) : tick (runClock s (cyclesToTick s)) = tick s + 1 := by
  have step : 0 < cycleStep s ∧ cycleStep s < 42 * 10 ^ 9 := by unfold cycleStep; omega
  have left : 0 < tickLeft s := by unfold tickLeft tick; omega
  obtain ⟨reached, before⟩ := steps_reach (left := tickLeft s) step.1
  have cycles : (cyclesToTick s : Int) = (tickLeft s + cycleStep s - 1) / cycleStep s := by
    rw [cyclesToTick_eq]
    exact Int.toNat_of_nonneg (Int.ediv_nonneg (by omega) (Int.le_of_lt step.1))
  rw [← cycles] at reached before
  rw [tick, runClock_now]
  generalize (cyclesToTick s : Int) * cycleStep s = passed at reached before ⊢
  unfold tickLeft at reached before
  have whole : (tick s + 1) * 1000 - s.time.now ≤ (((s.time.acc : Int) + passed) / ((14 * 10 ^ 9 : Nat) : Int)).toNat ∧
      (((s.time.acc : Int) + passed) / ((14 * 10 ^ 9 : Nat) : Int)).toNat ≤ (tick s + 1) * 1000 - s.time.now + 2 := by omega
  generalize (((s.time.acc : Int) + passed) / ((14 * 10 ^ 9 : Nat) : Int)).toNat = ns at whole ⊢
  have room : s.time.now + ns < 2 ^ 64 := by unfold tick at whole; omega
  rw [Nat.mod_eq_of_lt room]
  unfold tick at whole ⊢
  omega

theorem ledgerTick_runs (out : s.power.inP3 = false) (root : s.power.root = true) :
    execLedgerTick s = .next (runClock (tickEnd s) (cyclesToTick s)) := by
  unfold execLedgerTick
  simp only [out, root, Bool.not_true, Bool.false_eq_true, if_false]

theorem ledgerTick_stopped (out : s.power.inP3 = false) (root : s.power.root = false) : execLedgerTick s = .next s := by
  unfold execLedgerTick
  simp only [out, root, Bool.not_false, Bool.false_eq_true, if_false, if_true]

end Ticks

/-! ### Steps of the time base (R413) -/

section Steps
variable {s : State}

/-- The time base reads `now`, and the step is reported. -/
def timeStepped (s : State) (now acc : Nat) : State := ev { s with time := { s.time with now := now, acc := acc } } F.TIME_EVENT_STEPPED 0

theorem timeStepped_facts (s : State) (now acc : Nat) : (timeStepped s now acc).time.now = now ∧ (timeStepped s now acc).time.acc = acc ∧
    rf (timeStepped s now acc) F.TIME_EVENT_STEPPED 0 = 1 := by
  have clock : (timeStepped s now acc).time = { s.time with now := now, acc := acc } := onlyEvents_time (onlyEvents_field _ F.TIME_EVENT_STEPPED 0)
  rw [clock]
  exact ⟨rfl, rfl, rf_ev_same _ F.TIME_EVENT_STEPPED 0 (by decide) (by decide)⟩

theorem stepTime_facts (s : State) (now acc : Nat) : (stepTime s now acc).time.now = now ∧ (stepTime s now acc).time.acc = acc ∧
    rf (stepTime s now acc) F.TIME_EVENT_STEPPED 0 = 1 := timeStepped_facts _ now acc

theorem timeSet_lands {req : Requester} {v : Word} (landing : lands (withHolding s req .time 0 0x4C) req .time 0 0x4C v [0]) :
    execTimeSet req v s = .next (timeSetEffect (storeFields (withHolding s req .time 0 0x4C) .time 0 0x4C 0 v)) :=
  regCmd_lands landing fun _ _ u => timeSetEffect u

end Steps

/-! ### Synchronisation (R402, R403) -/

section Exchanges
variable {s : State}

/-- A request has gone out, and its interval passes without an answer so far. -/
def asking (s : State) : State := { s with time := { s.time with asked := some s.time.now, silent := s.time.silent + 1 } }

theorem timeExchange_asks (up : hubUp s = true) (follower : rf s F.TIME_CTRL_ROLE 0 = 2) :
    execTimeExchange s = .next (sendTime (asking s) (rf s F.TIME_CTRL_PARENT_PORT 0)
      (rf s F.FAB_P_NBR_INFO_COORD (rf s F.TIME_CTRL_PARENT_PORT 0)) (timePayload false s.time.now 0 0)) := by
  unfold execTimeExchange
  simp only [up, follower, Bool.not_true, Bool.false_eq_true, if_false, ne_eq, not_true]
  rfl

theorem timeExchange_other (up : hubUp s = true) (other : rf s F.TIME_CTRL_ROLE 0 ≠ 2) : execTimeExchange s = .next s := by
  unfold execTimeExchange
  simp only [up, other, Bool.not_true, Bool.false_eq_true, if_false, ne_eq, not_false_eq_true, if_true]

theorem timeRequest_answered {p : Packet} {n : Nat} (up : hubUp s = true) (toward : portToward s p.src = some n) :
    execTimeRequest p s = .next (sendTime s n p.src (timePayload true (fieldLE 8 8 p.payload) s.time.now s.time.now)) := by
  unfold execTimeRequest timeRequestArrive
  simp only [up, toward, Bool.not_true, Bool.false_eq_true, if_false]

theorem timeResponse_eq {p : Packet} (up : hubUp s = true) : execTimeResponse p s = .next (timeResponseArrive s p) := by
  unfold execTimeResponse
  simp only [up, Bool.not_true, Bool.false_eq_true, if_false]

/-- The last request is answered. -/
def answered (s : State) : State := { s with time := { s.time with asked := none, silent := 0 } }

/-- The offset and the delay of an exchange are shown. -/
def exchangeShown (s : State) (o d : Int) : State := wf (wf s F.TIME_OFFSET_O 0 (sat32 o)) F.TIME_DELAY_DELAY 0 (unsext 32 d)

/-- The answer to the last request gives half of `o2` as the offset and half of `d2` as the delay, each to the nearest integer. -/
def exchangeTaken (s : State) (o2 d2 : Int) : State :=
  let o := roundFree (answered s) o2 2
  let d := roundFree o.1 d2 2
  exchangeShown d.1 o.2 d.2

/-- Twice the offset that a response at `s` gives. -/
def twiceOffset (s : State) (p : Packet) : Int :=
  ((fieldLE 16 8 p.payload : Int) - fieldLE 8 8 p.payload) - ((s.time.now : Int) - fieldLE 24 8 p.payload)

/-- Twice the delay that a response at `s` gives. -/
def twiceDelay (s : State) (p : Packet) : Int :=
  ((s.time.now : Int) - fieldLE 8 8 p.payload) - ((fieldLE 24 8 p.payload : Int) - fieldLE 16 8 p.payload)

theorem timeResponse_taken {p : Packet} (follower : rf s F.TIME_CTRL_ROLE 0 = 2) (asked : s.time.asked = some (fieldLE 8 8 p.payload)) :
    timeResponseArrive s p =
      countExchange (applyOffset (exchangeTaken s (twiceOffset s p) (twiceDelay s p)) (twiceOffset s p)) (twiceOffset s p) :=
  if_neg fun other => other.elim (fun role => role follower) fun last => last asked

theorem exchangeShown_facts (s : State) (o d : Int) : (exchangeShown s o d).time = s.time ∧
    rf (exchangeShown s o d) F.TIME_OFFSET_O 0 = sat32 o % 2 ^ 32 ∧ rf (exchangeShown s o d) F.TIME_DELAY_DELAY 0 = unsext 32 d % 2 ^ 32 := by
  refine ⟨?_, ?_, rf_wf_same _ F.TIME_DELAY_DELAY 0 _ (by decide) (by decide)⟩
  · exact (onlyRegs_time (onlyRegs_field _ F.TIME_DELAY_DELAY 0 _)).trans (onlyRegs_time (onlyRegs_field s F.TIME_OFFSET_O 0 _))
  · exact (rf_wf_ne _ F.TIME_DELAY_DELAY F.TIME_OFFSET_O 0 0 _ (regKey_off_ne .time 0 (by decide))).trans
      (rf_wf_same s F.TIME_OFFSET_O 0 _ (by decide) (by decide))

theorem exchangeTaken_facts (s : State) (o2 d2 : Int) : ∃ o d : Int, (exchangeTaken s o2 d2).time.asked = none ∧
    (exchangeTaken s o2 d2).time.silent = 0 ∧ 2 * o - o2 ≤ 1 ∧ o2 - 2 * o ≤ 1 ∧ 2 * d - d2 ≤ 1 ∧ d2 - 2 * d ≤ 1 ∧
    rf (exchangeTaken s o2 d2) F.TIME_OFFSET_O 0 = sat32 o % 2 ^ 32 ∧ rf (exchangeTaken s o2 d2) F.TIME_DELAY_DELAY 0 = unsext 32 d % 2 ^ 32 := by
  obtain ⟨m, first, offsetAbove, offsetBelow⟩ := roundFree_facts (answered s) o2
  obtain ⟨n, second, delayAbove, delayBelow⟩ := roundFree_facts (roundFree (answered s) o2 2).1 d2
  obtain ⟨clock, offset, delay⟩ := exchangeShown_facts (roundFree (roundFree (answered s) o2 2).1 d2 2).1
    (roundFree (answered s) o2 2).2 (roundFree (roundFree (answered s) o2 2).1 d2 2).2
  have kept : (exchangeTaken s o2 d2).time = (answered s).time :=
    clock.trans ((show _ = (roundFree (answered s) o2 2).1.time by rw [second]).trans (show _ = (answered s).time by rw [first]))
  exact ⟨_, _, congrArg TimeSt.asked kept, congrArg TimeSt.silent kept, offsetAbove, offsetBelow, delayAbove, delayBelow, offset, delay⟩

theorem setAdj_slowest (s : State) : setAdj s ⟨-1, 10 ^ 4⟩ = wf s F.TIME_ADJ_ADJ 0 (unsext 32 (-100000)) := rfl

/-- A locked follower that is far ahead of its parent slews at the slowest rate. -/
theorem applyOffset_ahead {o2 : Int} (lock : locked s = true) (ahead : o2 < 0)
    (far : 2 * (max 1 (rf s F.TIME_CTRL_STEP_NS 0) : Int) < o2.natAbs) : applyOffset s o2 = wf s F.TIME_ADJ_ADJ 0 (unsext 32 (-100000)) := by
  have stays : ¬ (¬ locked s = true ∨ 0 < o2) := fun steps => steps.elim (fun unlocked => unlocked lock) fun behind => by omega
  exact (if_neg fun steps => stays steps.2).trans ((if_pos (decide_eq_true far)).trans (setAdj_slowest s))

theorem slowest_facts (s : State) : sext 32 (rf (wf s F.TIME_ADJ_ADJ 0 (unsext 32 (-100000))) F.TIME_ADJ_ADJ 0) = -100000 ∧
    (wf s F.TIME_ADJ_ADJ 0 (unsext 32 (-100000))).time = s.time := by
  refine ⟨?_, onlyRegs_time (onlyRegs_field s F.TIME_ADJ_ADJ 0 _)⟩
  rw [rf_wf_same s F.TIME_ADJ_ADJ 0 _ (by decide) (by decide)]
  decide

/-- Eight good exchanges in a row are counted. -/
def eightGood (s : State) : State := { s with time := { s.time with good := 8, bad := 0 } }

theorem countExchange_locks {o2 : Int} (near : o2.natAbs ≤ 40) (seven : s.time.good = 7) :
    rf (countExchange s o2) F.TIME_STATUS_LOCKED 0 = 1 := by
  have counted : countExchange s o2 = wf (eightGood s) F.TIME_STATUS_LOCKED 0 1 := by
    have close : ¬ 100 < o2.natAbs := by omega
    unfold countExchange
    rw [if_pos near, if_neg close, seven]
    exact (if_neg (by decide)).trans (if_pos (by decide))
  rw [counted]
  exact rf_wf_same _ F.TIME_STATUS_LOCKED 0 1 (by decide) (by decide)

/-- Eight intervals have passed without an answer. -/
def silenceReported (s : State) : State := ev { s with time := { s.time with silent := 0 } } F.TIME_EVENT_NO_RESP 0

theorem noResp_unlocks (silent : rf s F.TIME_CTRL_ROLE 0 = 2 ∧ 8 ≤ s.time.silent) :
    execNoResp s = .next (setAdj (timeUnlock (silenceReported s)) s.time.integ) := by
  have clock : (silenceReported s).time = { s.time with silent := 0 } := onlyEvents_time (onlyEvents_field _ F.TIME_EVENT_NO_RESP 0)
  have rate : (silenceReported s).time.integ = s.time.integ := by rw [clock]
  exact (if_pos silent).trans (congrArg (fun r => Host.Outcome.next (setAdj (timeUnlock (silenceReported s)) r)) rate)

end Exchanges

/-- Settles O54: the least cycles that reach the next tick pass it by less than 3 ns; the exchanges are followed branch by branch. -/
theorem timeIsKept : Obligations.TimeIsKept := by
  unfold Obligations.TimeIsKept
  refine ⟨fun s => ⟨fun asleep => if_pos asleep, ledgerTick_stopped, ledgerTick_runs⟩, fun s => tick_reached, ?set,
    fun s up => ⟨timeExchange_other up, fun follower => ⟨asking s, rfl, timeExchange_asks up follower⟩⟩,
    fun p n s up toward => timeRequest_answered up toward, ?response,
    fun o2 s lock ahead far => ⟨_, applyOffset_ahead lock ahead far, slowest_facts s⟩, fun o2 s => countExchange_locks,
    fun s => ⟨fun silent => ⟨silenceReported s, rfl, noResp_unlocks silent⟩, fun heard => if_neg heard⟩⟩
  case set =>
    intro req v s landing u
    refine ⟨fun leads => ?_, fun follows => (timeSet_lands landing).trans (congrArg _ (if_neg (Nat.not_le.mpr follows)))⟩
    exact ⟨_, (timeSet_lands landing).trans (congrArg _ (if_pos leads)), stepTime_facts u _ 0⟩
  case response =>
    intro p s up
    refine ⟨fun other => (timeResponse_eq up).trans (congrArg _ (if_pos other)), fun follower asked => ?_⟩
    intro t1 o2 d2
    obtain ⟨o, d, facts⟩ := exchangeTaken_facts s (twiceOffset s p) (twiceDelay s p)
    exact ⟨_, o, d, (timeResponse_eq up).trans (congrArg _ (timeResponse_taken follower asked)), facts⟩

/-! ### Writes of the set view of LEDGER_CMD (R48, R407, R409) -/

section Commands
variable {s : State} {req : Requester}

theorem ledgerAlias_regs (s : State) {v : Word} (pulse : v &&& 4 = 0) (k : Nat) : regLive (storeFields s .ledger 0 4 1 v) k = regLive s k :=
  storeFields_setNone cmd_table v (by simpa [frozen] using pulse) k

theorem storeFields_ledger (s : State) (b : Blk) (j o view : Nat) (v : Word) : (storeFields s b j o view v).ledger = s.ledger := by
  obtain ⟨_, _, _, _, stored⟩ := storeFields_rest s b j o view v
  rw [stored]

theorem storeFields_tick (s : State) (b : Blk) (j o view : Nat) (v : Word) : tick (storeFields s b j o view v) = tick s := by
  obtain ⟨_, _, _, _, stored⟩ := storeFields_rest s b j o view v
  rw [stored]
  rfl

theorem ledgerCmd_ack (s : State) : ledgerCmdEffect 1 s = ledgerAckEffect s := by
  have ack : wbits 0 0 (1 : Word) = 1 := by decide
  have arm : wbits 1 1 (1 : Word) ≠ 1 := by decide
  unfold ledgerCmdEffect
  rw [if_neg arm, if_pos ack]

theorem ledgerCmd_arm (s : State) : ledgerCmdEffect 2 s = snapArmEffect s := by
  have ack : wbits 0 0 (2 : Word) ≠ 1 := by decide
  have arm : wbits 1 1 (2 : Word) = 1 := by decide
  unfold ledgerCmdEffect
  rw [if_pos arm, if_neg ack]

theorem ledgerAck_lands (landing : landsSet s req .ledger 0 4 [0]) :
    execLedgerAck req s = .next (ledgerAckEffect (storeFields s .ledger 0 4 1 1)) :=
  (aliasWrite_lands landing Nat.one_ne_zero 1 fun _ _ u => ledgerCmdEffect 1 u).trans (congrArg _ (ledgerCmd_ack _))

theorem snapArm_lands (landing : landsSet s req .ledger 0 4 [0]) :
    execSnapArm req s = .next (snapArmEffect (storeFields s .ledger 0 4 1 2)) :=
  (aliasWrite_lands landing Nat.one_ne_zero 2 fun _ _ u => ledgerCmdEffect 2 u).trans (congrArg _ (ledgerCmd_arm _))

theorem ledgerAck_facts (s : State) :
    (rf s F.LEDGER_HEAD_COUNT 0 = rf s F.LEDGER_TAIL_COUNT 0 → rf (ledgerAckEffect s) F.LEDGER_HEAD_COUNT 0 = rf s F.LEDGER_HEAD_COUNT 0) ∧
    (rf s F.LEDGER_HEAD_COUNT 0 ≠ rf s F.LEDGER_TAIL_COUNT 0 →
      rf (ledgerAckEffect s) F.LEDGER_HEAD_COUNT 0 = (rf s F.LEDGER_HEAD_COUNT 0 + 1) % 2 ^ 32) ∧
    (ledgerAckEffect s).ledger = s.ledger ∧ ∀ k, k ≠ F.LEDGER_HEAD_COUNT.key 0 → regLive (ledgerAckEffect s) k = regLive s k := by
  unfold ledgerAckEffect
  dsimp only
  split
  next empty => exact ⟨fun _ => rfl, fun waits => absurd empty waits, rfl, fun _ _ => rfl⟩
  next waits =>
    have frame := onlyRegs_field s F.LEDGER_HEAD_COUNT 0 ((rf s F.LEDGER_HEAD_COUNT 0 + 1) % 2 ^ 32)
    refine ⟨fun empty => absurd empty waits, fun _ => ?_, onlyRegs_ledger frame, fun k other => frame.1 k (by simpa using other)⟩
    exact (rf_wf_same s F.LEDGER_HEAD_COUNT 0 _ (by decide) (by decide)).trans (Nat.mod_mod _ _)

end Commands

/-! ### Snapshots (R409, R410) -/

section Snapshots
variable {s : State}

/-- The target of LEDGER_SNAP_AT. -/
def snapTarget (s : State) : Nat := rf2 s F.LEDGER_SNAP_AT_LO_TICK F.LEDGER_SNAP_AT_HI_TICK 0

/-- A snapshot is armed. -/
def snapArmed (s : State) (target : Nat) : State := { s with ledger := { s.ledger with snap := some target } }

theorem snapArm_late (late : snapTarget s < tick s + 2) : snapArmEffect s = ev s F.LEDGER_EVENT_SNAP_LATE 0 := if_pos late

theorem snapArm_eq (early : tick s + 2 ≤ snapTarget s) : snapArmEffect s =
    if rb s F.LEDGER_CMD_SNAP_BCAST 0 = true then snapForward (snapArmed s (snapTarget s)) (snapTarget s) none else snapArmed s (snapTarget s) :=
  if_neg (Nat.not_lt.mpr early)

/-- The target that a broadcast brings is armed and shown. -/
def broadcastArmed (s : State) (target : Nat) : State :=
  { wf2 s F.LEDGER_SNAP_AT_LO_TICK F.LEDGER_SNAP_AT_HI_TICK 0 target with ledger := { s.ledger with snap := some target } }

theorem broadcastArmed_reads (s : State) {target : Nat} (fits : target < 2 ^ 64) :
    rf2 (broadcastArmed s target) F.LEDGER_SNAP_AT_LO_TICK F.LEDGER_SNAP_AT_HI_TICK 0 = target :=
  (rf2_ledger (wf2 s F.LEDGER_SNAP_AT_LO_TICK F.LEDGER_SNAP_AT_HI_TICK 0 target) _ F.LEDGER_SNAP_AT_LO_TICK F.LEDGER_SNAP_AT_HI_TICK 0).trans
    (rf2_wf2 s F.LEDGER_SNAP_AT_LO_TICK F.LEDGER_SNAP_AT_HI_TICK 0 target rfl rfl rfl rfl (regKey_off_ne .ledger 0 (by decide)) fits)

theorem snapBcast_eq {p : Packet} (up : hubUp s = true) : execSnapBcastReceive p s =
    if fieldLE 0 8 p.payload ≤ tick (snapForward s (fieldLE 0 8 p.payload) (some p.src)) then
      .next (ev (snapForward s (fieldLE 0 8 p.payload) (some p.src)) F.LEDGER_EVENT_SNAP_LATE 0)
    else .next (broadcastArmed (snapForward s (fieldLE 0 8 p.payload) (some p.src)) (fieldLE 0 8 p.payload)) := by
  unfold execSnapBcastReceive
  simp only [up, Bool.not_true, Bool.false_eq_true, if_false]
  rfl

/-- The snapshot's time, tick and skipped partitions are shown, and it is reported. -/
def snapShown (s : State) (now at_ skip : Nat) : State :=
  ev (wf (wf2 (wf2 s F.TIME_SNAP_LO_NOW F.TIME_SNAP_HI_NOW 0 now) F.LEDGER_SNAP_TAKEN_LO_TICK F.LEDGER_SNAP_TAKEN_HI_TICK 0 at_)
    F.LEDGER_SNAP_SKIPPED_PARTITIONS 0 skip) F.LEDGER_EVENT_SNAP_DONE 0

/-- What the report of a snapshot leaves of the registers that it follows. -/
theorem snapNote_rf (s : State) (skip : Nat) {f : Fld} (report : f.key 0 ≠ F.LEDGER_EVENT_SNAP_DONE.key 0)
    (skipped : f.key 0 ≠ F.LEDGER_SNAP_SKIPPED_PARTITIONS.key 0) :
    rf (ev (wf s F.LEDGER_SNAP_SKIPPED_PARTITIONS 0 skip) F.LEDGER_EVENT_SNAP_DONE 0) f 0 = rf s f 0 :=
  (rf_ev_ne _ F.LEDGER_EVENT_SNAP_DONE f 0 0 report).trans (rf_wf_ne s F.LEDGER_SNAP_SKIPPED_PARTITIONS f 0 0 skip skipped)

theorem snapShown_facts (s : State) {now at_ : Nat} (skip : Nat) (time : now < 2 ^ 64) (ticks : at_ < 2 ^ 64) :
    (snapShown s now at_ skip).ledger = s.ledger ∧ rf2 (snapShown s now at_ skip) F.TIME_SNAP_LO_NOW F.TIME_SNAP_HI_NOW 0 = now ∧
    rf2 (snapShown s now at_ skip) F.LEDGER_SNAP_TAKEN_LO_TICK F.LEDGER_SNAP_TAKEN_HI_TICK 0 = at_ ∧
    rf (snapShown s now at_ skip) F.LEDGER_EVENT_SNAP_DONE 0 = 1 := by
  have nowFrame := wf2_rel s F.TIME_SNAP_LO_NOW F.TIME_SNAP_HI_NOW 0 now
  have tickFrame := wf2_rel (wf2 s F.TIME_SNAP_LO_NOW F.TIME_SNAP_HI_NOW 0 now) F.LEDGER_SNAP_TAKEN_LO_TICK F.LEDGER_SNAP_TAKEN_HI_TICK 0 at_
  have nowRead := rf2_wf2 s F.TIME_SNAP_LO_NOW F.TIME_SNAP_HI_NOW 0 now rfl rfl rfl rfl (regKey_off_ne .time 0 (by decide)) time
  have tickRead := rf2_wf2 (wf2 s F.TIME_SNAP_LO_NOW F.TIME_SNAP_HI_NOW 0 now) F.LEDGER_SNAP_TAKEN_LO_TICK F.LEDGER_SNAP_TAKEN_HI_TICK 0 at_
    rfl rfl rfl rfl (regKey_off_ne .ledger 0 (by decide)) ticks
  refine ⟨?_, ?_, ?_, rf_ev_same _ F.LEDGER_EVENT_SNAP_DONE 0 (by decide) (by decide)⟩
  · exact (onlyEvents_ledger (onlyEvents_field _ F.LEDGER_EVENT_SNAP_DONE 0)).trans ((onlyRegs_ledger (onlyRegs_field _ _ 0 skip)).trans
      ((onlyRegs_ledger tickFrame).trans (onlyRegs_ledger nowFrame)))
  · rw [rf2, snapShown, snapNote_rf _ skip (by decide) (by decide), snapNote_rf _ skip (by decide) (by decide),
      onlyRegs_rf tickFrame (by decide), onlyRegs_rf tickFrame (by decide)]
    exact nowRead
  · rw [rf2, snapShown, snapNote_rf _ skip (by decide) (by decide), snapNote_rf _ skip (by decide) (by decide)]
    exact tickRead

theorem copyShadows_keeps (s : State) (skip : Nat) : (copyShadows s skip).time = s.time ∧ (copyShadows s skip).ledger = s.ledger := by
  have puts : ∀ (l : List (Nat × Word)) (key : Nat → Nat) (word : Word → Word) (u : State), u.time = s.time ∧ u.ledger = s.ledger →
      (l.foldl (fun u e => regPut u (key e.1) (word e.2)) u).time = s.time ∧ (l.foldl (fun u e => regPut u (key e.1) (word e.2)) u).ledger = s.ledger :=
    fun l key word u kept => foldl_keep (fun u : State => u.time = s.time ∧ u.ledger = s.ledger) (fun u e => regPut u (key e.1) (word e.2)) l u kept
      fun _ _ _ same => same
  exact puts _ (· + 0x100) id _ (puts _ id (fun _ => 0) s ⟨rfl, rfl⟩)

/-- The partitions that a snapshot skips. -/
def snapSkips (s : State) : Nat := (List.range 20).foldl (fun m p => if ptnDown s p then putBits p p 1 m else m) 0

/-- The snapshot's copies are made, and none is armed any more. -/
def snapCopied (s : State) : State := copyShadows { s with ledger := { s.ledger with snap := none } } (snapSkips s)

theorem snapshotTaken_takes {t : Nat} (armed : s.ledger.snap = some t) (due : t ≤ tick s) :
    execSnapshotTaken s = .next (raise (snapShown (snapCopied s) s.time.now (tick s) (snapSkips s)) E.SNAPSHOT_TAKEN U.none 0 0) := by
  obtain ⟨clock, _⟩ := copyShadows_keeps { s with ledger := { s.ledger with snap := none } } (snapSkips s)
  have copied : (snapCopied s).time = s.time := clock
  have shown : (wf2 (snapCopied s) F.TIME_SNAP_LO_NOW F.TIME_SNAP_HI_NOW 0 s.time.now).time = s.time :=
    (onlyRegs_time (wf2_rel _ F.TIME_SNAP_LO_NOW F.TIME_SNAP_HI_NOW 0 _)).trans copied
  have taken : execSnapshotTaken s = .next (raise (snapShown (snapCopied s) (snapCopied s).time.now
      (tick (wf2 (snapCopied s) F.TIME_SNAP_LO_NOW F.TIME_SNAP_HI_NOW 0 (snapCopied s).time.now)) (snapSkips s)) E.SNAPSHOT_TAKEN U.none 0 0) := by
    unfold execSnapshotTaken
    rw [armed]
    exact if_neg (Nat.not_lt.mpr due)
  rw [taken, copied, tick, shown, ← tick]

end Snapshots

/-- Settles O55: a write of LEDGER_CMD through the set view leaves every register, and the effects are read off the state that they answer. -/
theorem snapshotsAreTaken : Obligations.SnapshotsAreTaken := by
  unfold Obligations.SnapshotsAreTaken
  refine ⟨?ack, ?arm, ?broadcast, ?idle, ?taken⟩
  case ack =>
    intro req s landing
    have same := ledgerAlias_regs s (v := 1) (by decide)
    obtain ⟨empty, waits, ledger, others⟩ := ledgerAck_facts (storeFields s .ledger 0 4 1 1)
    rw [rf_same (same (F.LEDGER_HEAD_COUNT.key 0)), rf_same (same (F.LEDGER_TAIL_COUNT.key 0))] at empty waits
    exact ⟨_, ledgerAck_lands landing, empty, waits, ledger.trans (storeFields_ledger s .ledger 0 4 1 1), fun k other => (others k other).trans (same k)⟩
  case arm =>
    intro req s landing t
    have same := ledgerAlias_regs s (v := 2) (by decide)
    have clock := storeFields_tick s .ledger 0 4 1 2
    have target : snapTarget (storeFields s .ledger 0 4 1 2) = t := by
      rw [snapTarget, rf2, rf_same (same (F.LEDGER_SNAP_AT_LO_TICK.key 0)), rf_same (same (F.LEDGER_SNAP_AT_HI_TICK.key 0))]
      rfl
    have bcast : rb (storeFields s .ledger 0 4 1 2) F.LEDGER_CMD_SNAP_BCAST 0 = rb s F.LEDGER_CMD_SNAP_BCAST 0 := by
      rw [rb, rf_same (same (F.LEDGER_CMD_SNAP_BCAST.key 0)), ← rb]
    have early : tick s + 2 ≤ t → tick (storeFields s .ledger 0 4 1 2) + 2 ≤ snapTarget (storeFields s .ledger 0 4 1 2) := by
      rw [clock, target]
      exact id
    refine ⟨storeFields s .ledger 0 4 1 2, same, storeFields_ledger s .ledger 0 4 1 2, fun late => ?_, fun due off => ?_, fun due on => ?_⟩
    · exact (snapArm_lands landing).trans (congrArg _ (snapArm_late (by rw [clock, target]; exact late)))
    · refine (snapArm_lands landing).trans (congrArg _ ((snapArm_eq (early due)).trans ((if_neg ?_).trans ?_)))
      · rw [bcast, off]
        exact Bool.false_ne_true
      · rw [target, snapArmed]
    · refine (snapArm_lands landing).trans (congrArg _ ((snapArm_eq (early due)).trans ((if_pos (bcast.trans on)).trans ?_)))
      rw [target, snapArmed]
  case broadcast =>
    intro p s up t u
    refine ⟨fun late => (snapBcast_eq up).trans (if_pos late), fun early => ?_⟩
    exact ⟨broadcastArmed u t, (snapBcast_eq up).trans (if_neg (Nat.not_le.mpr early)), rfl, broadcastArmed_reads u (fieldLE_lt 0 8 p.payload)⟩
  case idle =>
    intro s none_
    show execSnapshotTaken s = _
    unfold execSnapshotTaken
    rw [none_]
  case taken =>
    intro t s armed
    refine ⟨fun early => ?_, fun due small => ?_⟩
    · show execSnapshotTaken s = _
      unfold execSnapshotTaken
      rw [armed]
      exact if_pos early
    · obtain ⟨ledger, shown⟩ := snapShown_facts (snapCopied s) (snapSkips s) small (show tick s < 2 ^ 64 by unfold tick; omega)
      exact ⟨_, snapshotTaken_takes armed due, ledger.trans (copyShadows_keeps _ _).2, shown⟩

end Sys2Proof.Proofs
end

section
/-! PROOFS. The statements of chapters 19 and 21, "Clocks, reset, power" and "Package and board": the power limit, trips and losses. -/

namespace Sys2Proof.Proofs

open Sys2Proof Sys2Proof.Machine Sys2Proof.Safety Sys2Proof.Laws

/-! ### The power limit (R417) -/

section Limit
variable {s : State} {w : Nat}

theorem powerSum_eq (up : hubUp s = true) : execPowerSum w s =
    if levelForced (wf s F.PWR_STATUS_PKG_W 0 (min w 4095)) = true then .next (setSums (setLevel (wf s F.PWR_STATUS_PKG_W 0 (min w 4095)) 8) 0 0 100)
    else if s.power.coolSums ≠ 0 then .next (setSums (wf s F.PWR_STATUS_PKG_W 0 (min w 4095)) 0 0 (s.power.coolSums - 1))
    else .next (sumStep (wf s F.PWR_STATUS_PKG_W 0 (min w 4095)) w) := by
  have power := onlyRegs_power (onlyRegs_field s F.PWR_STATUS_PKG_W 0 (min w 4095))
  unfold execPowerSum
  simp only [up, power, Bool.not_true, Bool.false_eq_true, if_false]

theorem levelSet_reads (s : State) {l low top cool : Nat} (fits : l < 16) : rf (setSums (setLevel s l) low top cool) F.PWR_STATUS_LEVEL 0 = l :=
  (rf_setSums (setLevel s l) low top cool F.PWR_STATUS_LEVEL 0).trans (setLevel_facts s l fits).1

theorem sumStep_over (room : rf s F.PWR_STATUS_LEVEL 0 < 8) (excess : powerLimit s < w) :
    sumStep s w = setSums (setLevel s (rf s F.PWR_STATUS_LEVEL 0 + 1)) 0 0 0 :=
  (if_pos excess).trans (if_pos room)

theorem sumStep_under (under : w + rf s F.PWR_CTRL_HYST_W 0 ≤ powerLimit s) (hundred : s.power.lowSums = 99) :
    sumStep s w = setSums (setLevel s (rf s F.PWR_STATUS_LEVEL 0 - 1)) 0 0 0 :=
  (if_neg (by omega)).trans ((if_pos under).trans (if_pos (by rw [hundred])))

/-- Level 8 is forced for now (R417, R459). -/
def levelTop (s : State) : State := setSums (setLevel s 8) 0 0 100

/-- Forcing level 8 leaves a flag that shows its cause. -/
theorem levelTop_facts (s : State) : (levelTop s).power.alert = s.power.alert ∧ rf (levelTop s) F.PWR_STATUS_LEVEL 0 = 8 ∧
    rf (levelTop s) F.PWR_STATUS_ALERT 0 = rf s F.PWR_STATUS_ALERT 0 ∧ rf (levelTop s) F.PWR_STATUS_THERMAL 0 = rf s F.PWR_STATUS_THERMAL 0 := by
  obtain ⟨level, power, others⟩ := setLevel_facts s 8 (by decide)
  refine ⟨show (setLevel s 8).power.alert = _ by rw [power], (rf_setSums (setLevel s 8) 0 0 100 _ 0).trans level, ?_, ?_⟩
  · exact (rf_setSums (setLevel s 8) 0 0 100 F.PWR_STATUS_ALERT 0).trans (others F.PWR_STATUS_ALERT rfl (by decide) (by decide))
  · exact (rf_setSums (setLevel s 8) 0 0 100 F.PWR_STATUS_THERMAL 0).trans (others F.PWR_STATUS_THERMAL rfl (by decide) (by decide))

/-- The board's alert is taken and shown. -/
def alertShown (s : State) (on : Bool) : State := wf { s with power := { s.power with alert := on } } F.PWR_STATUS_ALERT 0 (b2n on)

theorem alertShown_facts (s : State) (on : Bool) : (alertShown s on).power.alert = on ∧ rf (alertShown s on) F.PWR_STATUS_ALERT 0 = b2n on ∧
    rf (alertShown s on) F.PWR_STATUS_LEVEL 0 = rf s F.PWR_STATUS_LEVEL 0 := by
  have power : (alertShown s on).power = { s.power with alert := on } := onlyRegs_power (onlyRegs_field _ F.PWR_STATUS_ALERT 0 (b2n on))
  refine ⟨by rw [power], (rf_wf_same _ F.PWR_STATUS_ALERT 0 _ (by decide) (by decide)).trans (by cases on <;> rfl), ?_⟩
  exact (rf_wf_disj _ F.PWR_STATUS_ALERT F.PWR_STATUS_LEVEL 0 0 (b2n on) rfl (by decide) (by decide) (by decide)).trans
    (rf_power s _ F.PWR_STATUS_LEVEL 0)

theorem pwrAlert_eq (up : hubUp s = true) (on : Bool) :
    execPwrAlert on s = .next (if on = true then levelTop (alertShown s on) else alertShown s on) := by
  unfold execPwrAlert
  dsimp only
  exact if_neg (by rw [show hubUp { s with power := { s.power with alert := on } } = true from up]; decide)

/-- The junction temperatures are shown, and whether one is above its throttle point. -/
def heatShown (s : State) (c k h o : Nat) (hot : Bool) : State := wf (setTemps s c k h o) F.PWR_STATUS_THERMAL 0 (b2n hot)

theorem setTemps_frame (s : State) (c k h o : Nat) : onlyRegs [F.I3C_TEMP_CT.key 0, F.I3C_TEMP_STACK.key 0, F.I3C_TEMP_HUB.key 0, F.I3C_TEMP_HOST.key 0] s
    (setTemps s c k h o) := by
  have first := onlyRegs_field s F.I3C_TEMP_CT 0 (min c 255)
  have second := onlyRegs_field (wf s F.I3C_TEMP_CT 0 (min c 255)) F.I3C_TEMP_STACK 0 (min k 255)
  have third := onlyRegs_field (wf (wf s F.I3C_TEMP_CT 0 (min c 255)) F.I3C_TEMP_STACK 0 (min k 255)) F.I3C_TEMP_HUB 0 (min h 255)
  have fourth := onlyRegs_field (wf (wf (wf s F.I3C_TEMP_CT 0 (min c 255)) F.I3C_TEMP_STACK 0 (min k 255)) F.I3C_TEMP_HUB 0 (min h 255))
    F.I3C_TEMP_HOST 0 (min o 255)
  exact onlyRegs_trans (onlyRegs_mono first (by simp)) (onlyRegs_trans (onlyRegs_mono second (by simp))
    (onlyRegs_trans (onlyRegs_mono third (by simp)) (onlyRegs_mono fourth (by simp))))

theorem heatShown_facts (s : State) (c k h o : Nat) (hot : Bool) : rf (heatShown s c k h o hot) F.PWR_STATUS_THERMAL 0 = b2n hot ∧
    rf (heatShown s c k h o hot) F.PWR_STATUS_LEVEL 0 = rf s F.PWR_STATUS_LEVEL 0 := by
  refine ⟨(rf_wf_same _ F.PWR_STATUS_THERMAL 0 _ (by decide) (by decide)).trans (by cases hot <;> rfl), ?_⟩
  exact (rf_wf_disj _ F.PWR_STATUS_THERMAL F.PWR_STATUS_LEVEL 0 0 (b2n hot) rfl (by decide) (by decide) (by decide)).trans
    (onlyRegs_rf (setTemps_frame s c k h o) (by decide))

/-- Is a junction above its throttle point (R459)? -/
def junctionHot (c k h o : Nat) : Bool := decide (95 < c ∨ 85 < k ∨ 95 < h ∨ 100 < o)

theorem thermalThrottle_eq {c k h o : Nat} (up : hubUp s = true) : execThermalThrottle c k h o s =
    .next (if junctionHot c k h o = true then levelTop (heatShown s c k h o (junctionHot c k h o)) else heatShown s c k h o (junctionHot c k h o)) := by
  unfold execThermalThrottle
  dsimp only
  exact if_neg (by rw [up]; decide)

end Limit

/-! ### Trips and losses (R414, R456 to R459, R463) -/

section Losses
variable {s : State}

/-- A loss of lock is noted as the cause of the next reset. -/
def lockLost (s : State) (stopped : Bool) : State := { s with power := { s.power with refOk := !stopped, cause := 4 } }

theorem lockLost_facts (s : State) (stopped : Bool) : (lockLost s stopped).power.root = s.power.root ∧
    (lockLost s stopped).power.held = s.power.held ∧ (lockLost s stopped).power.refOk = !stopped ∧
    rf (lockLost s stopped) F.RST_STATUS_IN_RESET 0 = rf s F.RST_STATUS_IN_RESET 0 := ⟨rfl, rfl, rfl, rf_power s _ F.RST_STATUS_IN_RESET 0⟩

theorem rootUnlock_holds (stopped : Bool) (root : s.power.root = true) : execRootUnlock stopped s = .next (lockLost (holdPackage s) stopped) :=
  if_neg (by rw [root]; decide)

theorem rootUnlock_idle (stopped : Bool) (root : s.power.root = false) : execRootUnlock stopped s = .next s := if_pos (by rw [root]; decide)

theorem unlocked_facts (s : State) (stopped : Bool) : (lockLost (holdPackage s) stopped).power.root = false ∧
    (lockLost (holdPackage s) stopped).power.held = true ∧ (lockLost (holdPackage s) stopped).power.refOk = !stopped ∧
    (lockLost (holdPackage s) stopped).time.now = s.time.now ∧ (lockLost (holdPackage s) stopped).cores = [] ∧
    (lockLost (holdPackage s) stopped).parts = [] ∧ rf (lockLost (holdPackage s) stopped) F.RST_STATUS_IN_RESET 0 = 0xFFFFF := by
  obtain ⟨power, now, cores, parts, reset⟩ := holdPackage_facts s
  obtain ⟨root, held, reference, status⟩ := lockLost_facts (holdPackage s) stopped
  rw [power] at root held
  exact ⟨root, held, reference, now, cores, parts, status.trans reset⟩

/-- What the MRAM and the fuses alone leave, with every partition in reset. -/
def coldState (s : State) : State := allInReset (coldBase s)

theorem coldState_facts (s : State) : (coldState s).time.now = 0 ∧ (coldState s).cores = [] ∧ (coldState s).parts = [] ∧
    (coldState s).settings.records = s.settings.records ∧ (coldState s).sec.floors = s.sec.floors ∧ (coldState s).sec.images = s.sec.images := by
  obtain ⟨now, cores, parts, records, floors, images⟩ := coldBase_facts s
  have frame := onlyRegs_field (coldBase s) F.RST_STATUS_IN_RESET 0 0xFFFFF
  exact ⟨(congrArg TimeSt.now (onlyRegs_time frame)).trans now, (onlyRegs_cores frame).trans cores, (onlyRegs_parts frame).trans parts,
    (congrArg SettingsSt.records (onlyRegs_settings frame)).trans records, (congrArg SecSt.floors (onlyRegs_sec frame)).trans floors,
    (congrArg SecSt.images (onlyRegs_sec frame)).trans images⟩

theorem thermtrip_trips {c k h o : Nat} (hot : 110 ≤ c ∨ 95 ≤ k ∨ 110 ≤ h ∨ 105 ≤ o) : execThermtrip c k h o s =
    .next { railLoss (setTemps s c k h o) F.I3C_BSTAT_THERMTRIP with
      power := { (railLoss (setTemps s c k h o) F.I3C_BSTAT_THERMTRIP).power with thermtripN := false } } := if_pos hot

/-- The board releases RESET_N. -/
def resetReleased (s : State) : State := { s with power := { s.power with resetN := true } }

/-- The failures that I3C_BSTAT shows are cleared. -/
def failuresCleared (s : State) : State := wf (wf s F.I3C_BSTAT_RAIL_FAIL 0 0) F.I3C_BSTAT_THERMTRIP 0 0

theorem failuresCleared_power (s : State) : (failuresCleared s).power = s.power :=
  (onlyRegs_power (onlyRegs_field _ F.I3C_BSTAT_THERMTRIP 0 0)).trans (onlyRegs_power (onlyRegs_field s F.I3C_BSTAT_RAIL_FAIL 0 0))

theorem resetNRelease_plain (low : s.power.resetN = false) (good : s.power.railFail = false) : execResetNRelease s = .next (resetReleased s) := by
  have fine : (s.power.supplied && s.power.railFail) = false := by rw [good, Bool.and_false]
  exact (if_neg (by rw [low]; decide)).trans (if_neg (by rw [show (_ && _) = false from fine]; decide))

theorem resetNRelease_runs (low : s.power.resetN = false) (supplied : s.power.supplied = true) (failed : s.power.railFail = true) :
    execResetNRelease s = .next { failuresCleared (resetReleased s) with
      power := { (failuresCleared (resetReleased s)).power with railFail := false, thermtripN := true, enMain := true, cause := 1 } } := by
  have both : (s.power.supplied && s.power.railFail) = true := by rw [supplied, failed]; rfl
  exact (if_neg (by rw [low]; decide)).trans (if_pos both)

end Losses

/-- Settles O56: the throttle's level is read back from the write that set it; what a loss leaves is what `holdPackage` and `coldBase` leave. -/
theorem powerIsLimited : Obligations.PowerIsLimited := by
  unfold Obligations.PowerIsLimited
  refine ⟨fun w s up => ⟨_, rfl, fun forced => (powerSum_eq up).trans (if_pos forced), ?cools, ?steps⟩, ?above, ?under, ?alert, ?thermal, ?trip, ?rail,
    ?lock, ?vmi, ?cold, ?release⟩
  case cools => exact fun calm cooling => (powerSum_eq up).trans ((if_neg (by rw [calm]; decide)).trans (if_pos cooling))
  case steps => exact fun calm cool => (powerSum_eq up).trans ((if_neg (by rw [calm]; decide)).trans (if_neg (not_not_intro cool)))
  case above =>
    intro w s room excess
    rw [sumStep_over room excess]
    exact levelSet_reads s (by omega)
  case under =>
    intro w s _ under hundred
    have level := rf_lt s F.PWR_STATUS_LEVEL 0 4 rfl
    rw [sumStep_under under hundred]
    exact levelSet_reads s (by omega)
  case alert =>
    intro s up
    obtain ⟨alert, shown, _⟩ := alertShown_facts s true
    obtain ⟨kept, level, flag, _⟩ := levelTop_facts (alertShown s true)
    exact ⟨⟨_, pwrAlert_eq up true, kept.trans alert, level, flag.trans shown⟩, _, pwrAlert_eq up false, alertShown_facts s false⟩
  case thermal =>
    intro c k h o s up
    refine ⟨fun hot => ?_, fun c_ k_ h_ o_ => ?_⟩
    · have above : junctionHot c k h o = true := decide_eq_true hot
      obtain ⟨_, level, _, flag⟩ := levelTop_facts (heatShown s c k h o true)
      refine ⟨_, (thermalThrottle_eq up).trans (congrArg _ (if_pos above)), ?_⟩
      rw [above]
      exact ⟨level, flag.trans (heatShown_facts s c k h o true).1⟩
    · have below : junctionHot c k h o = false := decide_eq_false (by omega)
      refine ⟨_, (thermalThrottle_eq up).trans (congrArg _ (if_neg (by rw [below]; decide))), ?_⟩
      rw [below]
      exact heatShown_facts s c k h o false
  case trip =>
    intro c k h o s
    obtain ⟨root, enMain, _⟩ := railLoss_facts (setTemps s c k h o) F.I3C_BSTAT_THERMTRIP
    exact ⟨fun hot => ⟨_, thermtrip_trips hot, root, enMain, rfl⟩, fun c_ k_ h_ o_ => if_neg (by omega)⟩
  case rail =>
    intro r s on regulator
    obtain ⟨root, enMain, failed, rest⟩ := railLoss_facts s F.I3C_BSTAT_RAIL_FAIL
    exact ⟨⟨_, if_pos on, root, enMain, failed, rest⟩, _, if_pos ⟨regulator, on⟩, root, enMain, failed⟩
  case lock => exact fun stopped s => ⟨rootUnlock_idle stopped, fun root => ⟨_, rootUnlock_holds stopped root, unlocked_facts s stopped⟩⟩
  case vmi => exact fun s => ⟨_, rfl, rfl, rfl, coldState_facts s⟩
  case cold => exact fun s => ⟨_, rfl, rfl, rfl, rfl, (coldState_facts s).1, (coldState_facts s).2.2.2⟩
  case release =>
    intro s
    refine ⟨fun high => if_pos high, fun low supplied failed => ?_, resetNRelease_plain⟩
    exact ⟨_, resetNRelease_runs low supplied failed, congrArg PowerSt.resetN (failuresCleared_power (resetReleased s)), rfl, rfl, rfl⟩

end Sys2Proof.Proofs
end

section
/-! PROOFS. The statements of chapters 19 and 21, "Clocks, reset, power" and "Package and board": resets and the boot that follows them. -/

namespace Sys2Proof.Proofs

open Sys2Proof Sys2Proof.Machine Sys2Proof.Safety Sys2Proof.Laws

/-! ### The boot (R420, R431, R443) -/

section Boot
variable {s : State} {ms : List (Nat × Measured)}

/-- With no record in the settings area, the presets are applied at once: there is none. -/
def noPresets (s : State) : State := wf (wf s F.SET_PRESET_INFO_APPLIED 0 0) F.SET_PRESET_INFO_SKIPPED 0 0

theorem presetRun_empty (empty : s.settings.records = []) : presetRun (presetEntries s) 0 0 s = .next (noPresets s) := by
  rw [presetEntries_none empty]
  rfl

/-- What a boot that has started ends with: recovery, or the presets and then the release of the host die. -/
theorem boot_ends (s : State) (cause : Nat) (ms : List (Nat × Measured)) :
    (inRecovery (bootStart s cause) = true → boot s cause ms = .next (allInReset (bootStart s cause))) ∧
    (inRecovery (bootStart s cause) = false →
      ∀ t, presetRun (presetEntries (bootParts (bootStart s cause) ms)) 0 0 (bootParts (bootStart s cause) ms) = .next t →
        boot s cause ms = .next (hostRelease (transfer t 0xFFFF))) ∧
    (inRecovery (bootStart s cause) = false → (bootStart s cause).settings.records = [] →
      ∃ t, boot s cause ms = .next (hostRelease (transfer t 0xFFFF)) ∧ t = noPresets (bootParts (bootStart s cause) ms)) := by
  refine ⟨boot_recovery ms, fun runs t => boot_presets runs, fun runs empty => ⟨_, ?_, rfl⟩⟩
  exact boot_presets runs (presetRun_empty (recs_bootParts _ ms empty))

theorem resetN_boots (up : islandUp { s with power := { s.power with resetN := false } } = true) :
    execResetNAssert ms s = boot { s with power := { s.power with resetN := false } } 1 ms := by
  unfold execResetNAssert
  dsimp only
  rw [up, if_pos rfl]

theorem rootLock_boots (enMain : s.power.enMain = true) (pgMain : s.power.pgMain = true) (root : s.power.root = false) :
    execRootLock ms s = boot s 4 ms :=
  if_pos (by rw [enMain, pgMain, root]; rfl)

theorem pgMain_boots (enMain : s.power.enMain = true) (pgMain : s.power.pgMain = false) :
    execPgMainAssert ms s = boot (mainOn { s with power := { s.power with pgMain := true } }) s.power.cause ms :=
  if_pos (by rw [enMain, pgMain]; rfl)

theorem rails_off (off : s.power.enMain = false) : execRootLock ms s = .next s ∧ execPgMainAssert ms s = .next s :=
  ⟨if_neg (by rw [off]; exact Bool.false_ne_true), if_neg (by rw [off]; exact Bool.false_ne_true)⟩

end Boot

/-! ### The reset commands (R419, R422) -/

section PackageCommands
variable {s : State} {req : Requester} {v : Word} {ms : List (Nat × Measured)}

theorem packageReset_boots (other : req ≠ .mgmt) (landing : lands s req .rst 0 8 0x52530001 [0]) (enabled : rb s F.RST_EN_PKG_EN 0 = true) :
    pkgCmdWrite req 0 0x52530001 ms s = boot (storeFields s .rst 0 8 0 0x52530001) 2 ms := by
  have kept := (pkg_enables s 0x52530001 F.RST_EN_PKG_EN (by decide)).trans enabled
  refine (pkg_lands other landing ms).trans ((pkg_effect 0x52530001 ms _ 2 (by decide) (by decide)).trans ?_)
  exact (if_neg (not_not_intro kept)).trans ((if_neg (by decide)).trans (if_pos rfl))

theorem hubReset_resets (other : req ≠ .mgmt) (landing : lands s req .rst 0 8 0x52530002 [0]) (enabled : rb s F.RST_EN_HUB_EN 0 = true) :
    pkgCmdWrite req 0 0x52530002 ms s = hubReset (storeFields s .rst 0 8 0 0x52530002) ms := by
  have kept := (pkg_enables s 0x52530002 F.RST_EN_HUB_EN (by decide)).trans enabled
  refine (pkg_lands other landing ms).trans ((pkg_effect 0x52530002 ms _ 1 (by decide) (by decide)).trans ?_)
  exact (if_neg (not_not_intro kept)).trans ((if_neg (by decide)).trans (if_neg (by decide)))

theorem packageReset_keyless (other : req ≠ .mgmt) (landing : lands s req .rst 0 8 1 [0]) (enabled : rb s F.RST_EN_PKG_EN 0 = true) :
    pkgCmdWrite req 0 1 ms s = .next (rstRefuse (storeFields s .rst 0 8 0 1) 3 0) := by
  have kept := (pkg_enables s 1 F.RST_EN_PKG_EN (by decide)).trans enabled
  refine (pkg_lands other landing ms).trans ((pkg_effect 1 ms _ 2 (by decide) (by decide)).trans ?_)
  exact (if_neg (not_not_intro kept)).trans (if_pos (by decide))

theorem hubReset_disabled (other : req ≠ .mgmt) (landing : lands s req .rst 0 8 2 [0]) (disabled : rb s F.RST_EN_HUB_EN 0 = false) :
    pkgCmdWrite req 0 2 ms s = .next (rstRefuse (storeFields s .rst 0 8 0 2) 1 0) := by
  have kept := (pkg_enables s 2 F.RST_EN_HUB_EN (by decide)).trans disabled
  refine (pkg_lands other landing ms).trans ((pkg_effect 2 ms _ 1 (by decide) (by decide)).trans ?_)
  exact if_pos fun on => Bool.false_ne_true (kept.symm.trans on)

end PackageCommands

/-! ### The hub reset (R421, R422) -/

section Hub
variable {s : State} {ms : List (Nat × Measured)}

/-- The host die and the staging module stay in reset, and every partition with them. -/
def hubStays (s : State) : State := allInReset { s with power := { s.power with hostResetN := false, perstN := false } }

theorem hubStays_facts (s : State) : (hubStays s).power.perstN = false ∧ rf (hubStays s) F.RST_STATUS_IN_RESET 0 = 0xFFFFF := by
  have power : (hubStays s).power = { s.power with hostResetN := false, perstN := false } :=
    onlyRegs_power (onlyRegs_field _ F.RST_STATUS_IN_RESET 0 0xFFFFF)
  exact ⟨by rw [power], rf_wf_same _ F.RST_STATUS_IN_RESET 0 0xFFFFF (by decide) (by decide)⟩

theorem hubReset_stays (recovers : inRecovery (hubStart s ms (hubParts s)) = true) : hubReset s ms = .next (hubStays (hubStart s ms (hubParts s))) :=
  if_pos recovers

theorem hubReset_presets {t : State} (runs : inRecovery (hubStart s ms (hubParts s)) = false)
    (applied : presetRun (presetEntries (hubBring (hubStart s ms (hubParts s)) ms (hubParts s) s)) 0 0
      (hubBring (hubStart s ms (hubParts s)) ms (hubParts s) s) = .next t) : hubReset s ms = .next (hubDone (transfer t 0xFFFF)) :=
  (if_neg (by rw [runs]; exact Bool.false_ne_true)).trans (presetApply_next applied)

end Hub

/-! ### The partition reset (R378, R419) -/

section Partition
variable {s : State} {req : Requester} {v : Word} {m : Measured}

theorem partitionReset_lands (landing : lands s req .rst 0 4 v [0]) :
    execPartitionReset req v m s = .next (ptnResetEffect m v (storeFields s .rst 0 4 0 v)) :=
  regCmd_lands landing fun _ _ u => ptnResetEffect m v u

theorem ptnReset_eq (named : wbits 8 8 v = 1) : ptnResetEffect m v s = if ¬ rb s F.RST_EN_PTN_EN 0 = true then rstRefuse s 1 (wbits 4 0 v)
    else if 20 ≤ wbits 4 0 v ∨ ptnDown s (wbits 4 0 v) = true then rstRefuse s 2 (wbits 4 0 v)
    else ev (resetPartition s (wbits 4 0 v) m) F.RST_EVENT_PTN_DONE 0 := if_neg (by rw [named]; decide)

end Partition

/-- Settles O57: each reset is traced to the boot or to the hub reset that it starts, and that one to its end. -/
theorem resetsBoot : Obligations.ResetsBoot := by
  unfold Obligations.ResetsBoot
  refine ⟨?boots, ?hub, fun ms req s other => ⟨packageReset_keyless other, hubReset_disabled other⟩, fun ms s => rails_off, ?partition⟩
  case boots =>
    intro ms c u cause s starts b
    have started : exec c s = boot u cause ms := by
      rcases starts with ⟨rfl, enMain, pgMain, root, rfl, rfl⟩ | ⟨rfl, enMain, pgMain, rfl, rfl⟩ | ⟨rfl, rfl, up, rfl⟩ |
        ⟨req, rfl, other, landing, enabled, rfl, rfl⟩
      · exact rootLock_boots enMain pgMain root
      · exact pgMain_boots enMain pgMain
      · exact resetN_boots up
      · exact packageReset_boots other landing enabled
    rw [started]
    exact boot_ends u cause ms
  case hub =>
    intro ms req s other landing enabled u b
    have resets : exec (.hubReset req 0x52530002 ms) s = hubReset u ms := hubReset_resets other landing enabled
    rw [resets]
    refine ⟨fun recovers => ⟨_, hubReset_stays recovers, hubStays_facts b⟩, fun runs t => hubReset_presets runs, fun runs empty => ⟨_, ?_, rfl⟩⟩
    exact hubReset_presets runs (presetRun_empty (recs_hubBring b ms (hubParts u) u empty))
  case partition =>
    intro req v m s landing named u p
    have effect := (partitionReset_lands (m := m) landing).trans (congrArg _ (ptnReset_eq (s := u) (m := m) named))
    refine ⟨fun disabled => effect.trans (congrArg _ (if_pos ?_)), fun enabled barred => effect.trans (congrArg _ ?_), fun enabled part awake => ?_⟩
    · rw [disabled]
      exact Bool.false_ne_true
    · exact (if_neg (not_not_intro enabled)).trans (if_pos barred)
    · refine ⟨_, effect.trans (congrArg _ ((if_neg (not_not_intro enabled)).trans (if_neg ?_))), rfl,
        rf_ev_same _ F.RST_EVENT_PTN_DONE 0 (by decide) (by decide)⟩
      exact fun barred => barred.elim (fun outside => absurd part (Nat.not_lt.mpr outside)) fun down => Bool.false_ne_true (awake.symm.trans down)

end Sys2Proof.Proofs
end

section
/-! PROOFS. The statements of chapters 19 and 21, "Clocks, reset, power" and "Package and board": the power states P1, P2 and P3. -/

namespace Sys2Proof.Proofs

open Sys2Proof Sys2Proof.Machine Sys2Proof.Safety Sys2Proof.Laws

/-! ### P1 (R425) -/

section P1
variable {s : State} {p : Nat}

theorem p1Enter_enters (up : hubUp s = true) (part : p < 20) (auto : rb s F.PWR_CTRL_P1_AUTO 0 = true) (out : inReset s p = false)
    (awake : pstate s p = 0) (idle : ∀ g ∈ span (13 * p) 13, 2 ≤ role s g ∨ (corePending s g = false ∧ g ∉ s.ist.windows))
    (calm : retestIn s p = false) : execP1Enter p s = .next (setPstate s p 1) := by
  refine if_pos ⟨up, part, auto, by rw [out]; exact Bool.false_ne_true, awake, List.all_eq_true.mpr fun g core => ?_,
    by rw [calm]; exact Bool.false_ne_true⟩
  rcases idle g core with resting | ⟨quiet, closed⟩
  · simp [resting]
  · simp [quiet, closed]

theorem p1Enter_stays (other : pstate s p ≠ 0) : execP1Enter p s = .next s := if_neg fun ⟨_, _, _, _, awake, _⟩ => other awake

end P1

/-! ### P2 (R426, R427) -/

section P2
variable {s : State} {req : Requester} {v : Word} {p : Nat} {kept : Bool} {m : Measured}

theorem ptnPower_enter (enter : wbits 8 8 v = 1) (exit_ : wbits 9 9 v = 0) : ptnPowerEffect kept m v s = p2Enter s (wbits 4 0 v) kept := by
  unfold ptnPowerEffect
  rw [if_pos enter, exit_]
  exact if_neg Nat.zero_ne_one

theorem ptnPower_exit (enter : wbits 8 8 v = 0) (exit_ : wbits 9 9 v = 1) : ptnPowerEffect kept m v s = p2Exit s (wbits 4 0 v) m := by
  unfold ptnPowerEffect
  rw [if_pos exit_, enter]
  rfl

theorem p2Enter_lands (landing : lands s req .pwr 0 0x0C v [0]) :
    execP2Enter req v kept s = .next (ptnPowerEffect kept Measured.clean v (storeFields s .pwr 0 0x0C 0 v)) :=
  regCmd_lands landing fun _ _ u => ptnPowerEffect kept Measured.clean v u

theorem p2Exit_lands (landing : lands s req .pwr 0 0x0C v [0]) :
    execP2Exit req v m s = .next (ptnPowerEffect true m v (storeFields s .pwr 0 0x0C 0 v)) :=
  regCmd_lands landing fun _ _ u => ptnPowerEffect true m v u

/-- P2_ENTER of a partition that may change its state: what it checks, in order. -/
theorem p2Enter_checks (part : p < 20) (awake : ptnDown s p = false) : p2Enter s p kept =
    if ¬ partQuiet s p = true then p2Refuse s 2 p
    else if ¬ ringsQuiet s p = true then p2Refuse s 3 p
    else if rb s F.HUB_JOB_STATUS_ACTIVE 0 = true ∧ holdsSteps s p = true then p2Refuse s 4 p
    else waybillDue (ev (setPstate (powerLoss (keepConfig (writeBack (quiesce s p) p kept) p) p kept) p 2) F.PWR_EVENT_P2_DONE 0) :=
  if_neg fun barred => barred.elim (fun outside => absurd part (Nat.not_lt.mpr outside)) fun down => Bool.false_ne_true (awake.symm.trans down)

theorem p2Enter_busy (part : p < 20) (awake : ptnDown s p = false) (busy : partQuiet s p = false) : p2Enter s p kept = p2Refuse s 2 p :=
  (p2Enter_checks part awake).trans (if_pos (by rw [busy]; exact Bool.false_ne_true))

theorem p2Enter_fed (part : p < 20) (awake : ptnDown s p = false) (quiet : partQuiet s p = true) (fed : ringsQuiet s p = false) :
    p2Enter s p kept = p2Refuse s 3 p :=
  (p2Enter_checks part awake).trans ((if_neg (not_not_intro quiet)).trans (if_pos (by rw [fed]; exact Bool.false_ne_true)))

theorem p2Enter_held (part : p < 20) (awake : ptnDown s p = false) (quiet : partQuiet s p = true) (rings : ringsQuiet s p = true)
    (job : rb s F.HUB_JOB_STATUS_ACTIVE 0 = true) (holds : holdsSteps s p = true) : p2Enter s p kept = p2Refuse s 4 p :=
  (p2Enter_checks part awake).trans ((if_neg (not_not_intro quiet)).trans ((if_neg (not_not_intro rings)).trans (if_pos ⟨job, holds⟩)))

theorem p2Enter_sleeps (part : p < 20) (awake : ptnDown s p = false) (quiet : partQuiet s p = true) (rings : ringsQuiet s p = true)
    (free : rb s F.HUB_JOB_STATUS_ACTIVE 0 = false ∨ holdsSteps s p = false) : p2Enter s p kept =
    waybillDue (ev (setPstate (powerLoss (keepConfig (writeBack (quiesce s p) p kept) p) p kept) p 2) F.PWR_EVENT_P2_DONE 0) := by
  refine (p2Enter_checks part awake).trans ((if_neg (not_not_intro quiet)).trans ((if_neg (not_not_intro rings)).trans (if_neg ?_)))
  rintro ⟨job, holds⟩
  rcases free with idle | elsewhere
  · exact Bool.false_ne_true (idle.symm.trans job)
  · exact Bool.false_ne_true (elsewhere.symm.trans holds)

theorem p2Exit_unsettled (part : p < 20) (out : inReset s p = false) (settled : pstate s p ≠ 3) :
    ¬ (20 ≤ p ∨ inReset s p = true ∨ pstate s p = 3) := by
  rintro (outside | resets | changing)
  · exact absurd part (Nat.not_lt.mpr outside)
  · exact Bool.false_ne_true (out.symm.trans resets)
  · exact settled changing

theorem p2Exit_awake (part : p < 20) (out : inReset s p = false) (awake : pstate s p = 0) : p2Exit s p m = p2Refuse s 5 p :=
  (if_neg (p2Exit_unsettled part out (by rw [awake]; decide))).trans (if_pos (by rw [awake]; decide))

theorem p2Exit_done (part : p < 20) (out : inReset s p = false) (sleeps : pstate s p = 2) : rf (p2Exit s p m) F.PWR_EVENT_P2_DONE 0 = 1 := by
  unfold p2Exit
  rw [if_neg (p2Exit_unsettled part out (by rw [sleeps]; decide)), if_neg (not_not_intro sleeps)]
  exact rf_ev_same _ F.PWR_EVENT_P2_DONE 0 (by decide) (by decide)

end P2

/-! ### P3 (R428) -/

section P3
variable {s : State}

theorem p3Enter_lands (landing : lands s .mgmt .pwr 0 0x18 1 [0]) : execP3Enter .mgmt s = .next (p3Effect .mgmt 1 s) :=
  (regCmd_lands landing fun _ _ u => p3Effect .mgmt 1 u).trans 
    (congrArg _ (congrArg _ (pulse_any (by decide) rfl 0 1)))

theorem p3Effect_eq (s : State) : p3Effect .mgmt 1 s = if rb s F.HUB_JOB_STATUS_ACTIVE 0 = true then p2Refuse s 6 0 else p3Enter s :=
  if_neg fun none_ => none_.elim (fun no => absurd no (by decide)) fun other => other rfl

/-- A package that is held keeps its rate correction, and EN_MAIN falls. -/
def heldAsleep (s : State) (adj : Word) : State :=
  { regPut s (F.TIME_ADJ_ADJ.key 0) adj with
    power := { (regPut s (F.TIME_ADJ_ADJ.key 0) adj).power with inP3 := true, enMain := false, pgMain := false, cause := 5 } }

theorem heldAsleep_facts (s : State) (adj : Word) : (heldAsleep s adj).power.inP3 = true ∧ (heldAsleep s adj).power.root = s.power.root ∧
    (heldAsleep s adj).power.enMain = false ∧ (heldAsleep s adj).time = s.time ∧ (heldAsleep s adj).cores = s.cores ∧
    (heldAsleep s adj).parts = s.parts := by
  obtain ⟨r, m, put⟩ := regPut_parts s (F.TIME_ADJ_ADJ.key 0) adj
  rw [heldAsleep, put]
  exact ⟨rfl, rfl, rfl, rfl, rfl, rfl⟩

/-- Two in-band reports leave the power state, the time base and what the package holds. -/
theorem reports_keep (s : State) (f : Fld) (b : Bool) : (mainOn (bstat s f b)).power.inP3 = s.power.inP3 ∧
    (mainOn (bstat s f b)).power.root = s.power.root ∧ (mainOn (bstat s f b)).power.enMain = s.power.enMain ∧
    (mainOn (bstat s f b)).time = s.time ∧ (mainOn (bstat s f b)).cores = s.cores ∧ (mainOn (bstat s f b)).parts = s.parts := by
  obtain ⟨cores, parts, time, n, power⟩ := bstat_facts s f b
  obtain ⟨cores', parts', time', m, power'⟩ := mainOn_facts (bstat s f b)
  rw [power', power]
  exact ⟨rfl, rfl, rfl, time'.trans time, cores'.trans cores, parts'.trans parts⟩

theorem p3Enter_facts (s : State) : (p3Enter s).power.inP3 = true ∧ (p3Enter s).power.root = false ∧ (p3Enter s).power.enMain = false ∧
    (p3Enter s).time.now = s.time.now ∧ (p3Enter s).cores = [] ∧ (p3Enter s).parts = [] := by
  obtain ⟨power, now, cores, parts, _⟩ := holdPackage_facts s
  obtain ⟨p3, root, enMain, time, cores', parts'⟩ := heldAsleep_facts (holdPackage s) (regLive s (F.TIME_ADJ_ADJ.key 0))
  obtain ⟨p3Kept, rootKept, enMainKept, timeKept, coresKept, partsKept⟩ :=
    reports_keep (heldAsleep (holdPackage s) (regLive s (F.TIME_ADJ_ADJ.key 0))) F.I3C_BSTAT_IN_P3 true
  rw [power] at root
  have clock := timeKept.trans time
  exact ⟨p3Kept.trans p3, rootKept.trans root, enMainKept.trans enMain, (congrArg TimeSt.now clock).trans now, (coresKept.trans cores').trans cores,
    (partsKept.trans parts').trans parts⟩

/-- P3 is left, and EN_MAIN rises again. -/
def rising (s : State) : State := { s with power := { s.power with inP3 := false, enMain := true, cause := 5 } }

theorem p3Leave_wakes (asleep : s.power.inP3 = true) : p3Leave s = mainOn (bstat (rising s) F.I3C_BSTAT_IN_P3 false) := if_pos asleep

theorem p3Leave_stays (awake : s.power.inP3 = false) : p3Leave s = s := if_neg (by rw [awake]; exact Bool.false_ne_true)

theorem wake_eq {c : Instr} (wake : c = .p3Wake ∨ c = .i3cWake) : exec c s = .next (p3Leave s) := by
  rcases wake with rfl | rfl
  · rfl
  · rfl

end P3

/-- Settles O58: each command is followed through the checks it makes, in the order in which the model makes them. -/
theorem partitionsSleep : Obligations.PartitionsSleep := by
  unfold Obligations.PartitionsSleep
  refine ⟨fun p s => p1Enter_enters, fun p s part drowsy => if_pos ⟨part, drowsy⟩, fun p s => p1Enter_stays,
    fun p s other => if_neg fun ⟨_, drowsy⟩ => other drowsy,
    fun req v kept s landing enter exit_ => (p2Enter_lands landing).trans (congrArg _ (ptnPower_enter enter exit_)),
    fun req v m s landing enter exit_ => (p2Exit_lands landing).trans (congrArg _ (ptnPower_exit enter exit_)), ?enter,
    fun p m s => p2Exit_awake, fun p m s => p2Exit_done, p2Refuse_facts, ?p3, ?wake, fun a s fits supplied => if_pos ⟨fits, supplied⟩⟩
  case enter =>
    intro p kept s part awake
    exact ⟨p2Enter_busy part awake, p2Enter_fed part awake, p2Enter_held part awake,
      fun quiet rings free => ⟨_, rfl, p2Enter_sleeps part awake quiet rings free⟩⟩
  case p3 =>
    intro s landing
    have effect := (p3Enter_lands landing).trans (congrArg _ (p3Effect_eq s))
    refine ⟨fun active => effect.trans (congrArg _ (if_pos active)), fun idle => ⟨p3Enter s, effect.trans (congrArg _ (if_neg ?_)), p3Enter_facts s⟩⟩
    rw [idle]
    exact Bool.false_ne_true
  case wake =>
    intro c s wake
    refine ⟨fun awake => (wake_eq wake).trans (congrArg _ (p3Leave_stays awake)), fun asleep => ?_⟩
    obtain ⟨p3, root, enMain, _⟩ := reports_keep (rising s) F.I3C_BSTAT_IN_P3 false
    exact ⟨_, (wake_eq wake).trans (congrArg _ (p3Leave_wakes asleep)), p3, enMain, root⟩

end Sys2Proof.Proofs
end

section
/-! PROOFS. The statements of chapter 19, "Clocks, reset, power": the settings area. -/

namespace Sys2Proof.Proofs

open Sys2Proof Sys2Proof.Machine Sys2Proof.Safety Sys2Proof.Laws

/-! ### STORE, READ and ERASE begin (R430) -/

section Commands
variable {s : State} {req : Requester}

theorem setCmd_store (s : State) (req : Requester) : setCmdEffect req 1 s = setStore s req := by
  have store : wbits 0 0 (1 : Word) = 1 := by decide
  have read : wbits 1 1 (1 : Word) ≠ 1 := by decide
  have erase : wbits 2 2 (1 : Word) ≠ 1 := by decide
  unfold setCmdEffect
  rw [if_neg erase, if_neg read, if_pos store]

theorem setCmd_read (s : State) (req : Requester) : setCmdEffect req 2 s = setRead s := by
  have store : wbits 0 0 (2 : Word) ≠ 1 := by decide
  have read : wbits 1 1 (2 : Word) = 1 := by decide
  have erase : wbits 2 2 (2 : Word) ≠ 1 := by decide
  unfold setCmdEffect
  rw [if_neg erase, if_pos read, if_neg store]

theorem setCmd_erase (s : State) (req : Requester) : setCmdEffect req 4 s = setErase s req := by
  have store : wbits 0 0 (4 : Word) ≠ 1 := by decide
  have read : wbits 1 1 (4 : Word) ≠ 1 := by decide
  have erase : wbits 2 2 (4 : Word) = 1 := by decide
  unfold setCmdEffect
  rw [if_pos erase, if_neg read, if_neg store]

/-- A read needs no authorisation. -/
theorem setAllowed_read (s : State) (req : Requester) : setAllowed s req 2 = true := by
  have store : (wbits 0 0 (2 : Word) == 0) = true := by decide
  have erase : (wbits 2 2 (2 : Word) == 0) = true := by decide
  unfold setAllowed
  rw [store, erase, Bool.true_or, Bool.true_or, Bool.and_self, Bool.or_true]

theorem store_lands (landing : lands s req .set 0 0 1 [0]) (allowed : setAllowed s req 1 = true) :
    execSettingsStore req s = .next (setStore s req) := (set_lands landing allowed).trans (congrArg _ (setCmd_store s req))

theorem read_lands (landing : lands s req .set 0 0 2 [0]) : execSettingsRead req s = .next (setRead s) :=
  (set_lands landing (setAllowed_read s req)).trans (congrArg _ (setCmd_read s req))

theorem erase_lands (landing : lands s req .set 0 0 4 [0]) (allowed : setAllowed s req 4 = true) :
    execSettingsErase req s = .next (setErase s req) := (set_lands landing allowed).trans (congrArg _ (setCmd_erase s req))

theorem setCmd_barred {v : Word} (up : hubUp s = true) (barred : setAllowed s req v = false) :
    setCmdWrite req 0 v s = .next (setFail (accFault s 7 req.id (winOff .set 0 0)) 6) :=
  if_pos ⟨up, by rw [if_neg (by decide), barred]; exact Bool.false_ne_true⟩

/-- The management requester's grant is used up. -/
def grantSpent (s : State) (req : Requester) : State := if req = .mgmt then grantUse s else s

theorem setStore_idle (idle : s.settings.busy = 0) : setStore s req = if (!keyWritable req (setKey s)) = true then setFail (grantSpent s req) 4
    else if setLen s = 0 ∨ 16384 < setLen s ∨ setLen s % 8 ≠ 0 then setFail (grantSpent s req) 5
    else if 10 ^ 6 ≤ (aget (grantSpent s req).settings.wear (setKey s)).getD 0 then setFail (grantSpent s req) 7
    else if settingsFree (grantSpent s req) < setLen s + 64 then setFail (grantSpent s req) 3
    else setRun (grantSpent s req) 1 (setData (grantSpent s req)) := if_neg (not_not_intro idle)

theorem setStore_foreign (idle : s.settings.busy = 0) (foreign : keyWritable req (setKey s) = false) : setStore s req = setFail (grantSpent s req) 4 :=
  (setStore_idle idle).trans (if_pos (by rw [foreign]; rfl))

theorem setStore_length (idle : s.settings.busy = 0) (own : keyWritable req (setKey s) = true)
    (length : setLen s = 0 ∨ 16384 < setLen s ∨ setLen s % 8 ≠ 0) : setStore s req = setFail (grantSpent s req) 5 :=
  (setStore_idle idle).trans ((if_neg (by rw [own]; exact Bool.false_ne_true)).trans (if_pos length))

/-- A store of a key that the requester may write, of a good length: the wear and the free area decide. -/
theorem setStore_good (idle : s.settings.busy = 0) (own : keyWritable req (setKey s) = true) (some_ : 0 < setLen s) (most : setLen s ≤ 16384)
    (whole : setLen s % 8 = 0) : setStore s req =
    if 10 ^ 6 ≤ (aget (grantSpent s req).settings.wear (setKey s)).getD 0 then setFail (grantSpent s req) 7
    else if settingsFree (grantSpent s req) < setLen s + 64 then setFail (grantSpent s req) 3
    else setRun (grantSpent s req) 1 (setData (grantSpent s req)) :=
  (setStore_idle idle).trans ((if_neg (by rw [own]; exact Bool.false_ne_true)).trans (if_neg (by omega)))

theorem setErase_idle (idle : s.settings.busy = 0) : setErase s req =
    if (!keyWritable req (setKey (grantSpent s req))) = true then setFail (grantSpent s req) 4 else setRun (grantSpent s req) 3 [] :=
  if_neg (not_not_intro idle)

end Commands

/-! ### STORE, READ and ERASE end (R430) -/

section Ends
variable {s : State}

/-- A command that has run reports RESULT 0. -/
def setDone (s : State) (x : SettingsSt) : State := ev (wf { s with settings := x } F.SET_STATUS_RESULT 0 0) F.SET_EVENT_DONE 0

theorem setDone_shows (s : State) (x : SettingsSt) : (setDone s x).settings = x ∧ rf (setDone s x) F.SET_EVENT_DONE 0 = 1 :=
  setDone_facts { s with settings := x }

/-- The settings with no command running. -/
def settingsIdle (x : SettingsSt) : SettingsSt := { x with busy := 0, data := [] }

/-- The settings after a store. -/
def settingsStored (x : SettingsSt) : SettingsSt :=
  { settingsIdle x with records := aput x.records x.key x.data, wear := aput x.wear x.key ((aget x.wear x.key).getD 0 + 1) }

/-- The settings after a read of the record `d`. -/
def settingsCopied (x : SettingsSt) (d : List Byte) : SettingsSt := { settingsIdle x with buf := mwrN x.buf 0 d }

/-- The settings after an erase. -/
def settingsErased (x : SettingsSt) : SettingsSt := { settingsIdle x with records := adel x.records x.key }

theorem settingsDone_next {t : State} (finish : settingsFinish s = t) : execSettingsDone s = .next t := congrArg Host.Outcome.next finish

theorem settingsFinish_none (idle : s.settings.busy = 0) : settingsFinish s = s := by
  unfold settingsFinish
  dsimp only
  rw [idle]
  rfl

theorem settingsFinish_store (store : s.settings.busy = 1) : settingsFinish s = setDone s (settingsStored s.settings) := by
  unfold settingsFinish
  dsimp only
  rw [store]
  rfl

theorem settingsFinish_read {d : List Byte} (read : s.settings.busy = 2) (found : aget s.settings.records s.settings.key = some d) :
    settingsFinish s = wf (setDone s (settingsCopied s.settings d)) F.SET_KEY_LEN 0 d.length := by
  unfold settingsFinish
  dsimp only
  rw [read, found]
  rfl

theorem settingsFinish_erase {d : List Byte} (erase : s.settings.busy = 3) (found : aget s.settings.records s.settings.key = some d) :
    settingsFinish s = setDone s (settingsErased s.settings) := by
  unfold settingsFinish
  dsimp only
  rw [erase, found]
  rfl

theorem settingsFinish_absent (runs : s.settings.busy = 2 ∨ s.settings.busy = 3) (absent : aget s.settings.records s.settings.key = none) :
    settingsFinish s = setFail { s with settings := settingsIdle s.settings } 2 := by
  unfold settingsFinish
  dsimp only
  rcases runs with read | erase
  · rw [read, absent]
    rfl
  · rw [erase, absent]
    rfl

theorem readDone_facts (s : State) (x : SettingsSt) (n : Nat) : (wf (setDone s x) F.SET_KEY_LEN 0 n).settings = x ∧
    setLen (wf (setDone s x) F.SET_KEY_LEN 0 n) = n % 2 ^ 15 :=
  ⟨(onlyRegs_settings (onlyRegs_field (setDone s x) F.SET_KEY_LEN 0 n)).trans (setDone_shows s x).1,
    rf_wf_same (setDone s x) F.SET_KEY_LEN 0 n (by decide) (by decide)⟩

end Ends

/-- Settles O59: the checks of each command are followed in the model's order, and each end is read off the state that it answers. -/
theorem settingsAreKept : Obligations.SettingsAreKept := by
  unfold Obligations.SettingsAreKept
  refine ⟨?store, ?read, ?erase, ?barred, fun s idle => settingsDone_next (settingsFinish_none idle), ?stored, ?copied, ?erased, ?absent,
    fun s quiet => if_neg (by rw [quiet]; exact fun due => Bool.false_ne_true due.1), fun s due up => ⟨_, rfl, if_pos ⟨due, up⟩⟩⟩
  case store =>
    intro req s landing allowed k n u
    have lands_ := store_lands landing allowed
    refine ⟨fun busy => lands_.trans (congrArg _ (if_pos busy)), fun idle foreign => lands_.trans (congrArg _ (setStore_foreign idle foreign)),
      fun idle own length => lands_.trans (congrArg _ (setStore_length idle own length)), fun idle own some_ most whole => ?_⟩
    have good := lands_.trans (congrArg _ (setStore_good idle own some_ most whole))
    refine ⟨fun worn => good.trans (congrArg _ (if_pos worn)),
      fun fresh_ full => good.trans (congrArg _ ((if_neg (Nat.not_le.mpr fresh_)).trans (if_pos full))),
      fun fresh_ room => good.trans (congrArg _ ((if_neg (Nat.not_le.mpr fresh_)).trans (if_neg (Nat.not_lt.mpr room))))⟩
  case read =>
    intro req s landing
    exact ⟨fun busy => (read_lands landing).trans (congrArg _ (if_pos busy)),
      fun idle => (read_lands landing).trans (congrArg _ (if_neg (not_not_intro idle)))⟩
  case erase =>
    intro req s landing allowed u
    have lands_ := erase_lands landing allowed
    refine ⟨fun busy => lands_.trans (congrArg _ (if_pos busy)), fun idle foreign => lands_.trans (congrArg _ ((setErase_idle idle).trans (if_pos ?_))),
      fun idle own => lands_.trans (congrArg _ ((setErase_idle idle).trans (if_neg ?_)))⟩
    · exact congrArg (!·) foreign
    · rw [show keyWritable req (setKey (grantSpent s req)) = true from own]
      exact Bool.false_ne_true
  case barred =>
    intro c v s named up barred
    rcases List.mem_cons.mp named with store | rest
    · obtain ⟨rfl, rfl⟩ := Prod.mk.inj store
      exact setCmd_barred up barred
    · obtain ⟨rfl, rfl⟩ := Prod.mk.inj (List.mem_singleton.mp rest)
      exact setCmd_barred up barred
  case stored =>
    intro s store
    obtain ⟨settings, done⟩ := setDone_shows s (settingsStored s.settings)
    exact ⟨_, settingsDone_next (settingsFinish_store store), congrArg SettingsSt.busy settings, done, congrArg SettingsSt.records settings,
      congrArg SettingsSt.wear settings⟩
  case copied =>
    intro d s read found
    obtain ⟨settings, length⟩ := readDone_facts s (settingsCopied s.settings d) d.length
    exact ⟨_, settingsDone_next (settingsFinish_read read found), congrArg SettingsSt.busy settings, congrArg SettingsSt.buf settings, length,
      (congrArg SettingsSt.records settings).trans rfl⟩
  case erased =>
    intro d s erase found
    obtain ⟨settings, _⟩ := setDone_shows s (settingsErased s.settings)
    exact ⟨_, settingsDone_next (settingsFinish_erase erase found), congrArg SettingsSt.busy settings, congrArg SettingsSt.records settings⟩
  case absent =>
    intro s runs absent
    obtain ⟨settings, failed, result⟩ := setFail_facts { s with settings := settingsIdle s.settings } 2
    exact ⟨_, settingsDone_next (settingsFinish_absent runs absent), settings, result, failed⟩

end Sys2Proof.Proofs
end

section
/-! PROOFS. The statements of chapter 20, "Security": images, key envelopes, the end of a grant, and attestation reports. -/

namespace Sys2Proof.Proofs

open Sys2Proof Sys2Proof.Machine Sys2Proof.Safety Sys2Proof.Laws

/-! ### Images (R442, R444) -/

section Images
variable {s : State} {l : List Byte}

/-- The image waits in the inactive slot of its type. -/
def imageTaken (x : SecSt) (i : Image) : SecSt :=
  if i.type = 1 then { x with images := x.images.set (1 - x.hubSlot) (some i), hubNew := true }
  else { x with images := x.images.set (3 - x.coreSlot) (some i), coreNew := true }

/-- An image that has been loaded is reported. -/
def imageShown (s : State) (x : SecSt) : State := ev { s with sec := x } F.SEC_EVENT_IMAGE_LOADED 0

theorem imageShown_facts (s : State) (x : SecSt) : rf (imageShown s x) F.SEC_EVENT_IMAGE_LOADED 0 = 1 ∧ (imageShown s x).sec = x :=
  ⟨rf_ev_same _ F.SEC_EVENT_IMAGE_LOADED 0 (by decide) (by decide), onlyEvents_sec (onlyEvents_field { s with sec := x } F.SEC_EVENT_IMAGE_LOADED 0)⟩

theorem imageLoad_eq (up : islandUp s = true) : execImageLoad l s =
    if imageReason s [1, 2] l ≠ 0 then .next (secEvent s F.SEC_EVENT_IMAGE_REFUSED (imageReason s [1, 2] l))
    else .next (imageShown s (imageTaken s.sec (imageOf l))) :=
  if_neg (by rw [up]; decide)

/-- An image that verifies is taken as `x`, the security state that its type gives. -/
theorem imageLoad_takes {x : SecSt} (up : islandUp s = true) (good : imageReason s [1, 2] l = 0) (slot : imageTaken s.sec (imageOf l) = x) :
    ∃ t, execImageLoad l s = .next t ∧ rf t F.SEC_EVENT_IMAGE_LOADED 0 = 1 ∧ t.sec = x := by
  obtain ⟨loaded, sec⟩ := imageShown_facts s (imageTaken s.sec (imageOf l))
  exact ⟨_, (imageLoad_eq up).trans (if_neg (not_not_intro good)), loaded, sec.trans slot⟩

theorem imageLoad_refused (up : islandUp s = true) (bad : imageReason s [1, 2] l ≠ 0) : ∃ t, execImageLoad l s = .next t ∧
    t = secEvent s F.SEC_EVENT_IMAGE_REFUSED (imageReason s [1, 2] l) ∧ t.sec = s.sec ∧ rf t F.SEC_EVENT_IMAGE_REFUSED 0 = 1 :=
  ⟨_, (imageLoad_eq up).trans (if_pos bad), rfl, secEvent_facts s F.SEC_EVENT_IMAGE_REFUSED _ (by decide) (by decide)⟩

end Images

/-! ### Operator keys (R445) -/

section Keys
variable {s : State} {l : List Byte}

/-- Why an envelope is refused; 0 where it is not. -/
def envelopeReason (s : State) (l : List Byte) : Nat :=
  if imageReason s [3] l = 0 ∧ (s.sec.opKeys.any (fun k => !k.isEmpty) ∨ imageLen l ≠ 1953 ∨ 2 ≤ fieldLE 1952 1 (imageBody l)) then 11
  else imageReason s [3] l

theorem envelope_eq (up : hubUp s = true) : execOperatorKeyEnvelope l s =
    if envelopeReason s l ≠ 0 then .next (secEvent s F.SEC_EVENT_IMAGE_REFUSED (envelopeReason s l))
    else .next (keyInstall s (fieldLE 1952 1 (imageBody l)) ((imageBody l).take 1952)) :=
  if_neg (by rw [up]; decide)

theorem envelope_refused {n : Nat} (up : hubUp s = true) (reason : envelopeReason s l = n) (refuses : n ≠ 0) :
    execOperatorKeyEnvelope l s = .next (secEvent s F.SEC_EVENT_IMAGE_REFUSED n) :=
  (envelope_eq up).trans ((if_pos (by rw [reason]; exact refuses)).trans (by rw [reason]))

theorem envelopeReason_bad (bad : imageReason s [3] l ≠ 0) : envelopeReason s l = imageReason s [3] l := if_neg fun held => bad held.1

theorem envelopeReason_taken (good : imageReason s [3] l = 0) (installed : ∃ k ∈ s.sec.opKeys, k ≠ []) : envelopeReason s l = 11 := by
  obtain ⟨k, known, key⟩ := installed
  exact if_pos ⟨good, .inl (List.any_eq_true.mpr ⟨k, known, by simpa using key⟩)⟩

theorem envelopeReason_good (good : imageReason s [3] l = 0) (none_ : ∀ k ∈ s.sec.opKeys, k = []) (length : imageLen l = 1953)
    (slot : fieldLE 1952 1 (imageBody l) < 2) : envelopeReason s l = 0 := by
  refine (if_neg ?_).trans good
  rintro ⟨_, installed | odd | outside⟩
  · obtain ⟨k, known, key⟩ := List.any_eq_true.mp installed
    rw [none_ k known] at key
    exact Bool.false_ne_true key
  · exact odd length
  · exact absurd slot (Nat.not_lt.mpr outside)

end Keys

/-! ### Grants end (R447) -/

section Grants
variable {s : State} {g : Grant}

theorem grantExpiry_none (none_ : s.sec.grant = none) : execGrantExpiry s = .next s := by
  unfold execGrantExpiry
  rw [none_]

theorem grantExpiry_held (held : s.sec.grant = some g) : execGrantExpiry s =
    if g.expires ≤ s.time.now then .next { s with sec := { s.sec with grant := none } } else .next s := by
  unfold execGrantExpiry
  rw [held]

end Grants

/-! ### Attestation (R449, R450) -/

section Reports
variable {s : State} {req : Requester}

/-- A report is taken for an address, or for the management layer. -/
def reportTaken (s : State) (addr : Option Nat) (nonce : List Byte) : State := { s with sec := { s.sec with attest := some ⟨addr, nonce, none⟩ } }

theorem attest_some (busy : s.sec.attest ≠ none) : s.sec.attest.isSome = true := Option.isSome_iff_ne_none.mpr busy

theorem attest_none (free : s.sec.attest = none) : ¬ s.sec.attest.isSome = true := by
  rw [free]
  exact Bool.false_ne_true

theorem attestStart_free (free : s.sec.attest = none) (addr : Option Nat) (nonce : List Byte) :
    attestStart s addr nonce = attestCapture (reportTaken s addr nonce) := if_neg (attest_none free)

theorem attestRequest_eq (up : islandUp s = true) (nonce : List Byte) : execAttestRequest nonce s = .next (attestStart s none nonce) :=
  if_neg (by rw [up]; decide)

/-- The address that SEC_ATTEST_ADDR names. -/
def reportAddr (s : State) : Nat := rf2 s F.SEC_ATTEST_ADDR_LO_ADDR F.SEC_ATTEST_ADDR_HI_ADDR 0

/-- The nonce that SEC_NONCE holds. -/
def reportNonce (s : State) : List Byte := (List.range 8).flatMap fun n => toLE 4 (rf s (F.SEC_NONCE_NONCE.nth n) 0)

theorem attestGo_lands (landing : lands s req .sec 0 0x10 1 [0]) : execSecAttestGo req s = .next (attestGo 1 s) :=
  (regCmd_lands landing fun _ _ u => attestGo 1 u).trans (congrArg _ (congrArg _ (pulse_any (by decide) rfl 0 1)))

theorem attestGo_eq (s : State) : attestGo 1 s = if s.sec.attest.isSome = true then secEvent s F.SEC_EVENT_ATTEST_REFUSED 12
    else if (!reportFits s (reportAddr s)) = true then secEvent s F.SEC_EVENT_ATTEST_REFUSED 13
    else attestStart s (some (reportAddr s)) (reportNonce s) := if_neg (by decide)

theorem attestGo_takes (free : s.sec.attest = none) (fits : reportFits s (reportAddr s) = true) :
    attestGo 1 s = attestCapture (reportTaken s (some (reportAddr s)) (reportNonce s)) :=
  (attestGo_eq s).trans ((if_neg (attest_none free)).trans ((if_neg (by rw [fits]; exact Bool.false_ne_true)).trans (attestStart_free free _ _)))

/-- The report in preparation is done with. -/
def reportEnded (s : State) : State := { s with sec := { s.sec with attest := none } }

/-- A signed report goes to the management layer. -/
def reportSent (s : State) (body : List Byte) : State := { s with sec := { s.sec with reports := s.sec.reports ++ [signedReport body] } }

theorem attestDone_sends {nonce body : List Byte} (ready : s.sec.attest = some ⟨none, nonce, some body⟩) :
    execAttestDone s = .next (reportSent (reportEnded s) body) := by
  unfold execAttestDone
  rw [ready]
  rfl

theorem attestDone_writes {a : Nat} {nonce body : List Byte} (ready : s.sec.attest = some ⟨some a, nonce, some body⟩) :
    execAttestDone s = .next (ev (hubWrite (reportEnded s) a (signedReport body)) F.SEC_EVENT_ATTEST_DONE 0) := by
  unfold execAttestDone
  rw [ready]
  rfl

end Reports

/-- Settles O60: each command is followed branch by branch, and what it leaves is read off the state that it answers. -/
theorem securityActs : Obligations.SecurityActs := by
  unfold Obligations.SecurityActs
  refine ⟨?image, ?envelope, ?grant, ?request, ?go, fun nonce body s ready => ⟨_, attestDone_sends ready, rfl, rfl⟩,
    fun a nonce body s ready => ⟨reportEnded s, rfl, attestDone_writes ready⟩⟩
  case image =>
    exact fun l s up => ⟨imageLoad_refused up, fun good hub => imageLoad_takes up good (if_pos hub), fun good core => imageLoad_takes up good (if_neg core)⟩
  case envelope =>
    intro l s up
    refine ⟨fun bad => envelope_refused up (envelopeReason_bad bad) bad,
      fun good installed => envelope_refused up (envelopeReason_taken good installed) (by decide), fun good none_ length slot => ?_⟩
    exact (envelope_eq up).trans (if_neg (not_not_intro (envelopeReason_good good none_ length slot)))
  case grant =>
    exact fun s => ⟨grantExpiry_none, fun g held lasts => (grantExpiry_held held).trans (if_neg (Nat.not_le.mpr lasts)),
      fun g held over_ => (grantExpiry_held held).trans (if_pos over_)⟩
  case request =>
    intro nonce s up
    exact ⟨fun busy => (attestRequest_eq up nonce).trans (congrArg _ (if_pos (attest_some busy))),
      fun free => ⟨reportTaken s none nonce, rfl, (attestRequest_eq up nonce).trans (congrArg _ (attestStart_free free none nonce))⟩⟩
  case go =>
    intro req s landing a
    have go := attestGo_lands landing
    refine ⟨fun busy => go.trans (congrArg _ ((attestGo_eq s).trans (if_pos (attest_some busy)))), fun free outside => ?_,
      fun free fits => ⟨reportTaken s (some a) (reportNonce s), rfl, go.trans (congrArg _ (attestGo_takes free fits))⟩⟩
    exact go.trans (congrArg _ ((attestGo_eq s).trans ((if_neg (attest_none free)).trans (if_pos (congrArg (!·) outside)))))

end Sys2Proof.Proofs
end
